-- ==== Sys2Proof/Word.lean ====
section
/-!
DEFINITION. The word types of the Rhoril KW-RL512-UE (R7: values are little-endian; R115: a syllable is 32 bits)
and their plainest arithmetic.
-/

namespace Sys2Proof

/-- A 64-bit word: the width of scalar, steer, counter and control registers (R28). -/
abbrev Word := BitVec 64

/-- A byte of scratchpad, register or HBM. -/
abbrev Byte := BitVec 8

/-- A syllable (R115). -/
abbrev Syllable := BitVec 32

/-- The field of width `n` at bit `lo` of a natural number. -/
def fieldOf (w lo n : Nat) : Nat := w / 2 ^ lo % 2 ^ n

/-- The smallest multiple of `m` at or above `a`. -/
def ceilTo (a m : Nat) : Nat := (a + (m - 1)) / m * m

/-- The quotient of `a` by `m`, rounded up. -/
def ceilDiv (a m : Nat) : Nat := (a + (m - 1)) / m

/-- Bits `n-1:0` of a 64-bit word, copied upward from bit `n-1`. -/
def sextBits (n : Nat) (w : Nat) : Word := BitVec.ofInt 64 ((BitVec.ofNat n w).toInt)

end Sys2Proof
end

