-- ==== Sys2Proof/Config.lean ====
section
/-!
DEFINITION. What the specification leaves to the module, to its firmware or to its surroundings: free values, each an
opaque constant of which nothing can be proved, so that a statement holds whatever it is (notes/assumptions).
-/

namespace Sys2Proof.Config

/-- The mesh's transfer time beyond one cycle, by a count of transfers: a transfer takes at most 72 in all (R102).
[DEDUCED: log 6] -/
opaque meshDelay : Nat → Nat

/-- The cycles that a launch's preparation takes (R245, R254), by a count of launches started. [DESIGN CHOICE: log 7] -/
opaque prepareCycles : Nat → Nat

/-- The cycles of the launch unit's system code before a restart's restore (R276). [DESIGN CHOICE: log 8] -/
opaque resumeCycles : Nat → Nat

/-- A byte read from a host window: endpoint, address, and a count of reads (R220, R245, R246). [DESIGN CHOICE: log 9] -/
opaque hostByte : Nat → Nat → Nat → BitVec 8

/-- The SM3 digest of some bytes, 32 bytes (R300 to R303). [DESIGN CHOICE: log 10] -/
opaque sm3 : List (BitVec 8) → List (BitVec 8)

/-- Whether an SM2 signature verifies over a digest under the fused key hash (R300). [DESIGN CHOICE: log 10] -/
opaque sm2Verify : List (BitVec 8) → List (BitVec 8) → List (BitVec 8) → Bool

/-- The SM2 signature of a digest under the fused identity key, by a count of signatures (R303).
[DESIGN CHOICE: log 10] -/
opaque sm2Sign : List (BitVec 8) → Nat → List (BitVec 8)

/-- The boot ROM version's bytes (R302). [DESIGN CHOICE: log 11] -/
opaque bootVersion : List (BitVec 8)

/-- The system code that a firmware body loads (R288). [DESIGN CHOICE: log 12] -/
opaque systemCode : List (BitVec 8) → List (BitVec 32)

/-- The module's pipeline data, device-internal bytes of a context image (R270, R272), by core and offset.
[DESIGN CHOICE: log 13] -/
opaque pipelineByte : Nat → Nat → BitVec 8

/-- What an mfs of the write-only register itlbinv gives, by a count of such reads (R287). [DESIGN CHOICE: log 14] -/
opaque writeOnlyRead : Nat → Word

/-- The device hash of the KW-RL512-UE (R323). -/
def deviceHash : BitVec 64 := 0x5C1E93A07D24B68F#64

end Sys2Proof.Config
end

