-- ==== Sys2Proof/Syntax.lean ====
section
/-!
DEFINITION. The part's steps (spec/opcode_table.json): the encoded syllables of R130 to R132, the system-register
writes with a behaviour of their own (R280, R283, R287, R306, R307), the events of the part, the host commands of
R295, and the fates of words and commands that are no instruction (R133, R134, R295).
A syllable's constructor carries its fields as the table names them. Where its form takes a lend (R118, R119), `l`
holds the lend field when the bundle has a header, and `none` when it has no header (the two differ: R119).
-/

namespace Sys2Proof

/-- A label's kind in the symbol section (R319, R322). -/
inductive SymKind where
  | bundle | furrow | handle
deriving DecidableEq, Repr

/-- A label of a unit (R319): its name, its kind, the lcore_index of its section (`none`: the common section), local
value. -/
structure Symbol where
  name : List (BitVec 8)
  kind : SymKind
  core : Option Nat
  value : Nat
  unit : Nat
deriving DecidableEq, Repr

/-- A relocation record (R320). In a type 0x0E record `syl` is the furrow, local to the unit. -/
structure Reloc where
  syl : Nat
  type : BitVec 8
  core : Option Nat
  sym : Nat
  addend : Int
deriving DecidableEq, Repr

/-- One furrow of a unit: its number, its descriptor (R45), its .done mark and its .succ pairs of index and furrow
(R316). -/
structure FurrowDecl where
  num : Nat
  desc : BitVec 64
  done : Bool
  succ : List (Nat × Nat) := []
deriving DecidableEq, Repr

/-- An .occupancy declaration (R250, R316). -/
structure Occupancy where
  furrow : Nat
  landing : Nat
  flight : Nat
  cq : Nat
deriving DecidableEq, Repr

/-- A data image (R317). -/
structure Image where
  addr : Nat
  bytes : List (BitVec 8)
deriving DecidableEq, Repr

/-- What one section (the common one, or a core's) of a unit carries (R316, R322). -/
structure Section where
  code : List (BitVec 32) := []
  entries : List (Nat × Nat) := []
  data : List Image := []
  tiles : List (Nat × BitVec 64) := []
  handles : List (Nat × BitVec 64 × BitVec 64) := []
  sow : List (BitVec 64) := []
  occupancy : List Occupancy := []
deriving DecidableEq, Repr

/-- A unit of a function (R318): the container's sections that it owns, by place in the section table (R322), the common
section, the core sections by lcore_index, and what the join resolves. -/
structure CodeUnit where
  sects : List Nat := []
  common : Section
  cores : List (Nat × Section) := []
  furrows : List FurrowDecl := []
  nhandles : Nat := 0
  relocs : List Reloc := []
deriving DecidableEq, Repr

/-- A function of a sheaf: its units in order, its symbols, its .landing and .arg settings (R316, R318). -/
structure Func where
  units : List CodeUnit
  symbols : List Symbol := []
  landing : Nat := 0
  arg : Option Nat := none
deriving DecidableEq, Repr

/-- A sheaf (R248, R322): its identifier, the container's bytes, and its functions. A load-code command carries what the
specification gives no layout for (the directory, symbols, initial state, data images) in `funcs`; what it lays out, the
stamp included, is read from the bytes as the sheaf is loaded. -/
structure Sheaf where
  id : BitVec 64
  bytes : List (BitVec 8) := []
  stamp : BitVec 64 := 0
  translator : BitVec 32 := 0
  funcs : List Func
deriving DecidableEq, Repr

/-- The 32-byte command header of R293, the opcode apart. -/
structure Hdr where
  res0 : BitVec 16 := 0
  blen : BitVec 32 := 0
  csn : BitVec 48
  res1 : BitVec 16 := 0
  tag : BitVec 64 := 0
  res2 : BitVec 64 := 0
deriving DecidableEq, Repr

/-- A firmware image (R299), its header's fields and its body. -/
structure FirmwareImage where
  version : BitVec 32
  svn : BitVec 32
  length : BitVec 32
  pubkey : List (BitVec 8)
  sig : List (BitVec 8)
  body : List (BitVec 8)
deriving DecidableEq, Repr

/-- A function of the readiness map (R298). -/
inductive Fn where
  | mgmt | fw | sec
  | port (p : BitVec 3)
  | die (d : BitVec 2)
  | plot (q : BitVec 6)
  | chgrp (q : BitVec 6)
deriving DecidableEq, Repr

/-- A launch named by its partition and its acceptance number (R244). -/
structure LaunchId where
  part : BitVec 8
  acc : Nat
deriving DecidableEq, Repr

/-- A member of a process group (R261): module endpoint and partition. -/
structure Member where
  endpoint : BitVec 16
  part : BitVec 8
deriving DecidableEq, Repr

/-- What a state read or state write names (R285, R295): the image of a core of a launch by byte offset (R272), or a
watchpoint word of a core of a queued launch (register 0x0030 to 0x0037, R287, R289). -/
inductive StateSel where
  | image (core : Nat) (offset : Nat) (len : Nat)
  | watch (core : Nat) (reg : BitVec 3)
deriving DecidableEq, Repr

/-- The part's steps: one constructor for each row of spec/opcode_table.json. -/
inductive Instr where
  -- class S (R130, R139 to R160)
  | sadd (d a b : BitVec 6) | ssub (d a b : BitVec 6) | sand (d a b : BitVec 6) | sor (d a b : BitVec 6)
  | sxor (d a b : BitVec 6) | sshl (d a b : BitVec 6) | sshr (d a b : BitVec 6) | ssra (d a b : BitVec 6)
  | smul (d a b : BitVec 6) | smulh (d a b : BitVec 6) (n : BitVec 1) | sdiv (d a b : BitVec 6) (n : BitVec 1)
  | srem (d a b : BitVec 6) (n : BitVec 1) | smin (d a b : BitVec 6) (n : BitVec 1)
  | smax (d a b : BitVec 6) (n : BitVec 1) | sclz (d a : BitVec 6) | spop (d a : BitVec 6)
  | saddi (d a : BitVec 6) (i : BitVec 10) (l : Option (BitVec 9))
  | sandi (d a : BitVec 6) (i : BitVec 10) (l : Option (BitVec 9))
  | sori (d a : BitVec 6) (i : BitVec 10) (l : Option (BitVec 9))
  | sxori (d a : BitVec 6) (i : BitVec 10) (l : Option (BitVec 9))
  | sshli (d a : BitVec 6) (i : BitVec 10) (l : Option (BitVec 9))
  | sshri (d a : BitVec 6) (i : BitVec 10) (l : Option (BitVec 9))
  | ssrai (d a : BitVec 6) (i : BitVec 10) (l : Option (BitVec 9))
  | smuli (d a : BitVec 6) (i : BitVec 10) (l : Option (BitVec 9))
  | sli (d : BitVec 6) (i : BitVec 16) (l : Option (BitVec 9))
  | slhi (d : BitVec 6) (i : BitVec 16) (l : Option (BitVec 9))
  | sadr (d a b : BitVec 6) (m : BitVec 4) | ssel (d a b : BitVec 6) (m : BitVec 4)
  | sext (d a : BitVec 6) (z : BitVec 1) (w : BitVec 2)
  | scmp (k : BitVec 4) (c : BitVec 1) (f : BitVec 3) (n : BitVec 1) (a b : BitVec 6)
  | scmpi (k : BitVec 4) (c : BitVec 1) (f : BitVec 3) (n : BitVec 1) (a : BitVec 6) (i : BitVec 7)
      (l : Option (BitVec 9))
  | kset (k : BitVec 4) (v : BitVec 2) | ksetReg (k : BitVec 4) (a : BitVec 6)
  | prep (k : BitVec 4) (a b : BitVec 8) | prepHi (k : BitVec 4) (a b : BitVec 8)
  | head (k : BitVec 4) | fend
  | loop (c : BitVec 9) (o : BitVec 12) (l : Option (BitVec 9)) | loopReg (g : BitVec 6) (o : BitVec 12)
  | loopq (o : BitVec 12) | wnext (k : BitVec 4) (c : BitVec 1) (d : BitVec 6)
  | cadd (n a : BitVec 6) | caddR (n a b : BitVec 6)
  | ctest (k : BitVec 4) (c : BitVec 1) (n : BitVec 6) (i : BitVec 10) (l : Option (BitVec 9))
  | ctestReg (k : BitVec 4) (c : BitVec 1) (n g : BitVec 6) | cread (d n : BitVec 6)
  | rfence (a b : BitVec 6) | vjoin | drain (n : BitVec 4) | bclose
  | adv (h n : BitVec 4) (e : BitVec 1) | hset (h a b : BitVec 6) | hget (d h : BitVec 6) (w : BitVec 1)
  | mtc (c a : BitVec 6) | mfc (d c : BitVec 6) | mts (a : BitVec 6) (r : BitVec 16)
  | mfs (d : BitVec 6) (r : BitVec 16) | trap (i : BitVec 22) (l : Option (BitVec 9)) | eret | ovld (a : BitVec 6)
  -- system-register writes with a row of their own: an mts to the register named
  | itlbinv (a : BitVec 6) | iptroot (a : BitVec 6) | ctxid (a : BitVec 6)
  | windowTable (a : BitVec 6) (r : BitVec 16) | errstat (a : BitVec 6) (r : BitVec 16)
  | einj (a : BitVec 6) (r : BitVec 16)
  -- class V (R131, R161 to R186)
  | vadd (d a b : BitVec 6) (m : BitVec 4) (l : Option (BitVec 9))
  | vsub (d a b : BitVec 6) (m : BitVec 4) (l : Option (BitVec 9))
  | vmul (d a b : BitVec 6) (m : BitVec 4) (l : Option (BitVec 9))
  | vfma (d a b : BitVec 6) (m : BitVec 4) (l : Option (BitVec 9))
  | vmin (d a b : BitVec 6) (m : BitVec 4) (l : Option (BitVec 9))
  | vmax (d a b : BitVec 6) (m : BitVec 4) (l : Option (BitVec 9))
  | vabs (d a : BitVec 6) (m : BitVec 4) (l : Option (BitVec 9))
  | vneg (d a : BitVec 6) (m : BitVec 4) (l : Option (BitVec 9))
  | vand (d a b : BitVec 6) (m : BitVec 4) (l : Option (BitVec 9))
  | vor (d a b : BitVec 6) (m : BitVec 4) (l : Option (BitVec 9))
  | vxor (d a b : BitVec 6) (m : BitVec 4) (l : Option (BitVec 9))
  | vshl (d a b : BitVec 6) (m : BitVec 4) (l : Option (BitVec 9))
  | vshr (d a b : BitVec 6) (m : BitVec 4) (l : Option (BitVec 9))
  | vsra (d a b : BitVec 6) (m : BitVec 4) (l : Option (BitVec 9))
  | vcmp (f d : BitVec 3) (a b : BitVec 6) (m : BitVec 4) (l : Option (BitVec 9))
  | vsel (d a b : BitVec 6) (m : BitVec 4) (l : Option (BitVec 9))
  | vcas (d a b : BitVec 6) (m : BitVec 4) (l : Option (BitVec 9))
  | vexp (d a : BitVec 6) (m : BitVec 4) (l : Option (BitVec 9))
  | vlog (d a : BitVec 6) (m : BitVec 4) (l : Option (BitVec 9))
  | vrcp (d a : BitVec 6) (m : BitVec 4) (l : Option (BitVec 9))
  | vrsqrt (d a : BitVec 6) (m : BitVec 4) (l : Option (BitVec 9))
  | vtanh (d a : BitVec 6) (m : BitVec 4) (l : Option (BitVec 9))
  | vcvt (d a : BitVec 6) (c : BitVec 2) (i m : BitVec 4) (l : Option (BitVec 9))
  | vwid (d a : BitVec 6) (c m : BitVec 4) (l : Option (BitVec 9))
  | vsumr (d a : BitVec 6) (m : BitVec 4) (l : Option (BitVec 9))
  | vmaxr (d a : BitVec 6) (m : BitVec 4) (l : Option (BitVec 9))
  | vthr (d a b : BitVec 6) (m : BitVec 4) (l : Option (BitVec 9))
  | vhist (b a : BitVec 6) (m : BitVec 4) (l : Option (BitVec 9))
  | vrenorm (d a : BitVec 6) (m : BitVec 4) (l : Option (BitVec 9))
  | vbcast (d a : BitVec 6) (m : BitVec 4) (l : Option (BitVec 9))
  | vperm (d a b : BitVec 6) (m : BitVec 4) (l : Option (BitVec 9))
  | vtrn (d a : BitVec 6) (m : BitVec 4) (l : Option (BitVec 9))
  | vshape (r : BitVec 14) (c : BitVec 8)
  | viota (d b : BitVec 6) (m : BitVec 4) (l : Option (BitVec 9))
  | vrand (d b : BitVec 6) (m : BitVec 4) (l : Option (BitVec 9))
  | mand (d a b : BitVec 6) (l : Option (BitVec 9)) | mor (d a b : BitVec 6) (l : Option (BitVec 9))
  | mnot (d a : BitVec 6) (l : Option (BitVec 9)) | mpop (d a : BitVec 6) (l : Option (BitVec 9))
  -- class M (R131, R187 to R204)
  | wld (t : BitVec 4) (s : BitVec 2) (b e : BitVec 8) | wset (s : BitVec 2) (b e : BitVec 8)
  | wclr (s : BitVec 2) (b : BitVec 8) | mma (c t : BitVec 6) (s : BitVec 2) | mmaz (c t : BitVec 6) (s : BitVec 2)
  | mmag (a g : BitVec 6) (s : BitVec 2) | mpat (a : BitVec 6) | mtag (t a : BitVec 6)
  | mdrn (d c b : BitVec 6) (m : BitVec 4) | mgdrn (d n : BitVec 6) (z : BitVec 1) (m : BitVec 4)
  | mzero (e : BitVec 1) | mmiss (d : BitVec 6)
  -- classes L and W (R132, R206 to R214)
  | ld (d a b : BitVec 6) (x : BitVec 1) (w : BitVec 2) | ldh (d : BitVec 6) (h n : BitVec 4) (w : BitVec 2)
  | ldt (d a b : BitVec 6) (x : BitVec 1) | ldth (d : BitVec 6) (h n : BitVec 4)
  | lds (d a : BitVec 6) (i : BitVec 10) (l : Option (BitVec 9))
  | sqld (a : BitVec 6) (i : BitVec 10) (l : Option (BitVec 9)) | ldm (d a : BitVec 6) (x : BitVec 1)
  | st (d a b : BitVec 6) (x : BitVec 1) (w : BitVec 2) | sth (d : BitVec 6) (h n : BitVec 4) (w : BitVec 2)
  | stt (d a b : BitVec 6) (x : BitVec 1) | stth (d : BitVec 6) (h n : BitVec 4)
  | sts (d a : BitVec 6) (i : BitVec 10) (l : Option (BitVec 9)) | stm (d a : BitVec 6) (x : BitVec 1)
  -- class D (R132, R215 to R228)
  | dcp (r : BitVec 6) (h n : BitVec 4) (x : BitVec 1) | dput (d a b : BitVec 6)
  | dred (d a b : BitVec 6) (p f : BitVec 2) (l : Option (BitVec 9)) | dgln (d a b : BitVec 6) (m : BitVec 4)
  | dhget (d a b : BitVec 6) (n : BitVec 4) | dhput (d a b : BitVec 6) (n : BitVec 4)
  | amo (d a : BitVec 6) (p f : BitVec 2) | amor (d a b : BitVec 6) (p f : BitVec 2) | dcan (t : BitVec 4)
  | chact (k : BitVec 5) (r : BitVec 15) | chactReg (k : BitVec 5) (g : BitVec 6)
  | chrd (k : BitVec 5) (c : BitVec 4) (g : BitVec 6) (t : BitVec 4)
  | chrdHandle (k : BitVec 5) (c h n t : BitVec 4) | chwr (k : BitVec 5) (c : BitVec 4) (g : BitVec 6)
  | chwrHandle (k : BitVec 5) (c h n : BitVec 4) | chpre (k : BitVec 5) | chpra | chref | chrefb (k : BitVec 5)
  -- class X (R132, R134, R230)
  | nop | hpf (p : BitVec 22)
  -- events of a launch or of the acting core
  | furrowOrigin (l : LaunchId) | merge | missingHead | headlandHashCompare (l : LaunchId) | furrowOverrun
  | elasticJoin (l : LaunchId) | drainRelease | holdRelease | freezeRelease
  | scalarResultWrite (i : Nat) | vectorRowRead (f j : Nat) | vectorRowWrite (f j : Nat)
  | harrowResultWrite (f j : Nat) | countQueueAppend (f j : Nat) | scratchpadRowRead (f j : Nat)
  | registerRowWrite (f j : Nat) | storeRowWrite (f j : Nat) | scaleAppend (f j : Nat) | arrayRowRead (f j : Nat)
  | arrayRowUpdate (f j : Nat) | wldScalePop (f j : Nat) | wldKrowWrite (f j : Nat) | slotLoadingEnd (f j : Nat)
  | descriptorUpdate (f j : Nat) | accumulatorRowRead (f j : Nat) | gleanerListRead (f j : Nat)
  | drillBlockRead (f j : Nat) | drillBlockWrite (f j : Nat) | sendBlockRead (f j : Nat) | recordArrival (i : Nat)
  | hostDataArrival (f off : Nat) (data : List (BitVec 8)) | hostTransferComplete (f : Nat)
  | hostAcknowledgement (f : Nat) | hostSideError (f : Nat) | channelReadData (f j : Nat)
  | channelWriteSourceRead (f j : Nat) | refreshDeadline (b : Nat) | systemWindow (part : BitVec 8)
  | codeFillDone (l : LaunchId) (core : Nat) | commonStop (l : LaunchId) | preemptionStop (l : LaunchId)
  | saveEnd (l : LaunchId) | footprintSaveEnd (l : LaunchId) | footprintRestoreEnd (l : LaunchId)
  | restoreEnd (l : LaunchId) | restartPreamble (l : LaunchId) | restartCycle (l : LaunchId)
  | firstOrigin (l : LaunchId) | launchCompletion (l : LaunchId)
  | peerReduceContribution (w : BitVec 6) (rank : Nat) (data : List (BitVec 8)) | thermalYield | thermalRecovery
  | powerUp | functionReady (f : Fn) (ok : Bool) | managementReset
  -- host commands (R295)
  | stateReport (h : Hdr) | resendReports (h : Hdr) (first last : BitVec 48)
  | deliverFirmwareImage (h : Hdr) (img : FirmwareImage)
  | createPartition (h : Hdr) (number px py pw ph : BitVec 8) (class0 : Bool)
  | destroyPartition (h : Hdr) (number : BitVec 8)
  | writePartitionSeedRegister (h : Hdr) (part : BitVec 8) (seed : BitVec 64)
  | addToPartitionCounter (h : Hdr) (part counter : BitVec 8) (amount : BitVec 64)
  | addToContextCounter (h : Hdr) (l : LaunchId) (core : Nat) (n : BitVec 6) (amount : BitVec 64)
  | writePartitionWindowEntry (h : Hdr) (part : BitVec 8) (w : BitVec 6) (w0 w1 w2 w3 : BitVec 64)
  | loadCode (h : Hdr) (part : BitVec 8) (sheaf : Sheaf)
  | unregisterSheaf (h : Hdr) (part : BitVec 8) (sheaf : BitVec 64)
  | launch (h : Hdr) (rec : List (BitVec 8)) | cancelQueuedLaunch (h : Hdr) (l : LaunchId)
  | resumeLaunch (h : Hdr) (l : LaunchId) (x0 y0 : BitVec 8) | releaseContext (h : Hdr) (l : LaunchId)
  | stateRead (h : Hdr) (l : LaunchId) (sel : StateSel)
  | stateWrite (h : Hdr) (l : LaunchId) (sel : StateSel) (data : List (BitVec 8))
  | readSurveyTable (h : Hdr) (part : BitVec 8) | clearSurveyTable (h : Hdr) (part : BitVec 8)
  | writeProcessGroupEntry (h : Hdr) (part : BitVec 8) (g : BitVec 4) (w h' : BitVec 8) (members : List Member)
  | attest (h : Hdr) (nonce : List (BitVec 8)) (part : BitVec 8) | readErrorLogs (h : Hdr) (x : BitVec 5) (y : BitVec 4)
  | clearErrorLogs (h : Hdr) (x : BitVec 5) (y : BitVec 4)
  -- words and commands that are no instruction
  | undefinedOpcode (w : BitVec 32) | hintSpace (o : BitVec 6) (p : BitVec 22)
  | undefinedCommand (h : Hdr) (opcode : BitVec 16) (bad : BitVec 16) | powerLoss (interrupted : Bool)
deriving DecidableEq, Repr

end Sys2Proof
end

