-- ==== Sys2Proof/WellFormed.lean ====
section
/-!
DEFINITION. Which terms of `Instr` are well formed: register fields name members of their sets (R126), codes are ones
their tables define (R120, R122, R124, R131), and a term that one row of the opcode table claims is not spelt by
another row's constructor.
-/

namespace Sys2Proof

/-- A vector destination code: v0 to v39 (R126). -/
def vdst (d : BitVec 6) : Bool := d.toNat < 40

/-- A vector source code: v, b or the zero code; `bc` also admits the broadcast code 49 (R126). -/
def vsrc (bc : Bool) (a : BitVec 6) : Bool := a.toNat ≤ 48 || (bc && a.toNat == 49)

/-- A member of a 16-register set in a 6-bit field (R126). -/
def lt16 (x : BitVec 6) : Bool := x.toNat < 16

/-- A steer register number (R122). -/
def steer (k : BitVec 4) : Bool := k.toNat < 12

/-- A system-register number that has a row of its own in the opcode table (R287, R306, R307). -/
def ownRow (r : BitVec 16) : Bool :=
  r == 0x22#16 || r == 0x20#16 || r == 0x13#16 || (0x100 ≤ r.toNat && r.toNat ≤ 0x1FF) ||
  (0x3000 ≤ r.toNat && r.toNat < 0x3080 && (r.toNat % 16 == 0 || r.toNat % 16 == 8))

/-- The error-status number of array `a`, at 0x3000 + 16a (R306). -/
def isErrstat (r : BitVec 16) : Bool := 0x3000 ≤ r.toNat && r.toNat < 0x3080 && r.toNat % 16 == 0

/-- The injection register of array `a`, at 0x3000 + 16a + 8 (R307). -/
def isEinj (r : BitVec 16) : Bool := 0x3000 ≤ r.toNat && r.toNat < 0x3080 && r.toNat % 16 == 8

/-- The window-table numbers (R287). -/
def isWindow (r : BitVec 16) : Bool := 0x100 ≤ r.toNat && r.toNat ≤ 0x1FF

/-- Whether class `c` defines opcode `o` (R130 to R132); class H has none and class X's 0x3F is none. -/
def opDefined (c o : Nat) : Bool :=
  match c with
  | 1 => o ≤ 0x36
  | 2 => o ≤ 0x26
  | 3 => o ≤ 0x0B
  | 4 => o ≤ 0x06
  | 5 => o ≤ 0x05
  | 6 => o ≤ 0x08 || (0x10 ≤ o && o ≤ 0x16)
  | 7 => o ≤ 0x3E
  | _ => false

/-- Terms that a word can spell, and that no other constructor spells: what the encoder and the decoder share. -/
def Instr.encodable : Instr → Bool
  | .mts _ r => !ownRow r
  | .windowTable _ r => isWindow r
  | .errstat _ r => isErrstat r
  | .einj _ r => isEinj r
  | .hintSpace o _ => 2 ≤ o.toNat && o.toNat ≤ 0x3E
  | .undefinedOpcode w =>
      w.toNat < 2 ^ 31 && !(opDefined (fieldOf w.toNat 28 3) (fieldOf w.toNat 22 6)) && fieldOf w.toNat 28 3 != 0
  | .furrowOrigin _ | .merge | .missingHead | .headlandHashCompare _ | .furrowOverrun | .elasticJoin _
  | .drainRelease | .holdRelease | .freezeRelease | .scalarResultWrite _ | .vectorRowRead _ _
  | .vectorRowWrite _ _ | .harrowResultWrite _ _ | .countQueueAppend _ _ | .scratchpadRowRead _ _
  | .registerRowWrite _ _ | .storeRowWrite _ _ | .scaleAppend _ _ | .arrayRowRead _ _ | .arrayRowUpdate _ _
  | .wldScalePop _ _ | .wldKrowWrite _ _ | .slotLoadingEnd _ _ | .descriptorUpdate _ _
  | .accumulatorRowRead _ _ | .gleanerListRead _ _ | .drillBlockRead _ _ | .drillBlockWrite _ _
  | .sendBlockRead _ _ | .recordArrival _ | .hostDataArrival _ _ _ | .hostTransferComplete _
  | .hostAcknowledgement _ | .hostSideError _ | .channelReadData _ _ | .channelWriteSourceRead _ _
  | .refreshDeadline _ | .systemWindow _ | .codeFillDone _ _ | .commonStop _ | .preemptionStop _ | .saveEnd _
  | .footprintSaveEnd _ | .footprintRestoreEnd _ | .restoreEnd _ | .restartPreamble _ | .restartCycle _
  | .firstOrigin _ | .launchCompletion _ | .peerReduceContribution _ _ _ | .thermalYield | .thermalRecovery
  | .powerUp | .functionReady _ _ | .managementReset | .stateReport _ | .resendReports _ _ _
  | .deliverFirmwareImage _ _ | .createPartition _ _ _ _ _ _ _ | .destroyPartition _ _
  | .writePartitionSeedRegister _ _ _ | .addToPartitionCounter _ _ _ _ | .addToContextCounter _ _ _ _ _
  | .writePartitionWindowEntry _ _ _ _ _ _ _ | .loadCode _ _ _ | .unregisterSheaf _ _ _ | .launch _ _
  | .cancelQueuedLaunch _ _ | .resumeLaunch _ _ _ _ | .releaseContext _ _ | .stateRead _ _ _
  | .stateWrite _ _ _ _ | .readSurveyTable _ _ | .clearSurveyTable _ _ | .writeProcessGroupEntry _ _ _ _ _ _
  | .attest _ _ _ | .readErrorLogs _ _ _ | .clearErrorLogs _ _ _ | .undefinedCommand _ _ _ | .powerLoss _ => false
  | _ => true

/-- Whether the term is a syllable, one that a bundle can hold. -/
abbrev Instr.isSyllable (i : Instr) : Bool := i.encodable

/-- Register codes and field values that the tables of R120, R122, R124 and R126 admit, whatever the machine's state;
an event or a command carries no code of these tables. -/
def Instr.fieldsLegal : Instr → Bool
  | .ssel _ _ _ m => m.toNat < 12
  | .sext _ _ _ w => w.toNat < 3
  | .scmp k _ f _ _ _ => steer k && f.toNat < 6
  | .scmpi k _ f _ _ _ _ => steer k && f.toNat < 6
  | .kset k _ | .ksetReg k _ | .prep k _ _ | .prepHi k _ _ | .head k | .wnext k _ _ | .ctest k _ _ _ _
  | .ctestReg k _ _ _ => steer k
  | .hset h _ _ | .hget _ h _ => lt16 h
  | .mtc c _ => c.toNat < 0x0A || (0x10 ≤ c.toNat && c.toNat ≤ 0x25)
  | .mfc _ c => c.toNat < 0x0A || (0x10 ≤ c.toNat && c.toNat ≤ 0x25)
  | .vadd d a b m _ | .vsub d a b m _ | .vmul d a b m _ | .vfma d a b m _ | .vmin d a b m _ | .vmax d a b m _
  | .vand d a b m _ | .vor d a b m _ | .vxor d a b m _ | .vshl d a b m _ | .vshr d a b m _ | .vsra d a b m _
  | .vcas d a b m _ => vdst d && vsrc true a && vsrc true b && m.toNat < 9
  | .vsel d a b m _ | .vthr d a b m _ | .vperm d a b m _ => vdst d && vsrc true a && vsrc true b && m.toNat < 9
  | .vcmp f _ a b m _ => f.toNat < 7 && vsrc true a && vsrc true b && m.toNat < 9
  | .vabs d a m _ | .vneg d a m _ | .vexp d a m _ | .vlog d a m _ | .vrcp d a m _ | .vrsqrt d a m _
  | .vtanh d a m _ | .vsumr d a m _ | .vmaxr d a m _ | .vrenorm d a m _ | .vbcast d a m _ | .vtrn d a m _ =>
      vdst d && vsrc true a && m.toNat < 9
  | .vcvt d a _ _ m _ | .vwid d a _ m _ => vdst d && vsrc true a && m.toNat < 12
  | .vhist _ a m _ => vsrc true a && m.toNat < 9
  | .viota d b m _ | .vrand d b m _ => vdst d && vsrc true b && m.toNat < 9
  | .mand d a b _ | .mor d a b _ => lt16 d && lt16 a && lt16 b
  | .mnot d a _ => lt16 d && lt16 a
  | .mpop _ a _ => lt16 a
  | .mma c t _ | .mmaz c t _ => c.toNat < 2 && lt16 t
  | .mtag t _ => lt16 t
  | .mdrn d c _ m => vdst d && c.toNat < 2 && m.toNat < 12
  | .mgdrn d n _ _ => vdst d && n.toNat < 32
  | .ld d _ _ _ _ | .ldh d _ _ _ => vdst d
  | .st d _ _ _ _ | .sth d _ _ _ => vsrc false d
  | .ldt d _ _ _ | .ldth d _ _ | .stt d _ _ _ | .stth d _ _ | .ldm d _ _ | .stm d _ _ => lt16 d
  | .dred _ _ _ p _ _ => p.toNat < 3
  | .dgln _ _ _ m => m.toNat ≤ 4
  | .dcan t => t != 0
  | _ => true

/-- A well-formed syllable: one that a word spells and whose codes the tables admit. -/
def Instr.wellFormed (i : Instr) : Bool := i.encodable && i.fieldsLegal

end Sys2Proof
end

