-- ==== Sys2Proof/Decode.lean ====
section
/-!
DEFINITION. Decoding a syllable (R115 to R135) and a bundle (R116, R117, R127 to R129), and the encoder written from
the same tables. Bit 31 (S) of a syllable marks a bundle's start and is no part of the instruction.
-/

namespace Sys2Proof

/-- What a syllable's word is: an instruction, or an illegal one with a nonzero reserved bit or lend (detail 0x03;
`priv` marks the privileged four, for which detail 0x02 comes first in launch code), or one whose unused `a` field is
nonzero (R185, detail 0x04), or a mask instruction whose format code is not accepted (R162, detail 0x05). A word of an
undefined opcode is `.instr (.undefinedOpcode w)`. -/
inductive Decoded where
  | instr (i : Instr)
  | reserved (priv : Bool)
  | badCode
  | badFormat
deriving DecidableEq, Repr

/-- The field of width `n` at bit `lo` of a word. -/
def bits (w lo n : Nat) : BitVec n := BitVec.ofNat n (w / 2 ^ lo)

/-- The field of width `n` at bit `lo` is zero. -/
def clear (w lo n : Nat) : Bool := w / 2 ^ lo % 2 ^ n == 0

/-- A form that takes no lend finds its lend field zero (R118). -/
def noLend (l : Option (BitVec 9)) : Bool := l.getD 0 == 0

/-- The instruction where the reserved fields are zero, else the reserved-bit error (R133). -/
def takes (priv ok : Bool) (i : Instr) : Option Decoded := some (if ok then .instr i else .reserved priv)

/-- As `takes`, for the unused register field of viota and vrand (R185). -/
def takesA (ok : Bool) (i : Instr) : Option Decoded := some (if ok then .instr i else .badCode)

/-- As `takes`, for the mask instructions, which accept format code 0 alone; the causes of a lower detail come first, a
lend mask and a register code of 16 or more among them (R136, R137, R162, R186). -/
def takesM (w : Nat) (l : Option (BitVec 9)) (ok : Bool) (rs : List (BitVec 6)) (i : Instr) : Option Decoded :=
  if clear w 0 4 then takes false ok i
  else if !ok || 64 ≤ (l.getD 0).toNat then some (.reserved false)
  else if rs.any fun r => decide (16 ≤ r.toNat) then some .badCode
  else some .badFormat

/-- An mts word: the registers whose write is a step of its own have their own constructors. -/
def mtsOf (a : BitVec 6) (r : BitVec 16) : Instr :=
  if r = 0x22#16 then .itlbinv a
  else if r = 0x20#16 then .iptroot a
  else if r = 0x13#16 then .ctxid a
  else if isWindow r then .windowTable a r
  else if isErrstat r then .errstat a r
  else if isEinj r then .einj a r
  else .mts a r

/-- Class S (R130): the syllable of opcode `o`, or none where the opcode is undefined. -/
def decodeS (o w : Nat) (l : Option (BitVec 9)) : Option Decoded :=
  match o with
  | 0 => takes false (clear w 0 4 && noLend l) (.sadd (bits w 16 6) (bits w 10 6) (bits w 4 6))
  | 1 => takes false (clear w 0 4 && noLend l) (.ssub (bits w 16 6) (bits w 10 6) (bits w 4 6))
  | 2 => takes false (clear w 0 4 && noLend l) (.sand (bits w 16 6) (bits w 10 6) (bits w 4 6))
  | 3 => takes false (clear w 0 4 && noLend l) (.sor (bits w 16 6) (bits w 10 6) (bits w 4 6))
  | 4 => takes false (clear w 0 4 && noLend l) (.sxor (bits w 16 6) (bits w 10 6) (bits w 4 6))
  | 5 => takes false (clear w 0 4 && noLend l) (.sshl (bits w 16 6) (bits w 10 6) (bits w 4 6))
  | 6 => takes false (clear w 0 4 && noLend l) (.sshr (bits w 16 6) (bits w 10 6) (bits w 4 6))
  | 7 => takes false (clear w 0 4 && noLend l) (.ssra (bits w 16 6) (bits w 10 6) (bits w 4 6))
  | 8 => takes false (clear w 0 4 && noLend l) (.smul (bits w 16 6) (bits w 10 6) (bits w 4 6))
  | 9 => takes false (clear w 1 3 && noLend l) (.smulh (bits w 16 6) (bits w 10 6) (bits w 4 6) (bits w 0 1))
  | 10 => takes false (clear w 1 3 && noLend l) (.sdiv (bits w 16 6) (bits w 10 6) (bits w 4 6) (bits w 0 1))
  | 11 => takes false (clear w 1 3 && noLend l) (.srem (bits w 16 6) (bits w 10 6) (bits w 4 6) (bits w 0 1))
  | 12 => takes false (clear w 1 3 && noLend l) (.smin (bits w 16 6) (bits w 10 6) (bits w 4 6) (bits w 0 1))
  | 13 => takes false (clear w 1 3 && noLend l) (.smax (bits w 16 6) (bits w 10 6) (bits w 4 6) (bits w 0 1))
  | 14 => takes false (clear w 0 10 && noLend l) (.sclz (bits w 16 6) (bits w 10 6))
  | 15 => takes false (clear w 0 10 && noLend l) (.spop (bits w 16 6) (bits w 10 6))
  | 16 => takes false (true) (.saddi (bits w 16 6) (bits w 10 6) (bits w 0 10) l)
  | 17 => takes false (true) (.sandi (bits w 16 6) (bits w 10 6) (bits w 0 10) l)
  | 18 => takes false (true) (.sori (bits w 16 6) (bits w 10 6) (bits w 0 10) l)
  | 19 => takes false (true) (.sxori (bits w 16 6) (bits w 10 6) (bits w 0 10) l)
  | 20 => takes false (true) (.sshli (bits w 16 6) (bits w 10 6) (bits w 0 10) l)
  | 21 => takes false (true) (.sshri (bits w 16 6) (bits w 10 6) (bits w 0 10) l)
  | 22 => takes false (true) (.ssrai (bits w 16 6) (bits w 10 6) (bits w 0 10) l)
  | 23 => takes false (true) (.smuli (bits w 16 6) (bits w 10 6) (bits w 0 10) l)
  | 24 => takes false (true) (.sli (bits w 16 6) (bits w 0 16) l)
  | 25 => takes false (true) (.slhi (bits w 16 6) (bits w 0 16) l)
  | 26 => takes false (noLend l) (.sadr (bits w 16 6) (bits w 10 6) (bits w 4 6) (bits w 0 4))
  | 27 => takes false (noLend l) (.ssel (bits w 16 6) (bits w 10 6) (bits w 4 6) (bits w 0 4))
  | 28 => takes false (clear w 3 7 && noLend l) (.sext (bits w 16 6) (bits w 10 6) (bits w 2 1) (bits w 0 2))
  | 29 => takes false (clear w 0 1 && noLend l) (.scmp (bits w 18 4) (bits w 17 1) (bits w 14 3) (bits w 13 1) (bits w 7 6) (bits w 1 6))
  | 30 => takes false (true) (.scmpi (bits w 18 4) (bits w 17 1) (bits w 14 3) (bits w 13 1) (bits w 7 6) (bits w 0 7) l)
  | 31 =>
    if clear w 17 1 then takes false (clear w 2 15 && noLend l) (.kset (bits w 18 4) (bits w 0 2))
    else takes false (clear w 0 11 && noLend l) (.ksetReg (bits w 18 4) (bits w 11 6))
  | 32 =>
    if clear w 17 1 then takes false (clear w 16 1 && noLend l) (.prep (bits w 18 4) (bits w 8 8) (bits w 0 8))
    else takes false (clear w 16 1 && noLend l) (.prepHi (bits w 18 4) (bits w 8 8) (bits w 0 8))
  | 33 => takes false (clear w 0 18 && noLend l) (.head (bits w 18 4))
  | 34 => takes false (clear w 0 22 && noLend l) .fend
  | 35 =>
    if clear w 21 1 then takes false (true) (.loop (bits w 12 9) (bits w 0 12) l)
    else takes false (clear w 18 3 && noLend l) (.loopReg (bits w 12 6) (bits w 0 12))
  | 36 => takes false (clear w 12 10 && noLend l) (.loopq (bits w 0 12))
  | 37 => takes false (clear w 0 11 && noLend l) (.wnext (bits w 18 4) (bits w 17 1) (bits w 11 6))
  | 38 =>
    if clear w 0 1 then takes false (clear w 1 9 && noLend l) (.cadd (bits w 16 6) (bits w 10 6))
    else takes false (clear w 1 3 && noLend l) (.caddR (bits w 16 6) (bits w 10 6) (bits w 4 6))
  | 39 =>
    if clear w 10 1 then takes false (true) (.ctest (bits w 18 4) (bits w 17 1) (bits w 11 6) (bits w 0 10) l)
    else takes false (clear w 6 4 && noLend l) (.ctestReg (bits w 18 4) (bits w 17 1) (bits w 11 6) (bits w 0 6))
  | 40 => takes false (clear w 0 10 && noLend l) (.cread (bits w 16 6) (bits w 10 6))
  | 41 => takes false (clear w 0 4 && clear w 16 6 && noLend l) (.rfence (bits w 10 6) (bits w 4 6))
  | 42 => takes false (clear w 0 22 && noLend l) .vjoin
  | 43 => takes false (clear w 4 18 && noLend l) (.drain (bits w 0 4))
  | 44 => takes false (clear w 0 22 && noLend l) .bclose
  | 45 => takes false (clear w 0 4 && clear w 5 3 && clear w 16 6 && noLend l) (.adv (bits w 12 4) (bits w 8 4) (bits w 4 1))
  | 46 => takes false (clear w 0 4 && noLend l) (.hset (bits w 16 6) (bits w 10 6) (bits w 4 6))
  | 47 => takes false (clear w 1 9 && noLend l) (.hget (bits w 16 6) (bits w 10 6) (bits w 0 1))
  | 48 => takes false (clear w 0 10 && noLend l) (.mtc (bits w 16 6) (bits w 10 6))
  | 49 => takes false (clear w 0 10 && noLend l) (.mfc (bits w 16 6) (bits w 10 6))
  | 50 => takes true (noLend l) (mtsOf (bits w 16 6) (bits w 0 16))
  | 51 => takes true (noLend l) (.mfs (bits w 16 6) (bits w 0 16))
  | 52 => takes false (true) (.trap (bits w 0 22) l)
  | 53 => takes true (clear w 0 22 && noLend l) .eret
  | 54 => takes true (clear w 0 10 && clear w 16 6 && noLend l) (.ovld (bits w 10 6))
  | _ => none

/-- Class V (R131): the syllable of opcode `o`, or none where the opcode is undefined. -/
def decodeV (o w : Nat) (l : Option (BitVec 9)) : Option Decoded :=
  match o with
  | 0 => takes false (true) (.vadd (bits w 16 6) (bits w 10 6) (bits w 4 6) (bits w 0 4) l)
  | 1 => takes false (true) (.vsub (bits w 16 6) (bits w 10 6) (bits w 4 6) (bits w 0 4) l)
  | 2 => takes false (true) (.vmul (bits w 16 6) (bits w 10 6) (bits w 4 6) (bits w 0 4) l)
  | 3 => takes false (true) (.vfma (bits w 16 6) (bits w 10 6) (bits w 4 6) (bits w 0 4) l)
  | 4 => takes false (true) (.vmin (bits w 16 6) (bits w 10 6) (bits w 4 6) (bits w 0 4) l)
  | 5 => takes false (true) (.vmax (bits w 16 6) (bits w 10 6) (bits w 4 6) (bits w 0 4) l)
  | 6 => takes false (clear w 4 6) (.vabs (bits w 16 6) (bits w 10 6) (bits w 0 4) l)
  | 7 => takes false (clear w 4 6) (.vneg (bits w 16 6) (bits w 10 6) (bits w 0 4) l)
  | 8 => takes false (true) (.vand (bits w 16 6) (bits w 10 6) (bits w 4 6) (bits w 0 4) l)
  | 9 => takes false (true) (.vor (bits w 16 6) (bits w 10 6) (bits w 4 6) (bits w 0 4) l)
  | 10 => takes false (true) (.vxor (bits w 16 6) (bits w 10 6) (bits w 4 6) (bits w 0 4) l)
  | 11 => takes false (true) (.vshl (bits w 16 6) (bits w 10 6) (bits w 4 6) (bits w 0 4) l)
  | 12 => takes false (true) (.vshr (bits w 16 6) (bits w 10 6) (bits w 4 6) (bits w 0 4) l)
  | 13 => takes false (true) (.vsra (bits w 16 6) (bits w 10 6) (bits w 4 6) (bits w 0 4) l)
  | 14 => takes false (true) (.vcmp (bits w 19 3) (bits w 16 3) (bits w 10 6) (bits w 4 6) (bits w 0 4) l)
  | 15 => takes false (true) (.vsel (bits w 16 6) (bits w 10 6) (bits w 4 6) (bits w 0 4) l)
  | 16 => takes false (true) (.vcas (bits w 16 6) (bits w 10 6) (bits w 4 6) (bits w 0 4) l)
  | 17 => takes false (clear w 4 6) (.vexp (bits w 16 6) (bits w 10 6) (bits w 0 4) l)
  | 18 => takes false (clear w 4 6) (.vlog (bits w 16 6) (bits w 10 6) (bits w 0 4) l)
  | 19 => takes false (clear w 4 6) (.vrcp (bits w 16 6) (bits w 10 6) (bits w 0 4) l)
  | 20 => takes false (clear w 4 6) (.vrsqrt (bits w 16 6) (bits w 10 6) (bits w 0 4) l)
  | 21 => takes false (clear w 4 6) (.vtanh (bits w 16 6) (bits w 10 6) (bits w 0 4) l)
  | 22 => takes false (true) (.vcvt (bits w 16 6) (bits w 10 6) (bits w 8 2) (bits w 4 4) (bits w 0 4) l)
  | 23 => takes false (clear w 4 2) (.vwid (bits w 16 6) (bits w 10 6) (bits w 6 4) (bits w 0 4) l)
  | 24 => takes false (clear w 4 6) (.vsumr (bits w 16 6) (bits w 10 6) (bits w 0 4) l)
  | 25 => takes false (clear w 4 6) (.vmaxr (bits w 16 6) (bits w 10 6) (bits w 0 4) l)
  | 26 => takes false (true) (.vthr (bits w 16 6) (bits w 10 6) (bits w 4 6) (bits w 0 4) l)
  | 27 => takes false (clear w 4 6) (.vhist (bits w 16 6) (bits w 10 6) (bits w 0 4) l)
  | 28 => takes false (clear w 4 6) (.vrenorm (bits w 16 6) (bits w 10 6) (bits w 0 4) l)
  | 29 => takes false (clear w 4 6) (.vbcast (bits w 16 6) (bits w 10 6) (bits w 0 4) l)
  | 30 => takes false (true) (.vperm (bits w 16 6) (bits w 10 6) (bits w 4 6) (bits w 0 4) l)
  | 31 => takes false (clear w 4 6) (.vtrn (bits w 16 6) (bits w 10 6) (bits w 0 4) l)
  | 32 => takes false (noLend l) (.vshape (bits w 8 14) (bits w 0 8))
  | 33 => takesA (clear w 10 6) (.viota (bits w 16 6) (bits w 4 6) (bits w 0 4) l)
  | 34 => takesA (clear w 10 6) (.vrand (bits w 16 6) (bits w 4 6) (bits w 0 4) l)
  | 35 => takesM w l true [bits w 16 6, bits w 10 6, bits w 4 6] (.mand (bits w 16 6) (bits w 10 6) (bits w 4 6) l)
  | 36 => takesM w l true [bits w 16 6, bits w 10 6, bits w 4 6] (.mor (bits w 16 6) (bits w 10 6) (bits w 4 6) l)
  | 37 => takesM w l (clear w 4 6) [bits w 16 6, bits w 10 6] (.mnot (bits w 16 6) (bits w 10 6) l)
  | 38 => takesM w l (clear w 4 6) [bits w 10 6] (.mpop (bits w 16 6) (bits w 10 6) l)
  | _ => none

/-- Class M (R131): the syllable of opcode `o`, or none where the opcode is undefined. -/
def decodeM (o w : Nat) (l : Option (BitVec 9)) : Option Decoded :=
  match o with
  | 0 => takes false (noLend l) (.wld (bits w 18 4) (bits w 16 2) (bits w 8 8) (bits w 0 8))
  | 1 => takes false (clear w 18 4 && noLend l) (.wset (bits w 16 2) (bits w 8 8) (bits w 0 8))
  | 2 => takes false (clear w 0 8 && clear w 18 4 && noLend l) (.wclr (bits w 16 2) (bits w 8 8))
  | 3 => takes false (clear w 0 4 && clear w 6 4 && noLend l) (.mma (bits w 16 6) (bits w 10 6) (bits w 4 2))
  | 4 => takes false (clear w 0 4 && clear w 6 4 && noLend l) (.mmaz (bits w 16 6) (bits w 10 6) (bits w 4 2))
  | 5 => takes false (clear w 2 2 && clear w 16 6 && noLend l) (.mmag (bits w 10 6) (bits w 4 6) (bits w 0 2))
  | 6 => takes false (clear w 0 10 && clear w 16 6 && noLend l) (.mpat (bits w 10 6))
  | 7 => takes false (clear w 0 10 && noLend l) (.mtag (bits w 16 6) (bits w 10 6))
  | 8 => takes false (noLend l) (.mdrn (bits w 16 6) (bits w 10 6) (bits w 4 6) (bits w 0 4))
  | 9 => takes false (clear w 5 5 && noLend l) (.mgdrn (bits w 16 6) (bits w 10 6) (bits w 4 1) (bits w 0 4))
  | 10 => takes false (clear w 1 21 && noLend l) (.mzero (bits w 0 1))
  | 11 => takes false (clear w 0 16 && noLend l) (.mmiss (bits w 16 6))
  | _ => none

/-- Class L (R132): the syllable of opcode `o`, or none where the opcode is undefined. -/
def decodeL (o w : Nat) (l : Option (BitVec 9)) : Option Decoded :=
  match o with
  | 0 => takes false (clear w 2 1 && noLend l) (.ld (bits w 16 6) (bits w 10 6) (bits w 4 6) (bits w 3 1) (bits w 0 2))
  | 1 => takes false (clear w 0 4 && clear w 6 2 && noLend l) (.ldh (bits w 16 6) (bits w 12 4) (bits w 8 4) (bits w 4 2))
  | 2 => takes false (clear w 0 3 && noLend l) (.ldt (bits w 16 6) (bits w 10 6) (bits w 4 6) (bits w 3 1))
  | 3 => takes false (clear w 0 8 && noLend l) (.ldth (bits w 16 6) (bits w 12 4) (bits w 8 4))
  | 4 => takes false (true) (.lds (bits w 16 6) (bits w 10 6) (bits w 0 10) l)
  | 5 => takes false (clear w 16 6) (.sqld (bits w 10 6) (bits w 0 10) l)
  | 6 => takes false (clear w 0 3 && clear w 4 6 && noLend l) (.ldm (bits w 16 6) (bits w 10 6) (bits w 3 1))
  | _ => none

/-- Class W (R132): the syllable of opcode `o`, or none where the opcode is undefined. -/
def decodeW (o w : Nat) (l : Option (BitVec 9)) : Option Decoded :=
  match o with
  | 0 => takes false (clear w 2 1 && noLend l) (.st (bits w 16 6) (bits w 10 6) (bits w 4 6) (bits w 3 1) (bits w 0 2))
  | 1 => takes false (clear w 0 4 && clear w 6 2 && noLend l) (.sth (bits w 16 6) (bits w 12 4) (bits w 8 4) (bits w 4 2))
  | 2 => takes false (clear w 0 3 && noLend l) (.stt (bits w 16 6) (bits w 10 6) (bits w 4 6) (bits w 3 1))
  | 3 => takes false (clear w 0 8 && noLend l) (.stth (bits w 16 6) (bits w 12 4) (bits w 8 4))
  | 4 => takes false (true) (.sts (bits w 16 6) (bits w 10 6) (bits w 0 10) l)
  | 5 => takes false (clear w 0 3 && clear w 4 6 && noLend l) (.stm (bits w 16 6) (bits w 10 6) (bits w 3 1))
  | _ => none

/-- Class D (R132): the syllable of opcode `o`, or none where the opcode is undefined. -/
def decodeD (o w : Nat) (l : Option (BitVec 9)) : Option Decoded :=
  match o with
  | 0 => takes false (clear w 0 4 && clear w 5 3 && noLend l) (.dcp (bits w 16 6) (bits w 12 4) (bits w 8 4) (bits w 4 1))
  | 1 => takes false (clear w 0 4 && noLend l) (.dput (bits w 16 6) (bits w 10 6) (bits w 4 6))
  | 2 => takes false (true) (.dred (bits w 16 6) (bits w 10 6) (bits w 4 6) (bits w 2 2) (bits w 0 2) l)
  | 3 => takes false (noLend l) (.dgln (bits w 16 6) (bits w 10 6) (bits w 4 6) (bits w 0 4))
  | 4 => takes false (noLend l) (.dhget (bits w 16 6) (bits w 10 6) (bits w 4 6) (bits w 0 4))
  | 5 => takes false (noLend l) (.dhput (bits w 16 6) (bits w 10 6) (bits w 4 6) (bits w 0 4))
  | 6 => takes false (clear w 4 6 && noLend l) (.amo (bits w 16 6) (bits w 10 6) (bits w 2 2) (bits w 0 2))
  | 7 => takes false (noLend l) (.amor (bits w 16 6) (bits w 10 6) (bits w 4 6) (bits w 2 2) (bits w 0 2))
  | 8 => takes false (clear w 4 18 && noLend l) (.dcan (bits w 0 4))
  | 16 =>
    if clear w 16 1 then takes false (clear w 0 1 && noLend l) (.chact (bits w 17 5) (bits w 1 15))
    else takes false (clear w 0 10 && noLend l) (.chactReg (bits w 17 5) (bits w 10 6))
  | 17 =>
    if clear w 12 1 then takes false (clear w 4 2 && noLend l) (.chrd (bits w 17 5) (bits w 13 4) (bits w 6 6) (bits w 0 4))
    else takes false (noLend l) (.chrdHandle (bits w 17 5) (bits w 13 4) (bits w 8 4) (bits w 4 4) (bits w 0 4))
  | 18 =>
    if clear w 12 1 then takes false (clear w 0 6 && noLend l) (.chwr (bits w 17 5) (bits w 13 4) (bits w 6 6))
    else takes false (clear w 0 4 && noLend l) (.chwrHandle (bits w 17 5) (bits w 13 4) (bits w 8 4) (bits w 4 4))
  | 19 => takes false (clear w 0 17 && noLend l) (.chpre (bits w 17 5))
  | 20 => takes false (clear w 0 22 && noLend l) .chpra
  | 21 => takes false (clear w 0 22 && noLend l) .chref
  | 22 => takes false (clear w 0 17 && noLend l) (.chrefb (bits w 17 5))
  | _ => none

/-- Class X (R132, R134, R230): nop, the hint space, and 0x3F, which only the fill word may hold. -/
def decodeX (o w : Nat) (l : Option (BitVec 9)) : Option Decoded :=
  if o = 0 then takes false (clear w 0 22 && noLend l) .nop
  else if o = 1 then some (.instr (.hpf (bits w 0 22)))
  else if o ≤ 0x3E then some (.instr (.hintSpace (BitVec.ofNat 6 o) (bits w 0 22)))
  else none

/-- The decoder: total, on any 32-bit word and the lend field its bundle gives it (`none`: no header). A class-H word
in a syllable's place has no instruction and reads as an undefined one. -/
def decodeSyllable (w : Nat) (l : Option (BitVec 9)) : Decoded :=
  let o := w / 4194304 % 64
  let r := match w / 268435456 % 8 with
    | 1 => decodeS o w l
    | 2 => decodeV o w l
    | 3 => decodeM o w l
    | 4 => decodeL o w l
    | 5 => decodeW o w l
    | 6 => decodeD o w l
    | 7 => decodeX o w l
    | _ => none
  r.getD (.instr (.undefinedOpcode (BitVec.ofNat 32 (w % 2147483648))))

/-- The lend field that a term carries: `none` where its bundle has no header. -/
def Instr.lend : Instr → Option (BitVec 9)
  | .saddi _ _ _ l
  | .sandi _ _ _ l
  | .sori _ _ _ l
  | .sxori _ _ _ l
  | .sshli _ _ _ l
  | .sshri _ _ _ l
  | .ssrai _ _ _ l
  | .smuli _ _ _ l
  | .sli _ _ l
  | .slhi _ _ l
  | .scmpi _ _ _ _ _ _ l
  | .loop _ _ l
  | .ctest _ _ _ _ l
  | .trap _ l
  | .vadd _ _ _ _ l
  | .vsub _ _ _ _ l
  | .vmul _ _ _ _ l
  | .vfma _ _ _ _ l
  | .vmin _ _ _ _ l
  | .vmax _ _ _ _ l
  | .vabs _ _ _ l
  | .vneg _ _ _ l
  | .vand _ _ _ _ l
  | .vor _ _ _ _ l
  | .vxor _ _ _ _ l
  | .vshl _ _ _ _ l
  | .vshr _ _ _ _ l
  | .vsra _ _ _ _ l
  | .vcmp _ _ _ _ _ l
  | .vsel _ _ _ _ l
  | .vcas _ _ _ _ l
  | .vexp _ _ _ l
  | .vlog _ _ _ l
  | .vrcp _ _ _ l
  | .vrsqrt _ _ _ l
  | .vtanh _ _ _ l
  | .vcvt _ _ _ _ _ l
  | .vwid _ _ _ _ l
  | .vsumr _ _ _ l
  | .vmaxr _ _ _ l
  | .vthr _ _ _ _ l
  | .vhist _ _ _ l
  | .vrenorm _ _ _ l
  | .vbcast _ _ _ l
  | .vperm _ _ _ _ l
  | .vtrn _ _ _ l
  | .viota _ _ _ l
  | .vrand _ _ _ l
  | .mand _ _ _ l
  | .mor _ _ _ l
  | .mnot _ _ l
  | .mpop _ _ l
  | .lds _ _ _ l
  | .sqld _ _ l
  | .sts _ _ _ l
  | .dred _ _ _ _ _ l => l
  | _ => none

/-- A syllable's word, bit 31 clear (R115 and the forms of R119 to R125). -/
def encodeSyllable : Instr → Nat
  | .sadd x0 x1 x2 => 0x10000000 + x0.toNat * 65536 + x1.toNat * 1024 + x2.toNat * 16
  | .ssub x0 x1 x2 => 0x10400000 + x0.toNat * 65536 + x1.toNat * 1024 + x2.toNat * 16
  | .sand x0 x1 x2 => 0x10800000 + x0.toNat * 65536 + x1.toNat * 1024 + x2.toNat * 16
  | .sor x0 x1 x2 => 0x10C00000 + x0.toNat * 65536 + x1.toNat * 1024 + x2.toNat * 16
  | .sxor x0 x1 x2 => 0x11000000 + x0.toNat * 65536 + x1.toNat * 1024 + x2.toNat * 16
  | .sshl x0 x1 x2 => 0x11400000 + x0.toNat * 65536 + x1.toNat * 1024 + x2.toNat * 16
  | .sshr x0 x1 x2 => 0x11800000 + x0.toNat * 65536 + x1.toNat * 1024 + x2.toNat * 16
  | .ssra x0 x1 x2 => 0x11C00000 + x0.toNat * 65536 + x1.toNat * 1024 + x2.toNat * 16
  | .smul x0 x1 x2 => 0x12000000 + x0.toNat * 65536 + x1.toNat * 1024 + x2.toNat * 16
  | .smulh x0 x1 x2 x3 => 0x12400000 + x0.toNat * 65536 + x1.toNat * 1024 + x2.toNat * 16 + x3.toNat
  | .sdiv x0 x1 x2 x3 => 0x12800000 + x0.toNat * 65536 + x1.toNat * 1024 + x2.toNat * 16 + x3.toNat
  | .srem x0 x1 x2 x3 => 0x12C00000 + x0.toNat * 65536 + x1.toNat * 1024 + x2.toNat * 16 + x3.toNat
  | .smin x0 x1 x2 x3 => 0x13000000 + x0.toNat * 65536 + x1.toNat * 1024 + x2.toNat * 16 + x3.toNat
  | .smax x0 x1 x2 x3 => 0x13400000 + x0.toNat * 65536 + x1.toNat * 1024 + x2.toNat * 16 + x3.toNat
  | .sclz x0 x1 => 0x13800000 + x0.toNat * 65536 + x1.toNat * 1024
  | .spop x0 x1 => 0x13C00000 + x0.toNat * 65536 + x1.toNat * 1024
  | .saddi x0 x1 x2 _ => 0x14000000 + x0.toNat * 65536 + x1.toNat * 1024 + x2.toNat
  | .sandi x0 x1 x2 _ => 0x14400000 + x0.toNat * 65536 + x1.toNat * 1024 + x2.toNat
  | .sori x0 x1 x2 _ => 0x14800000 + x0.toNat * 65536 + x1.toNat * 1024 + x2.toNat
  | .sxori x0 x1 x2 _ => 0x14C00000 + x0.toNat * 65536 + x1.toNat * 1024 + x2.toNat
  | .sshli x0 x1 x2 _ => 0x15000000 + x0.toNat * 65536 + x1.toNat * 1024 + x2.toNat
  | .sshri x0 x1 x2 _ => 0x15400000 + x0.toNat * 65536 + x1.toNat * 1024 + x2.toNat
  | .ssrai x0 x1 x2 _ => 0x15800000 + x0.toNat * 65536 + x1.toNat * 1024 + x2.toNat
  | .smuli x0 x1 x2 _ => 0x15C00000 + x0.toNat * 65536 + x1.toNat * 1024 + x2.toNat
  | .sli x0 x1 _ => 0x16000000 + x0.toNat * 65536 + x1.toNat
  | .slhi x0 x1 _ => 0x16400000 + x0.toNat * 65536 + x1.toNat
  | .sadr x0 x1 x2 x3 => 0x16800000 + x0.toNat * 65536 + x1.toNat * 1024 + x2.toNat * 16 + x3.toNat
  | .ssel x0 x1 x2 x3 => 0x16C00000 + x0.toNat * 65536 + x1.toNat * 1024 + x2.toNat * 16 + x3.toNat
  | .sext x0 x1 x2 x3 => 0x17000000 + x0.toNat * 65536 + x1.toNat * 1024 + x2.toNat * 4 + x3.toNat
  | .scmp x0 x1 x2 x3 x4 x5 => 0x17400000 + x0.toNat * 262144 + x1.toNat * 131072 + x2.toNat * 16384 + x3.toNat * 8192 + x4.toNat * 128 + x5.toNat * 2
  | .scmpi x0 x1 x2 x3 x4 x5 _ => 0x17800000 + x0.toNat * 262144 + x1.toNat * 131072 + x2.toNat * 16384 + x3.toNat * 8192 + x4.toNat * 128 + x5.toNat
  | .kset x0 x1 => 0x17C00000 + x0.toNat * 262144 + x1.toNat
  | .ksetReg x0 x1 => 0x17C20000 + x0.toNat * 262144 + x1.toNat * 2048
  | .prep x0 x1 x2 => 0x18000000 + x0.toNat * 262144 + x1.toNat * 256 + x2.toNat
  | .prepHi x0 x1 x2 => 0x18020000 + x0.toNat * 262144 + x1.toNat * 256 + x2.toNat
  | .head x0 => 0x18400000 + x0.toNat * 262144
  | .fend => 0x18800000
  | .loop x0 x1 _ => 0x18C00000 + x0.toNat * 4096 + x1.toNat
  | .loopReg x0 x1 => 0x18E00000 + x0.toNat * 4096 + x1.toNat
  | .loopq x0 => 0x19000000 + x0.toNat
  | .wnext x0 x1 x2 => 0x19400000 + x0.toNat * 262144 + x1.toNat * 131072 + x2.toNat * 2048
  | .cadd x0 x1 => 0x19800000 + x0.toNat * 65536 + x1.toNat * 1024
  | .caddR x0 x1 x2 => 0x19800001 + x0.toNat * 65536 + x1.toNat * 1024 + x2.toNat * 16
  | .ctest x0 x1 x2 x3 _ => 0x19C00000 + x0.toNat * 262144 + x1.toNat * 131072 + x2.toNat * 2048 + x3.toNat
  | .ctestReg x0 x1 x2 x3 => 0x19C00400 + x0.toNat * 262144 + x1.toNat * 131072 + x2.toNat * 2048 + x3.toNat
  | .cread x0 x1 => 0x1A000000 + x0.toNat * 65536 + x1.toNat * 1024
  | .rfence x0 x1 => 0x1A400000 + x0.toNat * 1024 + x1.toNat * 16
  | .vjoin => 0x1A800000
  | .drain x0 => 0x1AC00000 + x0.toNat
  | .bclose => 0x1B000000
  | .adv x0 x1 x2 => 0x1B400000 + x0.toNat * 4096 + x1.toNat * 256 + x2.toNat * 16
  | .hset x0 x1 x2 => 0x1B800000 + x0.toNat * 65536 + x1.toNat * 1024 + x2.toNat * 16
  | .hget x0 x1 x2 => 0x1BC00000 + x0.toNat * 65536 + x1.toNat * 1024 + x2.toNat
  | .mtc x0 x1 => 0x1C000000 + x0.toNat * 65536 + x1.toNat * 1024
  | .mfc x0 x1 => 0x1C400000 + x0.toNat * 65536 + x1.toNat * 1024
  | .mts x0 x1 => 0x1C800000 + x0.toNat * 65536 + x1.toNat
  | .itlbinv x0 => 0x1C800022 + x0.toNat * 65536
  | .iptroot x0 => 0x1C800020 + x0.toNat * 65536
  | .ctxid x0 => 0x1C800013 + x0.toNat * 65536
  | .windowTable x0 x1 => 0x1C800000 + x0.toNat * 65536 + x1.toNat
  | .errstat x0 x1 => 0x1C800000 + x0.toNat * 65536 + x1.toNat
  | .einj x0 x1 => 0x1C800000 + x0.toNat * 65536 + x1.toNat
  | .mfs x0 x1 => 0x1CC00000 + x0.toNat * 65536 + x1.toNat
  | .trap x0 _ => 0x1D000000 + x0.toNat
  | .eret => 0x1D400000
  | .ovld x0 => 0x1D800000 + x0.toNat * 1024
  | .vadd x0 x1 x2 x3 _ => 0x20000000 + x0.toNat * 65536 + x1.toNat * 1024 + x2.toNat * 16 + x3.toNat
  | .vsub x0 x1 x2 x3 _ => 0x20400000 + x0.toNat * 65536 + x1.toNat * 1024 + x2.toNat * 16 + x3.toNat
  | .vmul x0 x1 x2 x3 _ => 0x20800000 + x0.toNat * 65536 + x1.toNat * 1024 + x2.toNat * 16 + x3.toNat
  | .vfma x0 x1 x2 x3 _ => 0x20C00000 + x0.toNat * 65536 + x1.toNat * 1024 + x2.toNat * 16 + x3.toNat
  | .vmin x0 x1 x2 x3 _ => 0x21000000 + x0.toNat * 65536 + x1.toNat * 1024 + x2.toNat * 16 + x3.toNat
  | .vmax x0 x1 x2 x3 _ => 0x21400000 + x0.toNat * 65536 + x1.toNat * 1024 + x2.toNat * 16 + x3.toNat
  | .vabs x0 x1 x2 _ => 0x21800000 + x0.toNat * 65536 + x1.toNat * 1024 + x2.toNat
  | .vneg x0 x1 x2 _ => 0x21C00000 + x0.toNat * 65536 + x1.toNat * 1024 + x2.toNat
  | .vand x0 x1 x2 x3 _ => 0x22000000 + x0.toNat * 65536 + x1.toNat * 1024 + x2.toNat * 16 + x3.toNat
  | .vor x0 x1 x2 x3 _ => 0x22400000 + x0.toNat * 65536 + x1.toNat * 1024 + x2.toNat * 16 + x3.toNat
  | .vxor x0 x1 x2 x3 _ => 0x22800000 + x0.toNat * 65536 + x1.toNat * 1024 + x2.toNat * 16 + x3.toNat
  | .vshl x0 x1 x2 x3 _ => 0x22C00000 + x0.toNat * 65536 + x1.toNat * 1024 + x2.toNat * 16 + x3.toNat
  | .vshr x0 x1 x2 x3 _ => 0x23000000 + x0.toNat * 65536 + x1.toNat * 1024 + x2.toNat * 16 + x3.toNat
  | .vsra x0 x1 x2 x3 _ => 0x23400000 + x0.toNat * 65536 + x1.toNat * 1024 + x2.toNat * 16 + x3.toNat
  | .vcmp x0 x1 x2 x3 x4 _ => 0x23800000 + x0.toNat * 524288 + x1.toNat * 65536 + x2.toNat * 1024 + x3.toNat * 16 + x4.toNat
  | .vsel x0 x1 x2 x3 _ => 0x23C00000 + x0.toNat * 65536 + x1.toNat * 1024 + x2.toNat * 16 + x3.toNat
  | .vcas x0 x1 x2 x3 _ => 0x24000000 + x0.toNat * 65536 + x1.toNat * 1024 + x2.toNat * 16 + x3.toNat
  | .vexp x0 x1 x2 _ => 0x24400000 + x0.toNat * 65536 + x1.toNat * 1024 + x2.toNat
  | .vlog x0 x1 x2 _ => 0x24800000 + x0.toNat * 65536 + x1.toNat * 1024 + x2.toNat
  | .vrcp x0 x1 x2 _ => 0x24C00000 + x0.toNat * 65536 + x1.toNat * 1024 + x2.toNat
  | .vrsqrt x0 x1 x2 _ => 0x25000000 + x0.toNat * 65536 + x1.toNat * 1024 + x2.toNat
  | .vtanh x0 x1 x2 _ => 0x25400000 + x0.toNat * 65536 + x1.toNat * 1024 + x2.toNat
  | .vcvt x0 x1 x2 x3 x4 _ => 0x25800000 + x0.toNat * 65536 + x1.toNat * 1024 + x2.toNat * 256 + x3.toNat * 16 + x4.toNat
  | .vwid x0 x1 x2 x3 _ => 0x25C00000 + x0.toNat * 65536 + x1.toNat * 1024 + x2.toNat * 64 + x3.toNat
  | .vsumr x0 x1 x2 _ => 0x26000000 + x0.toNat * 65536 + x1.toNat * 1024 + x2.toNat
  | .vmaxr x0 x1 x2 _ => 0x26400000 + x0.toNat * 65536 + x1.toNat * 1024 + x2.toNat
  | .vthr x0 x1 x2 x3 _ => 0x26800000 + x0.toNat * 65536 + x1.toNat * 1024 + x2.toNat * 16 + x3.toNat
  | .vhist x0 x1 x2 _ => 0x26C00000 + x0.toNat * 65536 + x1.toNat * 1024 + x2.toNat
  | .vrenorm x0 x1 x2 _ => 0x27000000 + x0.toNat * 65536 + x1.toNat * 1024 + x2.toNat
  | .vbcast x0 x1 x2 _ => 0x27400000 + x0.toNat * 65536 + x1.toNat * 1024 + x2.toNat
  | .vperm x0 x1 x2 x3 _ => 0x27800000 + x0.toNat * 65536 + x1.toNat * 1024 + x2.toNat * 16 + x3.toNat
  | .vtrn x0 x1 x2 _ => 0x27C00000 + x0.toNat * 65536 + x1.toNat * 1024 + x2.toNat
  | .vshape x0 x1 => 0x28000000 + x0.toNat * 256 + x1.toNat
  | .viota x0 x1 x2 _ => 0x28400000 + x0.toNat * 65536 + x1.toNat * 16 + x2.toNat
  | .vrand x0 x1 x2 _ => 0x28800000 + x0.toNat * 65536 + x1.toNat * 16 + x2.toNat
  | .mand x0 x1 x2 _ => 0x28C00000 + x0.toNat * 65536 + x1.toNat * 1024 + x2.toNat * 16
  | .mor x0 x1 x2 _ => 0x29000000 + x0.toNat * 65536 + x1.toNat * 1024 + x2.toNat * 16
  | .mnot x0 x1 _ => 0x29400000 + x0.toNat * 65536 + x1.toNat * 1024
  | .mpop x0 x1 _ => 0x29800000 + x0.toNat * 65536 + x1.toNat * 1024
  | .wld x0 x1 x2 x3 => 0x30000000 + x0.toNat * 262144 + x1.toNat * 65536 + x2.toNat * 256 + x3.toNat
  | .wset x0 x1 x2 => 0x30400000 + x0.toNat * 65536 + x1.toNat * 256 + x2.toNat
  | .wclr x0 x1 => 0x30800000 + x0.toNat * 65536 + x1.toNat * 256
  | .mma x0 x1 x2 => 0x30C00000 + x0.toNat * 65536 + x1.toNat * 1024 + x2.toNat * 16
  | .mmaz x0 x1 x2 => 0x31000000 + x0.toNat * 65536 + x1.toNat * 1024 + x2.toNat * 16
  | .mmag x0 x1 x2 => 0x31400000 + x0.toNat * 1024 + x1.toNat * 16 + x2.toNat
  | .mpat x0 => 0x31800000 + x0.toNat * 1024
  | .mtag x0 x1 => 0x31C00000 + x0.toNat * 65536 + x1.toNat * 1024
  | .mdrn x0 x1 x2 x3 => 0x32000000 + x0.toNat * 65536 + x1.toNat * 1024 + x2.toNat * 16 + x3.toNat
  | .mgdrn x0 x1 x2 x3 => 0x32400000 + x0.toNat * 65536 + x1.toNat * 1024 + x2.toNat * 16 + x3.toNat
  | .mzero x0 => 0x32800000 + x0.toNat
  | .mmiss x0 => 0x32C00000 + x0.toNat * 65536
  | .ld x0 x1 x2 x3 x4 => 0x40000000 + x0.toNat * 65536 + x1.toNat * 1024 + x2.toNat * 16 + x3.toNat * 8 + x4.toNat
  | .ldh x0 x1 x2 x3 => 0x40400000 + x0.toNat * 65536 + x1.toNat * 4096 + x2.toNat * 256 + x3.toNat * 16
  | .ldt x0 x1 x2 x3 => 0x40800000 + x0.toNat * 65536 + x1.toNat * 1024 + x2.toNat * 16 + x3.toNat * 8
  | .ldth x0 x1 x2 => 0x40C00000 + x0.toNat * 65536 + x1.toNat * 4096 + x2.toNat * 256
  | .st x0 x1 x2 x3 x4 => 0x50000000 + x0.toNat * 65536 + x1.toNat * 1024 + x2.toNat * 16 + x3.toNat * 8 + x4.toNat
  | .sth x0 x1 x2 x3 => 0x50400000 + x0.toNat * 65536 + x1.toNat * 4096 + x2.toNat * 256 + x3.toNat * 16
  | .stt x0 x1 x2 x3 => 0x50800000 + x0.toNat * 65536 + x1.toNat * 1024 + x2.toNat * 16 + x3.toNat * 8
  | .stth x0 x1 x2 => 0x50C00000 + x0.toNat * 65536 + x1.toNat * 4096 + x2.toNat * 256
  | .lds x0 x1 x2 _ => 0x41000000 + x0.toNat * 65536 + x1.toNat * 1024 + x2.toNat
  | .sqld x0 x1 _ => 0x41400000 + x0.toNat * 1024 + x1.toNat
  | .ldm x0 x1 x2 => 0x41800000 + x0.toNat * 65536 + x1.toNat * 1024 + x2.toNat * 8
  | .sts x0 x1 x2 _ => 0x51000000 + x0.toNat * 65536 + x1.toNat * 1024 + x2.toNat
  | .stm x0 x1 x2 => 0x51400000 + x0.toNat * 65536 + x1.toNat * 1024 + x2.toNat * 8
  | .dcp x0 x1 x2 x3 => 0x60000000 + x0.toNat * 65536 + x1.toNat * 4096 + x2.toNat * 256 + x3.toNat * 16
  | .dput x0 x1 x2 => 0x60400000 + x0.toNat * 65536 + x1.toNat * 1024 + x2.toNat * 16
  | .dred x0 x1 x2 x3 x4 _ => 0x60800000 + x0.toNat * 65536 + x1.toNat * 1024 + x2.toNat * 16 + x3.toNat * 4 + x4.toNat
  | .dgln x0 x1 x2 x3 => 0x60C00000 + x0.toNat * 65536 + x1.toNat * 1024 + x2.toNat * 16 + x3.toNat
  | .dhget x0 x1 x2 x3 => 0x61000000 + x0.toNat * 65536 + x1.toNat * 1024 + x2.toNat * 16 + x3.toNat
  | .dhput x0 x1 x2 x3 => 0x61400000 + x0.toNat * 65536 + x1.toNat * 1024 + x2.toNat * 16 + x3.toNat
  | .amo x0 x1 x2 x3 => 0x61800000 + x0.toNat * 65536 + x1.toNat * 1024 + x2.toNat * 4 + x3.toNat
  | .amor x0 x1 x2 x3 x4 => 0x61C00000 + x0.toNat * 65536 + x1.toNat * 1024 + x2.toNat * 16 + x3.toNat * 4 + x4.toNat
  | .dcan x0 => 0x62000000 + x0.toNat
  | .chact x0 x1 => 0x64000000 + x0.toNat * 131072 + x1.toNat * 2
  | .chactReg x0 x1 => 0x64010000 + x0.toNat * 131072 + x1.toNat * 1024
  | .chrd x0 x1 x2 x3 => 0x64400000 + x0.toNat * 131072 + x1.toNat * 8192 + x2.toNat * 64 + x3.toNat
  | .chrdHandle x0 x1 x2 x3 x4 => 0x64401000 + x0.toNat * 131072 + x1.toNat * 8192 + x2.toNat * 256 + x3.toNat * 16 + x4.toNat
  | .chwr x0 x1 x2 => 0x64800000 + x0.toNat * 131072 + x1.toNat * 8192 + x2.toNat * 64
  | .chwrHandle x0 x1 x2 x3 => 0x64801000 + x0.toNat * 131072 + x1.toNat * 8192 + x2.toNat * 256 + x3.toNat * 16
  | .chpre x0 => 0x64C00000 + x0.toNat * 131072
  | .chpra => 0x65000000
  | .chref => 0x65400000
  | .chrefb x0 => 0x65800000 + x0.toNat * 131072
  | .nop => 0x70000000
  | .hpf x0 => 0x70400000 + x0.toNat
  | .hintSpace x0 x1 => 0x70000000 + x0.toNat * 4194304 + x1.toNat
  | .undefinedOpcode x0 => x0.toNat % 2147483648
  | _ => 0

/-- The fill word (R127). -/
def fillWord : BitVec 32 := 0xFFFFFFFF#32

/-- Bit 31 of a syllable (R115). -/
def startBit (w : BitVec 32) : Bool := w.getLsbD 31

/-- The class code of a syllable (R115). -/
def classOf (w : BitVec 32) : Nat := w.toNat / 268435456 % 8

/-- A bundle of the one instruction `i`: a header when the term carries a lend (R117, R312), then its syllable. -/
def encode (i : Instr) : List (BitVec 32) :=
  match i.lend with
  | none => [BitVec.ofNat 32 (2147483648 + encodeSyllable i)]
  | some l => [BitVec.ofNat 32 (2147483648 + l.toNat * 262144), BitVec.ofNat 32 (encodeSyllable i)]

/-- A syllable of a bundle: its position, its word, its lend field (`none`: the bundle has no header). -/
structure Slot where
  pos : Nat
  word : BitVec 32
  lend : Option (BitVec 9)
deriving DecidableEq, Repr

/-- What stands at a syllable index where a bundle is to begin (R116, R128, R129). -/
inductive Fetched where
  | entry (detail : Nat)
  | framing (detail : Nat) (len : Nat)
  | bundle (len : Nat) (headerBad : Bool) (slots : List Slot)
deriving DecidableEq, Repr

/-- Syllable `x` of the code store: what the placed body does not occupy holds the fill word (R248).
[DEDUCED: log 152] -/
def codeAt (code : List (BitVec 32)) (x : Nat) : BitVec 32 := code.getD x fillWord

/-- The words of the packet from syllable `pc` to the packet's end (R127). -/
def packetFrom (code : List (BitVec 32)) (pc : Nat) : List (BitVec 32) :=
  (List.range (8 - pc % 8)).map fun j => codeAt code (pc + j)

/-- The syllable after the bundle's first one that still belong to it (R116). -/
def bundleTail (ws : List (BitVec 32)) : List (BitVec 32) := ws.takeWhile fun w => !startBit w

/-- The lowest framing code among the causes the bundle meets (R129, R137). -/
def framingCode (ws rest : List (BitVec 32)) : Option Nat :=
  let cs := ws.map classOf
  if !decide cs.Nodup then some 1
  else if 4 < ws.length then some 2
  else if ws.tail.any fun w => classOf w == 0 then some 3
  else if ws.length == 1 && cs == [0] then some 4
  else match rest with
    | r :: rs => if r == fillWord && rs.any (fun w => w != fillWord) then some 5 else none
    | [] => none

/-- The slots of a bundle's words: lend fields go by the syllable's place after the header (R117). -/
def slotsOf (ws : List (BitVec 32)) : List Slot :=
  match ws with
  | [] => []
  | h :: ss =>
    if classOf h == 0 then
      ss.mapIdx fun j w => ⟨j + 1, w, some (bits h.toNat (18 - 9 * j) 9)⟩
    else (h :: ss).mapIdx fun j w => ⟨j, w, none⟩

/-- A header with bit 27 set, or with a lend field whose position holds no syllable nonzero (R117). -/
def headerBad (ws : List (BitVec 32)) : Bool :=
  match ws with
  | h :: ss =>
    classOf h == 0 && (!clear h.toNat 27 1 || (List.range 3).any fun j => ss.length ≤ j && !clear h.toNat (18 - 9 * j) 9)
  | [] => false

/-- What the sequencer meets when it enters syllable `pc` (R116, R127 to R129). -/
def fetchAt (code : List (BitVec 32)) (pc : Nat) : Fetched :=
  if 65535 < pc then .entry 4
  else if codeAt code pc == fillWord then .entry 2
  else if !startBit (codeAt code pc) then .entry 1
  else
    let ws := packetFrom code pc
    let b := (ws.take 1) ++ bundleTail (ws.drop 1)
    match framingCode b (ws.drop b.length) with
    | some d => .framing d b.length
    | none => .bundle b.length (headerBad b) (slotsOf b)

/-- The start of the bundle after one that ends before syllable `e` (R127): fills take no cycle. -/
def nextStart (code : List (BitVec 32)) (e : Nat) : Nat :=
  if e % 8 == 0 then e else if codeAt code e == fillWord then (e / 8 + 1) * 8 else e

/-- The instruction of a one-instruction bundle's words, as `encode` writes it. -/
def decodeWords (ws : List (BitVec 32)) : Option Instr :=
  match fetchAt ws 0 with
  | .bundle _ false [s] =>
    match decodeSyllable s.word.toNat s.lend with
    | .instr i => some i
    | _ => none
  | _ => none

/-- The instruction the decoder reads from a word numbered as spec/opcode_table.json numbers it. The table's row is
one syllable; bit 31 marks a bundle's start, so the word begins a bundle without a header. -/
def decodeTableWord (nbits w : Nat) : Option Instr :=
  if nbits = 32 && w < 4294967296 then
    match decodeSyllable w none with
    | .instr i => if w / 268435456 % 8 = 0 then none else some i
    | _ => none
  else none

end Sys2Proof
end

