-- ==== Sys2Proof/Machine/State.lean ====
section
/-!
DEFINITION. The module's state as plain data (R17 to R44, R187, R223, R241 to R262, R269 to R288, R296 to R308), the
reasons a step can stop, and the state right after power is applied.
Every instant in the state is an absolute module cycle; a stop and a restart shift a context's instants by the same
number of cycles (R114, R278).
-/

namespace Sys2Proof.Machine

/-- A sparse memory: (address, byte) pairs, addresses strictly rising, no byte equal to what an unlisted one reads. -/
abbrev Mem := List Host.Cell

/-- A finite or special number: `fin neg m e` is ±m × 2^e. -/
inductive Num where
  | nan
  | inf (neg : Bool)
  | fin (neg : Bool) (m : Nat) (e : Int)
deriving DecidableEq, Repr

/-- What a row of a pass holds for one column until its update (R194, R205), unrounded. -/
inductive ColTerm where
  | miss                                  -- the column's bank missed: the element keeps its value (R193)
  | addF (x : Num)                        -- exact float sum; a zero is −0 where every term is −0 (R78)
  | selF (max : Bool) (x : Num)           -- compare-select of a value already rounded to f32 (codes 2 and 3)
  | addI (x : Int)                        -- exact integer sum
  | selI (max : Bool) (x : Int)
deriving DecidableEq, Repr

/-- A row of mmag that has been read (R199): the slot each bank resolved to, and both rows scaled. -/
structure GradRow where
  slots : List (Option Nat)
  a : List Num
  g : List Num
deriving DecidableEq, Repr

/-- Where a result row goes: vector file, bypass, masks, tiles, tag lanes. -/
inductive Space where
  | v | b | m | tile | tag
deriving DecidableEq, Repr

/-- Consecutive bytes to write, each with the mask of the bits written. -/
structure Run where
  space : Space
  addr : Nat
  bytes : List (Byte × Byte)
deriving DecidableEq, Repr

/-- What each event of a stream does. -/
inductive Eff where
  | vread | vwrite | harrow | cqAppend
  | spRead | regWrite | spWrite | scaleApp
  | arrRead | arrUpdate | wldPop | wldK | loadEnd | desc | accRead
  | listRead | blkRead | blkWrite | sendRead
  | chData | chSource
deriving DecidableEq, Repr

/-- The events of an operation that are still to come: event `k` of `n` is due at `first + k × mul / div`. -/
structure Stream where
  eff : Eff
  first : Nat
  k : Nat := 0
  n : Nat
  mul : Nat := 1
  div : Nat := 1
deriving DecidableEq, Repr

/-- An operation that has issued and has effects to perform: what it took at issue, what it has read, what is due
(R166, R205, R209, R270). -/
structure Flight where
  uid : Nat
  instr : Instr
  issue : Nat                 -- the instant its offsets count from (a repetition's own start, R165)
  seqno : Nat                 -- the issue cycle of its bundle, which orders same-instant writes (R26)
  cls : Nat
  bundle : Nat
  pos : Nat
  rows : Nat := 0
  cols : Nat := 0
  d : Nat := 0
  a : Nat := 0
  b : Nat := 0
  addr : Nat := 0
  pitch : Nat := 0
  base : Nat := 0
  len : Nat := 0
  swz : Bool := false
  handle : Option Nat := none
  prod : Bool := false
  x : Word := 0
  y : Word := 0
  tcfg : Word := 0
  tcfg2 : Word := 0
  round : Word := 0
  ovtab : Word := 0
  pat : Word := 0
  streams : List Stream := []
  data : List (Nat × List Run) := []
  bytes : List Byte := []
  terms : List (Nat × List ColTerm) := []
  grads : List (Nat × GradRow) := []
  degen : Nat := 0
  counts : List Nat := []
  shadow : List Host.Cell := []
  codes : List (Nat × Nat × Word) := []   -- array, unit, wrong bits: the units that it reads as they stood before its own bundle's or its own writes (R13, R26, R304)
  cancelled : Bool := false
  page : Nat := 0             -- chrd: the issue cycle of its row page's first read (R222)
  moved : Nat := 0            -- dhget: bytes written so far; dhput: bytes that have reached the host
  got : List (Nat × Nat) := []   -- dhget: what has been written, as offsets and lengths
  after : Nat := 0            -- dhget: the cycle before which its counter addition does not perform (R221)
  acked : Bool := false       -- dhput: the host has acknowledged its bytes
  open_ : Bool := false       -- dhget, dhput: its counter addition is still to come
deriving DecidableEq, Repr

/-- A result or state change that performs after its issue (R11, R54, R138, R154 to R160, R184, R200, R203). -/
inductive Deferred where
  | g (d : BitVec 6) (x : Word)
  | cond (k : BitVec 4) (mask v : BitVec 2)
  | prep (k : BitVec 4) (hi : Bool) (a b : BitVec 8)
  | count (n : BitVec 6) (x : Word)
  | hset (h : BitVec 4) (a b : Word)
  | adv (h : BitVec 4) (n : Nat) (fill : Bool)
  | ctrl (c : BitVec 6) (x : Word)
  | ovtab (x : Word)
  | sys (r : BitVec 16) (x : Word)
  | accMode (grad : Bool)
  | tags (t : BitVec 4) (bytes : List Byte)
deriving DecidableEq, Repr

/-- A deferred change, due at a cycle, with what orders it among same-instant writes (R26). -/
structure Pend where
  due : Nat
  seqno : Nat
  cls : Nat
  bundle : Nat
  pos : Nat
  what : Deferred
deriving DecidableEq, Repr

/-- A loop level (R23): start and end syllable, trip count, current index. -/
structure LoopLevel where
  start : Nat
  stop : Nat
  trip : Nat
  index : Nat
deriving DecidableEq, Repr

/-- A core's trap record (R269); `bundle` is none where it names none. -/
structure TrapRec where
  cause : Nat
  detail : Nat := 0
  kind : Nat := 0
  engine : Nat := 0
  pos : Nat := 0
  bundle : Option Nat := none
  fnum : Nat := 0
  fcycle : Nat := 0
  raised : Nat := 0
  stop : Nat := 0
  address : Nat := 0
  info0 : Nat := 0
  info1 : Nat := 0
  outside : Bool := false
  idle : Bool := false
  more : Bool := false
  first : Bool := false
  names : Bool := false       -- the model's own, of a trap not yet taken: its instruction names what a context has (R288)
deriving DecidableEq, Repr

/-- The scalar, steer, counter and handle registers and the control registers of R28 and R39. -/
structure Regs where
  g : Vector Word 64 := Vector.replicate 64 0
  k : Vector Word 12 := Vector.replicate 12 0
  n : Vector Word 64 := Vector.replicate 64 0
  h0 : Vector Word 16 := Vector.replicate 16 0
  h1 : Vector Word 16 := Vector.replicate 16 0
  tcfg : Vector Word 16 := Vector.replicate 16 0
  shape : Word := 0
  round : Word := 0
  cellpat : Word := 0
  misses : BitVec 16 := 0
  degen : BitVec 16 := 0
  ovtab : Word := 0
deriving DecidableEq, Repr

/-- The sampled headland of a core (R56): issue cycle, furrow cycle, register, index and target half. -/
structure HeadSample where
  at_ : Nat
  fc : Nat
  k : Nat
  index : Nat
  target : BitVec 32
deriving DecidableEq, Repr

/-- A prep before head wrote a successor byte: steer register, byte, the furrow cycle of its issue (R53). -/
structure PrepMark where
  k : Nat
  byte : Nat
  fc : Nat
deriving DecidableEq, Repr

/-- The sequencer (R23, R67): position, loop stack, and the bundle it is issuing. -/
structure Seq where
  pc : Nat := 0
  furrow : Nat := 0                   -- the furrow the core is in (R57: it may differ from the rectangle's)
  loops : List LoopLevel := []
  fcycleLost : Nat := 0               -- cycles of the furrow in which the core did not advance (R64)
  since : Option Nat := none          -- the origin of its furrow, where the rectangle has left that furrow without it (R47)
  queue : List (Nat × Instr) := []    -- syllables of the current bundle that have still to take their effect
  bundle : Nat := 0
  len : Nat := 0
  pos : Nat := 0                      -- the position of the syllable taking its effect
  issuedAt : Option Nat := none       -- the cycle of the last bundle
  skip : Option Nat := none           -- a zero-trip loop's end, to be skip-tested (R147)
  suppressed : Bool := false          -- the bundle has a decode fault (R136)
  fend : Option Nat := none
  head : Option HeadSample := none
  preps : List PrepMark := []
  waiting : Bool := false             -- on a drain in an elastic furrow (R59)
  held : Bool := false
  starved : Bool := false             -- the hold for scales that no sqld brings has been reported (R63)
  frozen : Bool := false
  triedAt : Option Nat := none        -- the last cycle in which issue was refused
  stuck : Bool := false               -- an entry fault: nothing issues until the stop (R136)
  checked : List Nat := []            -- once-per-furrow checks made (missing head, overrun, merge)
  hist : List Nat := []               -- fcycle of the last cycles, newest first (R64)
  busy : BitVec 8 := 0                -- unit classes busy in this cycle (R260)
  mergeUntil : Nat := 0
deriving DecidableEq, Repr

/-- The scratchpad with its view marks (R91, R97): each marked line, with the instant of the last write that marked it
(R98). -/
structure Scratch where
  mem : Mem := []
  wl : List (Nat × Nat) := []
  ws : List (Nat × Nat) := []
deriving DecidableEq, Repr

/-- The vector file, bypass registers, masks, tiles and tag lanes; element addresses follow R29 to R32. -/
structure VecFile where
  v : Mem := []
  b : Mem := []
  m : Mem := []
  tile : Mem := []
  tag : Mem := []
deriving DecidableEq, Repr

/-- The matrix array (R33, R187): accumulator store and mode, weights, scales, descriptors. -/
structure ArrayState where
  acc : Mem := []
  grad : Bool := false
  weight : Mem := []
  scale : Mem := []                   -- unlisted scales read 0x7F
  desc : Vector (BitVec 32) 32 := Vector.replicate 32 0x7FF#32
deriving DecidableEq, Repr

/-- The queues and lists of R28: scale queue, count queue, miss list, sowing list and cursor. -/
structure Queues where
  sq : List Byte := []
  sqHead : Nat := 0                   -- the model's own: entries popped so far, the ring's head (log 104)
  cq : List (BitVec 16) := []
  cqHead : Nat := 0                   -- the model's own: the count queue's likewise
  miss : List (BitVec 11) := []
  sow : List Word := []
  cursor : Nat := 0
deriving DecidableEq, Repr

/-- A bank of the home channel (R223). -/
structure Bank where
  row : Option Nat := none            -- the open context row
  act : Option Nat := none
  pre : Option Nat := none
  rd : Option Nat := none
  wr : Option Nat := none
  refb : Option Nat := none           -- last chrefb of this bank
  last : Nat := 0                     -- last refresh, from which the deadline counts
  pages : List (Nat × Nat) := []      -- row pages of the open row: tag and first read's issue (R222)
  warned : Bool := false              -- the deadline fault of R226 has been raised
  shut : Bool := false                -- a stop has closed the open row, which it recorded (R44, R277)
deriving DecidableEq, Repr

/-- The channel timing model (R223). -/
structure Chan where
  banks : Vector Bank 30 := Vector.replicate 30 {}
  acts : List (Nat × Nat) := []       -- (cycle, bank) of the last chacts, newest first
  col : Vector (Option Nat) 8 := Vector.replicate 8 none
  wr : Vector (Option Nat) 8 := Vector.replicate 8 none
  refb : Option (Nat × Nat) := none   -- (cycle, bank) of the last chrefb
  ref : Option Nat := none
deriving DecidableEq, Repr

/-- The kind of a remote record (R101, R103). -/
inductive RecKind where
  | plain
  | reduce (key : Nat) (op fmt : BitVec 2)
  | atomic (op fmt : BitVec 2) (ret : Option Nat)
  | ret
  | counter (n : BitVec 6) (amount : Word)
deriving DecidableEq, Repr

/-- A remote record (R101): sender, order at the sender, destination, byte address and data; `open_` marks the blocks read
so far of a send that a stop has cut (R114). -/
structure Rec where
  kind : RecKind
  sender : Nat
  order : Nat
  dest : Nat
  addr : Nat
  bytes : List Byte
  arrive : Nat := 0
  open_ : Bool := false
  blocks : List Nat := []             -- once landed: the 64-byte blocks of the landing area that hold it (R101, R272)
deriving DecidableEq, Repr

/-- A send's block reads for the check of R102: destination and the last block's read instant. -/
structure SendNote where
  dest : Nat
  last : Nat
  sender : Nat := 0
deriving DecidableEq, Repr

/-- Remote traffic and host transfers of a core (R100 to R111): landed records of the previous and the current
furrow, records on the mesh, the furrow's sends, the open batch and the closed ones. -/
structure Traffic where
  prev : List Rec := []
  land : List Rec := []
  out : List Rec := []
  notes : List SendNote := []
  lateFault : Bool := false           -- R102's fault was raised at this furrow's origin (R103)
  openBatch : List Nat := []
  closed : List (List Nat) := []
  peer : List (Nat × Nat × List Byte) := []   -- (window, rank, bytes) of contributions to open reductions (R262)
deriving DecidableEq, Repr

/-- An array's error log and injection registers (R306, R307). -/
structure ErrLog where
  ce : BitVec 16 := 0
  ue : BitVec 8 := 0
  valid : Bool := false
  unc : Bool := false
  missed : Bool := false              -- the "over" bit: an error was not logged
  rep : Bool := false
  addr : Word := 0
  syn : Word := 0
  ctx : BitVec 16 := 0
  cyc : Word := 0
  inj : BitVec 9 := 0
  injAddr : Word := 0
  at_ : Nat := 0                      -- the model's own: the module cycle of the entry, which no restart of the field count repeats
deriving DecidableEq, Repr

/-- What a physical core holds besides a context: its system registers (R287), error logs (R305), the stored units
whose code does not check (array, unit, flipped bits), and its HBM contents (R42). -/
structure Phys where
  sysMode : Bool := false
  bank1 : Bool := false
  lastCause : BitVec 8 := 0
  sentry : Word := 0
  savebase : Word := 0
  savemask : Word := 0
  qcycle : Word := 0
  ctxid : BitVec 16 := 0
  iptroot : Word := 0
  icbase : Word := 0
  rowmap0 : List (Nat × BitVec 16) := []
  rowmap1 : List (Nat × BitVec 16) := []
  errs : Vector ErrLog 8 := Vector.replicate 8 {}
  flips : List (Nat × Nat × Word) := []
  hbm : Mem := []
  imageRows : List Nat := []          -- the rows at which a whole context image stands (R268, R288)
  halted : Option TrapRec := none     -- the fault that halted system code, as the management controller has it (R288)
deriving DecidableEq, Repr

/-- A context and the core it stands on (R27, R28): one core of one launch. -/
structure Core where
  lid : LaunchId
  index : Nat
  px : Nat
  py : Nat
  code : List (BitVec 32) := []
  ftab : List (Nat × BitVec 32) := []
  regs : Regs := {}
  seq : Seq := {}
  sp : Scratch := {}
  vec : VecFile := {}
  arr : ArrayState := {}
  q : Queues := {}
  chan : Chan := {}
  net : Traffic := {}
  pends : List Pend := []
  flights : List Flight := []
  nextUid : Nat := 0
  free : Nat := 0                     -- the model's own: how many free values this core has drawn
  trap : Option TrapRec := none
  wp : Vector Word 8 := Vector.replicate 8 0
  windows : List (Nat × Word) := []   -- word 4w + k of the window table (R282)
  phys : Phys := {}
  imageRow : Nat := 0                 -- an image: its first row in the system banks (R268, R287)
  imageMask : Word := 0               -- an image: the groups written, as savemask has them (R268, R287)
  imageLand : Nat := 4194304          -- an image: the first byte of the landing area written with them (R257, R268)
  backAt : Nat := 0                   -- the cycle in which the restore that eret began ends (R276)
deriving DecidableEq, Repr

/-- A gate entry of a launch record (R243). -/
structure Gate where
  counter : BitVec 16
  threshold : Word
deriving DecidableEq, Repr

/-- Where a launch stands (R245 to R259, R268, R327). -/
inductive Phase where
  | queued
  | called                            -- the scheduler has started it, and the launch unit has yet to begin it (R253)
  | preparing (until_ : Nat)          -- cycle in which the preparation of R245 ends
  | starting (origin : Nat)           -- waits for its first origin (R254)
  | running
  | saving (until_ : Nat)             -- the context save of R268
  | stopped
  | returning                         -- resumed; system code on each core runs to its eret (R276)
  | restoring (until_ : Nat)          -- the restore of R276
  | restarting (q : Nat)              -- between the restore's end and the restart cycle
  | completed
  | terminated
deriving DecidableEq, Repr

/-- Why a launch was asked to yield (R255, R268, R308). -/
inductive Yield where
  | class0 (by_ : LaunchId)
  | thermal
deriving DecidableEq, Repr

/-- What a core has still to place and to fill of a launch's code, in bytes, from the cycle in which the last window's
share has moved; and the page-table entry that the fill reads through (R248, R280). -/
structure Fill where
  core : Nat
  place : Nat
  fill : Nat
  ready : Nat := 0
  entry : Word := 0
deriving DecidableEq, Repr

/-- A body of code for a physical core: sheaf, function and logical index (R248). -/
structure Body where
  at_ : Nat
  sheaf : BitVec 64
  func : Nat
  index : Nat
deriving DecidableEq, Repr

/-- A launch (R243 to R259): its record's fields, its rectangle and its timetable. -/
structure Launch where
  id : LaunchId
  cls : Nat
  interlocked : Bool := false
  precise : Bool := false
  w : Nat := 1
  h : Nat := 1
  x0 : Nat := 0
  y0 : Nat := 0
  seed : Word := 0
  sheaf : BitVec 64 := 0
  func : Nat := 0
  landing : Nat := 0
  footprint : Nat := 0
  group : Nat := 0xFF
  member : Nat := 0
  ovtab : Word := 0
  gates : List Gate := []
  done : Nat := 0xFFFF
  report : Nat := 0
  args : List Byte := []
  xaddr : Word := 0
  xlen : Nat := 0
  saddr : Word := 0
  slen : Nat := 0
  wp : List (Nat × Word) := []           -- word 8i + r: what the host wrote to watchpoint register r of core i (R285)
  fills : List Fill := []
  furrows : List FurrowDecl := []
  phase : Phase := .queued
  furrow : Nat := 0
  origin : Nat := 0
  next : Option Nat := none              -- next origin, once fixed
  turned : Option Nat := none            -- the cycle of the last FURROW_ORIGIN (R267)
  ended : Option Nat := none             -- the end of the furrow marked .done (R259)
  compared : Bool := false               -- this furrow's headland compare has been made
  yield_ : Option Yield := none
  footprinted : Bool := false            -- stopped by a footprint save that has not been restored (R257)
  footUntil : Option Nat := none         -- the end of the footprint's restore
  saved : Nat := 0                       -- bytes that a resume restores (R268, R276)
  stop : Nat := 0                        -- the stop s, as a module cycle and as a field cycle
  stopField : Nat := 0
  held : List (Nat × BitVec 6 × Word) := []   -- counter additions held for the restart (R271)
  fresh : Bool := true                   -- has never run
deriving DecidableEq, Repr

/-- A process-group entry (R261). -/
structure Group where
  w : Nat
  h : Nat
  members : List Member
deriving DecidableEq, Repr

/-- A partition (R241). -/
structure Partition where
  number : Nat
  px : Nat
  py : Nat
  pw : Nat
  ph : Nat
  class0 : Bool
  counters : List (Nat × Word) := []
  seed : Word := 0
  groups : List (Nat × Group) := []
  survey : List (Nat × BitVec 32 × BitVec 32) := []   -- (entry, idle, busy) of R260
  base : Nat := 0                        -- module cycle of field cycle 0 (R254)
  window : Option Nat := none            -- the cycle of the last SYSTEM_WINDOW (R43)
  windows : List (Nat × Word) := []
  sheaves : List Sheaf := []
  area : List (BitVec 64 × List Nat) := []   -- the rows of the sheaf area that each registered sheaf takes (R248)
  pm : List Byte := List.replicate 32 0
  nextAcc : Nat := 0
  early : List (Nat × Word) := []        -- word 8i + r: what the host wrote for the launch that is accepted next (R285, R289)
deriving DecidableEq, Repr

/-- A report (R294). -/
structure Report where
  rsn : BitVec 48
  kind : Nat
  status : Nat := 0
  executed : BitVec 48 := 0
  tag : BitVec 64 := 0
  endpoint : Nat := 0
  body : List Byte := []
deriving DecidableEq, Repr

/-- An input that has reached the module: its arrival cycle, the core of a launch it is for where there is one, and
what it is: a host command, a host side's event or an event of the surroundings. -/
structure Input where
  at_ : Nat
  core : Option (LaunchId × Nat) := none
  what : Instr
deriving DecidableEq, Repr

/-- Bytes of a dhput that have reached the host: endpoint, address there, the sender's rank in a peer reduction
(R262, R283), and the bytes. -/
structure Sent where
  endpoint : Nat
  addr : Word
  rank : Option Nat := none
  bytes : List Byte
deriving DecidableEq, Repr

/-- The management controller (R293 to R303). -/
structure Mgmt where
  x : BitVec 48 := 0
  held : List (BitVec 48 × Instr) := []
  rsn : BitVec 48 := 0                   -- last rsn issued
  kept : List Report := []               -- newest first, at most 1,024
  ready : Vector Word 6 := Vector.replicate 6 0
  fw : Bool := false
  flash : Option FirmwareImage := none
  running : Option FirmwareImage := none
  fusedKey : List Byte := List.replicate 32 0
  fusedSvn : Nat := 0
  idKey : List Byte := List.replicate 64 0
  m1 : List Byte := List.replicate 32 0
  powered : Bool := false
  hot : Bool := false
deriving DecidableEq, Repr

/-- A plot's instruction TLB entry (R280): context id, page number, the page-table entry. -/
structure TlbEntry where
  ctx : BitVec 16
  page : Nat
  entry : Word
deriving DecidableEq, Repr

/-- The module. -/
structure State where
  now : Nat := 0
  cores : List Core := []
  cur : Nat := 0                         -- the context whose step this is: a core, or past them an image
  images : List Core := []               -- context images in the system banks (R272), by launch and index
  launches : List Launch := []
  parts : List Partition := []
  mgmt : Mgmt := {}
  inbox : List Input := []
  sent : List Report := []               -- reports sent, newest first
  host : List Sent := []                 -- bytes that have reached the host, newest first
  idle : List (Nat × Phys) := []         -- physical cores that hold no context and differ from their reset state
  placed : List (Body × Nat) := []       -- bodies placed, each in a page slot of its core's system banks (R248, R279)
  resident : List (Body × List (BitVec 32)) := []   -- bodies resident: the syllables in the code store (R248)
  tlb : List (Nat × TlbEntry) := []      -- (plot, entry), most recently used first
  sysCode : List (BitVec 32) := []       -- the system code store (R288)
  rrPart : Nat := 0                      -- the partition the launch unit served last (R253)
  free : Nat := 0                        -- the model's own: how many free values the module has drawn
deriving DecidableEq, Repr

/-- Why the machine stops with a fault. -/
inductive Fault where
  /-- A step of a core was asked for and the state holds no such core. Raised by every meaning that acts on the
  acting core. Safe: no hardware step exists to describe. -/
  | noActor
  /-- An event names an operation, a launch or a partition that the state does not hold. Raised by the events'
  meanings. Safe: the hardware raises no such event. -/
  | noSuchEvent
deriving DecidableEq, Repr

/-- Why a step has no meaning. -/
inductive Refusal where
  /-- The instruction has no meaning yet. Raised by the dispatch's own arms only. Safe. -/
  | notModelled (mnemonic : String)
deriving DecidableEq, Repr

/-- The module when power is first applied: no function is ready, no partition, launch or context exists, X is 0 and
report numbering starts at 1 (R241, R254, R296 to R298). [DESIGN CHOICE: log 3, 124] -/
def State.reset : State := {}

end Sys2Proof.Machine
end

