-- ==== Sys2Proof/Machine/Mem.lean ====
section
/-!
DEFINITION. Sparse memories in canonical form: what a byte reads as, writing a byte, and the form itself. Every memory
of a core (scratchpad, vector file, masks, tiles, accumulator store, weights, scales, HBM) is one of these, with its
own byte for what nothing has written: zero (R27), or 0x7F for weight scales (R187).
-/

namespace Sys2Proof.Machine

/-- The byte at `a`; an unlisted address reads `d`. [DESIGN CHOICE: log 2] -/
def Mem.get (d : Byte) : Mem → Nat → Byte
  | [], _ => d
  | (k, x) :: m, a => if k < a then Mem.get d m a else if k = a then x else d

/-- A cell before a memory, left out when it holds what an unlisted address reads. -/
def Mem.cons (d : Byte) (a : Nat) (x : Byte) (m : Mem) : Mem := if x = d then m else (a, x) :: m

/-- The memory with byte `x` at `a`. -/
def Mem.put (d : Byte) : Mem → Nat → Byte → Mem
  | [], a, x => Mem.cons d a x []
  | (k, y) :: m, a, x =>
    if k < a then (k, y) :: Mem.put d m a x
    else if k = a then Mem.cons d a x m
    else Mem.cons d a x ((k, y) :: m)

/-- The canonical form: addresses strictly rising, no cell equal to what an unlisted address reads. -/
def Mem.wf (d : Byte) : Mem → Bool
  | [] => true
  | (k, x) :: m => x != d && (m.all fun c => decide (k < c.1)) && Mem.wf d m

/-- The `n` bytes from `a`. -/
def Mem.bytes (d : Byte) (m : Mem) (a n : Nat) : List Byte := (List.range n).map fun i => m.get d (a + i)

/-- The memory with `bs` from `a`. -/
def Mem.putAll (d : Byte) (m : Mem) (a : Nat) : List Byte → Mem
  | [] => m
  | x :: bs => Mem.putAll d (m.put d a x) (a + 1) bs

/-- The cells of `bs` from `a`. -/
def Mem.cells (d : Byte) (a : Nat) : List Byte → Mem
  | [] => []
  | x :: bs => Mem.cons d a x (Mem.cells d (a + 1) bs)

/-- The bytes of `lo` to `hi − 1` from `a`, the others from `b`. -/
def mergeMem (lo hi : Nat) (a b : Mem) : Mem :=
  (b.filter fun e => e.1 < lo) ++ (a.filter fun e => lo ≤ e.1 && e.1 < hi) ++ b.filter fun e => hi ≤ e.1

/-- The bytes of `lo` to `hi − 1`, counted from `lo`. -/
def Mem.part (lo hi : Nat) (m : Mem) : Mem := (m.filter fun e => lo ≤ e.1 && e.1 < hi).map fun e => (e.1 - lo, e.2)

/-- A memory whose addresses begin `k` higher. -/
def Mem.up (k : Nat) (m : Mem) : Mem := m.map fun e => (e.1 + k, e.2)

/-- The `n` bytes from `a` of a memory that reads `d` where it lists nothing, as cells of one that reads `d'` there. -/
def Mem.redefault (d d' : Byte) : Nat → Nat → Mem → Mem
  | 0, _, _ => []
  | n + 1, a, [] => Mem.cons d' a d (Mem.redefault d d' n (a + 1) [])
  | n + 1, a, (k, x) :: m =>
    if k = a then Mem.cons d' a x (Mem.redefault d d' n (a + 1) m)
    else Mem.cons d' a d (Mem.redefault d d' n (a + 1) ((k, x) :: m))

/-- The `n` bytes from `a`, where the memory lists nothing below `a`. -/
def Mem.dense (d : Byte) : Nat → Nat → Mem → List Byte
  | 0, _, _ => []
  | n + 1, a, [] => d :: Mem.dense d n (a + 1) []
  | n + 1, a, (k, x) :: m => if k = a then x :: Mem.dense d n (a + 1) m else d :: Mem.dense d n (a + 1) ((k, x) :: m)

/-- A byte written only where `mask` has ones (R30, R32: mask bits and the nibbles of e2m1 share bytes). -/
def Mem.putBits (d : Byte) (m : Mem) (a : Nat) (mask x : Byte) : Mem :=
  m.put d a ((m.get d a &&& ~~~mask) ||| (x &&& mask))

/-- The natural number that bytes hold, little-endian (R7). -/
def leNat : List Byte → Nat
  | [] => 0
  | x :: bs => x.toNat + 256 * leNat bs

/-- The `n` bytes of a natural number, little-endian (R7). -/
def leBytes : Nat → Nat → List Byte
  | 0, _ => []
  | n + 1, w => BitVec.ofNat 8 w :: leBytes n (w / 256)

/-- An association list's value at a key. -/
def look {α : Type} (d : α) (l : List (Nat × α)) (k : Nat) : α :=
  match l.find? fun c => c.1 == k with
  | some c => c.2
  | none => d

/-- An association list with one key's value replaced; keys stay in rising order. -/
def assign {α : Type} (k : Nat) (x : α) : List (Nat × α) → List (Nat × α)
  | [] => [(k, x)]
  | (j, y) :: l => if j < k then (j, y) :: assign k x l else if j = k then (k, x) :: l else (k, x) :: (j, y) :: l

/-- A member added to a rising list of numbers. -/
def insertNat (x : Nat) : List Nat → List Nat
  | [] => [x]
  | y :: l => if y < x then y :: insertNat x l else if y = x then y :: l else x :: y :: l

end Sys2Proof.Machine
end

