-- ==== Sys2Proof/Machine/Ops.lean ====
section
/-!
DEFINITION. The named operations over a core: what a step sees of its launch, registers, scratchpad, view marks,
handles, error detection, watchpoints, scheduling an effect, taking a trap (R66, R263 to R269), the stop that follows
it and the return from one.
-/

namespace Sys2Proof.Machine

/-! ## What a core's step sees of its launch -/

/-- The cycle, the field count's base, and the launch the core runs. -/
structure Ctx where
  now : Nat
  base : Nat
  la : Launch
deriving DecidableEq, Repr

/-- The launch named, if the state holds it. -/
def State.launch? (s : State) (l : LaunchId) : Option Launch := s.launches.find? fun x => x.id == l

/-- The partition of number `n`. -/
def State.part? (s : State) (n : Nat) : Option Partition := s.parts.find? fun p => p.number == n

/-- A launch with no furrow, which a core without its launch in the state would see. -/
def noLaunch (l : LaunchId) : Launch := { id := l, cls := 0 }

/-- What core `c` sees. -/
def State.ctx (s : State) (c : Core) : Ctx :=
  { now := s.now
    base := ((s.part? c.lid.part.toNat).map (·.base)).getD 0
    la := (s.launch? c.lid).getD (noLaunch c.lid) }

/-- The field cycle (R254). -/
def Ctx.field (x : Ctx) : Nat := x.now - x.base

/-- The descriptor of furrow `f` (R45). -/
def Launch.descOf (l : Launch) (f : Nat) : Word := ((l.furrows.find? fun d => d.num == f).map (·.desc)).getD 0

/-- Whether furrow `f` is marked .done (R316). -/
def Launch.doneOf (l : Launch) (f : Nat) : Bool := ((l.furrows.find? fun d => d.num == f).map (·.done)).getD false

/-- The current furrow's descriptor. -/
def Launch.desc (l : Launch) : Word := l.descOf l.furrow

/-- The length L of a fixed furrow, or Lmax (R45). -/
def descLen (d : Word) : Nat := fieldOf d.toNat 0 24 + 1

/-- The seam (R45). -/
def descSeam (d : Word) : Nat := fieldOf d.toNat 24 13

/-- The elastic bit (R45). -/
def descElastic (d : Word) : Bool := d.getLsbD 37

/-- The headland bit (R45). -/
def descHeadland (d : Word) : Bool := d.getLsbD 38

/-- The decider (R45). -/
def descDecider (d : Word) : Nat := fieldOf d.toNat 39 9

/-- The successor without a headland (R45). -/
def descNext (d : Word) : Nat := fieldOf d.toNat 48 8

/-- The valid bit (R45). -/
def descValid (d : Word) : Bool := d.getLsbD 63

/-- L, or Lmax, of the current furrow. -/
def Ctx.len (x : Ctx) : Nat := descLen x.la.desc

/-- The current furrow is elastic. -/
def Ctx.elastic (x : Ctx) : Bool := descElastic x.la.desc

/-- The number of cores of the launch. -/
def Ctx.cores (x : Ctx) : Nat := x.la.w * x.la.h

/-- The landing area's size in bytes (R100). -/
def Ctx.landing (x : Ctx) : Nat := x.la.landing * 65536

/-- The first local address of the landing area (R100). -/
def Ctx.landBase (x : Ctx) : Nat := 4194304 - x.landing

/-- The first local address of a launch's landing area (R100). -/
def Launch.landBase (la : Launch) : Nat := 4194304 - la.landing * 65536

/-- The launch's contexts are stopped: from the common stop to the restart cycle (R268, R271, R276). -/
def Launch.stoppedNow (la : Launch) : Bool :=
  match la.phase with
  | .saving _ | .stopped | .returning | .restoring _ | .restarting _ => true
  | .queued => !la.fresh
  | _ => false

/-- The furrow cycle of core `c`, which stands still while its launch is stopped; a core that its rectangle left behind in
a furrow counts on from that furrow's origin (R47, R64, R67, R273). [DEDUCED: log 38, 76] -/
def Core.fcycle (x : Ctx) (c : Core) : Nat :=
  match x.la.phase with
  | .running => x.now - c.seq.since.getD x.la.origin - c.seq.fcycleLost
  | _ => if x.la.stoppedNow then x.la.stop - c.seq.since.getD x.la.origin - c.seq.fcycleLost else 0

/-- What the timetable is for a core that its rectangle left behind in a furrow: that furrow's (R47, R55, R67).
[DEDUCED: log 76] -/
def Ctx.own (c : Core) (x : Ctx) : Ctx :=
  if c.seq.since.isSome then { x with la := { x.la with furrow := c.seq.furrow } } else x

/-- A core's slot of the core store follows the cores' arrangement: its physical number, 0 to 511 (R17). -/
def Core.physNo (c : Core) : Nat := 32 * c.py + c.px

/-- The plot of a physical core (R17). -/
def plotOf (px py : Nat) : Nat := 8 * (py / 2) + px / 4

/-- The die of a physical core (R17). -/
def dieOf (px py : Nat) : Nat := 2 * (py / 8) + px / 16

/-! ## Acting on the acting core -/

/-- The acting core: a context on its core, or, while it is stopped, its image (R271). -/
def State.actor (s : State) : Option Core :=
  if s.cur < s.cores.length then s.cores[s.cur]? else s.images[s.cur - s.cores.length]?

/-- The state with the acting core replaced. -/
def State.setActor (s : State) (c : Core) : State :=
  if s.cur < s.cores.length then { s with cores := s.cores.set s.cur c }
  else { s with images := s.images.set (s.cur - s.cores.length) c }

/-- A step that changes the acting core alone. -/
def onCore (s : State) (f : Ctx → Core → Core) : Host.Outcome State Fault Refusal :=
  match s.actor with
  | none => .fault .noActor
  | some c => .next (s.setActor (f (s.ctx c) c))

/-! ## Scalar, steer, counter and handle registers (R28, R35, R36) -/

/-- Scalar register `d`; g0 reads zero. -/
def Regs.readG (r : Regs) (d : BitVec 6) : Word := if d = 0 then 0 else r.g[d.toNat]'d.isLt

/-- A write of scalar register `d`; a write to g0 is discarded. -/
def Regs.writeG (r : Regs) (d : BitVec 6) (x : Word) : Regs :=
  if d = 0 then r else { r with g := r.g.set d.toNat x d.isLt }

/-- Steer register `k`; a number above 11 names none. Bits 31:2 read zero (R52). -/
def Regs.readK (r : Regs) (k : BitVec 4) : Word := if h : k.toNat < 12 then r.k[k.toNat] &&& 0xFFFFFFFF00000003#64 else 0

/-- A write of steer register `k`. -/
def Regs.writeK (r : Regs) (k : BitVec 4) (x : Word) : Regs :=
  if h : k.toNat < 12 then { r with k := r.k.set k.toNat x } else r

/-- Counter `n`. -/
def Regs.readN (r : Regs) (n : BitVec 6) : Word := r.n[n.toNat]'n.isLt

/-- The sum of two naturals, saturating at 2^64 − 1 (R36). -/
def satAdd (a b : Word) : Word := if 2 ^ 64 ≤ a.toNat + b.toNat then BitVec.allOnes 64 else a + b

/-- A saturating addition to counter `n` (R36). -/
def Regs.addN (r : Regs) (n : BitVec 6) (x : Word) : Regs :=
  { r with n := r.n.set n.toNat (satAdd (r.readN n) x) n.isLt }

/-- Word 0 of handle `h`. -/
def Regs.hw0 (r : Regs) (h : BitVec 4) : Word := r.h0[h.toNat]'h.isLt

/-- Word 1 of handle `h`. -/
def Regs.hw1 (r : Regs) (h : BitVec 4) : Word := r.h1[h.toNat]'h.isLt

/-- A write of handle `h`. -/
def Regs.writeH (r : Regs) (h : BitVec 4) (a b : Word) : Regs :=
  { r with h0 := r.h0.set h.toNat a h.isLt, h1 := r.h1.set h.toNat b h.isLt }

/-- Tile configuration register `t`. -/
def Regs.tcfgOf (r : Regs) (t : BitVec 4) : Word := r.tcfg[t.toNat]'t.isLt

/-- The fields of a handle (R35). -/
structure HandleView where
  base : Nat
  slot : Nat
  count : Nat
  swz : Bool
  fill : Nat
  drain : Nat
  filled : Nat
deriving DecidableEq, Repr

/-- The fields of a handle's two words (R35). -/
def handleOf (a b : Word) : HandleView :=
  { base := fieldOf a.toNat 0 22
    slot := (fieldOf a.toNat 32 10 + 1) * 64
    count := fieldOf a.toNat 42 12 + 1
    swz := a.getLsbD 54
    fill := fieldOf b.toNat 0 12
    drain := fieldOf b.toNat 16 12
    filled := fieldOf b.toNat 32 13 }

/-- A handle's word 1 from its pointers (R35). -/
def handleW1 (fill drain filled : Nat) : Word := BitVec.ofNat 64 (fill + drain * 2 ^ 16 + filled * 2 ^ 32)

/-- Handle `h` of a core. -/
def Regs.handle (r : Regs) (h : BitVec 4) : HandleView := handleOf (r.hw0 h) (r.hw1 h)

/-- The legality conditions of R35. -/
def handleLegal (a b : Word) : Bool :=
  let v := handleOf a b
  fieldOf a.toNat 0 6 == 0 && fieldOf a.toNat 22 10 == 0 && fieldOf a.toNat 55 9 == 0 &&
  fieldOf b.toNat 12 4 == 0 && fieldOf b.toNat 28 4 == 0 && fieldOf b.toNat 45 19 == 0 &&
  v.base + v.slot * v.count ≤ 4194304 && v.fill < v.count && v.drain < v.count && v.filled ≤ v.count &&
  v.fill == (v.drain + v.filled) % v.count

/-- Handle `h` with its drain pointer moved by `n` (R154). -/
def Regs.advDrain (r : Regs) (h : BitVec 4) (n : Nat) : Regs :=
  let v := r.handle h
  r.writeH h (r.hw0 h) (handleW1 v.fill ((v.drain + n) % v.count) (v.filled - n))

/-- Handle `h` with its fill pointer moved by `n` (R99, R154). -/
def Regs.advFill (r : Regs) (h : BitVec 4) (n : Nat) : Regs :=
  let v := r.handle h
  r.writeH h (r.hw0 h) (handleW1 ((v.fill + n) % v.count) v.drain (v.filled + n))

/-! ## Shape and tile configurations (R29, R32, R39) -/

/-- Rows of the shape register. -/
def shapeRows (w : Word) : Nat := fieldOf w.toNat 0 14 + 1

/-- Columns of the shape register; 0 means 256. -/
def shapeCols (w : Word) : Nat := if fieldOf w.toNat 16 8 = 0 then 256 else fieldOf w.toNat 16 8

/-- Tile format code. -/
def tcFormat (w : Word) : Nat := fieldOf w.toNat 0 4

/-- Tile rows. -/
def tcRows (w : Word) : Nat := fieldOf w.toNat 8 8 + 1

/-- Tile columns. -/
def tcCols (w : Word) : Nat := fieldOf w.toNat 16 8 + 1

/-- The e2m1 extra value's e4m3 code. -/
def tcAlt4 (w : Word) : Byte := BitVec.ofNat 8 (fieldOf w.toNat 24 8)

/-- The extra value takes part in rounding. -/
def tcAlt4Use (w : Word) : Bool := w.getLsbD 32

/-- The tag-lane enable. -/
def tcTags (w : Word) : Bool := w.getLsbD 33

/-- The bytes of a tile row (R32). -/
def tcRowBytes (w : Word) : Nat :=
  match tcFormat w with
  | 2 => (tcCols w + 1) / 2
  | 4 => 2 * tcCols w
  | _ => tcCols w

/-- A legal tile configuration (R32); reserved bits are R40's. -/
def tcLegal (w : Word) : Bool :=
  tcFormat w ≤ 4 && tcRows w * tcRowBytes w ≤ 32768 && tcAlt4 w != 0x7F#8 && tcAlt4 w != 0xFF#8

/-! ## Taking a trap (R66, R263 to R269) -/

/-- Whether cause `n` is terminating (R263). -/
def terminating (n : Nat) : Bool := n ≤ 0x0D || n == 0x15

/-- Syllables that name a context's counters, handles or timetable, whose faults system code does not raise (R288).
[DEDUCED: log 114] -/
def namesContext (i : Instr) : Bool :=
  match i with
  | .cadd .. | .caddR .. | .ctest .. | .ctestReg .. | .dhget .. | .dhput .. | .adv .. | .hset .. | .hget .. | .ldh ..
  | .sth .. | .ldth .. | .stth .. | .dcp .. | .chrdHandle .. | .chwrHandle .. | .fend | .head _ | .prep .. | .prepHi ..
  | .loopq _ | .drain _ | .bclose | .rfence .. => true
  | _ => false

/-- A trap record completed with the raise's furrow, furrow cycle, field cycle and sequencer state: idle or joining from
the cycle after its fend (R49, R269). [DEDUCED: log 21, 95] -/
def Core.fillTrap (x : Ctx) (c : Core) (t : TrapRec) : TrapRec :=
  { t with
    fnum := c.seq.furrow
    fcycle := c.fcycle x
    raised := x.now
    names := false
    idle := c.seq.fend.elim false fun y => decide (y < x.now) }

/-- Two traps of one cycle at one core: the lower cause is recorded, and of one cause at one bundle's issue the lower
position (R265, R266). -/
def trapBefore (t o : TrapRec) : Bool :=
  t.cause < o.cause ||
  (t.cause == o.cause && t.kind == 0 && o.kind == 0 && t.bundle == o.bundle && t.pos < o.pos)

/-- Taking a trap: the core records the first it raises, and a later one sets the more-traps flag (R266). The common
stop falls 16 cycles after the launch's first trap; the launch's `stopOf` gives it, and from the stop on a launch raises
no trap (R266). In system code a fault halts the core, and the management controller has its report; an instruction that
names a context's counters, handles or timetable raises none there (R288). [DEDUCED: log 114, 123, 161] -/
def Core.raise (x : Ctx) (t : TrapRec) (c : Core) : Core :=
  if c.phys.sysMode then
    if t.names then c else { c with phys := { c.phys with halted := some (c.phys.halted.getD (c.fillTrap x t)) } }
  else if x.la.phase != .running then c
  else
    match c.trap with
    | none => { c with trap := some (c.fillTrap x t) }
    | some o =>
      if o.raised == x.now && trapBefore t o then { c with trap := some { c.fillTrap x t with more := true } }
      else { c with trap := some { o with more := true } }

/-- A watchpoint's record: watchpoint number and byte mask in info0 (R263, R286). -/
def watchInfo (wp mask : Nat) : Nat := wp + mask * 4

/-- Raising a watchpoint match: of several in one cycle the lowest numbered is recorded, with the union of the bytes
of its own word and the lowest of their addresses; other matches set the more-traps flag (R286). Of two syllables of one
bundle the lower position is named (R265). [DEDUCED: log 137] -/
def Core.raiseWatch (x : Ctx) (wp mask : Nat) (t : TrapRec) (c : Core) : Core :=
  match c.trap with
  | some o =>
    if !c.phys.sysMode && x.la.phase == .running && o.raised == x.now && o.cause == 0x10 then
      if o.info0 % 4 == wp then
        { c with trap := some { o with
            info0 := watchInfo wp ((o.info0 / 4) ||| mask)
            address := min o.address t.address
            pos := if o.kind == 0 && t.kind == 0 && o.bundle == t.bundle then min o.pos t.pos else o.pos
            engine := if o.kind == 0 && t.kind == 0 && o.bundle == t.bundle && t.pos < o.pos then t.engine else o.engine } }
      else if wp < o.info0 % 4 then
        { c with trap := some { c.fillTrap x { t with cause := 0x10, info0 := watchInfo wp mask } with more := true } }
      else { c with trap := some { o with more := true } }
    else c.raise x { t with cause := 0x10, info0 := watchInfo wp mask }
  | none => c.raise x { t with cause := 0x10, info0 := watchInfo wp mask }

/-- The engine code of a syllable's operations (R269). [DEDUCED: log 85] -/
def engineOf (i : Instr) : Nat :=
  match i with
  | .wld .. => 3
  | .dgln .. => 7
  | .dput .. | .dred .. | .amo .. | .amor .. | .caddR .. => 8
  | .dhget .. | .dhput .. => 9
  | .dcan .. | .chact .. | .chactReg .. | .chrd .. | .chrdHandle .. | .chwr .. | .chwrHandle .. | .chpre .. | .chpra
  | .chref | .chrefb .. => 10
  | i =>
    match encodeSyllable i / 268435456 % 8 with
    | 2 => 1
    | 3 => 2
    | 4 => 4
    | 5 => 5
    | 6 => 6
    | _ => 0

/-- A precise trap at the issue of syllable `i` of the current bundle; a decode fault is the sequencer's (R136, R264,
R269). [DEDUCED: log 85] -/
def Core.preciseTrap (c : Core) (i : Instr) (cause detail : Nat) : TrapRec :=
  { cause := cause, detail := detail, pos := c.seq.pos, bundle := some c.seq.bundle,
    engine := if cause ≤ 3 then 0 else engineOf i, names := namesContext i }

/-- An imprecise trap at a later instant of an operation (R264). -/
def Flight.trap (f : Flight) (cause detail addr info0 info1 : Nat) : TrapRec :=
  { cause := cause, detail := detail, kind := 1, engine := engineOf f.instr, pos := f.pos, bundle := some f.bundle,
    address := addr, info0 := info0, info1 := info1, names := namesContext f.instr }

/-- The common stop of a launch: 16 cycles after its first trap (R66, R266). -/
def State.stopOf (s : State) (l : LaunchId) : Option Nat :=
  (s.cores.filter fun c => c.lid == l).foldl
    (fun m c => match c.trap, m with
      | some t, some y => some (min y (t.raised + 16))
      | some t, none => some (t.raised + 16)
      | none, y => y) none

/-! ## Scheduling an effect -/

/-- Appends a deferred change of the current bundle, due `n` cycles after issue (R11, R138). -/
def Core.later (x : Ctx) (cls pos n : Nat) (w : Deferred) (c : Core) : Core :=
  { c with pends := c.pends ++
      [{ due := x.now + n, seqno := x.now, cls := cls, bundle := c.seq.bundle, pos := pos, what := w }] }

/-- Puts an operation in flight. -/
def Core.fly (f : Flight) (c : Core) : Core :=
  { c with flights := c.flights ++ [{ f with uid := c.nextUid }], nextUid := c.nextUid + 1 }

/-- The instant of a stream's next event. -/
def Stream.due (t : Stream) : Nat := t.first + t.k * t.mul / t.div

/-- The instant of a stream's last event. -/
def Stream.last (t : Stream) : Nat := t.first + (t.n - 1) * t.mul / t.div

/-- A stream that has events to come. -/
def Stream.live (t : Stream) : Bool := t.k < t.n

/-- A pass is one of mma, mmaz, mmag. -/
def isPass (i : Instr) : Bool :=
  match i with
  | .mma .. | .mmaz .. | .mmag .. => true
  | _ => false

/-- An operation with effects still to perform, or a host transfer still open (R209). -/
def Flight.live (f : Flight) : Bool := f.streams.any Stream.live || f.open_

/-- The operation of uid `u`. -/
def Core.flight? (c : Core) (u : Nat) : Option Flight := c.flights.find? fun f => f.uid == u

/-- An operation that stays in flight to the end of the cycle of its last effect: a pass, which holds its destination busy
until then (R190), and an sqld (R214). -/
def lingers (i : Instr) : Bool :=
  match i with
  | .mma .. | .mmaz .. | .mmag .. | .sqld .. => true
  | _ => false

/-- The core with one operation replaced; an operation with nothing left to do leaves the flight record, and one that
lingers at the end of the cycle. -/
def Core.setFlight (f : Flight) (c : Core) : Core :=
  { c with flights := (c.flights.map fun g => if g.uid == f.uid then f else g).filter fun g => g.live || lingers g.instr }

/-- The operation with event `j`'s stream moved on by one. -/
def Flight.next (f : Flight) (j : Nat) : Flight :=
  { f with streams := f.streams.mapIdx fun i t => if i == j then { t with k := t.k + 1 } else t }

/-- An event of stream `j` of operation `u` at the acting core: `g` performs event `k` of the operation, which has
moved on. [DESIGN CHOICE: log 97] -/
def coreEvent (u j : Nat) (g : Ctx → Flight → Nat → Core → Core) (s : State) : Host.Outcome State Fault Refusal :=
  match s.actor with
  | none => .fault .noActor
  | some c =>
    match c.flight? u with
    | none => .fault .noSuchEvent
    | some f =>
      match f.streams[j]? with
      | none => .fault .noSuchEvent
      | some t => .next (s.setActor (g (s.ctx c) (f.next j) t.k (c.setFlight (f.next j))))

/-- An operation in flight beside what issues at `now` (R209): its last effect performs later, it is open, or it is an lds
whose register is not written or an sqld, which is in flight to the end of issue+5 (R214). [DEDUCED: log 134] -/
def Flight.flies (now : Nat) (f : Flight) : Bool :=
  f.open_ || (f.streams.any fun t => t.live && now < t.last) || match f.instr with
    | .lds .. | .sqld .. => true
    | _ => false

/-- L, W and D operations in flight beside what issues at `now` (R209); an lds that has read is one until its register is
written. [DEDUCED: log 134] -/
def Core.inFlight (now : Nat) (c : Core) : Nat :=
  (c.flights.filter fun f => 4 ≤ f.cls && f.cls ≤ 6 && !f.cancelled && f.flies now).length +
    (c.pends.filter fun p => p.cls == 4).length

/-! ## Error detection (R304 to R307) -/

/-- The number of ones of a word. -/
def ones (w : Nat) : Nat := ((List.range 64).filter fun i => w / 2 ^ i % 2 == 1).length

/-- An error enters an array's log: the first uncorrectable one stands, else the latest correctable, and errors of one
cycle count as coming in ascending address, whatever order they are found in (R306). -/
def ErrLog.record (e : ErrLog) (now : Nat) (unc : Bool) (addr syn cyc : Nat) (ctx : BitVec 16) : ErrLog :=
  let e := if unc then { e with ue := if e.ue = 0xFF#8 then e.ue else e.ue + 1 }
           else { e with ce := if e.ce = 0xFFFF#16 then e.ce else e.ce + 1 }
  let before := e.valid && e.at_ == now && decide (addr < e.addr.toNat)
  let entry : ErrLog := { e with valid := true, unc := unc, addr := BitVec.ofNat 64 addr, syn := BitVec.ofNat 64 syn,
                                 ctx := ctx, cyc := BitVec.ofNat 64 cyc, at_ := now }
  if e.valid && e.unc then
    if !before then { e with missed := true } else if unc then { entry with missed := true } else e
  else if before then if unc then { entry with missed := true } else e
  else entry

/-- The core with array `a`'s log replaced. -/
def Core.setErr (a : Nat) (e : ErrLog) (c : Core) : Core :=
  if h : a < 8 then { c with phys := { c.phys with errs := c.phys.errs.set a e } } else c

/-- Array `a`'s log. -/
def Core.err (c : Core) (a : Nat) : ErrLog := if h : a < 8 then c.phys.errs[a] else {}

/-- The context row that stands at physical row `row` under the row map in use (R281). -/
def Phys.contextRow (p : Phys) (row : Nat) : Nat :=
  match (if p.bank1 then p.rowmap1 else p.rowmap0).find? fun e => e.2.getLsbD 15 && fieldOf e.2.toNat 0 9 == row / 64 with
  | some e => e.1 * 64 + row % 64
  | none => row

/-- How unit `u` of array `a` stands in an error address: its local byte, or for the home channel bank and context row
(R306). -/
def Core.errAddr (c : Core) (a u : Nat) : Nat :=
  if a = 7 then
    let row := u / 128 % 32768
    u / 128 / 32768 * 2 ^ 32 + (if u / 128 / 32768 < 30 then c.phys.contextRow row else row)
  else u * 8

/-- The units with a wrong bit that a read of `n` bytes from `addr` of array `a` meets, in ascending order; a column of the
home channel is read in code words of 32 bytes (R304, R306). -/
def Phys.wrongIn (a addr n : Nat) (p : Phys) : List Nat :=
  let w := if a = 7 then 32 else 8
  (p.flips.filter fun e => e.1 == a && addr / w * w ≤ 8 * e.2.1 && 8 * e.2.1 < (addr + n + w - 1) / w * w).foldl
    (fun l e => insertNat e.2.1 l) []

/-- Whether the code corrects what unit `u` of array `a` holds: in SRAM one wrong bit of the unit, in the home channel one
wrong 16-bit symbol of the 32 bytes that hold it (R304). -/
def Phys.corrects (p : Phys) (a u : Nat) : Bool :=
  let wrong := p.flips.filter fun e => e.1 == a && (if a = 7 then e.2.1 / 4 == u / 4 else e.2.1 == u)
  if a = 7 then
    ((wrong.flatMap fun e => (List.range 4).filter fun k => fieldOf e.2.2.toNat (16 * k) 16 != 0).length ≤ 1)
  else wrong.all fun e => ones e.2.2.toNat ≤ 1

/-- The wrong bits of unit `u` of array `a`. [DEDUCED: log 127] -/
def Phys.syndrome (p : Phys) (a u : Nat) : Word := (p.flips.find? fun e => e.1 == a && e.2.1 == u).elim 0 (·.2.2)

/-- A read of the 64-bit unit `u` of array `a` (R304): a unit whose code does not check is corrected inline and logged
where its code can, and raises cause 0x0D where not; `true` where the data may be passed on. [DEDUCED: log 127] -/
def Core.readUnit (x : Ctx) (t : TrapRec) (a u : Nat) (c : Core) : Core × Bool :=
  match c.phys.flips.find? fun e => e.1 == a && e.2.1 == u with
  | none => (c, true)
  | some e =>
    let syn := e.2.2.toNat
    if c.phys.corrects a u then
      let log := (c.err a).record x.now false (c.errAddr a u) syn x.field c.phys.ctxid
      let c := c.setErr a log
      (if log.rep then c.raise x { t with cause := 0x13, engine := 13, kind := 1, info0 := a } else c, true)
    else
      ((c.setErr a ((c.err a).record x.now true (c.errAddr a u) syn x.field c.phys.ctxid)).raise x
        { t with cause := 0x0D, engine := 13, kind := 1, info0 := a, info1 := syn }, false)

/-- Reads of several units, in ascending address (R306). -/
def Core.readUnits (x : Ctx) (t : TrapRec) (a : Nat) (us : List Nat) (c : Core) : Core × Bool :=
  if c.phys.flips.isEmpty then (c, true)
  else (us.foldl (fun s u => insertNat u s) []).foldl (fun r u => let q := r.1.readUnit x t a u; (q.1, q.2 && r.2)) (c, true)

/-- The wrong bits as operation `f` meets them: those of a unit that its own writes, or its bundle's, have encoded anew as
they stood before (R13, R26, R304). [DEDUCED: log 159] -/
def Flight.seen (f : Flight) (l : List (Nat × Nat × Word)) : List (Nat × Nat × Word) :=
  if f.codes.isEmpty then l
  else (f.codes.filter fun e => e.2.2 != 0) ++ l.filter fun e => !f.codes.any fun k => k.1 == e.1 && k.2.1 == e.2.1

/-- A check of stored units by operation `f`, which changes no unit (R304). [DEDUCED: log 159] -/
def Core.seenBy (f : Flight) (g : Core → Core × Bool) (c : Core) : Core × Bool :=
  let r := g { c with phys := { c.phys with flips := f.seen c.phys.flips } }
  ({ r.1 with phys := { r.1.phys with flips := c.phys.flips } }, r.2)

/-- Reads of units of several arrays. -/
def Core.readArrays (x : Ctx) (t : TrapRec) (l : List (Nat × List Nat)) (c : Core) : Core × Bool :=
  l.foldl (fun r p => let q := r.1.readUnits x t p.1 p.2; (q.1, q.2 && r.2)) (c, true)

/-- The 64-bit units of a byte range. -/
def unitsOf (addr n : Nat) : List Nat :=
  if n = 0 then [] else (List.range ((addr + n - 1) / 8 - addr / 8 + 1)).map (· + addr / 8)

/-- Where the queues and lists stand in array 6 after the unit group's bytes: the count queue and the scale queue as rings
whose heads the state counts, the miss list and the sowing list by position. [DESIGN CHOICE: log 104] -/
def cqCell (k : Nat) : Nat := 1050368 + 2 * (k % 64)

/-- A scale queue entry's byte of array 6. [DESIGN CHOICE: log 104] -/
def sqCell (k : Nat) : Nat := 1114112 + k % 1024

/-- A miss list entry's bytes. [DESIGN CHOICE: log 104] -/
def missCell (k : Nat) : Nat := 1050496 + 2 * k

/-- A sowing list entry's bytes, where the unit group holds them (R272). -/
def sowCell (k : Nat) : Nat := 163840 + 8 * k

/-- The flips that an injection register's mode and bit name (R307). -/
def ErrLog.flip (e : ErrLog) : Word :=
  let i := fieldOf e.inj.toNat 2 6
  match fieldOf e.inj.toNat 0 2 with
  | 1 => 1#64 <<< i
  | 2 => (1#64 <<< i) ||| (1#64 <<< ((i + 1) % 64))
  | _ => 0

/-- The unit of `lo` to `hi − 1` of array `a` for which an injection is armed: the one that holds the byte it names, or in
the home channel the first of the row it names (R306, R307). [DEDUCED: log 36] -/
def Core.armedIn (a lo hi : Nat) (c : Core) : Option Nat :=
  let at_ := (c.err a).injAddr.toNat
  if !(c.err a).inj.getLsbD 8 || hi ≤ lo then none
  else if a = 7 then
    ((List.range ((hi - 1) / 128 - lo / 128 + 1)).find? fun k => c.errAddr 7 ((lo / 128 + k) * 128) == at_).map
      fun k => max lo ((lo / 128 + k) * 128)
  else if lo ≤ at_ / 8 && at_ / 8 < hi then some (at_ / 8)
  else none

/-- A write of units `lo` to `hi − 1` of array `a`: each is encoded anew, with the bits of an armed injection flipped in the
one it names (R307). [DEDUCED: log 36, 166] -/
def Core.writeSpan (a lo hi : Nat) (c : Core) : Core :=
  let keep := c.phys.flips.filter fun e => !(e.1 == a && lo ≤ e.2.1 && e.2.1 < hi)
  let clean : Core := { c with phys := { c.phys with flips := keep } }
  match c.armedIn a lo hi with
  | none => clean
  | some u =>
    let e := c.err a
    ({ c with phys := { c.phys with flips := if e.flip = 0 then keep else (a, u, e.flip) :: keep } }).setErr a
      { e with inj := e.inj &&& 0x0FF#9 }

/-- No write to array `a` changes an error code: no unit is wrong, and no injection is armed. -/
def Core.codesClean (a : Nat) (c : Core) : Bool := c.phys.flips.isEmpty && !(c.err a).inj.getLsbD 8

/-- A write of a byte range, as its units hold it. -/
def Core.writeUnits (a addr n : Nat) (c : Core) : Core :=
  if n = 0 || c.codesClean a then c else c.writeSpan a (addr / 8) ((addr + n - 1) / 8 + 1)

/-- A write of bytes at several addresses, as their units hold it: each unit is encoded once. [DEDUCED: log 36] -/
def Core.writeCells (a : Nat) (as : List Nat) (c : Core) : Core :=
  if c.codesClean a then c else ((as.map (· / 8)).dedup).foldl (fun c u => c.writeSpan a u (u + 1)) c

/-- The operations in flight before a write of units `us` of array `a`, whose wrong bits are now `l`: those of which `own`
holds do not see the write and keep the units as they stand, and every other sees it (R13, R26, R304, R307).
[DEDUCED: log 159] -/
def keepCodes (own : Flight → Bool) (a : Nat) (us : List Nat) (l : List (Nat × Nat × Word)) (fs : List Flight) : List Flight :=
  fs.map fun f =>
    if own f then
      let new := us.filter fun u => !f.codes.any fun k => k.1 == a && k.2.1 == u
      { f with codes := (new.map fun u => (a, u, (l.find? fun e => e.1 == a && e.2.1 == u).elim 0 (·.2.2))) ++ f.codes }
    else { f with codes := f.codes.filter fun k => !(k.1 == a && us.contains k.2.1) }

/-- A write of bytes at several addresses that the operations of which `own` holds do not see. Where no unit is wrong, none is
armed and no operation keeps one, no code changes. [DEDUCED: log 36, 159] -/
def Core.writeCellsPast (own : Flight → Bool) (a : Nat) (as : List Nat) (c : Core) : Core :=
  if c.codesClean a && c.flights.all fun f => f.codes.isEmpty then c
  else
    let us := (as.map (· / 8)).dedup
    ({ c with flights := keepCodes own a us c.phys.flips c.flights }).writeCells a as

/-- Bytes written in the home channel from byte `a`, given as the cells of a memory (R304, R307). -/
def Core.writeHbm (a n : Nat) (m : Mem) (c : Core) : Core :=
  ({ c with phys := { c.phys with hbm := mergeMem a (a + n) m c.phys.hbm } }).writeUnits 7 a n

/-- Where the descriptor of slot `s` of bank `b` stands in array 4, behind the weights and the scales (R187, R272, R305).
[DESIGN CHOICE: log 104] -/
def descCell (b s : Nat) : Nat := 135168 + 4 * (4 * b + s)

/-- An entry of the flight record, which stands in array 6 behind what the queues and lists take (R270, R305).
[DESIGN CHOICE: log 104] -/
def flightCell (k : Nat) : Nat := 1056768 + 32 * k

/-! ## The scratchpad (R91 to R97, R100) -/

/-- The linear address of an address in a view (R92). -/
def linear (swz : Bool) (a : Nat) : Nat :=
  if swz then
    a % 4194304 / 4096 * 4096 + ((a / 16 % 256) ^^^ (a / 4096 % 256)) * 16 + a % 16
  else a % 4194304

/-- The linear addresses of `n` bytes from `a`, taken modulo 2^22 in the view (R92, R207). -/
def addrsOf (swz : Bool) (a n : Nat) : List Nat := (List.range n).map fun i => linear swz ((a + i) % 4194304)

/-- The lines of some addresses (R91), each once. -/
def linesOf (as : List Nat) : List Nat := (as.map (· / 4096)).dedup

/-- A read of byte `a` of scratchpad by operation `f`: an L-class read sees no write of its own bundle (R26, R95). -/
def Core.spByte (c : Core) (f : Flight) (a : Nat) : Byte :=
  match f.shadow.find? fun e => e.1 == a with
  | some e => e.2
  | none => c.sp.mem.get 0 a

/-- The shadows after a write to byte `a` by an operation of the bundle issued at `seqno`: the bundle's loads keep the
old byte, and every other load sees the new one (R26). -/
def shadowed (seqno a : Nat) (old : Byte) (fs : List Flight) : List Flight :=
  fs.map fun f =>
    if f.cls != 4 then f
    else if f.seqno == seqno then
      if f.shadow.any fun e => e.1 == a then f else { f with shadow := (a, old) :: f.shadow }
    else { f with shadow := f.shadow.filter fun e => e.1 != a }

/-- A write of byte `a` (linear) of scratchpad, the marks apart. -/
def Core.spPut (seqno a : Nat) (v : Byte) (c : Core) : Core :=
  { c with
    flights := shadowed seqno a (c.sp.mem.get 0 a) c.flights
    sp := { c.sp with mem := c.sp.mem.put 0 a v } }

/-- Sets the view mark of a write's lines at instant `now` (R97). -/
def Scratch.mark (now : Nat) (swz : Bool) (lines : List Nat) (m : Scratch) : Scratch :=
  if swz then { m with ws := lines.foldl (fun l n => assign n now l) m.ws }
  else { m with wl := lines.foldl (fun l n => assign n now l) m.wl }

/-- The bytes `bs` written at the linear addresses `as` in a view, with the view's marks (R95, R97, R307). -/
def Core.spWrite (now seqno : Nat) (swz : Bool) (as : List Nat) (bs : List Byte) (c : Core) : Core :=
  let c := (as.zip bs).foldl (fun c p => c.spPut seqno p.1 p.2) c
  let c := c.writeCellsPast (fun f => f.cls == 4 && f.seqno == seqno) 0 as
  { c with sp := c.sp.mark now swz (linesOf as) }

/-- A read in one view of a line marked in the other (R97). -/
def Scratch.hazard (swz : Bool) (as : List Nat) (m : Scratch) : Bool :=
  (linesOf as).any fun n => (if swz then m.wl else m.ws).any fun e => e.1 == n

/-- An address of the landing area (R100), or, in a class-0 context, one outside its footprint (R257). -/
def Ctx.forbidden (x : Ctx) (a : Nat) : Bool := x.landBase ≤ a

/-- A class-0 context's access outside the lines of its footprint (R257). -/
def Ctx.outside (x : Ctx) (a : Nat) : Bool := x.la.cls == 0 && fieldOf x.la.footprint 0 11 * 4096 ≤ a && a < x.landBase

/-- The first address of an access that raises the landing-overflow fault, and whether it is outside the footprint.
[DESIGN CHOICE: log 148] -/
def Ctx.badAddr (x : Ctx) (as : List Nat) : Option (Nat × Bool) :=
  (as.find? fun a => x.forbidden a || x.outside a).map fun a => (a, x.outside a)

/-! ## Watchpoints (R285, R286) -/

/-- The source of an access, for a watchpoint's selection. -/
inductive Source where
  | core | eng | merge
deriving DecidableEq, Repr

/-- The byte mask of watchpoint `i`'s word that an access of `as` matches; 0 where none does. -/
def Core.watchMask (c : Core) (i : Nat) (write : Bool) (src : Source) (as : List Nat) : Nat :=
  if h : i < 4 then
    let ad := c.wp[2 * i].toNat
    let ct := c.wp[2 * i + 1]
    let dir := if write then ct.getLsbD 1 else ct.getLsbD 2
    let sel := match src with
      | .core => ct.getLsbD 3
      | .eng => ct.getLsbD 4
      | .merge => ct.getLsbD 5
    if ct.getLsbD 0 && dir && sel then
      ((List.range 16).filter fun b => ct.getLsbD (16 + b) && as.contains (fieldOf ad 4 18 * 16 + b)).foldl
        (fun m b => m + 2 ^ b) 0
    else 0
  else 0

/-- The lowest byte of watchpoint `i`'s word that `mask` holds. -/
def Core.watchAddr (c : Core) (i mask : Nat) : Nat :=
  if h : i < 4 then
    fieldOf c.wp[2 * i].toNat 4 18 * 16 + ((List.range 16).find? fun b => mask / 2 ^ b % 2 == 1).getD 0
  else 0

/-- The place in an access of the first byte that watchpoint `i` matches with `mask`. -/
def Core.watchPos (c : Core) (i mask : Nat) (as : List Nat) : Nat :=
  if h : i < 4 then
    (as.findIdx? fun a => a / 16 == fieldOf c.wp[2 * i].toNat 4 18 && mask / 2 ^ (a % 16) % 2 == 1).getD 0
  else 0

/-- Checks an access against the four watchpoints; a match never prevents the access, and `t` gives its record from the
place of the first matching byte. [DEDUCED: log 87] -/
def Core.watch (x : Ctx) (write : Bool) (src : Source) (as : List Nat) (t : Nat → TrapRec) (c : Core) : Core :=
  if (List.range 4).all fun i => !(if h : i < 4 then c.wp[2 * i + 1].getLsbD 0 else false) then c
  else (List.range 4).foldl (fun c i =>
    let m := c.watchMask i write src as
    if m = 0 then c else c.raiseWatch x i m { t (c.watchPos i m as) with address := c.watchAddr i m }) c

/-! ## Vector file, bypass, masks, tiles and tag lanes (R29 to R32) -/

/-- The memory of a space. -/
def VecFile.mem (s : Space) (v : VecFile) : Mem :=
  match s with
  | .v => v.v
  | .b => v.b
  | .m => v.m
  | .tile => v.tile
  | .tag => v.tag

/-- The file with a space's memory replaced. -/
def VecFile.setMem (s : Space) (m : Mem) (v : VecFile) : VecFile :=
  match s with
  | .v => { v with v := m }
  | .b => { v with b := m }
  | .m => { v with m := m }
  | .tile => { v with tile := m }
  | .tag => { v with tag := m }

/-- The array number of a space (R305). -/
def spaceArray (s : Space) : Nat :=
  match s with
  | .v => 1
  | .b | .m => 6
  | .tile | .tag => 2

/-- Where a space begins in its array (R305): tag lanes follow the tiles, bypass registers the masks (R272). -/
def spaceBase (s : Space) : Nat :=
  match s with
  | .tag => 524288
  | .b => 32768
  | _ => 0

/-- Mask byte `i` of mask `m`; m0 reads all ones (R28). -/
def VecFile.maskByte (v : VecFile) (m i : Nat) : Byte := if m = 0 then 0xFF else v.m.get 0 (m * 2048 + i)

/-- Mask bit `q` of mask `m`. -/
def VecFile.maskBit (v : VecFile) (m q : Nat) : Bool := (v.maskByte m (q / 8)).getLsbD (q % 8)

/-- A run's bytes written under their masks. A run into m0 is discarded (R28). -/
def VecFile.putRun (r : Run) (v : VecFile) : VecFile :=
  if r.space == .m && r.addr < 2048 then v
  else
    v.setMem r.space ((r.bytes.zipIdx).foldl
      (fun m p => m.putBits 0 (r.addr + p.2) p.1.1 p.1.2) (v.mem r.space))

/-- Where a byte of the vector file or of a bypass register stands among an operation's shadows: by source code (R126). -/
def shadowKey (s : Space) (a : Nat) : Nat := if s = .b then 655360 + a else a

/-- The vector instructions' shadows after a write by operation `u`: `u` keeps reading the old bytes of what it writes
itself, its unit's bypass register included, and every other operation sees the bits written (R13, R164).
[DEDUCED: log 105] -/
def vshadowed (u : Nat) (r : Run) (v : VecFile) (fs : List Flight) : List Flight :=
  if r.space != .v && r.space != .b then fs
  else fs.map fun f =>
    if f.cls != 2 then f
    else (r.bytes.zipIdx).foldl (fun f p =>
      let a := r.addr + p.2
      let k := shadowKey r.space a
      if f.uid == u then
        if f.shadow.any fun e => e.1 == k then f else { f with shadow := (k, (v.mem r.space).get 0 a) :: f.shadow }
      else { f with shadow := f.shadow.map fun e =>
        if e.1 == k then (e.1, (e.2 &&& ~~~p.1.1) ||| (p.1.2 &&& p.1.1)) else e }) f

/-- The bytes that a run writes some bit of, as they stand in its array (R28, R163, R305). -/
def Run.written (r : Run) : List Nat :=
  if r.space == .m && r.addr < 2048 then []
  else (r.bytes.zipIdx).filterMap fun p => if p.1.1 = 0 then none else some (spaceBase r.space + r.addr + p.2)

/-- The bits of a result run of operation `u`, their codes apart (R13, R30, R31). -/
def Core.placeRun (u : Nat) (r : Run) (c : Core) : Core :=
  { c with flights := vshadowed u r c.vec c.flights, vec := c.vec.putRun r }

/-- The bytes of array `a` that some runs write. -/
def writtenIn (a : Nat) (rs : List Run) : List Nat := (rs.filter fun r => spaceArray r.space == a).flatMap Run.written

/-- Result runs that operation `u` writes at one instant: each unit of the arrays is encoded once, and one of which no byte is
written keeps its code (R13, R30, R31, R304, R307). [DEDUCED: log 36] -/
def Core.putRuns (u : Nat) (rs : List Run) (c : Core) : Core :=
  [1, 2, 6].foldl (fun c a => c.writeCellsPast (fun f => f.cls == 2 && f.uid == u) a (writtenIn a rs))
    (rs.foldl (fun c r => c.placeRun u r) c)

/-- A result run written by operation `u`. -/
def Core.putRun (u : Nat) (r : Run) (c : Core) : Core := c.putRuns u [r]

/-- A run of whole bytes. -/
def Run.full (s : Space) (addr : Nat) (bs : List Byte) : Run :=
  { space := s, addr := addr, bytes := bs.map fun b => (0xFF#8, b) }

/-- The byte of vector register code `r` at `i`, as operation `f` reads it: v0 to v39, b0 to b7, or zero (R126, R13). -/
def Core.vbyte (c : Core) (f : Flight) (r i : Nat) : Byte :=
  if r < 48 then
    match f.shadow.find? fun e => e.1 == r * 16384 + i with
    | some e => e.2
    | none => if r < 40 then c.vec.v.get 0 (r * 16384 + i) else c.vec.b.get 0 ((r - 40) * 16384 + i)
  else 0

/-- The array and the units of `n` bytes from `lo` of vector register code `r` (R305). -/
def regUnits (r lo n : Nat) : List (Nat × List Nat) :=
  if r < 40 then [(1, unitsOf (r * 16384 + lo) n)]
  else if r < 48 then [(6, unitsOf (32768 + (r - 40) * 16384 + lo) n)]
  else []

/-- The array and the units of `n` bits from `lo` of mask `m`; m0 is no storage (R28, R305). -/
def maskUnits (m lo n : Nat) : List (Nat × List Nat) :=
  if m = 0 || n = 0 then [] else [(6, unitsOf (m * 2048 + lo / 8) ((lo + n - 1) / 8 - lo / 8 + 1))]

/-! ## Handles' producers (R99) -/

/-- The producers on handle `h` in flight. [DEDUCED: log 39] -/
def Core.producers (c : Core) (h : BitVec 4) : List Flight :=
  c.flights.filter fun f => f.prod && f.handle == some h.toNat

/-- The address of slot `k` of a handle (R35). -/
def HandleView.slotAddr (v : HandleView) (k : Nat) : Nat := v.base + k * v.slot

/-- The slot a consumer reads at its issue (R99). -/
def Core.drainSlot (c : Core) (h : BitVec 4) : Nat := let v := c.regs.handle h; v.slotAddr v.drain

/-- The slot a producer writes (R99). -/
def Core.fillSlot (c : Core) (h : BitVec 4) : Nat :=
  let v := c.regs.handle h
  v.slotAddr ((v.fill + (c.producers h).length) % v.count)

/-- A producer's last write, of row or block `k`: it advances fill and filled, out of order or into a full handle it
faults, in system code without a report (R99, R265, R269, R288). [DEDUCED: log 39] -/
def Core.complete (x : Ctx) (f : Flight) (k : Nat) (c : Core) : Core :=
  match f.handle with
  | none => c
  | some n =>
    let h := BitVec.ofNat 4 n
    if !f.prod then c
    else if (c.producers h).any fun g => g.seqno < f.seqno || (g.seqno == f.seqno && g.cls < f.cls) then
      c.raise x (f.trap 4 0x10 0 k 0)
    else if (c.regs.handle h).filled ≥ (c.regs.handle h).count then
      c.raise x (f.trap 4 0x13 0 k 0)
    else { c with regs := c.regs.advFill h 1 }

/-! ## Physical cores and what stands in their system banks (R17, R272, R287, R304) -/

/-- Some of the cores changed. -/
def State.mapCores (s : State) (p : Core → Bool) (f : Core → Core) : State :=
  { s with cores := s.cores.map fun c => if p c then f c else c }

/-- The physical cores of a partition. -/
def Partition.owns (p : Partition) (n : Nat) : Bool :=
  decide (4 * p.px ≤ n % 32 ∧ n % 32 < 4 * (p.px + p.pw) ∧ 2 * p.py ≤ n / 32 ∧ n / 32 < 2 * (p.py + p.ph))

/-- What physical core `n` holds: with the context that stands on it, or on its own. -/
def State.physOf (s : State) (n : Nat) : Phys :=
  match s.cores.find? fun c => c.physNo == n with
  | some c => c.phys
  | none => look {} s.idle n

/-- A physical core's own state replaced. -/
def State.setPhys (n : Nat) (p : Phys) (s : State) : State :=
  if s.cores.any fun c => c.physNo == n then s.mapCores (fun c => c.physNo == n) fun c => { c with phys := p }
  else { s with idle := assign n p s.idle }

/-- A physical core that holds no context, with what it holds. -/
def bareCore (n : Nat) (p : Phys) : Core :=
  { lid := { part := 0, acc := 0 }, index := 0, px := n % 32, py := n / 32, phys := p }

/-- What is done to what a physical core holds, whether or not a context stands on it. -/
def State.onPhys (n : Nat) (f : Core → Core) (s : State) : State := s.setPhys n (f (bareCore n (s.physOf n))).phys

/-- The first byte of row `r` of the system banks, counted through bank 30 and then bank 31 (R287). -/
def sysByte (r : Nat) : Nat := (30 * 32768 + r) * 1024

/-- The module's own read of `n` bytes from byte `a` of the home channel of physical core `k`: errors are logged and raise
nothing, and the first unit that cannot be corrected is given with its wrong bits (R304, R306). [DEDUCED: log 130] -/
def State.readHbm (k a n : Nat) (s : State) : State × Option (Nat × Word) :=
  let p := s.physOf k
  let us := p.wrongIn 7 a n
  if us.isEmpty then (s, none)
  else
    let base := ((s.parts.find? fun q => q.owns k).map (·.base)).getD 0
    let c := bareCore k { p with sysMode := false }
    let d := (c.readUnits { now := s.now, base := base, la := noLaunch c.lid } { cause := 0x0D } 7 us).1
    (s.setPhys k { d.phys with sysMode := p.sysMode },
     (us.find? fun u => !p.corrects 7 u).map fun u => (u, p.syndrome 7 u))

/-- What cannot be corrected of `n` bytes from `addr` of array `a`: each unit with its wrong bits. -/
def Phys.lost (a addr n : Nat) (p : Phys) : List (Nat × Word) :=
  ((p.wrongIn a addr n).filter fun u => !p.corrects a u).map fun u => (u, p.syndrome a u)

/-- Units of the home channel that hold what could not be corrected where it was read: they cannot be corrected either
(R304). -/
def Core.spoil (l : List (Nat × Word)) (c : Core) : Core :=
  { c with phys := { c.phys with
      flips := (l.map fun e => (7, e)) ++ c.phys.flips.filter fun e => !(e.1 == 7 && l.any fun b => b.1 == e.2.1) } }

/-- The bytes of a context image that unit `u` of array `a` holds (R272, R273, R305). [DESIGN CHOICE: log 104] -/
def Core.unitOffsets (a u : Nat) (c : Core) : List Nat :=
  let o := 8 * u
  let all (lo base n : Nat) : List Nat := if lo ≤ o && o < lo + n then (List.range 8).map (base + (o - lo) + ·) else []
  let each (n w base : Nat) (cell : Nat → Nat) : List Nat :=
    (List.range n).flatMap fun k => if cell k / 8 == u then (List.range w).map (base + w * k + ·) else []
  match a with
  | 0 => all 0 0 4194304
  | 1 => all 0 0x400000 655360
  | 2 => all 0 0x4A0000 528384
  | 3 => all 0 0x521000 524288
  | 4 => all 0 0x5A2000 135296
  | 6 => all 2048 0x5D4800 161792 ++ all (sowCell 0) 0x5FC000 (8 * c.q.sow.length) ++ all (flightCell 0) 0x5C6000 24576 ++
    each c.q.cq.length 2 0x5C4700 (fun k => cqCell (c.q.cqHead + k)) ++
    each c.q.miss.length 2 0x5C4780 missCell ++ each c.q.sq.length 1 0x5A1400 (fun k => sqCell (c.q.sqHead + k))
  | _ => []

/-- A unit of the core's own arrays that holds a byte of its image for which `p` holds. -/
def Core.inGroups (p : Nat → Bool) (c : Core) (a u : Nat) : Bool := (c.unitOffsets a u).any p

/-- The bytes of the image for which `p` holds are read from the core's arrays (R268, R304, R306). -/
def Core.readArraysOf (x : Ctx) (p : Nat → Bool) (c : Core) : Core :=
  (List.range 7).foldl (fun d a =>
    (d.readUnits x { cause := 0x0D } a ((c.phys.flips.filter fun e => e.1 == a && c.inGroups p a e.2.1).map (·.2.1))).1) c

/-- The bytes of the image that the core's arrays cannot give (R304). -/
def Core.lostOffsets (c : Core) : List Nat :=
  (c.phys.flips.filter fun e => e.1 != 7 && !c.phys.corrects e.1 e.2.1).flatMap fun e => c.unitOffsets e.1 e.2.1

/-- The bytes of the image for which `p` holds are written into the core's arrays: their units are encoded anew, with an
injection that is armed for one of them (R304, R307). -/
def Core.writeArraysOf (p : Nat → Bool) (c : Core) : Core :=
  (List.range 7).foldl (fun d a =>
    let at_ := (c.err a).injAddr.toNat / 8
    let us := (if (c.err a).inj.getLsbD 8 then [at_] else []) ++
      (c.phys.flips.filter fun e => e.1 == a && !((c.err a).inj.getLsbD 8 && e.2.1 == at_)).map (·.2.1)
    (us.filter (c.inGroups p a)).foldl (fun d u => d.writeSpan a u (u + 1)) d) c

/-- Bytes written one by one in the home channel, each where its mask has ones. -/
def Core.putHbm (l : List (Nat × Byte × Byte)) (c : Core) : Core :=
  let hbm := l.foldl (fun m (b : Nat × Byte × Byte) => Mem.putBits 0 m b.1 b.2.1 b.2.2) c.phys.hbm
  ({ c with phys := { c.phys with hbm := hbm } }).writeCells 7 (l.map fun (b : Nat × Byte × Byte) => b.1)

/-- Scratchpad byte `a` of an image stands in its rows (R257, R268, R272). -/
def Core.imageHolds (x : Ctx) (a : Nat) (c : Core) : Bool :=
  decide (a < x.landBase) &&
    (c.imageMask.getLsbD 20 || decide (a < fieldOf c.imageMask.toNat 0 11 * 4096) || decide (c.imageLand ≤ a))

/-- Bytes written in the linear view in the scratchpad of a context that stands in its image: the rows of the image take
them, with the marks of their lines, and the core that the context stands on what the rows do not hold (R221, R271 to
R273). [DEDUCED: log 84] -/
def State.intoImage (as : List Nat) (s : State) : State :=
  match s.actor with
  | none => s
  | some c =>
    if s.cur < s.cores.length then s
    else
      let held := as.filter fun a => c.imageHolds (s.ctx c) a
      let left := as.filter fun a => !c.imageHolds (s.ctx c) a
      let row := sysByte c.imageRow
      let bytes := held.map fun a => (row + a, 0xFF#8, c.sp.mem.get 0 a)
      let marks := (linesOf as).map fun n => (row + 0x5C5C00 + n / 4, 1#8 <<< (2 * (n % 4)), 0xFF#8)
      (s.mapCores (fun d => d.lid == c.lid && d.index == c.index) fun d =>
        { d with sp := { d.sp with mem := left.foldl (fun m a => m.put 0 a (c.sp.mem.get 0 a)) d.sp.mem } }).onPhys
        c.physNo (Core.putHbm (bytes ++ marks))

/-! ## Unit-busy marks for the survey table (R260) -/

/-- Unit class `u` is busy in this cycle. -/
def Core.busy (u : Nat) (c : Core) : Core := { c with seq := { c.seq with busy := c.seq.busy ||| (1#8 <<< u) } }

end Sys2Proof.Machine
end

