-- ==== Sys2Proof/Machine/Numbers.lean ====
section
/-!
DEFINITION. Numbers (R68 to R90): the formats, exact arithmetic, rounding, the overflow table, the canonical tree, the
random word, and the special functions of R174 correctly rounded.
-/

namespace Sys2Proof.Machine

/-! ## Exact arithmetic -/

/-- A number from a signed integer scaled by 2^e; `nz` is the sign an exact zero takes. -/
def Num.ofInt (nz : Bool) (m e : Int) : Num := if m = 0 then .fin nz 0 0 else .fin (m < 0) m.natAbs e

/-- The signed integer of ±m at exponent `e'` below its own. -/
def scaled (neg : Bool) (m : Nat) (e e' : Int) : Int :=
  let v : Int := (m * 2 ^ (e - e').toNat : Nat)
  if neg then -v else v

/-- Whether a number is a zero. -/
def Num.isZero : Num → Bool
  | .fin _ m _ => m == 0
  | _ => false

/-- Whether a number is a NaN. -/
def Num.isNaN : Num → Bool
  | .nan => true
  | _ => false

/-- The sign of a number. -/
def Num.sign : Num → Bool
  | .nan => false
  | .inf s => s
  | .fin s _ _ => s

/-- The sign of an exact zero sum of two terms (R78); `down` is rounding toward −∞. -/
def zeroSign (down a b : Bool) : Bool := if a == b then a else down

/-- The exact sum; an exact zero takes the sign R78 gives. -/
def Num.add (down : Bool) (a b : Num) : Num :=
  match a, b with
  | .nan, _ => .nan
  | _, .nan => .nan
  | .inf s, .inf t => if s == t then .inf s else .nan
  | .inf s, _ => .inf s
  | _, .inf t => .inf t
  | .fin s m e, .fin t n f =>
    if m = 0 && n = 0 then .fin (zeroSign down s t) 0 0
    else if m = 0 then b
    else if n = 0 then a
    else let g := min e f; .ofInt down (scaled s m e g + scaled t n f g) g

/-- The negation. -/
def Num.neg : Num → Num
  | .nan => .nan
  | .inf s => .inf !s
  | .fin s m e => .fin (!s) m e

/-- The absolute value. -/
def Num.abs : Num → Num
  | .nan => .nan
  | .inf _ => .inf false
  | .fin _ m e => .fin false m e

/-- The exact product; 0 × ∞ is NaN (R169). -/
def Num.mul (a b : Num) : Num :=
  match a, b with
  | .nan, _ => .nan
  | _, .nan => .nan
  | .inf s, .inf t => .inf (s != t)
  | .inf s, .fin t n _ => if n = 0 then .nan else .inf (s != t)
  | .fin s m _, .inf t => if m = 0 then .nan else .inf (s != t)
  | .fin s m e, .fin t n f => .fin (s != t) (m * n) (e + f)

/-- Scaling by a power of two. -/
def Num.scale (k : Int) : Num → Num
  | .fin s m e => .fin s m (e + k)
  | x => x

/-- a < b on numbers, −0 = +0; false when either is NaN. -/
def Num.lt (a b : Num) : Bool :=
  match a, b with
  | .nan, _ => false
  | _, .nan => false
  | .inf s, .inf t => s && !t
  | .inf s, _ => s
  | _, .inf t => !t
  | .fin s m e, .fin t n f => let g := min e f; scaled s m e g < scaled t n f g

/-- a = b on numbers, −0 = +0; false when either is NaN. -/
def Num.eq (a b : Num) : Bool :=
  match a, b with
  | .nan, _ => false
  | _, .nan => false
  | _, _ => !Num.lt a b && !Num.lt b a

/-- The quotient of two finite magnitudes, with a sticky last bit below more bits than any format keeps. -/
def quotient (s : Bool) (m : Nat) (e : Int) (n : Nat) (f : Int) : Num :=
  let k := 80 + Nat.log2 n
  let q := m * 2 ^ k / n
  .fin s (2 * q + (if m * 2 ^ k % n = 0 then 0 else 1)) (e - f - (k : Int) - 1)

/-- The square root of a natural number, rounded down, by its bits from bit `i` downward. -/
def isqrt (v : Nat) : Nat → Nat → Nat
  | 0, r => r
  | i + 1, r => if (r + 2 ^ i) * (r + 2 ^ i) ≤ v then isqrt v i (r + 2 ^ i) else isqrt v i r

/-! ## Float formats (R68 to R71) -/

/-- A float format's precision, the exponent of its finest step, and its largest finite magnitude m × 2^e. -/
structure FloatFmt where
  p : Nat
  qmin : Int
  maxM : Nat
  maxE : Int
deriving DecidableEq, Repr

/-- binary32 -/
def f32 : FloatFmt := ⟨24, -149, 16777215, 104⟩
/-- bf16 -/
def bf16 : FloatFmt := ⟨8, -133, 255, 120⟩
/-- e4m3 -/
def e4m3 : FloatFmt := ⟨4, -9, 7, 6⟩
/-- e5m2 -/
def e5m2 : FloatFmt := ⟨3, -16, 7, 13⟩
/-- e2m1, its standard values -/
def e2m1 : FloatFmt := ⟨2, -1, 3, 1⟩

/-- Magnitude bits to a number. -/
def FloatFmt.mag (F : FloatFmt) (s : Bool) (w : Nat) : Num :=
  let ef := w / 2 ^ (F.p - 1)
  let fr := w % 2 ^ (F.p - 1)
  if ef = 0 then .fin s fr F.qmin else .fin s (fr + 2 ^ (F.p - 1)) (F.qmin + ef - 1)

/-- An f32 word's value (R68). -/
def decF32 (w : Nat) : Num :=
  let s := w / 2147483648 % 2 == 1
  let r := w % 2147483648
  if r / 8388608 = 255 then if r % 8388608 = 0 then .inf s else .nan else f32.mag s r

/-- A bf16 word's value (R68). -/
def decBf16 (w : Nat) : Num :=
  let s := w / 32768 % 2 == 1
  let r := w % 32768
  if r / 128 = 255 then if r % 128 = 0 then .inf s else .nan else bf16.mag s r

/-- An e4m3 byte's value (R69). -/
def decE4m3 (w : Nat) : Num := if w % 128 = 127 then .nan else e4m3.mag (w / 128 % 2 == 1) (w % 128)

/-- An e5m2 byte's value (R70). -/
def decE5m2 (w : Nat) : Num :=
  let r := w % 128
  if r / 4 = 31 then if r % 4 = 0 then .inf (w / 128 % 2 == 1) else .nan else e5m2.mag (w / 128 % 2 == 1) r

/-- An e2m1 code's value under an alt4 field (R71). -/
def decE2m1 (alt4 : Nat) (w : Nat) : Num :=
  if w % 16 = 8 then decE4m3 alt4 else e2m1.mag (w / 8 % 2 == 1) (w % 8)

/-! ## Rounding (R77 to R79) -/

/-- A rounding mode: nearest-even, toward zero, toward +∞, toward −∞, or stochastic with its random word. -/
inductive Rnd where
  | ne | rz | up | dn
  | sr (w : Nat)
deriving DecidableEq, Repr

/-- A mode code, code 4 acting as nearest-even (R77). -/
def rndOf (c : Nat) : Rnd :=
  match c with
  | 1 => .rz
  | 2 => .up
  | 3 => .dn
  | _ => .ne

/-- Whether the magnitude goes up: `t` is the truncated magnitude, `f` the `n` discarded bits (R78, R79). -/
def roundsUp (r : Rnd) (s : Bool) (t f n : Nat) : Bool :=
  match r with
  | .ne => 2 ^ n < 2 * f || (2 * f == 2 ^ n && t % 2 == 1 && n != 0)
  | .rz => false
  | .up => !s && f != 0
  | .dn => s && f != 0
  | .sr w => if n = 0 then false else if n ≤ 16 then 2 ^ n ≤ f + w / 2 ^ (16 - n) else 65536 ≤ f / 2 ^ (n - 16) + w

/-- m × 2^e rounded onto steps of 2^q: the count of steps (R78). -/
def roundStep (r : Rnd) (s : Bool) (m : Nat) (e q : Int) : Nat :=
  if q ≤ e then m * 2 ^ (e - q).toNat
  else
    let n := (q - e).toNat
    let t := m / 2 ^ n
    if roundsUp r s t (m % 2 ^ n) n then t + 1 else t

/-- The exponent of the last kept bit of m × 2^e in a format, its exponent unbounded above (R78). -/
def FloatFmt.step (F : FloatFmt) (m : Nat) (e : Int) : Int := max (e + (Nat.log2 m : Int) + 1 - F.p) F.qmin

/-- a × 2^q > b × 2^e. -/
def magGt (a : Nat) (q : Int) (b : Nat) (e : Int) : Bool :=
  let g := min q e
  b * 2 ^ (e - g).toNat < a * 2 ^ (q - g).toNat

/-- A rounded magnitude: step count and step exponent, or an overflow (R78). -/
def FloatFmt.round (F : FloatFmt) (r : Rnd) (s : Bool) (m : Nat) (e : Int) : Nat × Int × Bool :=
  let q := F.step m e
  let g := roundStep r s m e q
  (g, q, magGt g q F.maxM F.maxE)

/-- The magnitude bits of g steps of 2^q. -/
def FloatFmt.bitsOf (F : FloatFmt) (g : Nat) (q : Int) : Nat := (q - F.qmin).toNat * 2 ^ (F.p - 1) + g

/-- An f32 overflow: infinity or the largest finite magnitude, as the mode gives (R81). -/
def f32Overflow (r : Rnd) (s : Bool) : Nat :=
  match r with
  | .rz => 0x7F7FFFFF
  | .up => if s then 0x7F7FFFFF else 0x7F800000
  | .dn => if s then 0x7F800000 else 0x7F7FFFFF
  | _ => 0x7F800000

/-- Rounding into f32 (R75, R78, R81). -/
def encF32 (r : Rnd) (x : Num) : Nat :=
  match x with
  | .nan => 0x7FC00000
  | .inf s => 0x7F800000 + (if s then 2147483648 else 0)
  | .fin s m e =>
    let sg := if s then 2147483648 else 0
    if m = 0 then sg
    else let v := f32.round r s m e; if v.2.2 then f32Overflow r s + sg else f32.bitsOf v.1 v.2.1 + sg

/-- Overflow table entry at bit `lo` (R81). -/
def ovEntry (ov : Word) (lo : Nat) : Nat := fieldOf ov.toNat lo 2

/-- Rounding into bf16 (R75, R78, R82). -/
def encBf16 (ov : Word) (r : Rnd) (x : Num) : Nat :=
  match x with
  | .nan => 0x7FC0
  | .inf s => 0x7F80 + (if s then 32768 else 0)
  | .fin s m e =>
    let sg := if s then 32768 else 0
    if m = 0 then sg
    else
      let v := bf16.round r s m e
      if v.2.2 then match ovEntry ov 0 with
        | 1 => 0x7F80 + sg
        | 2 => 0x7FC0
        | _ => 0x7F7F + sg
      else bf16.bitsOf v.1 v.2.1 + sg

/-- Rounding into e4m3 (R75, R78, R82, R83). -/
def encE4m3 (ov : Word) (r : Rnd) (x : Num) : Nat :=
  match x with
  | .nan => 0x7F
  | .inf s => if ovEntry ov 2 = 2 then 0x7F else 0x7E + (if s then 128 else 0)
  | .fin s m e =>
    let sg := if s then 128 else 0
    if m = 0 then sg
    else
      let v := e4m3.round r s m e
      if v.2.2 then if ovEntry ov 2 = 2 then 0x7F else 0x7E + sg else e4m3.bitsOf v.1 v.2.1 + sg

/-- Rounding into e5m2 (R75, R78, R82, R83). -/
def encE5m2 (ov : Word) (r : Rnd) (x : Num) : Nat :=
  match x with
  | .nan => 0x7E
  | .inf s => 0x7C + (if s then 128 else 0)
  | .fin s m e =>
    let sg := if s then 128 else 0
    if m = 0 then sg
    else
      let v := e5m2.round r s m e
      if v.2.2 then match ovEntry ov 4 with
        | 1 => 0x7C + sg
        | 2 => 0x7E
        | _ => 0x7B + sg
      else e5m2.bitsOf v.1 v.2.1 + sg

/-- The extra value of e2m1 takes part: 0 < |a| < 6 and it is none of the fifteen values (R72). -/
def altJoins (alt4 : Nat) : Bool :=
  match decE4m3 alt4 with
  | .fin s m e => m != 0 && magGt 6 0 m e && !([1, 2, 3, 4, 6, 8, 12].any fun h => Num.eq (.fin s h (-1)) (.fin s m e))
  | _ => false

/-- The representable values of e2m1 in halves with their codes, the extra value apart (R71). -/
def e2m1Halves : List Nat := [0, 1, 2, 3, 4, 6, 8, 12]

/-- Rounding a magnitude onto e2m1's set joined by the extra value `a` of the same sign (R72, R78): the code, or an
overflow. The set's neighbours below and above decide; a tie goes to the standard value when one of them is the extra
value. -/
def e2m1Alt (r : Rnd) (s : Bool) (m : Nat) (e : Int) (a : Num) : Option Nat :=
  let x : Num := .fin false m e
  let pts : List (Num × Nat) :=
    ((e2m1Halves.zipIdx).map fun p => (Num.fin false p.1 (-1), p.2)) ++ [(a.abs, 8)]
  let lo := pts.foldl (fun b p => if Num.lt x p.1 then b else if Num.lt b.1 p.1 then p else b) ((.fin false 0 0 : Num), 0)
  let ups := pts.filter fun p => Num.lt x p.1
  match ups with
  | [] => if Num.eq lo.1 x then some lo.2 else none
  | u :: us =>
    let hi := us.foldl (fun b p => if Num.lt p.1 b.1 then p else b) u
    if Num.eq lo.1 x then some lo.2
    else
      let dl := Num.add false x lo.1.neg
      let dh := Num.add false hi.1 x.neg
      let up := match r with
        | .rz => false
        | .up => !s
        | .dn => s
        | _ => if Num.lt dh dl then true else if Num.lt dl dh then false
               else if lo.2 = 8 then true else if hi.2 = 8 then false else lo.2 % 2 == 1
      some (if up then hi.2 else lo.2)

/-- Rounding into e2m1 under alt4 and alt4use (R72, R78, R79, R82, R83). A NaN gives 0x0, an infinity ±6, a zero 0x0. -/
def encE2m1 (alt4 : Nat) (alt4use : Bool) (r : Rnd) (x : Num) : Nat :=
  match x with
  | .nan => 0
  | .inf s => 7 + (if s then 8 else 0)
  | .fin s m e =>
    if m = 0 then 0
    else
      let sg := if s then 8 else 0
      let a := decE4m3 alt4
      let sr := match r with
        | .sr _ => true
        | _ => false
      if alt4use && !sr && altJoins alt4 && a.sign == s && !magGt m e 6 0 then
        match e2m1Alt r s m e a with
        | some 8 => 8
        | some 0 => 0
        | some c => c + sg
        | none => 7 + sg
      else
        let v := e2m1.round r s m e
        if v.2.2 then 7 + sg else if v.1 = 0 then 0 else e2m1.bitsOf v.1 v.2.1 + sg

/-! ## Integer destinations (R74, R78, R82, R83) -/

/-- The range of an integer format of width `w`. -/
def intRange (signed : Bool) (w : Nat) : Int × Int :=
  if signed then (-(2 ^ (w - 1) : Nat), (2 ^ (w - 1) : Nat) - 1) else (0, (2 ^ w : Nat) - 1)

/-- An integer into an integer format under its overflow entry (R82). -/
def intoInt (signed : Bool) (w ov : Nat) (x : Int) : Nat :=
  let lim := intRange signed w
  if lim.1 ≤ x && x ≤ lim.2 then (BitVec.ofInt w x).toNat
  else if ov = 3 then (BitVec.ofInt w x).toNat
  else (BitVec.ofInt w (if x < lim.1 then lim.1 else lim.2)).toNat

/-- A number rounded onto the integers and put into a format (R78, R82, R83). -/
def encInt (signed : Bool) (w ov : Nat) (r : Rnd) (x : Num) : Nat :=
  match x with
  | .nan => 0
  | .inf s => let lim := intRange signed w; (BitVec.ofInt w (if s then lim.1 else lim.2)).toNat
  | .fin s m e => let g : Int := roundStep r s m e 0; intoInt signed w ov (if s then -g else g)

/-! ## Element formats (R120) -/

/-- The size in bytes of an element of format code `m`; e2m1 counts as half a byte elsewhere. -/
def elemSize (m : Nat) : Nat :=
  match m with
  | 0 | 2 | 6 => 4
  | 1 | 3 | 7 => 2
  | 5 => 8
  | _ => 1

/-- Signed integer codes. -/
def isSigned (m : Nat) : Bool := 2 ≤ m && m ≤ 4

/-- Float codes of the vector unit. -/
def isFloat (m : Nat) : Bool := m ≤ 1

/-- The bit of the overflow table at which an integer code's entry stands (R81). -/
def ovBit (m : Nat) : Nat :=
  match m with
  | 4 => 8
  | 3 => 10
  | 2 => 12
  | 8 => 16
  | 7 => 18
  | 6 => 20
  | _ => 22

/-- An element's value as a number (float codes), from its bits. -/
def decFloat (m w : Nat) : Num := if m = 0 then decF32 w else decBf16 w

/-- An element's value as an integer (integer codes), from its bits. -/
def decInt (m w : Nat) : Int :=
  if isSigned m then (BitVec.ofNat (8 * elemSize m) w).toInt else (w % 2 ^ (8 * elemSize m) : Nat)

/-- A number rounded into a vector float format. -/
def encFloat (m : Nat) (ov : Word) (r : Rnd) (x : Num) : Nat := if m = 0 then encF32 r x else encBf16 ov r x

/-! ## The canonical tree (R87) -/

/-- One level of the tree: neighbours combined in pairs, an odd last one carried up. -/
def treeLevel {α : Type} (f : α → α → α) : List α → List α
  | a :: b :: l => f a b :: treeLevel f l
  | l => l

/-- The canonical pairwise tree over a list; `fuel` bounds its levels. Combining neighbours level by level forms
exactly the nodes of tree(x, 0, n), whose left part is the largest power of two below n. -/
def treeFuel {α : Type} (f : α → α → α) : Nat → List α → Option α
  | _, [] => none
  | _, [a] => some a
  | 0, a :: _ => some a
  | n + 1, l => treeFuel f n (treeLevel f l)

/-- The canonical tree over positions that may be empty: combine with an empty position is the other one (R105). -/
def tree {α : Type} (f : α → α → α) (l : List (Option α)) : Option α :=
  (treeFuel (fun a b => match a, b with
    | some x, some y => some (f x y)
    | some x, none => some x
    | none, y => y) l.length l).getD none

/-! ## Stochastic words (R80) -/

/-- One round of the random word's mixing. -/
def mix (x : Word) : Word := (x ^^^ (x >>> 29)) * 0x9E3779B97F4A7C15#64

/-- The random word of an element. -/
def randomWord (seed : Word) (tid index : Nat) : Nat :=
  (mix (mix (mix (seed ^^^ (BitVec.ofNat 64 (tid * 2 ^ 48) ||| BitVec.ofNat 64 index))))).toNat / 2 ^ 48

/-! ## Special functions (R174): enclosures narrowed until the rounding is decided -/

/-- The exponential series of y/2^P at 2^-P: a lower bound of Σ y^i/i!, each term rounded down. -/
def expSum (P y : Nat) : Nat → Nat → Nat → Nat
  | 0, _, _ => 0
  | n + 1, i, t => t + expSum P y n (i + 1) (t * y / 2 ^ P / i)

/-- Bounds of e^y for y = Y/2^P in [0, 1/2]: the terms' floors lose less than 2 units each, and the tail is below 1. -/
def expBounds (P y : Nat) : Nat × Nat :=
  let lo := expSum P y P 1 (2 ^ P)
  (lo, lo + 2 * P + 2)

/-- Squaring an enclosure at scale 2^P. -/
def sqBounds (P : Nat) : Nat → Nat × Nat → Nat × Nat
  | 0, b => b
  | n + 1, b => sqBounds P n (b.1 * b.1 / 2 ^ P, b.2 * b.2 / 2 ^ P + 1)

/-- Bounds at scale 2^P of e^v for v = m × 2^e in [0, 256): halved 9 times, summed, squared back. -/
def expPos (P m : Nat) (e : Int) : Nat × Nat :=
  let k : Int := (P : Int) + e - 9
  let y := if k < 0 then m / 2 ^ (-k).toNat else m * 2 ^ k.toNat
  let exact := 0 ≤ k || m % 2 ^ (-k).toNat == 0
  let b := expBounds P y
  let c := if exact then b else (b.1, (expBounds P (y + 1)).2)
  sqBounds P 9 c

/-- An enclosure of e^x at scale 2^K: lower, upper, K. -/
def expEnclose (P : Nat) (s : Bool) (m : Nat) (e : Int) : Nat × Nat × Nat :=
  let b := expPos P m e
  if s then (2 ^ (2 * P + 400) / b.2, 2 ^ (2 * P + 400) / b.1 + 1, P + 400) else (b.1, b.2, P)

/-- The series of atanh(z) at scale 2^P, z = Z/2^P: the sum of floors of z^(2i+1)/(2i+1). -/
def atanhSum (P z2 : Nat) : Nat → Nat → Nat → Nat
  | 0, _, _ => 0
  | n + 1, i, t => t / (2 * i + 1) + atanhSum P z2 n (i + 1) (t * z2 / 2 ^ P)

/-- Bounds of atanh(z) for z ≤ 1/3. -/
def atanhBounds (P z : Nat) : Nat × Nat :=
  let lo := atanhSum P (z * z / 2 ^ P) P 0 z
  (lo, lo + 4 * P + 4)

/-- A signed enclosure of ln(m × 2^e) at scale 2^P. -/
def logEnclose (P m : Nat) (e : Int) : Int × Int :=
  -- m × 2^e = u × 2^k with u in [3/4, 3/2)
  let l := Nat.log2 m
  let big := 3 * 2 ^ l ≤ 2 * m
  let k : Int := e + l + (if big then 1 else 0)
  let den := if big then 2 ^ (l + 1) else 2 ^ l
  -- z = |u − 1| / (u + 1), u = m / den
  let num := if m < den then den - m else m - den
  let z := num * 2 ^ P / (m + den)
  let lo := (atanhBounds P z).1
  let hi := (atanhBounds P (z + 1)).2
  let a : Int × Int := if m < den then (-(2 * hi : Nat), -(2 * lo : Nat)) else ((2 * lo : Nat), (2 * hi : Nat))
  let third := 2 ^ P / 3
  let c : Nat × Nat := (2 * (atanhBounds P third).1, 2 * (atanhBounds P (third + 1)).2)
  if 0 ≤ k then (a.1 + k * c.1, a.2 + k * c.2) else (a.1 + k * c.2, a.2 + k * c.1)

/-- Rounds an enclosure when both ends agree, trying wider precisions; the last precision's lower end stands if none
decides (no input of the two formats needs more). [UNVERIFIED: log 37] -/
def narrow (enc : Num → Nat) (f : Nat → Num × Num) : List Nat → Nat
  | [] => 0
  | [P] => enc (f P).1
  | P :: Ps => let b := f P; if enc b.1 == enc b.2 then enc b.1 else narrow enc f Ps

/-- The precisions tried. -/
def precisions : List Nat := [96, 192, 384]

/-- e^x rounded by `enc` (R174). [UNVERIFIED: log 37] -/
def expOf (enc : Num → Nat) (x : Num) : Nat :=
  match x with
  | .nan => enc .nan
  | .inf s => if s then enc (.fin false 0 0) else enc (.inf false)
  | .fin s m e =>
    if m = 0 then enc (.fin false 1 0)
    else if magGt 1 (-40) m e then
      enc (if s then .fin false (2 ^ 60 - 1) (-60) else .fin false (2 ^ 60 + 1) (-60))
    else if magGt m e 200 0 then enc (if s then .fin false 1 (-1000) else .fin false 1 1000)
    else narrow enc (fun P =>
      let b := expEnclose P s m e
      (.fin false b.1 (-(b.2.2 : Int)), .fin false b.2.1 (-(b.2.2 : Int)))) precisions

/-- ln x rounded by `enc` (R174). [UNVERIFIED: log 37] -/
def logOf (enc : Num → Nat) (x : Num) : Nat :=
  match x with
  | .nan => enc .nan
  | .inf s => if s then enc .nan else enc (.inf false)
  | .fin s m e =>
    if m = 0 then enc (.inf true)
    else if s then enc .nan
    else if Num.eq x (.fin false 1 0) then enc (.fin false 0 0)
    else narrow enc (fun P =>
      let b := logEnclose P m e
      (.ofInt false b.1 (-(P : Int)), .ofInt false b.2 (-(P : Int)))) precisions

/-- 1/x rounded by `enc` (R174). -/
def rcpOf (enc : Num → Nat) (x : Num) : Nat :=
  match x with
  | .nan => enc .nan
  | .inf s => enc (.fin s 0 0)
  | .fin s m e => if m = 0 then enc (.inf s) else enc (quotient s 1 0 m e)

/-- 1/√x rounded by `enc` (R174). -/
def rsqrtOf (enc : Num → Nat) (x : Num) : Nat :=
  match x with
  | .nan => enc .nan
  | .inf s => if s then enc .nan else enc (.fin false 0 0)
  | .fin s m e =>
    if m = 0 then enc (.inf s)
    else if s then enc .nan
    else
      let odd := e % 2 ≠ 0
      let m' := if odd then 2 * m else m
      let e' := if odd then e - 1 else e
      let k := 100 + Nat.log2 m'
      let v := 2 ^ (2 * k) / m'
      let y := isqrt v (k + 1) 0
      enc (.fin false (2 * y + (if y * y * m' = 2 ^ (2 * k) then 0 else 1)) (-(e' / 2) - (k : Int) - 1))

/-- tanh x rounded by `enc` (R174). [UNVERIFIED: log 37] -/
def tanhOf (enc : Num → Nat) (x : Num) : Nat :=
  match x with
  | .nan => enc .nan
  | .inf s => enc (.fin s 1 0)
  | .fin s m e =>
    if m = 0 then enc x
    else if magGt 1 (-30) m e then enc (.fin s (m * 2 ^ 60 - 1) (e - 60))
    else if magGt m e 32 0 then enc (.fin s (2 ^ 64 - 1) (-64))
    else narrow enc (fun P =>
      let b := expPos P m (e + 1)
      let one := 2 ^ P
      let lo := (b.1 - one) * 2 ^ P / (b.1 + one)
      let hi := (b.2 - one) * 2 ^ P / (b.2 + one) + 1
      (.fin s lo (-(P : Int)), .fin s hi (-(P : Int)))) precisions

end Sys2Proof.Machine
end

