-- ==== Sys2Proof/Machine/Flags.lean ====
section
/-!
DEFINITION. Condition evaluation: the conditions of scmp, scmpi (R143) and vcmp (R171), the order of vcas and vmaxr
(R173, R179), and the condition bits of a steer register (R52 to R54).
-/

namespace Sys2Proof.Machine

/-- Condition code `f` of scmp and scmpi on two words, `n` comparing as naturals (R122, R143). -/
def condHolds (f : Nat) (n : Bool) (a b : Word) : Bool :=
  let lt := if n then decide (a.toNat < b.toNat) else decide (a.toInt < b.toInt)
  match f with
  | 0 => a == b
  | 1 => a != b
  | 2 => lt
  | 3 => lt || a == b
  | 4 => !lt && a != b
  | 5 => !lt
  | _ => false

/-- One condition bit of a steer register. -/
def condBit (k : Word) (c : Bool) : Bool := if c then k.getLsbD 1 else k.getLsbD 0

/-- A steer register with the condition bits of `mask` replaced by those of `v` (R54, R143). -/
def setCond (k : Word) (mask v : BitVec 2) : Word :=
  (k &&& ~~~(mask.setWidth 64)) ||| ((v &&& mask).setWidth 64)

/-- A steer register after prep or prep.hi: two successors written, the condition half cleared (R144). -/
def setSucc (k : Word) (hi : Bool) (a b : BitVec 8) : Word :=
  let lo := if hi then 48 else 32
  (k &&& ~~~((0xFFFF#64 <<< lo) ||| 3#64)) ||| (((b.setWidth 64 <<< 8) ||| a.setWidth 64) <<< lo)

/-- The index a steer register presents (R52). -/
def steerIndex (k : Word) : Nat := fieldOf k.toNat 0 2

/-- The target half of a steer register (R52). -/
def steerTarget (k : Word) : BitVec 32 := BitVec.ofNat 32 (k.toNat / 2 ^ 32)

/-- Successor byte `i` of a target half (R56). -/
def succByte (t : BitVec 32) (i : Nat) : Nat := fieldOf t.toNat (8 * i) 8

/-- The hash of a target half (R56). -/
def targetHash (t : BitVec 32) : BitVec 32 :=
  let x := (t ^^^ (t >>> 15)) * 0x2C1B3C6D#32
  x ^^^ (x >>> 12)

/-- Condition code `f` of vcmp on elements of format `m` (R171). -/
def vcond (f m a b : Nat) : Bool :=
  if isFloat m then
    let x := decFloat m a
    let y := decFloat m b
    let un := x.isNaN || y.isNaN
    match f with
    | 0 => Num.eq x y
    | 1 => un || !Num.eq x y
    | 2 => Num.lt x y
    | 3 => Num.lt x y || Num.eq x y
    | 4 => Num.lt y x
    | 5 => Num.lt y x || Num.eq x y
    | 6 => un
    | _ => false
  else
    let x := decInt m a
    let y := decInt m b
    match f with
    | 0 => x == y
    | 1 => x != y
    | 2 => decide (x < y)
    | 3 => decide (x ≤ y)
    | 4 => decide (y < x)
    | 5 => decide (y ≤ x)
    | _ => false

/-- Value order of vcas and vmaxr: whether `a` ranks strictly ahead of `b` on values, a NaN behind every number; and
whether they tie (R173). -/
def vahead (m a b : Nat) : Bool × Bool :=
  if isFloat m then
    let x := decFloat m a
    let y := decFloat m b
    if x.isNaN && y.isNaN then (false, true)
    else if x.isNaN then (false, false)
    else if y.isNaN then (true, false)
    else (Num.lt y x, Num.eq x y)
  else (decide (decInt m b < decInt m a), decInt m a == decInt m b)

/-- before(X, Y) of R173 on (value, index) pairs. -/
def vbefore (m : Nat) (a b : Nat × Nat) : Bool :=
  let v := vahead m a.1 b.1
  v.1 || (v.2 && a.2 < b.2)

end Sys2Proof.Machine
end

