-- ==== Sys2Proof/Machine/Operands.lean ====
section
/-!
DEFINITION. Every operand form: immediates with and without a header (R10, R119, R122), the V lend (R120, R121),
local, field and host addresses (R21, R22, R220), address-form and handle-form rows (R207, R208), and tile elements.
-/

namespace Sys2Proof.Machine

/-- imm10, or imm19 with a header, sign-extended (R10). -/
def imm19 (i : BitVec 10) (l : Option (BitVec 9)) : Word :=
  match l with
  | none => i.signExtend 64
  | some h => (h ++ i).signExtend 64

/-- imm10, or imm19 with a header, zero-extended: ctest (R122). -/
def imm19u (i : BitVec 10) (l : Option (BitVec 9)) : Word :=
  match l with
  | none => i.setWidth 64
  | some h => (h ++ i).setWidth 64

/-- imm7, or imm16 with a header: scmpi, zero-extended when `n` (R122). -/
def imm16k (n : BitVec 1) (i : BitVec 7) (l : Option (BitVec 9)) : Word :=
  match l with
  | none => if n = 1 then i.setWidth 64 else i.signExtend 64
  | some h => if n = 1 then (h ++ i).setWidth 64 else (h ++ i).signExtend 64

/-- sli: imm16, or imm25 with a header, sign-extended (R141). -/
def imm25s (i : BitVec 16) (l : Option (BitVec 9)) : Word :=
  match l with
  | none => i.signExtend 64
  | some h => (h ++ i).signExtend 64

/-- slhi: gd shifted left by the immediate's width, the immediate in the bits shifted in (R141). -/
def slhiValue (g : Word) (i : BitVec 16) (l : Option (BitVec 9)) : Word :=
  match l with
  | none => (g <<< 16) ||| i.setWidth 64
  | some h => (g <<< 25) ||| (h ++ i).setWidth 64

/-- trap: imm22, or imm31 with a header (R158). -/
def imm31 (i : BitVec 22) (l : Option (BitVec 9)) : Nat := l.elim 0 (fun h => h.toNat) * 2 ^ 22 + i.toNat

/-- The trip count of loop #n (R123). -/
def loopCount (c : BitVec 9) (l : Option (BitVec 9)) : Nat := l.elim 0 (fun h => h.toNat) * 512 + c.toNat

/-- The mask of a V lend (R120). -/
def lendMask (l : Option (BitVec 9)) : Nat := (l.getD 0).toNat / 64

/-- Bits 5:0 of a V lend (R120). -/
def lendLow (l : Option (BitVec 9)) : BitVec 6 := (l.getD 0).setWidth 6

/-- The repetition count of a V lend; a broadcast source makes it 1 (R120). -/
def lendReps (bc : Bool) (l : Option (BitVec 9)) : Nat := if bc then 1 else (lendLow l).toNat + 1

/-- A vector register code advanced by repetition `i` (R121). -/
def advanced (i r : Nat) : Nat := if r < 40 then r + i else r

/-- A local address: bits 21:0 (R21). -/
def localAddr (w : Word) : Nat := w.toNat % 4194304

/-- The destination core of a field address in a launch of `n` cores (R22). -/
def fieldCore (n : Nat) (w : Word) : Nat := w.toNat / 4194304 % 512 % n

/-- A host address's window (R220). -/
def hostWindow (w : Word) : Nat := w.toNat / 2 ^ 58

/-- A host address's offset (R220). -/
def hostOffset (w : Word) : Nat := w.toNat % 2 ^ 58

/-- The rows a vector transfer moves: row count and bytes a row, under the shape (R207, R210). -/
def vecRows (shape : Word) (w : BitVec 2) : Nat × Nat := (shapeRows shape, shapeCols shape * 2 ^ w.toNat)

/-- The rows a tile transfer moves (R210). -/
def tileRows (tcfg : Word) : Nat × Nat := (tcRows tcfg, tcRowBytes tcfg)

/-- The pitch: bits 21:0 of the pitch register, or the natural row size when they are 0 (R207). -/
def pitchOf (w : Word) (natural : Nat) : Nat := if localAddr w = 0 then natural else localAddr w

/-- The address of row `j` (R207). -/
def rowAddr (a pitch j : Nat) : Nat := (a + j * pitch) % 4194304

/-- Element (j, i) of a tile as bits of its format: a byte, a pair of bytes (bf16) or a nibble (e2m1) (R32). -/
def Core.tileElem (c : Core) (t : Nat) (cfg : Word) (j i : Nat) : Nat :=
  let row := t * 32768 + j * tcRowBytes cfg
  match tcFormat cfg with
  | 2 => (c.vec.tile.get 0 (row + i / 2)).toNat / (if i % 2 = 0 then 1 else 16) % 16
  | 4 => (c.vec.tile.get 0 (row + 2 * i)).toNat + 256 * (c.vec.tile.get 0 (row + 2 * i + 1)).toNat
  | _ => (c.vec.tile.get 0 (row + i)).toNat

/-- The value of an element of a narrow or bf16 tile format (R69 to R71). -/
def tileNum (fmt alt4 w : Nat) : Num :=
  match fmt with
  | 0 => decE4m3 w
  | 1 => decE5m2 w
  | 2 => decE2m1 alt4 w
  | _ => decBf16 w

/-- Element `i` of row `j` of a vector source as operation `f` reads it: `bc` is the broadcast scalar (R120, R161). -/
def Core.velem (c : Core) (f : Flight) (r e j i : Nat) : Nat :=
  if r = 49 then f.x.toNat % 2 ^ (8 * e)
  else leNat ((List.range e).map fun k => c.vbyte f r ((j * f.cols + i) * e + k))

/-- Packed element `p` of a vector source (R161). -/
def Core.vpacked (c : Core) (f : Flight) (r e p : Nat) : Nat :=
  if r = 49 then f.x.toNat % 2 ^ (8 * e)
  else leNat ((List.range e).map fun k => c.vbyte f r (p * e + k))

/-- sel(j, i) of R163: the named mask's bit for element (j, i). -/
def Core.sel (c : Core) (f : Flight) (mask j i : Nat) : Bool := c.vec.maskBit mask (j * f.cols + i)

/-- Word `k` of entry `w` of a window table (R282). -/
def windowWord (t : List (Nat × Word)) (w k : Nat) : Word := look 0 t (4 * w + k)

/-- A host address that its window maps for `n` bytes (R283): valid, within the length, and no reduce window where
`noReduce`. -/
def windowOk (t : List (Nat × Word)) (noReduce : Bool) (w : Word) (n : Nat) : Bool :=
  let h := hostWindow w
  (windowWord t h 0).getLsbD 0 && hostOffset w + n ≤ fieldOf (windowWord t h 2).toNat 0 48 &&
  !(noReduce && fieldOf (windowWord t h 0).toNat 1 2 == 2)

/-- The endpoint and the address there of a host address (R282). -/
def windowTarget (t : List (Nat × Word)) (w : Word) : Nat × Word :=
  let h := hostWindow w
  (fieldOf (windowWord t h 0).toNat 8 16, windowWord t h 1 + BitVec.ofNat 64 (hostOffset w))

/-- A window entry's legality (R282, R283): no illegal kind or op, no reserved bit; `k` is the word written. -/
def windowWordLegal (k : Nat) (v : Word) : Bool :=
  match k with
  | 0 => fieldOf v.toNat 1 2 != 3 && fieldOf v.toNat 3 5 == 0 && fieldOf v.toNat 24 40 == 0
  | 2 => fieldOf v.toNat 48 16 == 0
  | 3 => fieldOf v.toNat 2 2 != 3 && fieldOf v.toNat 12 20 == 0 && fieldOf v.toNat 52 12 == 0
  | _ => true

/-- The value of an overflow table that R82 and R160 accept. -/
def ovtabLegal (v : Word) : Bool :=
  fieldOf v.toNat 24 40 == 0 && ovEntry v 0 != 3 && (ovEntry v 2 == 0 || ovEntry v 2 == 2) && ovEntry v 4 != 3 &&
  ovEntry v 6 == 0 &&
  ([8, 10, 12, 14, 16, 18, 20, 22].all fun b => ovEntry v b == 0 || ovEntry v b == 3)

/-- The physical row of a context row under a row map (R281), none where the page is not mapped. [DEDUCED: log 94] -/
def mapRow (m : List (Nat × BitVec 16)) (row : Nat) : Option Nat :=
  let e := look 0#16 m (row / 64)
  if e.getLsbD 15 then some (fieldOf e.toNat 0 9 * 64 + row % 64) else none

/-- The row map a context uses: bank 1 for class 0 (R274). -/
def Phys.rowmap (p : Phys) : List (Nat × BitVec 16) := if p.bank1 then p.rowmap1 else p.rowmap0

end Sys2Proof.Machine
end

