-- ==== Sys2Proof/Machine/Legal.lean ====
section
/-!
DEFINITION. What a syllable must meet at its issue: the illegal-syllable causes of R133 and of each entry, in the
order of their detail codes (R136, R137), and the other faults of issue (R63, R265), with those an interlocked launch
holds on instead (R63, R64).
-/

namespace Sys2Proof.Machine

/-- The first code whose condition holds; the lists below stand in the order of the codes. -/
def firstCode (l : List (Bool × Nat)) : Option Nat := (l.find? fun p => p.1).map fun p => p.2

/-! ## Illegal-syllable causes -/

/-- A vector destination code that is none (R126). -/
def badDst (d : BitVec 6) : Bool := !vdst d

/-- A vector source code that is none; `bc` admits 49 (R126). -/
def badSrc (bc : Bool) (a : BitVec 6) : Bool := !vsrc bc a

/-- The repetition passes the register set for one of the codes (R121). -/
def repBeyond (reps : Nat) (codes : List (BitVec 6)) : Bool :=
  codes.any fun r => r.toNat < 40 && 39 < r.toNat + (reps - 1)

/-- A shape whose elements of `e` half-bytes pass 16 KiB (R29). -/
def shapeOver (shape : Word) (e2 : Nat) : Bool := 32768 < shapeRows shape * shapeCols shape * e2

/-- The checks of an element-wise form with sources `a` and `b` (R120, R121, R162). -/
def vform (c : Core) (d a b : BitVec 6) (m : BitVec 4) (l : Option (BitVec 9)) (fmts : Nat → Bool) : Option Nat :=
  let bc := a == 49 || b == 49
  firstCode
    [(badDst d || badSrc true a || badSrc true b, 4), (!fmts m.toNat, 5),
     (repBeyond (lendReps bc l) [d, a, b], 9), (shapeOver c.regs.shape (2 * elemSize m.toNat), 0x0A)]

/-- The checks of a form with one source. -/
def vform1 (c : Core) (d a : BitVec 6) (m : BitVec 4) (l : Option (BitVec 9)) (fmts : Nat → Bool) : Option Nat :=
  let bc := a == 49
  firstCode
    [(badDst d || badSrc true a, 4), (!fmts m.toNat, 5), (repBeyond (lendReps bc l) [d, a], 9),
     (shapeOver c.regs.shape (2 * elemSize m.toNat), 0x0A)]

/-- Codes 0 to 8. -/
def fAll (m : Nat) : Bool := m ≤ 8
/-- Integer and natural codes. -/
def fInts (m : Nat) : Bool := 2 ≤ m && m ≤ 8
/-- f32 and bf16. -/
def fFloats (m : Nat) : Bool := m ≤ 1

/-- The pairs of vcvt (R176): source 0 f32, 1 i32, 2 n32, 3 bf16. -/
def cvtPair (src dst : Nat) : Bool :=
  match src with
  | 0 => [1, 2, 3, 4, 5, 6, 7, 8, 9, 10, 11].contains dst
  | 3 => [2, 3, 4, 5, 6, 7, 8, 9, 10, 11].contains dst
  | 1 => [0, 1, 3, 4, 6, 7, 8].contains dst
  | _ => [0, 1, 2, 3, 4, 7, 8].contains dst

/-- The pairs of vwid (R178). -/
def widPair (src dst : Nat) : Bool :=
  match src with
  | 9 | 10 | 11 => dst ≤ 1
  | 1 => dst == 0
  | 4 => dst == 3 || dst == 2
  | 3 => dst == 2
  | 8 => dst == 7 || dst == 6 || dst == 5
  | 7 => dst == 6 || dst == 5
  | 6 => dst == 5
  | _ => false

/-- Twice the element size of a code, e2m1 counting one (R175). -/
def size2 (m : Nat) : Nat := if m = 11 then 1 else 2 * elemSize m

/-- The format code of vcvt's src field (R175). -/
def cvtSrc (c : Nat) : Nat :=
  match c with
  | 0 => 0
  | 1 => 2
  | 2 => 6
  | _ => 1

/-- The mask instructions' checks (R186). -/
def mform (c : Core) (rs : List (BitVec 6)) (l : Option (BitVec 9)) : Option Nat :=
  firstCode
    [(lendMask l != 0, 3), (rs.any fun r => !lt16 r, 4),
     (rs.any fun r => 15 < r.toNat + (lendLow l).toNat, 9),
     (16384 < shapeRows c.regs.shape * shapeCols c.regs.shape, 0x0A)]

/-- The checks of a loop syllable (R123, R148). -/
def loopForm (c : Core) (o : BitVec 12) (big : Bool) : Option Nat :=
  let e := c.seq.bundle + o.toNat
  firstCode
    [(6 ≤ c.seq.loops.length, 7),
     (o.toNat < c.seq.len || big || 65535 < e || codeAt c.code e == fillWord || !startBit (codeAt c.code e) ||
       (c.seq.loops.any fun v => v.stop == c.seq.bundle), 8)]

/-- Control registers that exist (R156). -/
def crnKnown (n : Nat) : Bool := n < 0x0A || (0x10 ≤ n && n ≤ 0x25)

/-- Control registers that mtc may write (R156). -/
def crnWritable (n : Nat) : Bool := n ≤ 1 || n == 8 || n == 9 || (0x10 ≤ n && n ≤ 0x1F)

/-- A value that mtc accepts (R40): no reserved bit, no illegal round.mode or tile configuration. -/
def mtcLegal (n : Nat) (v : Word) : Bool :=
  let w := v.toNat
  if n = 0 then fieldOf w 14 2 == 0 && fieldOf w 24 40 == 0
  else if n = 1 then fieldOf w 0 3 ≤ 4 && fieldOf w 3 13 == 0 && fieldOf w 32 32 == 0
  else if n = 8 then fieldOf w 23 9 == 0 && fieldOf w 48 16 == 0
  else if n = 9 then fieldOf w 32 32 == 0
  else fieldOf w 4 4 == 0 && fieldOf w 34 30 == 0 && tcLegal v

/-- System registers of R287, R306 and R307 that exist. -/
def sysKnown (r : Nat) : Bool :=
  r ≤ 2 || (0x10 ≤ r && r ≤ 0x13) || (0x20 ≤ r && r ≤ 0x22) || (0x30 ≤ r && r ≤ 0x37) ||
  (0x100 ≤ r && r ≤ 0x1FF) || (0x1000 ≤ r && r ≤ 0x13FF) ||
  (0x3000 ≤ r && r < 0x3080 && (r % 16 ≤ 4 || r % 16 == 8 || r % 16 == 9))

/-- System registers that only read (R287, R306). -/
def sysReadOnly (r : Nat) : Bool := r ≤ 1 || r == 0x12 || (0x3000 ≤ r && r < 0x3080 && 1 ≤ r % 16 && r % 16 ≤ 4)

/-- The privileged four in launch code raise detail 0x02 (R135, R159). -/
def privileged (c : Core) (rest : List (Bool × Nat)) : Option Nat := firstCode ((!c.phys.sysMode, 2) :: rest)

/-- A row of an address form whose address is no multiple of `e` (R207). -/
def rowsMisaligned (a pitch rows e : Nat) : Bool := a % e != 0 || (1 < rows && pitch % e != 0)

/-- A vector transfer's illegal causes, address form (R211). -/
def vxferIll (c : Core) (bad : Bool) (a b : BitVec 6) (w : BitVec 2) : Option Nat :=
  let r := vecRows c.regs.shape w
  firstCode
    [(bad, 4),
     (rowsMisaligned (localAddr (c.regs.readG a)) (pitchOf (c.regs.readG b) r.2) r.1 (2 ^ w.toNat), 6),
     (shapeOver c.regs.shape (2 * 2 ^ w.toNat), 0x0A)]

/-- A vector transfer's illegal causes, handle form (R208, R211). -/
def vxferHIll (c : Core) (bad : Bool) (h : BitVec 4) (w : BitVec 2) : Option Nat :=
  let r := vecRows c.regs.shape w
  firstCode
    [(bad, 4), ((c.regs.handle h).slot < r.1 * r.2, 6), (shapeOver c.regs.shape (2 * 2 ^ w.toNat), 0x0A)]

/-- The tile of a 6-bit field. -/
def tileNo (t : BitVec 6) : BitVec 4 := t.setWidth 4

/-- A tile transfer's illegal causes (R211); `slot` is the handle slot's size where there is one. -/
def txferIll (c : Core) (t : BitVec 6) (slot : Option Nat) : Option Nat :=
  let cfg := c.regs.tcfgOf (tileNo t)
  let r := tileRows cfg
  firstCode [(!lt16 t, 4), (!tcLegal cfg || slot.elim false (fun n => decide (n < r.1 * r.2)), 6)]

/-- The address of lds and sts (R212). -/
def ldsAddr (c : Core) (a : BitVec 6) (i : BitVec 10) (l : Option (BitVec 9)) : Nat :=
  localAddr (c.regs.readG a + imm19 i l)

/-- The banks a mask selects, in ascending order (R196). -/
def banksOf (b : BitVec 8) : List Nat := (List.range 8).filter fun i => b.getLsbD i

/-- System code executes a syllable that names what a context has (R288). -/
def Core.exempt (c : Core) (i : Instr) : Bool := c.phys.sysMode && namesContext i

/-- The illegal-syllable detail of a syllable at issue, the decoder's own apart (R137); none where it is legal.
[DESIGN CHOICE: log 16; DEDUCED: log 29, 34, 90, 153] -/
def illegalForm (c : Core) (i : Instr) : Option Nat :=
  match i with
  | .sshli _ _ i l | .sshri _ _ i l | .ssrai _ _ i l => firstCode [(63 < (imm19 i l).toNat, 6)]
  | .ssel _ _ _ m => firstCode [(11 < m.toNat, 4)]
  | .sext _ _ _ w => firstCode [(w.toNat == 3, 6)]
  | .scmp k _ f _ _ _ => firstCode [(!steer k, 4), (5 < f.toNat, 6)]
  | .scmpi k _ f _ _ _ _ => firstCode [(!steer k, 4), (5 < f.toNat, 6)]
  | .kset k _ | .ksetReg k _ | .prep k _ _ | .prepHi k _ _ | .head k | .wnext k _ _ | .ctest k _ _ _ _
  | .ctestReg k _ _ _ => firstCode [(!steer k, 4)]
  | .loop _ o _ => loopForm c o false
  | .loopReg g o => loopForm c o (0xFFFFFFFF < (c.regs.readG g).toNat)
  | .loopq o => loopForm c o false
  | .hset h a b => firstCode [(!lt16 h, 4), (!handleLegal (c.regs.readG a) (c.regs.readG b), 6)]
  | .hget _ h _ => firstCode [(!lt16 h, 4)]
  | .mtc n a =>
    firstCode [(!crnKnown n.toNat, 6), (!crnWritable n.toNat || !mtcLegal n.toNat (c.regs.readG a), 0x0B)]
  | .mfc _ n => firstCode [(!crnKnown n.toNat, 6)]
  | .mts _ r => privileged c [(!sysKnown r.toNat || sysReadOnly r.toNat, 6)]
  | .mfs _ r => privileged c [(!sysKnown r.toNat, 6)]
  | .eret => privileged c [(58368 < c.phys.savebase.toNat || !c.phys.imageRows.contains c.phys.savebase.toNat, 6)]
  | .ovld a => privileged c [(!ovtabLegal (c.regs.readG a), 0x0C)]
  | .itlbinv _ | .iptroot _ | .ctxid _ | .errstat _ _ => privileged c []
  | .windowTable a r => privileged c [(!windowWordLegal (r.toNat % 4) (c.regs.readG a), 6)]
  | .einj a _ =>
    privileged c [(fieldOf (c.regs.readG a).toNat 0 2 == 3 || fieldOf (c.regs.readG a).toNat 9 55 != 0, 6)]
  | .vadd d a b m l | .vsub d a b m l | .vmul d a b m l | .vfma d a b m l | .vmin d a b m l | .vmax d a b m l
  | .vand d a b m l | .vor d a b m l | .vxor d a b m l | .vsel d a b m l | .vperm d a b m l => vform c d a b m l fAll
  | .vshl d a b m l | .vshr d a b m l | .vsra d a b m l => vform c d a b m l fInts
  | .vthr d a b m l =>
    (vform c d a b m l fAll).orElse fun _ => firstCode [(4096 < shapeRows c.regs.shape, 0x0A)]
  | .vabs d a m l | .vneg d a m l | .vsumr d a m l | .vmaxr d a m l | .vbcast d a m l => vform1 c d a m l fAll
  | .vtrn d a m l => (vform1 c d a m l fAll).orElse fun _ => firstCode [(256 < shapeRows c.regs.shape, 0x0A)]
  | .vexp d a m l | .vlog d a m l | .vrcp d a m l | .vrsqrt d a m l | .vtanh d a m l | .vrenorm d a m l =>
    vform1 c d a m l fFloats
  | .vcmp f _ a b m l =>
    firstCode
      [(badSrc true a || badSrc true b, 4), (8 < m.toNat, 5),
       (f.toNat == 7 || (f.toNat == 6 && !isFloat m.toNat) || (a != 49 && b != 49 && lendLow l != 0), 6),
       (shapeOver c.regs.shape (2 * elemSize m.toNat), 0x0A)]
  | .vcas d a b m l =>
    firstCode
      [(39 < d.toNat || 39 < a.toNat || 39 < b.toNat, 4), (8 < m.toNat, 5),
       (d.toNat % 2 == 1 || a.toNat % 2 == 1 || b.toNat % 2 == 1 || 36 < d.toNat || lendLow l != 0, 6),
       (shapeOver c.regs.shape (2 * elemSize m.toNat), 0x0A)]
  | .vcvt d a s _ m _ =>
    firstCode
      [(badDst d || badSrc false a, 4), (!cvtPair s.toNat m.toNat, 5),
       (shapeOver c.regs.shape (max (size2 (cvtSrc s.toNat)) (size2 m.toNat)), 0x0A)]
  | .vwid d a s m l =>
    firstCode
      [((lendLow l).toNat / 16 != 0, 3), (badDst d || badSrc false a, 4), (!widPair s.toNat m.toNat, 5),
       (shapeOver c.regs.shape (max (size2 s.toNat) (size2 m.toNat)), 0x0A)]
  | .vhist _ a m l =>
    firstCode
      [(badSrc true a, 4), (!fInts m.toNat, 5), (lendLow l != 0, 6),
       (shapeOver c.regs.shape (2 * elemSize m.toNat), 0x0A)]
  | .viota d b m l =>
    firstCode
      [(badDst d || (b != 48 && b != 49), 4), (!fInts m.toNat, 5), (repBeyond (lendReps (b == 49) l) [d], 9),
       (shapeOver c.regs.shape (2 * elemSize m.toNat), 0x0A)]
  | .vrand d b m l =>
    firstCode
      [(badDst d || (b != 48 && b != 49), 4), (m.toNat != 6 && m.toNat != 7, 5),
       (repBeyond (lendReps (b == 49) l) [d], 9), (shapeOver c.regs.shape (2 * elemSize m.toNat), 0x0A)]
  | .mand d a b l | .mor d a b l => mform c [d, a, b] l
  | .mnot d a l => mform c [d, a] l
  | .mpop _ a l =>
    firstCode
      [(lendMask l != 0, 3), (!lt16 a, 4), (lendLow l != 0, 6),
       (16384 < shapeRows c.regs.shape * shapeCols c.regs.shape, 0x0A)]
  | .wld t s b _ =>
    let cfg := c.regs.tcfgOf t
    let n := (banksOf b).length
    firstCode
      [(n == 0 || !tcLegal cfg || tcRows cfg != 128 || tcCols cfg != 32 * n ||
        (tcFormat cfg == 4 && (s.toNat % 2 == 1 || 4 < n)), 6)]
  | .wset _ b _ | .wclr _ b => firstCode [(b == 0, 6)]
  | .mma d t s | .mmaz d t s =>
    let cfg := c.regs.tcfgOf (tileNo t)
    firstCode
      [(1 < d.toNat || !lt16 t, 4),
       (!tcLegal cfg || tcCols cfg != 128 || (tcFormat cfg == 4 && s.toNat % 2 == 1), 6)]
  | .mmag a g s =>
    let ca := c.regs.tcfgOf (tileNo a)
    let cg := c.regs.tcfgOf (tileNo g)
    let pair := (tcFormat ca ≤ 1 && tcFormat cg ≤ 1) || (tcFormat ca == 2 && tcFormat cg == 2) ||
      (tcFormat ca == 4 && tcFormat cg == 4)
    firstCode
      [(!lt16 a || !lt16 g, 4),
       (!tcLegal ca || !tcLegal cg || !pair || tcRows ca != tcRows cg || tcCols ca != 128 || tcCols cg != 256 ||
        (tcFormat ca == 4 && s.toNat % 2 == 1), 6)]
  | .mtag t a => firstCode [(!lt16 t || badSrc false a, 4)]
  | .mdrn d a b m =>
    firstCode
      [(badDst d || 1 < a.toNat, 4), (!([0, 1, 2, 3, 4, 9, 10].contains m.toNat), 5),
       (256 < (c.regs.readG b).toNat + shapeRows c.regs.shape, 6),
       (shapeOver c.regs.shape (2 * elemSize m.toNat), 0x0A)]
  | .mgdrn d n _ m => firstCode [(badDst d, 4), (1 < m.toNat, 5), (31 < n.toNat, 6)]
  | .mmiss d => firstCode [(badDst d, 4)]
  | .ld d a b _ w => vxferIll c (badDst d) a b w
  | .st d a b _ w => vxferIll c (badSrc false d) a b w
  | .ldh d h _ w => vxferHIll c (badDst d) h w
  | .sth d h _ w => vxferHIll c (badSrc false d) h w
  | .ldt d _ _ _ | .stt d _ _ _ => txferIll c d none
  | .ldth d h _ | .stth d h _ => txferIll c d (some (c.regs.handle h).slot)
  | .lds _ a i l | .sts _ a i l => firstCode [(ldsAddr c a i l % 8 != 0, 6)]
  | .sqld a i l =>
    let n := (imm19 i l).toInt
    firstCode [(n < 1 || 1024 < n || 4194304 < localAddr (c.regs.readG a) + n.toNat, 6)]
  | .ldm d _ _ | .stm d _ _ =>
    firstCode [(!lt16 d, 4), (16384 < shapeRows c.regs.shape * shapeCols c.regs.shape, 0x0A)]
  | .dcp _ h _ _ => firstCode [((c.regs.handle h).swz, 6)]
  | .dput _ _ b => firstCode [(65536 < (c.regs.readG b).toNat, 6)]
  | .dred d _ b p f _ =>
    let e := if f = 1 then 2 else 4
    let n := (c.regs.readG b).toNat
    firstCode [(p.toNat == 3 || 65536 < n || n % e != 0 || localAddr (c.regs.readG d) % e != 0, 6)]
  | .dgln d a b m =>
    firstCode
      [(4 < m.toNat || 1024 < fieldOf (c.regs.readG a).toNat 32 11 || localAddr (c.regs.readG d) % 64 != 0 ||
        localAddr (c.regs.readG b) % 64 != 0 || localAddr (c.regs.readG a) % 2 != 0, 6)]
  | .dhget d _ b _ | .dhput d _ b _ =>
    let n := (c.regs.readG b).toNat
    firstCode [(n == 0 || 4194304 < localAddr (c.regs.readG d) + n, 6)]
  | .amo d _ _ f => firstCode [(localAddr (c.regs.readG d) % (if f.toNat ≤ 1 then 4 else 8) != 0, 6)]
  | .amor d _ b _ f =>
    let e := if f.toNat ≤ 1 then 4 else 8
    firstCode [(localAddr (c.regs.readG d) % e != 0 || localAddr (c.regs.readG b) % e != 0, 6)]
  | .dcan t => firstCode [(t == 0, 6)]
  | .chrd _ _ g _ => firstCode [((c.regs.readG g).toNat % 64 != 0, 6)]
  | .chrdHandle _ _ h _ _ | .chwrHandle _ _ h _ =>
    firstCode [((c.regs.handle h).swz || (c.regs.handle h).slot < 1024, 6)]
  | .undefinedOpcode _ => some 1
  | _ => none

/-- The illegal-syllable detail that a syllable raises; system code raises none for what a counter, handle or timetable
holds (R288): what it writes is written, and one whose field names nothing has no effect. [DEDUCED: log 123] -/
def illegal (c : Core) (i : Instr) : Option Nat := (illegalForm c i).filter fun d => !(d == 6 && c.exempt i)

/-! ## The other faults of issue -/

/-- A consumer's need (R14): filled slots below it. -/
def needDrain (c : Core) (h n : BitVec 4) : Bool := (c.regs.handle h).filled < n.toNat

/-- A producer's need (R14, R99): free slots less producers in flight below it; a need of 0 is always met. -/
def needFill (c : Core) (h n : BitVec 4) : Bool :=
  let v := c.regs.handle h
  n != 0 && decide (v.count - v.filled < n.toNat + (c.producers h).length)

/-- The row instant ρ(j) of an activation format (R189). -/
def rho (fmt j : Nat) : Nat :=
  match fmt with
  | 2 => j / 2
  | 4 => 2 * j
  | _ => j

/-- The span P of a pass of `m` rows (R189). -/
def spanOf (fmt m : Nat) : Nat := rho fmt (m - 1) + 1

/-- The span of a pass in flight. -/
def Flight.span (f : Flight) : Nat := spanOf (tcFormat f.tcfg) f.rows

/-- The row port is not free for a pass issuing now (R189). -/
def rowPortBusy (x : Ctx) (c : Core) : Bool := c.flights.any fun f => isPass f.instr && x.now < f.issue + f.span

/-- A wld holds the weight port, through issue+129, so that its last two cycles are shared with the wld after it (R189). -/
def weightPortHeld (x : Ctx) (c : Core) : Bool :=
  c.flights.any fun f => match f.instr with
    | .wld .. => decide (x.now < f.issue + 130)
    | _ => false

/-- The weight port is not free for a wld issuing now (R189). -/
def weightPortBusy (x : Ctx) (c : Core) : Bool :=
  c.flights.any fun f => match f.instr with
    | .wld .. => decide (x.now < f.issue + 128)
    | _ => false

/-- Tile `t` is busy for the array against a write performing at `at_` of a bundle issued at `seqno` (R190): the write
comes from an instruction issued after the pass or wld, or from its own bundle. [DEDUCED: log 75] -/
def tileBusy (c : Core) (t seqno at_ : Nat) : Bool :=
  c.flights.any fun f =>
    f.seqno ≤ seqno && match f.instr with
    | .mma .. | .mmaz .. => f.a == t && f.issue ≤ at_ && at_ ≤ f.issue + 2 + f.span - 1
    | .mmag .. => (f.a == t || f.b == t) && f.issue ≤ at_ && at_ ≤ f.issue + 2 + f.span - 1
    | .wld .. => f.a == t && f.issue ≤ at_ && at_ ≤ f.issue + 129
    | _ => false

/-- Some row of a tile load issuing now would be written into a busy tile (R190, R211). -/
def loadHitsBusy (x : Ctx) (c : Core) (t : BitVec 6) : Bool :=
  (List.range (tcRows (c.regs.tcfgOf (tileNo t)))).any fun j => tileBusy c t.toNat x.now (x.now + 5 + j)

/-- Accumulator `k` (0, 1), or the gradient store (2), is busy at `at_` against an instruction issued after the pass
(R190). -/
def accBusy (c : Core) (k seqno at_ : Nat) : Bool :=
  c.flights.any fun f =>
    f.seqno < seqno && at_ ≤ f.issue + 140 + f.span - 1 && match f.instr with
    | .mma .. | .mmaz .. => f.d == k
    | .mmag .. => k == 2
    | _ => false

/-- Descriptor of bank `b`, slot `s` (R187). -/
def ArrayState.descOf (a : ArrayState) (b s : Nat) : BitVec 32 := if h : 4 * b + s < 32 then a.desc[4 * b + s] else 0x7FF#32

/-- The loading bit of a descriptor. -/
def descLoading (d : BitVec 32) : Bool := d.getLsbD 11

/-- A slot of the banks `bs` is loading. -/
def slotsLoading (a : ArrayState) (bs : List Nat) (s : Nat) : Bool := bs.any fun b => descLoading (a.descOf b s)

/-- Any slot of the array is loading (R191). -/
def anyLoading (a : ArrayState) : Bool := a.desc.toList.any descLoading

/-- The store is busy for an mzero, whichever mode it names (R203). -/
def storeBusy (c : Core) (seqno at_ : Nat) : Bool := (List.range 3).any fun k => accBusy c k seqno at_

/-- An M-class syllable of an interlocked launch holds while any slot of the array is loading (R191). -/
def loading (x : Ctx) (c : Core) : Bool × Nat × Bool := (x.la.interlocked && anyLoading c.arr, 0x0C, true)

/-- The scales an M-class syllable will pop (R189, R196, R199). -/
def scalesNeeded (c : Core) (i : Instr) : Nat :=
  match i with
  | .mma _ t _ | .mmaz _ t _ =>
    let cfg := c.regs.tcfgOf (tileNo t)
    if tcFormat cfg ≤ 2 then 4 * tcRows cfg else 0
  | .mmag a _ _ =>
    let cfg := c.regs.tcfgOf (tileNo a)
    if tcFormat cfg ≤ 2 then 12 * tcRows cfg else 0
  | .wld t _ b _ => if tcFormat (c.regs.tcfgOf t) ≤ 2 then 128 * (banksOf b).length else 0
  | _ => 0

/-- The scales that passes and wlds in flight pop in the events of a stream that `left` counts. [DEDUCED: log 74] -/
def scalesPopped (left : Stream → Nat) (c : Core) : Nat :=
  c.flights.foldl (fun n f => n + f.streams.foldl (fun n t => n + match t.eff with
    | .arrRead => (match f.instr with | .mmag .. => 12 | _ => 4) * (if tcFormat f.tcfg ≤ 2 then left t else 0)
    | .wldPop => (if tcFormat f.tcfg ≤ 2 then f.len else 0) * left t
    | _ => 0) 0) 0

/-- Scales that passes and wlds in flight have still to pop. [DEDUCED: log 74] -/
def scalesPending (c : Core) : Nat := scalesPopped (fun t => t.n - t.k) c

/-- The scales that an append of this cycle, which comes behind the cycle's pops, puts into the queue: a bundle that issues in
the cycle sees them (R5, R34, R214). [DEDUCED: log 74] -/
def scalesComing (now : Nat) (c : Core) : Nat :=
  let due (t : Stream) : Nat := ((List.range t.n).drop t.k).countP fun k => decide (({ t with k := k } : Stream).due ≤ now)
  let n := c.flights.foldl (fun n f =>
    if f.streams.any fun t => t.eff == .scaleApp && t.live && decide (t.due ≤ now) then n + f.bytes.length else n) 0
  if c.q.sq.length + n ≤ 1024 + scalesPopped due c then n else 0

/-- An sqld is in flight to the scale queue (R34, R214). -/
def Core.sqldFlying (c : Core) : Bool := c.flights.any fun f => match f.instr with
  | .sqld .. => true
  | _ => false

/-- The scales that syllable `i` pops are not all in the queue, beside those that what is in flight still pops before it: an
interlocked launch holds until they are, so that no pop falls short (R63, R191). [DEDUCED: log 74] -/
def scalesShort (x : Ctx) (c : Core) (i : Instr) : Bool :=
  x.la.interlocked &&
    decide (scalesNeeded c i ≠ 0 ∧ c.q.sq.length + scalesComing x.now c < scalesNeeded c i + scalesPending c)

/-- And no sqld is in flight that could bring them: the queue imbalance, in an interlocked launch too (R34, R63).
[DEDUCED: log 74] -/
def scalesStarve (x : Ctx) (c : Core) (i : Instr) : Bool := scalesShort x c i && !c.sqldFlying

/-- rfence's check (R112): a dhget into the range not yet complete, or a dhput from it with blocks to read after this cycle
(R5). -/
def fenceFails (now : Nat) (c : Core) (a n : Nat) : Bool :=
  n != 0 && c.flights.any fun f =>
    let hit := (f.addr < a + n && a < f.addr + f.len) || (4194304 < a + n && f.addr < a + n - 4194304)
    match f.instr with
    | .dhget .. => f.open_ && hit
    | .dhput .. => (f.streams.any fun t => t.live && decide (now < t.last)) && hit
    | _ => false

/-- rfence's range length, capped (R152). -/
def fenceLen (w : Word) : Nat := min w.toNat 0x400000

/-- Closed batches outstanding (R111). -/
def Core.outstanding (c : Core) : Nat := c.net.closed.length

/-- The batches closed once the open batch closes. -/
def closedAfter (c : Core) : Nat := c.outstanding + (if c.net.openBatch.isEmpty then 0 else 1)

/-- A drain's count is not met (R111). -/
def drainShort (c : Core) (n : BitVec 4) : Bool := n.toNat < closedAfter c

/-! ## The bundle that issues next -/

/-- The level test of R147 at the bundle that starts at `e`: the levels left, and where a level branches to. -/
def loopTest (e : Nat) : List LoopLevel → List LoopLevel × Option Nat
  | [] => ([], none)
  | v :: vs =>
    if v.stop != e then (v :: vs, none)
    else if v.index + 1 < v.trip then ({ v with index := v.index + 1 } :: vs, some v.start)
    else loopTest e vs

/-- The syllables of the bundle that starts at `e`. -/
def bundleLen (code : List (BitVec 32)) (e : Nat) : Nat :=
  match fetchAt code e with
  | .entry _ => 1
  | .framing _ n => n
  | .bundle n _ _ => n

/-- What a slot of a bundle gives: an instruction, or the detail of the fault of its word. -/
def readSlot (sys : Bool) (t : Slot) : Instr ⊕ Nat :=
  match decodeSyllable t.word.toNat t.lend with
  | .instr i => .inl i
  | .reserved priv => .inr (if priv && !sys then 2 else 3)
  | .badCode => .inr 4
  | .badFormat => .inr 5

/-- The instructions of the bundle at syllable `pc`, with their positions; none where it does not decode. -/
def instrsAt (code : List (BitVec 32)) (pc : Nat) : List (Nat × Instr) :=
  match fetchAt code pc with
  | .bundle _ false ts => ts.filterMap fun t => match readSlot true t with
    | .inl i => some (t.pos, i)
    | .inr _ => none
  | _ => []

/-- The bundle that issues after the current one (R12, R147). [DEDUCED: log 110] -/
def Core.nextBundle (c : Core) : Nat :=
  (loopTest c.seq.bundle c.seq.loops).2.getD (nextStart c.code (c.seq.bundle + c.seq.len))

/-- A head stands where its furrow has none: at origin+L−32, or, in an elastic furrow, in the bundle before fend's
(R55, R61). [DEDUCED: log 76, 110] -/
def headMisplacedAt (x : Ctx) (c : Core) : Bool :=
  if (x.own c).elastic then !(instrsAt c.code c.nextBundle).any fun p => p.2 == .fend
  else c.fcycle x != (x.own c).len - 32

/-- Timing details at issue, each with whether an interlocked launch holds on it instead (R63, R64, R191).
[DEDUCED: log 74, 75, 76, 110, 122, 133, 134] -/
def timing (x : Ctx) (c : Core) (i : Instr) : List (Bool × Nat × Bool) :=
  let full : Bool × Nat × Bool := (768 ≤ c.inFlight x.now, 0x0F, false)
  match i with
  | .ldh _ h n _ => [(needDrain c h n, 1, true), full]
  | .ldth t h n => [(needDrain c h n, 1, true), (x.la.interlocked && loadHitsBusy x c t, 2, true), full]
  | .ldt t _ _ _ => [(x.la.interlocked && loadHitsBusy x c t, 2, true), full]
  | .sth _ h n _ | .stth _ h n => [(needFill c h n, 1, true), full]
  | .dcp _ h n e => [(if e = 0 then needFill c h n else needDrain c h n, 1, true), full]
  | .chrdHandle _ _ h n _ => [(needFill c h n, 1, true), full]
  | .chwrHandle _ _ h n => [(needDrain c h n, 1, true), full]
  | .ld .. | .lds .. | .sqld .. | .ldm .. | .st .. | .stt .. | .sts .. | .stm .. | .dput .. | .dred ..
  | .dgln .. | .dhget .. | .dhput .. | .amo .. | .amor .. | .chrd .. | .chwr .. => [full]
  | .adv h n e =>
    let v := c.regs.handle h
    let k := n.toNat + 1
    if e = 0 then [(v.filled < k, 0x12, true)]
    else [(!(c.producers h).isEmpty, 0x11, true), (v.count - v.filled < k, 0x12, true)]
  | .hset h _ _ => [(!(c.producers (tileNo h)).isEmpty, 0x11, true)]
  | .loopq _ => [(!(x.own c).elastic, 9, false)]
  | .head _ =>
    [(c.seq.head.isSome || !descHeadland (x.own c).la.desc || headMisplacedAt x c, 5, false)]
  | .fend =>
    [(descHeadland (x.own c).la.desc && (x.own c).elastic && (c.seq.head.map (·.at_)) != some (x.now - 1), 5, false)]
  | .drain n =>
    let e := (x.own c).elastic
    [((!c.net.openBatch.isEmpty && 15 ≤ c.outstanding) || (!e && drainShort c n), 0x0A, !e)]
  | .bclose => [(!c.net.openBatch.isEmpty && 15 ≤ c.outstanding, 0x0A, false)]
  | .rfence a b => [(fenceFails x.now c (localAddr (c.regs.readG a)) (fenceLen (c.regs.readG b)), 0x0A, true)]
  | .wld t s b _ =>
    [(weightPortBusy x c, 0x0B, true),
     (slotsLoading c.arr (banksOf b) s.toNat ||
        (tcFormat (c.regs.tcfgOf t) == 4 && slotsLoading c.arr (banksOf b) (s.toNat + 1)) || (x.la.interlocked && anyLoading c.arr), 0x0C, true),
     (scalesShort x c i, 4, true)]
  | .wset s b _ | .wclr s b =>
    [(slotsLoading c.arr (banksOf b) s.toNat || (x.la.interlocked && anyLoading c.arr), 0x0C, true)]
  | .mma _ _ _ =>
    [(rowPortBusy x c, 0x0B, true), (c.arr.grad, 0x0E, false), (x.la.interlocked && anyLoading c.arr, 0x0C, true),
     (scalesShort x c i, 4, true)]
  | .mmaz d _ _ =>
    [(accBusy c d.toNat x.now x.now, 2, true), (rowPortBusy x c, 0x0B, true), (c.arr.grad, 0x0E, false),
     (x.la.interlocked && anyLoading c.arr, 0x0C, true),
     (scalesShort x c i, 4, true)]
  | .mmag _ _ _ =>
    [(rowPortBusy x c, 0x0B, true), (!c.arr.grad, 0x0E, false), (x.la.interlocked && anyLoading c.arr, 0x0C, true),
     (scalesShort x c i, 4, true)]
  | .mtag t _ => [(x.la.interlocked && tileBusy c t.toNat x.now (x.now + 1), 2, true), loading x c]
  | .mpat _ | .mmiss _ => [loading x c]
  | .mtc n _ =>
    [(x.la.interlocked && 0x10 ≤ n.toNat && n.toNat ≤ 0x1F && tileBusy c (n.toNat - 0x10) x.now (x.now + 1), 2, true)]
  | .mdrn .. => [(c.arr.grad, 0x0E, false), loading x c]
  | .mgdrn _ _ z _ =>
    [(!c.arr.grad, 0x0E, false), (x.la.interlocked && z = 1 && accBusy c 2 x.now (x.now + 1), 2, true), loading x c]
  | .mzero _ => [(x.la.interlocked && storeBusy c x.now (x.now + 1), 2, true), loading x c]
  | _ => []

/-- The lowest timing detail that a syllable fails at its issue (R265); an interlocked launch holds on some (R63). -/
def timingCode (x : Ctx) (c : Core) (i : Instr) : Option Nat :=
  ((timing x c i).filter fun p => p.1 && !(x.la.interlocked && p.2.2)).foldl
    (fun m p => match m with
      | none => some p.2.1
      | some d => some (min d p.2.1)) none

end Sys2Proof.Machine
end

