-- ==== Sys2Proof/Machine/Issue.lean ====
section
/-!
DEFINITION. The one way a syllable takes its effect: its illegal-syllable causes first (R136), then the lowest other
fault of its issue (R265), each of which suppresses it (R66), then its effect.
-/

namespace Sys2Proof.Machine

/-- A fault at a syllable's issue: the trap is taken and the syllable has no effect (R66). -/
def Core.refuse (x : Ctx) (i : Instr) (cause detail : Nat) (c : Core) : Core := c.raise x (c.preciseTrap i cause detail)

/-- A syllable's step at the acting core. In system mode the faults of what a context has are not raised (R288).
[DEDUCED: log 123] -/
def issueSyl (i : Instr) (eff : Ctx → Core → Core) (s : State) : Host.Outcome State Fault Refusal :=
  onCore s fun x c =>
    match illegal c i with
    | some d => c.refuse x i 1 d
    | none =>
      match timingCode x c i with
      | some d => if c.exempt i then eff x c else c.refuse x i 4 d
      | none => eff x c

/-- A deferred change of an S-class syllable, `n` cycles after issue (R11, R138). -/
def Core.laterS (x : Ctx) (n : Nat) (w : Deferred) (c : Core) : Core := c.later x 1 c.seq.pos n w

/-- The common fields of an operation issued by the syllable now taking its effect. -/
def Core.newFlight (x : Ctx) (i : Instr) (cls : Nat) (c : Core) : Flight :=
  { uid := 0, instr := i, issue := x.now, seqno := x.now, cls := cls, bundle := c.seq.bundle, pos := c.seq.pos,
    rows := shapeRows c.regs.shape, cols := shapeCols c.regs.shape }

/-- Keeps the last block's read instant of a send for the check of R102. -/
def Core.note (dest last : Nat) (c : Core) : Core :=
  let n : SendNote := { dest := dest, last := last, sender := c.index }
  { c with net := { c.net with notes := c.net.notes ++ [n] } }

end Sys2Proof.Machine
end

