-- ==== Sys2Proof/Machine/Control.lean ====
section
/-!
DEFINITION. Headland, loop, fence, handle, control-register, trap and privileged instructions of class S (R144 to R148,
R151 to R160), and the system registers of R287, R306 and R307.
-/

namespace Sys2Proof.Machine

/-! ## Headlands, furrow ends and loops -/

/-- The successors written at issue+1, with the time of the prep kept for the check of R53. -/
def prepOp (i : Instr) (k : BitVec 4) (hi : Bool) (a b : BitVec 8) : State → Host.Outcome State Fault Refusal :=
  issueSyl i fun x c =>
    let n := if hi then 2 else 0
    let marks : List PrepMark :=
      [{ k := k.toNat, byte := n, fc := c.fcycle x }, { k := k.toNat, byte := n + 1, fc := c.fcycle x }]
    let preps := if c.seq.head.isSome then c.seq.preps else c.seq.preps ++ marks
    ({ c with seq := { c.seq with preps := preps } }).laterS x 1 (.prep k hi a b)

/-- succ0 and succ1 of kN, its condition half cleared (R144). -/
def execPrep (k : BitVec 4) (a b : BitVec 8) := prepOp (.prep k a b) k false a b
/-- succ2 and succ3 of kN, its condition half cleared (R144). -/
def execPrepHi (k : BitVec 4) (a b : BitVec 8) := prepOp (.prepHi k a b) k true a b

/-- Samples kN in its issue cycle (R55, R56, R145). [DEDUCED: log 19] -/
def execHead (k : BitVec 4) :=
  issueSyl (.head k) fun x c =>
    let w := c.regs.readK k
    { c with seq := { c.seq with
        head := some { at_ := x.now, fc := c.fcycle x, k := k.toNat, index := steerIndex w, target := steerTarget w } } }

/-- Ends the core's part of the furrow (R49, R146). [DEDUCED: log 19] -/
def execFend := issueSyl .fend fun x c => { c with seq := { c.seq with fend := some x.now } }

/-- Pushes a loop level, or with a trip of 0 leaves its end to be skip-tested (R147). [DEDUCED: log 40] -/
def Core.startLoop (trip : Nat) (o : BitVec 12) (c : Core) : Core :=
  let e := c.seq.bundle + o.toNat
  if trip = 0 then { c with seq := { c.seq with skip := some e } }
  else
    let v : LoopLevel := { start := nextStart c.code (c.seq.bundle + c.seq.len), stop := e, trip := trip, index := 0 }
    { c with seq := { c.seq with loops := v :: c.seq.loops } }

/-- A loop of an immediate trip count (R123, R147). -/
def execLoop (n : BitVec 9) (o : BitVec 12) (l : Option (BitVec 9)) :=
  issueSyl (.loop n o l) fun _ c => c.startLoop (loopCount n l) o
/-- A loop whose trip count is a scalar register read at issue. -/
def execLoopReg (g : BitVec 6) (o : BitVec 12) :=
  issueSyl (.loopReg g o) fun _ c => c.startLoop (c.regs.readG g).toNat o
/-- A loop whose trip count is popped from the count queue; an empty queue is a queue imbalance, and a count that cannot
be corrected starts no loop; in system code an empty queue gives the 0 that it reads as (R37, R39, R148, R288, R304).
[DEDUCED: log 114, 126] -/
def execLoopq (o : BitVec 12) :=
  issueSyl (.loopq o) fun x c =>
    match c.q.cq with
    | [] => if c.exempt (.loopq o) then c.startLoop 0 o else c.refuse x (.loopq o) 0x0B 3
    | t :: ts =>
      let r := c.readUnits x (c.preciseTrap (.loopq o) 0x0D 0) 6 (unitsOf (cqCell c.q.cqHead) 2)
      let c := r.1
      let c : Core := { c with q := { c.q with cq := ts, cqHead := c.q.cqHead + 1 } }
      if r.2 then c.startLoop t.toNat o else c

/-- The bundle has issued: the loop levels that end at it, or at the body a zero trip skips, are tested, and the program
counter moves on (R12, R127, R147). [DEDUCED: log 20, 40] -/
def Core.retire (c : Core) : Core :=
  let q := c.seq
  let e := q.skip.getD q.bundle
  let len := if q.skip.isSome then bundleLen c.code e else q.len
  let r := loopTest e q.loops
  { c with seq := { q with
      loops := r.1, pc := r.2.getD (nextStart c.code (e + len)), len := 0, skip := none, suppressed := false } }

/-! ## Fences and batches -/

/-- Clears every view mark set at this instant or earlier (R97, R151). -/
def execVjoin := issueSyl .vjoin fun _ c => { c with sp := { c.sp with wl := [], ws := [] } }

/-- The check of R112 passes, and there is nothing else to do (R152). -/
def execRfence (a b : BitVec 6) := issueSyl (.rfence a b) fun _ c => c

/-- The open batch becomes the newest closed batch; an empty one creates none (R111, R153). -/
def Traffic.close (t : Traffic) : Traffic :=
  if t.openBatch.isEmpty then t else { t with openBatch := [], closed := t.closed ++ [t.openBatch] }

/-- Closes the open batch; in an elastic furrow the core then waits while more than `n` closed batches are
outstanding (R59, R111, R153). [DEDUCED: log 123] -/
def execDrain (n : BitVec 4) :=
  issueSyl (.drain n) fun _ c =>
    let c' : Core := { c with net := c.net.close }
    if drainShort c' n && !c'.phys.sysMode then { c' with seq := { c'.seq with waiting := true } } else c'

/-- Closes the open batch. -/
def execBclose := issueSyl .bclose fun _ c => { c with net := c.net.close }

/-! ## Handles -/

/-- Moves a handle's drain pointer (e = 0) or fill pointer by n + 1 slots (R154). -/
def execAdv (h n : BitVec 4) (e : BitVec 1) :=
  issueSyl (.adv h n e) fun x c => c.laterS x 1 (.adv h (n.toNat + 1) (e == 1))
/-- Writes both words of a handle (R155). -/
def execHset (h a b : BitVec 6) :=
  issueSyl (.hset h a b) fun x c => c.laterS x 1 (.hset (tileNo h) (c.regs.readG a) (c.regs.readG b))
/-- Reads a word of a handle (R155). -/
def execHget (d h : BitVec 6) (w : BitVec 1) :=
  issueSyl (.hget d h w) fun x c =>
    c.laterS x 1 (.g d (if w = 0 then c.regs.hw0 (tileNo h) else c.regs.hw1 (tileNo h)))

/-! ## Control registers -/

/-- The value mfc reads (R39, R41, R156). -/
def Core.readCtrl (x : Ctx) (n : Nat) (c : Core) : Word :=
  let w (n : Nat) : Word := BitVec.ofNat 64 n
  match n with
  | 0 => c.regs.shape
  | 1 => c.regs.round
  | 2 => w (c.fcycle x)
  | 3 => w c.seq.furrow
  | 4 => w (c.index % x.la.w + c.index / x.la.w * 2 ^ 16 + c.index * 2 ^ 32)
  | 5 => w (x.la.w + x.la.h * 2 ^ 16 + x.cores * 2 ^ 32)
  | 6 => x.la.seed
  | 7 => w (c.q.cq.length + (c.q.cq.headD 0).toNat * 2 ^ 16 + c.q.sq.length * 2 ^ 32)
  | 8 => w (c.regs.misses.toNat + c.q.miss.length * 2 ^ 16 + c.regs.degen.toNat * 2 ^ 32)
  | 9 => c.regs.cellpat
  | n =>
    if 0x20 ≤ n then match c.seq.loops[n - 0x20]? with
      | some v => w v.index
      | none => 0
    else c.regs.tcfgOf (BitVec.ofNat 4 (n - 0x10))

/-- A control register's write performing (R39, R40, R157): missct.fill is ignored. -/
def Regs.writeCtrl (r : Regs) (n : Nat) (v : Word) : Regs :=
  match n with
  | 0 => { r with shape := v }
  | 1 => { r with round := v }
  | 8 => { r with misses := v.setWidth 16, degen := (v >>> 32).setWidth 16 }
  | 9 => { r with cellpat := v }
  | n => if h : 0x10 ≤ n ∧ n < 0x20 then { r with tcfg := r.tcfg.set (n - 0x10) v (by omega) } else r

/-- Writes a control register for bundles from the next cycle (R157). -/
def execMtc (n a : BitVec 6) := issueSyl (.mtc n a) fun x c => c.laterS x 1 (.ctrl n (c.regs.readG a))
/-- Reads a control register (R157); cqstat reads the count queue's head, which is not passed on where it cannot be corrected
(R39, R304). -/
def execMfc (d n : BitVec 6) :=
  issueSyl (.mfc d n) fun x c =>
    let r := if n = 7 && !c.q.cq.isEmpty then
        c.readUnits x { c.preciseTrap (.mfc d n) 0x0D 0 with kind := 1 } 6 (unitsOf (cqCell c.q.cqHead) 2)
      else (c, true)
    if r.2 then r.1.laterS x 1 (.g d (r.1.readCtrl x n.toNat)) else r.1

/-! ## The software trap -/

/-- Raises the software trap; a trap syllable suppresses nothing (R158). -/
def execTrap (i : BitVec 22) (l : Option (BitVec 9)) :=
  issueSyl (.trap i l) fun x c => c.raise x { c.preciseTrap (.trap i l) 0x14 0 with info0 := imm31 i l }

/-! ## System registers (R287, R306, R307) -/

/-- A log's status register (R306). -/
def ErrLog.stat (e : ErrLog) : Word :=
  BitVec.ofNat 64 (e.ce.toNat + e.ue.toNat * 2 ^ 16 + e.valid.toNat * 2 ^ 24 + e.unc.toNat * 2 ^ 25 +
    e.missed.toNat * 2 ^ 26 + e.rep.toNat * 2 ^ 27)

/-- Register `k` of array `a`'s log and injection (R306, R307). -/
def ErrLog.read (e : ErrLog) (k : Nat) : Word :=
  match k with
  | 0 => e.stat
  | 1 => e.addr
  | 2 => e.syn
  | 3 => e.ctx.setWidth 64
  | 4 => e.cyc
  | 8 => e.inj.setWidth 64
  | _ => e.injAddr

/-- The value mfs reads (R287); the write-only itlbinv reads a free value. -/
def Core.readSys (r : Nat) (c : Core) : Word :=
  let w (n : Nat) : Word := BitVec.ofNat 64 n
  let p := c.phys
  if r = 0 then w (c.px + c.py * 2 ^ 8 + dieOf c.px c.py * 2 ^ 16 + plotOf c.px c.py * 2 ^ 24)
  else if r = 1 then w (p.sysMode.toNat + p.bank1.toNat * 2 + p.lastCause.toNat * 2 ^ 8)
  else if r = 2 then p.sentry
  else if r = 0x10 then p.savebase
  else if r = 0x11 then p.savemask
  else if r = 0x12 then p.qcycle
  else if r = 0x13 then p.ctxid.setWidth 64
  else if r = 0x20 then p.iptroot
  else if r = 0x21 then p.icbase
  else if r = 0x22 then Config.writeOnlyRead c.free
  else if h : 0x30 ≤ r ∧ r ≤ 0x37 then c.wp[r - 0x30]
  else if r ≤ 0x1FF then look 0 c.windows (r - 0x100)
  else if r ≤ 0x11FF then (look 0#16 p.rowmap0 (r - 0x1000)).setWidth 64
  else if r ≤ 0x13FF then (look 0#16 p.rowmap1 (r - 0x1200)).setWidth 64
  else (c.err ((r - 0x3000) / 16)).read (r % 16)

/-- A system register's write performing (R159, R285, R287, R306, R307); reserved bits are not stored.
[DESIGN CHOICE: log 4; DEDUCED: log 15, 35] -/
def Core.writeSys (r : Nat) (v : Word) (c : Core) : Core :=
  let p := c.phys
  let a := (r - 0x3000) / 16
  let e := c.err a
  if r = 2 then { c with phys := { p with sentry := v &&& 0xFFF#64 } }
  else if r = 0x10 then { c with phys := { p with savebase := v } }
  else if r = 0x11 then { c with phys := { p with savemask := v &&& 0x1F07FF#64 } }
  else if r = 0x13 then { c with phys := { p with ctxid := v.setWidth 16 } }
  else if r = 0x20 then { c with phys := { p with iptroot := v } }
  else if r = 0x21 then { c with phys := { p with icbase := v &&& 0xFFFC0000#64 } }
  else if h : 0x30 ≤ r ∧ r ≤ 0x37 then
    { c with wp := c.wp.set (r - 0x30) (v &&& (if r % 2 = 0 then 0x3FFFF0#64 else 0xFFFF003F#64)) (by omega) }
  else if r = 0x22 then c
  else if r ≤ 0x1FF then { c with windows := assign (r - 0x100) v c.windows }
  else if r ≤ 0x11FF then { c with phys := { p with rowmap0 := assign (r - 0x1000) (v.setWidth 16 &&& 0x81FF#16) p.rowmap0 } }
  else if r ≤ 0x13FF then { c with phys := { p with rowmap1 := assign (r - 0x1200) (v.setWidth 16 &&& 0x81FF#16) p.rowmap1 } }
  else if r % 16 = 0 then
    let e := if v.getLsbD 24 then { e with valid := false, unc := false, ce := 0, ue := 0, addr := 0, syn := 0, ctx := 0, cyc := 0, at_ := 0 } else e
    let e := if v.getLsbD 26 then { e with missed := false } else e
    c.setErr a { e with rep := v.getLsbD 27 }
  else if r % 16 = 8 then c.setErr a { e with inj := v.setWidth 9 }
  else if r % 16 = 9 then c.setErr a { e with injAddr := v }
  else c

/-- An mts: the register is written for bundles from the next cycle (R159). -/
def mtsOp (i : Instr) (a : BitVec 6) (r : BitVec 16) : State → Host.Outcome State Fault Refusal :=
  issueSyl i fun x c => c.laterS x 1 (.sys r (c.regs.readG a))

/-- Writes a system register without a row of its own. -/
def execMts (a : BitVec 6) (r : BitVec 16) := mtsOp (.mts a r) a r
/-- Invalidates the plot's TLB entries of ctxid; the write performs at issue+1 (R280, R287). -/
def execItlbinv (a : BitVec 6) := mtsOp (.itlbinv a) a 0x22#16
/-- Sets the page-table root and invalidates the plot's TLB entries of ctxid (R279, R280). -/
def execIptroot (a : BitVec 6) := mtsOp (.iptroot a) a 0x20#16
/-- Sets the context id and invalidates the plot's TLB entries of it (R280). -/
def execCtxid (a : BitVec 6) := mtsOp (.ctxid a) a 0x13#16
/-- Writes a word of the context's window table (R282 to R284). -/
def execWindowTable (a : BitVec 6) (r : BitVec 16) := mtsOp (.windowTable a r) a r
/-- Writes an array's error status: valid and over clear where 1 is written, rep is set (R306). -/
def execErrstat (a : BitVec 6) (r : BitVec 16) := mtsOp (.errstat a r) a r
/-- Writes an array's injection register (R307). -/
def execEinj (a : BitVec 6) (r : BitVec 16) := mtsOp (.einj a r) a r
/-- Reads a system register as it stands at issue (R159). [DESIGN CHOICE: log 14] -/
def execMfs (d : BitVec 6) (r : BitVec 16) :=
  issueSyl (.mfs d r) fun x c =>
    ({ c with free := if r = 0x22#16 then c.free + 1 else c.free }).laterS x 1 (.g d (c.readSys r.toNat))
/-- Loads the overflow table, for instructions that issue in the next cycle or later (R160). -/
def execOvld (a : BitVec 6) := issueSyl (.ovld a) fun x c => c.laterS x 1 (.ovtab (c.regs.readG a))

end Sys2Proof.Machine
end

