-- ==== Sys2Proof/Machine/Vector.lean ====
section
/-!
DEFINITION. Class V (R161 to R186): each syllable puts one operation in flight for each repetition; a row is computed
when it is read and written at its unit's offset. Elements, masks and bypass rows follow R29 to R31 and R161 to R163.
-/

namespace Sys2Proof.Machine

/-! ## Issue -/

/-- What a V syllable takes at issue: the shape, round.mode, the overflow table and the broadcast scalar (R120, R161). -/
def vflight (x : Ctx) (c : Core) (i : Instr) (d a b : Nat) (l : Option (BitVec 9)) : Flight :=
  { c.newFlight x i 2 with
    d := d, a := a, b := b, x := c.regs.readG (lendLow l), round := c.regs.round, ovtab := c.regs.ovtab }

/-- Puts `n` repetitions in flight, each `w` cycles after the one before with its registers advanced (R121, R165);
`str` gives a repetition's streams from its start. [DEDUCED: log 158] -/
def Core.repeats (f : Flight) (str : Nat → List Stream) (w : Nat) : Nat → Nat → Core → Core
  | 0, _, c => c
  | n + 1, i, c =>
    Core.repeats f str w n (i + 1) (c.fly { f with
      issue := f.issue + i * w, d := advanced i f.d, a := advanced i f.a, b := advanced i f.b,
      streams := str (f.issue + i * w) })

/-- Rows read from issue, row j written at issue + k + j. -/
def rowStreams (rows k t : Nat) : List Stream :=
  [{ eff := .vread, first := t, n := rows }, { eff := .vwrite, first := t + k, n := rows }]

/-- Rows read from issue, one event `e` at issue + k that writes every result. -/
def lateStreams (e : Eff) (rows k t : Nat) : List Stream :=
  [{ eff := .vread, first := t, n := rows }, { eff := e, first := t + k, n := 1 }]

/-- A row-streamed V instruction with latency `k` (R162). -/
def vrowOp (i : Instr) (k : Nat) (d a b : BitVec 6) (l : Option (BitVec 9)) : State → Host.Outcome State Fault Refusal :=
  issueSyl i fun x c =>
    let f := vflight x c i d.toNat a.toNat b.toNat l
    c.repeats f (rowStreams f.rows k) (k + f.rows - 1) (lendReps (a == 49 || b == 49) l) 0

/-- A V instruction whose results are written at once, `k` cycles after the last row's turn (R162, R165). -/
def vlateOp (i : Instr) (e : Eff) (k : Nat) (d a : BitVec 6) (l : Option (BitVec 9)) :
    State → Host.Outcome State Fault Refusal :=
  issueSyl i fun x c =>
    let f := vflight x c i d.toNat a.toNat 48 l
    c.repeats f (lateStreams e f.rows (f.rows + k)) (f.rows + k) (lendReps (a == 49) l) 0

/-- A mask instruction: the repetition advances mask numbers (R121, R186). -/
def vmaskOp (i : Instr) (d a b : BitVec 6) (l : Option (BitVec 9)) : State → Host.Outcome State Fault Refusal :=
  issueSyl i fun x c =>
    let f := vflight x c i d.toNat a.toNat b.toNat l
    c.repeats f (rowStreams f.rows 3) (f.rows + 2) ((lendLow l).toNat + 1) 0

/-- a + b, rounded or wrapped (R168). -/
def execVadd (d a b : BitVec 6) (m : BitVec 4) (l : Option (BitVec 9)) := vrowOp (.vadd d a b m l) 3 d a b l
/-- a − b. -/
def execVsub (d a b : BitVec 6) (m : BitVec 4) (l : Option (BitVec 9)) := vrowOp (.vsub d a b m l) 3 d a b l
/-- a × b. -/
def execVmul (d a b : BitVec 6) (m : BitVec 4) (l : Option (BitVec 9)) := vrowOp (.vmul d a b m l) 4 d a b l
/-- a × b + d, rounded once. -/
def execVfma (d a b : BitVec 6) (m : BitVec 4) (l : Option (BitVec 9)) := vrowOp (.vfma d a b m l) 4 d a b l
/-- The lesser. -/
def execVmin (d a b : BitVec 6) (m : BitVec 4) (l : Option (BitVec 9)) := vrowOp (.vmin d a b m l) 3 d a b l
/-- The greater. -/
def execVmax (d a b : BitVec 6) (m : BitVec 4) (l : Option (BitVec 9)) := vrowOp (.vmax d a b m l) 3 d a b l
/-- The absolute value. -/
def execVabs (d a : BitVec 6) (m : BitVec 4) (l : Option (BitVec 9)) := vrowOp (.vabs d a m l) 3 d a 48 l
/-- The negation. -/
def execVneg (d a : BitVec 6) (m : BitVec 4) (l : Option (BitVec 9)) := vrowOp (.vneg d a m l) 3 d a 48 l
/-- a and b (R170). -/
def execVand (d a b : BitVec 6) (m : BitVec 4) (l : Option (BitVec 9)) := vrowOp (.vand d a b m l) 3 d a b l
/-- a or b. -/
def execVor (d a b : BitVec 6) (m : BitVec 4) (l : Option (BitVec 9)) := vrowOp (.vor d a b m l) 3 d a b l
/-- a xor b. -/
def execVxor (d a b : BitVec 6) (m : BitVec 4) (l : Option (BitVec 9)) := vrowOp (.vxor d a b m l) 3 d a b l
/-- a << (b mod w). -/
def execVshl (d a b : BitVec 6) (m : BitVec 4) (l : Option (BitVec 9)) := vrowOp (.vshl d a b m l) 3 d a b l
/-- a >> (b mod w), zeros shifted in. -/
def execVshr (d a b : BitVec 6) (m : BitVec 4) (l : Option (BitVec 9)) := vrowOp (.vshr d a b m l) 3 d a b l
/-- a >> (b mod w), copies of the top bit shifted in. -/
def execVsra (d a b : BitVec 6) (m : BitVec 4) (l : Option (BitVec 9)) := vrowOp (.vsra d a b m l) 3 d a b l
/-- md := (a cond b), and b5 (R171). -/
def execVcmp (f d : BitVec 3) (a b : BitVec 6) (m : BitVec 4) (l : Option (BitVec 9)) :=
  issueSyl (.vcmp f d a b m l) fun x c =>
    let g := vflight x c (.vcmp f d a b m l) d.toNat a.toNat b.toNat l
    c.repeats g (rowStreams g.rows 3) 0 1 0
/-- a where the mask is 1, b elsewhere (R172). -/
def execVsel (d a b : BitVec 6) (m : BitVec 4) (l : Option (BitVec 9)) := vrowOp (.vsel d a b m l) 3 d a b l
/-- Compare and swap on value and index pairs (R173). -/
def execVcas (d a b : BitVec 6) (m : BitVec 4) (l : Option (BitVec 9)) :=
  issueSyl (.vcas d a b m l) fun x c =>
    let f := vflight x c (.vcas d a b m l) d.toNat a.toNat b.toNat l
    c.repeats f (rowStreams f.rows 3) 0 1 0
/-- e^a (R174). -/
def execVexp (d a : BitVec 6) (m : BitVec 4) (l : Option (BitVec 9)) := vrowOp (.vexp d a m l) 9 d a 48 l
/-- ln a. -/
def execVlog (d a : BitVec 6) (m : BitVec 4) (l : Option (BitVec 9)) := vrowOp (.vlog d a m l) 9 d a 48 l
/-- 1/a. -/
def execVrcp (d a : BitVec 6) (m : BitVec 4) (l : Option (BitVec 9)) := vrowOp (.vrcp d a m l) 9 d a 48 l
/-- 1/√a. -/
def execVrsqrt (d a : BitVec 6) (m : BitVec 4) (l : Option (BitVec 9)) := vrowOp (.vrsqrt d a m l) 9 d a 48 l
/-- tanh a. -/
def execVtanh (d a : BitVec 6) (m : BitVec 4) (l : Option (BitVec 9)) := vrowOp (.vtanh d a m l) 9 d a 48 l
/-- Conversion with rounding (R175 to R177); ibase is read at issue. -/
def execVcvt (d a : BitVec 6) (s : BitVec 2) (i m : BitVec 4) (l : Option (BitVec 9)) :=
  issueSyl (.vcvt d a s i m l) fun x c =>
    let f := vflight x c (.vcvt d a s i m l) d.toNat a.toNat 48 l
    let f : Flight := { f with
      y := c.regs.readG (i.setWidth 6), tcfg := c.regs.tcfgOf ((lendLow l).setWidth 4) }
    c.repeats f (rowStreams f.rows 4) 0 1 0
/-- Exact widening (R178). -/
def execVwid (d a : BitVec 6) (s m : BitVec 4) (l : Option (BitVec 9)) :=
  issueSyl (.vwid d a s m l) fun x c =>
    let f := vflight x c (.vwid d a s m l) d.toNat a.toNat 48 l
    let f : Flight := { f with tcfg := c.regs.tcfgOf ((lendLow l).setWidth 4) }
    c.repeats f (rowStreams f.rows 4) 0 1 0
/-- Row sums by the canonical tree (R179). -/
def execVsumr (d a : BitVec 6) (m : BitVec 4) (l : Option (BitVec 9)) := vlateOp (.vsumr d a m l) .harrow 11 d a l
/-- Row maxima by the canonical tree (R179). -/
def execVmaxr (d a : BitVec 6) (m : BitVec 4) (l : Option (BitVec 9)) := vlateOp (.vmaxr d a m l) .harrow 11 d a l
/-- Counts at or above a threshold (R180). -/
def execVthr (d a b : BitVec 6) (m : BitVec 4) (l : Option (BitVec 9)) := vrowOp (.vthr d a b m l) 6 d a b l
/-- A histogram, appended to the count queue at issue+rows+10 (R181). -/
def execVhist (b a : BitVec 6) (m : BitVec 4) (l : Option (BitVec 9)) :=
  issueSyl (.vhist b a m l) fun x c =>
    let f := vflight x c (.vhist b a m l) 48 a.toNat 48 l
    c.repeats f (lateStreams .cqAppend f.rows (f.rows + 10)) 0 1 0
/-- Winners scaled by their row's sum (R182). -/
def execVrenorm (d a : BitVec 6) (m : BitVec 4) (l : Option (BitVec 9)) := vlateOp (.vrenorm d a m l) .harrow 11 d a l
/-- Packed element j, or the broadcast scalar, across row j (R183). -/
def execVbcast (d a : BitVec 6) (m : BitVec 4) (l : Option (BitVec 9)) := vrowOp (.vbcast d a m l) 5 d a 48 l
/-- Elements of the row by index (R183). -/
def execVperm (d a b : BitVec 6) (m : BitVec 4) (l : Option (BitVec 9)) := vrowOp (.vperm d a b m l) 5 d a b l
/-- The transpose, written at issue+rows+5 (R183). -/
def execVtrn (d a : BitVec 6) (m : BitVec 4) (l : Option (BitVec 9)) := vlateOp (.vtrn d a m l) .vwrite 5 d a l
/-- Writes the shape for bundles from the next cycle (R184). [DEDUCED: log 17] -/
def execVshape (r : BitVec 14) (n : BitVec 8) :=
  issueSyl (.vshape r n) fun x c => c.later x 2 c.seq.pos 1 (.ctrl 0 (BitVec.ofNat 64 (r.toNat + n.toNat * 2 ^ 16)))

/-- viota and vrand: the base is the whole scalar when b is 49 (R185). -/
def vbaseOp (i : Instr) (k : Nat) (d b : BitVec 6) (l : Option (BitVec 9)) : State → Host.Outcome State Fault Refusal :=
  issueSyl i fun x c =>
    let f := vflight x c i d.toNat 48 48 l
    let f : Flight := { f with y := if b = 49 then c.regs.readG (lendLow l) else 0 }
    c.repeats f (rowStreams f.rows k) (k + f.rows - 1) (lendReps (b == 49) l) 0

/-- Element indices from a base. -/
def execViota (d b : BitVec 6) (m : BitVec 4) (l : Option (BitVec 9)) := vbaseOp (.viota d b m l) 3 d b l
/-- Random words from a base. -/
def execVrand (d b : BitVec 6) (m : BitVec 4) (l : Option (BitVec 9)) := vbaseOp (.vrand d b m l) 4 d b l
/-- md := ma and mb (R186). -/
def execMand (d a b : BitVec 6) (l : Option (BitVec 9)) := vmaskOp (.mand d a b l) d a b l
/-- md := ma or mb. -/
def execMor (d a b : BitVec 6) (l : Option (BitVec 9)) := vmaskOp (.mor d a b l) d a b l
/-- md := not ma. -/
def execMnot (d a : BitVec 6) (l : Option (BitVec 9)) := vmaskOp (.mnot d a l) d a 0 l
/-- gd := the number of covered ones of ma, at issue+rows+3. -/
def execMpop (d a : BitVec 6) (l : Option (BitVec 9)) :=
  issueSyl (.mpop d a l) fun x c =>
    let f := vflight x c (.mpop d a l) d.toNat a.toNat 48 l
    c.repeats f (fun t => [{ eff := .vread, first := t, n := f.rows }]) 0 1 0

/-! ## Elements -/

/-- The lesser or greater of two floats: −0 below +0, any NaN gives the canonical NaN (R169). -/
def fminmax (m : Nat) (mx : Bool) (a b : Nat) : Nat :=
  let x := decFloat m a
  let y := decFloat m b
  if x.isNaN || y.isNaN then encFloat m 0 .ne .nan
  else if Num.lt x y then (if mx then b else a)
  else if Num.lt y x then (if mx then a else b)
  else if x.isZero && x.sign != y.sign then (if x.sign == mx then b else a)
  else a

/-- The sign bit of a float format. -/
def signBit (m : Nat) : Nat := if m = 0 then 2147483648 else 32768

/-- The bits of an integer result in format `m`. -/
def wrapInt (m : Nat) (v : Int) : Nat := (BitVec.ofInt (8 * elemSize m) v).toNat

/-- The element-wise result of R168 and R170 for one element of each source, as bits of format `m`. -/
def elemOp (i : Instr) (m : Nat) (rnd : Rnd) (ov : Word) (a b d : Nat) : Nat :=
  let w := 8 * elemSize m
  let fl := isFloat m
  let dn := rnd == .dn
  let enc := encFloat m ov rnd
  let x := decFloat m a
  let y := decFloat m b
  let s := b % w
  match i with
  | .vadd .. => if fl then enc (Num.add dn x y) else wrapInt m (decInt m a + decInt m b)
  | .vsub .. => if fl then enc (Num.add dn x y.neg) else wrapInt m (decInt m a - decInt m b)
  | .vmul .. => if fl then enc (Num.mul x y) else wrapInt m (decInt m a * decInt m b)
  | .vfma .. =>
    if fl then enc (Num.add dn (Num.mul x y) (decFloat m d)) else wrapInt m (decInt m a * decInt m b + decInt m d)
  | .vmin .. => if fl then fminmax m false a b else if decInt m b < decInt m a then b else a
  | .vmax .. => if fl then fminmax m true a b else if decInt m a < decInt m b then b else a
  | .vabs .. => if fl then (if x.isNaN then enc .nan else a % signBit m) else wrapInt m (decInt m a).natAbs
  | .vneg .. => if fl then (if x.isNaN then enc .nan else a ^^^ signBit m) else wrapInt m (-(decInt m a))
  | .vand .. => a &&& b
  | .vor .. => a ||| b
  | .vxor .. => a ^^^ b
  | .vshl .. => a * 2 ^ s % 2 ^ w
  | .vshr .. => a / 2 ^ s
  | .vsra .. => wrapInt m ((BitVec.ofNat w a).toInt / 2 ^ s)
  | .vexp .. => expOf enc x
  | .vlog .. => logOf enc x
  | .vrcp .. => rcpOf enc x
  | .vrsqrt .. => rsqrtOf enc x
  | .vtanh .. => tanhOf enc x
  | _ => 0

/-- An element of source code `src` (vcvt, vwid) as a number or an integer's number (R175, R178). -/
def srcNum (fmt alt4 w : Nat) : Num :=
  match fmt with
  | 0 => decF32 w
  | 1 => decBf16 w
  | 9 => decE4m3 w
  | 10 => decE5m2 w
  | 11 => decE2m1 alt4 w
  | m => .ofInt false (decInt m w) 0

/-- A number put into format code `m` (R177). -/
def dstBits (m : Nat) (cfg : Word) (ov : Word) (r : Rnd) (v : Num) : Nat :=
  match m with
  | 0 => encF32 r v
  | 1 => encBf16 ov r v
  | 9 => encE4m3 ov r v
  | 10 => encE5m2 ov r v
  | 11 => encE2m1 (tcAlt4 cfg).toNat (tcAlt4Use cfg) r v
  | m => encInt (isSigned m) (8 * elemSize m) (ovEntry ov (ovBit m)) r v

/-- The rounding of a vcvt element (R175, R177): its rnd field, or round.mode with 4 stochastic. -/
def cvtRnd (rnd mode word : Nat) : Rnd :=
  match rnd with
  | 0 => if mode = 4 then .sr word else rndOf mode
  | 1 => .ne
  | 2 => .rz
  | _ => .sr word

/-- A run of one element: whole bytes, or a nibble of e2m1 (`m` = 11), written where `sel` (R30, R32). -/
def elemRun (s : Space) (reg m q v : Nat) (sel : Bool) : Run :=
  if m = 11 then
    let k : Byte := if q % 2 = 0 then 0x0F else 0xF0
    { space := s, addr := reg * 16384 + q / 2,
      bytes := [(if sel then k else 0, BitVec.ofNat 8 (if q % 2 = 0 then v else v * 16))] }
  else
    let e := elemSize m
    { space := s, addr := reg * 16384 + q * e,
      bytes := (leBytes e v).map fun b => (if sel then 0xFF else 0, b) }

/-- A run of one mask bit. -/
def bitRun (reg q : Nat) (v sel : Bool) : Run :=
  let k : Byte := if sel then 1#8 <<< (q % 8) else 0
  { space := .m, addr := reg * 2048 + q / 8, bytes := [(k, if v then k else 0)] }

/-- A destination element with its bypass element. -/
def elemRuns (d byp m q v : Nat) (sel : Bool) : List Run := [elemRun .v d m q v sel, elemRun .b byp m q v true]

/-- Source element (j, i) of a format whose elements may be nibbles. -/
def Core.vsource (c : Core) (f : Flight) (r m j i : Nat) : Nat :=
  if m = 11 then
    let q := j * f.cols + i
    (c.vbyte f r (q / 2)).toNat / (if q % 2 = 0 then 1 else 16) % 16
  else c.velem f r (elemSize m) j i

/-- The included elements of row j, a masked-off one an empty position (R179). -/
def Core.rowOf (c : Core) (f : Flight) (m mask j : Nat) : List (Option Nat) :=
  (List.range f.cols).map fun i => if c.sel f mask j i then some (c.velem f f.a (elemSize m) j i) else none

/-- The combining step of vsumr (R179). -/
def sumStep (m : Nat) (ov : Word) (a b : Nat) : Nat :=
  if isFloat m then encFloat m ov .ne (Num.add false (decFloat m a) (decFloat m b))
  else wrapInt m (decInt m a + decInt m b)

/-- A row's sum; a row with every position empty gives zero. A float row of one element that is NaN is canonical. -/
def rowSum (m : Nat) (ov : Word) (l : List (Option Nat)) : Nat :=
  let v := (tree (sumStep m ov) l).getD 0
  if isFloat m && (decFloat m v).isNaN then encFloat m 0 .ne .nan else v

/-- A row's maximum (R179). -/
def rowMax (m : Nat) (l : List (Option Nat)) : Nat :=
  (tree (fun a b => if (vahead m b a).1 then b else a) l).getD
    (if m = 0 then 0xFF800000 else if m = 1 then 0xFF80 else if isSigned m then 2 ^ (8 * elemSize m - 1) else 0)

/-- A float's bits are a zero, a subnormal, an infinity or a NaN (R182). -/
def degenerate (m s : Nat) : Bool :=
  let e := if m = 0 then s / 8388608 % 256 else s / 128 % 256
  e == 0 || e == 255

/-- vrenorm's element (R182): `k` winners with sum `s`. -/
def renorm (m : Nat) (ov : Word) (rnd : Rnd) (k s a : Nat) (win : Bool) : Nat :=
  if k = 0 || !win then 0
  else if degenerate m s then encFloat m ov rnd (quotient false 1 0 k 0)
  else match decFloat m a, decFloat m s with
    | .fin sa ma ea, .fin ss ms es =>
      encFloat m ov rnd (if ma = 0 then .fin (sa != ss) 0 0 else quotient (sa != ss) ma ea ms es)
    | _, _ => encFloat m ov rnd .nan

/-- The format code and the mask of a V syllable. -/
def vfields (i : Instr) : Nat × Nat :=
  match i with
  | .vadd _ _ _ m l | .vsub _ _ _ m l | .vmul _ _ _ m l | .vfma _ _ _ m l | .vmin _ _ _ m l | .vmax _ _ _ m l
  | .vand _ _ _ m l | .vor _ _ _ m l | .vxor _ _ _ m l | .vshl _ _ _ m l | .vshr _ _ _ m l | .vsra _ _ _ m l
  | .vsel _ _ _ m l | .vcas _ _ _ m l | .vthr _ _ _ m l | .vperm _ _ _ m l | .vcmp _ _ _ _ m l
  | .vcvt _ _ _ _ m l | .vwid _ _ _ m l
  | .vabs _ _ m l | .vneg _ _ m l | .vexp _ _ m l | .vlog _ _ m l | .vrcp _ _ m l | .vrsqrt _ _ m l
  | .vtanh _ _ m l | .vsumr _ _ m l | .vmaxr _ _ m l | .vhist _ _ m l | .vrenorm _ _ m l | .vbcast _ _ m l
  | .vtrn _ _ m l | .viota _ _ m l | .vrand _ _ m l => (m.toNat, lendMask l)
  | _ => (0, 0)

/-- The bypass register of an instruction's unit (R31, R162). -/
def bypassOf (i : Instr) : Nat :=
  match i with
  | .vadd .. | .vsub .. | .vmin .. | .vmax .. | .vabs .. | .vneg .. | .viota .. => 0
  | .vand .. | .vor .. | .vxor .. | .vshl .. | .vshr .. | .vsra .. | .vsel .. | .vrand .. => 1
  | .vmul .. | .vfma .. => 2
  | .vexp .. | .vlog .. | .vrcp .. | .vrsqrt .. | .vtanh .. => 3
  | .vcvt .. | .vwid .. => 4
  | .vcmp .. | .vcas .. => 5
  | .vsumr .. | .vmaxr .. | .vrenorm .. | .vthr .. => 6
  | _ => 7

/-- What row `j` writes once read, as operation `f` sees its sources now (R161 to R186). -/
def Core.vrow (x : Ctx) (f : Flight) (j : Nat) (c : Core) : List Run :=
  let m := (vfields f.instr).1
  let mask := (vfields f.instr).2
  let e := elemSize m
  let byp := bypassOf f.instr
  let rnd := rndOf (fieldOf f.round.toNat 0 3)
  let cols := List.range f.cols
  let q (i : Nat) : Nat := j * f.cols + i
  match f.instr with
  | .vsel .. =>
    cols.flatMap fun i =>
      elemRuns f.d byp m (q i) (if c.sel f mask j i then c.velem f f.a e j i else c.velem f f.b e j i) true
  | .vcmp cc .. =>
    cols.flatMap fun i =>
      let v := vcond cc.toNat m (c.velem f f.a e j i) (c.velem f f.b e j i)
      [bitRun f.d (q i) v (c.sel f mask j i), elemRun .b 5 m (q i) (if v then 2 ^ (8 * e) - 1 else 0) true]
  | .vcas .. =>
    cols.flatMap fun i =>
      let A := (c.velem f f.a e j i, c.velem f (f.a + 1) e j i)
      let B := (c.velem f f.b e j i, c.velem f (f.b + 1) e j i)
      let swap := c.sel f mask j i && vbefore m B A
      let p := if swap then B else A
      let r := if swap then A else B
      [elemRun .v f.d m (q i) p.1 true, elemRun .v (f.d + 1) m (q i) p.2 true,
       elemRun .v (f.d + 2) m (q i) r.1 true, elemRun .v (f.d + 3) m (q i) r.2 true,
       elemRun .b 5 m (q i) p.1 true]
  | .vcvt _ _ s .. =>
    let src := cvtSrc s.toNat
    let r := fieldOf (match f.instr with | .vcvt _ _ _ _ _ l => (lendLow l).toNat | _ => 0) 4 2
    cols.flatMap fun i =>
      let word := randomWord x.la.seed (fieldOf f.round.toNat 16 16) ((f.y.toNat + q i) % 2 ^ 48)
      let v := srcNum src 0 (c.velem f f.a (elemSize src) j i)
      elemRuns f.d byp m (q i) (dstBits m f.tcfg f.ovtab (cvtRnd r (fieldOf f.round.toNat 0 3) word) v)
        (c.sel f mask j i)
  | .vwid _ _ s .. =>
    cols.flatMap fun i =>
      let w := c.vsource f f.a s.toNat j i
      elemRuns f.d byp m (q i) (dstBits m f.tcfg f.ovtab .ne (srcNum s.toNat (tcAlt4 f.tcfg).toNat w)) (c.sel f mask j i)
  | .vsumr .. => elemRuns f.d byp m j (rowSum m f.ovtab (c.rowOf f m mask j)) true
  | .vmaxr .. => elemRuns f.d byp m j (rowMax m (c.rowOf f m mask j)) true
  | .vthr .. =>
    let t := c.vpacked f f.b e j
    let n := ((c.rowOf f m mask j).filter fun v => v.elim false fun a => vcond 5 m a t).length
    elemRuns f.d byp 6 j n true
  | .vrenorm .. =>
    let row := c.rowOf f m mask j
    let s := rowSum m f.ovtab row
    let k := (row.filter Option.isSome).length
    (row.zipIdx).flatMap fun p => elemRuns f.d byp m (q p.2) (renorm m f.ovtab rnd k s (p.1.getD 0) p.1.isSome) true
  | .vbcast .. =>
    let v := c.vpacked f f.a e j
    cols.flatMap fun i => elemRuns f.d byp m (q i) v (c.sel f mask j i)
  | .vperm .. =>
    cols.flatMap fun i =>
      let p := c.velem f f.b e j i
      elemRuns f.d byp m (q i) (if p < f.cols then c.velem f f.a e j p else 0) (c.sel f mask j i)
  | .vtrn .. =>
    cols.flatMap fun i =>
      let r := i * f.rows + j
      elemRuns f.d byp m r (c.velem f f.a e j i) (c.vec.maskBit mask r)
  | .viota .. =>
    cols.flatMap fun i => elemRuns f.d byp m (q i) ((f.y.toNat + q i) % 2 ^ (8 * e)) (c.sel f mask j i)
  | .vrand .. =>
    cols.flatMap fun i =>
      elemRuns f.d byp m (q i) (randomWord x.la.seed (fieldOf f.round.toNat 16 16) ((f.y.toNat + q i) % 2 ^ 48))
        (c.sel f mask j i)
  | .mand .. => cols.map fun i => bitRun f.d (q i) (c.vec.maskBit f.a (q i) && c.vec.maskBit f.b (q i)) true
  | .mor .. => cols.map fun i => bitRun f.d (q i) (c.vec.maskBit f.a (q i) || c.vec.maskBit f.b (q i)) true
  | .mnot .. => cols.map fun i => bitRun f.d (q i) (!c.vec.maskBit f.a (q i)) true
  | _ =>
    cols.flatMap fun i =>
      elemRuns f.d byp m (q i)
        (elemOp f.instr m rnd f.ovtab (c.velem f f.a e j i) (c.velem f f.b e j i) (c.velem f f.d e j i))
        (c.sel f mask j i)

/-- vhist's counts after row j (R181). -/
def Core.histRow (f : Flight) (m mask j : Nat) (c : Core) : List Nat :=
  (f.counts.zipIdx).map fun p =>
    p.1 + ((List.range f.cols).filter fun i => c.sel f mask j i && c.velem f f.a (elemSize m) j i == p.2).length

/-- The bytes that row j of a source of `e`-byte elements takes. -/
def rowSpan (f : Flight) (e j r : Nat) : Nat × Nat × Nat := (r, j * f.cols * e, f.cols * e)

/-- The register bytes that row j reads, as (source code, first byte, length): a packed source gives one element, a
converting instruction's source has its own format, vfma adds its destination and vcas its index planes (R161, R173). -/
def vsources (f : Flight) (j : Nat) : List (Nat × Nat × Nat) :=
  let e := elemSize (vfields f.instr).1
  match f.instr with
  | .vbcast .. => [(f.a, j * e, e)]
  | .vthr .. => [rowSpan f e j f.a, (f.b, j * e, e)]
  | .vcvt _ _ s .. => [rowSpan f (elemSize (cvtSrc s.toNat)) j f.a]
  | .vwid _ _ s .. =>
    if s = 11 then [(f.a, j * f.cols / 2, (j * f.cols + f.cols - 1) / 2 - j * f.cols / 2 + 1)]
    else [rowSpan f (elemSize s.toNat) j f.a]
  | .vfma .. => [rowSpan f e j f.a, rowSpan f e j f.b, rowSpan f e j f.d]
  | .vcas .. => [f.a, f.a + 1, f.b, f.b + 1].map (rowSpan f e j)
  | .mand .. | .mor .. | .mnot .. | .mpop .. => []
  | _ => [rowSpan f e j f.a, rowSpan f e j f.b]

/-- The mask bits that row j reads, as (mask, first bit, length) (R163, R183, R186). -/
def vmasks (f : Flight) (j : Nat) : List (Nat × Nat × Nat) :=
  match f.instr with
  | .mand .. | .mor .. => [(f.a, j * f.cols, f.cols), (f.b, j * f.cols, f.cols)]
  | .mnot .. | .mpop .. => [(f.a, j * f.cols, f.cols)]
  | .vtrn .. => (List.range f.cols).map fun i => ((vfields f.instr).2, i * f.rows + j, 1)
  | i => [((vfields i).2, j * f.cols, f.cols)]

/-- The units of the vector file, the bypass registers and the masks that row j reads (R304, R305). -/
def vunits (f : Flight) (j : Nat) : List (Nat × List Nat) :=
  let l := ((vsources f j).flatMap fun p => regUnits p.1 p.2.1 p.2.2) ++
    (vmasks f j).flatMap fun p => maskUnits p.1 p.2.1 p.2.2
  [(1, (l.filter fun p => p.1 == 1).flatMap (·.2)), (6, (l.filter fun p => p.1 == 6).flatMap (·.2))]

/-- VECTOR_ROW_READ: reads row j of the sources and the mask and holds what the row will write (R161). A unit with an
uncorrectable error delivers nothing (R66, R304), and one that its own rows have written is checked as it stood before (R13).
-/
def Core.vread (x : Ctx) (f : Flight) (j : Nat) (c : Core) : Core :=
  let r := (c.busy 1).seenBy f fun c => c.readArrays x (f.trap 0 0 0 j 0) (vunits f j)
  let c := r.1
  if !r.2 then c
  else match f.instr with
    | .mpop d _ _ =>
      let n := f.len + ((List.range f.cols).filter fun i => c.vec.maskBit f.a (j * f.cols + i)).length
      if j + 1 = f.rows then
        let p : Pend := ⟨f.issue + f.rows + 3, f.seqno, 2, f.bundle, f.pos, .g d (BitVec.ofNat 64 n)⟩
        { c with pends := c.pends ++ [p] }
      else c.setFlight { f with len := n }
    | .vhist b _ m l =>
      let f : Flight := if j = 0 then { f with counts := List.replicate (b.toNat + 1) 0 } else f
      c.setFlight { f with counts := c.histRow f m.toNat (lendMask l) j }
    | .vrenorm _ _ m l =>
      let row := c.rowOf f m.toNat (lendMask l) j
      let bad := row.any Option.isSome && degenerate m.toNat (rowSum m.toNat f.ovtab row)
      c.setFlight { f with data := f.data ++ [(j, c.vrow x f j)], degen := f.degen + (if bad then 1 else 0) }
    | _ => c.setFlight { f with data := f.data ++ [(j, c.vrow x f j)] }

/-- The runs held for row `k`. -/
def Flight.rowData (f : Flight) (k : Nat) : List Run := (f.data.filter fun p => p.1 == k).flatMap fun p => p.2

/-- VECTOR_ROW_WRITE: row k's results are written (R162); vtrn's rows are all written at once. -/
def Core.vwrite (f : Flight) (k : Nat) (c : Core) : Core :=
  let rs := match f.instr with
    | .vtrn .. => f.data.flatMap fun p => p.2
    | _ => f.rowData k
  ((c.setFlight { f with data := f.data.filter fun p => p.1 != k }).putRuns f.uid rs).busy 1

/-- HARROW_RESULT_WRITE: every result is written, and degenerate rows are counted (R179, R182). -/
def Core.harrow (f : Flight) (c : Core) : Core :=
  let c := (c.putRuns f.uid (f.data.flatMap fun p => p.2)).busy 1
  { c with regs := { c.regs with degen := BitVec.ofNat 16 (min (c.regs.degen.toNat + f.degen) 0xFFFF) } }

/-- COUNT_QUEUE_APPEND: the counts enter the count queue in bin order, or, with too little room, none does (R181). -/
def Core.cqAppend (x : Ctx) (f : Flight) (c : Core) : Core :=
  if 64 < c.q.cq.length + f.counts.length then c.raise x (f.trap 0x0B 4 0 0 0)
  else
    let c := c.writeCells 6 ((List.range f.counts.length).map fun k => cqCell (c.q.cqHead + c.q.cq.length + k))
    { c with q := { c.q with cq := c.q.cq ++ f.counts.map fun n => BitVec.ofNat 16 (min n 0xFFFF) } }

/-- Reads row j of a vector instruction's sources and mask. -/
def execVectorRowRead (u j : Nat) := coreEvent u j fun x f k c => c.vread x f k
/-- Writes a destination row. -/
def execVectorRowWrite (u j : Nat) := coreEvent u j fun _ f k c => c.vwrite f k
/-- Writes a harrow instruction's results. -/
def execHarrowResultWrite (u j : Nat) := coreEvent u j fun _ f _ c => c.harrow f
/-- Appends a histogram to the count queue. -/
def execCountQueueAppend (u j : Nat) := coreEvent u j fun x f _ c => c.cqAppend x f

end Sys2Proof.Machine
end

