-- ==== Sys2Proof/Machine/Matrix.lean ====
section
/-!
DEFINITION. Class M (R187 to R205): weight loads, passes, routing by tag, cell operations, gradients, drains and the
miss list. A pass is one operation in flight that reads a row at issue+2+ρ(j) and updates at issue+140+ρ(j) (R189).
-/

namespace Sys2Proof.Machine

/-! ## The array's state (R187) -/

/-- Where the byte of slot `s`, bank `b`, K-row `k`, column `q` of the bank stands among the weights. -/
def weightKey (s b k q : Nat) : Nat := ((s * 8 + b) * 128 + k) * 32 + q

/-- Where the scale of slot `s`, bank `b`, column `q`, block `n` stands among the scales. -/
def scaleKey (s b q n : Nat) : Nat := ((s * 8 + b) * 32 + q) * 4 + n

/-- The expert field of a descriptor. -/
def descExpert (d : BitVec 32) : Nat := fieldOf d.toNat 0 8

/-- The fmt field of a descriptor. -/
def descFmt (d : BitVec 32) : Nat := fieldOf d.toNat 8 3

/-- The alt4 field of a descriptor. -/
def descAlt4 (d : BitVec 32) : Nat := fieldOf d.toNat 12 8

/-- A descriptor from its fields. -/
def mkDesc (e fmt : Nat) (loading : Bool) (alt4 : Nat) : BitVec 32 :=
  BitVec.ofNat 32 (e + fmt * 256 + loading.toNat * 2048 + alt4 * 4096)

/-- The descriptor of an empty slot. -/
def emptyDesc : BitVec 32 := mkDesc 0xFF 7 false 0

/-- The array with the descriptor of bank `b`, slot `s` replaced. -/
def ArrayState.setDesc (b s : Nat) (d : BitVec 32) (a : ArrayState) : ArrayState :=
  if h : 4 * b + s < 32 then { a with desc := a.desc.set (4 * b + s) d } else a

/-- A memory without the cells from `lo` to `hi - 1`: they read as nothing ever written. -/
def Mem.clear (lo hi : Nat) (m : Mem) : Mem := m.filter fun e => !(decide (lo ≤ e.1) && decide (e.1 < hi))

/-- An empty slot: its descriptor, zero weights and scales 0x7F (R187). [DEDUCED: log 92] -/
def ArrayState.empty (b s : Nat) (a : ArrayState) : ArrayState :=
  let a := a.setDesc b s emptyDesc
  { a with
    weight := a.weight.clear (weightKey s b 0 0) (weightKey s b 0 0 + 4096)
    scale := a.scale.clear (scaleKey s b 0 0) (scaleKey s b 0 0 + 128) }

/-- The other slot of a pair. -/
def pairOf (s : Nat) : Nat := if s % 2 = 0 then s + 1 else s - 1

/-- A descriptor holds half of a bf16 pair. -/
def isHalf (d : BitVec 32) : Bool := descFmt d == 4 || descFmt d == 5

/-- The scale of a column's block as the slot gives it; an empty slot's is 2^0. -/
def ArrayState.scaleOf (a : ArrayState) (b s q n : Nat) : Nat :=
  if descFmt (a.descOf b s) = 7 then 127 else (a.scale.get 0x7F (scaleKey s b q n)).toNat

/-- The bits of a weight of a slot; an empty slot's are zero (R188). -/
def ArrayState.weightBits (a : ArrayState) (b s k q : Nat) : Nat :=
  let w (s : Nat) : Nat := (a.weight.get 0 (weightKey s b k q)).toNat
  match descFmt (a.descOf b s) with
  | 7 => 0
  | 4 => w s + 256 * w (s + 1)
  | _ => w s

/-- The value of a weight of a slot (R187). -/
def ArrayState.weightNum (a : ArrayState) (b s k q : Nat) : Num :=
  let d := a.descOf b s
  let w := a.weightBits b s k q
  match descFmt d with
  | 0 => decE4m3 w
  | 1 => decE5m2 w
  | 2 => decE2m1 (descAlt4 d) w
  | 4 => decBf16 w
  | _ => .fin false 0 0

/-- The value of a byte in two's complement. -/
def i8Val (w : Nat) : Int := (BitVec.ofNat 8 w).toInt

/-! ## The descriptors' units (R304, R305, R307) -/

/-- The descriptors of slots `ss` of banks `bs` are read. -/
def Core.descRead (x : Ctx) (t : TrapRec) (bs ss : List Nat) (c : Core) : Core × Bool :=
  c.readUnits x t 4 (bs.flatMap fun b => ss.map fun s => descCell b s / 8)

/-- The descriptor of bank `b`, slot `s` has been written; one unit holds it with its pair's. -/
def Core.descWritten (b s : Nat) (c : Core) : Core := c.writeUnits 4 (descCell b s) 4

/-- The weights and scales of bank `b`, slot `s` have been emptied. -/
def Core.slotEmptied (b s : Nat) (c : Core) : Core :=
  (c.writeUnits 4 (weightKey s b 0 0) 4096).writeUnits 4 (131072 + scaleKey s b 0 0) 128

/-! ## Weight instructions -/

/-- The slots a wld writes in bank `b` at its issue (R196): the slot, its pair in bf16, and a broken pair emptied.
[DEDUCED: log 92] -/
def ArrayState.beginLoad (e s fmt alt4 b : Nat) (a : ArrayState) : ArrayState :=
  let other := a.descOf b (pairOf s)
  let a := a.setDesc b s (mkDesc e fmt true alt4)
  if fmt = 4 then a.setDesc b (s + 1) (mkDesc e 5 true 0)
  else if isHalf other then a.empty b (pairOf s)
  else a

/-- The units of array 4 that the descriptors of a wld take at its issue, and those of a pair that it breaks. -/
def Core.loadBegun (s fmt : Nat) (bs : List Nat) (before : ArrayState) (c : Core) : Core :=
  bs.foldl (fun c b =>
    let c := c.descWritten b s
    if fmt != 4 && isHalf (before.descOf b (pairOf s)) then c.slotEmptied b (pairOf s) else c) c

/-- A weight load (R196): descriptors at issue, scales at issue+2, K-row k at issue+2+k, ready at issue+134. Descriptors that
cannot be corrected begin none (R304). -/
def execWld (t : BitVec 4) (s : BitVec 2) (b e : BitVec 8) :=
  issueSyl (.wld t s b e) fun x c =>
    let cfg := c.regs.tcfgOf t
    let bs := banksOf b
    let r := c.descRead x { c.preciseTrap (.wld t s b e) 0x0D 0 with kind := 1 } bs [s.toNat]
    let c := r.1
    if !r.2 then c else
    let f : Flight := { c.newFlight x (.wld t s b e) 3 with
      a := t.toNat, b := s.toNat, tcfg := cfg, len := 128 * bs.length,
      streams := [{ eff := .wldPop, first := x.now + 2, n := 1 }, { eff := .wldK, first := x.now + 2, n := 128 },
        { eff := .loadEnd, first := x.now + 134, n := 1 }] }
    let arr := bs.foldl (fun a b => a.beginLoad e.toNat s.toNat (tcFormat cfg) (tcAlt4 cfg).toNat b) c.arr
    (({ c with arr := arr }).loadBegun s.toNat (tcFormat cfg) bs c.arr).fly f

/-- wset and wclr take effect at issue+1 (R197). -/
def Core.descOp (x : Ctx) (i : Instr) (c : Core) : Core :=
  c.fly { c.newFlight x i 3 with streams := [{ eff := .desc, first := x.now + 1, n := 1 }] }

/-- Renames the expert of a slot in the selected banks (R197). -/
def execWset (s : BitVec 2) (b e : BitVec 8) := issueSyl (.wset s b e) fun x c => c.descOp x (.wset s b e)
/-- Empties a slot of the selected banks (R197). -/
def execWclr (s : BitVec 2) (b : BitVec 8) := issueSyl (.wclr s b) fun x c => c.descOp x (.wclr s b)

/-- Pops of `n` scales in order; a pop that finds the queue empty faults (R34). [DEDUCED: log 91, 126] -/
def Core.popScales (x : Ctx) (f : Flight) (n k : Nat) (c : Core) : Core × Option (List Byte) :=
  let got := c.q.sq.take n
  let short := decide (got.length < n)
  let r := c.readUnits x (f.trap 0 0 0 k 0) 6 ((List.range got.length).map fun i => sqCell (c.q.sqHead + i) / 8)
  let c := r.1
  let c : Core := { c with q := { c.q with sq := c.q.sq.drop n, sqHead := c.q.sqHead + got.length } }
  if short then (c.raise x (if c.sqldFlying then f.trap 4 4 0 k 0 else f.trap 0x0B 1 0 k 0), none)
  else if r.2 then (c, some got)
  else (c, none)

/-- The slot and banks of a wld, wset or wclr. -/
def wfields (i : Instr) : Nat × List Nat :=
  match i with
  | .wld _ s b _ | .wset s b _ => (s.toNat, banksOf b)
  | .wclr s b => (s.toNat, banksOf b)
  | _ => (0, [])

/-- The scales of a wld, bank ascending, column, block; formats without scales keep 0x7F (R196). -/
def Core.wldScales (x : Ctx) (f : Flight) (c : Core) : Core :=
  let s := (wfields f.instr).1
  let bs := (wfields f.instr).2
  if 2 < tcFormat f.tcfg then
    let sc := bs.foldl (fun m b =>
      let m := Mem.clear (scaleKey s b 0 0) (scaleKey s b 0 0 + 128) m
      if tcFormat f.tcfg = 4 then Mem.clear (scaleKey (s + 1) b 0 0) (scaleKey (s + 1) b 0 0 + 128) m else m) c.arr.scale
    bs.foldl (fun c b =>
      let c := c.writeUnits 4 (131072 + scaleKey s b 0 0) 128
      if tcFormat f.tcfg = 4 then c.writeUnits 4 (131072 + scaleKey (s + 1) b 0 0) 128 else c)
      { c with arr := { c.arr with scale := sc } }
  else
    let r := c.popScales x f f.len 0
    match r.2 with
    | none => r.1
    | some l =>
      let sc := (bs.zipIdx).foldl (fun m p =>
        Mem.putAll 0x7F m (scaleKey s p.1 0 0) ((l.drop (128 * p.2)).take 128)) r.1.arr.scale
      bs.foldl (fun c b => c.writeUnits 4 (131072 + scaleKey s b 0 0) 128) { r.1 with arr := { r.1.arr with scale := sc } }

/-- K-row `k` of a wld: the source row read and the cells written at one instant (R196). -/
def Core.wldRow (x : Ctx) (f : Flight) (k : Nat) (c : Core) : Core :=
  let s := (wfields f.instr).1
  let bs := (wfields f.instr).2
  let r := c.readUnits x (f.trap 0 0 0 k 0) 2 (unitsOf (f.a * 32768 + k * tcRowBytes f.tcfg) (tcRowBytes f.tcfg))
  let c := r.1
  if !r.2 then c
  else
    let cells := (bs.zipIdx).flatMap fun p => (List.range 32).map fun q =>
      (p.1, q, c.tileElem f.a f.tcfg k (32 * p.2 + q))
    let w := cells.foldl (fun m p =>
      let m := Mem.put 0 m (weightKey s p.1 k p.2.1) (BitVec.ofNat 8 p.2.2)
      if tcFormat f.tcfg = 4 then Mem.put 0 m (weightKey (s + 1) p.1 k p.2.1) (BitVec.ofNat 8 (p.2.2 / 256)) else m)
      c.arr.weight
    let c : Core := { c with arr := { c.arr with weight := w } }
    bs.foldl (fun c b =>
      let c := c.writeUnits 4 (weightKey s b k 0) 32
      if tcFormat f.tcfg = 4 then c.writeUnits 4 (weightKey (s + 1) b k 0) 32 else c) c

/-- Clears the loading bit of a slot. -/
def ArrayState.loaded (b s : Nat) (a : ArrayState) : ArrayState := a.setDesc b s (a.descOf b s &&& ~~~0x800#32)

/-- The loading bits clear in every descriptor a wld wrote (R196), those that cannot be corrected apart (R304). -/
def Core.loadEnd (x : Ctx) (f : Flight) (c : Core) : Core :=
  let s := (wfields f.instr).1
  (wfields f.instr).2.foldl (fun c b =>
    let r := c.descRead x (f.trap 0 0 0 0 0) [b] [s]
    let a := ArrayState.loaded b s r.1.arr
    if r.2 then
      ({ r.1 with arr := if tcFormat f.tcfg = 4 then ArrayState.loaded b (s + 1) a else a }).descWritten b s
    else r.1) c

/-- A slot's expert renamed. -/
def ArrayState.rename (b s e : Nat) (a : ArrayState) : ArrayState :=
  let d := a.descOf b s
  a.setDesc b s (mkDesc e (descFmt d) (descLoading d) (descAlt4 d))

/-- A slot changed by wset, or emptied by wclr (R197). -/
def ArrayState.redescribe (i : Instr) (b s : Nat) (a : ArrayState) : ArrayState :=
  match i with
  | .wset _ _ e => a.rename b s e.toNat
  | _ => a.empty b s

/-- wset and wclr change the selected descriptors, and the other half of a bf16 pair (R197), those that cannot be corrected
apart (R304). -/
def Core.descUpdate (x : Ctx) (f : Flight) (c : Core) : Core :=
  let s := (wfields f.instr).1
  (wfields f.instr).2.foldl (fun c b =>
    let r := c.descRead x (f.trap 0 0 0 0 0) [b] [s]
    let ss := if isHalf (r.1.arr.descOf b s) then [s, pairOf s] else [s]
    let c : Core := { r.1 with arr := ss.foldl (fun a s => a.redescribe f.instr b s) r.1.arr }
    if !r.2 then r.1
    else match f.instr with
      | .wset .. => c.descWritten b s
      | _ => ss.foldl (fun c s => c.slotEmptied b s) (c.descWritten b s)) c

/-- The scale pops of a weight load. -/
def execWldScalePop (u j : Nat) := coreEvent u j fun x f _ c => c.wldScales x f
/-- A K-row of a weight load. -/
def execWldKrowWrite (u j : Nat) := coreEvent u j fun x f k c => c.wldRow x f k
/-- The end of a slot's loading. -/
def execSlotLoadingEnd (u j : Nat) := coreEvent u j fun x f _ c => c.loadEnd x f
/-- A wset's or wclr's change of descriptors. -/
def execDescriptorUpdate (u j : Nat) := coreEvent u j fun x f _ c => c.descUpdate x f

/-! ## Passes -/

/-- The row instants of a format as a ratio of the row (R189). -/
def rhoRatio (fmt : Nat) : Nat × Nat :=
  match fmt with
  | 2 => (1, 2)
  | 4 => (2, 1)
  | _ => (1, 1)

/-- Puts a pass in flight (R189, R198, R199): the configurations, the pattern and the named slot are taken at issue. -/
def Core.pass (x : Ctx) (i : Instr) (d a b : BitVec 6) (s : BitVec 2) (c : Core) : Core :=
  let ca := c.regs.tcfgOf (tileNo a)
  let m := tcRows ca
  let r := rhoRatio (tcFormat ca)
  c.fly { c.newFlight x i 3 with
    rows := m, d := d.toNat, a := a.toNat, b := b.toNat, len := s.toNat,
    tcfg := ca, tcfg2 := c.regs.tcfgOf (tileNo b), pat := c.regs.cellpat,
    streams := [{ eff := .arrRead, first := x.now + 2, n := m, mul := r.1, div := r.2 },
      { eff := .arrUpdate, first := x.now + 140, n := m, mul := r.1, div := r.2 }] }

/-- A pass that adds to an accumulator (R198). -/
def execMma (d t : BitVec 6) (s : BitVec 2) := issueSyl (.mma d t s) fun x c => c.pass x (.mma d t s) d t t s
/-- A pass that starts an accumulator anew (R195, R198). -/
def execMmaz (d t : BitVec 6) (s : BitVec 2) := issueSyl (.mmaz d t s) fun x c => c.pass x (.mmaz d t s) d t t s
/-- A gradient pass (R199). -/
def execMmag (a g : BitVec 6) (s : BitVec 2) := issueSyl (.mmag a g s) fun x c => c.pass x (.mmag a g s) 2 a g s

/-- The slot that a row of tag `t` uses in bank `b` (R192); none is a miss. -/
def ArrayState.resolve (a : ArrayState) (bf : Bool) (t named b : Nat) : Option Nat :=
  if t = 0xFF then some named
  else (List.range 4).find? fun s =>
    descExpert (a.descOf b s) == t && (!bf || descFmt (a.descOf b s) == 4)

/-- The pairing of an activation format with a slot (R188). -/
def ArrayState.pairs (a : ArrayState) (fmt b s : Nat) : Bool :=
  let g := descFmt (a.descOf b s)
  match fmt with
  | 0 | 1 => g == 0 || g == 1 || g == 7
  | 2 => g == 2 || g == 7
  | 3 => g == 3 || g == 7
  | _ => (g == 4 && descFmt (a.descOf b (s + 1)) == 5) || (g == 7 && descFmt (a.descOf b (s + 1)) == 7)

/-- A miss of row `j` in bank `b` (R38, R193). -/
def Core.miss (x : Ctx) (f : Flight) (j b : Nat) (c : Core) : Core :=
  let c : Core := { c with regs := { c.regs with
    misses := if c.regs.misses = 0xFFFF then 0xFFFF else c.regs.misses + 1 } }
  if 64 ≤ c.q.miss.length then c.raise x (f.trap 0x0C 1 0 (j + 256 * b) 0)
  else
    let c := c.writeUnits 6 (missCell c.q.miss.length) 2
    let c : Core := { c with q := { c.q with miss := c.q.miss ++ [BitVec.ofNat 11 (j + 256 * b)] } }
    if x.la.precise then c.raise x (f.trap 0x0C 2 0 (j + 256 * b) 0) else c

/-- What resolving a row has come to: the core, the slots of the banks so far, and whether a check failed. -/
structure Routing where
  core : Core
  slots : List (Option Nat) := []
  failed : Bool := false
deriving DecidableEq, Repr

/-- Bank `b`'s resolution of row `j` (R192, R193); `weights` makes the loading and pairing checks (R188, R199). A bank whose
check fails ends the row: the misses of the banks below it stand, and the banks above it are not resolved.
[DEDUCED: log 91] -/
def Routing.bank (x : Ctx) (f : Flight) (j t : Nat) (weights : Bool) (r : Routing) (b : Nat) : Routing :=
  let bf := tcFormat f.tcfg == 4
  let a := r.core.arr
  if r.failed then r
  else match a.resolve bf t f.len b with
    | none => { r with core := r.core.miss x f j b, slots := r.slots ++ [none] }
    | some s =>
      if weights && (descLoading (a.descOf b s) || (bf && descLoading (a.descOf b (s + 1)))) then
        { r with core := r.core.raise x (f.trap 4 0x0C 0 j 0), failed := true }
      else if weights && !a.pairs (tcFormat f.tcfg) b s then
        { r with core := r.core.raise x (f.trap 4 0x0D 0 j 0), failed := true }
      else { r with slots := r.slots ++ [some s] }

/-- A value times the power of two of a scale; 0xFF is the NaN scale (R73). -/
def scaledBy (e : Nat) (v : Num) : Num := if e = 0xFF then .nan else v.scale (e - 127)

/-- The exact sum of some numbers; −0 is the sum's neutral element (R78). -/
def numSum (l : List Num) : Num := l.foldl (Num.add false) (.fin true 0 0)

/-- The exact maximum or minimum of some numbers, the first of equals; any NaN makes it NaN (R194). [DEDUCED: log 93] -/
def numSel (mx : Bool) (l : List Num) : Num :=
  match l with
  | [] => .nan
  | a :: l => l.foldl (fun v y =>
      if v.isNaN || y.isNaN then .nan else if (if mx then Num.lt v y else Num.lt y v) then y else v) a

/-- The same of integers. [DEDUCED: log 93] -/
def intSel (mx : Bool) (l : List Int) : Int :=
  match l with
  | [] => 0
  | a :: l => l.foldl (fun v y => if mx then max v y else min v y) a

/-- A number rounded to f32 by nearest-even. -/
def toF32 (v : Num) : Num := decF32 (encF32 .ne v)

/-- The f32 sum of the canonical tree (R86, R87). -/
def f32Tree (l : List Num) : Num := (tree (fun a b => toF32 (Num.add false a b)) (l.map some)).getD (.fin false 0 0)

/-- A column's term of a float pass: activations and weights already scaled (R84, R86, R194). -/
def floatTerm (bf : Bool) (code : Nat) (as ws : List Num) : ColTerm :=
  let ps := as.zip ws
  match code with
  | 0 =>
    if bf then .addF (f32Tree (ps.map fun p => toF32 (Num.mul p.1 p.2))) else .addF (numSum (ps.map fun p => Num.mul p.1 p.2))
  | 1 =>
    let d := ps.map fun p => (Num.add false p.1 p.2.neg).abs
    if bf then .addF (f32Tree (d.map toF32)) else .addF (numSum d)
  | 2 => .selF true (toF32 (numSel true (ps.map fun p => Num.add false p.1 p.2)))
  | _ => .selF false (toF32 (numSel false (ps.map fun p => Num.add false p.1 p.2)))

/-- A column's term of an i8 pass (R85, R194). -/
def intTerm (code : Nat) (as ws : List Int) : ColTerm :=
  let ps := as.zip ws
  match code with
  | 0 => .addI (ps.map fun p => p.1 * p.2).sum
  | 1 => .addI (ps.map fun p => ((p.1 - p.2).natAbs : Int)).sum
  | 2 => .selI true (intSel true (ps.map fun p => p.1 + p.2))
  | _ => .selI false (intSel false (ps.map fun p => p.1 + p.2))

/-- The cell-op code of row `j` (R194). -/
def cellCode (pat : Word) (j : Nat) : Nat := fieldOf pat.toNat (2 * (j % 16)) 2

/-- Row `j` of a tile as scaled numbers; `sc` gives a block's scale. -/
def Core.tileNums (c : Core) (t : Nat) (cfg : Word) (j n : Nat) (sc : Nat → Nat) : List Num :=
  (List.range n).map fun k => scaledBy (sc (k / 32)) (tileNum (tcFormat cfg) (tcAlt4 cfg).toNat (c.tileElem t cfg j k))

/-- The scale of block `n` among popped scales; formats without scales have 2^0. -/
def popped (l : List Byte) (n : Nat) : Nat := (l.getD n 0x7F).toNat

/-- The terms of row `j` for the 256 columns (R194). -/
def Core.rowTerms (f : Flight) (j : Nat) (sc : List Byte) (slots : List (Option Nat)) (c : Core) : List ColTerm :=
  let fmt := tcFormat f.tcfg
  let code := cellCode f.pat j
  let ks := List.range 128
  let as := c.tileNums f.a f.tcfg j 128 (popped sc)
  let ai := ks.map fun k => i8Val (c.tileElem f.a f.tcfg j k)
  (slots.zipIdx).flatMap fun p => (List.range 32).map fun q =>
    match p.1 with
    | none => .miss
    | some s =>
      if fmt = 3 then intTerm code ai (ks.map fun k => i8Val (c.arr.weightBits p.2 s k q))
      else floatTerm (fmt == 4) code as
        (ks.map fun k => scaledBy (if fmt = 4 then 127 else c.arr.scaleOf p.2 s q (k / 32)) (c.arr.weightNum p.2 s k q))

/-- The scales a row pops (R189, R199). -/
def rowScales (f : Flight) : Nat :=
  if 2 < tcFormat f.tcfg then 0
  else match f.instr with
    | .mmag .. => 12
    | _ => 4

/-- The 64-bit units of array 4 that a row uses of the slots that its banks resolved to: weights, and scales where the
format has them; of a bf16 pair both halves, of an empty slot none (R187, R188, R192, R304). [DEDUCED: log 143] -/
def ArrayState.slotUnits (a : ArrayState) (slots : List (Option Nat)) : List Nat :=
  (slots.zipIdx).flatMap fun p => p.1.elim [] fun s =>
    let weights (s : Nat) : List Nat := unitsOf (weightKey s p.2 0 0) 4096
    match descFmt (a.descOf p.2 s) with
    | 7 => []
    | 4 => weights s ++ weights (s + 1)
    | 3 => weights s
    | _ => weights s ++ unitsOf (131072 + scaleKey s p.2 0 0) 128

/-- The tile units that row `j` of a pass reads, its tag byte included. -/
def passUnits (f : Flight) (j : Nat) : List Nat :=
  unitsOf (f.a * 32768 + j * tcRowBytes f.tcfg) (tcRowBytes f.tcfg) ++
  (if tcTags f.tcfg then unitsOf (524288 + f.a * 256 + j) 1 else []) ++
  match f.instr with
  | .mmag .. => unitsOf (f.b * 32768 + j * tcRowBytes f.tcfg2) (tcRowBytes f.tcfg2)
  | _ => []

/-- The descriptors that resolving a row of tag `t` reads: the named slot's, or those of every slot (R192, R304).
[DEDUCED: log 143] -/
def routeSlots (bf : Bool) (t named : Nat) : List Nat :=
  if t = 0xFF then (if bf then [named, named + 1] else [named]) else List.range 4

/-- ARRAY_ROW_READ: row `j` is read, its scales popped and its tag resolved in every bank (R189, R192, R193). A check
that fails suppresses the row (R66), and one whose tile units or tag cannot be corrected is resolved nowhere (R304).
[DEDUCED: log 91, 133] -/
def Core.arrRead (x : Ctx) (f : Flight) (j : Nat) (c : Core) : Core :=
  let u := c.readUnits x (f.trap 0 0 0 j 0) 2 (passUnits f j)
  let r := u.1.popScales x f (rowScales f) j
  match r.2 with
  | none => r.1
  | some sc =>
    if !u.2 then r.1 else
    let t := if tcTags f.tcfg then (r.1.vec.tag.get 0 (f.a * 256 + j)).toNat else 0xFF
    let grad := match f.instr with
      | .mmag .. => true
      | _ => false
    let d := r.1.descRead x (f.trap 0 0 0 j 0) (List.range 8) (routeSlots (tcFormat f.tcfg == 4) t f.len)
    let route := (List.range 8).foldl (Routing.bank x f j t (!grad)) { core := d.1, failed := !d.2 }
    let c := route.core
    if route.failed then c
    else if grad then
      let g : GradRow := {
        slots := route.slots
        a := c.tileNums f.a f.tcfg j 128 (popped sc)
        g := c.tileNums f.b f.tcfg2 j 256 (popped (sc.drop 4)) }
      c.setFlight { f with grads := f.grads ++ [(j, g)] }
    else
      let w := c.readUnits x (f.trap 0 0 0 j 0) 4 (c.arr.slotUnits route.slots)
      if w.2 then w.1.setFlight { f with terms := f.terms ++ [(j, w.1.rowTerms f j sc route.slots)] } else w.1

/-- An element of the accumulator store updated by a term (R84 to R86, R194). -/
def updateElem (old : Nat) (t : ColTerm) : Nat :=
  match t with
  | .miss => old
  | .addF v => encF32 .ne (Num.add false (decF32 old) v)
  | .selF mx v =>
    let a := decF32 old
    if a.isNaN || v.isNaN then encF32 .ne .nan
    else if (if mx then Num.lt a v else Num.lt v a) then encF32 .ne v
    else old
  | .addI v => (BitVec.ofInt 32 ((BitVec.ofNat 32 old).toInt + v)).toNat
  | .selI mx v =>
    let a := (BitVec.ofNat 32 old).toInt
    (BitVec.ofInt 32 (if mx then max a v else min a v)).toNat

/-- The starting value of an mmaz row (R195). -/
def startElem (int : Bool) (code : Nat) : Nat :=
  match code with
  | 2 => if int then 0x80000000 else 0xFF800000
  | 3 => if int then 0x7FFFFFFF else 0x7F800000
  | _ => 0

/-- Four bytes of the accumulator store as bits. -/
def ArrayState.accBits (a : ArrayState) (addr : Nat) : Nat := leNat (a.acc.bytes 0 addr 4)

/-- The store with an element's bits replaced. -/
def ArrayState.setAcc (addr v : Nat) (a : ArrayState) : ArrayState :=
  { a with acc := Mem.putAll 0 a.acc addr (leBytes 4 v) }

/-- The update of row `j` of an mma or mmaz (R194, R195); elements that cannot be corrected suppress it,
and those of a bank that missed are not written (R193, R304, R307). -/
def Core.accUpdate (x : Ctx) (f : Flight) (j : Nat) (zero : Bool) (ts : List ColTerm) (c : Core) : Core :=
  let base := f.d * 262144 + j * 1024
  let hit := (ts.zipIdx).filterMap fun p => if !zero && p.1 = .miss then none else some (base + 4 * p.2)
  let r := if zero then (c, true) else c.readUnits x (f.trap 0 0 0 j 0) 3 (hit.map (· / 8))
  if !r.2 then r.1
  else
  let c := r.1
  let start := startElem (tcFormat f.tcfg == 3) (cellCode f.pat j)
  let arr := (ts.zipIdx).foldl (fun a p =>
    let old := if zero then start else a.accBits (base + 4 * p.2)
    if zero || p.1 != .miss then a.setAcc (base + 4 * p.2) (updateElem old p.1) else a) c.arr
  ({ c with arr := arr }).writeCells 3 hit

/-- The update of row `j` of an mmag (R199): one rounding for each element. -/
def Core.gradUpdate (x : Ctx) (f : Flight) (j : Nat) (g : GradRow) (c : Core) : Core :=
  let hit := (g.slots.zipIdx).flatMap fun p => p.1.elim [] fun s => unitsOf ((4 * p.2 + s) * 16384) 16384
  let r := c.readUnits x (f.trap 0 0 0 j 0) 3 hit
  if !r.2 then r.1
  else
  let c := r.1
  let arr := (g.slots.zipIdx).foldl (fun a p => match p.1 with
    | none => a
    | some s => (g.a.zipIdx).foldl (fun a k => (List.range 32).foldl (fun a q =>
        let addr := (4 * p.2 + s) * 16384 + 4 * (32 * k.2 + q)
        let t := Num.mul k.1 (g.g.getD (32 * p.2 + q) .nan)
        a.setAcc addr (updateElem (a.accBits addr) (.addF t))) a) a) c.arr
  let c : Core := { c with arr := arr }
  (g.slots.zipIdx).foldl (fun c p => match p.1 with
    | none => c
    | some s => c.writeUnits 3 ((4 * p.2 + s) * 16384) 16384) c

/-- ARRAY_ROW_UPDATE: the terms of row `j` are added, and the last update of an mmaz zeroes the rows beyond it
(R194, R195, R199). A row that was not read contributes nothing. -/
def Core.arrUpdate (x : Ctx) (f : Flight) (j : Nat) (c : Core) : Core :=
  let c := c.setFlight { f with
    terms := f.terms.filter fun p => p.1 != j, grads := f.grads.filter fun p => p.1 != j }
  match f.instr with
  | .mmag .. =>
    match f.grads.find? fun p => p.1 == j with
    | some p => c.gradUpdate x f j p.2
    | none => c
  | i =>
    let zero := match i with
      | .mmaz .. => true
      | _ => false
    let c := match f.terms.find? fun p => p.1 == j with
      | some p => c.accUpdate x f j zero p.2
      | none => c
    if zero && j + 1 == f.rows then
      let lo := f.d * 262144 + f.rows * 1024
      let hi := (f.d + 1) * 262144
      ({ c with arr := { c.arr with acc := c.arr.acc.clear lo hi } }).writeUnits 3 lo (hi - lo)
    else c

/-- Reads a row of a pass. -/
def execArrayRowRead (u j : Nat) := coreEvent u j fun x f k c => c.arrRead x f k
/-- Adds a row of a pass. -/
def execArrayRowUpdate (u j : Nat) := coreEvent u j fun x f k c => c.arrUpdate x f k

/-! ## Configuration and movement -/

/-- cellpat := bits 31:0 of ga at issue+1 (R200). -/
def execMpat (a : BitVec 6) :=
  issueSyl (.mpat a) fun x c => c.later x 3 c.seq.pos 1 (.ctrl 9 (c.regs.readG a &&& 0xFFFFFFFF#64))

/-- The tag lane of a tile from bytes 0 to 255 of a vector source read at issue (R200). -/
def execMtag (t a : BitVec 6) :=
  issueSyl (.mtag t a) fun x c =>
    let f := c.newFlight x (.mtag t a) 3
    let r := c.readArrays x { c.preciseTrap (.mtag t a) 0x0D 0 with kind := 1 } (regUnits a.toNat 0 256)
    let c := r.1
    if !r.2 then c else c.later x 3 c.seq.pos 1 (.tags (tileNo t) ((List.range 256).map fun i => c.vbyte f a.toNat i))

/-- The store's mode at issue+1; no bit of the store changes (R33, R203). -/
def execMzero (e : BitVec 1) := issueSyl (.mzero e) fun x c => c.later x 3 c.seq.pos 1 (.accMode (e == 1))

/-- An accumulator element's bits converted by mdrn (R201). -/
def drainBits (m : Nat) (ov : Word) (r : Rnd) (w : Nat) : Nat :=
  match m with
  | 0 | 2 => w
  | 3 | 4 => intoInt true (8 * elemSize m) (ovEntry ov (ovBit m)) (BitVec.ofNat 32 w).toInt
  | m => dstBits m 0 ov r (decF32 w)

/-- Row j of the accumulator read at issue+1+j and written at issue+4+j (R201). -/
def execMdrn (d a b : BitVec 6) (m : BitVec 4) :=
  issueSyl (.mdrn d a b m) fun x c =>
    let n := shapeRows c.regs.shape
    c.fly { c.newFlight x (.mdrn d a b m) 3 with
      d := d.toNat, a := a.toNat, base := (c.regs.readG b).toNat, round := c.regs.round, ovtab := c.regs.ovtab,
      streams := [{ eff := .accRead, first := x.now + 1, n := n }, { eff := .vwrite, first := x.now + 4, n := n }] }

/-- Eight K-rows of a gradient tile read at issue+1+g and written at issue+4+g (R202). -/
def execMgdrn (d n : BitVec 6) (z : BitVec 1) (m : BitVec 4) :=
  issueSyl (.mgdrn d n z m) fun x c =>
    c.fly { c.newFlight x (.mgdrn d n z m) 3 with
      d := d.toNat, a := n.toNat, round := c.regs.round, ovtab := c.regs.ovtab,
      streams := [{ eff := .accRead, first := x.now + 1, n := 16 }, { eff := .vwrite, first := x.now + 4, n := 16 }] }

/-- ACCUMULATOR_ROW_READ: a row, or a group of a gradient tile, is read and converted; with clear the group becomes +0,
unless a pass holds the gradient store busy, which is a fault and clears nothing (R190, R201, R202). -/
def Core.accRead (x : Ctx) (f : Flight) (j : Nat) (c : Core) : Core :=
  let rnd := rndOf (fieldOf f.round.toNat 0 3)
  match f.instr with
  | .mdrn _ _ _ m =>
    let lo := f.a * 262144 + (f.base + j) * 1024
    let r := c.readUnits x (f.trap 0 0 0 j 0) 3 (unitsOf lo (4 * f.cols))
    let e := elemSize m.toNat
    let bs := (List.range f.cols).flatMap fun i =>
      leBytes e (drainBits m.toNat f.ovtab rnd (r.1.arr.accBits (lo + 4 * i)))
    if r.2 then
      r.1.setFlight { f with data := f.data ++ [(j, [Run.full .v (f.d * 16384 + j * f.cols * e) bs])] }
    else r.1
  | .mgdrn _ _ z m =>
    let lo := f.a * 16384 + j * 1024
    let r := c.readUnits x (f.trap 0 0 0 j 0) 3 (unitsOf lo 1024)
    let e := elemSize m.toNat
    let bs := (List.range 256).flatMap fun i =>
      leBytes e (drainBits m.toNat f.ovtab rnd (r.1.arr.accBits (lo + 4 * i)))
    let c := if r.2 then
        r.1.setFlight { f with data := f.data ++ [(j, [Run.full .v (f.d * 16384 + j * 256 * e) bs])] }
      else r.1
    if z = 0 then c
    else if accBusy c 2 f.seqno x.now then c.raise x (f.trap 4 2 0 j 0)
    else ({ c with arr := { c.arr with acc := c.arr.acc.clear lo (lo + 1024) } }).writeUnits 3 lo 1024
  | _ => c

/-- Reads a row of the accumulator store. -/
def execAccumulatorRowRead (u j : Nat) := coreEvent u j fun x f k c => c.accRead x f k

/-- The miss list is taken and emptied at issue, and its entries written at issue+3 (R204). [DEDUCED: log 126] -/
def execMmiss (d : BitVec 6) :=
  issueSyl (.mmiss d) fun x c =>
    let r := c.readUnits x { c.preciseTrap (.mmiss d) 0x0D 0 with kind := 1 } 6
      ((List.range c.q.miss.length).map fun k => missCell k / 8)
    let c := r.1
    let bs := (List.range 64).flatMap fun p => leBytes 2 ((c.q.miss.map fun e => e.toNat).getD p 0xFFFF)
    let f : Flight := { c.newFlight x (.mmiss d) 3 with
      d := d.toNat, data := [(0, [Run.full .v (d.toNat * 16384) bs])],
      streams := [{ eff := .vwrite, first := x.now + 3, n := 1 }] }
    let c : Core := { c with q := { c.q with miss := [] } }
    if r.2 then c.fly f else c

end Sys2Proof.Machine
end

