-- ==== Sys2Proof/Machine/LoadStore.lean ====
section
/-!
DEFINITION. Classes L and W (R206 to R214): vector, tile, scalar, mask and scale transfers between scratchpad and
registers. A transfer's shape, addresses, pitch and slot are fixed at issue (R210); each row moves at its own instants
(R96).
-/

namespace Sys2Proof.Machine

/-! ## Rows -/

/-- The linear addresses of the bytes that row `j` moves in scratchpad (R92, R207, R213). -/
def Flight.rowAddrs (f : Flight) (j : Nat) : List Nat :=
  match f.instr with
  | .ldm .. | .stm .. =>
    let lo := j * f.cols / 8
    addrsOf f.swz ((f.addr + lo) % 4194304) ((j * f.cols + f.cols - 1) / 8 - lo + 1)
  | _ => addrsOf f.swz (rowAddr f.addr f.pitch j) f.len

/-- Every address a transfer moves. -/
def Flight.allAddrs (f : Flight) : List Nat := (List.range f.rows).flatMap f.rowAddrs

/-- The checks of a scratchpad read at its instant (R97, R100, R257, R304): the core, and whether the data may be
passed on. An interlocked launch made the check of R97 at issue (R98). [DESIGN CHOICE: log 162] -/
def Core.readOk (x : Ctx) (f : Flight) (j : Nat) (as : List Nat) (c : Core) : Core × Bool :=
  let hz := !x.la.interlocked && c.sp.hazard f.swz as
  let c := if hz then c.raise x (f.trap 4 3 (as.headD 0) j 0) else c
  match x.badAddr as with
  | some b => (c.raise x { f.trap 0x0A 0 b.1 j 0 with outside := b.2 }, false)
  | none =>
    if hz then (c, false)
    else c.seenBy f fun c => c.readUnits x (f.trap 0 0 (as.headD 0) j 0) 0 (as.map (· / 8)).dedup

/-- The check of a scratchpad write at its instant, with the record of its fault (R100, R257). -/
def Core.mayWrite (x : Ctx) (t : TrapRec) (as : List Nat) (c : Core) : Core × Bool :=
  match x.badAddr as with
  | some b => (c.raise x { t with cause := 0x0A, address := b.1, outside := b.2 }, false)
  | none => (c, true)

/-- The checks of a scratchpad write of an operation. -/
def Core.writeOk (x : Ctx) (f : Flight) (j : Nat) (as : List Nat) (c : Core) : Core × Bool :=
  c.mayWrite x (f.trap 0x0A 0 0 j 0) as

/-- An engine access's watchpoint match at its instant; `o` is where the bytes moved begin in the operation, whose 64-byte
block is named (R286, R290). -/
def Core.watchEng (x : Ctx) (f : Flight) (write : Bool) (o : Nat) (as : List Nat) (c : Core) : Core :=
  c.watch x write .eng as fun p => f.trap 0x10 0 0 0 ((o + p) / 64)

/-- Puts a core transfer in flight; its watchpoint match is raised in its issue cycle (R286). -/
def Core.transfer (x : Ctx) (write : Bool) (f : Flight) (c : Core) : Core :=
  (c.watch x write .core f.allAddrs fun _ => c.preciseTrap f.instr 0x10 0).fly f

/-- The streams of a load: row j read at issue+1+j, written at issue+k+j (R210, R213). -/
def loadStreams (x : Ctx) (rows k : Nat) : List Stream :=
  [{ eff := .spRead, first := x.now + 1, n := rows }, { eff := .regWrite, first := x.now + k, n := rows }]

/-- The streams of a store: row j read at issue+j, written at issue+2+j. -/
def storeStreams (x : Ctx) (rows : Nat) : List Stream :=
  [{ eff := .spRead, first := x.now, n := rows }, { eff := .spWrite, first := x.now + 2, n := rows }]

/-- The common fields of an address-form transfer of `rows` rows of `n` bytes (R207). -/
def Core.addrFlight (x : Ctx) (c : Core) (i : Instr) (cls : Nat) (d a b : BitVec 6) (sw : Bool) (r : Nat × Nat) :
    Flight :=
  { c.newFlight x i cls with
    d := d.toNat, addr := localAddr (c.regs.readG a), pitch := pitchOf (c.regs.readG b) r.2,
    rows := r.1, len := r.2, swz := sw }

/-- The common fields of a handle-form transfer; a store is a producer (R99, R208). -/
def Core.handleFlight (x : Ctx) (c : Core) (i : Instr) (cls : Nat) (d : BitVec 6) (h : BitVec 4) (prod : Bool)
    (r : Nat × Nat) : Flight :=
  { c.newFlight x i cls with
    d := d.toNat, addr := if prod then c.fillSlot h else c.drainSlot h, pitch := r.2,
    rows := r.1, len := r.2, swz := (c.regs.handle h).swz, handle := some h.toNat, prod := prod }

/-- A load to a vector register, address form. -/
def execLd (d a b : BitVec 6) (s : BitVec 1) (w : BitVec 2) :=
  issueSyl (.ld d a b s w) fun x c =>
    let f := c.addrFlight x (.ld d a b s w) 4 d a b (s == 1) (vecRows c.regs.shape w)
    c.transfer x false { f with streams := loadStreams x f.rows (if f.swz then 6 else 5) }

/-- A load to a vector register from a handle's slot. -/
def execLdh (d : BitVec 6) (h n : BitVec 4) (w : BitVec 2) :=
  issueSyl (.ldh d h n w) fun x c =>
    let f := c.handleFlight x (.ldh d h n w) 4 d h false (vecRows c.regs.shape w)
    c.transfer x false { f with streams := loadStreams x f.rows (if f.swz then 6 else 5) }

/-- A load to a tile, address form. -/
def execLdt (d a b : BitVec 6) (s : BitVec 1) :=
  issueSyl (.ldt d a b s) fun x c =>
    let f := c.addrFlight x (.ldt d a b s) 4 d a b (s == 1) (tileRows (c.regs.tcfgOf (tileNo d)))
    c.transfer x false { f with streams := loadStreams x f.rows 5 }

/-- A load to a tile from a handle's slot. -/
def execLdth (d : BitVec 6) (h n : BitVec 4) :=
  issueSyl (.ldth d h n) fun x c =>
    let f := c.handleFlight x (.ldth d h n) 4 d h false (tileRows (c.regs.tcfgOf (tileNo d)))
    c.transfer x false { f with streams := loadStreams x f.rows 5 }

/-- A scalar load: read at issue+1, gd written at issue+4 (R212). -/
def execLds (d a : BitVec 6) (i : BitVec 10) (l : Option (BitVec 9)) :=
  issueSyl (.lds d a i l) fun x c =>
    c.transfer x false { c.newFlight x (.lds d a i l) 4 with
      addr := ldsAddr c a i l, rows := 1, len := 8, streams := [{ eff := .spRead, first := x.now + 1, n := 1 }] }

/-- A scale load: read at issue+1, appended at the end of issue+5 (R214). -/
def execSqld (a : BitVec 6) (i : BitVec 10) (l : Option (BitVec 9)) :=
  issueSyl (.sqld a i l) fun x c =>
    c.fly { c.newFlight x (.sqld a i l) 4 with
      addr := localAddr (c.regs.readG a), rows := 1, len := (imm19 i l).toNat,
      streams := [{ eff := .spRead, first := x.now + 1, n := 1 }, { eff := .scaleApp, first := x.now + 5, n := 1 }] }

/-- A mask load: row j's bits read at issue+1+j and written at issue+3+j (R213). -/
def execLdm (d a : BitVec 6) (s : BitVec 1) :=
  issueSyl (.ldm d a s) fun x c =>
    let f := c.newFlight x (.ldm d a s) 4
    c.transfer x false { f with
      d := d.toNat, addr := localAddr (c.regs.readG a), swz := s == 1, streams := loadStreams x f.rows 3 }

/-- A store from a vector source, address form. -/
def execSt (d a b : BitVec 6) (s : BitVec 1) (w : BitVec 2) :=
  issueSyl (.st d a b s w) fun x c =>
    let f := c.addrFlight x (.st d a b s w) 5 d a b (s == 1) (vecRows c.regs.shape w)
    c.transfer x true { f with streams := storeStreams x f.rows }

/-- A store from a vector source to a handle's slot. -/
def execSth (d : BitVec 6) (h n : BitVec 4) (w : BitVec 2) :=
  issueSyl (.sth d h n w) fun x c =>
    let f := c.handleFlight x (.sth d h n w) 5 d h true (vecRows c.regs.shape w)
    c.transfer x true { f with streams := storeStreams x f.rows }

/-- A store from a tile, address form. -/
def execStt (d a b : BitVec 6) (s : BitVec 1) :=
  issueSyl (.stt d a b s) fun x c =>
    let f := c.addrFlight x (.stt d a b s) 5 d a b (s == 1) (tileRows (c.regs.tcfgOf (tileNo d)))
    c.transfer x true { f with streams := storeStreams x f.rows }

/-- A store from a tile to a handle's slot. -/
def execStth (d : BitVec 6) (h n : BitVec 4) :=
  issueSyl (.stth d h n) fun x c =>
    let f := c.handleFlight x (.stth d h n) 5 d h true (tileRows (c.regs.tcfgOf (tileNo d)))
    c.transfer x true { f with streams := storeStreams x f.rows }

/-- A scalar store: gs read at issue, written at issue+2 (R212). -/
def execSts (d a : BitVec 6) (i : BitVec 10) (l : Option (BitVec 9)) :=
  issueSyl (.sts d a i l) fun x c =>
    c.transfer x true { c.newFlight x (.sts d a i l) 5 with
      addr := ldsAddr c a i l, rows := 1, len := 8,
      data := [(0, [Run.full .v 0 (leBytes 8 (c.regs.readG d).toNat)])],
      streams := [{ eff := .spWrite, first := x.now + 2, n := 1 }] }

/-- A mask store: row j's bits read at issue+j and written at issue+2+j (R213). -/
def execStm (d a : BitVec 6) (s : BitVec 1) :=
  issueSyl (.stm d a s) fun x c =>
    let f := c.newFlight x (.stm d a s) 5
    c.transfer x true { f with
      d := d.toNat, addr := localAddr (c.regs.readG a), swz := s == 1, streams := storeStreams x f.rows }

/-! ## Rows moving -/

/-- The bits of mask byte `k` that row `j` covers (R213). -/
def coverMask (cols j k : Nat) : Byte :=
  BitVec.ofNat 8 (((List.range 8).filter fun i => j * cols ≤ 8 * k + i && 8 * k + i < (j + 1) * cols).foldl
    (fun m i => m + 2 ^ i) 0)

/-- What row `j` of a store holds: its source's bytes as they stand at the read instant (R210, R213). -/
def Core.storeSource (f : Flight) (j : Nat) (c : Core) : List (Byte × Byte) :=
  match f.instr with
  | .stt .. | .stth .. => (List.range f.len).map fun k => (0xFF#8, c.vec.tile.get 0 (f.d * 32768 + j * f.len + k))
  | .stm .. =>
    let lo := j * f.cols / 8
    (List.range ((j * f.cols + f.cols - 1) / 8 - lo + 1)).map fun k =>
      (coverMask f.cols j (lo + k), c.vec.maskByte f.d (lo + k))
  | _ => (List.range f.len).map fun k => (0xFF#8, c.vbyte f f.d (j * f.len + k))

/-- The units a store's source row lies in (R304, R305). -/
def storeUnits (f : Flight) (j : Nat) : List (Nat × List Nat) :=
  match f.instr with
  | .stt .. | .stth .. => [(2, unitsOf (f.d * 32768 + j * f.len) f.len)]
  | .stm .. => maskUnits f.d (j * f.cols) f.cols
  | _ => regUnits f.d (j * f.len) f.len

/-- What row `j` of a load will write once read. -/
def loadRun (f : Flight) (j : Nat) (bs : List Byte) : Run :=
  match f.instr with
  | .ldt .. | .ldth .. => Run.full .tile (f.d * 32768 + j * f.len) bs
  | .ldm .. =>
    let lo := j * f.cols / 8
    { space := .m, addr := f.d * 2048 + lo
      bytes := (bs.zipIdx).map fun p => (coverMask f.cols j (lo + p.2), p.1) }
  | _ => Run.full .v (f.d * 16384 + j * f.len) bs

/-- SCRATCHPAD_ROW_READ: a load reads its scratchpad row, or a store its source row (R96, R210, R212 to R214). -/
def Core.rowRead (x : Ctx) (f : Flight) (j : Nat) (c : Core) : Core :=
  if f.cls = 5 then
    let r := (c.busy 4).readArrays x (f.trap 0 0 0 j 0) (storeUnits f j)
    if r.2 then
      r.1.setFlight { f with data := f.data ++ [(j, [{ space := .v, addr := 0, bytes := r.1.storeSource f j }])] }
    else r.1
  else
    let as := f.rowAddrs j
    let r := (c.busy 3).readOk x f j as
    let c := r.1
    if !r.2 then c
    else
      let bs := as.map fun a => c.spByte f a
      match f.instr with
      | .lds d _ _ _ =>
        let p : Pend := ⟨f.issue + 4, f.seqno, 4, f.bundle, f.pos, .g d (BitVec.ofNat 64 (leNat bs))⟩
        { c with pends := c.pends ++ [p] }
      | .sqld .. => (c.setFlight { f with bytes := bs }).watchEng x f false 0 as
      | _ => c.setFlight { f with data := f.data ++ [(j, [loadRun f j bs])] }

/-- The tile a transfer writes, where it writes one. -/
def tileDest (i : Instr) : Option Nat :=
  match i with
  | .ldt d _ _ _ | .ldth d _ _ => some d.toNat
  | _ => none

/-- REGISTER_ROW_WRITE: row `j` of a load reaches its register, mask or tile; a row of a tile the array holds busy
faults and is not written (R190, R210, R211, R213). -/
def Core.regWrite (x : Ctx) (f : Flight) (j : Nat) (c : Core) : Core :=
  let rs := f.rowData j
  let c := (c.setFlight { f with data := f.data.filter fun p => p.1 != j }).busy 3
  if (tileDest f.instr).elim false fun t => tileBusy c t f.seqno x.now then c.raise x (f.trap 4 2 0 j 0)
  else c.putRuns f.uid rs

/-- STORE_ROW_WRITE: row `j` of a store reaches scratchpad; the last row of a handle form completes its slot
(R99, R210). A row that was not read is not written. -/
def Core.rowWrite (x : Ctx) (f : Flight) (j : Nat) (c : Core) : Core :=
  let rs := f.rowData j
  let c := (c.setFlight { f with data := f.data.filter fun p => p.1 != j }).busy 4
  let as := f.rowAddrs j
  match rs with
  | r :: _ =>
    let w := c.writeOk x f j as
    let c := w.1
    if !w.2 then c
    else
      let bs := (as.zip r.bytes).map fun p => (c.sp.mem.get 0 p.1 &&& ~~~p.2.1) ||| (p.2.2 &&& p.2.1)
      let c := c.spWrite x.now f.seqno f.swz as bs
      if j + 1 == f.rows then c.complete x f j else c
  | [] => c

/-- Scales appended to the queue. -/
def Core.appendScales (l : List Byte) (c : Core) : Core := { c with q := { c.q with sq := c.q.sq ++ l } }

/-- SCALE_APPEND: the scales enter the queue, or with too little room none does (R34, R214). A read that failed
delivered nothing. -/
def Core.scaleAppend (x : Ctx) (f : Flight) (c : Core) : Core :=
  if 1024 < c.q.sq.length + f.bytes.length then c.raise x (f.trap 0x0B 2 0 0 0)
  else
    (c.writeCells 6 ((List.range f.bytes.length).map fun k => sqCell (c.q.sqHead + c.q.sq.length + k))).appendScales f.bytes

/-- Reads row j of a load, or of a store's source. -/
def execScratchpadRowRead (u j : Nat) := coreEvent u j fun x f k c => c.rowRead x f k
/-- Writes a register row. -/
def execRegisterRowWrite (u j : Nat) := coreEvent u j fun x f k c => c.regWrite x f k
/-- Writes a scratchpad row. -/
def execStoreRowWrite (u j : Nat) := coreEvent u j fun x f k c => c.rowWrite x f k
/-- Appends scales. -/
def execScaleAppend (u j : Nat) := coreEvent u j fun x f _ c => c.scaleAppend x f

end Sys2Proof.Machine
end

