-- ==== Sys2Proof/Machine/Engine.lean ====
section
/-!
DEFINITION. The engines of class D (R100 to R102, R110 to R113, R215 to R222, R262): the drill, the gleaner, sends,
atomics, host transfers, cancellation and peer reductions.
-/

namespace Sys2Proof.Machine

/-! ## Copies within the core -/

/-- The addresses of block `j` of `n` bytes from `a`: 64 bytes, or what is left of them. -/
def blockAddrs (a n j : Nat) : List Nat :=
  (List.range (min 64 (n - 64 * j))).map fun i => (a + 64 * j + i) % 4194304

/-- A copy of one handle slot (R215): `a` is the source, `addr` the destination. -/
def execDcp (r : BitVec 6) (h n : BitVec 4) (e : BitVec 1) :=
  issueSyl (.dcp r h n e) fun x c =>
    let size := (c.regs.handle h).slot
    let g := localAddr (c.regs.readG r)
    c.fly { c.newFlight x (.dcp r h n e) 6 with
      a := if e = 0 then g else c.drainSlot h, addr := if e = 0 then c.fillSlot h else g, len := size,
      handle := some h.toNat, prod := e == 0,
      streams := [{ eff := .blkRead, first := x.now + 4, n := size / 64, div := 8 },
        { eff := .blkWrite, first := x.now + 9, n := size / 64, div := 8 }] }

/-- A gather (R218): `x` is the list word, `a` the source base, `addr` the destination, `len` the row size; a gather of no
row has no effect to perform. -/
def execDgln (d a b : BitVec 6) (m : BitVec 4) :=
  issueSyl (.dgln d a b m) fun x c =>
    let w := c.regs.readG a
    let n := fieldOf w.toNat 32 11
    let size := 64 * 2 ^ m.toNat
    if n = 0 then c else c.fly { c.newFlight x (.dgln d a b m) 6 with
      x := w, a := localAddr (c.regs.readG b), addr := localAddr (c.regs.readG d), len := size, rows := n,
      streams := [{ eff := .listRead, first := x.now + 1, n := 1 },
        { eff := .blkRead, first := x.now + 4, n := n * size / 64, div := 4 },
        { eff := .blkWrite, first := x.now + 9, n := n * size / 64, div := 4 }] }

/-- GLEANER_LIST_READ: the whole index list is read (R218). [DEDUCED: log 165] -/
def Core.listRead (x : Ctx) (f : Flight) (c : Core) : Core :=
  let as := (List.range (2 * f.rows)).map fun i => (localAddr f.x + i) % 4194304
  let r := (c.busy 5).readOk x f 0 as
  let c := if r.2 then r.1.watchEng x f false 0 as else r.1
  if r.2 then
    let e (i : Nat) : Nat := leNat ((as.drop (2 * i)).take 2 |>.map fun a => c.sp.mem.get 0 a)
    c.setFlight { f with counts := (List.range f.rows).map e }
  else c

/-- The source addresses of block `j` of a copy; a gather whose list was not delivered has none. -/
def blockSource (f : Flight) (j : Nat) : List Nat :=
  match f.instr with
  | .dgln .. =>
    match f.counts[64 * j / f.len]? with
    | some e => (List.range 64).map fun i => (f.a + e * f.len + 64 * j % f.len + i) % 4194304
    | none => []
  | _ => blockAddrs f.a f.len j

/-- The destination addresses of block `j` of a copy. -/
def blockDest (f : Flight) (j : Nat) : List Nat := (List.range 64).map fun i => (f.addr + 64 * j + i) % 4194304

/-- Bytes held for a later write. -/
def heldRun (bs : List Byte) : List Run := [Run.full .v 0 bs]

/-- The bytes held for event `k`. -/
def Flight.heldBytes (f : Flight) (k : Nat) : List Byte := (f.rowData k).flatMap fun r => r.bytes.map fun p => p.2

/-- DRILL_BLOCK_READ: a source block is read (R96, R97, R100). [DEDUCED: log 25] -/
def Core.blkRead (x : Ctx) (f : Flight) (j : Nat) (c : Core) : Core :=
  let as := blockSource f j
  let r := (c.busy 5).readOk x f j as
  let c := if r.2 then r.1.watchEng x f false (64 * j) as else r.1
  if r.2 && as != [] then
    c.setFlight { f with data := f.data ++ [(j, heldRun (as.map fun a => c.sp.mem.get 0 a))] }
  else c

/-- DRILL_BLOCK_WRITE: a destination block is written if its source was read; the last block of a producer completes
its slot (R99, R215). -/
def Core.blkWrite (x : Ctx) (f : Flight) (j : Nat) (last : Bool) (c : Core) : Core :=
  let bs := f.heldBytes j
  let c := (c.setFlight { f with data := f.data.filter fun p => p.1 != j }).busy 5
  let as := blockDest f j
  let w := c.writeOk x f j as
  if bs == [] || !w.2 then w.1
  else
    let c := (w.1.spWrite x.now f.seqno false as bs).watchEng x f true (64 * j) as
    if last then c.complete x f j else c

/-- Reads the gleaner's list. -/
def execGleanerListRead (u j : Nat) := coreEvent u j fun x f _ c => c.listRead x f
/-- Reads a source block. -/
def execDrillBlockRead (u j : Nat) := coreEvent u j fun x f k c => c.blkRead x f k
/-- Writes a destination block. -/
def execDrillBlockWrite (u j : Nat) :=
  coreEvent u j fun x f k c => c.blkWrite x f k ((f.streams[j]?).elim false fun t => t.n == k + 1)

/-! ## Sends and atomics -/

/-- A field address of a launch: its core and its byte (R22). -/
def fieldAddr (x : Ctx) (w : Word) : Nat := fieldCore x.cores w * 4194304 + localAddr w

/-- A destination range of `n` bytes that passes the scratchpad or overlaps the landing area (R100, R216). -/
def Ctx.overlaps (x : Ctx) (a n : Nat) : Bool := n != 0 && (4194304 < a + n || x.landBase < a + n)

/-- A landing-overflow fault at the sender, in its issue cycle (R100). [DESIGN CHOICE: log 148] -/
def Core.overflowAtIssue (x : Ctx) (i : Instr) (addr : Nat) (c : Core) : Core :=
  c.raise x { c.preciseTrap i 0x0A 0 with address := addr }

/-- A send of `n` bytes (R216): `d` is the destination core, `addr` its byte, `a` the local source. -/
def sendOp (i : Instr) (d a b : BitVec 6) : State → Host.Outcome State Fault Refusal :=
  issueSyl i fun x c =>
    let w := c.regs.readG d
    let n := (c.regs.readG b).toNat
    if x.overlaps (localAddr w) n then c.overflowAtIssue x i (fieldAddr x w)
    else if n = 0 then c
    else
      let k := ceilDiv n 64
      (c.note (fieldCore x.cores w) (x.now + 4 + (k - 1) / 4)).fly { c.newFlight x i 6 with
        d := fieldCore x.cores w, addr := localAddr w, a := localAddr (c.regs.readG a), len := n,
        streams := [{ eff := .sendRead, first := x.now + 4, n := k, div := 4 }] }

/-- A plain remote write. -/
def execDput (d a b : BitVec 6) := sendOp (.dput d a b) d a b
/-- A reduce-send; its key is in the lend (R105, R124). -/
def execDred (d a b : BitVec 6) (p f : BitVec 2) (l : Option (BitVec 9)) := sendOp (.dred d a b p f l) d a b

/-- The bytes of an atomic's element (R219). -/
def atomWidth (f : BitVec 2) : Nat := if f.toNat ≤ 1 then 4 else 8

/-- An atomic (R219): the operand is taken at issue, and its record counts as a block read at issue+4. -/
def atomicOp (i : Instr) (d a : BitVec 6) (f : BitVec 2) (ret : Option (BitVec 6)) :
    State → Host.Outcome State Fault Refusal :=
  issueSyl i fun x c =>
    let w := c.regs.readG d
    let e := atomWidth f
    let back := ret.elim 0 fun b => localAddr (c.regs.readG b)
    if x.overlaps (localAddr w) e then c.overflowAtIssue x i (fieldAddr x w)
    else if ret.isSome && x.overlaps back e then c.overflowAtIssue x i back
    else
      (c.note (fieldCore x.cores w) (x.now + 4)).fly { c.newFlight x i 6 with
        d := fieldCore x.cores w, addr := localAddr w, a := back, x := c.regs.readG a, len := e,
        streams := [{ eff := .sendRead, first := x.now + 4, n := 1 }] }

/-- An atomic without a return. -/
def execAmo (d a : BitVec 6) (p f : BitVec 2) := atomicOp (.amo d a p f) d a f none
/-- An atomic that returns the old element. -/
def execAmor (d a b : BitVec 6) (p f : BitVec 2) := atomicOp (.amor d a b p f) d a f (some b)

/-- The die of core `i` of a launch (R17, R19). -/
def Ctx.dieOf (x : Ctx) (i : Nat) : Nat := Machine.dieOf (x.la.x0 + i % x.la.w) (x.la.y0 + i / x.la.w)

/-- The cycles of a transfer between two cores of a launch: 1 to 64 within a die, and 8 more from one die to another
(R4, R17, R102). [DEDUCED: log 6] -/
def Ctx.travel (x : Ctx) (draw i j : Nat) : Nat :=
  1 + Config.meshDelay draw % 64 + (if x.dieOf i = x.dieOf j then 0 else 8)

/-- A record put on the mesh; it arrives 1 to 72 cycles after its last block's read (R102, R114). [DEDUCED: log 6] -/
def Core.emit (x : Ctx) (k : RecKind) (f : Flight) (bs : List Byte) (c : Core) : Core :=
  let r : Rec := {
    kind := k, sender := c.index, order := f.uid, dest := f.d, addr := f.addr, bytes := bs
    arrive := x.now + x.travel (c.physNo + 512 * c.free) c.index f.d }
  { c with net := { c.net with out := c.net.out ++ [r] }, free := c.free + 1 }

/-- The record kind of a send. -/
def recKind (f : Flight) : RecKind :=
  match f.instr with
  | .dred _ _ _ p m l => .reduce (l.getD 0).toNat p m
  | .amo _ _ p m => .atomic p m none
  | .amor _ _ _ p m => .atomic p m (some f.a)
  | .caddR n _ _ => .counter n f.x
  | _ => .plain

/-- Takes no block from scratchpad: its data stood in registers. -/
def isRegisterSend (i : Instr) : Bool :=
  match i with
  | .amo .. | .amor .. | .caddR .. => true
  | _ => false

/-- SEND_BLOCK_READ: a source block goes onto the mesh or the host link; with the last one the record is complete
(R101, R216, R219, R220). A block whose check failed moves no byte, and its record is not completed.
[DEDUCED: log 79, 156, 164] -/
def Core.sendRead (x : Ctx) (f : Flight) (j : Nat) (last : Bool) (c : Core) : Core :=
  if isRegisterSend f.instr then c.emit x (recKind f) f (leBytes f.len f.x.toNat)
  else
    let as := blockAddrs f.a f.len j
    let r := (c.busy 5).readOk x f j as
    let c := if r.2 then r.1.watchEng x f false (64 * j) as else r.1
    if !r.2 then c
    else
      let f : Flight := { f with bytes := f.bytes ++ as.map fun a => c.sp.mem.get 0 a }
      let c := c.setFlight f
      match f.instr with
      | .dhput .. => c
      | _ => if last && f.bytes.length == f.len then c.emit x (recKind f) f f.bytes else c

/-- Reads a block of a send. -/
def execSendBlockRead (u j : Nat) :=
  coreEvent u j fun x f k c => c.sendRead x f k ((f.streams[j]?).elim false fun t => t.n == k + 1)

/-! ## Arrival (R101) -/

/-- The size of a record in a landing area. -/
def Rec.size (r : Rec) : Nat :=
  match r.kind with
  | .plain | .reduce .. => 64 + 64 * ceilDiv r.bytes.length 64
  | _ => 64

/-- The size of some records. -/
def recSizes (l : List Rec) : Nat := (l.map Rec.size).sum

/-- The record that a send's last blocks complete: the blocks that landed at a stop belong to it (R114). -/
def Rec.completes (r y : Rec) : Bool := y.open_ && y.sender == r.sender && y.order == r.order

/-- The lowest `n` numbers from `k` on that are not in `used`, of the first `fuel`. [DESIGN CHOICE: log 147] -/
def freeBlocks (used : List Nat) : Nat → Nat → Nat → List Nat
  | 0, _, _ => []
  | _, _, 0 => []
  | fuel + 1, k, n + 1 =>
    if used.contains k then freeBlocks used fuel (k + 1) (n + 1) else k :: freeBlocks used fuel (k + 1) n

/-- The 64-byte blocks of a landing area that `l` leaves, lowest first, for a record (R101, R272).
[DESIGN CHOICE: log 147] -/
def Ctx.landingBlocks (x : Ctx) (l : List Rec) (r : Rec) : List Nat :=
  let used := l.flatMap (·.blocks)
  let n := min (r.size / 64) (x.landing / 64 - used.length)
  freeBlocks used (n + used.length) 0 n

/-- The first byte of block `b` of the landing area. [DESIGN CHOICE: log 147] -/
def Ctx.blockAddr (x : Ctx) (b : Nat) : Nat := x.landBase + 64 * b

/-- A record written into its blocks of the landing area, which are encoded anew (R101, R304, R307).
[DESIGN CHOICE: log 147] -/
def Core.putLanded (x : Ctx) (c : Core) (r : Rec) : Core :=
  let bs := x.landingBlocks (c.net.prev ++ c.net.land) r
  bs.foldl (fun c b => c.writeUnits 0 (x.blockAddr b) 64)
    { c with net := { c.net with land := c.net.land ++ [{ r with blocks := bs }] } }

/-- A record lands, or finds no room: the landing-overflow fault at the destination (R101, R264).
[DESIGN CHOICE: log 148] -/
def Core.land (x : Ctx) (r : Rec) (c : Core) : Core :=
  let here := c.net.land.filter fun y => !r.completes y
  if x.landing < recSizes c.net.prev + recSizes here + r.size then
    c.raise x { cause := 0x0A, kind := 2, engine := 8, address := r.addr }
  else ({ c with net := { c.net with land := here } }).putLanded x r

/-- A record lands at its destination core of launch `l`. -/
def State.landAt (s : State) (l : LaunchId) (r : Rec) : State :=
  s.mapCores (fun c => c.lid == l && c.index == r.dest) fun c => c.land (s.ctx c) r

/-- RECORD_ARRIVAL: record `i` of the acting core reaches its destination's landing area. -/
def execRecordArrival (i : Nat) (s : State) : Host.Outcome State Fault Refusal :=
  match s.actor with
  | none => .fault .noActor
  | some c =>
    match c.net.out[i]? with
    | none => .fault .noSuchEvent
    | some r => .next ((s.setActor { c with net := { c.net with out := c.net.out.eraseIdx i } }).landAt c.lid r)

/-! ## Host transfers -/

/-- A host-window fault at issue; it names the host address (R263). -/
def Core.windowFault (x : Ctx) (i : Instr) (w : Word) (c : Core) : Core :=
  c.raise x { c.preciseTrap i 0x12 0 with address := w.toNat }

/-- The common fields of a host transfer: `addr` the local address, `x` the host address, `d` its counter. -/
def hostFlight (x : Ctx) (c : Core) (i : Instr) (d a b : BitVec 6) (n : BitVec 4) : Flight :=
  { c.newFlight x i 6 with
    addr := localAddr (c.regs.readG d), a := localAddr (c.regs.readG d), x := c.regs.readG a,
    len := (c.regs.readG b).toNat, d := n.toNat, open_ := true }

/-- A read of host memory: its bytes arrive at no fixed instant (R110, R220). -/
def execDhget (d a b : BitVec 6) (n : BitVec 4) :=
  issueSyl (.dhget d a b n) fun x c =>
    let f := hostFlight x c (.dhget d a b n) d a b n
    if x.overlaps f.addr f.len then c.overflowAtIssue x f.instr (max f.addr x.landBase)
    else if !windowOk c.windows true f.x f.len then c.windowFault x f.instr f.x
    else c.fly f

/-- A window of peer reduction. -/
def isReduce (t : List (Nat × Word)) (w : Word) : Bool := fieldOf (windowWord t (hostWindow w) 0).toNat 1 2 == 2

/-- A write of host memory: block j is read at issue+4+⌊j/4⌋, and the transfer joins the open batch (R111, R220). A
reduce window needs a process group (R283). -/
def execDhput (d a b : BitVec 6) (n : BitVec 4) :=
  issueSyl (.dhput d a b n) fun x c =>
    let f := hostFlight x c (.dhput d a b n) d a b n
    if x.overlaps f.addr f.len then c.overflowAtIssue x f.instr (max f.addr x.landBase)
    else if !windowOk c.windows false f.x f.len || (isReduce c.windows f.x && x.la.group == 0xFF) then c.windowFault x f.instr f.x
    else
      let c' := c.fly { f with streams := [{ eff := .sendRead, first := x.now + 4, n := ceilDiv f.len 64, div := 4 }] }
      { c' with net := { c'.net with openBatch := c'.net.openBatch ++ [c.nextUid] } }

/-- An event of operation `u` of the acting core that the host side brings about. [DESIGN CHOICE: log 97] -/
def flightEvent (u : Nat) (g : Ctx → Flight → Core → Core) (s : State) : Host.Outcome State Fault Refusal :=
  match s.actor with
  | none => .fault .noActor
  | some c =>
    match c.flight? u with
    | none => .fault .noSuchEvent
    | some f => .next (s.setActor (g (s.ctx c) f c))

/-- Where `n` bytes of a dhget from offset `off` are written. -/
def hostAddrs (f : Flight) (off n : Nat) : List Nat := addrsOf false (f.addr + off) (min n (f.len - off))

/-- Bytes of a dhget from offset `off` are written in the linear view, those outside a class-0 context's footprint apart
(R97, R110, R257, R286). -/
def Core.hostWrite (x : Ctx) (f : Flight) (off : Nat) (bs : List Byte) (c : Core) : Core :=
  let as := hostAddrs f off bs.length
  let bs := bs.take (f.len - off)
  let c := (c.setFlight { f with moved := f.moved + bs.length, got := (off, bs.length) :: f.got }).busy 5
  let w := c.writeOk x f (off / 64) as
  if w.2 then (w.1.spWrite x.now f.seqno false as bs).watchEng x f true off as else w.1

/-- HOST_DATA_ARRIVAL: bytes of a dhget reach its context, on its core or in its image (R110, R221, R271). -/
def execHostDataArrival (u off : Nat) (bs : List Byte) (s : State) : Host.Outcome State Fault Refusal :=
  match flightEvent u (fun x f c => c.hostWrite x f off bs) s with
  | .next s' =>
    let written (c : Core) : Option (List Nat) := (c.flight? u).map fun f =>
      let as := hostAddrs f off bs.length
      if (c.writeOk (s.ctx c) f (off / 64) as).2 then as else []
    .next (s'.intoImage ((s.actor.bind written).getD []))
  | o => o

/-- A host transfer whose counter addition may perform: every byte written, or every byte acknowledged (R110); that of a
dhget cut by a stop not before the cycle after the restart (R221). -/
def Flight.hostDone (now : Nat) (f : Flight) : Bool :=
  f.open_ && match f.instr with
    | .dhget .. => f.len ≤ f.moved && f.after ≤ now
    | .dhput .. => f.acked && !f.streams.any Stream.live
    | _ => false

/-- HOST_TRANSFER_COMPLETE: the counter rises by 1 and the transfer is no longer in flight (R110, R209). -/
def execHostTransferComplete (u : Nat) (s : State) : Host.Outcome State Fault Refusal :=
  flightEvent u (fun _ f c =>
    let c := c.setFlight { f with open_ := false }
    { c with regs := c.regs.addN (BitVec.ofNat 6 f.d) 1 }) s

/-- The batches once transfer `u` is acknowledged; a batch with nothing left is no longer outstanding (R111). -/
def Traffic.ack (u : Nat) (t : Traffic) : Traffic :=
  { t with
    openBatch := t.openBatch.filter (· != u)
    closed := (t.closed.map fun b => b.filter (· != u)).filter (· != []) }

/-- Every byte of the batches before `u`'s has reached the host (R111). [DEDUCED: log 83] -/
def Traffic.inTurn (u : Nat) (t : Traffic) : Bool :=
  match t.closed with
  | [] => t.openBatch.contains u
  | b :: _ => b.contains u

/-- The rank that a peer reduction tags a dhput's bytes with (R261, R283). -/
def sendRank (x : Ctx) (c : Core) (w : Word) : Option Nat :=
  if isReduce c.windows w then some (x.la.member * x.cores + c.index) else none

/-- What reaches the host of a dhput: the bytes read that have not reached it yet. -/
def Core.sentOf (x : Ctx) (f : Flight) (c : Core) : Sent :=
  let t := windowTarget c.windows f.x
  { endpoint := t.1, addr := t.2 + BitVec.ofNat 64 f.moved, rank := sendRank x c f.x, bytes := f.bytes.drop f.moved }

/-- HOST_ACKNOWLEDGEMENT: the bytes of a dhput have reached the host, in the order of the batches (R110, R111).
[DEDUCED: log 83] -/
def execHostAcknowledgement (u : Nat) (s : State) : Host.Outcome State Fault Refusal :=
  match s.actor with
  | none => .fault .noActor
  | some c =>
    match c.flight? u with
    | none => .fault .noSuchEvent
    | some f =>
      if !c.net.inTurn u || f.streams.any Stream.live then .fault .noSuchEvent
      else
        let c' := c.setFlight { f with acked := true, moved := f.bytes.length }
        .next { s.setActor { c' with net := c'.net.ack u } with host := c.sentOf (s.ctx c) f :: s.host }

/-- HOST_SIDE_ERROR: an imprecise host-window fault that names the transfer, which adds to no counter (R220).
[DEDUCED: log 82] -/
def execHostSideError (u : Nat) :=
  flightEvent u fun x f c =>
    (c.setFlight { f with open_ := false, streams := [] }).raise x (f.trap 0x12 0 f.x.toNat 0 0)

/-! ## Cancellation (R222) -/

/-- The tag of a chrd. -/
def cancelTag (i : Instr) : Nat :=
  match i with
  | .chrd _ _ _ t | .chrdHandle _ _ _ _ t => t.toNat
  | _ => 0

/-- Suppresses the pages of a tag of which no read has an instant of this cycle or earlier (R109, R222). A page's
reads carry its first read's issue, and the page lasts as long as its row is open. [DEDUCED: log 81] -/
def execDcan (t : BitVec 4) :=
  issueSyl (.dcan t) fun x c =>
    let hit (f : Flight) : Bool := cancelTag f.instr == t.toNat && x.now < f.page + 48
    { c with
      flights := c.flights.map fun f => if hit f then { f with cancelled := true } else f }

/-! ## Combining (R217, R262) -/

/-- An overflow table under which bf16 overflows to infinity. -/
def infTable : Word := 1

/-- The combining step of a reduction on bits: op 0 add, 1 max, 2 min; fmt 0 f32, 1 bf16, 2 i32, 3 n32. -/
def combine (op fmt : Nat) (a b : Nat) : Nat :=
  if fmt ≤ 1 then
    let p := decFloat fmt a
    let q := decFloat fmt b
    match op with
    | 0 => encFloat fmt infTable .ne (Num.add false p q)
    | 1 => if q.isNaN then a else if p.isNaN then b else if Num.lt p q then b else a
    | _ => if q.isNaN then a else if p.isNaN then b else if Num.lt q p then b else a
  else
    let v (n : Nat) : Int := if fmt = 2 then (BitVec.ofNat 32 n).toInt else (n % 2 ^ 32 : Nat)
    match op with
    | 0 => (a + b) % 2 ^ 32
    | 1 => if v a < v b then b else a
    | _ => if v b < v a then b else a

/-- The element size of a reduction's format. -/
def redWidth (fmt : Nat) : Nat := if fmt = 1 then 2 else 4

/-- The elements of some bytes. -/
def elemsOf (e : Nat) (bs : List Byte) : List Nat :=
  (List.range (bs.length / e)).map fun i => leNat ((bs.drop (e * i)).take e)

/-- The tree over positions of senders, element by element; an absent sender's position is empty (R105, R262). -/
def reduceBytes (op fmt n : Nat) (src : List (Nat × List Byte)) : List Byte :=
  let e := redWidth fmt
  let ls := src.map fun p => (p.1, elemsOf e p.2)
  let len := (ls.map fun p => p.2.length).foldl max 0
  (List.range len).flatMap fun i =>
    leBytes e ((tree (combine op fmt) ((List.range n).map fun r =>
      (ls.find? fun p => p.1 == r).bind fun p => p.2[i]?)).getD 0)

/-! ## Peer reductions (R262) -/

/-- An addition to counter `n` of core `i` of a launch: at once, or, while the launch is stopped, held for its restart
(R271). -/
def State.countOrHold (s : State) (l : LaunchId) (i : Nat) (n : BitVec 6) (v : Word) : State :=
  match s.launch? l with
  | some la =>
    if la.stoppedNow then
      { s with launches := s.launches.map fun y => if y.id == l then { y with held := y.held ++ [(i, n, v)] } else y }
    else s.mapCores (fun c => c.lid == l && c.index == i) fun c => { c with regs := c.regs.addN n v }
  | none => s

/-- PEER_REDUCE_CONTRIBUTION: a rank's bytes reach window `w` of the acting core. A second contribution from a rank
faults and ends the reduction without a result; with every expected rank the result is written and the counter rises,
in a stopped context at its restart, with the bytes in its image (R262, R271). [DEDUCED: log 89, 120, 156, 157] -/
def execPeerReduceContribution (w : BitVec 6) (rank : Nat) (bs : List Byte) (s : State) :
    Host.Outcome State Fault Refusal :=
  match s.actor with
  | none => .fault .noActor
  | some c =>
    let x := s.ctx c
    let w0 := windowWord c.windows w.toNat 0
    let w3 := windowWord c.windows w.toNat 3
    if !(w0.getLsbD 0 && fieldOf w0.toNat 1 2 == 2) then .fault .noSuchEvent
    else
      let mine := c.net.peer.filter fun p => p.1 == w.toNat
      let rest := c.net.peer.filter fun p => p.1 != w.toNat
      if mine.any fun p => p.2.1 == rank then
        .next (s.setActor (({ c with net := { c.net with peer := rest } }).raise x
          { cause := 0x12, kind := 1, engine := 9, address := w.toNat * 2 ^ 58, info0 := rank }))
      else
        let all := mine ++ [(w.toNat, rank, bs)]
        if all.length < fieldOf w3.toNat 32 20 then
          .next (s.setActor { c with net := { c.net with peer := rest ++ all } })
        else
          let g := (s.part? c.lid.part.toNat).bind fun p => (p.groups.find? fun g => g.1 == fieldOf w3.toNat 8 4)
          let n := g.elim (1 + (all.map fun p => p.2.1).foldl max 0) fun g => g.2.members.length * g.2.w * g.2.h
          let out := reduceBytes (fieldOf w3.toNat 2 2) (fieldOf w3.toNat 0 2) n (all.map fun p => p.2)
          let as := addrsOf false (localAddr (windowWord c.windows w.toNat 1)) out.length
          let c : Core := { c with net := { c.net with peer := rest } }
          let ok := c.mayWrite x { cause := 0x0A, kind := 1, engine := 9 } as
          let c := if ok.2 then (ok.1.busy 5).spWrite x.now 0 false as out else ok.1
          .next (((s.setActor c).intoImage (if ok.2 then as else [])).countOrHold c.lid c.index
            (BitVec.ofNat 6 (fieldOf w3.toNat 4 4)) 1)

end Sys2Proof.Machine
end

