-- ==== Sys2Proof/Machine/Channel.lean ====
section
/-!
DEFINITION. The home channel (R42, R43, R108, R109, R223 to R228): the timing model, the channel commands, the data of
chrd and chwr, and the refresh deadline; and the X class (R134, R230).
-/

namespace Sys2Proof.Machine

/-! ## The timing model (R223, R224) -/

/-- Bank `b` of a channel. -/
def Chan.bank (h : Chan) (b : Nat) : Bank := if p : b < 30 then h.banks[b] else {}

/-- The channel with bank `b` changed. -/
def Chan.setBank (b : Nat) (f : Bank → Bank) (h : Chan) : Chan :=
  if p : b < 30 then { h with banks := h.banks.set b (f h.banks[b]) } else h

/-- Fewer than `n` cycles have passed since a command, where there was one. -/
def sooner (x : Nat) (at_ : Option Nat) (n : Nat) : Bool := at_.elim false fun t => decide (x < t + n)

/-- A bank is within a refresh (R224, row 0x0A). -/
def Chan.inRefresh (h : Chan) (x b : Nat) : Bool := sooner x (h.bank b).refb 136 || sooner x h.ref 298

/-- A bank is open. -/
def Bank.isOpen (b : Bank) : Bool := b.row.isSome

/-- A bank is refreshing: closed, and within a refresh. -/
def Chan.refreshing (h : Chan) (x b : Nat) : Bool := !(h.bank b).isOpen && h.inRefresh x b

/-- A bank is idle. -/
def Chan.isIdle (h : Chan) (x b : Nat) : Bool := !(h.bank b).isOpen && !h.inRefresh x b

/-- The open banks. -/
def Chan.openBanks (h : Chan) : List Nat := (List.range 30).filter fun b => (h.bank b).isOpen

/-- The bank group of a bank (R42). -/
def groupOf (b : Nat) : Nat := b / 4

/-- A time of a group's last command. -/
def groupTime (v : Vector (Option Nat) 8) (g : Nat) : Option Nat := if h : g < 8 then v[g] else none

/-- A constraint over the groups: `same` cycles in the command's own group, `other` in another. -/
def groupsSoon (x g : Nat) (v : Vector (Option Nat) 8) (same other : Nat) : Bool :=
  (List.range 8).any fun k => sooner x (groupTime v k) (if k = g then same else other)

/-- The fourth-most-recent chact of the channel. -/
def Chan.fourth (h : Chan) : Option Nat := (h.acts[3]?).map fun p => p.1

/-- A bus cycle of `n` from field cycle `x` lies in a system window (R43, R225). -/
def inWindow (x n : Nat) : Bool := (List.range n).any fun i => (x + i) % 4096 < 256

/-- A bank may close (R224, row 0x08). -/
def closesEarly (x : Nat) (b : Bank) : Bool := sooner x b.act 30 || sooner x b.rd 4 || sooner x b.wr 15

/-- The commands of the timing model. -/
inductive ChCmd where
  | act | rd | wr | pre | pra | ref | refb
deriving DecidableEq, Repr

/-- The first row of R224 that command `k` to bank `b` fails at cycle `x`, field cycle `fc`. -/
def Chan.check (h : Chan) (k : ChCmd) (b x fc : Nat) : Option Nat :=
  let bk := h.bank b
  let g := groupOf b
  let late : Bool × Nat := (h.inRefresh x b, 0x0A)
  let apart : Bool × Nat := (h.refb.elim false fun p => p.2 != b && decide (x < p.1 + 7), 0x0B)
  let bus (n : Nat) : Bool × Nat := (inWindow fc n, 0x0C)
  match k with
  | .act =>
    firstCode
      [(!h.isIdle x b, 1), (sooner x bk.pre 13 || sooner x bk.act 43, 2),
       (h.acts.any fun p => p.2 != b && decide (x < p.1 + (if groupOf p.2 = g then 4 else 2)), 3),
       (sooner x h.fourth 16, 4), late, apart, bus 1]
  | .rd =>
    firstCode
      [(!bk.isOpen, 1), (sooner x bk.act 13, 5), (groupsSoon x g h.col 2 1, 6), (groupsSoon x g h.wr 8 3, 7), late, bus 9]
  | .wr => firstCode [(!bk.isOpen, 1), (sooner x bk.act 13, 5), (groupsSoon x g h.col 2 1, 6), late, bus 5]
  | .pre => firstCode [(h.refreshing x b, 1), (bk.isOpen && closesEarly x bk, 8), late, bus 1]
  | .pra => firstCode [(h.openBanks.any fun b => closesEarly x (h.bank b), 8), bus 1]
  | .ref => firstCode [((List.range 30).any fun b => !h.isIdle x b || sooner x (h.bank b).pre 13, 9), bus 1]
  | .refb => firstCode [(!h.isIdle x b, 1), (sooner x bk.pre 13, 9), late, apart, bus 1]

/-- The channel's column-command times after one in bank `b`. -/
def Chan.column (b x : Nat) (h : Chan) : Chan :=
  if p : groupOf b < 8 then { h with col := h.col.set (groupOf b) (some x) } else h

/-- A bank closed at cycle `x`. -/
def Bank.close (x : Nat) (b : Bank) : Bank := { b with row := none, pre := some x, pages := [] }

/-- The model after a command that passed (R223). -/
def Chan.apply (k : ChCmd) (b x row : Nat) (h : Chan) : Chan :=
  match k with
  | .act =>
    let h := h.setBank b fun y => { y with row := some row, act := some x, pages := [] }
    { h with acts := ((x, b) :: h.acts).take 4 }
  | .rd => (h.setBank b fun y => { y with rd := some x }).column b x
  | .wr =>
    let h := (h.setBank b fun y => { y with wr := some x }).column b x
    if p : groupOf b < 8 then { h with wr := h.wr.set (groupOf b) (some x) } else h
  | .pre => if (h.bank b).isOpen then h.setBank b (Bank.close x) else h
  | .pra => h.openBanks.foldl (fun h b => h.setBank b (Bank.close x)) h
  | .ref => { h with ref := some x, banks := h.banks.map fun y => { y with last := x, warned := false } }
  | .refb =>
    let h := h.setBank b fun y => { y with refb := some x, last := x, warned := false }
    { h with refb := some (x, b) }

/-- An unmapped-row fault, precise to the bundle (R42, R227, R263). -/
def Core.unmapped (x : Ctx) (i : Instr) (b row : Nat) (c : Core) : Core :=
  c.raise x { c.preciseTrap i 8 0 with address := b + row * 65536 }

/-- The bank that a failed command's record names: its own, or of chpra and chref the lowest that fails the row.
[DESIGN CHOICE: log 103] -/
def Chan.failingBank (h : Chan) (k : ChCmd) (b x : Nat) : Nat :=
  match k with
  | .pra => (h.openBanks.find? fun b => closesEarly x (h.bank b)).getD 0
  | .ref => ((List.range 30).find? fun b => !h.isIdle x b || sooner x (h.bank b).pre 13).getD 0
  | _ => b

/-- A command holds the bus in this cycle (R225). -/
def Chan.busBusy (h : Chan) (x : Nat) : Bool :=
  h.banks.toList.any fun b => sooner x b.rd 9 || sooner x b.wr 5

/-- A channel command: the unmapped-row fault first, then the checks of R224, each of which suppresses it; a command
that passes updates the model, and `eff` is what else it does (R223, R227). -/
def Core.channel (x : Ctx) (i : Instr) (k : ChCmd) (b row : Nat) (unmap : Bool) (eff : Core → Core) (c : Core) : Core :=
  if unmap || 30 ≤ b then c.unmapped x i b row
  else match c.chan.check k b x.now x.field with
    | some d => c.raise x { c.preciseTrap i 7 d with address := c.chan.failingBank k b x.now }
    | none => (eff { c with chan := c.chan.apply k b x.now row }).busy 6

/-- The row map holds a context row's page (R281). [DEDUCED: log 94] -/
def Core.rowMapped (c : Core) (row : Nat) : Bool := (mapRow c.phys.rowmap row).isSome

/-- Opens a context row. -/
def execChact (k : BitVec 5) (r : BitVec 15) :=
  issueSyl (.chact k r) fun x c => c.channel x (.chact k r) .act k.toNat r.toNat (!c.rowMapped r.toNat) id

/-- Opens the context row that a register names; a bit above 14 is an unmapped row (R227). -/
def execChactReg (k : BitVec 5) (g : BitVec 6) :=
  issueSyl (.chactReg k g) fun x c =>
    let w := (c.regs.readG g).toNat
    c.channel x (.chactReg k g) .act k.toNat (w % 32768) (32768 ≤ w || !c.rowMapped w) id

/-- Closes a bank. -/
def execChpre (k : BitVec 5) := issueSyl (.chpre k) fun x c => c.channel x (.chpre k) .pre k.toNat 0 false id
/-- Closes every open bank of 0 to 29. -/
def execChpra := issueSyl .chpra fun x c => c.channel x .chpra .pra 0 0 false id
/-- Refreshes banks 0 to 29. -/
def execChref := issueSyl .chref fun x c => c.channel x .chref .ref 0 0 false id
/-- Refreshes one bank. -/
def execChrefb (k : BitVec 5) := issueSyl (.chrefb k) fun x c => c.channel x (.chrefb k) .refb k.toNat 0 false id

/-! ## Columns (R108, R228) -/

/-- Where column `col` of context row `row` of bank `b` stands in the channel's contents. -/
def Core.columnAt (b row col : Nat) (c : Core) : Nat :=
  (b * 32768 + (mapRow c.phys.rowmap row).getD row) * 1024 + col * 64

/-- The row page of a read: the issue cycle of its first read (R222). [DEDUCED: log 81] -/
def Core.pageOf (tag b now : Nat) (c : Core) : Nat := ((c.chan.bank b).pages.find? fun p => p.1 == tag).elim now (·.2)

/-- A chrd: the column as it stands after every earlier chwr, written at issue+48 (R108, R228). [DEDUCED: log 86] -/
def Core.readColumn (x : Ctx) (i : Instr) (b col addr tag : Nat) (h : Option Nat) (prod : Bool) (c : Core) : Core :=
  let row := (c.chan.bank b).row.getD 0
  let at_ := c.columnAt b row col
  let u := c.readUnits x { c.preciseTrap i 0 0 with kind := 1 } 7 (unitsOf at_ 64)
  let c := u.1
  let page := c.pageOf tag b x.now
  let c : Core := if tag = 0 then c else { c with chan := c.chan.setBank b fun y =>
    { y with pages := if y.pages.any fun p => p.1 == tag then y.pages else y.pages ++ [(tag, x.now)] } }
  c.fly { c.newFlight x i 6 with
    addr := addr, len := 64, handle := h, prod := prod, page := page,
    bytes := if u.2 then c.phys.hbm.bytes 0 at_ 64 else [],
    streams := [{ eff := .chData, first := x.now + 48, n := 1 }] }

/-- Reads a column to a scratchpad address. -/
def execChrd (k : BitVec 5) (n : BitVec 4) (g : BitVec 6) (t : BitVec 4) :=
  issueSyl (.chrd k n g t) fun x c =>
    let i : Instr := .chrd k n g t
    c.channel x i .rd k.toNat 0 false fun c => c.readColumn x i k.toNat n.toNat (localAddr (c.regs.readG g)) t.toNat none false

/-- Reads a column to its place in a handle's slot; column 15 is a producer (R228). -/
def execChrdHandle (k : BitVec 5) (n h e t : BitVec 4) :=
  issueSyl (.chrdHandle k n h e t) fun x c =>
    let i : Instr := .chrdHandle k n h e t
    c.channel x i .rd k.toNat 0 false fun c =>
      c.readColumn x i k.toNat n.toNat ((c.fillSlot h + 64 * n.toNat) % 4194304) t.toNat (some h.toNat) (n == 15)

/-- A chwr: its source is read at issue+2 and the column written then (R96, R108). -/
def Core.writeColumn (x : Ctx) (i : Instr) (b col addr : Nat) (c : Core) : Core :=
  c.fly { c.newFlight x i 6 with
    addr := addr, len := 64, base := c.columnAt b ((c.chan.bank b).row.getD 0) col,
    streams := [{ eff := .chSource, first := x.now + 2, n := 1 }] }

/-- Writes a column from a scratchpad address. -/
def execChwr (k : BitVec 5) (n : BitVec 4) (g : BitVec 6) :=
  issueSyl (.chwr k n g) fun x c =>
    let i : Instr := .chwr k n g
    c.channel x i .wr k.toNat 0 false fun c => c.writeColumn x i k.toNat n.toNat (localAddr (c.regs.readG g))

/-- Writes a column from its place in the handle slot at the drain pointer. -/
def execChwrHandle (k : BitVec 5) (n h e : BitVec 4) :=
  issueSyl (.chwrHandle k n h e) fun x c =>
    let i : Instr := .chwrHandle k n h e
    c.channel x i .wr k.toNat 0 false fun c =>
      c.writeColumn x i k.toNat n.toNat ((c.drainSlot h + 64 * n.toNat) % 4194304)

/-- CHANNEL_READ_DATA: the 64 bytes of a chrd are written, unless dcan suppressed them (R109, R222, R228). -/
def Core.chData (x : Ctx) (f : Flight) (c : Core) : Core :=
  let as := addrsOf false f.addr 64
  if f.cancelled || f.bytes == [] then c
  else
    let w := c.writeOk x f 0 as
    if !w.2 then w.1
    else ((w.1.spWrite x.now f.seqno false as f.bytes).watchEng x f true 0 as).complete x f 0

/-- CHANNEL_WRITE_SOURCE_READ: the 64 bytes of a chwr are read and the column takes them (R108, R228).
[DEDUCED: log 86] -/
def Core.chSource (x : Ctx) (f : Flight) (c : Core) : Core :=
  let as := addrsOf false f.addr 64
  let r := c.readOk x f 0 as
  if !r.2 then r.1
  else
    let c := r.1.watchEng x f false 0 as
    let bs := as.map fun a => c.sp.mem.get 0 a
    ({ c with phys := { c.phys with hbm := Mem.putAll 0 c.phys.hbm f.base bs } }).writeUnits 7 f.base 64

/-- Writes a chrd's data. -/
def execChannelReadData (u j : Nat) := coreEvent u j fun x f _ c => c.chData x f
/-- Reads a chwr's source. -/
def execChannelWriteSourceRead (u j : Nat) := coreEvent u j fun x f _ c => c.chSource x f

/-! ## Refresh (R43, R226) -/

/-- A word is a channel syllable: class D, opcode 0x10 to 0x16 (R132). -/
def isChannelWord (w : BitVec 32) : Bool := classOf w == 6 && 16 ≤ fieldOf w.toNat 22 6 && fieldOf w.toNat 22 6 ≤ 22

/-- A context whose placed body holds a channel syllable refreshes its own banks (R43). -/
def Core.programRefreshed (c : Core) : Bool := c.code.any isChannelWord

/-- The deadline of a bank has passed and has not been reported (R226). -/
def Bank.overdue (now : Nat) (b : Bank) : Bool := b.last + 26520 < now && !b.warned

/-- REFRESH_DEADLINE: bank `b` was not refreshed in time (R226); the report names no bundle (R263). -/
def execRefreshDeadline (b : Nat) :=
  fun s => onCore s fun x c =>
    ({ c with chan := c.chan.setBank b fun y => { y with warned := true } }).raise x
      { cause := 7, detail := 0x0D, engine := 10, address := b }

/-! ## The X class -/

/-- Occupies the class-X position and does nothing (R230). -/
def execNop := issueSyl .nop fun _ c => c
/-- A hint that executes as nothing on this part (R134). -/
def execHpf (p : BitVec 22) := issueSyl (.hpf p) fun _ c => c
/-- Any other syllable of the hint space: nothing, whatever its payload (R134). -/
def execHintSpace (o : BitVec 6) (p : BitVec 22) := issueSyl (.hintSpace o p) fun _ c => c
/-- An undefined class and opcode: the illegal-syllable trap, detail 0x01 (R133, R137). -/
def execUndefinedOpcode (w : BitVec 32) := issueSyl (.undefinedOpcode w) fun _ c => c

end Sys2Proof.Machine
end

