-- ==== Sys2Proof/Machine/Merge.lean ====
section
/-!
DEFINITION. The merge unit (R48, R103 to R107, R217, R219, R286): the records that landed in the previous furrow apply
at the one instant origin+seam, in logical order, or not at all.
-/

namespace Sys2Proof.Machine

/-- The work of a merge in cycles (R103). -/
def mergeWork (l : List Rec) : Nat := if recSizes l = 0 then 0 else 4 + ceilDiv (recSizes l) 1024

/-- Whether record `a` comes before `b` among records of one kind: sender, then order at the sender (R103). -/
def recBefore (a b : Rec) : Bool := a.sender < b.sender || (a.sender == b.sender && a.order ≤ b.order)

/-- A record put into a list in the order of R103. -/
def insertRec (r : Rec) : List Rec → List Rec
  | [] => [r]
  | y :: l => if recBefore y r then y :: insertRec r l else r :: y :: l

/-- Records in the order of R103. -/
def sortRecs (l : List Rec) : List Rec := l.foldl (fun s r => insertRec r s) []

/-- The key of a reduce record. -/
def Rec.key (r : Rec) : Option Nat :=
  match r.kind with
  | .reduce k _ _ => some k
  | _ => none

/-- Two overlapping records of one furrow conflict (R104, R219). -/
def recsConflict (a b : Rec) : Bool :=
  match a.kind, b.kind with
  | .counter .., _ | _, .counter .. => false
  | .ret, _ | _, .ret => true
  | .plain, .plain => a.sender != b.sender
  | .plain, .reduce .. | .reduce .., .plain => true
  | .plain, .atomic .. | .atomic .., .plain => a.sender != b.sender
  | .reduce k _ _, .reduce m _ _ => k != m
  | .reduce .., .atomic .. | .atomic .., .reduce .. => true
  | .atomic .., .atomic .. => false

/-- The lowest byte that two records both touch. -/
def commonByte (a b : Rec) : Option Nat :=
  let lo := max a.addr b.addr
  if lo < min (a.addr + a.bytes.length) (b.addr + b.bytes.length) then some lo else none

/-- The pairs of a list, each once. -/
def pairsOf {α : Type} : List α → List (α × α)
  | [] => []
  | a :: l => (l.map fun b => (a, b)) ++ pairsOf l

/-- The two lowest senders among the records that touch a byte; one sender stands in both places (R104).
[DEDUCED: log 32] -/
def twoSenders (l : List Rec) (byte : Nat) : Nat × Nat :=
  let ss := (l.filter fun r => r.addr ≤ byte && byte < r.addr + r.bytes.length &&
    (match r.kind with
      | .counter .. => false
      | _ => true)).foldl (fun s r => insertNat r.sender s) []
  (ss.getD 0 0, ss.getD 1 (ss.getD 0 0))

/-- The conflicts of a reduce key: a mismatch with its lowest sender, or a second dred of one sender (R104, R105). -/
def keyConflict (l : List Rec) (k : Nat) : List (Nat × Nat × Nat) :=
  match sortRecs (l.filter fun r => r.key == some k) with
  | [] => []
  | r :: rs =>
    let twice := ((pairsOf (r :: rs)).find? fun p => p.1.sender == p.2.sender).map fun p => (r.addr, p.1.sender, p.1.sender)
    let other := (rs.find? fun q => q.sender != r.sender &&
      (q.addr != r.addr || q.bytes.length != r.bytes.length || q.kind != r.kind)).map fun q => (r.addr, r.sender, q.sender)
    other.toList ++ twice.toList

/-- The keys of some records, in ascending order. -/
def keysOf (l : List Rec) : List Nat := (l.filterMap Rec.key).foldl (fun s k => insertNat k s) []

/-- Every conflict of a seam, as byte and senders. -/
def conflicts (l : List Rec) : List (Nat × Nat × Nat) :=
  ((pairsOf l).filterMap fun p =>
    if recsConflict p.1 p.2 then (commonByte p.1 p.2).map fun b => (b, twoSenders l b) else none) ++
  (keysOf l).flatMap (keyConflict l)

/-- The conflict at the lowest byte; of several there, one of two records comes before one of a key, and a key's mismatch
before its second dred. [DESIGN CHOICE: log 108] -/
def firstConflict (l : List Rec) : Option (Nat × Nat × Nat) :=
  (conflicts l).foldl (fun m p => match m with
    | none => some p
    | some q => if p.1 < q.1 then some p else some q) none

/-- A merge-time trap (R264). -/
def mergeTrap (cause detail info0 info1 : Nat) : TrapRec :=
  { cause := cause, detail := detail, kind := 2, engine := 11, info0 := info0, info1 := info1 }

/-- A merged write's watchpoint match: the first matching record is named, and others set the more-traps flag (R286).
[DEDUCED: log 88] -/
def Core.watchMerge (x : Ctx) (as : List Nat) (sender kind : Nat) (c : Core) : Core :=
  let hit := (List.range 4).any fun i => c.watchMask i true .merge as != 0
  let again := c.trap.elim false fun t => t.raised == x.now && t.cause == 0x10 && t.engine == 11
  let c := c.watch x true .merge as fun _ => mergeTrap 0x10 0 0 (sender + kind * 65536)
  if hit && again then { c with trap := c.trap.map fun t => { t with more := true } } else c

/-- Bytes that the merge unit writes, in the linear view (R93, R97). [DEDUCED: log 155, 160] -/
def Core.mergeWrite (x : Ctx) (addr sender kind : Nat) (bs : List Byte) (c : Core) : Core :=
  let as := addrsOf false addr bs.length
  (c.spWrite x.now (x.now + 1) false as bs).watchMerge x as sender kind

/-- The new element of an atomic (R219): op 0 add, 1 min, 2 max, 3 exchange; `f` gives width and sign. -/
def atomicNew (op f : BitVec 2) (t v : Nat) : Nat :=
  let w := 8 * atomWidth f
  let z (n : Nat) : Int := if f.getLsbD 0 then (BitVec.ofNat w n).toInt else (n % 2 ^ w : Nat)
  match op.toNat with
  | 0 => (t + v) % 2 ^ w
  | 1 => if z v < z t then v else t
  | 2 => if z t < z v then v else t
  | _ => v

/-- An atomic applied, and the return record of an amor, which lands in this furrow: at once, or 8 cycles later on another
die (R4, R17, R106). [DEDUCED: log 80] -/
def Core.applyAtomic (x : Ctx) (r : Rec) (op f : BitVec 2) (ret : Option Nat) (c : Core) : Core :=
  let n := atomWidth f
  let u := c.readUnits x (mergeTrap 0x0D 0 0 0) 0 (unitsOf r.addr n)
  let c := u.1
  if !u.2 then c
  else
  let old := leNat (c.sp.mem.bytes 0 r.addr n)
  let c := c.mergeWrite x r.addr r.sender 2 (leBytes n (atomicNew op f old (leNat r.bytes)))
  match ret with
  | none => c
  | some a =>
    let back : Rec := { kind := .ret, sender := c.index, order := c.nextUid, dest := r.sender, addr := a,
                        bytes := leBytes n old
                        arrive := x.now + (if x.dieOf c.index = x.dieOf r.sender then 0 else 8) }
    { c with net := { c.net with out := c.net.out ++ [back] }, nextUid := c.nextUid + 1 }

/-- A record applied, a reduce record apart. -/
def Core.applyRec (x : Ctx) (c : Core) (r : Rec) : Core :=
  match r.kind with
  | .plain => c.mergeWrite x r.addr r.sender 0 r.bytes
  | .atomic op f ret => c.applyAtomic x r op f ret
  | .ret => c.mergeWrite x r.addr r.sender 3 r.bytes
  | .counter n a => { c with regs := c.regs.addN n a }
  | .reduce .. => c

/-- A key's reduce result replaces the destination bytes (R105, R217). -/
def Core.applyKey (x : Ctx) (l : List Rec) (c : Core) (k : Nat) : Core :=
  let rs := sortRecs (l.filter fun r => r.key == some k)
  match rs with
  | r :: _ =>
    match r.kind with
    | .reduce _ op f =>
      c.mergeWrite x r.addr r.sender 1
        (reduceBytes op.toNat f.toNat x.cores (rs.map fun q => (q.sender, q.bytes)))
    | _ => c
  | [] => c

/-- The records of a kind, in order. -/
def recsOf (p : RecKind → Bool) (l : List Rec) : List Rec := sortRecs (l.filter fun r => p r.kind)

/-- The units of the landing area that hold a record (R304, R305). [DEDUCED: log 149] -/
def Ctx.recUnits (x : Ctx) (r : Rec) : List Nat := r.blocks.flatMap fun b => unitsOf (x.blockAddr b) 64

/-- The merge unit reads the landed records; those with a unit that cannot be corrected are given back (R103, R304).
[DEDUCED: log 149] -/
def Core.readLanded (x : Ctx) (c : Core) : Core × List Rec :=
  c.net.prev.foldl (fun r y =>
    let u := r.1.readUnits x (mergeTrap 0 0 0 0) 0 (x.recUnits y)
    (u.1, if u.2 then r.2 else r.2 ++ [y])) (c, [])

/-- Every record of a seam applied in the order of R103, but for those of `lost`, which could not be read, and the reduce
results that one of them takes part in (R66, R304). [DEDUCED: log 149] -/
def Core.applySeam (x : Ctx) (lost : List Rec) (c : Core) : Core :=
  let l := c.net.prev.filter fun r => !lost.contains r
  let c := (recsOf (fun k => match k with
    | .plain => true
    | _ => false) l).foldl (Core.applyRec x) c
  let c := ((keysOf l).filter fun k => !lost.any fun r => r.key == some k).foldl (Core.applyKey x l) c
  let c := (recsOf (fun k => match k with
    | .atomic .. => true
    | _ => false) l).foldl (Core.applyRec x) c
  let c := (recsOf (fun k => match k with
    | .ret | .counter .. => true
    | _ => false) l).foldl (Core.applyRec x) c
  { c with net := { c.net with prev := [] } }

/-- The mark of a once-per-furrow check: 0 the merge, 1 the missing head, 2 the overrun. -/
def Core.markChecked (k : Nat) (c : Core) : Core := { c with seq := { c.seq with checked := insertNat k c.seq.checked } }

/-- MERGE at origin+seam: an unfinished merge, a conflict, or the late block of this origin leaves the whole seam
unapplied (R48, R103, R104). [DEDUCED: log 149] -/
def Core.merge (x : Ctx) (c : Core) : Core :=
  let c := c.markChecked 0
  if c.net.prev.isEmpty || c.net.lateFault then c
  else if descSeam x.la.desc < mergeWork c.net.prev then c.raise x (mergeTrap 4 7 0 0)
  else
    let r := c.readLanded x
    match firstConflict c.net.prev with
    | some k => r.1.raise x (mergeTrap 9 0 (k.2.1 + k.2.2 * 65536) 0)
    | none => r.1.applySeam x r.2

/-- Applies the previous furrow's landed records. -/
def execMerge := fun s => onCore s Core.merge

end Sys2Proof.Machine
end

