-- ==== Sys2Proof/Machine/Loader.lean ====
section
/-!
DEFINITION. The loader (R248 to R250, R258, R316 to R321, R326): joining the units of a function, its relocations, the
static walk that gives each bundle its furrows, and the checks that refuse a sheaf or a launch.
-/

namespace Sys2Proof.Machine

/-! ## The join (R318, R319) -/

/-- A unit's section for a core; a core without one has the common code alone. -/
def unitOwn (u : CodeUnit) (core : Nat) : Section := ((u.cores.find? fun p => p.1 == core).map (·.2)).getD {}

/-- The syllables of a unit's common code, to the packet's end (R313). -/
def unitCommonLen (u : CodeUnit) : Nat := ceilTo u.common.code.length 8

/-- The longest core section of a unit, to which every core is padded (R319). -/
def unitCoreLen (u : CodeUnit) : Nat := (u.cores.map fun p => ceilTo p.2.code.length 8).foldl max 0

/-- One more than a unit's highest declared furrow number. -/
def unitFurrowSpan (u : CodeUnit) : Nat := (u.furrows.map fun d => d.num + 1).foldl max 0

/-- A unit with the bases the join gives it, code, furrows, handles, and the syllables to which its core sections are
padded for the units after it. -/
structure Based where
  unit : CodeUnit
  pad : Nat
  code : Nat
  furrow : Nat
  handle : Nat
deriving DecidableEq, Repr

/-- The units in order with their bases; what the last unit's code needs no padding for (R319). -/
def basedUnits (us : List CodeUnit) : List Based :=
  (us.zipIdx.foldl (fun (r : List Based × Nat × Nat × Nat) u =>
    (r.1 ++ [{ unit := u.1, pad := if u.2 + 1 < us.length then unitCoreLen u.1 else 0, code := r.2.1, furrow := r.2.2.1,
               handle := r.2.2.2 }],
      r.2.1 + unitCommonLen u.1 + unitCoreLen u.1, r.2.2.1 + unitFurrowSpan u.1, r.2.2.2 + u.1.nhandles)) ([], 0, 0, 0)).1

/-- Words padded with fills to `n`. -/
def padTo (n : Nat) (ws : List (BitVec 32)) : List (BitVec 32) := ws ++ List.replicate (n - ws.length) fillWord

/-- A unit's code for a core, as nfas numbers it: the common code, then the core's own section to a packet's end, or to
the longest section where units follow (R313, R318, R319). [DEDUCED: log 46] -/
def unitCode (b : Based) (core : Nat) : List (BitVec 32) :=
  let own := (unitOwn b.unit core).code
  padTo (unitCommonLen b.unit) b.unit.common.code ++ padTo (max b.pad (ceilTo own.length 8)) own

/-- A label's value once the units are joined (R319). -/
def symbolValue (bs : List Based) (s : Symbol) : Int :=
  match bs[s.unit]? with
  | none => 0
  | some b => match s.kind with
    | .bundle => (s.value + b.code : Nat)
    | .furrow => (s.value + b.furrow : Nat)
    | .handle => (s.value + b.handle : Nat)

/-! ## Relocations (R320, R321) -/

/-- Where a relocation type puts its value: lowest bit and width in the syllable, width in the lend. -/
def relocForm (t : Nat) : Option (Nat × Nat × Nat) :=
  match t with
  | 0x01 => some (0, 10, 9)
  | 0x02 => some (0, 16, 9)
  | 0x03 => some (0, 22, 9)
  | 0x04 => some (0, 7, 9)
  | 0x05 => some (0, 10, 9)
  | 0x06 => some (12, 9, 9)
  | 0x07 => some (0, 0, 9)
  | 0x08 => some (8, 8, 0)
  | 0x09 => some (0, 8, 0)
  | 0x0A => some (12, 4, 0)
  | 0x0B => some (16, 4, 0)
  | 0x0C => some (10, 4, 0)
  | 0x0D => some (8, 4, 0)
  | _ => none

/-- A value lies in a signed field of `n` bits. -/
def fitsS (n : Nat) (v : Int) : Bool := -(2 ^ (n - 1) : Int) ≤ v && v < (2 ^ (n - 1) : Int)

/-- A value lies in a natural field of `n` bits. -/
def fitsU (n : Nat) (v : Int) : Bool := 0 ≤ v && v < (2 ^ n : Int)

/-- A word with the field of `n` bits at `lo` replaced. [DEDUCED: log 47] -/
def setField (w : BitVec 32) (lo n v : Nat) : BitVec 32 :=
  BitVec.ofNat 32 (w.toNat - fieldOf w.toNat lo n * 2 ^ lo + v % 2 ^ n * 2 ^ lo)

/-- A payload of form D that its syllable's entry admits: its reserved bits are zero, a dcan names a tag and a wld, wset or
wclr a bank (R130 to R133, R196, R197, R222). [DEDUCED: log 47] -/
def payloadOk (d : Decoded) : Bool :=
  match d with
  | .instr (.dcan t) => t != 0
  | .instr (.wld _ _ b _) | .instr (.wset _ b _) | .instr (.wclr _ b) => b != 0
  | .instr _ => true
  | _ => false

/-- The limits of the patched syllable's entry, with its sign or zero extension; in form D only a trap and a hint take a lend,
and the payload is what its syllable's entry admits (R10, R122, R130 to R134, R140, R141, R153, R158, R159, R214, R222, R321).
[DEDUCED: log 47] -/
def relocFits (t : Nat) (w : BitVec 32) (v : Int) : Bool :=
  match t with
  | 0x01 => match decodeSyllable w.toNat none with
    | .instr (.sshli ..) | .instr (.sshri ..) | .instr (.ssrai ..) => fitsU 6 v
    | .instr (.sqld ..) => 1 ≤ v && v ≤ 1024
    | _ => fitsS 19 v
  | 0x02 => match decodeSyllable w.toNat none with
    | .instr (.slhi ..) => fitsU 25 v
    | .instr (.sli ..) => fitsS 25 v
    | _ => fitsU 16 v
  | 0x03 => match decodeSyllable w.toNat none with
    | .instr (.trap ..) | .instr (.hpf ..) | .instr (.hintSpace ..) => fitsU 31 v
    | _ => fitsU 22 v && payloadOk (decodeSyllable (setField w 0 22 v.toNat).toNat none)
  | 0x04 => match decodeSyllable w.toNat none with
    | .instr (.scmpi _ _ _ n _ _ _) => if n = 1 then fitsU 16 v else fitsS 16 v
    | _ => fitsS 16 v
  | 0x05 => fitsU 19 v
  | 0x06 => fitsU 18 v
  | 0x07 => fitsU 9 v
  | 0x08 | 0x09 => fitsU 8 v
  | _ => fitsU 4 v

/-- The start of the bundle that holds syllable `x`: the nearest syllable at or before it with S = 1. -/
def bundleHead (ws : List (BitVec 32)) : Nat → Nat
  | 0 => 0
  | x + 1 => if startBit (codeAt ws (x + 1)) then x + 1 else bundleHead ws x

/-- A value put into syllable `x` and, where the type has a lend part, into the lend field of its position (R118, R320);
none where it does not fit. -/
def patchAt (ws : List (BitVec 32)) (x t : Nat) (v : Int) : Option (List (BitVec 32)) :=
  match relocForm t with
  | none => none
  | some (lo, n, e) =>
    let w := codeAt ws x
    if !relocFits t w v || ws.length ≤ x then none
    else
      let r := (v % (2 ^ (n + e) : Int)).toNat
      let ws' := ws.set x (setField w lo n r)
      if e = 0 then some ws'
      else
        let h := bundleHead ws x
        if classOf (codeAt ws h) != 0 || x ≤ h || h + 3 < x then none
        else some (ws'.set h (setField (codeAt ws h) (27 - 9 * (x - h)) e (r / 2 ^ n)))

/-- The value of a record's label on a core; none for a bundle label of another core's section, which has a value there
only, and for a label that does not exist (R319, R320). -/
def labelOn (f : Func) (bs : List Based) (core : Nat) (r : Reloc) : Option Int :=
  (f.symbols[r.sym]?).bind fun s =>
    if s.kind == .bundle && s.core != none && s.core != some core then none else some (symbolValue bs s + r.addend)

/-- A unit's records that apply to a core: of furrow-table entries, or of syllables (R320). -/
def Based.records (b : Based) (core : Nat) (table : Bool) : List Reloc :=
  b.unit.relocs.filter fun r => (r.type == 0x0E#8) == table && (r.core == none || r.core == some core)

/-- A unit's code for a core with its syllable relocations applied. [DEDUCED: log 46] -/
def relocated (f : Func) (bs : List Based) (b : Based) (core : Nat) : Option (List (BitVec 32)) :=
  (b.records core false).foldl
    (fun ws r => ws.bind fun ws => (labelOn f bs core r).bind fun v => patchAt ws r.syl r.type.toNat v)
    (some (unitCode b core))

/-- What the join gives a core. -/
structure Joined where
  code : List (BitVec 32)
  ftab : List (Nat × Nat)
  handles : List (Nat × Word × Word)
  tiles : List (Nat × Word)
  images : List Image                  -- in the order they are written: common, then the core's own (R317)
  sow : List Word
  occ : List Occupancy
deriving DecidableEq, Repr

/-- The sections of a unit that a core takes, the common one first. [DEDUCED: log 45] -/
def Based.sections (b : Based) (core : Nat) : List Section := [b.unit.common, unitOwn b.unit core]

/-- The joined furrow table: entries at their unit's code base, those of a relocation at the label (R46, R320).
[DEDUCED: log 45] -/
def joinedTable (f : Func) (bs : List Based) (core : Nat) : Option (List (Nat × Nat)) :=
  let es := bs.flatMap fun b => (b.sections core).flatMap fun s => s.entries.map fun e => (e.1 + b.furrow, e.2 + b.code)
  let rs := bs.flatMap fun b => (b.records core true).map fun r => (b.furrow, r)
  rs.foldl (fun t p => t.bind fun t => (labelOn f bs core p.2).bind fun v =>
      if fitsU 16 v then some (assign (p.2.syl + p.1) v.toNat t) else none)
    (some (es.foldl (fun t e => assign e.1 e.2 t) []))

/-- The join of a function for a core; none where a patched value does not fit (R318 to R321). -/
def joinFunc (f : Func) (core : Nat) : Option Joined :=
  let bs := basedUnits f.units
  let ss := bs.flatMap fun b => b.sections core
  match bs.mapM fun b => relocated f bs b core, joinedTable f bs core with
  | some ws, some t => some {
      code := ws.flatten
      ftab := t
      handles := bs.flatMap fun b => (b.sections core).flatMap fun s => s.handles.map fun h => (h.1 + b.handle, h.2)
      tiles := ss.flatMap Section.tiles
      images := (bs.flatMap fun b => b.unit.common.data) ++ bs.flatMap fun b => (unitOwn b.unit core).data
      sow := ss.flatMap Section.sow
      occ := bs.flatMap fun b => (b.sections core).flatMap fun s =>
        s.occupancy.map fun o => { o with furrow := o.furrow + b.furrow } }
  | _, _ => none

/-- The joined descriptors: number, next field and successors take the unit's furrow base (R45, R316, R318).
[DEDUCED: log 45, 167] -/
def funcDescriptors (f : Func) : List FurrowDecl :=
  (basedUnits f.units).flatMap fun b => b.unit.furrows.map fun d =>
    { num := d.num + b.furrow
      done := d.done
      succ := d.succ.map fun p => (p.1, (p.2 + b.furrow) % 256)
      desc := if descHeadland d.desc then d.desc
        else d.desc - (BitVec.ofNat 64 (descNext d.desc) <<< 48)
          + (BitVec.ofNat 64 ((descNext d.desc + b.furrow) % 256) <<< 48) }

/-- The cores whose code differs: those a section names, and one that none names. -/
def sectionCores (f : Func) : List Nat := (f.units.flatMap fun u => u.cores.map (·.1)).dedup ++ [512]

/-- No two images of one section share a byte (R317). -/
def imagesApart (s : Section) : Bool :=
  s.data.zipIdx.all fun a => s.data.zipIdx.all fun b =>
    a.2 == b.2 || a.1.addr + a.1.bytes.length ≤ b.1.addr || b.1.addr + b.1.bytes.length ≤ a.1.addr

/-- The furrow numbers that a unit's next fields and successors name stay numbers with its base (R318). -/
def Based.namesOk (b : Based) : Bool :=
  b.unit.furrows.all fun d =>
    (descHeadland d.desc || descNext d.desc + b.furrow ≤ 255) && d.succ.all fun p => p.2 + b.furrow ≤ 255

/-- The limits of the join: numbers, labels defined once, the images of a section apart (R317, R318, R320). -/
def joinOk (f : Func) (cores : List Nat) : Bool :=
  let bs := basedUnits f.units
  decide (f.symbols.map (·.name)).Nodup &&
  (f.units.all fun u => imagesApart u.common && u.cores.all fun p => imagesApart p.2) &&
  ((funcDescriptors f).all fun d => d.num ≤ 255) && bs.all Based.namesOk &&
  bs.all (fun b => b.handle + b.unit.nhandles ≤ 16) &&
  (match bs.getLast? with
    | some b => b.code + unitCommonLen b.unit + unitCoreLen b.unit ≤ 65536
    | none => false) &&
  cores.all fun c => (joinFunc f c).isSome

/-! ## The static walk (R326) -/

/-- A bundle of placed code: its length and its syllables that decode, each with its position. -/
structure Bund where
  at_ : Nat
  len : Nat
  syls : List Instr
deriving DecidableEq, Repr

/-- The bundle at `pc`, where the sequencer would enter one; a bundle with a framing fault holds no syllable that takes
effect (R136). -/
def bundAt (code : List (BitVec 32)) (pc : Nat) : Option Bund :=
  match fetchAt code pc with
  | .entry _ => none
  | .framing _ n => some { at_ := pc, len := n, syls := [] }
  | .bundle n _ ss => some {
      at_ := pc, len := n
      syls := ss.filterMap fun s => match decodeSyllable s.word.toNat s.lend with
        | .instr i => some i
        | _ => none }

/-- Every bundle of some code, in order. -/
def bundles (code : List (BitVec 32)) : List Bund :=
  (List.range code.length).filterMap fun x => if startBit (codeAt code x) then bundAt code x else none

/-- The bundle after one in program order. -/
def Bund.after (code : List (BitVec 32)) (b : Bund) : Nat := nextStart code (b.at_ + b.len)

/-- The offset of a loop's end in a bundle that holds a loop syllable. -/
def Bund.loopOff (b : Bund) : Option Nat :=
  b.syls.findSome? fun i => match i with
    | .loop _ o _ | .loopReg _ o | .loopq o => some o.toNat
    | _ => none

/-- The loops of some code: end bundle and first bundle of the body. -/
def loopEdges (code : List (BitVec 32)) (bs : List Bund) : List (Nat × Nat) :=
  bs.filterMap fun b => b.loopOff.map fun o => (b.at_ + o, b.after code)

/-- The bundles that can issue after `b` inside its furrow's walk, the edge past a loop's end apart. -/
def Bund.follow (code : List (BitVec 32)) (edges : List (Nat × Nat)) (b : Bund) : List Nat :=
  b.after code :: (edges.filter fun e => e.1 == b.at_).map (·.2)

/-- Whether a bundle holds fend. -/
def Bund.hasFend (b : Bund) : Bool := b.syls.contains .fend

/-- The walk's steps from one pair of furrow and bundle: what follows it, each with the furrow it belongs to. -/
def walkStep (code : List (BitVec 32)) (edges : List (Nat × Nat)) (fs : List FurrowDecl) (n : Nat) (b : Bund) :
    List (Nat × Nat) :=
  let on := b.follow code edges
  if b.hasFend then
    match fs.find? fun d => d.num == n with
    | some d => if descHeadland d.desc || d.done then [] else on.map fun x => (descNext d.desc, x)
    | none => []
  else
    let skip := match b.loopOff with
      | some o => (bundAt code (b.at_ + o)).toList.map (Bund.after code)
      | none => []
    (on ++ skip).map fun x => (n, x)

/-- The walk from a list of pairs still to be visited; `seen` holds the pairs reached. -/
def walk (code : List (BitVec 32)) (edges : List (Nat × Nat)) (fs : List FurrowDecl) :
    Nat → List (Nat × Nat) → List (Nat × Bund) → List (Nat × Bund)
  | 0, _, seen => seen
  | _, [], seen => seen
  | k + 1, p :: todo, seen =>
    if seen.any fun q => q.1 == p.1 && q.2.at_ == p.2 then walk code edges fs k todo seen
    else match bundAt code p.2 with
      | none => walk code edges fs k todo seen
      | some b => walk code edges fs k (walkStep code edges fs p.1 b ++ todo) ((p.1, b) :: seen)

/-- Every bundle with a furrow it belongs to (R326). -/
def attribution (j : Joined) (fs : List FurrowDecl) : List (Nat × Bund) :=
  let bs := bundles j.code
  let edges := loopEdges j.code bs
  let pairs := bs.length * fs.length
  let start := (j.ftab.filter fun e => fs.any fun d => d.num == e.1)
  walk j.code edges fs ((pairs + 1) * (edges.length + 4) + start.length) start []

/-! ## Static furrow cycles (R315) -/

/-- What a walk in program order knows of a furrow's cycles: each bundle with its cycle, where it is known. -/
abbrev Timed := List (Bund × Option Nat)

/-- A drain of an elastic furrow, after which no count is known (R315). -/
def Bund.waits (elastic : Bool) (b : Bund) : Bool :=
  elastic && b.syls.any fun i => match i with
    | .drain _ => true
    | _ => false

/-- The cycles from `pc` through the bundle that begins at `stop`, an inner loop counted within each iteration; none
where the count is not known. -/
def spanCycles (elastic : Bool) (code : List (BitVec 32)) : Nat → Nat → Nat → Option Nat
  | 0, _, _ => none
  | k + 1, pc, stop =>
    match bundAt code pc with
    | none => none
    | some b =>
      if stop < pc || b.hasFend || b.waits elastic || (b.syls.any fun i => match i with
          | .loopReg .. | .loopq .. => true
          | _ => false) then none
      else match b.syls.findSome? (fun i => match i with
          | .loop n o l => some (loopCount n l, b.at_ + o.toNat)
          | _ => none) with
        | some (n, e) =>
          match (spanCycles elastic code k (b.after code) e).map (n * ·), bundAt code e with
          | some body, some eb =>
            if e == stop then some (1 + body)
            else (spanCycles elastic code k (eb.after code) stop).map (1 + body + ·)
          | _, _ => none
        | none => if pc == stop then some 1 else (spanCycles elastic code k (b.after code) stop).map (1 + ·)

/-- The loop that a bundle holds: its end bundle, and its trip count where that is a number of the code. -/
def Bund.loopOf (b : Bund) : Option (Nat × Option Nat) :=
  b.syls.findSome? fun i => match i with
    | .loop n o l => some (b.at_ + o.toNat, some (loopCount n l))
    | .loopReg _ o | .loopq o => some (b.at_ + o.toNat, none)
    | _ => none

/-- The iterations of a loop that tell what all of them do of a cycle: the first, the second and the last.
[DEDUCED: log 42] -/
def telling (n : Nat) : List Nat := if n = 0 then [] else [0, 1, n - 1].dedup.filter (· < n)

/-- The bundles of a furrow from `pc`, each with its cycle where it is known, through fend or the end `e` of a loop's body.
A loop's body gives its bundles the cycles of the iterations that tell; what follows a loop of unknown count, or the end of
a loop that encloses the walk's start (`open_`), has none (R315, R326). [DEDUCED: log 42] -/
def timedFrom (elastic : Bool) (code : List (BitVec 32)) (open_ : List Nat) : Nat → Nat → Option Nat → Option Nat → Timed
  | 0, _, _, _ => []
  | k + 1, pc, t, e =>
    match bundAt code pc with
    | none => []
    | some b =>
      let t' := if b.waits elastic then none else t.map (· + 1)
      let past (last : Nat) (t : Option Nat) : Option Nat := if open_.contains last then none else t
      if b.hasFend then [(b, t)]
      else match b.loopOf with
        | none => (b, t) :: if e == some pc then [] else timedFrom elastic code open_ k (b.after code) (past pc t') e
        | some (l, n) =>
          let c := spanCycles elastic code k (b.after code) l
          let body (t : Option Nat) : Timed := timedFrom elastic code open_ k (b.after code) t (some l)
          let bodies := match n, c with
            | some (n + 1), some c => (telling (n + 1)).flatMap fun i => body (t'.map (· + i * c))
            | some (_ + 1), none => body t'
            | _, _ => body none
          let on := match t', n, c with
            | some t, some n, some c => some (t + n * c)
            | _, _, _ => none
          match bundAt code l with
          | some v => (b, t) :: bodies ++ if e == some l then [] else timedFrom elastic code open_ k (v.after code) (past l on) e
          | none => (b, t) :: bodies

/-- Some syllable of a bundle satisfies `p`. -/
def Bund.has (p : Instr → Bool) (b : Bund) : Bool := b.syls.any p

/-- A head syllable. -/
def isHead (i : Instr) : Bool :=
  match i with
  | .head _ => true
  | _ => false

/-- The steer register of a head (R55). [DEDUCED: log 42] -/
def headReg (i : Instr) : Option (BitVec 4) :=
  match i with
  | .head k => some k
  | _ => none

/-- A prep of steer register `k` (R53). [DEDUCED: log 42] -/
def isPrep (k : BitVec 4) (i : Instr) : Bool :=
  match i with
  | .prep n _ _ | .prepHi n _ _ => n == k
  | _ => false

/-- Where the furrow after bundle `b` of fend begins: behind it, and, where it ends the body of a loop, at that body's first
bundle (R49, R326). [DEDUCED: log 41] -/
def fallsTo (code : List (BitVec 32)) (b : Bund) : List Nat := b.follow code (loopEdges code (bundles code))

/-- Where furrow `n` begins on a core: at its table entry, and at what can follow the fend of a furrow whose next field names
it (R49, R326). [DEDUCED: log 41] -/
def furrowStarts (j : Joined) (att : List (Nat × Bund)) (fs : List FurrowDecl) (n : Nat) : List Nat :=
  (((j.ftab.filter fun e => e.1 == n).map (·.2) ++ att.flatMap fun p =>
    if p.2.hasFend && fs.any fun d => d.num == p.1 && !descHeadland d.desc && !d.done && descNext d.desc == n then
      fallsTo j.code p.2 else []).dedup).filter fun pc => (bundAt j.code pc).isSome

/-- The loops whose body holds the bundle at `pc`: end bundle and first bundle of the body. -/
def enclosing (code : List (BitVec 32)) (pc : Nat) : List (Nat × Nat) :=
  (loopEdges code (bundles code)).filter fun e => e.2 ≤ pc && pc ≤ e.1

/-- The bundles of furrow `d` from each of its starts on a core, each with its cycle. -/
def timedFurrow (j : Joined) (att : List (Nat × Bund)) (fs : List FurrowDecl) (d : FurrowDecl) : List Timed :=
  (furrowStarts j att fs d.num).map fun pc =>
    timedFrom (descElastic d.desc) j.code ((enclosing j.code pc).map (·.1)) (j.code.length + 1) pc (some 0) none

/-- A prep of furrow `d`, whose cycle is given where it is known, is too late for the head: after L−48, or, in an elastic
furrow, less than 16 cycles before the head (R53). [DEDUCED: log 42] -/
def prepLate (j : Joined) (d : FurrowDecl) (head p : Bund × Option Nat) : Bool :=
  if descElastic d.desc then match head.2, p.2 with
    | some h, some t => decide (h < t + 16)
    | _, _ => (enclosing j.code p.1.at_).isEmpty &&
        (spanCycles true j.code (j.code.length + 1) p.1.at_ head.1.at_).any fun n => n ≤ 16
  else p.2.any fun t => descLen d.desc < t + 48

/-- A head or prep that stands wrong in furrow `d` on a core, as far as the static cycles tell (R53, R55, R61): a head
without a headland, a head at another cycle than L−32 or not just before fend, and a head of whose steer register every prep
is late. [DEDUCED: log 42] -/
def headMisplaced (j : Joined) (att : List (Nat × Bund)) (fs : List FurrowDecl) (d : FurrowDecl) : Bool :=
  let mine := (att.filter fun p => p.1 == d.num).map (·.2)
  if !descHeadland d.desc then mine.any (Bund.has isHead)
  else
    (descElastic d.desc && mine.any fun b => b.has isHead && !((bundAt j.code (b.after j.code)).any Bund.hasFend)) ||
    (timedFurrow j att fs d).any fun timed =>
      (!descElastic d.desc && timed.any fun p => p.1.has isHead && p.2.any fun t => t + 32 != descLen d.desc) ||
      (timed.find? fun p => p.1.has isHead).any fun h =>
        (h.1.syls.findSome? headReg).any fun k =>
          mine.all (fun b => !b.has (isPrep k) || timed.any fun p => p.1 == b) &&
          (timed.filter fun p => p.1.has (isPrep k)).all (prepLate j d h)

/-- A dhput. -/
def isDhput (i : Instr) : Bool :=
  match i with
  | .dhput .. => true
  | _ => false


/-! ## The checks (R250) -/

/-- The furrows that can follow furrow `d` on a core: its next, or at a headland what the core's preps name (R250).
[DEDUCED: log 163] -/
def successors (att : List (Nat × Bund)) (d : FurrowDecl) : List Nat :=
  if d.done then []
  else if descHeadland d.desc then
    att.flatMap fun p => if p.1 == d.num then p.2.syls.flatMap (fun i => match i with
      | .prep _ a b | .prepHi _ a b => [a.toNat, b.toNat]
      | _ => []) else []
  else [descNext d.desc]

/-- A syllable that closes the open batch (R111, R153). -/
def closesBatch (i : Instr) : Bool :=
  match i with
  | .bclose | .drain _ => true
  | _ => false

/-- The batches that are certain to be outstanding at cycle `u`: those with a dhput issued 1 to 4 cycles before, whose first
block is read no sooner than 4 cycles after its issue (R111, R153, R220); a bundle closes a batch before its dhput joins one.
[DEDUCED: log 43] -/
def batchesBefore (l : List (Bund × Nat)) (u : Nat) : Nat :=
  let r := (l.filter fun p => p.2 < u && u ≤ p.2 + 4).foldl (fun (r : Nat × Bool) p =>
    let r := if p.1.has closesBatch && r.2 then (r.1 + 1, false) else r
    if p.1.has isDhput then (r.1, true) else r) (0, false)
  r.1 + r.2.toNat

/-- The last 4 cycles of each fixed furrow that furrow `d` follows, from cycle 0 of the count that has the origin at 4.
[DEDUCED: log 43] -/
def tailsBefore (j : Joined) (att : List (Nat × Bund)) (fs : List FurrowDecl) (d : FurrowDecl) : List (List (Bund × Nat)) :=
  (fs.filter fun e => !descElastic e.desc && (successors att e).contains d.num).flatMap fun e =>
    (timedFurrow j att fs e).map fun l => l.filterMap fun p => p.2.bind fun t =>
      if descLen e.desc ≤ t + 4 then some (p.1, t + 4 - descLen e.desc) else none

/-- A drain of a fixed furrow is certain to wait: more batches than it lets be outstanding are so at its cycle, those that the
furrow before has opened among them (R59, R111). [DEDUCED: log 43] -/
def drainWaits (j : Joined) (att : List (Nat × Bund)) (fs : List FurrowDecl) (d : FurrowDecl) : Bool :=
  !descElastic d.desc && (timedFurrow j att fs d).any fun timed => ([] :: tailsBefore j att fs d).any fun tail =>
    let l := tail ++ timed.filterMap fun p => p.2.map fun t => (p.1, t + 4)
    l.any fun p => p.1.has fun i => match i with
      | .drain n => decide (n.toNat < batchesBefore l p.2)
      | _ => false

/-- A descriptor within the limits of R45, the rectangle's apart. -/
def descriptorOk (fs : List FurrowDecl) (d : FurrowDecl) : Bool :=
  descValid d.desc && fieldOf d.desc.toNat 56 7 == 0 && 64 ≤ descLen d.desc && descSeam d.desc ≤ 4096 &&
  descSeam d.desc < descLen d.desc && (descHeadland d.desc || descDecider d.desc == 0) &&
  (descHeadland d.desc || fs.any fun e => e.num == descNext d.desc && descValid e.desc)

/-- A remote operation: dput, dred, amo, amor or a remote cadd. -/
def isRemote (i : Instr) : Bool :=
  match i with
  | .dput .. | .dred .. | .amo .. | .amor .. | .caddR .. => true
  | _ => false

/-- An amor. -/
def isAmor (i : Instr) : Bool :=
  match i with
  | .amor .. => true
  | _ => false

/-- The refresh of bank `b` by a syllable. -/
def refreshes (b : Nat) (i : Instr) : Bool :=
  match i with
  | .chref => true
  | .chrefb k => k.toNat == b
  | _ => false

/-- The cycles a furrow counts for the refresh and pre-emption bounds (R60, R250, R258). -/
def worstLen (d : FurrowDecl) : Nat := if descElastic d.desc then descLen d.desc + 4095 else descLen d.desc

/-- What a walk in program order finds of one bank's refreshes, at worst: the latest cycle of the first that is sure to
come, the earliest of the last one, the longest gap between two that follow each other, the cycles after the walk, and
whether fend ended it. -/
structure RefreshRun where
  first : Option Nat := none
  last : Option Nat := none
  gap : Nat := 0
  lo : Nat := 0
  hi : Nat := 0
  ended : Bool := false
deriving DecidableEq, Repr

/-- One walk after another. [DEDUCED: log 41] -/
def RefreshRun.append (a b : RefreshRun) : RefreshRun :=
  if a.ended then a
  else { b with
    first := a.first.orElse fun _ => b.first
    last := b.last.orElse fun _ => a.last
    gap := max (max a.gap b.gap) ((b.first.getD 0) - (a.last.getD (b.first.getD 0))) }

/-- The worse of two walks, of which either may be taken. [DEDUCED: log 41] -/
def RefreshRun.meet (a b : RefreshRun) : RefreshRun :=
  let both (f : Nat → Nat → Nat) : Option Nat → Option Nat → Option Nat
    | some x, some y => some (f x y)
    | _, _ => none
  { first := both max a.first b.first, last := both min a.last b.last, gap := max a.gap b.gap
    lo := min a.lo b.lo, hi := max a.hi b.hi, ended := a.ended && b.ended }

/-- `n` iterations, one or more, of a body of `clo` to `chi` cycles whose first has given `r`, in a furrow of `w`.
[DEDUCED: log 41] -/
def RefreshRun.repeated (w n clo chi : Nat) (r : RefreshRun) : RefreshRun :=
  if r.ended then r
  else { r with
    last := r.last.map (· + (n - 1) * clo)
    gap := match r.first, r.last with
      | some f, some l => if 2 ≤ n then max r.gap (min w (f + chi) - l) else r.gap
      | _, _ => r.gap
    lo := r.lo + (n - 1) * clo
    hi := min w (r.hi + (n - 1) * chi) }

/-- The refreshes of bank `b` from `pc`, which issues in a cycle from `lo` to `hi`, through fend or the end `e` of a loop's
body, in a furrow of at most `w` cycles: a loop of unknown count may run no time or any number of times, and at the end of a
loop that encloses the walk's start the body may come again. [DEDUCED: log 41] -/
def refreshRun (b w : Nat) (elastic : Bool) (code : List (BitVec 32)) :
    List (Nat × Nat) → Nat → Nat → Nat → Nat → Option Nat → RefreshRun
  | _, 0, _, lo, _, _ => { lo := lo, hi := w }
  | open_, k + 1, pc, lo, hi, e =>
    match bundAt code pc with
    | none => { lo := lo, hi := w }
    | some u =>
      let hi' := if u.waits elastic then w else min w (hi + 1)
      let at_ (t : Nat) : Option Nat := if u.syls.any (refreshes b) then some t else none
      let here : RefreshRun := { first := at_ hi, last := at_ lo, lo := lo + 1, hi := hi', ended := u.hasFend }
      let on (last next lo hi : Nat) : RefreshRun :=
        if e == some last then { lo := lo, hi := hi }
        else (open_.filter fun o => o.1 == last).foldl
          (fun r o => r.meet (refreshRun b w elastic code [] k o.2 lo hi none)) (refreshRun b w elastic code open_ k next lo hi e)
      if u.hasFend then here
      else match u.loopOf with
        | none => if e == some pc then here else here.append (on pc (u.after code) (lo + 1) hi')
        | some (l, n) =>
          let body := refreshRun b w elastic code open_ k (u.after code) (lo + 1) hi' (some l)
          let c := (body.lo - (lo + 1), body.hi - hi')
          let next := (bundAt code l).elim (u.after code) (Bund.after code)
          match n with
          | some 0 => here.append (on l next (lo + 1) hi')
          | some n =>
            let r := body.repeated w n c.1 (if body.hi = w then w else c.2)
            here.append (if r.ended then r else r.append (on l next r.lo r.hi))
          | none =>
            let skip := on l next (lo + 1) w
            here.append (if body.ended then body.meet skip
              else { skip with gap := max skip.gap (body.repeated w 2 c.1 (if body.hi = w then w else c.2)).gap })

/-- A furrow begun at one of its starts. -/
structure Begun where
  d : FurrowDecl
  pc : Nat
deriving DecidableEq, Repr

/-- The furrows that can follow a furrow begun at a start, each with its own start: behind a fend that the walk from that
start reaches, or, at a headland, the table entries of its successors (R49, R326). [DEDUCED: log 41] -/
def Begun.succ (j : Joined) (att : List (Nat × Bund)) (fs : List FurrowDecl) (u : Begun) : List Begun :=
  let at_ (n : Nat) (pcs : List Nat) : List Begun :=
    (fs.filter fun e => e.num == n).flatMap fun e => pcs.map fun pc => { d := e, pc := pc }
  if descHeadland u.d.desc then
    (successors att u.d).dedup.flatMap fun n => at_ n ((j.ftab.filter fun e => e.1 == n).map (·.2))
  else if u.d.done then []
  else
    let edges := loopEdges j.code (bundles j.code)
    let reach := walk j.code edges [] ((j.code.length + 1) * (edges.length + 4)) [(0, u.pc)] []
    (at_ (descNext u.d.desc) ((reach.filter fun p => p.2.hasFend).flatMap fun p => fallsTo j.code p.2)).dedup

/-- Longest time from the origin of a furrow begun at a start along furrows that follow each other without a refresh, through
the latest cycle of the first one in the furrow that is sure to have one. A loop of furrows without a refresh that no headland
can leave comes round until any deadline has passed; one that a headland can leave counts once, as the loop of the spec's own
channel program does (R237), which its loader takes. -/
def unrefreshed (succ : Begun → List Begun) (quiet : Begun → Bool) (before : Begun → Nat) :
    Nat → List Begun → Begun → Nat
  | 0, _, _ => 0
  | k + 1, seen, u =>
    if !quiet u then before u
    else if seen.contains u then
      if ((u :: seen.takeWhile (· != u)).all fun e => !descHeadland e.d.desc || (succ e).length ≤ 1) then 26521 else 0
    else worstLen u.d + ((succ u).map (unrefreshed succ quiet before k (u :: seen))).foldl max 0

/-- A bank's deadline is reachable without refresh, as far as the static cycles of the core's refreshes tell: between two of
one furrow, or through the rest of a furrow and furrows after it; where a cycle is not known the whole furrow counts (R226,
R250, R315). [DEDUCED: log 41] -/
def deadlineReachable (j : Joined) (att : List (Nat × Bund)) (fs : List FurrowDecl) : Bool :=
  let mine := fs.flatMap fun d => (furrowStarts j att fs d.num).map fun pc => ({ d := d, pc := pc } : Begun)
  let follow := mine.map fun u => (u, (u.succ j att fs).filter mine.contains)
  let succ (u : Begun) : List Begun := ((follow.find? fun p => p.1 == u).map (·.2)).getD []
  (j.code.any isChannelWord) && (List.range 30).any fun b =>
    let runs := mine.map fun u => (u, refreshRun b (worstLen u.d) (descElastic u.d.desc) j.code (enclosing j.code u.pc)
      (j.code.length + 1) u.pc 0 0 none)
    let runOf (u : Begun) : RefreshRun := ((runs.find? fun p => p.1 == u).map (·.2)).getD {}
    let path := unrefreshed succ (fun u => (runOf u).first.isNone) (fun u => (runOf u).first.getD 0) (mine.length + 2) []
    mine.any fun u => 26520 < path u || 26520 < (runOf u).gap || (runOf u).last.any fun t =>
      26520 < worstLen u.d - t + ((succ u).map path).foldl max 0

/-- The successors that a prep names: index and furrow (R53). -/
def prepPairs (i : Instr) : List (Nat × Nat) :=
  match i with
  | .prep _ a b => [(0, a.toNat), (1, b.toNat)]
  | .prepHi _ a b => [(2, a.toNat), (3, b.toNat)]
  | _ => []

/-- The furrows that a unit's own code gives its bundles, in the join's numbers; what another unit's code gives them is
not among these (R316, R326). -/
def ownAttribution (b : Based) (core : Nat) (j : Joined) (fs : List FurrowDecl) : List (Nat × Nat) :=
  let code := unitCode b core
  let table := (j.ftab.filter fun e => b.code ≤ e.2 && e.2 < b.code + code.length).map fun e => (e.1, e.2 - b.code)
  (attribution { j with code := code, ftab := table } fs).map fun p => (p.1, p.2.at_ + b.code)

/-- A prep of a furrow with a decider writes a successor that the furrow's .succ does not list, and its furrow depends on
another unit's code: what the loader checks after the join, nfas having checked the rest (R316). [DEDUCED: log 111] -/
def prepUnlisted (f : Func) (core : Nat) (fs : List FurrowDecl) (j : Joined) : Bool :=
  2 ≤ f.units.length &&
  let own := (basedUnits f.units).flatMap fun b => ownAttribution b core j fs
  (attribution j fs).any fun p => !own.contains (p.1, p.2.at_) && fs.any fun d =>
    d.num == p.1 && descHeadland d.desc && p.2.has fun i => (prepPairs i).any fun q => !d.succ.contains q

/-- A core's code breaks a rule that needs no record (R250, R259, R100). [DEDUCED: log 42, 43, 44] -/
def coreRefused (fs : List FurrowDecl) (landing : Nat) (j : Joined) : Bool :=
  let att := attribution j fs
  let desc (n : Nat) : Option FurrowDecl := fs.find? fun d => d.num == n
  (j.ftab.any fun e => 255 < e.1 || 65535 < e.2) ||
  (fs.any fun d => headMisplaced j att fs d || drainWaits j att fs d) ||
  (att.any fun p => match desc p.1 with
    | none => false
    | some d =>
      (!descElastic d.desc && p.2.has fun i => match i with
        | .loopq _ => true
        | _ => false) ||
      (d.done && p.2.has isRemote) ||
      (p.2.has isAmor && (successors att d).any fun n => (desc n).any (·.done))) ||
  (j.handles.any fun h => 15 < h.1 || !handleLegal h.2.1 h.2.2 ||
    (let v := handleOf h.2.1 h.2.2
     4194304 - landing * 65536 < v.base + v.slot * v.count)) ||
  (j.tiles.any fun t => 15 < t.1 || !tcLegal t.2) || 4096 < j.sow.length ||
  (j.images.any fun m => 4194304 - landing * 65536 < m.addr + m.bytes.length) ||
  deadlineReachable j att fs

/-- A function breaks a rule that needs no record. -/
def funcRefused (f : Func) (cores : List Nat) : Bool :=
  let fs := funcDescriptors f
  !joinOk f cores || 16 < f.landing || !(fs.any fun d => d.num == 0) || !decide (fs.map (·.num)).Nodup ||
  !(fs.all (descriptorOk fs)) ||
  cores.any fun c => (joinFunc f c).elim true fun j => coreRefused fs f.landing j || prepUnlisted f c fs j

/-! ## The container (R320, R322 to R324) -/

/-- The section kinds that a loader knows (R322). -/
def sectionKinds : List Nat := [0x01, 0x02, 0x10, 0x11, 0x12, 0x13, 0x14, 0x15, 0x16, 0x17, 0x20, 0x21, 0x22, 0x23, 0x30]

/-- A field of a container: `n` bytes from byte `o` (R322). -/
def containerField (bs : List Byte) (o n : Nat) : Nat := leNat ((bs.drop o).take n)

/-- An entry of a container's section table (R322). -/
structure SectEntry where
  kind : Nat
  flags : Nat
  func : Nat
  core : Nat
  off : Nat
  len : Nat
deriving DecidableEq, Repr

/-- A container's section table (R322). -/
def containerSections (bs : List Byte) : List SectEntry :=
  (List.range (containerField bs 6 2)).map fun i =>
    let e := containerField bs 8 4 + 16 * i
    { kind := containerField bs e 2, flags := containerField bs (e + 2) 2, func := containerField bs (e + 4) 2
      core := containerField bs (e + 6) 2, off := containerField bs (e + 8) 4, len := containerField bs (e + 12) 4 }

/-- A section's content. -/
def SectEntry.bytes (bs : List Byte) (e : SectEntry) : List Byte := (bs.drop e.off).take e.len

/-- The natural numbers of `n` bytes each that some bytes hold (R7). -/
def natsOf (n : Nat) (bs : List Byte) : List Nat := (List.range (bs.length / n)).map fun i => containerField bs (n * i) n

/-- An lcore_index field, or 0xFFFF for the common section (R320, R322). -/
def coreField (n : Nat) : Option (Option Nat) := if n = 0xFFFF then some none else if n < 512 then some (some n) else none

/-- The relocation record of 16 bytes; none where a reserved byte is not 0 or a field holds what it cannot (R320). -/
def relocOf (r : List Byte) : Option Reloc :=
  let t := containerField r 4 1
  if containerField r 5 1 != 0 || t = 0 || 0x0E < t then none
  else (coreField (containerField r 6 2)).map fun k =>
    { syl := containerField r 0 4, type := BitVec.ofNat 8 t, core := k, sym := containerField r 8 4
      addend := (BitVec.ofNat 32 (containerField r 12 4)).toInt }

/-- The 16-byte records of some bytes. -/
def records16 (bs : List Byte) : List (List Byte) := (List.range (bs.length / 16)).map fun i => (bs.drop (16 * i)).take 16

/-- The bytes of one element of an argument field's type; 12 is an opaque range (R120, R324). -/
def argWidth (t : Nat) : Option Nat :=
  match t with
  | 0 | 2 | 6 => some 4
  | 1 | 3 | 7 => some 2
  | 4 | 8 | 9 | 10 | 12 => some 1
  | 5 => some 8
  | _ => none

/-- The end of an argument field; none where its record is malformed or it straddles byte 48 (R324). -/
def argFieldEnd (r : List Byte) : Option Nat :=
  let off := containerField r 4 4
  (argWidth (containerField r 8 1)).bind fun w =>
    let stop := off + w * containerField r 10 2
    if containerField r 9 1 != 0 || containerField r 12 4 != 0 || (off < 48 && 48 < stop) then none else some stop

/-- An argument layout breaks R324. -/
def argLayoutRefused (bs : List Byte) : Bool :=
  let n := containerField bs 2 2
  let ends := (records16 (bs.drop 16)).map argFieldEnd
  containerField bs 0 2 != 1 || bs.length != 16 + 16 * n || containerField bs 12 4 != 0 || ends.contains none ||
  (ends.map fun e => e.getD 0).foldl max 0 != containerField bs 8 4 ||
  (containerField bs 4 4 != 0xFFFFFFFF && containerField bs 4 4 % 8 != 0)

/-- The sections of a container that unit `u` owns. -/
def unitOwned (t : List SectEntry) (u : CodeUnit) : List SectEntry := u.sects.filterMap fun i => t[i]?

/-- The container's image does not begin with the header of R322, its section table or a section passes its end, or a
section of a kind that the loader does not know is not optional (R322). -/
def containerRefused (bs : List Byte) : Bool :=
  let t := containerSections bs
  bs.length < 64 || bs.take 4 != [0x53, 0x48, 0x46, 0x01] || containerField bs 4 2 != 1 ||
  !((bs.drop 16).take 48).all (· == 0) || bs.length < containerField bs 8 4 + 16 * containerField bs 6 2 ||
  t.any fun x => (!sectionKinds.contains x.kind && x.flags % 2 == 0) || bs.length < x.off + x.len ||
    (coreField x.core).isNone

/-- The functions of a sheaf do not fit its container: their number, the sections their units own, a reserved bit of a
furrow-table entry, a relocation record or an argument layout (R46, R320, R322, R324). [DEDUCED: log 100] -/
def directoryRefused (s : Sheaf) : Bool :=
  let t := containerSections s.bytes
  containerField s.bytes 12 4 != s.funcs.length ||
  s.funcs.zipIdx.any fun f =>
    let es := f.1.units.flatMap (unitOwned t)
    (f.1.units.any fun u => u.sects.any fun i => t.length ≤ i) || es.any fun e => e.func != f.2 ||
      (e.kind == 0x12 && (natsOf 4 (e.bytes s.bytes)).any fun w => w / 65536 % 32768 != 0) ||
      (e.kind == 0x16 && (e.len % 16 != 0 || (records16 (e.bytes s.bytes)).any fun r => (relocOf r).isNone)) ||
      (e.kind == 0x02 && argLayoutRefused (e.bytes s.bytes))

/-- A unit's section with what its bytes give: code, furrow table entries by local number, sowing list (R46, R149, R322).
[DEDUCED: log 100] -/
def sectionFill (bs : List Byte) (es : List SectEntry) (s : Section) : Section :=
  let nats (kind n : Nat) : List Nat := (es.filter fun e => e.kind == kind).flatMap fun e => natsOf n (e.bytes bs)
  { s with
    code := (nats 0x10 4).map (BitVec.ofNat 32)
    entries := (nats 0x12 4).zipIdx.filterMap fun p => if p.1 / 2 ^ 31 % 2 = 1 then some (p.2, p.1 % 65536) else none
    sow := (nats 0x15 8).map (BitVec.ofNat 64) }

/-- A unit with what its sections' bytes give: core sections and valid furrow descriptors that only the bytes lay out are
added (R45, R318, R322). [DEDUCED: log 100] -/
def unitFill (bs : List Byte) (u : CodeUnit) : CodeUnit :=
  let es := unitOwned (containerSections bs) u
  let on (k : Nat) : List SectEntry := es.filter fun e => e.core == k
  let of (kind : Nat) : List (List Byte) := (es.filter fun e => e.kind == kind).map (SectEntry.bytes bs)
  let descs := (of 0x11).flatMap (natsOf 8)
  let laid := (es.filter fun e => e.core != 0xFFFF && [0x10, 0x12, 0x15].contains e.kind).map (·.core)
  let added := laid.dedup.filter fun k => !(u.cores.any fun p => p.1 == k)
  let cores : List (Nat × Section) := u.cores ++ added.map fun k => (k, ({} : Section))
  { u with
    common := sectionFill bs (on 0xFFFF) u.common
    cores := cores.map fun p => (p.1, sectionFill bs (on p.1) p.2)
    furrows := (u.furrows.map fun d => { d with desc := BitVec.ofNat 64 (descs.getD d.num 0) }) ++
      ((descs.zipIdx).filter fun p => p.1 / 2 ^ 63 % 2 == 1 && !(u.furrows.any fun d => d.num == p.2)).map fun p =>
        { num := p.2, desc := BitVec.ofNat 64 p.1, done := false }
    relocs := (of 0x16).flatMap fun b => (records16 b).filterMap relocOf }

/-- A function with what its units' sections give: its .arg address is its argument layout's (R324).
[DEDUCED: log 100, 141] -/
def funcFill (bs : List Byte) (f : Func) : Func :=
  let es := f.units.flatMap (unitOwned (containerSections bs))
  { f with
    units := f.units.map (unitFill bs)
    arg := (es.find? fun e => e.kind == 0x02).bind fun e =>
      let a := containerField (e.bytes bs) 4 4
      if a = 0xFFFFFFFF then none else some a }

/-- The sheaf as it is loaded: the stamp, the translator's version and its functions from its bytes (R322, R323).
[DEDUCED: log 100] -/
def loadedSheaf (s : Sheaf) : Sheaf :=
  let stamp := ((containerSections s.bytes).find? fun e => e.kind == 0x30).elim [] (SectEntry.bytes s.bytes)
  { s with
    stamp := BitVec.ofNat 64 (containerField stamp 0 8)
    translator := BitVec.ofNat 32 (containerField stamp 8 4)
    funcs := s.funcs.map (funcFill s.bytes) }

/-- A container holds a tile, loop or scalar level, from which its bodies can be translated again (R323).
[DEDUCED: log 100] -/
def containerHasLevel (bs : List Byte) : Bool :=
  (containerSections bs).any fun x => x.kind == 0x20 || x.kind == 0x21 || x.kind == 0x22

/-- The loader's checks at registration: of the container, of the stamp, and of every function (R250, R322, R323). A
sheaf with another part's stamp that holds a level is registered as it is carried; a launch of it is rejected (R249).
[DEDUCED: log 100] -/
def sheafRefused (s : Sheaf) : Bool :=
  containerRefused s.bytes || directoryRefused s ||
  ((loadedSheaf s).stamp != Config.deviceHash && !containerHasLevel s.bytes) ||
  (loadedSheaf s).funcs.any fun f => funcRefused f (sectionCores f)

/-- A register code of v0 to v39. -/
def inV (r : BitVec 6) : Bool := r.toNat < 40

/-- Whether a syllable reads or writes a member of the vector set (R250, R256). -/
def usesVec (i : Instr) : Bool :=
  match i with
  | .vshape .. | .mand .. | .mor .. | .mnot .. | .mpop .. => false
  | .st d .. | .sth d .. => inV d
  | .mtag _ a => inV a
  | .vcmp _ _ a b _ _ => inV a || inV b
  | .vhist _ a _ _ => inV a
  | .ld .. | .ldh .. | .mdrn .. | .mgdrn .. | .mmiss .. => true
  | i => encodeSyllable i / 268435456 % 8 == 2

/-- A control register number of a tile configuration. -/
def isTcfg (c : BitVec 6) : Bool := 0x10 ≤ c.toNat && c.toNat ≤ 0x1F

/-- Whether a syllable reads or writes a tile, a tag lane or a tile configuration. -/
def usesTile (i : Instr) : Bool :=
  match i with
  | .ldt .. | .ldth .. | .stt .. | .stth .. | .mtag .. | .mma .. | .mmaz .. | .mmag .. | .wld .. => true
  | .mtc c _ | .mfc _ c => isTcfg c
  | .vcvt _ _ _ _ m _ => m.toNat == 11
  | .vwid _ _ c m _ => m.toNat == 11 || c.toNat == 11
  | _ => false

/-- Whether a syllable reads or writes the accumulator store or the scale queue. -/
def usesAcc (i : Instr) : Bool :=
  match i with
  | .mma .. | .mmaz .. | .mmag .. | .mdrn .. | .mgdrn .. | .mzero .. | .sqld .. | .wld .. => true
  | _ => false

/-- Whether a syllable reads or writes weight slots, scales, descriptors or cellpat. -/
def usesSlot (i : Instr) : Bool :=
  match i with
  | .wld .. | .wset .. | .wclr .. | .mpat .. | .mma .. | .mmaz .. | .mmag .. => true
  | .mtc c _ | .mfc _ c => c.toNat == 9
  | _ => false

/-- A class-0 body holds a syllable that its footprint excludes (R257). -/
def outsideFootprint (footprint : Nat) (code : List (BitVec 32)) : Bool :=
  let bit (k : Nat) : Bool := fieldOf footprint k 1 == 1
  (bundles code).any fun b => b.has fun i =>
    (!bit 16 && usesVec i) || (!bit 17 && usesTile i) || (!bit 18 && usesAcc i) || (!bit 19 && usesSlot i)

/-- The declarations of a core against the record's (R250). [DEDUCED: log 33] -/
def occupancyOver (get : Occupancy → Nat) (limit : Nat) (j : Joined) : Bool := j.occ.any fun o => limit < get o

end Sys2Proof.Machine
end

