-- ==== Sys2Proof/Machine/Launch.lean ====
section
/-!
DEFINITION. Launches from record to preparation (R243 to R254, R257, R261, R280, R284, R294, R327): reports, the checks
of a record, placement, the scheduler, and the creation of contexts.
-/

namespace Sys2Proof.Machine

/-! ## Reports (R294, R297) -/

/-- A report formed: it takes the next number and is kept among the last 1,024. [DEDUCED: log 96] -/
def State.report (kind status : Nat) (tag : BitVec 64) (endpoint : Nat) (body : List Byte) (s : State) : State :=
  let r : Report := { rsn := s.mgmt.rsn + 1, kind := kind, status := status, executed := s.mgmt.x, tag := tag,
                      endpoint := endpoint, body := body }
  { s with mgmt := { s.mgmt with rsn := r.rsn, kept := (r :: s.mgmt.kept).take 1024 }, sent := r :: s.sent }

/-- The bytes of a report: the 32-byte header of R294, then its body. -/
def Report.bytes (r : Report) : List Byte :=
  leBytes 2 r.kind ++ leBytes 2 r.status ++ leBytes 4 r.body.length ++ leBytes 6 r.rsn.toNat ++ leBytes 2 0 ++
  leBytes 6 r.executed.toNat ++ leBytes 2 0 ++ leBytes 8 r.tag.toNat ++ r.body

/-- The launch word of R269: acceptance number and partition. -/
def launchWord (l : LaunchId) : Nat := l.acc % 2 ^ 48 + l.part.toNat * 2 ^ 48

/-- A trap record's flags (R269). -/
def TrapRec.flags (t : TrapRec) : Nat :=
  if t.cause = 0 then 0
  else (!terminating t.cause).toNat + t.kind % 4 * 2 + t.outside.toNat * 8 + t.first.toNat * 16 + t.idle.toNat * 32 +
    t.more.toNat * 64

/-- The 64 bytes of a core's trap record (R269). [DEDUCED: log 121] -/
def TrapRec.bytes (l : LaunchId) (core : Nat) (t : TrapRec) : List Byte :=
  leBytes 1 t.cause ++ leBytes 1 t.detail ++ leBytes 1 t.flags ++ leBytes 1 t.engine ++ leBytes 2 core ++
  leBytes 1 t.fnum ++ leBytes 1 t.pos ++ leBytes 4 (t.fcycle % 2 ^ 25) ++
  leBytes 4 (t.bundle.elim 0 fun b => b % 65536 + 2 ^ 31) ++ leBytes 8 t.raised ++ leBytes 8 t.stop ++
  leBytes 8 t.address ++ leBytes 8 t.info0 ++ leBytes 8 t.info1 ++ leBytes 8 (launchWord l)

/-! ## The record (R243) -/

/-- The field of `n` bytes at offset `o` of a launch record. -/
def recField (r : List Byte) (o n : Nat) : Nat := leNat ((r.drop o).take n)

/-- The bytes from `o` are all zero. -/
def recZero (r : List Byte) (o n : Nat) : Bool := ((r.drop o).take n).all (· == 0)

/-- The gate entries in use. -/
def recGates (r : List Byte) : List Gate :=
  (List.range 4).filterMap fun i =>
    let k := recField r (0x40 + 16 * i) 2
    if k = 0xFFFF then none else some { counter := BitVec.ofNat 16 k, threshold := BitVec.ofNat 64 (recField r (0x48 + 16 * i) 8) }

/-- The launch that a record describes, under acceptance number `a` of its partition, with the watchpoints that the host
wrote before for those of its cores (R243, R247, R289). [DEDUCED: log 136] -/
def launchOf (p : Partition) (a : Nat) (r : List Byte) : Launch :=
  let flags := recField r 2 1
  { id := { part := BitVec.ofNat 8 p.number, acc := a }
    cls := flags % 4
    interlocked := flags / 4 % 2 == 1
    precise := flags / 8 % 2 == 1
    w := 2 ^ recField r 4 1
    h := 2 ^ recField r 5 1
    x0 := recField r 6 1
    y0 := recField r 7 1
    seed := if flags / 16 % 2 = 1 then p.seed else BitVec.ofNat 64 (recField r 0x08 8)
    sheaf := BitVec.ofNat 64 (recField r 0x10 8)
    func := recField r 0x18 4
    landing := recField r 0x2F 1
    footprint := recField r 0x30 8
    group := recField r 0x38 1
    member := recField r 0x3A 2
    ovtab := BitVec.ofNat 64 (recField r 0x3C 4)
    gates := recGates r
    done := recField r 0x80 2
    report := recField r 0x88 4
    args := ((r.drop 0xA8).take 48).take (recField r 0x90 1)
    xaddr := BitVec.ofNat 64 (recField r 0x98 8)
    xlen := recField r 0xA0 4
    saddr := BitVec.ofNat 64 (recField r 0xD8 8)
    slen := recField r 0xE0 4
    wp := p.early.filter fun e => e.1 < 8 * (2 ^ recField r 4 1 * 2 ^ recField r 5 1) }

/-- The sheaf a launch names. -/
def State.sheafOf (s : State) (part : Nat) (id : BitVec 64) : Option Sheaf :=
  (s.part? part).bind fun p => p.sheaves.find? fun h => h.id == id

/-- The function a launch names. -/
def State.funcOf (s : State) (la : Launch) : Option Func :=
  (s.sheafOf la.id.part.toNat la.sheaf).bind fun h => h.funcs[la.func]?

/-- What the join gives core `i` of a launch. -/
def State.joinedOf (s : State) (la : Launch) (i : Nat) : Option Joined := (s.funcOf la).bind fun f => joinFunc f i

/-- The rectangle is aligned and within the partition, in x (first) and in y (R19). -/
def rectInside (p : Partition) (w h x0 y0 : Nat) : Bool × Bool :=
  (x0 % w == 0 && 4 * p.px ≤ x0 && x0 + w ≤ 4 * (p.px + p.pw), y0 % h == 0 && 2 * p.py ≤ y0 && y0 + h ≤ 2 * (p.py + p.ph))

/-- The core's code holds a channel command. -/
def hasChannel (j : Joined) : Bool := (bundles j.code).any fun b => b.syls.any fun i => isChannelWord (BitVec.ofNat 32 (encodeSyllable i))

/-- The loader's checks of a function against a launch that name the sheaf (R45, R65, R250, R258). -/
def sheafField (p : Partition) (la : Launch) (f : Func) (js : List Joined) : Bool :=
  let fs := funcDescriptors f
  funcRefused f (List.range (la.w * la.h)) ||
  (fs.any fun d => descHeadland d.desc && la.w * la.h ≤ descDecider d.desc) ||
  (la.interlocked && (js.any hasChannel || (1 < la.w * la.h && fs.any fun d => descHeadland d.desc))) ||
  (p.class0 && la.cls != 0 && (la.interlocked || fs.any fun d => 42500 < worstLen d))

/-- The checks of a record with the offset of the field each concerns, in byte order (R244, R249, R250, R261). `queued`
is the depth of the class queue it would join. [DEDUCED: log 30, 48, 154; DESIGN CHOICE: log 109] -/
def recordChecks (s : State) (r : List Byte) : List (Bool × Nat) :=
  let flags := recField r 2 1
  let p? := s.part? (recField r 3 1)
  let p := p?.getD { number := 0, px := 0, py := 0, pw := 0, ph := 0, class0 := true }
  let la := launchOf p 0 r
  let f? := s.funcOf la
  let sh? := s.sheafOf (recField r 3 1) la.sheaf
  let small := recField r 4 1 ≤ 5 && recField r 5 1 ≤ 4
  let js := match f? with
    | some f => if small then (List.range (la.w * la.h)).filterMap fun i => joinFunc f i else []
    | none => []
  let inside := if small then rectInside p la.w la.h la.x0 la.y0 else (true, true)
  let dl := recField r 0x28 4
  let lim := 4194304 - la.landing * 65536
  let arg := f?.bind Func.arg
  let queued := (s.launches.filter fun x => x.id.part == la.id.part && x.cls == la.cls && x.phase == .queued).length
  let g? := p.groups.find? fun g => g.1 == la.group
  [ (recField r 0 2 != 1, 0x00),
    (32 ≤ flags || (la.cls == 0 && p?.isSome && !p.class0) || (p?.isSome && 64 ≤ queued), 0x02),
    (p?.isNone, 0x03),
    (5 < recField r 4 1, 0x04),
    (4 < recField r 5 1, 0x05),
    (p?.isSome && !inside.1, 0x06),
    (p?.isSome && !inside.2, 0x07),
    (sh?.isNone || (small && f?.any fun f => sheafField p la f js), 0x10),
    (sh?.isSome && f?.isNone, 0x18),
    (!recZero r 0x1C 4, 0x1C),
    (BitVec.ofNat 64 (recField r 0x20 8) != Config.deviceHash || (sh?.any fun h => h.stamp != Config.deviceHash), 0x20),
    (65536 * la.landing < dl || js.any (occupancyOver Occupancy.landing dl), 0x28),
    (768 < recField r 0x2C 2 || js.any (occupancyOver Occupancy.flight (recField r 0x2C 2)), 0x2C),
    (64 < recField r 0x2E 1 || js.any (occupancyOver Occupancy.cq (recField r 0x2E 1)), 0x2E),
    (16 < la.landing || (f?.any fun f => f.landing != la.landing), 0x2F),
    (if la.cls = 0 then
        1024 < fieldOf la.footprint 0 11 || fieldOf la.footprint 11 5 != 0 || 2 ^ 20 ≤ la.footprint ||
        js.any fun j => outsideFootprint la.footprint j.code
      else la.footprint != 0, 0x30),
    (la.group != 0xFF && (15 < la.group || !(g?.any fun g => g.2.w == la.w && g.2.h == la.h)), 0x38),
    (!recZero r 0x39 1, 0x39),
    (la.group != 0xFF && (g?.any fun g => g.2.members.length ≤ la.member), 0x3A),
    (!ovtabLegal la.ovtab, 0x3C) ] ++
  ((List.range 4).flatMap fun i =>
    let k := recField r (0x40 + 16 * i) 2
    [(k != 0xFFFF && 255 < k, 0x40 + 16 * i), (!recZero r (0x42 + 16 * i) 6, 0x42 + 16 * i)]) ++
  [ (la.done != 0xFFFF && 255 < la.done, 0x80),
    (!recZero r 0x82 6, 0x82),
    (!recZero r 0x8C 4, 0x8C),
    (48 < recField r 0x90 1 || (f?.isSome && match arg with
        | none => recField r 0x90 1 != 0
        | some a => recField r 0x90 1 != 0 && lim < a + recField r 0x90 1), 0x90),
    (!recZero r 0x91 7, 0x91),
    (65536 < la.xlen || (f?.isSome && match arg with
        | none => la.xlen != 0
        | some a => la.xlen != 0 && lim < a + 48 + la.xlen), 0xA0),
    (!recZero r 0xA4 4, 0xA4),
    (!recZero r (0xA8 + recField r 0x90 1) (48 - recField r 0x90 1), 0xA8),
    (4096 < la.slen, 0xE0),
    (!recZero r 0xE4 28, 0xE4) ]

/-- The offset of the first failing field of a record. -/
def recordFault (s : State) (r : List Byte) : Option Nat := ((recordChecks s r).find? fun p => p.1).map (·.2)

/-! ## Cores, contexts and launches of the state -/

/-- The launch replaced. -/
def State.setLaunch (la : Launch) (s : State) : State :=
  { s with launches := s.launches.map fun x => if x.id == la.id then la else x }

/-- The partition replaced. -/
def State.setPart (p : Partition) (s : State) : State :=
  { s with parts := s.parts.map fun x => if x.number == p.number then p else x }

/-- The cores of a launch. -/
def State.coresOf (s : State) (l : LaunchId) : List Core := s.cores.filter fun c => c.lid == l

/-- Some core of a launch changed. -/
def State.onLaunch (l : LaunchId) (f : Core → Core) (s : State) : State := s.mapCores (fun c => c.lid == l) f

/-- The physical cores of a launch's rectangle. -/
def Launch.phys (la : Launch) : List Nat :=
  (List.range (la.w * la.h)).map fun i => 32 * (la.y0 + i / la.w) + la.x0 + i % la.w

/-- Two rectangles share a core. -/
def Launch.overlaps (a b : Launch) : Bool :=
  decide (a.x0 < b.x0 + b.w ∧ b.x0 < a.x0 + a.w ∧ a.y0 < b.y0 + b.h ∧ b.y0 < a.y0 + a.h)

/-- The launch occupies its cores (R327). -/
def Launch.occupies (la : Launch) : Bool :=
  match la.phase with
  | .called | .preparing _ | .starting _ | .running | .saving _ | .returning | .restoring _ | .restarting _ => true
  | .queued | .stopped | .completed | .terminated => false

/-- The launch blocks destroying its partition and unregistering its sheaf: queued, running or stopped (R327). -/
def Launch.holds (la : Launch) : Bool :=
  match la.phase with
  | .completed | .terminated => false
  | _ => true

/-- The cores of a rectangle hold no context: what stands on them is their own (R259, R288, R327). -/
def State.vacate (on : Core → Bool) (s : State) : State :=
  let gone := s.cores.filter on
  { s with
    cores := s.cores.filter fun c => !on c
    idle := gone.foldl (fun m c => assign c.physNo c.phys m) s.idle
    free := gone.foldl (fun n c => max n c.free) s.free }

/-- An image no longer stands at its rows. -/
def State.freeImage (s : State) (c : Core) : State :=
  let p := s.physOf c.physNo
  s.setPhys c.physNo { p with imageRows := p.imageRows.filter (· != c.imageRow) }

/-- The contexts of a launch leave the state, with their images; what the physical cores hold stays (R259, R327).
[DESIGN CHOICE: log 4] -/
def State.drop (l : LaunchId) (s : State) : State :=
  let gone := s.images.filter fun c => c.lid == l
  let s := s.vacate fun c => c.lid == l
  gone.foldl State.freeImage { s with
    images := s.images.filter fun c => c.lid != l
    free := gone.foldl (fun n c => max n c.free) s.free }

/-- A core that enters system code: its firmware's code runs from sentry, on what the core holds (R288). -/
def Core.toSystem (code : List (BitVec 32)) (c : Core) : Core :=
  { c with code := code, phys := { c.phys with sysMode := true, halted := none }, seq := { pc := c.phys.sentry.toNat }
           pends := [], flights := [], trap := none }

/-- The contexts of a launch stand in their images in the system banks, and their cores, after a stop of cause `cause`, run
system code, where the firmware has loaded any (R268, R272, R287, R288, R291). [DEDUCED: log 65] -/
def State.park (l : LaunchId) (cause : Nat) (s : State) : State :=
  let mine := s.coresOf l
  let s := s.onLaunch l fun c => { c with phys := { c.phys with sysMode := true, lastCause := BitVec.ofNat 8 cause } }
  let s : State := { s with images := s.images ++ mine }
  if s.sysCode.isEmpty then s.vacate fun c => c.lid == l else s.onLaunch l (Core.toSystem s.sysCode)

/-- The first row of the sheaf area in the system banks of a core, and the rows it takes there: 8 MiB (R248).
[DESIGN CHOICE: log 129] -/
def areaRows : Nat × Nat := (28672, 8192)

/-- The rows that something of core `n`'s system banks takes, bodies apart: a page table, images, a partition's sheaf area,
each from its first row on (R248, R279, R287). -/
def State.heldRows (n : Nat) (s : State) : List (Nat × Nat) :=
  let p := s.physOf n
  (p.iptroot.toNat % 65536, 16) :: (p.imageRows.map fun r => (r, 7168)) ++
  if s.parts.any fun q => q.owns n then [areaRows] else []

/-- The rows that something of core `n`'s system banks takes. -/
def State.sysRows (n : Nat) (s : State) : List (Nat × Nat) :=
  s.heldRows n ++ (s.placed.filter fun b => b.1.at_ == n).map fun b => (2048 * b.2, 2048)

/-- Rows that share none with some others. -/
def rowsApart (r k : Nat) (l : List (Nat × Nat)) : Bool := l.all fun e => e.1 + e.2 ≤ r || r + k ≤ e.1

/-- The row at which the module puts an image on core `n` where no system code names one: the first of its 7,168 rows that
nothing else takes, else what savebase holds. [DESIGN CHOICE: log 112] -/
def State.imageRowFor (n : Nat) (s : State) : Nat :=
  (((List.range 9).map (· * 7168)).find? fun r => rowsApart r 7168 (s.sysRows n)).getD (s.physOf n).savebase.toNat

/-- An image written over the rows from `r`: no other image of those rows is whole any longer. -/
def Phys.putImageRow (r : Nat) (p : Phys) : Phys :=
  { p with imageRows := r :: p.imageRows.filter fun k => k + 7168 ≤ r || r + 7168 ≤ k }

/-- An image moved to the core of its index on another rectangle, where it stands on one; what of it cannot be corrected
cannot be there (R275, R304, R307). [DESIGN CHOICE: log 112] -/
def State.moveImage (la : Launch) (s : State) (c : Core) : State :=
  let x := la.x0 + c.index % la.w
  let y := la.y0 + c.index / la.w
  let n := 32 * y + x
  if c.physNo = n then s
  else
    let at_ := sysByte c.imageRow
    let bytes := (s.physOf c.physNo).hbm.part at_ (at_ + 7340032)
    let lost := (s.physOf c.physNo).lost 7 at_ 7340032
    let s := (s.readHbm c.physNo at_ 7340032).1.freeImage c
    let r := s.imageRowFor n
    let dst := sysByte r
    let s := s.onPhys n fun d =>
      (({ d with phys := { d.phys.putImageRow r with savebase := BitVec.ofNat 64 r } }).writeHbm dst 7340032 (bytes.up dst)).spoil
        (lost.map fun (e : Nat × Word) => (e.1 + dst / 8 - at_ / 8, e.2))
    { s with images := s.images.map fun d =>
        if d.lid == c.lid && d.index == c.index then { d with px := x, py := y, imageRow := r } else d }

/-- The images of a launch stand on the cores of its rectangle again, with what those cores hold and their window tables;
each core is placed by its logical index, and bank 0 or 1 serves its class (R19, R274, R275). -/
def State.unpark (la : Launch) (s : State) : State :=
  let mine (c : Core) : Bool := c.lid == la.id
  let s := s.vacate mine
  let s := (s.images.filter mine).foldl (State.moveImage la) s
  let back := (s.images.filter mine).map fun c =>
    let p := s.physOf c.physNo
    { c with phys := { p with bank1 := la.cls == 0, savebase := if s.sysCode.isEmpty then BitVec.ofNat 64 c.imageRow else p.savebase }
             free := max c.free s.free }
  { s with
    cores := s.cores ++ back
    idle := s.idle.filter fun e => !(back.any fun c => c.physNo == e.1) }

/-! ## Placement and fill (R248, R279, R280) -/

/-- The body of core `i` of a launch, for its physical core. -/
def Launch.body (la : Launch) (i : Nat) : Body :=
  { at_ := 32 * (la.y0 + i / la.w) + la.x0 + i % la.w, sheaf := la.sheaf, func := la.func, index := i }

/-- The syllables of a body in its core's code store, where it is resident. -/
def State.codeOf (s : State) (b : Body) : Option (List (BitVec 32)) := (s.resident.find? fun e => e.1 == b).map (·.2)

/-- The page slot of a body that is placed. -/
def State.slotOf (s : State) (b : Body) : Option Nat := (s.placed.find? fun e => e.1 == b).map (·.2)

/-- Every core's code is resident. -/
def State.resides (s : State) (la : Launch) : Bool :=
  (List.range (la.w * la.h)).all fun i => (s.codeOf (la.body i)).isSome

/-- What each core has still to place and to fill. [DESIGN CHOICE: log 53] -/
def State.fillsOf (s : State) (la : Launch) : List Fill :=
  (List.range (la.w * la.h)).filterMap fun i =>
    if (s.codeOf (la.body i)).isSome then none
    else
      let n := (s.joinedOf la i).elim 0 fun j => 4 * j.code.length
      some { core := i, place := if (s.slotOf (la.body i)).isSome then 0 else n, fill := n }

/-- Where entry `page` of the page table of a core stands in its channel: bank 30, then bank 31 (R279).
[DEDUCED: log 55] -/
def pageEntryAt (p : Phys) (page : Nat) : Nat := (30 * 32768 + p.iptroot.toNat % 65536 + page / 128) * 1024 + page % 128 * 8

/-- The page of the instruction space that holds the code store (R280). -/
def codePage (p : Phys) : Nat := fieldOf p.icbase.toNat 21 11

/-- A page-table entry maps its page: valid, and its reserved fields zero. -/
def entryOk (e : Word) : Bool := e.getLsbD 0 && fieldOf e.toNat 2 6 == 0 && fieldOf e.toNat 12 52 == 0

/-- The plot of physical core `n`. -/
def plotNo (n : Nat) : Nat := plotOf (n % 32) (n / 32)

/-- The translation of a code fill on physical core `n`: a TLB entry, or on a miss the page table's, which then
replaces the least recently used of the plot's 32. [DESIGN CHOICE: log 145] -/
def State.translate (n : Nat) (s : State) : Word × State :=
  let p := s.physOf n
  let q := plotNo n
  let page := codePage p
  let hit (e : Nat × TlbEntry) : Bool := e.1 == q && e.2.ctx == p.ctxid && e.2.page == page
  let w := match s.tlb.find? hit with
    | some e => e.2.entry
    | none => BitVec.ofNat 64 (leNat (p.hbm.bytes 0 (pageEntryAt p page) 8))
  let mine := (s.tlb.filter fun e => e.1 == q && !hit e).take 31
  (w, { s with tlb := (q, { ctx := p.ctxid, page := page, entry := w }) :: mine ++ s.tlb.filter fun e => e.1 != q })

/-- The byte of the channel at which a page-table entry puts the window of the code store: its page slot, and icbase's place
in the page (R279, R280). -/
def windowByte (p : Phys) (e : Word) : Nat :=
  (((30 + fieldOf e.toNat 1 1) * 32768 + 2048 * fieldOf e.toNat 8 4) * 1024) + p.icbase.toNat % 2097152

/-- The page-table entry for slot `k` of 32, those of bank 30 first (R279). -/
def slotEntry (k : Nat) : Word := BitVec.ofNat 64 (1 + k / 16 * 2 + k % 16 * 256)

/-- The slot that a page-table entry names, of 32 (R279). -/
def entrySlot (e : Word) : Nat := 16 * fieldOf e.toNat 1 1 + fieldOf e.toNat 8 4

/-- The page-table entry of core `n`'s code page. -/
def State.codeEntry (n : Nat) (s : State) : Word :=
  let p := s.physOf n
  BitVec.ofNat 64 (leNat (p.hbm.bytes 0 (pageEntryAt p (codePage p)) 8))

/-- The page-table entry of core `n`'s code page is read where the TLB holds no translation: what of it cannot be
corrected (R280, R304). [DEDUCED: log 130] -/
def State.readEntry (n : Nat) (s : State) : State × Option (Nat × Word) :=
  let p := s.physOf n
  if s.tlb.any fun e => e.1 == plotNo n && e.2.ctx == p.ctxid && e.2.page == codePage p then (s, none)
  else s.readHbm n (pageEntryAt p (codePage p)) 8

/-- A placed body that a queued or running launch names (R248). -/
def State.needs (s : State) (b : Body) : Bool :=
  s.launches.any fun y => (y.phase == .queued || y.occupies) && (List.range (y.w * y.h)).any fun i => y.body i == b

/-- The slot in which the module places a body on core `n`: the one that its page table maps the code page to, unless
something else of the system banks or a body that a launch needs stands there; else the highest that nothing takes, or that
only a body takes which no launch needs; none where there is no such slot, and the placement waits (R248).
[DESIGN CHOICE: log 53; PRESUMED: log 54] -/
def State.placeSlot (n : Nat) (s : State) : Option Nat :=
  let slots := (List.range 32).map (31 - ·)
  let usable (k : Nat) : Bool := rowsApart (2048 * k) 2048 (s.heldRows n) &&
    !(s.placed.any fun b => b.1.at_ == n && b.2 == k && s.needs b.1)
  let e := s.codeEntry n
  if entryOk e && usable (entrySlot e) then some (entrySlot e)
  else (slots.find? fun k => rowsApart (2048 * k) 2048 (s.sysRows n)).orElse fun _ => slots.find? usable

/-- The code page of core `n` mapped to slot `k` in the page table that iptroot names, and the plot's translations of it
gone (R279, R280). [PRESUMED: log 54] -/
def State.mapPage (n k : Nat) (s : State) : State :=
  let p := s.physOf n
  let at_ := pageEntryAt p (codePage p)
  let s := s.onPhys n (Core.writeHbm at_ 8 (Mem.cells 0 at_ (leBytes 8 (slotEntry k).toNat)))
  { s with tlb := s.tlb.filter fun e => !(e.1 == plotNo n && e.2.ctx == p.ctxid && e.2.page == codePage p) }

/-- The bytes of some code (R7). -/
def codeBytes (ws : List (BitVec 32)) : List Byte := ws.flatMap fun w => leBytes 4 w.toNat

/-- A body placed in slot `k`: its bytes stand in its core's system banks, at the page that its page table maps (R248,
R279). -/
def State.place (b : Body) (k : Nat) (ws : List (BitVec 32)) (s : State) : State :=
  let s : State := { s with placed := (b, k) :: s.placed.filter fun e => !(e.1.at_ == b.at_ && e.2 == k) }
  let s := if s.codeEntry b.at_ == slotEntry k then s else s.mapPage b.at_ k
  let a := windowByte (s.physOf b.at_) (slotEntry k)
  s.onPhys b.at_ (Core.writeHbm a (4 * ws.length) (Mem.cells 0 a (codeBytes ws)))

/-! ## The sheaf area (R248) -/

/-- The cores over which a partition's sheaf area is striped: ascending plot, then core (R17, R248). -/
def Partition.areaCores (p : Partition) : List Nat :=
  (List.range p.ph).flatMap fun j => (List.range p.pw).flatMap fun i => (List.range 8).map fun k =>
    32 * (2 * (p.py + j) + k / 4) + 4 * (p.px + i) + k % 4

/-- Where row `r` of the area stands: its core, and the first byte there (R248). [DESIGN CHOICE: log 129] -/
def Partition.areaRow (p : Partition) (r : Nat) : Nat × Nat :=
  let cs := p.areaCores
  (cs.getD (r % cs.length) 0, sysByte (areaRows.1 + r / cs.length))

/-- The first `n` rows from `r` on that are not among `used`, of the next `k`. [DESIGN CHOICE: log 129] -/
def freeRows (used : List Nat) : Nat → Nat → Nat → List Nat
  | 0, _, _ | _, _, 0 => []
  | k + 1, r, n + 1 => if used.contains r then freeRows used k (r + 1) (n + 1) else r :: freeRows used k (r + 1) n

/-- The rows of the area for a sheaf of `n` bytes. -/
def Partition.rowsFor (p : Partition) (n : Nat) : List Nat :=
  let used := p.area.flatMap (·.2)
  freeRows used (used.length + ceilDiv n 1024) 0 (ceilDiv n 1024)

/-- The rows of the area that a registered sheaf takes. -/
def Partition.rowsOf (p : Partition) (id : BitVec 64) : List Nat := ((p.area.find? fun e => e.1 == id).map (·.2)).getD []

/-- A sheaf's bytes written into the area, 1 KiB a row (R248). -/
def State.writeArea (p : Partition) (rows : List Nat) (bs : List Byte) (s : State) : State :=
  (rows.zipIdx).foldl (fun s r =>
    let a := p.areaRow r.1
    let l := (bs.drop (1024 * r.2)).take 1024
    s.onPhys a.1 (Core.writeHbm a.2 l.length (Mem.cells 0 a.2 l))) s

/-- The `n` bytes that stand in some rows of the area, and the first unit of them that cannot be corrected (R248, R304). -/
def State.readArea (p : Partition) (n : Nat) (rows : List Nat) (s : State) : State × List Byte × Option (Nat × Word) :=
  (rows.zipIdx).foldl (fun t r =>
    let a := p.areaRow r.1
    let k := min 1024 (n - 1024 * r.2)
    let u := t.1.readHbm a.1 a.2 k
    (u.1, t.2.1 ++ ((t.1.physOf a.1).hbm.part a.2 (a.2 + k)).dense 0 k 0, t.2.2.orElse fun _ => u.2)) (s, [], none)

/-- A body as the sheaf area gives it: its syllables, or what of its sheaf cannot be corrected (R248, R304, R318).
[DEDUCED: log 130] -/
def State.areaBody (b : Body) (p : Partition) (s : State) : State × List (BitVec 32) × Option (Nat × Word) :=
  match p.sheaves.find? fun h => h.id == b.sheaf with
  | none => (s, [], none)
  | some h =>
    let r := s.readArea p h.bytes.length (p.rowsOf h.id)
    let f := (loadedSheaf { h with bytes := r.2.1 }).funcs[b.func]?
    (r.1, ((f.bind fun f => joinFunc f b.index).map (·.code)).getD [], r.2.2)

/-- The words of a code store that the window of entry `e` holds (R280). -/
def fillWords (p : Phys) (e : Word) (n : Nat) : List (BitVec 32) :=
  (natsOf 4 ((p.hbm.part (windowByte p e) (windowByte p e + 4 * n)).dense 0 (4 * n) 0)).map (BitVec.ofNat 32)

/-! ## The end of a launch that is not completed -/

/-- The state saved for class-0 launch `l` is being restored from now: the same bytes as the save took (R257).
[DEDUCED: log 60] -/
def State.restoreFootprints (l : LaunchId) (s : State) : State :=
  { s with launches := s.launches.map fun y =>
      if y.footprinted && y.yield_ == some (.class0 l) then { y with footUntil := some (s.now + ceilDiv y.saved 64) } else y }

/-- The report of a launch that ends before furrow 0: the record of one core (R245, R280). [DEDUCED: log 56] -/
def State.endEarly (la : Launch) (core : Nat) (t : TrapRec) (s : State) : State :=
  let f := s.now - ((s.part? la.id.part.toNat).elim 0 (·.base))
  let t := { t with raised := f, stop := f, first := true }
  let s := ((s.drop la.id).setLaunch { la with phase := .terminated, fills := [] }).report 5 0 0 la.report (t.bytes la.id core)
  if la.cls = 0 then s.restoreFootprints la.id else s

/-- The record of a launch that what the module reads for it ends: an entry that maps no page, or a unit that cannot be
corrected (R263, R269, R280, R304). -/
def moduleTrap (cause info0 info1 : Nat) : TrapRec :=
  { cause := cause, info0 := info0, info1 := info1, kind := if cause = 0x0D then 1 else 0, engine := if cause = 0x0D then 13 else 0 }

/-- A launch ends at its restart: terminated, with the report of the core at fault (R280, R304). -/
def State.endAtRestart (la : Launch) (core cause info0 info1 : Nat) (s : State) : State :=
  let base := (s.part? la.id.part.toNat).elim 0 (·.base)
  let t : TrapRec := { moduleTrap cause info0 info1 with raised := s.now - base, stop := s.now - base, first := true, fnum := la.furrow }
  let s := s.vacate fun c => c.lid == la.id
  let s : State := { s with
    images := s.images.map fun c => if (c.lid == la.id) && (c.index == core) then { c with trap := some t } else c }
  let s := (s.setLaunch { la with phase := .terminated, fills := [] }).report 5 0 0 la.report (t.bytes la.id core)
  if la.cls = 0 then s.restoreFootprints la.id else s

/-! ## Preparation (R245, R246, R284) -/

/-- A read by the launch preparation through the partition's windows: the bytes, or the fault of its window.
[DESIGN CHOICE: log 9] -/
def prepRead (p : Partition) (w : Word) (n count : Nat) : Option (List Byte) :=
  if n = 0 then some []
  else if windowOk p.windows true w n then
    let t := windowTarget p.windows w
    some ((List.range n).map fun i => Config.hostByte t.1 ((t.2 + BitVec.ofNat 64 i).toNat) count)
  else none

/-- The registers of a fresh context (R27, R245). -/
def freshRegs (la : Launch) (j : Joined) : Regs :=
  let r : Regs := { ovtab := la.ovtab }
  let r := j.tiles.foldl (fun r t => r.writeCtrl (0x10 + t.1) t.2) r
  j.handles.foldl (fun r h => r.writeH (BitVec.ofNat 4 h.1) h.2.1 h.2.2) r

/-- The scratchpad of a fresh context: images, then inline arguments, then the extension (R245, R317). -/
def freshMem (j : Joined) (arg : Option Nat) (args ext : List Byte) : Mem :=
  let m := j.images.foldl (fun m i => Mem.putAll 0 m i.addr i.bytes) []
  match arg with
  | none => m
  | some a => Mem.putAll 0 (Mem.putAll 0 m a args) (a + 48) ext

/-- Address `a` of the channel stands in a row that a context of this core names: banks 0 to 29, in a physical page that
the row map in use holds (R42, R281). [DEDUCED: log 118] -/
def Phys.ofContext (p : Phys) (a : Nat) : Bool :=
  a / 33554432 < 30 && p.rowmap.any fun e => e.2.getLsbD 15 && fieldOf e.2.toNat 0 9 == a / 65536 % 512

/-- The home channel as a new context finds it: every row that it names reads zero, so that no value of an earlier context
is visible; the system banks and the pages that it does not map keep what they hold (R27, R42). [DEDUCED: log 118] -/
def Phys.zeroRows (p : Phys) : Phys :=
  { p with
    hbm := p.hbm.filter fun e => !p.ofContext e.1
    flips := p.flips.filter fun e => !(e.1 == 7 && p.ofContext (8 * e.2.1)) }

/-- A core's context as the preparation leaves it: the rows that it maps read zero, and every array of the core is written
(R27, R245, R246, R284, R307). [DEDUCED: log 118] -/
def freshCore (s : State) (p : Partition) (la : Launch) (f : Func) (ext : List Byte) (sow : List Word) (i : Nat) : Core :=
  let j := (joinFunc f i).getD { code := [], ftab := [], handles := [], tiles := [], images := [], sow := [], occ := [] }
  let x := la.x0 + i % la.w
  let y := la.y0 + i / la.w
  Core.writeArraysOf (fun _ => true) {
    lid := la.id, index := i, px := x, py := y
    code := (s.codeOf (la.body i)).getD []
    ftab := j.ftab.map fun e => (e.1, BitVec.ofNat 32 (e.2 + 2 ^ 31))
    regs := freshRegs la j
    sp := { mem := freshMem j f.arg la.args ext }
    q := { sow := if la.slen = 0 then j.sow else (sow.drop (i * la.slen)).take la.slen }
    wp := Vector.ofFn fun r => look 0 la.wp (8 * i + r)
    windows := p.windows
    free := s.free
    phys := Phys.zeroRows { s.physOf (32 * y + x) with sysMode := false, bank1 := la.cls == 0, halted := none } }

/-- The rectangle of a launch that begins holds no context: ended ones there are released, and system code there ends
(R259, R327). -/
def State.clear (la : Launch) (s : State) : State :=
  ((s.launches.filter fun y => (y.phase == .completed || y.phase == .terminated) && y.overlaps la).foldl
    (fun s y => s.drop y.id) s).vacate fun c => la.phys.contains c.physNo

/-- The preparation begins: every core's context is created; a host-window fault in an extension's read ends the launch
(R245, R246, R259). [DESIGN CHOICE: log 7] -/
def State.prepare (la : Launch) (s : State) : State :=
  let s := s.clear la
  match s.part? la.id.part.toNat, s.funcOf la with
  | some p, some f =>
    let n := la.w * la.h
    match prepRead p la.xaddr la.xlen s.free, prepRead p la.saddr (n * la.slen * 8) (s.free + 1) with
    | some ext, some sow =>
      let cores := (List.range n).map (freshCore s p la f ext ((natsOf 8 sow).map (BitVec.ofNat 64)))
      let s : State := { s with
        cores := s.cores ++ cores
        idle := s.idle.filter fun e => !(cores.any fun c => c.physNo == e.1)
        free := s.free + 2 }
      s.setLaunch { la with
        phase := .preparing (s.now + 1 + Config.prepareCycles s.free)
        furrows := funcDescriptors f, fresh := false }
    | e, _ => s.endEarly la 0
        { cause := 0x12, engine := 9, address := if e.isNone then la.xaddr.toNat else la.saddr.toNat }
  | _, _ => s

/-! ## Restarting a pre-empted or stopped launch (R252, R275, R276) -/

/-- The restore begins: system code on each core runs to its eret, where the firmware has loaded any; without it the
restore follows the module's own delay. [DESIGN CHOICE: log 8; DEDUCED: log 60, 61] -/
def State.restart (la : Launch) (s : State) : State :=
  let s := (s.clear la).unpark la
  if s.sysCode.isEmpty then
    let s := s.onLaunch la.id fun c => { c with phys := { c.phys with sysMode := false } }
    ({ s with free := s.free + 1 }).setLaunch
      { la with phase := .restoring (s.now + Config.resumeCycles s.free + ceilDiv la.saved 64) }
  else (s.onLaunch la.id (Core.toSystem s.sysCode)).setLaunch { la with phase := .returning }

/-! ## The scheduler (R251 to R253, R257) -/

/-- Ready: the gates are met, the code is resident, a footprint that was saved is restored, and a thermal yield is past
(R251, R257, R308). [DEDUCED: log 63] -/
def State.isReady (s : State) (p : Partition) (la : Launch) : Bool :=
  la.phase == .queued && s.resides la && la.fills.isEmpty && !la.footprinted &&
  !(s.mgmt.hot && la.yield_ == some .thermal) &&
  la.gates.all fun g => g.threshold ≤ look 0 p.counters g.counter.toNat

/-- The launches on a rectangle: those that occupy cores of it and, for a class other than 0, those whose state waits
there in place (R257, R327). [DEDUCED: log 64] -/
def State.onRect (s : State) (la : Launch) : List Launch :=
  s.launches.filter fun y => y.id != la.id && y.id.part == la.id.part && y.overlaps la &&
    (y.occupies || (la.cls != 0 && y.footprinted))

/-- The order of the scheduler: class 0 first, then by acceptance number (R252). -/
def schedBefore (a b : Launch) : Bool :=
  if (a.cls == 0) == (b.cls == 0) then a.id.acc ≤ b.id.acc else a.cls == 0

/-- A launch put into the scheduler's order. -/
def insertLaunch (x : Launch) : List Launch → List Launch
  | [] => [x]
  | y :: l => if schedBefore y x then y :: insertLaunch x l else x :: y :: l

/-- One launch considered by the scheduler: started, or what runs on its cores asked to yield (R252, R255).
[DEDUCED: log 71] -/
def State.consider (p : Partition) (r : State × List Launch) (x : Launch) : State × List Launch :=
  let s := r.1
  if !s.isReady p x || r.2.any (Launch.overlaps x) then r
  else
    let busy := s.onRect x
    if busy.isEmpty then (s.setLaunch { x with phase := .called }, x :: r.2)
    else if x.cls = 0 && busy.all fun y => y.cls != 0 then
      ({ s with launches := s.launches.map fun y =>
          if y.yield_ == none && y.occupies && busy.any (fun b => b.id == y.id) then { y with yield_ := some (.class0 x.id) } else y },
        x :: r.2)
    else (s, x :: r.2)

/-- The scheduler of partition `n` decides (R252). [DEDUCED: log 98] -/
def State.schedule (n : Nat) (s : State) : State :=
  match s.part? n with
  | none => s
  | some p =>
    let q := (s.launches.filter fun x => x.id.part.toNat == n && x.phase == .queued).foldl (fun l x => insertLaunch x l) []
    (q.foldl (State.consider p) (s, [])).1

/-- Every partition's scheduler decides. [DEDUCED: log 98] -/
def State.scheduleAll (s : State) : State := (s.parts.map (·.number)).foldl (fun s n => s.schedule n) s

/-- The order of the launch unit: class 0 first, then round robin from the partition after the one served last, and in a
partition as it was decided (R253). [DEDUCED: log 71] -/
def servedBefore (last : Nat) (a b : Launch) : Bool :=
  let turn (x : Launch) : Nat := (x.id.part.toNat + 255 - last) % 256
  if (a.cls == 0) != (b.cls == 0) then a.cls == 0
  else if turn a = turn b then a.id.acc ≤ b.id.acc else turn a < turn b

/-- The start that the launch unit begins next. -/
def State.nextStart (s : State) : Option Launch :=
  (s.launches.filter fun x => x.phase == .called).foldl
    (fun m x => some (m.elim x fun y => if servedBefore s.rrPart x y then x else y)) none

/-- The launch unit begins a start: a fresh launch is prepared, a pre-empted one restarts. One that ends in its preparation
gives its partition another decision (R245, R252, R253). -/
def State.start (la : Launch) (s : State) : State :=
  let s : State := { s with rrPart := la.id.part.toNat }
  if la.fresh then
    let s := s.prepare la
    if (s.launch? la.id).any fun y => y.phase == .terminated then s.schedule la.id.part.toNat else s
  else s.restart la

/-- A fill that meets an entry that does not map its page, or a unit that cannot be corrected, ends its launch: one that has
not run is not started, one that restarts is terminated (R280, R304). [DEDUCED: log 130] -/
def State.fillFault (la : Launch) (core cause info0 info1 : Nat) (s : State) : State :=
  (if la.fresh then s.endEarly la core (moduleTrap cause info0 info1) else s.endAtRestart la core cause info0 info1).schedule
    la.id.part.toNat

/-- CODE_FILL_DONE: the core's code store holds the body, as the window that its fill read holds it, and the fill word behind
it: every unit of the store is encoded anew (R248, R251, R252, R280, R304, R307). -/
def execCodeFillDone (l : LaunchId) (core : Nat) (s : State) : Host.Outcome State Fault Refusal :=
  match s.launch? l with
  | none => .fault .noSuchEvent
  | some la =>
    match la.fills.find? fun e => e.core == core && e.place == 0 && e.fill == 0 && decide (e.ready ≤ s.now) with
    | none => .fault .noSuchEvent
    | some e =>
      let b := la.body core
      let n := (s.joinedOf la core).elim 0 fun j => j.code.length
      let ws := fillWords (s.physOf b.at_) e.entry n
      let r := s.readHbm b.at_ (windowByte (s.physOf b.at_) e.entry) (4 * n)
      match r.2.filter fun _ => (s.codeOf b).isNone with
      | some w => .next (r.1.fillFault la core 0x0D 7 w.2.toNat)
      | none =>
      let s := if (s.codeOf b).isSome then s
        else ({ r.1 with resident := (b, ws) :: s.resident }).onPhys b.at_ (Core.writeUnits 5 0 262144)
      .next ((s.setLaunch { la with fills := la.fills.filter fun e => e.core != core }).schedule l.part.toNat)

/-- The code page of core `n`, whose entry reads `e`, as a fill of the body placed in slot `k` begins: the module maps it
again where it has mapped it to another body since; what system software has mapped stands (R248, R280).
[PRESUMED: log 54] -/
def State.remap (n k : Nat) (e : Word) (s : State) : State :=
  if entryOk e && entrySlot e != k && s.placed.any (fun b => b.1.at_ == n && b.2 == entrySlot e) then s.mapPage n k else s

/-- The entry through which a fill on core `n`, of the body placed in slot `k`, reads the window of the code store: each read
of the page table is checked, and what of it cannot be corrected is given (R280, R304).
[PRESUMED: log 54; DEDUCED: log 130] -/
def State.beginFill (n : Nat) (slot : Option Nat) (s : State) : State × Word × Option (Nat × Word) :=
  let u := s.readEntry n
  match u.2 with
  | some w => (u.1, 0, some w)
  | none =>
    let t := u.1.translate n
    let v := (slot.elim t.2 fun k => t.2.remap n k t.1).readEntry n
    match v.2 with
    | some w => (v.1, 0, some w)
    | none => let e := v.1.translate n; (e.2, e.1, none)

/-- The slot of a placement on core `n`, for which the entry of its code page is read and checked; what of it cannot be
corrected is given (R248, R304). [DESIGN CHOICE: log 53; PRESUMED: log 54; DEDUCED: log 130] -/
def State.findSlot (n : Nat) (s : State) : State × Option Nat × Option (Nat × Word) :=
  let u := s.readHbm n (pageEntryAt (s.physOf n) (codePage (s.physOf n))) 8
  (u.1, u.1.placeSlot n, u.2)

/-- A window's work on one core of a launch, after `used` bytes of that core's 16 KiB have moved: placement before fill, at
64 bytes a cycle; a placement without a slot waits. A fill reads through the page-table entry that it finds as it begins
(R248, R280). -/
def State.fillStep (r : State × List (Nat × Nat)) (l : LaunchId) (e : Fill) : State × List (Nat × Nat) :=
  let s := r.1
  match (s.launch? l).filter fun la => la.fills.any fun x => x.core == e.core with
  | none => r
  | some la =>
    let b := la.body e.core
    let n := b.at_
    let ws := (s.joinedOf la e.core).elim [] (·.code)
    let used := look 0 r.2 n
    let found := if (s.slotOf b).isSome then (s, some 0, none) else s.findSlot n
    let s := found.1
    let slot := found.2.1
    let place := if (s.slotOf b).isSome then 0 else e.place
    let fill := if (s.codeOf b).isSome then 0 else e.fill
    let moved := min (16384 - used) place
    let copy := if place - moved = 0 && (s.slotOf b).isNone then (s.part? l.part.toNat).map (s.areaBody b) else none
    let s := copy.elim s fun r => if r.2.2.isNone then r.1.place b (slot.getD 0) r.2.1 else r.1
    let put (s : State) (e : Fill) (k : Nat) : State × List (Nat × Nat) :=
      (s.setLaunch { la with fills := la.fills.map fun x =>
         if x.core == e.core then { e with ready := s.now + ceilDiv (used + k) 64 } else x }, assign n (used + k) r.2)
    match found.2.2.orElse fun _ => copy.bind (·.2.2) with
    | some w => (s.fillFault la e.core 0x0D 7 w.2.toNat, r.2)
    | none =>
    if slot.isNone then (s, r.2) else
    if place != moved || used + moved = 16384 then put s { e with place := place - moved, fill := fill } moved
    else
      let begins := fill = 4 * ws.length && 0 < fill
      let t := if begins then s.beginFill n (s.slotOf b) else (s, e.entry, none)
      match t.2.2 with
      | some w => (t.1.fillFault la e.core 0x0D 7 w.2.toNat, r.2)
      | none =>
        if begins && !entryOk t.2.1 then (t.1.fillFault la e.core 0x15 (codePage (s.physOf n)) 0, r.2)
        else
          let k := min (16384 - used - moved) fill
          put t.1 { e with place := 0, fill := fill - k, entry := t.2.1 } (moved + k)

/-- SYSTEM_WINDOW: the window that opens on the channels of a partition's cores serves placement and fill, and the
module's own refresh of banks 0 to 29 where no program refreshes them (R43, R226, R248). -/
def execSystemWindow (part : BitVec 8) (s : State) : Host.Outcome State Fault Refusal :=
  match s.part? part.toNat with
  | none => .fault .noSuchEvent
  | some p =>
    let s := s.setPart { p with window := some s.now }
    let s := s.mapCores (fun c => c.lid.part == part && !c.programRefreshed) fun c =>
      { c with chan := { c.chan with banks := c.chan.banks.map fun b => { b with last := s.now } } }
    let work := s.launches.flatMap fun la => if la.id.part == part then la.fills.map fun e => (la.id, e) else []
    .next (work.foldl (fun r w => State.fillStep r w.1 w.2) (s, [])).1

end Sys2Proof.Machine
end

