-- ==== Sys2Proof/Machine/Furrow.lean ====
section
/-!
DEFINITION. The timetable's own events (R45 to R67, R102, R254, R259): origins, headlands, overrun, the elastic join,
releases of waiting cores, the instants at which scalar results perform, and a launch's completion.
-/

namespace Sys2Proof.Machine

/-! ## What the timetable fixes -/

/-- The cycle of a furrow's last fend, once every core has issued one (R60). -/
def lastFend (cs : List Core) : Option Nat :=
  cs.foldl (fun m c => match m, c.seq.fend with
    | some a, some b => some (max a b)
    | _, _ => none) (some 0)

/-- The first field cycle at or after `t` that is a multiple of 4,096, as a module cycle (R47, R60). -/
def nextAligned (base t : Nat) : Nat := base + ceilTo (t - base) 4096

/-- The cores of a launch, and the base of its partition's field count. -/
def State.frame (s : State) (la : Launch) : List Core × Nat :=
  (s.coresOf la.id, (s.part? la.id.part.toNat).elim 0 (·.base))

/-- Every core of an interlocked launch has reached the end of its fixed furrow (R64). -/
def allReached (s : State) (la : Launch) (cs : List Core) : Bool :=
  cs.all fun c => descLen la.desc ≤ c.fcycle { now := s.now, base := 0, la := la }

/-- The origin of the successor, once it is fixed (R47, R60, R64). -/
def State.nextOrigin (s : State) (la : Launch) : Option Nat :=
  match la.next with
  | some n => some n
  | none =>
    if la.interlocked && !descElastic la.desc && !la.doneOf la.furrow && allReached s la (s.coresOf la.id) then some s.now
    else none

/-- The end of a furrow marked .done, once it is fixed (R259). -/
def State.furrowEnd (s : State) (la : Launch) : Option Nat :=
  match la.ended with
  | some n => some n
  | none =>
    if la.interlocked && !descElastic la.desc && la.doneOf la.furrow && allReached s la (s.coresOf la.id) then some s.now
    else none

/-- The cycle of the headland compare: 16 before the next origin (R53, R57, R61). -/
def State.compareAt (s : State) (la : Launch) : Option Nat :=
  let f := s.frame la
  if descElastic la.desc then (lastFend f.1).map fun t => nextAligned f.2 (t + 40) - 16
  else if la.interlocked then
    if f.1.all fun c => descLen la.desc ≤ c.fcycle { now := s.now, base := 0, la := la } + 16 then some s.now else none
  else some (la.origin + descLen la.desc - 16)

/-! ## Entering a furrow -/

/-- The sequencer's state of a furrow, cleared at its origin (R49, R55, R64, R67). -/
def Seq.fresh (n : Nat) (q : Seq) : Seq :=
  { q with furrow := n, fcycleLost := 0, since := none, queue := [], skip := none, suppressed := false, fend := none, head := none,
           preps := [], waiting := false, held := false, frozen := false, checked := [], hist := [] }

/-- An entry fault at an origin: nothing issues until the stop (R46, R128, R136). -/
def Core.entryFault (x : Ctx) (detail : Nat) (bundle : Option Nat) (c : Core) : Core :=
  ({ c with seq := { c.seq with stuck := true } }).raise x { cause := 2, detail := detail, bundle := bundle }

/-- The sequencer stands at syllable `pc` at an origin; what is no bundle start is the entry fault (R46, R128). -/
def Core.enterAt (x : Ctx) (pc : Nat) (c : Core) : Core :=
  let c : Core := { c with seq := { c.seq with pc := pc } }
  match fetchAt c.code pc with
  | .entry d => c.entryFault x d (some pc)
  | _ => c

/-- Redirect through the furrow table to furrow `n` (R46, R49, R51). [DEDUCED: log 121, 142] -/
def Core.redirect (x : Ctx) (n : Nat) (c : Core) : Core :=
  let e := look 0#32 c.ftab n
  if e.getLsbD 31 && descValid (x.la.descOf n) then c.enterAt x (fieldOf e.toNat 0 16) else c.entryFault x 3 none

/-- The landed records of the furrow that ends await the seam, behind those of a seam that an elastic furrow ended before;
the merge unit is busy with them from the origin (R48, R101, R103). [DEDUCED: log 107] -/
def Core.turnNet (x : Ctx) (late : Bool) (c : Core) : Core :=
  let prev := c.net.prev ++ c.net.land
  { c with
    net := { c.net with prev := prev, land := [], notes := [], lateFault := late }
    seq := { c.seq with mergeUntil := x.now + mergeWork prev } }

/-- The core has raised the overrun of its furrow, which it does not leave before the stop (R50, R67). -/
def Core.overran (c : Core) : Bool := c.seq.checked.contains 2

/-- Core `c` begins the next furrow: at its own successor's entry, or by fall-through; a core that raised an entry
fault or an overrun does not begin it and counts on from the origin `old` of its furrow, and its seam is checked anew (R47
to R49, R56, R57, R67). [DEDUCED: log 76] -/
def Core.turn (x : Ctx) (old : Nat) (headland : Bool) (index fall : Nat) (late : Bool) (c : Core) : Core :=
  let succ := if headland then succByte (c.seq.head.elim 0 (·.target)) index else fall
  let c := c.turnNet x late
  if c.seq.stuck || c.overran then
    { c with seq := { c.seq with checked := c.seq.checked.filter (· == 2), since := some (c.seq.since.getD old) } }
  else
    let c : Core := { c with seq := c.seq.fresh succ }
    if headland then c.redirect x succ else c.enterAt x c.seq.pc

/-- The launch in furrow `n` from this cycle (R45, R47, R60, R259). -/
def Launch.turn (now n : Nat) (la : Launch) : Launch :=
  let la := { la with furrow := n, origin := now, next := none, ended := none, compared := false, turned := some now }
  if descElastic la.desc || la.interlocked then la
  else if la.doneOf n then { la with ended := some (now + descLen la.desc) }
  else { la with next := some (now + descLen la.desc) }

/-- A send note breaks the limit of R102: read later than origin+L−72 (`limit` is origin+L), or, in an elastic furrow,
than the sender's own fend − 32. [DEDUCED: log 151] -/
def noteLate (limit : Nat) (elastic : Bool) (sender : Core) (n : SendNote) : Bool :=
  if elastic then sender.seq.fend.elim false fun t => decide (t < n.last + 32) else limit < n.last + 72

/-- A late block was sent to core `i` in the furrow that ends (R102). -/
def lateTo (limit : Nat) (elastic : Bool) (cs : List Core) (i : Nat) : Bool :=
  cs.any fun c => c.net.notes.any fun n => n.dest == i && noteLate limit elastic c n

/-- The decider's sampled index (R56). -/
def deciderHead (la : Launch) (cs : List Core) : Option HeadSample :=
  (cs.find? fun c => c.index == descDecider la.desc).bind fun c => c.seq.head

/-- The successor of the rectangle: the decider's, or the next field (R45, R57). -/
def successorOf (la : Launch) (cs : List Core) : Nat × Nat :=
  if descHeadland la.desc then
    match deciderHead la cs with
    | some h => (h.index, succByte h.target h.index)
    | none => (0, 0)
  else (0, descNext la.desc)

/-- FURROW_ORIGIN: every core of the rectangle begins the next furrow, with the checks of an origin (R46, R47, R49,
R56, R57, R101, R102, R128). [DEDUCED: log 151] -/
def execFurrowOrigin (l : LaunchId) (s : State) : Host.Outcome State Fault Refusal :=
  match s.launch? l with
  | none => .fault .noSuchEvent
  | some la =>
    if la.phase != .running || s.nextOrigin la != some s.now then .fault .noSuchEvent
    else
      let cs := s.coresOf l
      let k := successorOf la cs
      let la' := la.turn s.now k.2
      let s' := s.setLaunch la'
      .next (s'.onLaunch l fun c =>
        let x := s'.ctx c
        let late := lateTo (la.origin + descLen la.desc) (descElastic la.desc) cs c.index
        let c := c.turn x la.origin (descHeadland la.desc) k.1 k.2 late
        if late then c.raise x { cause := 4, detail := 8, kind := 2, engine := 8 } else c)

/-! ## The first origin (R254) -/

/-- A launch's furrow 0 begins in this cycle: the channel model and every core's sequencer start (R46, R223). -/
def State.begin (la : Launch) (s : State) : State :=
  let la := { la with phase := .running }.turn s.now 0
  let s := s.setLaunch la
  s.onLaunch la.id fun c =>
    let x := s.ctx c
    let c : Core := { c with
      chan := { c.chan with banks := Vector.replicate 30 { last := s.now } }
      seq := { (Seq.fresh 0 c.seq) with stuck := false } }
    c.redirect x 0

/-- Another launch of the partition runs, or has its origin or its restart cycle fixed on the partition's count. -/
def Launch.onCount (la : Launch) : Bool :=
  match la.phase with
  | .running | .starting _ | .restarting _ => true
  | _ => false

/-- FIRST_ORIGIN: the preparation ends. In a partition with no other launch running this cycle becomes field cycle 0
and the first origin; otherwise furrow 0 begins at the first multiple of 4,096 at or after it (R47, R254). -/
def execFirstOrigin (l : LaunchId) (s : State) : Host.Outcome State Fault Refusal :=
  match s.launch? l, s.part? l.part.toNat with
  | some la, some p =>
    match la.phase with
    | .preparing u =>
      if s.now < u then .fault .noSuchEvent
      else if s.launches.any fun y => y.id != l && y.id.part == l.part && y.onCount then
        let o := nextAligned p.base s.now
        .next (if o = s.now then s.begin la else s.setLaunch { la with phase := .starting o })
      else .next ((s.setPart { p with base := s.now }).begin la)
    | .starting o => if s.now = o then .next (s.begin la) else .fault .noSuchEvent
    | _ => .fault .noSuchEvent
  | _, _ => .fault .noSuchEvent

/-! ## Elastic furrows (R60, R61) -/

/-- ELASTIC_JOIN: 40 cycles after the last fend the join completes and fixes the next origin, or the end of a furrow
marked .done (R60, R259). -/
def execElasticJoin (l : LaunchId) (s : State) : Host.Outcome State Fault Refusal :=
  match s.launch? l with
  | none => .fault .noSuchEvent
  | some la =>
    let f := s.frame la
    match lastFend f.1 with
    | none => .fault .noSuchEvent
    | some t =>
      if la.phase != .running || !descElastic la.desc || s.now < t + 40 then .fault .noSuchEvent
      else if la.doneOf la.furrow then .next (s.setLaunch { la with ended := some (t + 40) })
      else .next (s.setLaunch { la with next := some (nextAligned f.2 (t + 40)) })

/-! ## Headlands (R53 to R57) -/

/-- The successor byte at the decider's index was written by a prep of the furrow in time: at or before origin+L−48,
or 16 cycles before the core's own head (R53). [DEDUCED: log 119, 150] -/
def prepTimely (x : Ctx) (index : Nat) (h : HeadSample) (q : Seq) : Bool :=
  match (q.preps.filter fun p => p.k == h.k && p.byte == index).getLast? with
  | none => false
  | some p => if x.elastic then p.fc + 16 ≤ h.fc else p.fc + 48 ≤ x.len

/-- The first core in index order whose hash differs from the decider's (R57). -/
def firstDiffering (target : BitVec 32) (cs : List Core) : Option Nat :=
  (cs.filter fun c => c.seq.head.any fun h => targetHash h.target != targetHash target).foldl
    (fun m c => some (m.elim c.index (min c.index))) none

/-- HEADLAND_HASH_COMPARE: each core checks its prep, and every core raises a divergence (R53, R56, R57, R61).
[DEDUCED: log 116] -/
def execHeadlandHashCompare (l : LaunchId) (s : State) : Host.Outcome State Fault Refusal :=
  match s.launch? l with
  | none => .fault .noSuchEvent
  | some la =>
    if la.phase != .running || la.compared || !descHeadland la.desc then .fault .noSuchEvent
    else
      let cs := s.coresOf l
      let s' := s.setLaunch { la with compared := true }
      match deciderHead la cs with
      | none => .next s'
      | some d =>
        let diff := firstDiffering d.target cs
        .next (s'.onLaunch l fun c =>
          let x := s'.ctx c
          let c := match c.seq.head with
            | none => c
            | some h => if prepTimely x d.index h c.seq then c else c.raise x { cause := 4, detail := 6 }
          match diff with
          | none => c
          | some i => c.raise x { cause := 6, kind := 3, engine := 12, info0 := descDecider la.desc + i * 65536 })

/-- The bundle at the program counter does not issue in this cycle: no loop level is tested at it, and the next one in
program order follows it (R50, R51). [DEDUCED: log 102] -/
def Core.passOver (now : Nat) (c : Core) : Core :=
  let c := c.markChecked 2
  { c with seq := { c.seq with
      bundle := c.seq.pc, pc := nextStart c.code (c.seq.pc + bundleLen c.code c.seq.pc), len := 0, skip := none,
      suppressed := false, waiting := false, held := false, frozen := false, triedAt := some now } }

/-- MISSING_HEAD: a fixed headland furrow's core has issued no head by origin+L−32 (R55). [DEDUCED: log 116] -/
def execMissingHead :=
  fun s => onCore s fun x c => (c.markChecked 1).raise x { cause := 4, detail := 5 }

/-- FURROW_OVERRUN: the core has not issued fend by the furrow's limit; the bundle that would have issued does not, the
record names it, and the core issues on from the next one until the stop (R50, R66, R67). [DEDUCED: log 21, 102] -/
def execFurrowOverrun :=
  fun s => onCore s fun x c => (c.passOver x.now).raise x { cause := 5, bundle := some c.seq.pc }

/-! ## Releases (R59, R63, R64, R67) -/

/-- DRAIN_RELEASE: the count of a drain that waits in an elastic furrow is met. -/
def execDrainRelease := fun s => onCore s fun _ c => { c with seq := { c.seq with waiting := false } }
/-- HOLD_RELEASE: a held core's checks pass. -/
def execHoldRelease := fun s => onCore s fun _ c => { c with seq := { c.seq with held := false } }
/-- FREEZE_RELEASE: the field-hold term holds again. -/
def execFreezeRelease := fun s => onCore s fun _ c => { c with seq := { c.seq with frozen := false } }

/-! ## Scalar results (R11, R54, R144, R154 to R160, R190, R200, R203, R280) -/

/-- A fault of a deferred write at its instant: imprecise, naming its bundle (R190, R264). -/
def Pend.trap (p : Pend) : TrapRec :=
  { cause := 4, detail := 2, kind := 1, engine := if p.cls = 3 then 2 else 0, pos := p.pos, bundle := some p.bundle }

/-- A deferred change performs. A tile configuration, a tag lane or a store mode that the array holds busy is not
written (R190, R203). -/
def Core.perform (x : Ctx) (p : Pend) (c : Core) : Core :=
  let r := c.regs
  match p.what with
  | .g d v => { c with regs := r.writeG d v }
  | .cond k m v => { c with regs := r.writeK k (setCond (r.readK k) m v) }
  | .prep k hi a b => { c with regs := r.writeK k (setSucc (r.readK k) hi a b) }
  | .count n v => { c with regs := r.addN n v }
  | .hset h a b => { c with regs := r.writeH h a b }
  | .adv h n fill => { c with regs := if fill then r.advFill h n else r.advDrain h n }
  | .ctrl n v =>
    if 0x10 ≤ n.toNat && tileBusy c (n.toNat - 0x10) p.seqno x.now then c.raise x p.trap
    else { c with regs := r.writeCtrl n.toNat v }
  | .ovtab v => { c with regs := { r with ovtab := v } }
  | .sys n v => c.writeSys n.toNat v
  | .accMode g =>
    if storeBusy c p.seqno x.now then c.raise x p.trap else { c with arr := { c.arr with grad := g } }
  | .tags t bs =>
    if tileBusy c t.toNat p.seqno x.now then c.raise x p.trap
    else c.putRun c.nextUid (Run.full .tag (t.toNat * 256) bs)

/-- The instruction TLB after a write of system register `r` on a core: ctxid, iptroot and itlbinv invalidate the
plot's entries of the context id (R280, R287). -/
def dropTlb (r : BitVec 16) (c : Core) (t : List (Nat × TlbEntry)) : List (Nat × TlbEntry) :=
  if r = 0x13#16 || r = 0x20#16 || r = 0x22#16 then
    t.filter fun e => !(e.1 == plotOf c.px c.py && e.2.ctx == c.phys.ctxid)
  else t

/-- The window table that core `c` holds is its context's, whose image in the system banks keeps it for a restart (R284,
R288). [DEDUCED: log 66] -/
def State.keepWindows (c : Core) (s : State) : State :=
  { s with images := s.images.map fun d => if d.lid == c.lid && d.index == c.index then { d with windows := c.windows } else d }

/-- SCALAR_RESULT_WRITE: deferred change `i` of the acting core performs. -/
def execScalarResultWrite (i : Nat) (s : State) : Host.Outcome State Fault Refusal :=
  match s.actor with
  | none => .fault .noActor
  | some c =>
    match c.pends[i]? with
    | none => .fault .noSuchEvent
    | some p =>
      let c' := ({ c with pends := c.pends.eraseIdx i }).perform (s.ctx c) p
      let s' := s.setActor c'
      match p.what with
      | .sys r _ => .next (({ s' with tlb := dropTlb r c' s'.tlb }).keepWindows c')
      | _ => .next s'

/-! ## Completion (R242, R257, R259) -/

/-- No effect of a core is still to perform, its seam's merge included; a read that dcan suppressed has none (R48, R209,
R222, R259). [DEDUCED: log 24] -/
def Core.quiet (c : Core) : Bool :=
  c.pends.isEmpty && (c.flights.all fun f => f.cancelled || !f.live) && c.net.out.isEmpty && c.net.prev.isEmpty

/-- LAUNCH_COMPLETION: the completion counter rises by one, the completion report is sent, and the cores are idle
(R242, R252, R257, R259, R327). [DEDUCED: log 24; PRESUMED: log 57] -/
def execLaunchCompletion (l : LaunchId) (s : State) : Host.Outcome State Fault Refusal :=
  match s.launch? l, s.part? l.part.toNat with
  | some la, some p =>
    match s.furrowEnd la with
    | none => .fault .noSuchEvent
    | some e =>
      if la.phase != .running || s.now < e || !(s.coresOf l).all Core.quiet then .fault .noSuchEvent
      else
        let p' := if la.done = 0xFFFF then p
          else { p with counters := assign la.done (satAdd (look 0 p.counters la.done) 1) p.counters }
        let s := (s.setPart p').setLaunch { la with phase := .completed, ended := some e, yield_ := none }
        let s := s.report 4 0 0 la.report (leBytes 8 (launchWord l))
        .next ((if la.cls = 0 then s.restoreFootprints l else s).schedule l.part.toNat)
  | _, _ => .fault .noSuchEvent

end Sys2Proof.Machine
end

