-- ==== Sys2Proof/Machine/Image.lean ====
section
/-!
DEFINITION. The context image (R270 to R273): its bytes by offset, as a save writes them and state reads see them, and what
a byte of it gives back. Where the layout inside a group is the device's own (R270's operands and pipeline data, and the
parts of R272 and R273 whose inner layout is not given) the image holds no byte of the model's: a state read finds a free
value there, and a write has no effect.
-/

namespace Sys2Proof.Machine

/-- Byte `k` of a word. -/
def wordByte (w : Word) (k : Nat) : Byte := BitVec.ofNat 8 (w.toNat / 2 ^ (8 * k))

/-- A word with byte `k` replaced. -/
def setWordByte (w : Word) (k : Nat) (b : Byte) : Word :=
  (w &&& ~~~(0xFF#64 <<< (8 * k))) ||| (b.setWidth 64 <<< (8 * k))

/-- Byte `k` of a natural number, little-endian (R7). -/
def natByte (n k : Nat) : Byte := BitVec.ofNat 8 (n / 2 ^ (8 * k))

/-- A natural number with byte `k` replaced. -/
def setNatByte (n k : Nat) (b : Byte) : Nat := n - fieldOf n (8 * k) 8 * 2 ^ (8 * k) + b.toNat * 2 ^ (8 * k)

/-! ## The flight record (R270) -/

/-- An event that performs an effect, and does not only read for one that comes later: the row of a pass pops its scales as it
is read, and an mgdrn with clear zeroes a group there (R189, R202, R270). [DEDUCED: log 113] -/
def Flight.performs (f : Flight) (e : Eff) : Bool :=
  match e with
  | .vread | .spRead | .listRead | .blkRead => false
  | .arrRead => rowScales f != 0
  | .accRead => match f.instr with
    | .mgdrn _ _ z _ => z == 1
    | _ => false
  | _ => true

/-- The instants of an operation's effects that are still to come after a stop at `stop`; an lds writes its register 3 cycles
after its read, an mpop at issue+rows+3, and the counter addition of a dhget performs in the cycle after the restart, that of
a dhput at no fixed instant (R110, R166, R186, R211, R221, R270). [DEDUCED: log 113] -/
def Flight.effects (stop : Nat) (f : Flight) : List (Option Nat) :=
  (f.streams.flatMap fun t =>
    if f.performs t.eff then ((List.range t.n).drop t.k).map fun k => some ({ t with k := k } : Stream).due
    else match f.instr with
      | .lds .. => if t.live then [some (t.due + 3)] else []
      | .mpop .. => if t.live then [some (f.issue + f.rows + 3)] else []
      | _ => []) ++
  if f.open_ then match f.instr with
    | .dhget .. => [some (stop + 1)]
    | _ => [none]
  else []

/-- The syllable of class V, M or L whose deferred change a pending one is; those of S and of the steer registers stand in
the resumable position (R184, R186, R200, R203, R211, R270, R273). [DEDUCED: log 113] -/
def Pend.issuer (p : Pend) : Option Instr :=
  match p.cls, p.what with
  | 2, .g .. => some (.mpop 0 0 none)
  | 2, _ => some (.vshape 0 0)
  | 3, .tags .. => some (.mtag 0 0)
  | 3, .accMode _ => some (.mzero 0)
  | 3, _ => some (.mpat 0)
  | 4, _ => some (.lds 0 0 0 none)
  | _, _ => none

/-- An entry of the flight record: when its operation was accepted, cycle before class, engine, class and opcode, bundle, and
its effects, each with its instant where it has one. -/
structure FlightEntry where
  at_ : Nat
  engine : Nat
  op : Nat
  bundle : Nat
  due : List (Option Nat)
deriving DecidableEq, Repr

/-- Class and opcode of a syllable, as an entry gives them (R270). -/
def entryOp (i : Instr) : Nat := encodeSyllable i / 268435456 % 8 + encodeSyllable i / 4194304 % 32 * 8

/-- The entry of an operation in flight. -/
def Flight.entry (stop : Nat) (f : Flight) : FlightEntry :=
  { at_ := 8 * f.seqno + f.cls, engine := engineOf f.instr, op := entryOp f.instr, bundle := f.bundle, due := f.effects stop }

/-- The entry of a pending change of a V, M or L syllable. -/
def Pend.entry (p : Pend) : Option FlightEntry :=
  p.issuer.map fun i =>
    { at_ := 8 * p.seqno + p.cls, engine := engineOf i, op := entryOp i, bundle := p.bundle, due := [some p.due] }

/-- An entry put behind those accepted no later. -/
def insertEntry (e : FlightEntry) : List FlightEntry → List FlightEntry
  | [] => [e]
  | y :: l => if y.at_ ≤ e.at_ then y :: insertEntry e l else e :: y :: l

/-- The entries of the flight record after a stop at `stop`, in acceptance order: the operations in flight, a suppressed
channel read apart, and the changes of V, M and L syllables that wait with their result (R222, R270).
[DEDUCED: log 113] -/
def Core.flightEntries (stop : Nat) (c : Core) : List FlightEntry :=
  (((c.flights.filter fun f => f.live && !f.cancelled).map (Flight.entry stop)) ++ c.pends.filterMap Pend.entry).foldl
    (fun l e => insertEntry e l) []

/-- Byte `o` of entry `e`; its operands and pipeline data are the device's own, and the offset of an effect that has no
instant is a free value (R110, R270). [DEDUCED: log 113] -/
def FlightEntry.byte (stop o : Nat) (e : FlightEntry) : Option Byte :=
  match o with
  | 0 => some (natByte e.engine 0)
  | 1 => some (natByte e.op 0)
  | 2 | 3 =>
    let next : Option Nat := (e.due.filterMap fun d => d.map (· - stop)).foldl (fun m x => some (m.elim x (min x))) none
    if next.isNone && !e.due.isEmpty then none else some (natByte (min 65535 (next.getD 0)) (o - 2))
  | 4 | 5 => some (natByte e.bundle (o - 4))
  | 6 | 7 => some (natByte e.due.length (o - 6))
  | _ => none

/-! ## The fixed part (R273) -/

/-- The bytes of a stopped core's trap record; a core that recorded none holds cause 0 with its core, furrow, stop and
launch (R269). -/
def Core.trapBytes (la : Launch) (c : Core) : List Byte :=
  (c.trap.getD { cause := 0, fnum := c.seq.furrow, stop := la.stopField }).bytes c.lid c.index

/-- View-mark byte `i`: wl of line n at bit 2n and ws at bit 2n + 1, counted across 256 bytes (R273). -/
def Scratch.markByte (m : Scratch) (i : Nat) : Byte :=
  BitVec.ofNat 8 ((List.range 4).foldl (fun v k =>
    v + (m.wl.any fun e => e.1 == 4 * i + k).toNat * 4 ^ k + (m.ws.any fun e => e.1 == 4 * i + k).toNat * 2 * 4 ^ k) 0)

/-- The marks of one view of lines `4i` to `4i + 3`, as bits `2k + z` of a byte give them; a mark that stands keeps the
instant of its last write. -/
def putMarks (i z : Nat) (b : Byte) (l : List (Nat × Nat)) : List (Nat × Nat) :=
  (List.range 4).foldl (fun l k =>
    if !b.getLsbD (2 * k + z) then l.filter fun e => e.1 != 4 * i + k
    else if l.any fun e => e.1 == 4 * i + k then l else assign (4 * i + k) 0 l) l

/-- A control register as the image holds it. -/
def Core.imageCtrl (x : Ctx) (n : Nat) (c : Core) : Word :=
  if n < 10 || (0x10 ≤ n && n < 0x26) then c.readCtrl x n else 0

/-- A channel read whose column a stop found under way (R268, R271). -/
def Flight.holds (f : Flight) : Bool := f.live && !f.cancelled && f.streams.any fun t => t.eff == .chData

/-- The columns in the holding buffer: those of channel reads that a stop found under way (R268, R271).
[DEDUCED: log 113] -/
def Core.heldColumns (c : Core) : List (List Byte) := (c.flights.filter Flight.holds).map (·.bytes)

/-- The operations in flight with byte `i` of column `k` of the holding buffer replaced. [DESIGN CHOICE: log 13] -/
def putHeld (i : Nat) (b : Byte) : Nat → List Flight → List Flight
  | _, [] => []
  | k, f :: fs =>
    if !f.holds then f :: putHeld i b k fs
    else match k with
      | 0 => { f with bytes := f.bytes.set i b } :: fs
      | k + 1 => f :: putHeld i b k fs

/-- Byte `o` of the fixed part, where the specification lays it out (R270, R273). [DESIGN CHOICE: log 13] -/
def Core.fixedByte (x : Ctx) (o : Nat) (c : Core) : Option Byte :=
  if o < 0x200 then some (wordByte (c.regs.readG (BitVec.ofNat 6 (o / 8))) (o % 8))
  else if o < 0x260 then some (wordByte (c.regs.readK (BitVec.ofNat 4 ((o - 0x200) / 8))) (o % 8))
  else if o < 0x400 then none
  else if o < 0x500 then
    let h := BitVec.ofNat 4 ((o - 0x400) / 16)
    some (wordByte (if o % 16 < 8 then c.regs.hw0 h else c.regs.hw1 h) (o % 8))
  else if o < 0x700 then some (wordByte (c.regs.readN (BitVec.ofNat 6 ((o - 0x500) / 8))) (o % 8))
  else if o < 0x780 then some (natByte (c.q.cq.getD ((o - 0x700) / 2) 0).toNat (o % 2))
  else if o < 0x800 then some (natByte (c.q.miss.getD ((o - 0x780) / 2) 0).toNat (o % 2))
  else if o < 0xA00 then some (wordByte (c.imageCtrl x ((o - 0x800) / 8)) (o % 8))
  else if o < 0xA08 then some (wordByte c.regs.ovtab (o - 0xA00))
  else if o < 0xA40 then none
  else if o < 0xA80 then some (wordByte (if h : (o - 0xA40) / 8 < 8 then c.wp[(o - 0xA40) / 8] else 0) (o % 8))
  else if o < 0xAC0 then some ((c.trapBytes x.la).getD (o - 0xA80) 0)
  else if o < 0x1000 then none
  else if o < 0x1C00 then (c.heldColumns[(o - 0x1000) / 64]?).map fun l => l.getD (o % 64) 0
  else if o < 0x1D00 then some (c.sp.markByte (o - 0x1C00))
  else if o < 0x2000 then some 0
  else if o < 0x8000 then match (c.flightEntries x.la.stop)[(o - 0x2000) / 32]? with
    | some e => e.byte x.la.stop (o % 32)
    | none => some 0
  else some 0

/-! ## The other groups (R272) -/

/-- Byte `o` of the unit group; its pipeline data is the device's own. [DESIGN CHOICE: log 13] -/
def Core.unitByte (o : Nat) (c : Core) : Option Byte :=
  if o < 32768 then some (c.vec.maskByte (o / 2048) (o % 2048))
  else if o < 163840 then some (c.vec.b.get 0 (o - 32768))
  else if o < 196608 then some (wordByte (c.q.sow.getD ((o - 163840) / 8) 0) (o % 8))
  else if o < 196616 then some (natByte c.q.sow.length (o % 8))
  else if o < 196624 then some (natByte c.q.cursor (o % 8))
  else none

/-- Byte `o` of the accumulator group. -/
def Core.accByte (o : Nat) (c : Core) : Byte :=
  if o < 524288 then c.arr.acc.get 0 o
  else if o = 524288 then natByte c.arr.grad.toNat 0
  else if o = 524290 || o = 524291 then natByte c.q.sq.length (o % 2)
  else if 525312 ≤ o && o < 526336 then c.q.sq.getD (o - 525312) 0
  else 0

/-- Byte `o` of the weight-slot group (R187). -/
def Core.slotByte (o : Nat) (c : Core) : Byte :=
  if o < 131072 then c.arr.weight.get 0 o
  else if o < 135168 then c.arr.scale.get 0x7F (o - 131072)
  else natByte (c.arr.descOf ((o - 135168) / 16) ((o - 135168) / 4 % 4)).toNat (o % 4)

/-- Byte `o` of a context image, where the specification lays it out; the landing area's bytes are its unmerged records,
in the device's own form (R272). [DESIGN CHOICE: log 13] -/
def Core.givenByte (x : Ctx) (o : Nat) (c : Core) : Option Byte :=
  if o < 0x400000 then if x.landBase ≤ o then none else some (c.sp.mem.get 0 o)
  else if o < 0x4A0000 then some (c.vec.v.get 0 (o - 0x400000))
  else if o < 0x520000 then some (c.vec.tile.get 0 (o - 0x4A0000))
  else if o < 0x521000 then some (c.vec.tag.get 0 (o - 0x520000))
  else if o < 0x5A2000 then some (c.accByte (o - 0x521000))
  else if o < 0x5C3080 then some (c.slotByte (o - 0x5A2000))
  else if o < 0x5C4000 then some 0
  else if o < 0x5D4000 then c.fixedByte x (o - 0x5C4000)
  else if o < 0x6D4000 then c.unitByte (o - 0x5D4000)
  else some 0

/-- Byte `o` of the image of a context that stands on its core, as a state read numbered `draw` sees it.
[DESIGN CHOICE: log 13] -/
def Core.imageByte (x : Ctx) (draw o : Nat) (c : Core) : Byte := (c.givenByte x o).getD (Config.pipelineByte draw o)

/-! ## A save and a restore (R257, R268, R276) -/

/-- An offset lies in one of some spans. -/
def inSpans (l : List (Nat × Nat)) (o : Nat) : Bool := l.any fun p => p.1 ≤ o && o < p.2

/-- The spans of an image that some groups take, of savemask's bits (R256, R272, R287). -/
def groupSpans (landBase : Nat) (m : Word) : List (Nat × Nat) :=
  if m.getLsbD 20 then [(0, 7340032)]
  else
    [(0, fieldOf m.toNat 0 11 * 4096), (landBase, 4194304)] ++ (if m.getLsbD 16 then [(0x400000, 0x4A0000)] else []) ++
    (if m.getLsbD 17 then [(0x4A0000, 0x521000)] else []) ++ (if m.getLsbD 18 then [(0x521000, 0x5A2000)] else []) ++
    (if m.getLsbD 19 then [(0x5A2000, 0x5C4000)] else []) ++ [(0x5C4000, 0x5D4000)]

/-- The cells of the bytes `lo` to `hi − 1` that the specification lays out. -/
def Core.givenCells (x : Ctx) (lo hi : Nat) (c : Core) : Mem :=
  (List.range (hi - lo)).filterMap fun i =>
    match c.givenByte x (lo + i) with
    | some b => if b = 0 then none else some (lo + i, b)
    | none => none

/-- The pieces of a context's image, each with the offsets it takes, as cells of bytes: the memories as they stand, the rest
byte by byte. -/
def Core.imagePieces (x : Ctx) (c : Core) : List (Nat × Nat × Mem) :=
  [(0, min 0x400000 x.landBase, c.sp.mem), (0x400000, 0x4A0000, c.vec.v.up 0x400000),
   (0x4A0000, 0x520000, c.vec.tile.up 0x4A0000), (0x520000, 0x521000, c.vec.tag.up 0x520000),
   (0x521000, 0x5A1000, c.arr.acc.up 0x521000), (0x5A1000, 0x5A1800, c.givenCells x 0x5A1000 0x5A1800),
   (0x5A2000, 0x5C2000, c.arr.weight.up 0x5A2000),
   (0x5C2000, 0x5C3000, (Mem.redefault 0x7F 0 4096 0 c.arr.scale).up 0x5C2000),
   (0x5C3000, 0x5C3080, c.givenCells x 0x5C3000 0x5C3080), (0x5C4000, 0x5CC000, c.givenCells x 0x5C4000 0x5CC000),
   (0x5D4000, 0x5D4800, Mem.cells 0 0x5D4000 (List.replicate 2048 0xFF)), (0x5D4800, 0x5DC000, c.vec.m.up 0x5D4000),
   (0x5DC000, 0x5FC000, c.vec.b.up 0x5DC000),
   (0x5FC000, 0x604000, c.givenCells x 0x5FC000 (0x5FC000 + 8 * c.q.sow.length)),
   (0x604000, 0x604010, c.givenCells x 0x604000 0x604010)]

/-- A context's image as cells of bytes, zero where none is listed. -/
def Core.imageCells (x : Ctx) (c : Core) : Mem :=
  (c.imagePieces x).flatMap fun p => p.2.2.filter fun e => p.1 ≤ e.1 && e.1 < p.2.1

/-- The groups `m` of a context, with the landing area from `land` on, written into the rows from `row` of its channel's
system banks (R257, R268). [DEDUCED: log 60; DESIGN CHOICE: log 112] -/
def Core.writeImage (x : Ctx) (m : Word) (land row : Nat) (c : Core) : Core :=
  let cells := (c.imageCells x).up (sysByte row)
  { c with
    imageRow := row, imageMask := m, imageLand := land
    phys := { c.phys.putImageRow row with
      savebase := BitVec.ofNat 64 row, savemask := m
      hbm := (groupSpans land m).foldl (fun h s => mergeMem (sysByte row + s.1) (sysByte row + s.2) cells h) c.phys.hbm } }

/-! ## What a byte gives back -/

/-- A control register with byte `k` of its image replaced, where the register is one that mtc writes (R39, R40). -/
def Core.setImageCtrl (x : Ctx) (n k : Nat) (b : Byte) (c : Core) : Core :=
  if crnWritable n then { c with regs := c.regs.writeCtrl n (setWordByte (c.readCtrl x n) k b) } else c

/-- A list cut, or filled up with `d`, to `n` entries. -/
def cutTo {α : Type} (d : α) (n : Nat) (l : List α) : List α := l.take n ++ List.replicate (n - l.length) d

/-- The core with byte `o` of the fixed part of its image replaced. [DESIGN CHOICE: log 13] -/
def Core.putFixed (x : Ctx) (o : Nat) (b : Byte) (c : Core) : Core :=
  let r := c.regs
  if o < 0x200 then
    let d := BitVec.ofNat 6 (o / 8)
    { c with regs := r.writeG d (setWordByte (r.readG d) (o % 8) b) }
  else if o < 0x260 then
    let k := BitVec.ofNat 4 ((o - 0x200) / 8)
    { c with regs := r.writeK k (setWordByte (r.readK k) (o % 8) b) }
  else if o < 0x400 then c
  else if o < 0x500 then
    let h := BitVec.ofNat 4 ((o - 0x400) / 16)
    { c with regs := if o % 16 < 8 then r.writeH h (setWordByte (r.hw0 h) (o % 8) b) (r.hw1 h)
        else r.writeH h (r.hw0 h) (setWordByte (r.hw1 h) (o % 8) b) }
  else if o < 0x700 then
    let n := BitVec.ofNat 6 ((o - 0x500) / 8)
    { c with regs := { r with n := r.n.set n.toNat (setWordByte (r.readN n) (o % 8) b) n.isLt } }
  else if o < 0x780 then
    { c with q := { c.q with cq := c.q.cq.modify ((o - 0x700) / 2) fun v => BitVec.ofNat 16 (setNatByte v.toNat (o % 2) b) } }
  else if o < 0x800 then
    { c with q := { c.q with miss := c.q.miss.modify ((o - 0x780) / 2) fun v => BitVec.ofNat 11 (setNatByte v.toNat (o % 2) b) } }
  else if o < 0xA00 then c.setImageCtrl x ((o - 0x800) / 8) (o % 8) b
  else if o < 0xA08 then { c with regs := { r with ovtab := setWordByte r.ovtab (o - 0xA00) b } }
  else if h : 0xA40 ≤ o ∧ o < 0xA80 then
    { c with wp := c.wp.set ((o - 0xA40) / 8) (setWordByte (c.wp[(o - 0xA40) / 8]'(by omega)) (o % 8) b) (by omega) }
  else if 0x1000 ≤ o && o < 0x1C00 then
    { c with flights := putHeld (o % 64) b ((o - 0x1000) / 64) c.flights }
  else if 0x1C00 ≤ o && o < 0x1D00 then
    { c with sp := { c.sp with wl := putMarks (o - 0x1C00) 0 b c.sp.wl, ws := putMarks (o - 0x1C00) 1 b c.sp.ws } }
  else c

/-- The core with byte `o` of its image replaced. [DESIGN CHOICE: log 13] -/
def Core.putImage (x : Ctx) (o : Nat) (b : Byte) (c : Core) : Core :=
  if o < 0x400000 then if x.landBase ≤ o then c else { c with sp := { c.sp with mem := c.sp.mem.put 0 o b } }
  else if o < 0x4A0000 then { c with vec := { c.vec with v := c.vec.v.put 0 (o - 0x400000) b } }
  else if o < 0x520000 then { c with vec := { c.vec with tile := c.vec.tile.put 0 (o - 0x4A0000) b } }
  else if o < 0x521000 then { c with vec := { c.vec with tag := c.vec.tag.put 0 (o - 0x520000) b } }
  else if o < 0x5A1000 then { c with arr := { c.arr with acc := c.arr.acc.put 0 (o - 0x521000) b } }
  else if o = 0x5A1000 then { c with arr := { c.arr with grad := b.getLsbD 0 } }
  else if o = 0x5A1002 || o = 0x5A1003 then
    { c with q := { c.q with sq := cutTo 0 (min 1024 (setNatByte c.q.sq.length (o % 2) b)) c.q.sq } }
  else if o < 0x5A1400 then c
  else if o < 0x5A2000 then { c with q := { c.q with sq := c.q.sq.set (o - 0x5A1400) b } }
  else if o < 0x5C2000 then { c with arr := { c.arr with weight := c.arr.weight.put 0 (o - 0x5A2000) b } }
  else if o < 0x5C3000 then { c with arr := { c.arr with scale := c.arr.scale.put 0x7F (o - 0x5C2000) b } }
  else if h : 0x5C3000 ≤ o ∧ o < 0x5C3080 then
    let v := c.arr.desc[(o - 0x5C3000) / 4]'(by omega)
    { c with arr := { c.arr with
        desc := c.arr.desc.set ((o - 0x5C3000) / 4) (BitVec.ofNat 32 (setNatByte v.toNat (o % 4) b) &&& 0xFFFFF#32) (by omega) } }
  else if o < 0x5C4000 then c
  else if o < 0x5D4000 then c.putFixed x (o - 0x5C4000) b
  else if o < 0x5DC000 then if o < 0x5D4800 then c else { c with vec := { c.vec with m := c.vec.m.put 0 (o - 0x5D4000) b } }
  else if o < 0x5FC000 then { c with vec := { c.vec with b := c.vec.b.put 0 (o - 0x5DC000) b } }
  else if o < 0x604000 then
    { c with q := { c.q with sow := c.q.sow.modify ((o - 0x5FC000) / 8) fun v => setWordByte v (o % 8) b } }
  else if o < 0x604008 then
    { c with q := { c.q with sow := cutTo 0 (min 4096 (setNatByte c.q.sow.length (o % 8) b)) c.q.sow } }
  else if o < 0x604010 then { c with q := { c.q with cursor := setNatByte c.q.cursor (o % 8) b } }
  else c

/-- The context that an image gives back: the device's own part as the stop left it, and the rest from the bytes of the
groups and of the landing area that stand in the rows (R257, R272, R276). [DESIGN CHOICE: log 13] -/
def Core.readImage (x : Ctx) (hbm : Mem) (c : Core) : Core :=
  let base := sysByte c.imageRow
  let w := hbm.part base (base + 7340032)
  let has (k : Nat) : Bool := c.imageMask.getLsbD 20 || c.imageMask.getLsbD k
  let full := c.imageMask.getLsbD 20
  let lines := if full then x.landBase else min x.landBase (fieldOf c.imageMask.toNat 0 11 * 4096)
  let bytes (lo n : Nat) (c : Core) : Core :=
    (((w.part lo (lo + n)).dense 0 n 0).zipIdx).foldl (fun c b => c.putImage x (lo + b.2) b.1) c
  let c : Core := { c with
    sp := { c.sp with mem := mergeMem (min c.imageLand x.landBase) x.landBase w (mergeMem 0 lines w c.sp.mem) }
    vec := {
      v := if has 16 then w.part 0x400000 0x4A0000 else c.vec.v
      tile := if has 17 then w.part 0x4A0000 0x520000 else c.vec.tile
      tag := if has 17 then w.part 0x520000 0x521000 else c.vec.tag
      m := if full then (w.part 0x5D4000 0x5DC000).filter fun e => 2048 ≤ e.1 else c.vec.m
      b := if full then w.part 0x5DC000 0x5FC000 else c.vec.b }
    arr := { c.arr with
      acc := if has 18 then w.part 0x521000 0x5A1000 else c.arr.acc
      weight := if has 19 then w.part 0x5A2000 0x5C2000 else c.arr.weight
      scale := if has 19 then Mem.redefault 0 0x7F 4096 0 (w.part 0x5C2000 0x5C3000) else c.arr.scale } }
  let c := if has 18 then bytes 0x5A1400 1024 (bytes 0x5A1000 4 c) else c
  let c := if has 19 then bytes 0x5C3000 128 c else c
  let c := if full then bytes 0x5FC000 (8 * c.q.sow.length) (bytes 0x604000 16 c) else c
  bytes 0x5C4000 0x1D00 c

end Sys2Proof.Machine
end

