-- ==== Sys2Proof/Machine/Stop.lean ====
section
/-!
DEFINITION. Stops and restarts (R66, R114, R255 to R258, R266 to R278, R288, R304, R308, R327): the common stop, the
pre-emption stop, saves and restores, the preamble and the restart cycle, the return from system code, and the thermal
requests.
-/

namespace Sys2Proof.Machine

/-! ## The stop (R66, R114, R266 to R269) -/

/-- A full context image's bytes (R268). -/
def imageBytes : Nat := 7159808

/-- The bytes of a class-0 footprint (R256). -/
def footprintBytes (la : Launch) : Nat :=
  let bit (k : Nat) : Nat := fieldOf la.footprint k 1
  4096 * fieldOf la.footprint 0 11 + 65536 * la.landing + 655360 * bit 16 + 528384 * bit 17 + 528384 * bit 18 +
    135296 * bit 19 + 65536

/-- The blocks that a send has read before a stop, as a record that its other blocks complete after the restart; a send
of which no block is read yet, or whose last is, has none (R114). [DEDUCED: log 106] -/
def Core.cutRecord (c : Core) (f : Flight) : Option Rec :=
  match f.instr with
  | .dput .. | .dred .. =>
    if f.bytes.isEmpty || f.bytes.length == f.len then none
    else some { kind := recKind f, sender := c.index, order := f.uid, dest := f.d, addr := f.addr, bytes := f.bytes,
                open_ := true }
  | _ => none

/-- What core `c` has on the mesh: its records, and the blocks of sends that the stop cuts. -/
def Core.onMesh (c : Core) : List Rec := c.net.out ++ c.flights.filterMap c.cutRecord

/-- A stop's landing (R114, R268): the new blocks of a cut send take the place of those that an earlier stop landed. -/
def Core.landStop (x : Ctx) (out : List Rec) (c : Core) : Core :=
  let mine := out.filter fun r => r.dest == c.index
  mine.foldl (Core.putLanded x) { c with net := { c.net with
    out := [], land := c.net.land.filter fun y => !(mine.any fun r => r.completes y) } }

/-- A stop closes the open rows, which stay recorded (R44, R268). -/
def Chan.close (h : Chan) : Chan := { h with banks := h.banks.map fun b => { b with shut := b.row.isSome } }

/-- The transfers of the batches whose bytes may reach the host: those of the first batch that has blocks left to read, and
of the batches before it (R111). -/
def openPuts (unread : Nat → Bool) : List (List Nat) → List Nat
  | [] => []
  | b :: bs => if b.any unread then b else b ++ openPuts unread bs

/-- A dhput with blocks left to read. -/
def Core.unread (c : Core) (u : Nat) : Bool := (c.flight? u).any fun f => f.streams.any Stream.live

/-- The blocks of dhputs that were read before a stop reach the host in the order of the batches; those of a batch behind
one with blocks left to read wait for it (R111, R221). -/
def Core.flushPuts (x : Ctx) (c : Core) : List Sent × Core :=
  let us := openPuts c.unread (c.net.closed ++ [c.net.openBatch])
  let put (f : Flight) : Bool := match f.instr with
    | .dhput .. => decide (f.moved < f.bytes.length) && us.contains f.uid
    | _ => false
  (((us.filterMap c.flight?).filter put).map (c.sentOf x),
   { c with flights := c.flights.map fun f => if put f then { f with moved := f.bytes.length } else f })

/-- Blocks already read land before the save, raising nothing, those of dhputs reach the host, and the open rows are closed
(R44, R114, R221, R268); what is in flight stands in the flight record from here on (R270, R305).
[DEDUCED: log 106] -/
def State.landAll (cs : List Core) (l : LaunchId) (s : State) : State :=
  let out := cs.flatMap Core.onMesh
  let sent := cs.flatMap fun c => (c.flushPuts (s.ctx c)).1
  let stop (c : Core) : Core :=
    let d := ((c.landStop (s.ctx c) out).flushPuts (s.ctx c)).2
    ({ d with chan := d.chan.close }).writeUnits 6 (flightCell 0) (32 * (d.flightEntries s.now).length)
  { s.onLaunch l stop with host := sent.reverse ++ s.host }

/-- The earliest trap of a launch, and of several in its cycle the lowest index (R266). -/
def firstTrap (cs : List Core) : Option (Nat × Nat) :=
  cs.foldl (fun m c => match c.trap, m with
    | none, m => m
    | some t, none => some (t.raised, c.index)
    | some t, some b => if t.raised < b.1 || (t.raised == b.1 && c.index < b.2) then some (t.raised, c.index) else some b) none

/-- The records of the stop: raise and stop become field cycles, and the earliest trap takes the first flag (R266,
R269). -/
def State.fixTraps (l : LaunchId) (base : Nat) (s : State) : State :=
  let first := (firstTrap (s.coresOf l)).map (·.2)
  s.onLaunch l fun c => { c with trap := c.trap.map fun t =>
    { t with raised := t.raised - base, stop := s.now - base, first := first == some c.index } }

/-- The launch goes into its save for `n` bytes, 64 a cycle (R268). -/
def Launch.toSave (now base n : Nat) (la : Launch) : Launch :=
  { la with phase := .saving (now + ceilDiv n 64), stop := now, stopField := now - base, saved := n }

/-- COMMON_STOP: 16 cycles after the launch's first trap every core stops; what is due at this cycle or later stays to
be performed after a restart (R66, R114, R266, R268). -/
def execCommonStop (l : LaunchId) (s : State) : Host.Outcome State Fault Refusal :=
  match s.launch? l, s.part? l.part.toNat with
  | some la, some p =>
    if la.phase != .running || s.stopOf l != some s.now then .fault .noSuchEvent
    else .next (((s.landAll (s.coresOf l) l).fixTraps l p.base).setLaunch (la.toSave s.now p.base imageBytes))
  | _, _ => .fault .noSuchEvent

/-- A class-0 launch that waits in its queue for a launch that yields to it. -/
def State.waiting (s : State) (y : Option Yield) : Option Launch :=
  match y with
  | some (.class0 x) => (s.launch? x).filter fun a => a.phase == .queued
  | _ => none

/-- PREEMPTION_STOP: a pending request stops the launch at this origin, before its furrow's first bundle, with cause
0x11 on every core. Where it makes room for a class-0 launch the save is that launch's footprint, which begins anew with
each launch that stops for it; else every group is saved (R66, R255, R257, R267, R268). [DEDUCED: log 62] -/
def execPreemptionStop (l : LaunchId) (s : State) : Host.Outcome State Fault Refusal :=
  match s.launch? l, s.part? l.part.toNat with
  | some la, some p =>
    if la.phase != .running || la.yield_ == none || la.turned != some s.now || s.stopOf l != none then .fault .noSuchEvent
    else
      let s' := s.onLaunch l fun c => { c with trap := some (c.fillTrap (s.ctx c) { cause := 0x11 }) }
      let s' := (s'.landAll (s.coresOf l) l).fixTraps l p.base
      match s.waiting la.yield_ with
      | some x =>
        let s' := s'.setLaunch { la.toSave s.now p.base (footprintBytes x) with footprinted := true }
        .next { s' with launches := s'.launches.map fun y =>
          match y.phase with
          | .saving _ => if y.footprinted && y.yield_ == la.yield_ then
              { y with phase := .saving (s.now + ceilDiv (footprintBytes x) 64) } else y
          | _ => y }
      | none => .next (s'.setLaunch (la.toSave s.now p.base imageBytes))
  | _, _ => .fault .noSuchEvent

/-! ## The end of a save (R257, R268, R327) -/

/-- The body of a trap report: the record of every core whose cause is nonzero, by index (R268). -/
def trapBody (l : LaunchId) (n : Nat) (cs : List Core) : List Byte :=
  (List.range n).flatMap fun i => match cs.find? fun c => c.index == i with
    | some c => c.trap.elim [] (TrapRec.bytes l i)
    | none => []

/-- The trap report of a launch. -/
def State.trapReport (la : Launch) (s : State) : State :=
  s.report 5 0 0 la.report (trapBody la.id (la.w * la.h) (s.coresOf la.id))

/-- A launch of these cores ends at its stop: some recorded trap is terminating (R263). -/
def endsAtStop (cs : List Core) : Bool := cs.any fun c => c.trap.any fun t => terminating t.cause

/-- The stop was a pre-emption (R267). -/
def wasPreempted (cs : List Core) : Bool := cs.any fun c => c.trap.any fun t => t.cause == 0x11

/-- The cause of a launch's stop: that of its earliest trap (R266, R291). -/
def stopCause (cs : List Core) : Nat :=
  ((firstTrap cs).bind fun f => (cs.find? fun c => c.index == f.2).bind (·.trap)).elim 0 (·.cause)

/-- The save of an image reads the arrays of the core and writes the units of its rows: an injection armed for one of them is
applied, and what could not be corrected in the arrays cannot be in the image (R268, R304, R307).
[DEDUCED: log 67, 131] -/
def Core.saveUnits (x : Ctx) (c : Core) : Core :=
  let spans := groupSpans c.imageLand c.imageMask
  let row := sysByte c.imageRow
  let lost := c.lostOffsets.filter (inSpans spans)
  let c := spans.foldl (fun c p => c.writeUnits 7 (row + p.1) (p.2 - p.1)) (c.readArraysOf x (inSpans spans))
  c.spoil ((lost.map fun o => ((row + o) / 8, BitVec.allOnes 64)).dedup)

/-- The groups `m` of a launch's contexts, with the landing area from `land` on, are written to the row that savebase names,
or, where no system code has named one, to rows that nothing else takes (R257, R268, R287).
[DESIGN CHOICE: log 112] -/
def State.saveImages (l : LaunchId) (m : Word) (land : Nat) (s : State) : State :=
  s.onLaunch l fun c =>
    let x := s.ctx c
    (c.writeImage x m land (if s.sysCode.isEmpty then s.imageRowFor c.physNo else c.phys.savebase.toNat)).saveUnits x

/-- savemask's bit for every group (R287). -/
def everyGroup : Word := 0x100000

/-- A dhget whose bytes have still to come. -/
def Flight.coming (f : Flight) : Bool :=
  f.open_ && decide (f.moved < f.len) && match f.instr with
    | .dhget .. => true
    | _ => false

/-- Every byte of the dhgets of a stopped launch is written: its contexts may be saved (R221, R268). [DEDUCED: log 84] -/
def State.gathered (l : LaunchId) (s : State) : Bool := (s.coresOf l).all fun c => !c.flights.any Flight.coming

/-- SAVE_END: the bytes of every dhget have come, the image is written, the report is sent, the cores enter system code
and are idle; the launch is terminated, stopped, or back in its queue (R221, R263, R268, R275, R288, R327).
[DEDUCED: log 28, 63, 65, 84] -/
def execSaveEnd (l : LaunchId) (s : State) : Host.Outcome State Fault Refusal :=
  match s.launch? l with
  | none => .fault .noSuchEvent
  | some la =>
    match la.phase with
    | .saving u =>
      if s.now < u || la.footprinted || !s.gathered l then .fault .noSuchEvent
      else
        let s := s.saveImages l everyGroup la.landBase
        let cs := s.coresOf l
        let phase : Phase := if endsAtStop cs then .terminated else if wasPreempted cs then .queued else .stopped
        let keep := la.yield_.filter fun y => phase == .stopped || (phase == .queued && s.mgmt.hot && y == .thermal)
        let s := ((s.trapReport la).park l (stopCause cs)).setLaunch { la with phase := phase, yield_ := keep }
        .next ((if phase == .terminated && la.cls == 0 then s.restoreFootprints l else s).schedule l.part.toNat)
    | _ => .fault .noSuchEvent

/-- The launches whose footprint is being saved for class-0 launch `l`. -/
def State.footprints (s : State) (l : LaunchId) : List (Launch × Nat) :=
  s.launches.filterMap fun y => match y.phase with
    | .saving u => if y.footprinted && y.yield_ == some (.class0 l) then some (y, u) else none
    | _ => none

/-- A launch that class-0 launch `l` asked to yield has still to stop. -/
def State.yielding (s : State) (l : LaunchId) : Bool :=
  s.launches.any fun y => y.occupies && !y.footprinted && y.yield_ == some (.class0 l)

/-- FOOTPRINT_SAVE_END: every launch that class-0 launch `l` pre-empts has stopped and the footprint of `l` is saved, its
whole landing area with it; each is back in its queue with its state in place, and `l` may start (R252, R256, R257, R327).
[DEDUCED: log 60, 84] -/
def execFootprintSaveEnd (l : LaunchId) (s : State) : Host.Outcome State Fault Refusal :=
  let ys := s.footprints l
  if ys.isEmpty || s.yielding l || ys.any fun y => decide (s.now < y.2) || !s.gathered y.1.id then .fault .noSuchEvent
  else
    let m := BitVec.ofNat 64 ((s.launch? l).elim 0 fun x => x.footprint % 2 ^ 20)
    let land := (s.launch? l).elim 4194304 Launch.landBase
    let s := ys.foldl (fun s y => (((s.saveImages y.1.id m land).trapReport y.1).park y.1.id 0x11).setLaunch { y.1 with phase := .queued }) s
    .next (s.schedule l.part.toNat)

/-- FOOTPRINT_RESTORE_END: what was saved for class-0 launch `l` stands in place again, bit for bit, and the launches
may resume (R252, R257). -/
def execFootprintRestoreEnd (l : LaunchId) (s : State) : Host.Outcome State Fault Refusal :=
  let ripe (y : Launch) : Bool := y.footprinted && y.yield_ == some (.class0 l) && y.footUntil.any fun u => u ≤ s.now
  if !s.launches.any ripe then .fault .noSuchEvent
  else
    let s' : State := { s with
      launches := s.launches.map fun y =>
        if ripe y then { y with footprinted := false, footUntil := none, yield_ := none, saved := 0 } else y }
    .next (s'.schedule l.part.toNat)

/-! ## The return from system code (R159, R276, R288) -/

/-- The bytes that the groups of savemask take (R256, R272, R287). -/
def maskBytes (landing : Nat) (w : Word) : Nat :=
  if w.getLsbD 20 then imageBytes
  else footprintBytes { noLaunch { part := 0, acc := 0 } with footprint := w.toNat % 2 ^ 20, landing := landing }

/-- Once every core of a returning launch, or of a stopped one that system software resumes, has executed eret, the last
core's restore is what is waited for (R275, R276). -/
def State.returned (l : LaunchId) (s : State) : State :=
  match s.launch? l with
  | none => s
  | some la =>
    let cs := s.coresOf l
    if (la.phase == .returning || la.phase == .stopped) && cs.length == la.w * la.h && cs.all fun c => !c.phys.sysMode then
      s.setLaunch { la with phase := .restoring ((cs.map (·.backAt)).foldl max 0) }
    else s

/-- Ends system mode on the core, which reads back the groups of its savemask, 64 bytes a cycle, and then waits for the
restart (R159, R276, R288). [DEDUCED: log 132] -/
def execEret (s : State) : Host.Outcome State Fault Refusal :=
  match issueSyl .eret (fun x c => { c with
      phys := { c.phys with sysMode := false }, seq := { c.seq with stuck := true }
      backAt := x.now + ceilDiv (maskBytes x.la.landing c.phys.savemask) 64 }) s with
  | .next s' => .next (match s.actor with
    | some c => if c.phys.sysMode then s'.returned c.lid else s'
    | none => s')
  | o => o

/-! ## The restore (R257, R268, R276, R280, R304) -/

/-- The restored context: the groups of savemask and the fixed part from the image, the others as the core holds them;
the window table and what the core holds besides a context are the core's (R268, R272, R273, R287).
[DEDUCED: log 66, 132] -/
def restoreCore (img work : Core) : Core :=
  let m := work.phys.savemask
  let back : Core := { img with px := work.px, py := work.py, code := work.code, windows := work.windows, phys := work.phys
                                free := max img.free work.free }
  if m.getLsbD 20 then back
  else
    let lines := fieldOf m.toNat 0 11 * 4096
    let land := mergeMem (min img.imageLand 4194304) 4194304 img.sp.mem work.sp.mem
    { back with
      sp := { img.sp with mem := mergeMem 0 lines img.sp.mem land }
      vec := {
        v := if m.getLsbD 16 then img.vec.v else work.vec.v
        tile := if m.getLsbD 17 then img.vec.tile else work.vec.tile
        tag := if m.getLsbD 17 then img.vec.tag else work.vec.tag
        b := work.vec.b, m := work.vec.m }
      arr := {
        acc := if m.getLsbD 18 then img.arr.acc else work.arr.acc
        grad := if m.getLsbD 18 then img.arr.grad else work.arr.grad
        weight := if m.getLsbD 19 then img.arr.weight else work.arr.weight
        scale := if m.getLsbD 19 then img.arr.scale else work.arr.scale
        desc := if m.getLsbD 19 then img.arr.desc else work.arr.desc }
      q := { img.q with
        sq := if m.getLsbD 18 then img.q.sq else work.q.sq
        sow := work.q.sow, cursor := work.q.cursor } }

/-- The image that savebase names on a core, the last one written at its row, or its context's own (R276, R287).
[DEDUCED: log 66] -/
def State.imageFor (s : State) (c : Core) : Option Core :=
  let mine := s.images.find? fun d => d.lid == c.lid && d.index == c.index
  ((s.images.reverse.find? fun d => d.physNo == c.physNo && d.imageRow == c.phys.savebase.toNat).orElse fun _ => mine).map
    fun d => { d with lid := c.lid, index := c.index }

/-- The images of a launch take their place on its cores, with the code store's body; the arrays that a restore writes are
encoded anew (R276, R307). -/
def State.restored (la : Launch) (s : State) : State :=
  let s' := s.onLaunch la.id fun work =>
    let work : Core := { work with code := (s.codeOf (la.body work.index)).getD work.code }
    match s.imageFor work with
    | some img =>
      let img := img.readImage (s.ctx work) work.phys.hbm
      let work := if s.sysCode.isEmpty then { work with phys := { work.phys with savemask := everyGroup } } else work
      (restoreCore img work).writeArraysOf (inSpans (groupSpans img.imageLand work.phys.savemask))
    | none => work
  let s' := s'.onLaunch la.id fun c => { c with phys := { c.phys with savemask := (s.physOf c.physNo).savemask } }
  { s' with images := s'.images.filter fun c => c.lid != la.id }

/-- The image of a core is read back: its errors are logged, and the syndrome of its first uncorrectable unit is given
(R304, R306). [DEDUCED: log 67] -/
def Core.readBack (x : Ctx) (c : Core) : Core × Option Word :=
  let row := sysByte c.phys.savebase.toNat
  let us := ((groupSpans c.imageLand c.imageMask).flatMap fun p => c.phys.wrongIn 7 (row + p.1) (p.2 - p.1)).foldl
    (fun l u => insertNat u l) []
  ((c.readUnits x { cause := 0x0D } 7 us).1, (us.find? fun u => !c.phys.corrects 7 u).map (c.phys.syndrome 7))

/-- The code page of core `c` is translated for a restart; what ends the launch there is kept: the core, its cause and its
record's words (R280, R304). [DEDUCED: log 144] -/
def State.mapOnRestore (r : State × Option (Nat × Nat × Nat × Nat)) (c : Core) : State × Option (Nat × Nat × Nat × Nat) :=
  let u := r.1.readEntry c.physNo
  let w := u.1.translate c.physNo
  let f := match u.2 with
    | some e => some (c.index, 0x0D, 7, e.2.toNat)
    | none => if entryOk w.1 then none else some (c.index, 0x15, codePage c.phys, 0)
  (w.2, r.2.orElse fun _ => f)

/-- RESTORE_END: the last core has restored, and the restart cycle is fixed: the first field cycle at or after e + 256
with the phase of the stop (R276). An entry that does not map the code's page, or an image with an uncorrectable error,
ends the launch instead (R280, R304). -/
def execRestoreEnd (l : LaunchId) (s : State) : Host.Outcome State Fault Refusal :=
  match s.launch? l, s.part? l.part.toNat with
  | some la, some p =>
    match la.phase with
    | .restoring u =>
      if s.now < u || !s.resides la then .fault .noSuchEvent
      else
        let t := (s.coresOf l).foldl State.mapOnRestore (s, none)
        let read (c : Core) : Core × Option Word := c.readBack (s.ctx c)
        let bad := (s.coresOf l).findSome? fun c => (read c).2.map fun w => (c.index, 0x0D, 7, w.toNat)
        let s' := t.1.onLaunch l fun c => (read c).1
        match t.2.orElse fun _ => bad with
        | some f => .next ((s'.endAtRestart la f.1 f.2.1 f.2.2.1 f.2.2.2).schedule l.part.toNat)
        | none =>
          let e := s.now - p.base + 256
          let q := e + (la.stopField + 4096 - e % 4096) % 4096
          .next ((s'.restored la).setLaunch { la with phase := .restarting (p.base + q) })
    | _ => .fault .noSuchEvent
  | _, _ => .fault .noSuchEvent

/-- The banks whose rows a stop has closed, in ascending order, each with the cycle of its activate before q: bank p of n at
q − 64 − 4 (n − 1 − p) (R277). -/
def Chan.reopens (q : Nat) (h : Chan) : List (Nat × Nat) :=
  let bs := (List.range 30).filter fun k => (h.bank k).row.isSome
  (bs.zipIdx.filter fun b => (h.bank b.1).shut).map fun b => (b.1, q - 64 - 4 * (bs.length - 1 - b.2))

/-- RESTART_PREAMBLE: the rows recorded as open whose cycle has come are activated again; the commands are system traffic
and do not enter the timing model (R44, R277). -/
def execRestartPreamble (l : LaunchId) (s : State) : Host.Outcome State Fault Refusal :=
  match s.launch? l with
  | none => .fault .noSuchEvent
  | some la =>
    match la.phase with
    | .restarting q =>
      let due (c : Core) : List (Nat × Nat) := (c.chan.reopens q).filter fun b => b.2 ≤ s.now
      if (s.coresOf l).all fun c => (due c).isEmpty then .fault .noSuchEvent
      else .next (s.onLaunch l fun c =>
        { c with chan := (due c).foldl (fun h b => h.setBank b.1 fun y => { y with shut := false }) c.chan })
    | _ => .fault .noSuchEvent

/-! ## The restart cycle (R114, R271, R278) -/

/-- An instant moved by a restart. -/
def moved (d : Nat) (t : Option Nat) : Option Nat := t.map (· + d)

/-- A bank's recorded instants moved (R277). -/
def Bank.shift (d : Nat) (b : Bank) : Bank :=
  { b with act := moved d b.act, pre := moved d b.pre, rd := moved d b.rd, wr := moved d b.wr, refb := moved d b.refb,
           last := b.last + d, pages := b.pages.map fun p => (p.1, p.2 + d) }

/-- A channel model's recorded instants moved: they keep their distance from the stop (R229, R277). -/
def Chan.shift (d : Nat) (h : Chan) : Chan :=
  { banks := h.banks.map (Bank.shift d)
    acts := h.acts.map fun p => (p.1 + d, p.2)
    col := h.col.map (moved d)
    wr := h.wr.map (moved d)
    refb := h.refb.map fun p => (p.1 + d, p.2)
    ref := moved d h.ref }

/-- An operation's instants moved (R278); the counter addition of a dhget performs no sooner than in the cycle after the
restart (R221). -/
def Flight.shift (stop d : Nat) (f : Flight) : Flight :=
  { f with issue := f.issue + d, seqno := f.seqno + d, page := f.page + d
           after := match f.instr with | .dhget .. => stop + d + 1 | _ => f.after
           streams := f.streams.map fun t => { t with first := t.first + d } }

/-- A sequencer's instants moved (R66, R67). -/
def Seq.shift (d : Nat) (q : Seq) : Seq :=
  { q with issuedAt := moved d q.issuedAt, fend := moved d q.fend
           head := q.head.map fun h => { h with at_ := h.at_ + d }
           since := moved d q.since
           triedAt := moved d q.triedAt, mergeUntil := q.mergeUntil + d }

/-- Every instant of a context moved from a stop to its restart `d` cycles later (R114, R278). What was written during
the stop counts as written at it. -/
def Core.shift (stop d : Nat) (c : Core) : Core :=
  let mark (e : Nat × Nat) : Nat × Nat := (e.1, min e.2 stop + d)
  { c with
    seq := c.seq.shift d
    sp := { c.sp with wl := c.sp.wl.map mark, ws := c.sp.ws.map mark }
    chan := c.chan.shift d
    net := { c.net with notes := c.net.notes.map fun n => { n with last := n.last + d } }
    pends := c.pends.map fun p => { p with due := p.due + d, seqno := p.seqno + d }
    flights := c.flights.map (Flight.shift stop d) }

/-- A launch's instants moved. -/
def Launch.shift (d : Nat) (la : Launch) : Launch :=
  { la with origin := la.origin + d, next := moved d la.next, turned := moved d la.turned, ended := moved d la.ended }

/-- The additions held for a core while it was stopped (R271). -/
def heldFor (la : Launch) (i : Nat) : List (BitVec 6 × Word) := (la.held.filter fun h => h.1 == i).map (·.2)

/-- RESTART_CYCLE: at q every core resumes in the state it recorded, every effect keeps its offset, and the counter
additions held during the stop perform (R67, R114, R271, R276, R278). [DEDUCED: log 84] -/
def execRestartCycle (l : LaunchId) (s : State) : Host.Outcome State Fault Refusal :=
  match s.launch? l, s.part? l.part.toNat with
  | some la, some p =>
    match la.phase with
    | .restarting q =>
      if s.now != q || !((s.coresOf l).all fun c => (c.chan.reopens q).isEmpty) then .fault .noSuchEvent
      else
        let d := q - la.stop
        let s' := s.onLaunch l fun c =>
          let c := c.shift la.stop d
          { c with
            trap := none
            regs := (heldFor la c.index).foldl (fun r h => r.addN h.1 h.2) c.regs
            phys := { c.phys with sysMode := false, qcycle := BitVec.ofNat 64 (q - p.base) } }
        .next (s'.setLaunch { la.shift d with phase := .running, held := [] })
    | _ => .fault .noSuchEvent
  | _, _ => .fault .noSuchEvent

/-! ## Thermal requests (R308) -/

/-- A launch that a thermal request can still ask to yield: it runs, or is on its way to (R308). -/
def Launch.asked (la : Launch) : Bool :=
  match la.phase with
  | .saving _ => false
  | _ => la.occupies

/-- THERMAL_YIELD: every running launch is asked to yield at its next origin, for a full save, whatever it was asked before.
[DEDUCED: log 63] -/
def execThermalYield (s : State) : Host.Outcome State Fault Refusal :=
  .next { s with
    mgmt := { s.mgmt with hot := true }
    launches := s.launches.map fun y => if y.asked then { y with yield_ := some .thermal } else y }

/-- THERMAL_RECOVERY: the launches that yielded may start again. -/
def execThermalRecovery (s : State) : Host.Outcome State Fault Refusal :=
  let s' : State := { s with
    mgmt := { s.mgmt with hot := false }
    launches := s.launches.map fun y => if y.yield_ == some .thermal && y.phase == .queued then { y with yield_ := none } else y }
  .next s'.scheduleAll

end Sys2Proof.Machine
end

