-- ==== Sys2Proof/Machine/HostCmd.lean ====
section
/-!
DEFINITION. The management endpoint (R241, R242, R247, R259 to R261, R275, R284, R285, R293 to R303, R306, R307): the
order of commands, each command's effect and reports, bring-up, firmware and attestation.
-/

namespace Sys2Proof.Machine

/-! ## The order of commands (R293, R295, R296) -/

/-- The number of a command relative to X, modulo 2^48. -/
def aheadOf (x c : BitVec 48) : Nat := (c - x).toNat

/-- The 32 bytes of a command's header (R293). -/
def headerBytes (opcode : BitVec 16) (h : Hdr) : List Byte :=
  leBytes 2 opcode.toNat ++ leBytes 2 h.res0.toNat ++ leBytes 4 h.blen.toNat ++ leBytes 6 h.csn.toNat ++
  leBytes 2 h.res1.toNat ++ leBytes 8 h.tag.toNat ++ leBytes 8 h.res2.toNat

/-- The opcode and the header that a command's first 32 bytes hold (R293). -/
def readHeader (bs : List Byte) : BitVec 16 × Hdr :=
  let f (o n : Nat) : Nat := recField bs o n
  (BitVec.ofNat 16 (f 0 2),
   { res0 := BitVec.ofNat 16 (f 2 2), blen := BitVec.ofNat 32 (f 4 4), csn := BitVec.ofNat 48 (f 8 6)
     res1 := BitVec.ofNat 16 (f 0x0E 2), tag := BitVec.ofNat 64 (f 0x10 8), res2 := BitVec.ofNat 64 (f 0x18 8) })

/-- The opcodes of R295, with whether number 0 is allowed and whether the command runs before firmware does. -/
def opcodes : List (Nat × Bool × Bool) :=
  [(0x01, true, true), (0x02, true, true), (0x03, false, true)] ++
  [0x10, 0x11, 0x12, 0x13, 0x14, 0x15, 0x20, 0x21, 0x30, 0x31, 0x32, 0x33, 0x40, 0x41, 0x50, 0x51, 0x60, 0x70, 0x80, 0x81].map
    fun o => (o, false, false)

/-- The length of a command's body, where the specification gives one: a state report has none, a firmware image is its
header and its body, a launch its record (R243, R295, R299). [DEDUCED: log 58] -/
def bodyLength (i : Instr) : Option Nat :=
  match i with
  | .stateReport _ => some 0
  | .deliverFirmwareImage _ f => some (ceilTo (256 + f.body.length) 8)
  | .launch _ _ => some 256
  | _ => none

/-- The command's opcode is one of the table's (R295). -/
def listed (i : Instr) : Bool :=
  match i with
  | .undefinedCommand _ o _ => opcodes.any fun p => p.1 == o.toNat
  | _ => true

/-- The first failing field of a command's header: an opcode that is not listed, reserved fields, the body's length, and a
number 0 where it is not allowed (R293 to R295). -/
def headerFault (i : Instr) (h : Hdr) (zeroOk : Bool) : Option Nat :=
  firstCode [(!listed i, 0x00), (h.res0 != 0, 0x02),
    (65536 < h.blen.toNat || h.blen.toNat % 8 != 0 || (bodyLength i).any fun n => h.blen.toNat != n, 0x04),
    (h.csn == 0 && !zeroOk, 0x08), (h.res1 != 0, 0x0E), (h.res2 != 0, 0x18)]

/-- A rejected report (R294). -/
def State.reject (h : Hdr) (status : Nat) (s : State) : State := s.report 2 status h.tag 0 []

/-- An accepted report. -/
def State.accept (h : Hdr) (body : List Byte) (s : State) : State := s.report 1 0 h.tag 0 body

/-- A data report. -/
def State.dataReport (h : Hdr) (body : List Byte) (s : State) : State := s.report 3 0 h.tag 0 body

/-- The management controller's function `b` of readiness word 0 is ready, and so usable: the endpoint, the firmware, the
security engine (R298). -/
def Mgmt.usable (m : Mgmt) (b : Nat) : Bool := m.ready[0].getLsbD b

/-- A command executed: rejected before firmware runs where R295 says so, or for its header, and else its body (R298). -/
def State.execute (i : Instr) (h : Hdr) (early zeroOk : Bool) (body : State → State) (s : State) : State :=
  if !s.mgmt.usable 1 && !early then s.reject h 0
  else match headerFault i h zeroOk with
    | some o => s.reject h o
    | none => body s

/-- A command's arrival, or the turn of a held one: executed in number order, held, or answered as a duplicate or out
of window; number 0 is executed on arrival. A module without its management endpoint hears no command (R296, R298).
[DEDUCED: log 69, 146] -/
def command (i : Instr) (h : Hdr) (early zeroOk : Bool) (body : State → State) (s : State) :
    Host.Outcome State Fault Refusal :=
  let m := s.mgmt
  let n := aheadOf m.x h.csn
  if !m.usable 0 then .next s
  else if h.csn = 0 then .next (s.execute i h early zeroOk body)
  else if n = 1 then
    .next (({ s with mgmt := { m with x := h.csn, held := m.held.filter fun p => p.1 != h.csn } }).execute i h early zeroOk body)
  else if 2 ≤ n && n ≤ 65 then
    if m.held.any fun p => p.1 == h.csn then .next (s.report 6 0 h.tag 0 [])
    else .next { s with mgmt := { m with held := m.held ++ [(h.csn, i)] } }
  else if n = 0 || 2 ^ 47 ≤ n then .next (s.report 6 0 h.tag 0 [])
  else .next (s.report 7 0 h.tag 0 [])

/-- The first byte of a command's body: the failing field of a body whose layout the specification does not give.
[DEDUCED: log 58] -/
def bodyField : Nat := 0x20

/-- A command on a partition. -/
def State.withPart (h : Hdr) (part : BitVec 8) (f : Partition → State → State) (s : State) : State :=
  match s.part? part.toNat with
  | none => s.reject h bodyField
  | some p => f p s

/-- A command on a launch. -/
def State.withLaunch (h : Hdr) (l : LaunchId) (f : Launch → State → State) (s : State) : State :=
  match s.launch? l with
  | none => s.reject h bodyField
  | some la => f la s

/-! ## Reports about reports (R297) -/

/-- The held map: bit i is X + 2 + i (R297). -/
def heldMap (m : Mgmt) : Nat :=
  ((List.range 64).filter fun i => m.held.any fun p => p.1 == m.x + BitVec.ofNat 48 (i + 2)).foldl (fun v i => v + 2 ^ i) 0

/-- The oldest number kept once a report of number `last` is. -/
def oldestKept (m : Mgmt) (last : BitVec 48) : BitVec 48 := ((m.kept.take 1023).getLast?).elim last fun r => r.rsn

/-- The 144 bytes of a state report (R297). -/
def stateBody (m : Mgmt) : List Byte :=
  let last := m.rsn + 1
  leBytes 8 last.toNat ++ leBytes 8 (oldestKept m last).toNat ++ leBytes 8 m.x.toNat ++ leBytes 8 (heldMap m) ++
  (m.ready.toList.flatMap fun w => leBytes 8 w.toNat) ++ (List.range 64).map fun i => m.idKey.getD i 0

/-- STATE_REPORT (R297). [DEDUCED: log 31] -/
def execStateReport (h : Hdr) :=
  command (.stateReport h) h true true fun s => s.report 9 0 h.tag 0 (stateBody s.mgmt)

/-- One number of a resend: the kept report as it stands, or a gone report that names the number. [DEDUCED: log 139] -/
def State.resend (h : Hdr) (kept : List Report) (s : State) (n : Nat) : State :=
  match kept.find? fun r => r.rsn.toNat == n with
  | some r => { s with sent := r :: s.sent }
  | none => s.report 8 0 h.tag 0 (leBytes 8 n)

/-- RESEND_REPORTS: the range in ascending numbers (R297). [DEDUCED: log 31] -/
def execResendReports (h : Hdr) (first last : BitVec 48) :=
  command (.resendReports h first last) h true true fun s =>
    ((List.range (last.toNat + 1 - first.toNat)).map (· + first.toNat)).foldl (State.resend h s.mgmt.kept) s

/-! ## Firmware (R299 to R302) -/

/-- The bytes 0x00 to 0x0B of an image's header, then its body: what its digest covers (R300). -/
def imageText (f : FirmwareImage) : List Byte :=
  leBytes 4 f.version.toNat ++ leBytes 4 f.svn.toNat ++ leBytes 4 f.length.toNat ++ f.body

/-- The first failing field of an image: the checks of R300, and a length other than the body's. [DEDUCED: log 70] -/
def imageFault (m : Mgmt) (f : FirmwareImage) : Option Nat :=
  firstCode [(f.svn.toNat < m.fusedSvn || 255 < f.svn.toNat, 0x04), (f.length.toNat != f.body.length, 0x08),
    (f.pubkey != m.fusedKey, 0x0C), (!Config.sm2Verify f.pubkey f.sig (Config.sm3 (imageText f)), 0x2C)]

/-- Firmware that passed runs: the minimum svn fuse rises, the measurement is taken, and its system code is loaded
(R288, R300, R302). [DESIGN CHOICE: log 12] -/
def State.runImage (f : FirmwareImage) (s : State) : State :=
  let m0 := Config.sm3 Config.bootVersion
  { s with
    sysCode := (Config.systemCode f.body).take 4096
    mgmt := { s.mgmt with fw := true, running := some f, fusedSvn := max s.mgmt.fusedSvn f.svn.toNat,
                          m1 := Config.sm3 (m0 ++ Config.sm3 (imageText f)) } }

/-- DELIVER_FIRMWARE_IMAGE: an image that passes is written over the flash image, and run at once where none runs
(R301). -/
def execDeliverFirmwareImage (h : Hdr) (img : FirmwareImage) :=
  command (.deliverFirmwareImage h img) h true false fun s =>
    match imageFault s.mgmt img with
    | some o => s.reject h (bodyField + o)
    | none =>
      let s : State := { s with mgmt := { s.mgmt with flash := some img } }
      (if s.mgmt.fw then s else s.runImage img).accept h []

/-! ## Partitions (R18, R241, R242, R247, R284) -/

/-- The plots of a partition (R17). -/
def plotsOf (px py pw ph : Nat) : List Nat := (List.range (pw * ph)).map fun i => 8 * (py + i / pw) + px + i % pw

/-- A legal partition rectangle (R18). -/
def rectLegal (px py pw ph : Nat) : Bool :=
  [1, 2, 4, 8].contains pw && [1, 2, 4, 8].contains ph && px % pw == 0 && py % ph == 0 && px + pw ≤ 8 && py + ph ≤ 8

/-- Two plot rectangles share no plot. -/
def rectApart (p q : Partition) : Bool :=
  decide (p.px + p.pw ≤ q.px ∨ q.px + q.pw ≤ p.px ∨ p.py + p.ph ≤ q.py ∨ q.py + q.ph ≤ p.py)

/-- A plot and its channel group are ready (R241, R298). -/
def plotReady (m : Mgmt) (q : Nat) : Bool := m.ready[1].getLsbD q && m.ready[2].getLsbD q

/-- CREATE_PARTITION: on plots that are ready and belong to no partition (R18, R241). Its field count begins at 0.
[DEDUCED: log 52; DESIGN CHOICE: log 125] -/
def execCreatePartition (h : Hdr) (number px py pw ph : BitVec 8) (class0 : Bool) :=
  command (.createPartition h number px py pw ph class0) h false false fun s =>
    let p : Partition := { number := number.toNat, px := px.toNat, py := py.toNat, pw := pw.toNat, ph := ph.toNat,
                           class0 := class0, base := s.now }
    if 63 < p.number || (s.part? p.number).isSome || !rectLegal p.px p.py p.pw p.ph ||
        !((plotsOf p.px p.py p.pw p.ph).all (plotReady s.mgmt)) || !(s.parts.all (rectApart p)) then s.reject h bodyField
    else ({ s with parts := s.parts ++ [p] }).accept h []

/-- Every context of a partition leaves the state. -/
def State.dropPart (p : Partition) (s : State) : State :=
  let s := (s.launches.filter fun y => y.id.part.toNat == p.number).foldl (fun s y => s.drop y.id) s
  { s with
    launches := s.launches.filter fun y => y.id.part.toNat != p.number
    parts := s.parts.filter fun q => q.number != p.number
    placed := s.placed.filter fun b => !p.owns b.1.at_
    resident := s.resident.filter fun b => !p.owns b.1.at_ }

/-- DESTROY_PARTITION: a partition that holds no queued, running or stopped launch (R241, R327). -/
def execDestroyPartition (h : Hdr) (number : BitVec 8) :=
  command (.destroyPartition h number) h false false fun s =>
    s.withPart h number fun p s =>
      if s.launches.any fun y => y.id.part == number && y.holds then s.reject h bodyField else (s.dropPart p).accept h []

/-- WRITE_PARTITION_SEED_REGISTER: for launches accepted later (R247). -/
def execWritePartitionSeedRegister (h : Hdr) (part : BitVec 8) (seed : BitVec 64) :=
  command (.writePartitionSeedRegister h part seed) h false false fun s =>
    s.withPart h part fun p s => (s.setPart { p with seed := seed }).accept h []

/-- ADD_TO_PARTITION_COUNTER: a saturating addition, which can make launches ready (R242, R252). -/
def execAddToPartitionCounter (h : Hdr) (part counter : BitVec 8) (amount : BitVec 64) :=
  command (.addToPartitionCounter h part counter amount) h false false fun s =>
    s.withPart h part fun p s =>
      let k := counter.toNat
      let p' := { p with counters := assign k (satAdd (look 0 p.counters k) amount) p.counters }
      ((s.setPart p').accept h []).schedule p.number

/-- ADD_TO_CONTEXT_COUNTER: the addition performs at no fixed instant, here as the command is executed; to a context
that is stopped it is held for the restart cycle (R36, R58, R271). [DEDUCED: log 27] -/
def execAddToContextCounter (h : Hdr) (l : LaunchId) (core : Nat) (n : BitVec 6) (amount : BitVec 64) :=
  command (.addToContextCounter h l core n amount) h false false fun s =>
    s.withLaunch h l fun la s =>
      if la.w * la.h ≤ core || la.phase == .terminated || la.fresh then s.reject h bodyField
      else (s.countOrHold l core n amount).accept h []

/-- WRITE_PARTITION_WINDOW_ENTRY: for contexts created later (R282, R284). -/
def execWritePartitionWindowEntry (h : Hdr) (part : BitVec 8) (w : BitVec 6) (w0 w1 w2 w3 : BitVec 64) :=
  command (.writePartitionWindowEntry h part w w0 w1 w2 w3) h false false fun s =>
    s.withPart h part fun p s =>
      if ([w0, w1, w2, w3].zipIdx.any fun v => !windowWordLegal v.2 v.1) then s.reject h bodyField
      else
        let t := [w0, w1, w2, w3].zipIdx.foldl (fun t v => assign (4 * w.toNat + v.2) v.1 t) p.windows
        (s.setPart { p with windows := t }).accept h []

/-! ## Sheaves (R248, R250, R302) -/

/-- The bytes of a partition's sheaf area: 8 MiB on every home channel. -/
def sheafArea (p : Partition) : Nat := 8 * p.pw * p.ph * 8388608

/-- The bytes that registered sheaves take, in rows of 1 KiB. [DEDUCED: log 51] -/
def sheafUse (l : List Sheaf) : Nat := (l.map fun h => ceilTo h.bytes.length 1024).sum

/-- LOAD_CODE: the sheaf read from its container, the loader's checks, registration, its bytes written into the sheaf area,
and the partition's measurement (R248, R250, R302). [DEDUCED: log 49, 50, 140] -/
def execLoadCode (h : Hdr) (part : BitVec 8) (sheaf : Sheaf) :=
  command (.loadCode h part sheaf) h false false fun s =>
    s.withPart h part fun p s =>
      if (p.sheaves.any fun x => x.id == sheaf.id) || sheafArea p < sheafUse (sheaf :: p.sheaves) || sheafRefused sheaf then
        s.reject h bodyField
      else
        let rows := p.rowsFor sheaf.bytes.length
        ((s.writeArea p rows sheaf.bytes).setPart { p with
          sheaves := p.sheaves ++ [loadedSheaf sheaf], area := p.area ++ [(sheaf.id, rows)]
          pm := Config.sm3 (p.pm ++ Config.sm3 sheaf.bytes) }).accept h []

/-- UNREGISTER_SHEAF: named by no queued, running or stopped launch (R248, R327). [DESIGN CHOICE: log 53] -/
def execUnregisterSheaf (h : Hdr) (part : BitVec 8) (sheaf : BitVec 64) :=
  command (.unregisterSheaf h part sheaf) h false false fun s =>
    s.withPart h part fun p s =>
      if !(p.sheaves.any fun x => x.id == sheaf) || (s.launches.any fun y => y.id.part == part && y.sheaf == sheaf && y.holds) then
        s.reject h bodyField
      else
        let gone (b : Body) : Bool := p.owns b.at_ && b.sheaf == sheaf
        let s' := s.setPart { p with
          sheaves := p.sheaves.filter fun x => x.id != sheaf, area := p.area.filter fun x => x.1 != sheaf }
        ({ s' with placed := s'.placed.filter fun b => !gone b.1, resident := s'.resident.filter fun b => !gone b.1 }).accept h []

/-! ## Launches (R244, R251, R259, R275) -/

/-- LAUNCH: the record's checks name the first failing field; a record that passes takes the next acceptance number,
its seed is captured, its code is placed where it is not yet, and the scheduler decides (R244, R247, R248, R252).
[PRESUMED: log 57] -/
def execLaunch (h : Hdr) (rec : List Byte) :=
  command (.launch h rec) h false false fun s =>
    if rec.length != 256 then s.reject h 0x04
    else match recordFault s rec, s.part? (recField rec 3 1) with
      | some o, _ => s.reject h (bodyField + o)
      | none, none => s.reject h (bodyField + 3)
      | none, some p =>
        let la := launchOf p p.nextAcc rec
        let la := { la with fills := s.fillsOf la }
        let s := ({ s with launches := s.launches ++ [la] }).setPart { p with nextAcc := p.nextAcc + 1, early := [] }
        (s.accept h (leBytes 8 (launchWord la.id))).schedule p.number

/-- A launch leaves the state with its contexts; what was saved to make room for it is restored (R251, R257, R259). -/
def State.remove (l : LaunchId) (s : State) : State :=
  let s := (s.drop l).restoreFootprints l
  { s with launches := s.launches.filter fun y => y.id != l }

/-- CANCEL_QUEUED_LAUNCH (R251). [DEDUCED: log 59] -/
def execCancelQueuedLaunch (h : Hdr) (l : LaunchId) :=
  command (.cancelQueuedLaunch h l) h false false fun s =>
    s.withLaunch h l fun la s =>
      if la.phase != .queued then s.reject h bodyField else (s.remove l).accept h []

/-- RESUME_LAUNCH: a stopped launch resumes on an aligned rectangle of its shape in its partition whose cores are idle
(R275, R276). -/
def execResumeLaunch (h : Hdr) (l : LaunchId) (x0 y0 : BitVec 8) :=
  command (.resumeLaunch h l x0 y0) h false false fun s =>
    s.withLaunch h l fun la s =>
      s.withPart h l.part fun p s =>
        let la := { la with x0 := x0.toNat, y0 := y0.toNat }
        let ok := rectInside p la.w la.h la.x0 la.y0
        if la.phase != .stopped || !ok.1 || !ok.2 || !(s.onRect la).isEmpty then s.reject h bodyField
        else ((s.setLaunch la).restart { la with fills := s.fillsOf la }).accept h []

/-- RELEASE_CONTEXT: of a completed, terminated or stopped launch (R259, R327). -/
def execReleaseContext (h : Hdr) (l : LaunchId) :=
  command (.releaseContext h l) h false false fun s =>
    s.withLaunch h l fun la s =>
      if la.holds && la.phase != .stopped then s.reject h bodyField else (s.remove l).accept h []

/-! ## State reads and writes (R259, R268, R285, R295) -/

/-- The context that a state read or write names: a completed launch's on its core, or the image of one that is
stopped, terminated, or pre-empted into its queue. -/
def State.contextOf (s : State) (la : Launch) (core : Nat) : Option Core :=
  match la.phase with
  | .completed => s.cores.find? fun c => c.lid == la.id && c.index == core
  | .stopped | .terminated | .queued => s.images.find? fun c => c.lid == la.id && c.index == core
  | _ => none

/-- What a state read of `n` bytes from offset `off` of a context's image reads: errors are logged, and the bytes that
cannot be corrected are given (R268, R295, R304). [DEDUCED: log 130] -/
def State.readContext (s : State) (la : Launch) (c : Core) (off n : Nat) : State × List Nat :=
  let mine (o : Nat) : Bool := off ≤ o && o < off + n
  if la.phase == .completed then
    (s.mapCores (fun d => d.lid == c.lid && d.index == c.index) (Core.readArraysOf (s.ctx c) mine), c.lostOffsets.filter mine)
  else
    let row := sysByte c.imageRow
    ((s.readHbm c.physNo (row + off) n).1,
     ((s.physOf c.physNo).lost 7 (row + off) n).flatMap fun e => (List.range 32).map (8 * e.1 / 32 * 32 - row + ·))

/-- Byte `o` of a context's image: of its rows in the system banks where one stands, else of the context itself; the
device's own bytes, and those that cannot be corrected, are free values (R268, R272, R304). [DESIGN CHOICE: log 13] -/
def State.readByte (s : State) (la : Launch) (c : Core) (lost : List Nat) (o : Nat) : Byte :=
  let x := s.ctx c
  if lost.contains o then Config.pipelineByte s.free o
  else if la.phase == .completed then c.imageByte x s.free o
  else match c.givenByte x o with
    | some _ => (s.physOf c.physNo).hbm.get 0 (sysByte c.imageRow + o)
    | none => Config.pipelineByte s.free o

/-- A queued launch that has not started. [DEDUCED: log 136] -/
def Launch.waits (la : Launch) : Bool := la.phase == .queued && la.fresh

/-- A watchpoint word without a reserved bit (R285). -/
def watchWordOk (r : Nat) (v : Word) : Bool := v &&& ~~~(if r % 2 = 0 then 0x3FFFF0#64 else 0xFFFF003F#64) == 0

/-- STATE_READ (R259, R268, R295). -/
def execStateRead (h : Hdr) (l : LaunchId) (sel : StateSel) :=
  command (.stateRead h l sel) h false false fun s =>
    s.withLaunch h l fun la s =>
      match sel with
      | .watch core r =>
        if la.waits && core < la.w * la.h then s.dataReport h (leBytes 8 (look 0 la.wp (8 * core + r.toNat)).toNat)
        else s.reject h bodyField
      | .image core off len =>
        match s.contextOf la core with
        | none => s.reject h bodyField
        | some c =>
          if 7340032 < off + len then s.reject h bodyField
          else
            let r := s.readContext la c off len
            ({ r.1 with free := s.free + 1 }).dataReport h ((List.range len).map fun i => s.readByte la c r.2 (off + i))

/-- The context named, replaced. -/
def State.setContext (c : Core) (s : State) : State :=
  { s with
    cores := s.cores.map fun d => if d.lid == c.lid && d.index == c.index then c else d
    images := s.images.map fun d => if d.lid == c.lid && d.index == c.index then c else d }

/-- Bytes of a context written from offset `off` of its image: to the rows in the system banks where one stands, from which
a restore reads them, else to the context itself; the device's own bytes stay (R272, R295, R307).
[DESIGN CHOICE: log 13] -/
def State.writeBytes (s : State) (la : Launch) (c : Core) (off : Nat) (bs : List Byte) : State :=
  let x := s.ctx c
  let given (o : Nat) : Bool := off ≤ o && o < off + bs.length && (c.givenByte x o).isSome
  if la.phase == .completed then
    s.setContext ((bs.zipIdx.foldl (fun c b => c.putImage x (off + b.2) b.1) c).writeArraysOf given)
  else
    s.onPhys c.physNo (Core.putHbm ((bs.zipIdx.filter fun b => given (off + b.2)).map fun b =>
      (sysByte c.imageRow + off + b.2, 0xFF, b.1)))

/-- A watchpoint word for a launch that is not accepted yet: it is held for the launch that its partition accepts next
(R285, R289). [DEDUCED: log 136] -/
def State.writeEarly (h : Hdr) (l : LaunchId) (core : Nat) (r : BitVec 3) (v : Word) (s : State) : State :=
  match s.part? l.part.toNat with
  | some p =>
    if l.acc != p.nextAcc || 512 ≤ core then s.reject h bodyField
    else (s.setPart { p with early := assign (8 * core + r.toNat) v p.early }).accept h []
  | none => s.reject h bodyField

/-- STATE_WRITE: a watchpoint word of a core of a launch that is queued or accepted next, or as many bytes of a context image
as it says (R285, R289, R295). [DEDUCED: log 136] -/
def execStateWrite (h : Hdr) (l : LaunchId) (sel : StateSel) (bs : List Byte) :=
  command (.stateWrite h l sel bs) h false false fun s =>
    match sel with
    | .watch core r =>
      let v : Word := BitVec.ofNat 64 (leNat bs)
      if bs.length != 8 || !watchWordOk r.toNat v then s.reject h bodyField
      else match s.launch? l with
        | none => s.writeEarly h l core r v
        | some la =>
          if !la.waits || la.w * la.h ≤ core then s.reject h bodyField
          else (s.setLaunch { la with wp := assign (8 * core + r.toNat) v la.wp }).accept h []
    | .image core off len =>
      s.withLaunch h l fun la s =>
        match s.contextOf la core with
        | none => s.reject h bodyField
        | some c =>
          if 7340032 < off + len || bs.length != len then s.reject h bodyField
          else (s.writeBytes la c off bs).accept h []

/-! ## The survey table, process groups (R260, R261) -/

/-- READ_SURVEY_TABLE: the entries in index order, idle then busy (R260). -/
def execReadSurveyTable (h : Hdr) (part : BitVec 8) :=
  command (.readSurveyTable h part) h false false fun s =>
    s.withPart h part fun p s =>
      s.dataReport h ((List.range (p.pw * p.ph * 2048)).flatMap fun i =>
        let e := look (0#32, 0#32) p.survey i
        leBytes 4 e.1.toNat ++ leBytes 4 e.2.toNat)

/-- CLEAR_SURVEY_TABLE (R260). -/
def execClearSurveyTable (h : Hdr) (part : BitVec 8) :=
  command (.clearSurveyTable h part) h false false fun s =>
    s.withPart h part fun p s => (s.setPart { p with survey := [] }).accept h []

/-- WRITE_PROCESS_GROUP_ENTRY: 1 to 1,024 members of one shape (R20, R261). -/
def execWriteProcessGroupEntry (h : Hdr) (part : BitVec 8) (g : BitVec 4) (w h' : BitVec 8) (members : List Member) :=
  command (.writeProcessGroupEntry h part g w h' members) h false false fun s =>
    s.withPart h part fun p s =>
      if members.isEmpty || 1024 < members.length ||
          !([1, 2, 4, 8, 16, 32].contains w.toNat) || !([1, 2, 4, 8, 16].contains h'.toNat) then
        s.reject h bodyField
      else
        let e : Group := { w := w.toNat, h := h'.toNat, members := members }
        (s.setPart { p with groups := assign g.toNat e p.groups }).accept h []

/-! ## Attestation and error logs (R302, R303, R306, R307) -/

/-- ATTEST: a nonce of 32 bytes, measurements, svn and partition, signed by the security engine, which must be ready (R298,
R303). [DEDUCED: log 69] -/
def execAttest (h : Hdr) (nonce : List Byte) (part : BitVec 8) :=
  command (.attest h nonce part) h false false fun s =>
    if !s.mgmt.usable 2 then s.reject h 0
    else if nonce.length != 32 then s.reject h bodyField
    else s.withPart h part fun p s =>
      let field (n : Nat) (l : List Byte) : List Byte := (List.range n).map fun i => l.getD i 0
      let text := field 32 nonce ++ field 32 s.mgmt.m1 ++ field 32 p.pm ++
        leBytes 1 (s.mgmt.running.elim 0 fun f => f.svn.toNat) ++ [part] ++ field 30 []
      ({ s with free := s.free + 1 }).dataReport h (text ++ field 64 (Config.sm2Sign (Config.sm3 text) s.free))

/-- The physical core that a log command names. -/
def coreNo (x : BitVec 5) (y : BitVec 4) : Nat := 32 * y.toNat + x.toNat

/-- READ_ERROR_LOGS: the registers of each array: k = 0 to 4, then the injection register and its address (R306,
R307). [DEDUCED: log 128] -/
def execReadErrorLogs (h : Hdr) (x : BitVec 5) (y : BitVec 4) :=
  command (.readErrorLogs h x y) h false false fun s =>
    s.dataReport h ((s.physOf (coreNo x y)).errs.toList.flatMap fun e =>
      [0, 1, 2, 3, 4, 8, 9].flatMap fun k => leBytes 8 (e.read k).toNat)

/-- A log cleared as writing 1 to valid and over does; rep and the injection stand (R306). [DEDUCED: log 35] -/
def ErrLog.cleared (e : ErrLog) : ErrLog :=
  { e with ce := 0, ue := 0, valid := false, unc := false, missed := false, addr := 0, syn := 0, ctx := 0, cyc := 0,
           at_ := 0 }

/-- CLEAR_ERROR_LOGS (R306, R307). -/
def execClearErrorLogs (h : Hdr) (x : BitVec 5) (y : BitVec 4) :=
  command (.clearErrorLogs h x y) h false false fun s =>
    let p := s.physOf (coreNo x y)
    (s.setPhys (coreNo x y) { p with errs := p.errs.map ErrLog.cleared }).accept h []

/-- UNDEFINED_COMMAND: an opcode that is not listed, the first field of its command, or a body that does not match its
opcode, which fails at the field `bad` after the header's (R294, R295). -/
def execUndefinedCommand (h : Hdr) (opcode bad : BitVec 16) :=
  let o := ((opcodes.find? fun o => o.1 == opcode.toNat).map (·.2)).getD (true, true)
  command (.undefinedCommand h opcode bad) h o.2 o.1 fun s => s.reject h bad.toNat

/-! ## Bring-up (R298, R300, R301) -/

/-- The readiness words and bit of a function, ready and failed (R298). -/
def readyBit (f : Fn) : Nat × Nat :=
  match f with
  | .mgmt => (0, 0)
  | .fw => (0, 1)
  | .sec => (0, 2)
  | .port p => (0, 3 + p.toNat)
  | .die d => (0, 11 + d.toNat)
  | .plot q => (1, q.toNat)
  | .chgrp q => (2, q.toNat)

/-- Bit `b` of readiness word `w`. -/
def readyAt (m : Mgmt) (w b : Nat) : Bool := if h : w < 6 then m.ready[w].getLsbD b else false

/-- The readiness map with a bit set. -/
def setReady (w b : Nat) (m : Mgmt) : Mgmt :=
  if h : w < 6 then { m with ready := m.ready.set w (m.ready[w] ||| (1#64 <<< b)) } else m

/-- A function that may come up now: a plot after its die, and beyond the management endpoint only once firmware runs
(R298, R300). -/
def mayReady (m : Mgmt) (f : Fn) : Bool :=
  m.powered && match f with
  | .mgmt => true
  | .plot q => m.fw && readyAt m 0 (11 + (2 * (q.toNat / 8 / 4) + q.toNat % 8 / 4))
  | _ => m.fw

/-- FUNCTION_READY: a function's self-test ends, and its ready or failed bit is set; bits only change from 0 to 1, and a
failed function never becomes ready (R298). -/
def execFunctionReady (f : Fn) (ok : Bool) (s : State) : Host.Outcome State Fault Refusal :=
  let b := readyBit f
  if !s.mgmt.powered || readyAt s.mgmt b.1 b.2 || readyAt s.mgmt (b.1 + 3) b.2 || (ok && !mayReady s.mgmt f) then
    .fault .noSuchEvent
  else .next { s with mgmt := setReady (if ok then b.1 else b.1 + 3) b.2 s.mgmt }

/-- POWER_UP: the boot ROM runs the flash image where it passes, and X and report numbering begin anew (R296, R300).
[DEDUCED: log 138] -/
def execPowerUp (s : State) : Host.Outcome State Fault Refusal :=
  if s.mgmt.powered then .fault .noSuchEvent
  else
    let s : State := { s with mgmt := { s.mgmt with powered := true, x := 0, held := [], rsn := 0, kept := [] } }
    .next (match s.mgmt.flash with
      | none => s
      | some f => if (imageFault s.mgmt f).isNone then s.runImage f else s)

/-- MANAGEMENT_RESET: X is 0 and report numbering starts at 1 again (R296, R297). [DEDUCED: log 138] -/
def execManagementReset (s : State) : Host.Outcome State Fault Refusal :=
  .next { s with mgmt := { s.mgmt with x := 0, held := [], rsn := 0, kept := [] } }

/-- POWER_LOSS: all activity ends; flash and fuses stay, but a firmware write that is interrupted leaves an image that
fails at the next power-up (R299, R301). [DEDUCED: log 68] -/
def execPowerLoss (interrupted : Bool) (s : State) : Host.Outcome State Fault Refusal :=
  .next { State.reset with
    now := s.now, sent := s.sent, host := s.host, free := s.free
    mgmt := { fusedKey := s.mgmt.fusedKey, fusedSvn := s.mgmt.fusedSvn, idKey := s.mgmt.idKey
              flash := if interrupted then none else s.mgmt.flash } }

end Sys2Proof.Machine
end

