-- ==== Sys2Proof/Machine/Scalar.lean ====
section
/-!
DEFINITION. Register arithmetic, immediates, constants, selects, conditions and counters of class S (R138 to R143,
R149, R150). Every source is read at issue; a result performs at issue plus its latency (R11).
-/

namespace Sys2Proof.Machine

/-- gd := v at issue + n. -/
def scalarOp (i : Instr) (n : Nat) (d : BitVec 6) (v : Regs → Word) : State → Host.Outcome State Fault Refusal :=
  issueSyl i fun x c => c.laterS x n (.g d (v c.regs))

/-- divide(a, b) of R139: quotient and remainder; `n` reads the operands as naturals. -/
def divide (n : Bool) (a b : Word) : Word × Word :=
  if b = 0 then (BitVec.allOnes 64, a)
  else if n then (a / b, a % b)
  else (a.sdiv b, a.srem b)

/-- a + b modulo 2^64. -/
def execSadd (d a b : BitVec 6) := scalarOp (.sadd d a b) 1 d fun r => r.readG a + r.readG b
/-- a − b modulo 2^64. -/
def execSsub (d a b : BitVec 6) := scalarOp (.ssub d a b) 1 d fun r => r.readG a - r.readG b
/-- a and b. -/
def execSand (d a b : BitVec 6) := scalarOp (.sand d a b) 1 d fun r => r.readG a &&& r.readG b
/-- a or b. -/
def execSor (d a b : BitVec 6) := scalarOp (.sor d a b) 1 d fun r => r.readG a ||| r.readG b
/-- a xor b. -/
def execSxor (d a b : BitVec 6) := scalarOp (.sxor d a b) 1 d fun r => r.readG a ^^^ r.readG b
/-- a << (b and 63). -/
def execSshl (d a b : BitVec 6) := scalarOp (.sshl d a b) 1 d fun r => r.readG a <<< ((r.readG b).toNat % 64)
/-- a >> (b and 63), zeros shifted in. -/
def execSshr (d a b : BitVec 6) := scalarOp (.sshr d a b) 1 d fun r => r.readG a >>> ((r.readG b).toNat % 64)
/-- a >> (b and 63), copies of bit 63 shifted in. -/
def execSsra (d a b : BitVec 6) := scalarOp (.ssra d a b) 1 d fun r => (r.readG a).sshiftRight ((r.readG b).toNat % 64)
/-- Bits 63:0 of the product, after 3 cycles. -/
def execSmul (d a b : BitVec 6) := scalarOp (.smul d a b) 3 d fun r => r.readG a * r.readG b

/-- Bits 127:64 of the product, signed or natural (R139). -/
def mulHigh (n : Bool) (a b : Word) : Word :=
  if n then BitVec.ofNat 64 (a.toNat * b.toNat / 2 ^ 64) else BitVec.ofInt 64 (a.toInt * b.toInt / 2 ^ 64)

/-- The high half of the product, after 4 cycles. -/
def execSmulh (d a b : BitVec 6) (n : BitVec 1) :=
  scalarOp (.smulh d a b n) 4 d fun r => mulHigh (n == 1) (r.readG a) (r.readG b)
/-- The quotient, after 18 cycles. -/
def execSdiv (d a b : BitVec 6) (n : BitVec 1) :=
  scalarOp (.sdiv d a b n) 18 d fun r => (divide (n == 1) (r.readG a) (r.readG b)).1
/-- The remainder, after 18 cycles. -/
def execSrem (d a b : BitVec 6) (n : BitVec 1) :=
  scalarOp (.srem d a b n) 18 d fun r => (divide (n == 1) (r.readG a) (r.readG b)).2

/-- a < b, as naturals when `n` (R139). -/
def wordLt (n : Bool) (a b : Word) : Bool := if n then decide (a.toNat < b.toNat) else decide (a.toInt < b.toInt)

/-- The lesser. -/
def execSmin (d a b : BitVec 6) (n : BitVec 1) :=
  scalarOp (.smin d a b n) 1 d fun r => if wordLt (n == 1) (r.readG b) (r.readG a) then r.readG b else r.readG a
/-- The greater. -/
def execSmax (d a b : BitVec 6) (n : BitVec 1) :=
  scalarOp (.smax d a b n) 1 d fun r => if wordLt (n == 1) (r.readG a) (r.readG b) then r.readG b else r.readG a

/-- The number of leading zero bits among the low `n` bits. -/
def leadingZeros (a : Word) : Nat → Nat
  | 0 => 0
  | n + 1 => if a.getLsbD n then 0 else 1 + leadingZeros a n

/-- Leading zeros, 0 to 64. -/
def execSclz (d a : BitVec 6) := scalarOp (.sclz d a) 1 d fun r => BitVec.ofNat 64 (leadingZeros (r.readG a) 64)
/-- The number of ones. -/
def execSpop (d a : BitVec 6) := scalarOp (.spop d a) 1 d fun r => BitVec.ofNat 64 (ones (r.readG a).toNat)

/-- a + imm. -/
def execSaddi (d a : BitVec 6) (i : BitVec 10) (l : Option (BitVec 9)) :=
  scalarOp (.saddi d a i l) 1 d fun r => r.readG a + imm19 i l
/-- a and imm. -/
def execSandi (d a : BitVec 6) (i : BitVec 10) (l : Option (BitVec 9)) :=
  scalarOp (.sandi d a i l) 1 d fun r => r.readG a &&& imm19 i l
/-- a or imm. -/
def execSori (d a : BitVec 6) (i : BitVec 10) (l : Option (BitVec 9)) :=
  scalarOp (.sori d a i l) 1 d fun r => r.readG a ||| imm19 i l
/-- a xor imm. -/
def execSxori (d a : BitVec 6) (i : BitVec 10) (l : Option (BitVec 9)) :=
  scalarOp (.sxori d a i l) 1 d fun r => r.readG a ^^^ imm19 i l
/-- a << imm; an immediate outside 0 to 63 is illegal (R140). -/
def execSshli (d a : BitVec 6) (i : BitVec 10) (l : Option (BitVec 9)) :=
  scalarOp (.sshli d a i l) 1 d fun r => r.readG a <<< (imm19 i l).toNat
/-- a >> imm, zeros shifted in. -/
def execSshri (d a : BitVec 6) (i : BitVec 10) (l : Option (BitVec 9)) :=
  scalarOp (.sshri d a i l) 1 d fun r => r.readG a >>> (imm19 i l).toNat
/-- a >> imm, copies of bit 63 shifted in. -/
def execSsrai (d a : BitVec 6) (i : BitVec 10) (l : Option (BitVec 9)) :=
  scalarOp (.ssrai d a i l) 1 d fun r => (r.readG a).sshiftRight (imm19 i l).toNat
/-- Bits 63:0 of a × imm, after 3 cycles. -/
def execSmuli (d a : BitVec 6) (i : BitVec 10) (l : Option (BitVec 9)) :=
  scalarOp (.smuli d a i l) 3 d fun r => r.readG a * imm19 i l

/-- The immediate, sign-extended (R141). -/
def execSli (d : BitVec 6) (i : BitVec 16) (l : Option (BitVec 9)) := scalarOp (.sli d i l) 1 d fun _ => imm25s i l
/-- gd shifted left by the immediate's width, the immediate inserted (R141). -/
def execSlhi (d : BitVec 6) (i : BitVec 16) (l : Option (BitVec 9)) :=
  scalarOp (.slhi d i l) 1 d fun r => slhiValue (r.readG d) i l

/-- a + (b << s). -/
def execSadr (d a b : BitVec 6) (m : BitVec 4) :=
  scalarOp (.sadr d a b m) 1 d fun r => r.readG a + (r.readG b <<< m.toNat)
/-- a where bit c0 of km is 1, else b. -/
def execSsel (d a b : BitVec 6) (m : BitVec 4) :=
  scalarOp (.ssel d a b m) 1 d fun r => if condBit (r.readK m) false then r.readG a else r.readG b

/-- The low 8, 16 or 32 bits of a word, extended by zeros or by their top bit (R142). -/
def extend (z : Bool) (w : Nat) (a : Word) : Word :=
  let n := 8 * 2 ^ w
  if z then BitVec.ofNat 64 (a.toNat % 2 ^ n) else sextBits n a.toNat

/-- The low 8, 16 or 32 bits of a, extended. -/
def execSext (d a : BitVec 6) (z : BitVec 1) (w : BitVec 2) :=
  scalarOp (.sext d a z w) 1 d fun r => extend (z == 1) w.toNat (r.readG a)

/-- The two-bit mask of condition bit `c`. -/
def condMask (c : BitVec 1) : BitVec 2 := if c = 1 then 2 else 1

/-- A condition bit's value in place (R143). -/
def condValue (c : BitVec 1) (v : Bool) : BitVec 2 := if v then condMask c else 0

/-- kN.c := (a cond b), at issue+1. -/
def execScmp (k : BitVec 4) (c : BitVec 1) (f : BitVec 3) (n : BitVec 1) (a b : BitVec 6) :=
  issueSyl (.scmp k c f n a b) fun x co =>
    co.laterS x 1 (.cond k (condMask c) (condValue c (condHolds f.toNat (n == 1) (co.regs.readG a) (co.regs.readG b))))
/-- kN.c := (a cond imm), at issue+1. -/
def execScmpi (k : BitVec 4) (c : BitVec 1) (f : BitVec 3) (n : BitVec 1) (a : BitVec 6) (i : BitVec 7)
    (l : Option (BitVec 9)) :=
  issueSyl (.scmpi k c f n a i l) fun x co =>
    co.laterS x 1 (.cond k (condMask c) (condValue c (condHolds f.toNat (n == 1) (co.regs.readG a) (imm16k n i l))))
/-- Both condition bits from the immediate. -/
def execKset (k : BitVec 4) (v : BitVec 2) := issueSyl (.kset k v) fun x c => c.laterS x 1 (.cond k 3 v)
/-- Both condition bits from bits 1:0 of ga. -/
def execKsetReg (k : BitVec 4) (a : BitVec 6) :=
  issueSyl (.ksetReg k a) fun x c => c.laterS x 1 (.cond k 3 ((c.regs.readG a).setWidth 2))

/-- The sowing list's next entry to gd and 0 to kN.c, or 0 and 1 at its end; an entry that cannot be corrected reaches
neither (R149, R304). [DEDUCED: log 126] -/
def execWnext (k : BitVec 4) (c : BitVec 1) (d : BitVec 6) :=
  issueSyl (.wnext k c d) fun x co =>
    match co.q.sow[co.q.cursor]? with
    | some e =>
      let r := co.readUnits x (co.preciseTrap (.wnext k c d) 0x0D 0) 6 (unitsOf (sowCell co.q.cursor) 8)
      let co := r.1
      let co : Core := { co with q := { co.q with cursor := co.q.cursor + 1 } }
      if r.2 then (co.laterS x 1 (.g d e)).laterS x 1 (.cond k (condMask c) 0) else co
    | none => (co.laterS x 1 (.g d 0)).laterS x 1 (.cond k (condMask c) (condMask c))

/-- nN := saturating nN + a, at issue+1 (R36, R150). -/
def execCadd (n a : BitVec 6) := issueSyl (.cadd n a) fun x c => c.laterS x 1 (.count n (c.regs.readG a))

/-- A remote counter addition: its record counts as a block read at issue+1 (R102, R150). -/
def execCaddR (n a b : BitVec 6) :=
  issueSyl (.caddR n a b) fun x c =>
    let dest := fieldCore x.cores (c.regs.readG b)
    let f : Flight := { c.newFlight x (.caddR n a b) 1 with
      d := dest, x := c.regs.readG a, streams := [{ eff := .sendRead, first := x.now + 1, n := 1 }] }
    (c.note dest (x.now + 1)).fly f

/-- kN.c := (nN ≥ imm), at issue+1. -/
def execCtest (k : BitVec 4) (c : BitVec 1) (n : BitVec 6) (i : BitVec 10) (l : Option (BitVec 9)) :=
  issueSyl (.ctest k c n i l) fun x co =>
    co.laterS x 1 (.cond k (condMask c) (condValue c (decide ((imm19u i l).toNat ≤ (co.regs.readN n).toNat))))
/-- kN.c := (nN ≥ gM), at issue+1. -/
def execCtestReg (k : BitVec 4) (c : BitVec 1) (n g : BitVec 6) :=
  issueSyl (.ctestReg k c n g) fun x co =>
    co.laterS x 1 (.cond k (condMask c) (condValue c (decide ((co.regs.readG g).toNat ≤ (co.regs.readN n).toNat))))
/-- gd := nN as read at issue. -/
def execCread (d n : BitVec 6) := scalarOp (.cread d n) 1 d fun r => r.readN n

end Sys2Proof.Machine
end

