-- ==== Sys2Proof/Machine/Dispatch.lean ====
section
/-!
DEFINITION. The one dispatch: each of the part's steps is one call of its meaning.
-/

namespace Sys2Proof.Machine

def exec (i : Instr) (s : State) : Host.Outcome State Fault Refusal :=
  match i with
  | .sadd d a b => Sys2Proof.Machine.execSadd d a b s
  | .ssub d a b => Sys2Proof.Machine.execSsub d a b s
  | .sand d a b => Sys2Proof.Machine.execSand d a b s
  | .sor d a b => Sys2Proof.Machine.execSor d a b s
  | .sxor d a b => Sys2Proof.Machine.execSxor d a b s
  | .sshl d a b => Sys2Proof.Machine.execSshl d a b s
  | .sshr d a b => Sys2Proof.Machine.execSshr d a b s
  | .ssra d a b => Sys2Proof.Machine.execSsra d a b s
  | .smul d a b => Sys2Proof.Machine.execSmul d a b s
  | .smulh d a b n => Sys2Proof.Machine.execSmulh d a b n s
  | .sdiv d a b n => Sys2Proof.Machine.execSdiv d a b n s
  | .srem d a b n => Sys2Proof.Machine.execSrem d a b n s
  | .smin d a b n => Sys2Proof.Machine.execSmin d a b n s
  | .smax d a b n => Sys2Proof.Machine.execSmax d a b n s
  | .sclz d a => Sys2Proof.Machine.execSclz d a s
  | .spop d a => Sys2Proof.Machine.execSpop d a s
  | .saddi d a i1 l => Sys2Proof.Machine.execSaddi d a i1 l s
  | .sandi d a i1 l => Sys2Proof.Machine.execSandi d a i1 l s
  | .sori d a i1 l => Sys2Proof.Machine.execSori d a i1 l s
  | .sxori d a i1 l => Sys2Proof.Machine.execSxori d a i1 l s
  | .sshli d a i1 l => Sys2Proof.Machine.execSshli d a i1 l s
  | .sshri d a i1 l => Sys2Proof.Machine.execSshri d a i1 l s
  | .ssrai d a i1 l => Sys2Proof.Machine.execSsrai d a i1 l s
  | .smuli d a i1 l => Sys2Proof.Machine.execSmuli d a i1 l s
  | .sli d i1 l => Sys2Proof.Machine.execSli d i1 l s
  | .slhi d i1 l => Sys2Proof.Machine.execSlhi d i1 l s
  | .sadr d a b m => Sys2Proof.Machine.execSadr d a b m s
  | .ssel d a b m => Sys2Proof.Machine.execSsel d a b m s
  | .sext d a z w => Sys2Proof.Machine.execSext d a z w s
  | .scmp k c f n a b => Sys2Proof.Machine.execScmp k c f n a b s
  | .scmpi k c f n a i1 l => Sys2Proof.Machine.execScmpi k c f n a i1 l s
  | .kset k v => Sys2Proof.Machine.execKset k v s
  | .ksetReg k a => Sys2Proof.Machine.execKsetReg k a s
  | .prep k a b => Sys2Proof.Machine.execPrep k a b s
  | .prepHi k a b => Sys2Proof.Machine.execPrepHi k a b s
  | .head k => Sys2Proof.Machine.execHead k s
  | .fend => Sys2Proof.Machine.execFend s
  | .loop c o l => Sys2Proof.Machine.execLoop c o l s
  | .loopReg g o => Sys2Proof.Machine.execLoopReg g o s
  | .loopq o => Sys2Proof.Machine.execLoopq o s
  | .wnext k c d => Sys2Proof.Machine.execWnext k c d s
  | .cadd n a => Sys2Proof.Machine.execCadd n a s
  | .caddR n a b => Sys2Proof.Machine.execCaddR n a b s
  | .ctest k c n i1 l => Sys2Proof.Machine.execCtest k c n i1 l s
  | .ctestReg k c n g => Sys2Proof.Machine.execCtestReg k c n g s
  | .cread d n => Sys2Proof.Machine.execCread d n s
  | .rfence a b => Sys2Proof.Machine.execRfence a b s
  | .vjoin => Sys2Proof.Machine.execVjoin s
  | .drain n => Sys2Proof.Machine.execDrain n s
  | .bclose => Sys2Proof.Machine.execBclose s
  | .adv h n e => Sys2Proof.Machine.execAdv h n e s
  | .hset h a b => Sys2Proof.Machine.execHset h a b s
  | .hget d h w => Sys2Proof.Machine.execHget d h w s
  | .mtc c a => Sys2Proof.Machine.execMtc c a s
  | .mfc d c => Sys2Proof.Machine.execMfc d c s
  | .mts a r => Sys2Proof.Machine.execMts a r s
  | .mfs d r => Sys2Proof.Machine.execMfs d r s
  | .trap i1 l => Sys2Proof.Machine.execTrap i1 l s
  | .eret => Sys2Proof.Machine.execEret s
  | .ovld a => Sys2Proof.Machine.execOvld a s
  | .itlbinv a => Sys2Proof.Machine.execItlbinv a s
  | .iptroot a => Sys2Proof.Machine.execIptroot a s
  | .ctxid a => Sys2Proof.Machine.execCtxid a s
  | .windowTable a r => Sys2Proof.Machine.execWindowTable a r s
  | .errstat a r => Sys2Proof.Machine.execErrstat a r s
  | .einj a r => Sys2Proof.Machine.execEinj a r s
  | .vadd d a b m l => Sys2Proof.Machine.execVadd d a b m l s
  | .vsub d a b m l => Sys2Proof.Machine.execVsub d a b m l s
  | .vmul d a b m l => Sys2Proof.Machine.execVmul d a b m l s
  | .vfma d a b m l => Sys2Proof.Machine.execVfma d a b m l s
  | .vmin d a b m l => Sys2Proof.Machine.execVmin d a b m l s
  | .vmax d a b m l => Sys2Proof.Machine.execVmax d a b m l s
  | .vabs d a m l => Sys2Proof.Machine.execVabs d a m l s
  | .vneg d a m l => Sys2Proof.Machine.execVneg d a m l s
  | .vand d a b m l => Sys2Proof.Machine.execVand d a b m l s
  | .vor d a b m l => Sys2Proof.Machine.execVor d a b m l s
  | .vxor d a b m l => Sys2Proof.Machine.execVxor d a b m l s
  | .vshl d a b m l => Sys2Proof.Machine.execVshl d a b m l s
  | .vshr d a b m l => Sys2Proof.Machine.execVshr d a b m l s
  | .vsra d a b m l => Sys2Proof.Machine.execVsra d a b m l s
  | .vcmp f d a b m l => Sys2Proof.Machine.execVcmp f d a b m l s
  | .vsel d a b m l => Sys2Proof.Machine.execVsel d a b m l s
  | .vcas d a b m l => Sys2Proof.Machine.execVcas d a b m l s
  | .vexp d a m l => Sys2Proof.Machine.execVexp d a m l s
  | .vlog d a m l => Sys2Proof.Machine.execVlog d a m l s
  | .vrcp d a m l => Sys2Proof.Machine.execVrcp d a m l s
  | .vrsqrt d a m l => Sys2Proof.Machine.execVrsqrt d a m l s
  | .vtanh d a m l => Sys2Proof.Machine.execVtanh d a m l s
  | .vcvt d a c i1 m l => Sys2Proof.Machine.execVcvt d a c i1 m l s
  | .vwid d a c m l => Sys2Proof.Machine.execVwid d a c m l s
  | .vsumr d a m l => Sys2Proof.Machine.execVsumr d a m l s
  | .vmaxr d a m l => Sys2Proof.Machine.execVmaxr d a m l s
  | .vthr d a b m l => Sys2Proof.Machine.execVthr d a b m l s
  | .vhist b a m l => Sys2Proof.Machine.execVhist b a m l s
  | .vrenorm d a m l => Sys2Proof.Machine.execVrenorm d a m l s
  | .vbcast d a m l => Sys2Proof.Machine.execVbcast d a m l s
  | .vperm d a b m l => Sys2Proof.Machine.execVperm d a b m l s
  | .vtrn d a m l => Sys2Proof.Machine.execVtrn d a m l s
  | .vshape r c => Sys2Proof.Machine.execVshape r c s
  | .viota d b m l => Sys2Proof.Machine.execViota d b m l s
  | .vrand d b m l => Sys2Proof.Machine.execVrand d b m l s
  | .mand d a b l => Sys2Proof.Machine.execMand d a b l s
  | .mor d a b l => Sys2Proof.Machine.execMor d a b l s
  | .mnot d a l => Sys2Proof.Machine.execMnot d a l s
  | .mpop d a l => Sys2Proof.Machine.execMpop d a l s
  | .wld t s1 b e => Sys2Proof.Machine.execWld t s1 b e s
  | .wset s1 b e => Sys2Proof.Machine.execWset s1 b e s
  | .wclr s1 b => Sys2Proof.Machine.execWclr s1 b s
  | .mma c t s1 => Sys2Proof.Machine.execMma c t s1 s
  | .mmaz c t s1 => Sys2Proof.Machine.execMmaz c t s1 s
  | .mmag a g s1 => Sys2Proof.Machine.execMmag a g s1 s
  | .mpat a => Sys2Proof.Machine.execMpat a s
  | .mtag t a => Sys2Proof.Machine.execMtag t a s
  | .mdrn d c b m => Sys2Proof.Machine.execMdrn d c b m s
  | .mgdrn d n z m => Sys2Proof.Machine.execMgdrn d n z m s
  | .mzero e => Sys2Proof.Machine.execMzero e s
  | .mmiss d => Sys2Proof.Machine.execMmiss d s
  | .ld d a b x w => Sys2Proof.Machine.execLd d a b x w s
  | .ldh d h n w => Sys2Proof.Machine.execLdh d h n w s
  | .ldt d a b x => Sys2Proof.Machine.execLdt d a b x s
  | .ldth d h n => Sys2Proof.Machine.execLdth d h n s
  | .lds d a i1 l => Sys2Proof.Machine.execLds d a i1 l s
  | .sqld a i1 l => Sys2Proof.Machine.execSqld a i1 l s
  | .ldm d a x => Sys2Proof.Machine.execLdm d a x s
  | .st d a b x w => Sys2Proof.Machine.execSt d a b x w s
  | .sth d h n w => Sys2Proof.Machine.execSth d h n w s
  | .stt d a b x => Sys2Proof.Machine.execStt d a b x s
  | .stth d h n => Sys2Proof.Machine.execStth d h n s
  | .sts d a i1 l => Sys2Proof.Machine.execSts d a i1 l s
  | .stm d a x => Sys2Proof.Machine.execStm d a x s
  | .dcp r h n x => Sys2Proof.Machine.execDcp r h n x s
  | .dput d a b => Sys2Proof.Machine.execDput d a b s
  | .dred d a b p f l => Sys2Proof.Machine.execDred d a b p f l s
  | .dgln d a b m => Sys2Proof.Machine.execDgln d a b m s
  | .dhget d a b n => Sys2Proof.Machine.execDhget d a b n s
  | .dhput d a b n => Sys2Proof.Machine.execDhput d a b n s
  | .amo d a p f => Sys2Proof.Machine.execAmo d a p f s
  | .amor d a b p f => Sys2Proof.Machine.execAmor d a b p f s
  | .dcan t => Sys2Proof.Machine.execDcan t s
  | .chact k r => Sys2Proof.Machine.execChact k r s
  | .chactReg k g => Sys2Proof.Machine.execChactReg k g s
  | .chrd k c g t => Sys2Proof.Machine.execChrd k c g t s
  | .chrdHandle k c h n t => Sys2Proof.Machine.execChrdHandle k c h n t s
  | .chwr k c g => Sys2Proof.Machine.execChwr k c g s
  | .chwrHandle k c h n => Sys2Proof.Machine.execChwrHandle k c h n s
  | .chpre k => Sys2Proof.Machine.execChpre k s
  | .chpra => Sys2Proof.Machine.execChpra s
  | .chref => Sys2Proof.Machine.execChref s
  | .chrefb k => Sys2Proof.Machine.execChrefb k s
  | .nop => Sys2Proof.Machine.execNop s
  | .hpf p => Sys2Proof.Machine.execHpf p s
  | .furrowOrigin l => Sys2Proof.Machine.execFurrowOrigin l s
  | .merge => Sys2Proof.Machine.execMerge s
  | .missingHead => Sys2Proof.Machine.execMissingHead s
  | .headlandHashCompare l => Sys2Proof.Machine.execHeadlandHashCompare l s
  | .furrowOverrun => Sys2Proof.Machine.execFurrowOverrun s
  | .elasticJoin l => Sys2Proof.Machine.execElasticJoin l s
  | .drainRelease => Sys2Proof.Machine.execDrainRelease s
  | .holdRelease => Sys2Proof.Machine.execHoldRelease s
  | .freezeRelease => Sys2Proof.Machine.execFreezeRelease s
  | .scalarResultWrite i1 => Sys2Proof.Machine.execScalarResultWrite i1 s
  | .vectorRowRead f j => Sys2Proof.Machine.execVectorRowRead f j s
  | .vectorRowWrite f j => Sys2Proof.Machine.execVectorRowWrite f j s
  | .harrowResultWrite f j => Sys2Proof.Machine.execHarrowResultWrite f j s
  | .countQueueAppend f j => Sys2Proof.Machine.execCountQueueAppend f j s
  | .scratchpadRowRead f j => Sys2Proof.Machine.execScratchpadRowRead f j s
  | .registerRowWrite f j => Sys2Proof.Machine.execRegisterRowWrite f j s
  | .storeRowWrite f j => Sys2Proof.Machine.execStoreRowWrite f j s
  | .scaleAppend f j => Sys2Proof.Machine.execScaleAppend f j s
  | .arrayRowRead f j => Sys2Proof.Machine.execArrayRowRead f j s
  | .arrayRowUpdate f j => Sys2Proof.Machine.execArrayRowUpdate f j s
  | .wldScalePop f j => Sys2Proof.Machine.execWldScalePop f j s
  | .wldKrowWrite f j => Sys2Proof.Machine.execWldKrowWrite f j s
  | .slotLoadingEnd f j => Sys2Proof.Machine.execSlotLoadingEnd f j s
  | .descriptorUpdate f j => Sys2Proof.Machine.execDescriptorUpdate f j s
  | .accumulatorRowRead f j => Sys2Proof.Machine.execAccumulatorRowRead f j s
  | .gleanerListRead f j => Sys2Proof.Machine.execGleanerListRead f j s
  | .drillBlockRead f j => Sys2Proof.Machine.execDrillBlockRead f j s
  | .drillBlockWrite f j => Sys2Proof.Machine.execDrillBlockWrite f j s
  | .sendBlockRead f j => Sys2Proof.Machine.execSendBlockRead f j s
  | .recordArrival i1 => Sys2Proof.Machine.execRecordArrival i1 s
  | .hostDataArrival f off data => Sys2Proof.Machine.execHostDataArrival f off data s
  | .hostTransferComplete f => Sys2Proof.Machine.execHostTransferComplete f s
  | .hostAcknowledgement f => Sys2Proof.Machine.execHostAcknowledgement f s
  | .hostSideError f => Sys2Proof.Machine.execHostSideError f s
  | .channelReadData f j => Sys2Proof.Machine.execChannelReadData f j s
  | .channelWriteSourceRead f j => Sys2Proof.Machine.execChannelWriteSourceRead f j s
  | .refreshDeadline b => Sys2Proof.Machine.execRefreshDeadline b s
  | .systemWindow part => Sys2Proof.Machine.execSystemWindow part s
  | .codeFillDone l core => Sys2Proof.Machine.execCodeFillDone l core s
  | .commonStop l => Sys2Proof.Machine.execCommonStop l s
  | .preemptionStop l => Sys2Proof.Machine.execPreemptionStop l s
  | .saveEnd l => Sys2Proof.Machine.execSaveEnd l s
  | .footprintSaveEnd l => Sys2Proof.Machine.execFootprintSaveEnd l s
  | .footprintRestoreEnd l => Sys2Proof.Machine.execFootprintRestoreEnd l s
  | .restoreEnd l => Sys2Proof.Machine.execRestoreEnd l s
  | .restartPreamble l => Sys2Proof.Machine.execRestartPreamble l s
  | .restartCycle l => Sys2Proof.Machine.execRestartCycle l s
  | .firstOrigin l => Sys2Proof.Machine.execFirstOrigin l s
  | .launchCompletion l => Sys2Proof.Machine.execLaunchCompletion l s
  | .peerReduceContribution w rank data => Sys2Proof.Machine.execPeerReduceContribution w rank data s
  | .thermalYield => Sys2Proof.Machine.execThermalYield s
  | .thermalRecovery => Sys2Proof.Machine.execThermalRecovery s
  | .powerUp => Sys2Proof.Machine.execPowerUp s
  | .functionReady f ok => Sys2Proof.Machine.execFunctionReady f ok s
  | .managementReset => Sys2Proof.Machine.execManagementReset s
  | .stateReport h => Sys2Proof.Machine.execStateReport h s
  | .resendReports h first last => Sys2Proof.Machine.execResendReports h first last s
  | .deliverFirmwareImage h img => Sys2Proof.Machine.execDeliverFirmwareImage h img s
  | .createPartition h number px py pw ph class0 => Sys2Proof.Machine.execCreatePartition h number px py pw ph class0 s
  | .destroyPartition h number => Sys2Proof.Machine.execDestroyPartition h number s
  | .writePartitionSeedRegister h part seed => Sys2Proof.Machine.execWritePartitionSeedRegister h part seed s
  | .addToPartitionCounter h part counter amount => Sys2Proof.Machine.execAddToPartitionCounter h part counter amount s
  | .addToContextCounter h l core n amount => Sys2Proof.Machine.execAddToContextCounter h l core n amount s
  | .writePartitionWindowEntry h part w w0 w1 w2 w3 => Sys2Proof.Machine.execWritePartitionWindowEntry h part w w0 w1 w2 w3 s
  | .loadCode h part sheaf => Sys2Proof.Machine.execLoadCode h part sheaf s
  | .unregisterSheaf h part sheaf => Sys2Proof.Machine.execUnregisterSheaf h part sheaf s
  | .launch h rec => Sys2Proof.Machine.execLaunch h rec s
  | .cancelQueuedLaunch h l => Sys2Proof.Machine.execCancelQueuedLaunch h l s
  | .resumeLaunch h l x0 y0 => Sys2Proof.Machine.execResumeLaunch h l x0 y0 s
  | .releaseContext h l => Sys2Proof.Machine.execReleaseContext h l s
  | .stateRead h l sel => Sys2Proof.Machine.execStateRead h l sel s
  | .stateWrite h l sel data => Sys2Proof.Machine.execStateWrite h l sel data s
  | .readSurveyTable h part => Sys2Proof.Machine.execReadSurveyTable h part s
  | .clearSurveyTable h part => Sys2Proof.Machine.execClearSurveyTable h part s
  | .writeProcessGroupEntry h part g w hh members => Sys2Proof.Machine.execWriteProcessGroupEntry h part g w hh members s
  | .attest h nonce part => Sys2Proof.Machine.execAttest h nonce part s
  | .readErrorLogs h x y => Sys2Proof.Machine.execReadErrorLogs h x y s
  | .clearErrorLogs h x y => Sys2Proof.Machine.execClearErrorLogs h x y s
  | .undefinedOpcode w => Sys2Proof.Machine.execUndefinedOpcode w s
  | .hintSpace o p => Sys2Proof.Machine.execHintSpace o p s
  | .undefinedCommand h opcode bad => Sys2Proof.Machine.execUndefinedCommand h opcode bad s
  | .powerLoss interrupted => Sys2Proof.Machine.execPowerLoss interrupted s

end Sys2Proof.Machine
end

