-- ==== Sys2Proof/Machine/Pick.lean ====
section
/-!
DEFINITION. What happens next: which of the part's steps performs, from the state alone (R23 to R26, R48 to R67, R95 to
R98, R102, R127, R136, R147, R226, R245 to R259, R266 to R278). One step is one row of the opcode table; what no row
describes (a cycle passing, a bundle retiring, a core refused issue) is a step of its own that runs no row. Within a
cycle what the rules order comes in that order, and what they leave free comes in the order of the cores.
-/

namespace Sys2Proof.Machine

/-- A step chosen: the state it starts from and the row it runs, or none where that state is already its end. -/
abbrev Pick := State × Option Instr

/-- The first of some candidates that gives a step. -/
def firstPick {α : Type} (f : α → Option Pick) : List α → Option Pick
  | [] => none
  | a :: l => match f a with
    | some p => some p
    | none => firstPick f l

/-- A step of the module. -/
def State.runs (s : State) (i : Instr) : Option Pick := some (s, some i)

/-- A core in the state, by its place in the list. -/
structure Seat where
  pos : Nat
  x : Ctx
  c : Core
deriving DecidableEq, Repr

/-- The state with the acting core at a seat. -/
def State.sit (s : State) (n : Nat) (c : Core) : State := { s with cores := s.cores.set n c, cur := n }

/-- A step of the core at a seat. -/
def Seat.runs (t : Seat) (s : State) (i : Instr) : Option Pick := some ({ s with cur := t.pos }, some i)

/-- A core whose effects perform: its launch runs, or it executes system code and no fault has halted it (R67, R276, R288).
[DEDUCED: log 132] -/
def Seat.active (t : Seat) : Bool := t.x.la.phase == .running || (t.c.phys.sysMode && t.c.phys.halted.isNone)

/-- The active cores. -/
def State.seats (s : State) : List Seat :=
  ((s.cores.zipIdx).map fun p => ({ pos := p.2, x := s.ctx p.1, c := p.1 } : Seat)).filter Seat.active

/-! ## Inputs and the module's own events -/

/-- Where an input for core `i` of launch `l` goes: to its image while there is one, else to the core (R271).
[DEDUCED: log 84] -/
def State.seatOf (s : State) (l : LaunchId) (i : Nat) : Option Nat :=
  let mine (c : Core) : Bool := c.lid == l && c.index == i
  match s.images.findIdx? mine with
  | some k => some (s.cores.length + k)
  | none => s.cores.findIdx? mine

/-- What input `k` runs, once it has reached the module; one for a context that is gone is lost. [DEDUCED: log 117] -/
def State.takeInput (s : State) (k : Nat) : Option Pick :=
  match s.inbox[k]? with
  | none => none
  | some m =>
    let s : State := { s with inbox := s.inbox.eraseIdx k }
    match m.core with
    | none => s.runs m.what
    | some q => match s.seatOf q.1 q.2 with
      | some n => some ({ s with cur := n }, some m.what)
      | none => some (s, none)

/-- A write of scratchpad. -/
def isSpWrite (i : Instr) : Bool :=
  match i with
  | .hostDataArrival .. | .peerReduceContribution .. => true
  | _ => false

/-- An input that writes the scratchpad of a core whose effects perform has its place among the writes of its cycle (R26,
R95). -/
def State.inTurnOf (s : State) (t : Seat) (m : Input) : Bool :=
  isSpWrite m.what && (m.core.bind fun q => s.seatOf q.1 q.2) == some t.pos

/-- The first other input that has reached the module. [DEDUCED: log 1, 78, 96, 117] -/
def State.nextInput (s : State) (ts : List Seat) : Option Pick :=
  (s.inbox.findIdx? fun m => decide (m.at_ ≤ s.now) && !(ts.any fun t => s.inTurnOf t m)).bind s.takeInput

/-- The held command whose number has come (R296). -/
def State.nextHeld (s : State) : Option Pick :=
  if s.mgmt.ready[0].getLsbD 0 then
    match s.mgmt.held.find? fun p => p.1 == s.mgmt.x + 1 with
    | some p => s.runs p.2
    | none => none
  else none

/-- A partition's system window opens (R43). -/
def windowDue (s : State) (p : Partition) : Option Pick :=
  if (s.now - p.base) % 4096 = 0 && p.window != some s.now then s.runs (.systemWindow (BitVec.ofNat 8 p.number)) else none

/-- Every footprint taken for class-0 launch `l` has been saved (R257). -/
def footprintsDone (s : State) (l : LaunchId) : Bool :=
  !s.yielding l && (s.footprints l).all fun y => decide (y.2 ≤ s.now) && s.gathered y.1.id

/-- The event of a launch that is not running and is due (R248, R254, R257, R268, R276, R277, R327). [DEDUCED: log 84] -/
def launchDue (s : State) (la : Launch) : Option Pick :=
  match la.fills.find? fun e => e.place == 0 && e.fill == 0 && decide (e.ready ≤ s.now) with
  | some e => s.runs (.codeFillDone la.id e.core)
  | none =>
    match la.yield_, la.footUntil with
    | some (.class0 l), some u =>
      if la.footprinted && u ≤ s.now then s.runs (.footprintRestoreEnd l) else none
    | y, _ =>
      match la.phase with
      | .preparing u => if u ≤ s.now then s.runs (.firstOrigin la.id) else none
      | .starting o => if o = s.now then s.runs (.firstOrigin la.id) else none
      | .saving u =>
        match la.footprinted, y with
        | true, some (.class0 l) => if u ≤ s.now && footprintsDone s l then s.runs (.footprintSaveEnd l) else none
        | true, _ => none
        | false, _ => if u ≤ s.now && s.gathered la.id then s.runs (.saveEnd la.id) else none
      | .restoring u => if u ≤ s.now && s.resides la then s.runs (.restoreEnd la.id) else none
      | .restarting q =>
        let left := (s.coresOf la.id).flatMap fun c => c.chan.reopens q
        if left.any fun b => b.2 ≤ s.now then s.runs (.restartPreamble la.id)
        else if s.now = q && left.isEmpty then s.runs (.restartCycle la.id)
        else none
      | _ => none

/-! ## The timetable of a running launch -/

/-- The furrow cycle at which a core that has not ended its part overruns (R50, R67). -/
def Ctx.limit (x : Ctx) : Nat := if x.elastic then x.len - 40 else x.len

/-- The core overruns its furrow in this cycle. [DEDUCED: log 22, 76] -/
def Seat.overruns (t : Seat) : Bool :=
  t.x.la.phase == .running && t.c.seq.fend.isNone && !t.c.seq.stuck && !t.c.seq.checked.contains 2 &&
  t.x.limit ≤ t.c.fcycle t.x

/-- No bundle of the launch has issued in this cycle. [DEDUCED: log 77] -/
def unissued (s : State) (cs : List Core) : Bool := cs.all fun c => c.seq.issuedAt != some s.now

/-- The merge of a core's seam: it frees the previous furrow's records before any record of its cycle arrives, at whatever
core (R48, R101, R103). -/
def mergeDue (s : State) (t : Seat) : Option Pick :=
  let c := t.c
  if t.x.la.phase == .running && !c.net.prev.isEmpty && !c.net.lateFault && !c.seq.checked.contains 0 &&
      t.x.la.origin + descSeam t.x.la.desc ≤ s.now then
    t.runs s .merge
  else none

/-- A return record, which lands in the furrow of its merge (R106). [DEDUCED: log 80] -/
def Rec.returns (r : Rec) : Bool := r.kind == .ret

/-- A record reaches its destination (R101). -/
def arrivalDue (s : State) (t : Seat) : Option Pick :=
  (t.c.net.out.findIdx? fun r => r.arrive ≤ s.now).bind fun i => t.runs s (.recordArrival i)

/-- An origin comes after the merges and the records that arrive in its cycle: a block read at the limit of R102 lands in
its furrow, the return of a merge does too (R106), and a seam that ends with its furrow is merged.
[DEDUCED: log 6, 107] -/
def landsBeforeOrigin (s : State) (ts : List Seat) (la : Launch) : Option Pick :=
  let mine := ts.filter fun t => t.c.lid == la.id
  let back (t : Seat) : Option Pick := (t.c.net.out.findIdx? Rec.returns).bind fun i => t.runs s (.recordArrival i)
  (((firstPick (mergeDue s) mine).orElse fun _ => firstPick (arrivalDue s) mine).orElse fun _ => firstPick back mine).orElse
    fun _ => s.runs (.furrowOrigin la.id)

/-- The common stop of a launch is reached; it comes before everything else of its cycle (R66, R67, R266). -/
def stopDue (s : State) (la : Launch) : Option Pick :=
  if la.phase == .running && (s.stopOf la.id).any fun t => t ≤ s.now then s.runs (.commonStop la.id) else none

/-- The launch unit begins the next start that the schedulers have decided (R253). -/
def startDue (s : State) : Option Pick := s.nextStart.map fun la => (s.start la, none)

/-- The event of a running launch that is due (R47, R59, R60, R67, R255, R259). [DEDUCED: log 77] -/
def timetableDue (s : State) (ts : List Seat) (la : Launch) : Option Pick :=
  if la.phase != .running then none
  else
    let cs := s.coresOf la.id
    let stop := s.stopOf la.id
    match ts.find? fun t => t.c.lid == la.id && t.overruns with
    | some t => t.runs s .furrowOverrun
    | none =>
      if descElastic la.desc && la.next.isNone && la.ended.isNone && (lastFend cs).any fun t => t + 40 ≤ s.now then
        s.runs (.elasticJoin la.id)
      else if stop.isNone && ((s.furrowEnd la).any fun e => e ≤ s.now) && cs.all Core.quiet then
        s.runs (.launchCompletion la.id)
      else if s.nextOrigin la == some s.now then landsBeforeOrigin s ts la
      else if la.yield_ != none && la.turned == some s.now && stop.isNone && unissued s cs then
        s.runs (.preemptionStop la.id)
      else none

/-- The refresh deadline of a bank that the program refreshes (R226). [DEDUCED: log 26] -/
def deadlineDue (s : State) (t : Seat) : Option Pick :=
  let c := t.c
  if t.x.la.phase == .running && c.programRefreshed then
    ((List.range 30).find? fun b => (c.chan.bank b).overdue s.now).bind fun b => t.runs s (.refreshDeadline b)
  else none

/-! ## Effects that are due -/

/-- The lesser of two ranked things, the first of equals. -/
def lesser {α : Type} (m : Option (Nat × α)) (k : Nat) (a : α) : Option (Nat × α) :=
  match m with
  | none => some (k, a)
  | some b => if k < b.1 then some (k, a) else some b

/-- What orders effects of one instant: the issue of the bundle, then the class code (R26, R95). -/
def rankOf (seqno cls : Nat) : Nat := 8 * seqno + cls

/-- The deferred change that performs next in this cycle. -/
def Core.duePend (now : Nat) (c : Core) : Option Nat :=
  ((c.pends.zipIdx).foldl (fun m p => if p.1.due ≤ now then lesser m (rankOf p.1.seqno p.1.cls) p.2 else m) none).map (·.2)

/-- The row that performs an event of stream `j` of operation `u`. -/
def Eff.row (e : Eff) (u j : Nat) : Instr :=
  match e with
  | .vread => .vectorRowRead u j
  | .vwrite => .vectorRowWrite u j
  | .harrow => .harrowResultWrite u j
  | .cqAppend => .countQueueAppend u j
  | .spRead => .scratchpadRowRead u j
  | .regWrite => .registerRowWrite u j
  | .spWrite => .storeRowWrite u j
  | .scaleApp => .scaleAppend u j
  | .arrRead => .arrayRowRead u j
  | .arrUpdate => .arrayRowUpdate u j
  | .wldPop => .wldScalePop u j
  | .wldK => .wldKrowWrite u j
  | .loadEnd => .slotLoadingEnd u j
  | .desc => .descriptorUpdate u j
  | .accRead => .accumulatorRowRead u j
  | .listRead => .gleanerListRead u j
  | .blkRead => .drillBlockRead u j
  | .blkWrite => .drillBlockWrite u j
  | .sendRead => .sendBlockRead u j
  | .chData => .channelReadData u j
  | .chSource => .channelWriteSourceRead u j

/-- When in a cycle an effect performs: writes first (0), then reads (1), which see them (R13, R95), then appends to the
queues, which come after the pops (2) (R34, R37). [DEDUCED: log 5] -/
def Eff.turn (e : Eff) : Nat :=
  match e with
  | .vwrite | .harrow | .regWrite | .spWrite | .arrUpdate | .loadEnd | .desc | .blkWrite | .chData => 0
  | .vread | .spRead | .arrRead | .wldPop | .wldK | .accRead | .listRead | .blkRead | .sendRead | .chSource => 1
  | .cqAppend | .scaleApp => 2

/-- The event of turn `k` that performs next in this cycle, with what orders it among the writes of its instant. -/
def Core.dueEvent (now k : Nat) (c : Core) : Option (Nat × Instr) :=
  c.flights.foldl (fun m f => (f.streams.zipIdx).foldl (fun m p =>
    if p.1.live && p.1.due ≤ now && p.1.eff.turn == k then lesser m (rankOf f.seqno f.cls) (p.1.eff.row f.uid p.2) else m) m)
    none

/-- An effect of turn `k`. -/
def eventDue (s : State) (k : Nat) (t : Seat) : Option Pick := (t.c.dueEvent s.now k).bind fun e => t.runs s e.2

/-- What orders an input's write of scratchpad: its dhget's issue and class; a peer result has no issue on the core (R26,
R95). [DEDUCED: log 5] -/
def Core.inputRank (c : Core) (i : Instr) : Nat :=
  match i with
  | .hostDataArrival u _ _ => (c.flight? u).elim 0 fun f => rankOf f.seqno f.cls
  | _ => 0

/-- The input that writes next in this cycle: its rank and its place. -/
def inputDue (s : State) (t : Seat) : Option (Nat × Nat) :=
  (s.inbox.zipIdx).foldl (fun m p =>
    if p.1.at_ ≤ s.now && s.inTurnOf t p.1 then lesser m (t.c.inputRank p.1.what) p.2 else m) none

/-- A write of this instant: an operation's event, or the bytes of a host's input, in the order of R26.
[DEDUCED: log 5] -/
def writeDue (s : State) (t : Seat) : Option Pick :=
  match inputDue s t, t.c.dueEvent s.now 0 with
  | some i, some e => if i.1 < e.1 then s.takeInput i.2 else t.runs s e.2
  | some i, none => s.takeInput i.2
  | none, _ => eventDue s 0 t

/-- A deferred change. -/
def pendDue (s : State) (t : Seat) : Option Pick := (t.c.duePend s.now).bind fun i => t.runs s (.scalarResultWrite i)

/-- A host transfer whose bytes have all moved (R110). -/
def transferDue (s : State) (t : Seat) : Option Pick :=
  (t.c.flights.find? (Flight.hostDone s.now)).bind fun f => t.runs s (.hostTransferComplete f.uid)

/-! ## The bundle at the program counter -/

/-- Syllables that act before the reads of their own issue cycle: vjoin clears the marks that a read at that instant
would meet, a pop comes before an append, and a slot is loading from a wld's issue (R37, R97, R187).
[DEDUCED: log 5] -/
def isEarly (i : Instr) : Bool :=
  match i with
  | .loopq _ | .vjoin | .wld .. | .sqld .. => true
  | _ => false

/-- The first fault of a bundle's decoding, by position, in the order of R136: of a word, or of an instruction.
[DEDUCED: log 123] -/
def firstFault (c : Core) : List Slot → Option (Nat × (Instr ⊕ Nat))
  | [] => none
  | t :: ts =>
    match readSlot c.phys.sysMode t with
    | .inr d => some (t.pos, .inr d)
    | .inl i =>
      if !c.exempt i && (illegal { c with seq := { c.seq with pos := t.pos } } i).isSome then some (t.pos, .inl i)
      else firstFault c ts

/-- A drain of an elastic furrow whose count is not met (R59). [DEDUCED: log 76] -/
def unmetDrain (x : Ctx) (c : Core) (l : List (Nat × Instr)) : Option (Nat × Instr) :=
  l.find? fun p => match p.2 with
    | .drain n => (x.own c).elastic && !c.phys.sysMode && drainShort c n && (timingCode x c p.2).isNone
    | _ => false

/-- The order in which a bundle's syllables take their effect: the early ones, then the others by class (R26). -/
def issueOrder (l : List (Nat × Instr)) : List (Nat × Instr) :=
  (l.filter fun p => isEarly p.2) ++
  (List.range 8).flatMap fun k => l.filter fun p => !isEarly p.2 && encodeSyllable p.2 / 268435456 % 8 == k

/-- A fault of the bundle's decoding that no syllable's own row raises. -/
def Core.decodeFault (x : Ctx) (cause detail pos : Nat) (c : Core) : Core :=
  ({ c with seq := { c.seq with pos := pos, suppressed := true } }).raise x
    { cause := cause, detail := detail, pos := pos, bundle := some c.seq.bundle }

/-- Whether the bundle at the core's program counter holds an early syllable. -/
def Core.earlyBundle (c : Core) : Bool := (instrsAt c.code c.seq.pc).any fun p => isEarly p.2

/-- The bundle's syllables fetched from the code store; `false` where a unit of it holds an error that cannot be corrected,
which is raised (R304, R305). System code comes from a store of its own (R288). -/
def Core.fetched (x : Ctx) (len : Nat) (c : Core) : Core × Bool :=
  if c.phys.sysMode then (c, true)
  else c.readUnits x { cause := 0x0D, bundle := some c.seq.pc } 5 (unitsOf (4 * c.seq.pc) (4 * len))

/-- The core's bundle issues: one that cannot be read has no effect (R304), a decode fault is raised alone (R136), a drain
that must wait acts alone (R59), and else the first syllable takes its effect. [DEDUCED: log 18, 115] -/
def issueBundle (s : State) (t : Seat) (c : Core) : Pick :=
  let x := t.x
  let pc := c.seq.pc
  let r := c.fetched x (bundleLen c.code pc)
  let c := r.1
  let at_ (len : Nat) : Core := { c with seq := { c.seq with bundle := pc, len := len, pos := 0, issuedAt := some s.now } }
  if !r.2 then
    let c := at_ (bundleLen c.code pc)
    (s.sit t.pos { c with seq := { c.seq with suppressed := true } }, none)
  else match fetchAt c.code pc with
  | .entry d => (s.sit t.pos ((at_ 0).entryFault x d (some pc)), none)
  | .framing d len => (s.sit t.pos ((at_ len).decodeFault x 3 d 0), none)
  | .bundle len true _ => (s.sit t.pos ((at_ len).decodeFault x 1 3 0), none)
  | .bundle len false ts =>
    let c' := at_ len
    match firstFault c' ts with
    | some (p, .inr d) => (s.sit t.pos (c'.decodeFault x 1 d p), none)
    | some (p, .inl i) => (s.sit t.pos { c' with seq := { c'.seq with pos := p, suppressed := true } }, some i)
    | none =>
      let l := instrsAt c.code pc
      match unmetDrain x c l with
      | some (p, i) => (s.sit t.pos { c with seq := { c.seq with bundle := pc, pos := p } }, some i)
      | none =>
        let c' := c'.busy 0
        match issueOrder l with
        | (p, i) :: rest => (s.sit t.pos { c' with seq := { c'.seq with pos := p, queue := rest } }, some i)
        | [] => (s.sit t.pos c', none)

/-! ## What an interlocked launch waits for (R63, R64, R98, R191) -/

/-- The view and the lines that an operation will read in scratchpad (R98). [DEDUCED: log 73] -/
def readLines (c : Core) (f : Flight) : Bool × List Nat :=
  if f.cls = 4 then (f.swz, linesOf f.allAddrs)
  else match f.instr with
    | .dcp .. | .dput .. | .dred .. | .dhput .. => (false, linesOf (addrsOf false f.a f.len))
    | .dgln .. =>
      let list := addrsOf false (localAddr f.x) (2 * f.rows)
      let e (i : Nat) : Nat := leNat ((list.drop (2 * i)).take 2 |>.map fun a => c.sp.mem.get 0 a)
      (false, linesOf (list ++ (List.range f.rows).flatMap fun i => addrsOf false (f.a + e i * f.len) f.len))
    | _ => (false, [])

/-- The view and the lines that an operation in flight has still to write in scratchpad (R98). [DEDUCED: log 73] -/
def writeLines (f : Flight) : Bool × List Nat :=
  match f.instr with
  | .dhget .. =>
    let left := (List.range f.len).filter fun o => !f.got.any fun r => decide (r.1 ≤ o ∧ o < r.1 + r.2)
    (false, if f.open_ then linesOf (left.map fun o => (f.addr + o) % 4194304) else [])
  | .dcp .. | .dgln .. =>
    (false, linesOf (f.streams.flatMap fun t =>
      if t.eff == .blkWrite then ((List.range t.n).drop t.k).flatMap (blockDest f) else []))
  | _ =>
    (f.swz, linesOf (f.streams.flatMap fun t =>
      if t.eff == .spWrite then ((List.range t.n).drop t.k).flatMap f.rowAddrs else []))

/-- The operations that a syllable of the bundle at `pc` would put in flight. -/
def State.wouldFly (s : State) (n : Nat) (c : Core) (i : Nat × Instr) : List Flight :=
  match exec i.2 (s.sit n { c with seq := { c.seq with bundle := c.seq.pc, pos := i.1 } }) with
  | .next s' => (s'.actor.elim [] (·.flights)).filter fun f => c.nextUid ≤ f.uid
  | _ => []

/-- The lines that the bundle's reads will move, in a view. -/
def State.bundleReads (s : State) (n : Nat) (c : Core) (l : List (Nat × Instr)) : List (Bool × List Nat) :=
  l.flatMap fun i => (s.wouldFly n c i).map (readLines c)

/-- A mark of the other view stands on one of the lines, and its last write performed less than 4 cycles ago. -/
def markedLately (now : Nat) (c : Core) (r : Bool × List Nat) : Bool :=
  (if r.1 then c.sp.wl else c.sp.ws).any fun e => now < e.2 + 4 && r.2.contains e.1

/-- The lines that this furrow's merge will write, in the linear view (R97, R98, R103). -/
def mergeLines (c : Core) : List Nat :=
  if c.net.lateFault then []
  else linesOf (c.net.prev.flatMap fun r => match r.kind with
    | .counter .. => []
    | _ => addrsOf false r.addr r.bytes.length)

/-- A write of the other view to one of the lines has issued and not performed. [DEDUCED: log 72] -/
def writePending (c : Core) (r : Bool × List Nat) : Bool :=
  (c.flights.any fun f => let w := writeLines f; w.1 != r.1 && w.2.any r.2.contains) ||
  (r.1 && (mergeLines c).any r.2.contains)

/-- A read of the bundle must wait: until 4 cycles after the last write of the other view to its lines performs, a write
that a vjoin of the bundle itself clears apart (R98). [DEDUCED: log 72, 73] -/
def viewHolds (now : Nat) (c : Core) (l : List (Nat × Instr)) (rs : List (Bool × List Nat)) : Bool :=
  rs.any fun r => writePending c r || (!(l.any fun i => i.2 == .vjoin) && markedLately now c r)

/-- The lines whose marks the hardware clears before a read that failed the check issues (R98). [DEDUCED: log 72] -/
def clearedLines (c : Core) (rs : List (Bool × List Nat)) : List Nat :=
  rs.flatMap fun r => if (if r.1 then c.sp.wl else c.sp.ws).any fun e => r.2.contains e.1 then r.2 else []

/-- The marks of some lines cleared. -/
def Scratch.clear (ls : List Nat) (m : Scratch) : Scratch :=
  if ls.isEmpty then m
  else { m with wl := m.wl.filter fun e => !ls.contains e.1, ws := m.ws.filter fun e => !ls.contains e.1 }

/-- The handle on which a syllable is a producer (R99). -/
def producerOf (i : Instr) : Option (BitVec 4) :=
  match i with
  | .sth _ h _ _ | .stth _ h _ => some h
  | .dcp _ h _ e => if e = 0 then some h else none
  | .chrdHandle _ n h _ _ => if n = 15 then some h else none
  | _ => none

/-- The core once the bundle's producers of an earlier class than `i`'s have issued. -/
def Core.afterProducers (x : Ctx) (l : List (Nat × Instr)) (i : Instr) (c : Core) : Core :=
  let cls (i : Instr) : Nat := encodeSyllable i / 268435456 % 8
  { c with flights := c.flights ++ (l.filter fun p => decide (cls p.2 < cls i)).filterMap fun p =>
      (producerOf p.2).map fun h => { c.newFlight x p.2 (cls p.2) with prod := true, handle := some h.toNat } }

/-- A condition of R63 or R191 on which the core holds; of two producers of the bundle on one handle the later meets its
need only beside the earlier (R14, R99). [DEDUCED: log 39] -/
def timingHolds (x : Ctx) (c : Core) (l : List (Nat × Instr)) : Bool :=
  l.any fun i => (timing x (c.afterProducers x l i.2) i.2).any fun p => p.1 && p.2.2

/-- The bundle has a decode fault, which is raised without a hold (R136). -/
def Core.decodesBadly (c : Core) : Bool :=
  match fetchAt c.code c.seq.pc with
  | .bundle len false ts => (firstFault { c with seq := { c.seq with bundle := c.seq.pc, len := len } } ts).isSome
  | _ => true

/-- The field-hold term of R64. -/
def fieldHold (s : State) (t : Seat) : Bool :=
  (s.coresOf t.c.lid).all fun d => match d.seq.hist[14]? with
    | some y => t.c.fcycle t.x ≤ y + 15
    | none => true

/-! ## Issue -/

/-- The core may try to issue: it has not ended its part, and has not issued or been refused in this cycle (R49, R67). -/
def Core.ready (now : Nat) (c : Core) : Bool :=
  c.seq.queue.isEmpty && c.seq.len == 0 && !c.seq.stuck && c.seq.fend.isNone &&
  c.seq.issuedAt != some now && c.seq.triedAt != some now

/-- A hold for scales that no sqld brings raises the queue imbalance, once, and names the syllable that holds; the hold lasts
(R34, R63, R191). [DEDUCED: log 74] -/
def Core.starve (x : Ctx) (l : List (Nat × Instr)) (c : Core) : Core :=
  match l.find? fun p => scalesStarve x c p.2 with
  | some p =>
    if c.seq.starved then c
    else ({ c with seq := { c.seq with starved := true } }).raise x
      { cause := 0x0B, detail := 1, kind := 1, engine := engineOf p.2, pos := p.1, bundle := some c.seq.pc }
  | none => { c with seq := { c.seq with starved := false } }

/-- The core is refused issue in this cycle. -/
def refused (s : State) (t : Seat) (held frozen : Bool) : Pick :=
  (s.sit t.pos { t.c with seq := { t.c.seq with held := held, frozen := frozen, triedAt := some s.now } }, none)

/-- The count of the drain a core waits on is met (R59). -/
def drainMet (c : Core) (l : List (Nat × Instr)) : Bool :=
  !(l.any fun p => match p.2 with
    | .drain n => drainShort c n
    | _ => false)

/-- The attempt of a core to issue its next bundle (R59, R64, R67). -/
def attempt (s : State) (t : Seat) : Pick :=
  let c := t.c
  let l := instrsAt c.code c.seq.pc
  if c.seq.waiting then
    if drainMet c l then ({ s with cur := t.pos }, some .drainRelease) else refused s t c.seq.held c.seq.frozen
  else if !t.x.la.interlocked || c.phys.sysMode then issueBundle s t c
  else if c.seq.frozen then
    if fieldHold s t then ({ s with cur := t.pos }, some .freezeRelease) else refused s t false true
  else
    let bad := c.decodesBadly
    let rs := if bad then [] else s.bundleReads t.pos c l
    if !bad && (timingHolds t.x c l || viewHolds s.now c l rs) then refused s { t with c := c.starve t.x l } true false
    else if c.seq.held then ({ s with cur := t.pos }, some .holdRelease)
    else if !fieldHold s t then refused s t false true
    else issueBundle s t { c with sp := c.sp.clear (clearedLines c rs) }

/-- The sequencer's next act, its early syllables' turn. -/
def earlyDue (s : State) (t : Seat) : Option Pick :=
  match t.c.seq.queue with
  | (p, i) :: rest =>
    if isEarly i then some (s.sit t.pos { t.c with seq := { t.c.seq with pos := p, queue := rest } }, some i) else none
  | [] => if t.c.ready s.now && t.c.earlyBundle then some (attempt s t) else none

/-- The sequencer's next act. -/
def issueDue (s : State) (t : Seat) : Option Pick :=
  match t.c.seq.queue with
  | (p, i) :: rest => some (s.sit t.pos { t.c with seq := { t.c.seq with pos := p, queue := rest } }, some i)
  | [] =>
    if t.c.seq.len != 0 then some (s.sit t.pos t.c.retire, none)
    else if t.c.ready s.now then some (attempt s t)
    else none

/-! ## The checks of a headland (R53, R55 to R57) -/

/-- A core of a fixed headland furrow that has passed origin+L−32 without a head. [DEDUCED: log 23, 76] -/
def headDue (s : State) (t : Seat) : Option Pick :=
  let c := t.c
  let x := t.x.own c
  if x.la.phase == .running && descHeadland x.la.desc && !x.elastic && c.seq.head.isNone && !c.seq.stuck &&
      !c.seq.checked.contains 1 && c.fcycle x == x.len - 32 &&
      (c.seq.issuedAt == some s.now || c.seq.fend.isSome) then
    t.runs s .missingHead
  else none

/-- The compare of a headland furrow. -/
def compareDue (s : State) (la : Launch) : Option Pick :=
  if la.phase == .running && descHeadland la.desc && !la.compared && (s.compareAt la).any fun t => t ≤ s.now then
    s.runs (.headlandHashCompare la.id)
  else none

/-! ## A cycle passes -/

/-- The unit classes that a core keeps busy in this cycle (R260). -/
def Core.busyUnits (x : Ctx) (c : Core) : BitVec 8 :=
  c.seq.busy ||| (if rowPortBusy x c || weightPortHeld x c then 4 else 0) ||| (if c.chan.busBusy x.now then 64 else 0) |||
    (if x.now < c.seq.mergeUntil then 128 else 0)

/-- A survey field one higher, saturating (R260). -/
def satInc (v : BitVec 32) : BitVec 32 := if v = BitVec.allOnes 32 then v else v + 1

/-- The survey table after a cycle of one core (R57, R260). [DEDUCED: log 135] -/
def Partition.count (x : Ctx) (c : Core) (p : Partition) : Partition :=
  let plot := (c.py / 2 - p.py) * p.pw + (c.px / 4 - p.px)
  let b := c.busyUnits x
  { p with survey := (List.range 8).foldl (fun l u =>
      let k := (plot * 256 + c.seq.furrow) * 8 + u
      let e := look (0#32, 0#32) l k
      assign k (if b.getLsbD u then (e.1, satInc e.2) else (satInc e.1, e.2)) l) p.survey }

/-- A core after a cycle: passes whose last update has performed are past, and a held or frozen core of an interlocked
launch has not advanced (R64, R190). [DEDUCED: log 76] -/
def Core.passCycle (x : Ctx) (c : Core) : Core :=
  let q := c.seq
  let lost := x.la.interlocked && (q.held || q.frozen) && q.issuedAt != some x.now
  { c with
    flights := c.flights.filter Flight.live
    seq := { q with
      busy := 0
      fcycleLost := if lost then q.fcycleLost + 1 else q.fcycleLost
      hist := if x.la.interlocked then (c.fcycle x :: q.hist).take 15 else [] } }

/-- The next cycle: the survey tables have counted this one. -/
def State.tick (s : State) : State :=
  let run (c : Core) : Bool := (s.ctx c).la.phase == .running
  { s with
    now := s.now + 1
    cores := s.cores.map fun c =>
      if run c then c.passCycle (s.ctx c) else { c with flights := c.flights.filter Flight.live, seq := { c.seq with busy := 0 } }
    parts := s.parts.map fun p =>
      (s.cores.filter fun c => run c && c.lid.part.toNat == p.number).foldl (fun p c => p.count (s.ctx c) c) p }

/-! ## The choice -/

/-- What can happen in a cycle, in the order in which it does. [DEDUCED: log 5] -/
def turnsOf : List (State → List Seat → Option Pick) :=
  [fun s _ => firstPick (stopDue s) s.launches,
   fun s _ => s.nextHeld,
   fun s ts => s.nextInput ts,
   fun s _ => firstPick (windowDue s) s.parts,
   fun s _ => firstPick (launchDue s) s.launches,
   fun s ts => firstPick (timetableDue s ts) s.launches,
   fun s _ => startDue s,
   fun s ts => firstPick (deadlineDue s) ts,
   fun s ts => firstPick (mergeDue s) ts,
   fun s ts => firstPick (arrivalDue s) ts,
   fun s ts => firstPick (pendDue s) ts,
   fun s ts => firstPick (writeDue s) ts,
   fun s ts => firstPick (transferDue s) ts,
   fun s ts => firstPick (earlyDue s) ts,
   fun s ts => firstPick (eventDue s 1) ts,
   fun s ts => firstPick (eventDue s 2) ts,
   fun s ts => firstPick (issueDue s) ts,
   fun s ts => firstPick (headDue s) ts,
   fun s _ => firstPick (compareDue s) s.launches]

/-- What happens next: the first of these, or else the cycle passes. [DEDUCED: log 5; DESIGN CHOICE: log 101] -/
def State.pick (s : State) : Pick := (firstPick (fun f => f s s.seats) turnsOf).getD (s.tick, none)

/-! ## A program placed from outside (the launch's own path stands in Machine/Launch.lean) -/

/-- A launch of one core that runs elastic furrow 0 from this cycle. [DEDUCED: log 1] -/
def placedLaunch (now : Nat) : Launch :=
  { id := { part := 0, acc := 0 }, cls := 1, phase := .running, origin := now, fresh := false
    furrows := [{ num := 0, desc := 0x8000002000FFFFFF#64, done := true }] }

/-- The first core of the state, or a fresh one, at the start of a bundle of word `w`, with nothing else in flight.
[DEDUCED: log 1] -/
def State.placedCore (w : BitVec 32) (s : State) : Core :=
  let c := s.cores.headD { lid := { part := 0, acc := 0 }, index := 0, px := 0, py := 0 }
  { c with
    lid := { part := 0, acc := 0 }, index := 0, code := [w], pends := [], flights := [], trap := none
    net := {}, chan := { c.chan with banks := c.chan.banks.map fun b => { b with last := s.now } }
    seq := { loops := c.seq.loops }
    phys := { c.phys with halted := none, flips := c.phys.flips.filter fun e => e.1 != 5 } }

/-- The partition that the launch runs in, its system window already served. -/
def State.placedPart (s : State) : Partition :=
  { s.parts.headD { number := 0, px := 0, py := 0, pw := 1, ph := 1, class0 := false } with
    number := 0, base := s.now, window := some s.now }

/-- The state with a bundle of the one word `w` loaded as a launch's code, about to issue. [DEDUCED: log 1] -/
def State.placeWord (w : BitVec 32) (s : State) : State :=
  { s with
    inbox := [], images := [], mgmt := { s.mgmt with held := [] }, cur := 0
    launches := [placedLaunch s.now], parts := [s.placedPart], cores := [s.placedCore w] }

end Sys2Proof.Machine
end

