-- ==== Sys2Proof/Machine/Step.lean ====
section
/-!
DEFINITION. The step of the module: the row that Machine/Pick.lean chooses, run by the one dispatch.
-/

namespace Sys2Proof.Machine

/-- One step: what comes next performs, or, where it runs no row, has been performed. -/
def step (s : State) : Host.Outcome State Fault Refusal :=
  match s.pick with
  | (s', some i) => exec i s'
  | (s', none) => .next s'

/-- The state with the instruction of word `w` where the next step fetches. [DEDUCED: log 1] -/
def State.withFetchWord (s : State) (nbits w : Nat) : State := s.placeWord (BitVec.ofNat 32 (w % 2 ^ min nbits 31 + 2 ^ 31))

end Sys2Proof.Machine
end

