-- ==== Sys2Proof/Safety.lean ====
section
/-!
DEFINITION. The terms in which statements about the machine are made: when a syllable's issue is clear, what a step of
an operation in flight starts from, when nothing comes before the sequencer's turn, and the invariants a module keeps.
-/

namespace Sys2Proof.Machine

/-! ## Issue and events -/

/-- Syllable `i` meets every condition of its issue at the acting core `c`: no illegal-syllable cause (R136, R137), and
no other fault of its issue (R63, R265), which system code does not raise of what a context has (R288). -/
def Clear (s : State) (c : Core) (i : Instr) : Prop :=
  s.actor = some c ∧ illegal c i = none ∧ (timingCode (s.ctx c) c i = none ∨ c.exempt i = true)

/-- The core once the syllable now taking its effect owes the change `w`, due `k` cycles after `now` (R11, R138). -/
def Core.owes (now k cls : Nat) (w : Deferred) (c : Core) : Core :=
  { c with pends := c.pends ++ [⟨now + k, now, cls, c.seq.bundle, c.seq.pos, w⟩] }

/-- Syllable `i` completes: the acting core becomes `c'`, and nothing else of the module changes. -/
def Makes (s : State) (i : Instr) (c' : Core) : Prop := exec i s = .next (s.setActor c')

/-- Syllable `i` completes and owes gd := `v`, `k` cycles after its issue. -/
def GivesG (s : State) (c : Core) (i : Instr) (k : Nat) (d : BitVec 6) (v : Word) : Prop :=
  Makes s i (c.owes s.now k 1 (.g d v))

/-- Stream `j` of operation `f`, the acting core's operation `u`, stands at event `k`. -/
def EventAt (s : State) (c : Core) (u j : Nat) (f : Flight) (k : Nat) : Prop :=
  s.actor = some c ∧ c.flight? u = some f ∧ (f.streams[j]?).map (·.k) = some k

/-- Operation `f` may read scratchpad at the addresses `as`: no stored unit is in error, no address lies in the landing area or
outside a class-0 footprint, and in an exact launch none in a line marked in the other view (R97, R100, R257, R304). -/
abbrev Reads (s : State) (c : Core) (f : Flight) (as : List Nat) : Prop :=
  (c.phys.flips = [] ∧ f.codes = []) ∧ (∀ a ∈ as, a < (s.ctx c).landBase ∧ (s.ctx c).outside a = false) ∧
  ((s.ctx c).la.interlocked = false → ∀ a ∈ as, ∀ e ∈ (if f.swz then c.sp.wl else c.sp.ws), e.1 ≠ a / 4096)

/-- The core may write scratchpad at the addresses `as` (R100, R257). -/
abbrev Writes (s : State) (c : Core) (as : List Nat) : Prop :=
  ∀ a ∈ as, a < (s.ctx c).landBase ∧ (s.ctx c).outside a = false

/-- The core as an event of stream `j` of operation `f` finds it: the operation has moved on by one event. -/
def Core.moved (f : Flight) (j : Nat) (c : Core) : Core := c.setFlight (f.next j)

/-- The acting core takes trap record `t` and nothing else happens. -/
def Traps (s : State) (c : Core) (i : Instr) (t : TrapRec) : Prop := Makes s i (c.raise (s.ctx c) t)

/-- Syllable `i` completes by putting one operation in flight, of which `P` holds; else the acting core becomes what
`base` gives. -/
def Flies (s : State) (c : Core) (i : Instr) (base : Flight → Core) (P : Flight → Prop) : Prop :=
  ∃ f : Flight, f.uid = c.nextUid ∧ f.instr = i ∧ f.issue = s.now ∧ f.seqno = s.now ∧ f.bundle = c.seq.bundle ∧
    f.pos = c.seq.pos ∧ P f ∧
    Makes s i { base f with flights := c.flights ++ [f], nextUid := c.nextUid + 1 }

/-- A transfer of class L or W completes its issue: its operation is in flight, and a watchpoint match of its addresses
has been raised (R286). -/
def Transfers (s : State) (c : Core) (i : Instr) (write : Bool) (P : Flight → Prop) : Prop :=
  Flies s c i (fun f => c.watch (s.ctx c) write .core f.allAddrs fun _ => c.preciseTrap i 0x10 0) P

/-- The number of the first condition that holds; none where none does. -/
def FirstOf (l : List (Prop × Nat)) : Option Nat → Prop
  | none => ∀ q ∈ l, ¬q.1
  | some d => ∃ a p b, l = a ++ (p, d) :: b ∧ p ∧ ∀ q ∈ a, ¬q.1

/-- When syllable `i` may not issue on the acting core. `ill` holds its illegal-syllable causes and `tim` its other faults of
issue, in the order of their details; those marked in `tim` an interlocked launch waits on. The first cause of `ill` that holds
traps; with none, what a launch waits on holds the bundle, and the lowest detail of the others traps; where nothing holds the
syllable issues (R63, R66, R136, R137, R265). System code raises no detail 6 and no other fault of what a context has (R288). -/
def TrapsWhere (s : State) (c : Core) (i : Instr) (ill : List (Prop × Nat)) (tim : List (Prop × Nat × Bool)) : Prop :=
  let waits (q : Prop × Nat × Bool) : Prop := (s.ctx c).la.interlocked = true ∧ q.2.2 = true
  (∀ d, FirstOf ill (some d) → d ≠ 6 ∨ c.exempt i = false → Traps s c i (c.preciseTrap i 1 d)) ∧
  (FirstOf ill none → c.exempt i = false → ∀ a q b, tim = a ++ q :: b → q.1 →
    (waits q → timingHolds (s.ctx c) c [(c.seq.pos, i)] = true) ∧
    (¬waits q → (∀ r ∈ a, r.1 → waits r) → Traps s c i (c.preciseTrap i 4 q.2.1))) ∧
  (FirstOf ill none → (∀ q ∈ tim, ¬q.1) → Clear s c i)

/-- What a core's registers, queues and timing models hold. -/
def SameRegisters (c c' : Core) : Prop :=
  c'.regs = c.regs ∧ c'.q = c.q ∧ c'.chan = c.chan ∧ c'.wp = c.wp ∧ c'.windows = c.windows ∧ c'.net = c.net ∧
  c'.seq.loops = c.seq.loops ∧ c'.seq.pc = c.seq.pc

/-- What a core's scratchpad, vector file, masks, tiles, matrix array and home channel hold. -/
def SameMemories (c c' : Core) : Prop :=
  c'.sp.mem = c.sp.mem ∧ c'.vec = c.vec ∧ c'.arr = c.arr ∧ c'.phys.hbm = c.phys.hbm

/-- What a core's write to its scratchpad leaves of its registers, memories and timing models, the registers of `regs` and
the unit classes that are busy (R260) apart. -/
def SameBesides (c c' : Core) : Prop :=
  c'.vec = c.vec ∧ c'.arr = c.arr ∧ c'.phys.hbm = c.phys.hbm ∧ c'.q = c.q ∧ c'.chan = c.chan ∧ c'.net = c.net ∧
  c'.wp = c.wp ∧ c'.windows = c.windows ∧ c'.pends = c.pends ∧ c'.seq = { c.seq with busy := c'.seq.busy }

/-- What an event of stream `j` of operation `f` leaves of the registers. Where the operation is a producer on a handle and its
last write is `done`, the handle's fill pointer and count move by one, its drain pointer and layout as they stand; with an
earlier producer on the handle in flight, or with every slot filled, neither moves and the timing fault is raised, detail
0x10 or 0x13 (R14, R99, R208, R265). No other register changes. -/
def Completes (s : State) (c : Core) (f : Flight) (j : Nat) (done : Prop) (c' : Core) : Prop :=
  let h := BitVec.ofNat 4 (f.handle.getD 0)
  let v := c.regs.handle h
  let produces := f.prod = true ∧ f.handle ≠ none ∧ done
  let earlier := ∃ g ∈ (c.moved f j).flights, g.prod = true ∧ g.handle = some h.toNat ∧
    (g.seqno < f.seqno ∨ (g.seqno = f.seqno ∧ g.cls < f.cls))
  let faults (detail : Nat) : Prop := c'.regs = c.regs ∧
    (c.trap = none → c.phys.sysMode = false → (s.ctx c).la.phase = .running →
      ∃ t, c'.trap = some t ∧ t.cause = 4 ∧ t.detail = detail ∧ t.kind = 1 ∧ t.bundle = some f.bundle)
  (¬produces → c'.regs = c.regs) ∧
  (produces → earlier → faults 0x10) ∧
  (produces → ¬earlier → v.count ≤ v.filled → faults 0x13) ∧
  (produces → ¬earlier → v.filled < v.count →
    c'.regs = c.regs.writeH h (c.regs.hw0 h) (handleW1 ((v.fill + 1) % v.count) v.drain (v.filled + 1)))

/-- Byte `a` of space `p` of a vector file. -/
def VecFile.byte (p : Space) (a : Nat) (v : VecFile) : Byte := (v.mem p).get 0 a

/-- Element `p` of the `e`-byte elements of register `r` of a space (R7, R161). -/
def VecFile.packed (s : Space) (r e p : Nat) (v : VecFile) : Nat :=
  leNat ((List.range e).map fun k => v.byte s (r * 16384 + p * e + k))

/-- Bit `p` of mask `n`; m0 is all ones (R28, R163). -/
def VecFile.bit (n p : Nat) (v : VecFile) : Bool := n == 0 || (v.byte .m (n * 2048 + p / 8)).getLsbD (p % 8)

/-- The vector file with what row `j` of operation `f` writes, as its sources stand now. -/
def Core.rowWritten (x : Ctx) (f : Flight) (j : Nat) (c : Core) : VecFile :=
  (c.vrow x f j).foldl (fun v r => v.putRun r) c.vec

/-- Some run covers byte `a` of space `p`. -/
def Covered (rs : List Run) (p : Space) (a : Nat) : Prop :=
  ∃ r ∈ rs, r.space = p ∧ r.addr ≤ a ∧ a < r.addr + r.bytes.length

/-- Whether two words meet the condition of code `f`, as naturals when `n` is 1 (R122). -/
def Compares (f : Nat) (n : BitVec 1) (A B : Word) : Bool :=
  match f, n == 1 with
  | 0, _ => A == B
  | 1, _ => A != B
  | 2, true => A.toNat < B.toNat
  | 2, false => A.toInt < B.toInt
  | 3, true => A.toNat ≤ B.toNat
  | 3, false => A.toInt ≤ B.toInt
  | 4, true => B.toNat < A.toNat
  | 4, false => B.toInt < A.toInt
  | _, true => B.toNat ≤ A.toNat
  | _, false => B.toInt ≤ A.toInt

/-- The signed integer that a finite number is at scale 2^g, where its own scale is no finer. -/
def Num.at (g : Int) : Num → Option Int
  | .fin s m e => if m = 0 then some 0 else if g ≤ e then some (scaled s m e g) else none
  | _ => none

/-! ## What a merge leaves -/

/-- Bytes `bs` at the addresses `as`, one after the other, over what stands there. -/
def overlay (as : List Nat) (bs : List Byte) (m : Nat → Byte) : Nat → Byte :=
  (as.zip bs).foldl (fun m p a => if a = p.1 then p.2 else m a) m

/-- Bytes `bs` at byte `addr` of a core's scratchpad, in the linear view (R93). -/
def landsAt (addr : Nat) (bs : List Byte) (m : Nat → Byte) : Nat → Byte := overlay (addrsOf false addr bs.length) bs m

/-- The bytes of records written one after the other (R103). -/
def writtenBy (l : List Rec) (m : Nat → Byte) : Nat → Byte := l.foldl (fun m r => landsAt r.addr r.bytes m) m

/-- The results of reduce keys `ks` of the records `l`, each over the bytes of its records' place (R105). -/
def reducedBy (n : Nat) (l : List Rec) (ks : List Nat) (m : Nat → Byte) : Nat → Byte :=
  ks.foldl (fun m k => match sortRecs (l.filter fun r => r.key == some k) with
    | [] => m
    | r :: rs => match r.kind with
      | .reduce _ op f =>
        landsAt r.addr (reduceBytes op.toNat f.toNat n ((r :: rs).map fun q => (q.sender, q.bytes))) m
      | _ => m) m

/-- One atomic applied: the bytes after it, and the returns so far as (destination, address, bytes) (R106, R219). -/
def atomicBy (p : (Nat → Byte) × List (Nat × Nat × List Byte)) (r : Rec) : (Nat → Byte) × List (Nat × Nat × List Byte) :=
  match r.kind with
  | .atomic op f ret =>
    let n := atomWidth f
    let old := leNat ((List.range n).map fun i => p.1 (r.addr + i))
    (landsAt r.addr (leBytes n (atomicNew op f old (leNat r.bytes))) p.1,
     p.2 ++ ret.toList.map fun a => (r.sender, a, leBytes n old))
  | _ => p

/-! ## The turn of the sequencer -/

/-- Nothing is due that comes before the early syllables of a bundle. -/
def State.clearOfWrites (s : State) : Prop :=
  firstPick (stopDue s) s.launches = none ∧ s.nextHeld = none ∧ s.nextInput s.seats = none ∧
  firstPick (windowDue s) s.parts = none ∧ firstPick (launchDue s) s.launches = none ∧
  firstPick (timetableDue s s.seats) s.launches = none ∧ startDue s = none ∧
  firstPick (deadlineDue s) s.seats = none ∧ firstPick (mergeDue s) s.seats = none ∧
  firstPick (arrivalDue s) s.seats = none ∧ firstPick (pendDue s) s.seats = none ∧
  firstPick (writeDue s) s.seats = none ∧ firstPick (transferDue s) s.seats = none

/-- Nothing is due that comes before the other syllables of a bundle. -/
def State.clearOfReads (s : State) : Prop :=
  s.clearOfWrites ∧ firstPick (earlyDue s) s.seats = none ∧ firstPick (eventDue s 1) s.seats = none ∧
  firstPick (eventDue s 2) s.seats = none

/-- The bundle of `len` syllables at the program counter of a seat's core, whose first syllable to act is `i` at position
`p`, with `rest` to follow, can be read and decodes, and waits for no batch (R12, R26, R304). -/
def Seat.decodes (t : Seat) (s : State) (len p : Nat) (i : Instr) (rest : List (Nat × Instr)) : Prop :=
  t.c.fetched t.x (bundleLen t.c.code t.c.seq.pc) = (t.c, true) ∧
  unmetDrain t.x t.c (instrsAt t.c.code t.c.seq.pc) = none ∧
  issueOrder (instrsAt t.c.code t.c.seq.pc) = (p, i) :: rest ∧
  ∃ ts, fetchAt t.c.code t.c.seq.pc = .bundle len false ts ∧
    firstFault { t.c with seq := { t.c.seq with bundle := t.c.seq.pc, len := len, pos := 0, issuedAt := some s.now } } ts = none

/-- The core of a seat takes that bundle: it waits for nothing. -/
def Seat.issues (t : Seat) (s : State) (len p : Nat) (i : Instr) (rest : List (Nat × Instr)) : Prop :=
  t.c.ready s.now = true ∧ t.c.seq.waiting = false ∧ (t.x.la.interlocked = false ∨ t.c.phys.sysMode = true) ∧
  t.decodes s len p i rest

/-- It is the turn of a seat's core to issue its next bundle: no syllable of its last bundle is still to act, and nothing
is due that comes before the bundle's first one. -/
def Seat.onTurn (t : Seat) (s : State) : Prop :=
  t.c.ready s.now = true ∧ t.c.seq.waiting = false ∧
  (t.c.earlyBundle = false ∧ s.clearOfReads ∨ t.c.earlyBundle = true ∧ s.clearOfWrites)

/-- A read of the view and the lines `r` meets a write of the other view that has issued and not performed, or that
performed less than 4 cycles ago and whose mark no vjoin of the bundle clears (R98). -/
def Seat.meetsWrite (t : Seat) (s : State) (r : Bool × List Nat) : Prop :=
  (∃ f ∈ t.c.flights, (writeLines f).1 ≠ r.1 ∧ ∃ n ∈ (writeLines f).2, n ∈ r.2) ∨
  (r.1 = true ∧ ∃ n ∈ mergeLines t.c, n ∈ r.2) ∨
  ((∀ i ∈ instrsAt t.c.code t.c.seq.pc, i.2 ≠ .vjoin) ∧
    ∃ e ∈ (if r.1 then t.c.sp.wl else t.c.sp.ws), s.now < e.2 + 4 ∧ e.1 ∈ r.2)

/-- The checks of an interlocked launch pass for a core's next bundle, which decodes: every syllable's timing condition,
and no read meets a write of the other view (R63, R64, R98, R191). -/
def Seat.checksPass (t : Seat) (s : State) : Prop :=
  let l := instrsAt t.c.code t.c.seq.pc
  timingHolds t.x t.c l = false ∧ ∀ r ∈ s.bundleReads t.pos t.c l, ¬t.meetsWrite s r

/-- The second term of R64: no core of the rectangle's fcycle of 15 cycles ago lies more than 15 behind. -/
def Seat.fieldTerm (t : Seat) (s : State) : Prop :=
  ∀ d ∈ s.cores, d.lid = t.c.lid → ∀ y, d.seq.hist[14]? = some y → t.c.fcycle t.x ≤ y + 15

/-- The core of a seat is refused issue in this cycle. -/
def Seat.refusedAs (t : Seat) (s : State) (held frozen : Bool) : State :=
  s.sit t.pos { t.c with seq := { t.c.seq with held := held, frozen := frozen, triedAt := some s.now } }

/-- The core of a seat of an interlocked launch as its bundle issues: the hardware has cleared the marks of the lines of each
read that meets a mark of the other view (R98). -/
def Seat.cleared (t : Seat) (s : State) : Seat :=
  let rs := s.bundleReads t.pos t.c (instrsAt t.c.code t.c.seq.pc)
  let marked (r : Bool × List Nat) : Bool := (if r.1 then t.c.sp.wl else t.c.sp.ws).any fun e => r.2.contains e.1
  let keep (e : Nat × Nat) : Bool := !rs.any fun r => marked r && r.2.contains e.1
  { t with c := { t.c with sp := { t.c.sp with wl := t.c.sp.wl.filter keep, ws := t.c.sp.ws.filter keep } } }

/-- The core of a seat as the first syllable of its bundle finds it. -/
def Seat.issuing (t : Seat) (s : State) (len p : Nat) (rest : List (Nat × Instr)) : Core :=
  { t.c with seq := { t.c.seq with
      bundle := t.c.seq.pc, len := len, pos := p, issuedAt := some s.now, queue := rest, busy := t.c.seq.busy ||| 1#8 } }

/-! ## Commands -/

/-- The header of a host command (R293). -/
def headerOf (i : Instr) : Option Hdr :=
  match i with
  | .stateReport h | .resendReports h _ _ | .deliverFirmwareImage h _ | .createPartition h _ _ _ _ _ _
  | .destroyPartition h _ | .writePartitionSeedRegister h _ _ | .addToPartitionCounter h _ _ _
  | .addToContextCounter h _ _ _ _ | .writePartitionWindowEntry h _ _ _ _ _ _ | .loadCode h _ _
  | .unregisterSheaf h _ _ | .launch h _ | .cancelQueuedLaunch h _ | .resumeLaunch h _ _ _ | .releaseContext h _
  | .stateRead h _ _ | .stateWrite h _ _ _ | .readSurveyTable h _ | .clearSurveyTable h _
  | .writeProcessGroupEntry h _ _ _ _ _ | .attest h _ _ | .readErrorLogs h _ _ | .clearErrorLogs h _ _
  | .undefinedCommand h _ _ => some h
  | _ => none

/-- A command that is executed as it arrives: the management endpoint is ready, and the firmware unless the command is one
that needs none (`early`); the header is sound, and the number is the next one (R295, R296, R298). -/
def Runs (s : State) (h : Hdr) (early : Bool) : Prop :=
  s.mgmt.usable 0 = true ∧ (s.mgmt.usable 1 = true ∨ early = true) ∧ h.res0 = 0 ∧ h.res1 = 0 ∧ h.res2 = 0 ∧
  h.blen.toNat ≤ 65536 ∧ h.blen.toNat % 8 = 0 ∧ h.csn ≠ 0 ∧ aheadOf s.mgmt.x h.csn = 1

/-- The header's length is that of its command's body, where the specification gives one (R294, R295). -/
def Fits (i : Instr) (h : Hdr) : Prop := ∀ n, bodyLength i = some n → h.blen.toNat = n

/-- The state with the command's number taken (R296). -/
def State.taken (h : Hdr) (s : State) : State :=
  { s with mgmt := { s.mgmt with x := h.csn, held := s.mgmt.held.filter fun p => p.1 != h.csn } }

/-- Command `i` is executed, and the module becomes `t`. -/
def Answers (s : State) (i : Instr) (t : State) : Prop := exec i s = .next t

/-! ## Invariants -/

/-- Every memory of a vector file is in canonical form. -/
def VecFile.canonical (v : VecFile) : Prop :=
  v.v.wf 0 = true ∧ v.b.wf 0 = true ∧ v.m.wf 0 = true ∧ v.tile.wf 0 = true ∧ v.tag.wf 0 = true

/-- Every memory of a matrix array is in canonical form; a scale that nothing has written reads 0x7F (R187). -/
def ArrayState.canonical (a : ArrayState) : Prop := a.acc.wf 0 = true ∧ a.weight.wf 0 = true ∧ a.scale.wf 0x7F = true

/-- Every memory of a context and its core is in canonical form. -/
def Core.canonical (c : Core) : Prop :=
  c.sp.mem.wf 0 = true ∧ c.vec.canonical ∧ c.arr.canonical ∧ c.phys.hbm.wf 0 = true

/-- Every memory of the module is in canonical form. -/
def State.canonical (s : State) : Prop :=
  (∀ c ∈ s.cores, c.canonical) ∧ (∀ c ∈ s.images, c.canonical) ∧ ∀ e ∈ s.idle, e.2.hbm.wf 0 = true

/-- The partitions are legal rectangles of plots, have numbers of their own, and share no plot (R18). -/
def State.partsApart (s : State) : Prop :=
  (s.parts.map (·.number)).Nodup ∧ (∀ p ∈ s.parts, rectLegal p.px p.py p.pw p.ph = true) ∧
  s.parts.Pairwise fun p q => rectApart p q = true

end Sys2Proof.Machine
end

