-- ==== Sys2Proof/Certificates/Slice0/Obligations.lean ====
section
/-!
DEFINITION. The statements for the provers: each is named for what it states, and its docstring cites the rules of
spec/ that it formalises.
-/

open Sys2Proof Sys2Proof.Machine

/-! ## Encoding (R115 to R137) -/

/-- R115 to R132: every syllable, written with its lend field where it has one, decodes to itself, with every operand
at every value its field admits. The all-ones word of an undefined class and opcode is the fill, which is no bundle
(R127). -/
def Obligations.EncodeThenDecode : Prop :=
  ∀ i : Instr, i.encodable = true → i ≠ .undefinedOpcode 0x7FFFFFFF#32 → decodeWords (encode i) = some i

/-- R116 to R132: a syllable's word that the decoder reads as instruction `i`, its lend field included, is the word
that the encoder writes for `i`: no bit of a word is ignored. -/
def Obligations.DecodeThenEncode : Prop :=
  ∀ (w : Nat) (l : Option (BitVec 9)) (i : Instr), w < 2 ^ 31 → w / 2 ^ 28 ≠ 0 →
    decodeSyllable w l = .instr i → encodeSyllable i = w

/-- R145 (fragment 1.5): the four words of the headland fragment, written out from the specification. -/
def Obligations.HeadlandWords : Prop :=
  decodeTableWord 32 0x98000102 = some (.prep 0 1 2) ∧
  decodeTableWord 32 0x97814383 = some (.scmpi 0 0 5 0 7 3 none) ∧
  decodeTableWord 32 0x98400000 = some (.head 0) ∧
  decodeTableWord 32 0x98800000 = some .fend

/-- R130 to R132, R137: a word whose class defines no such opcode raises the illegal-syllable trap, detail 0x01, and
has no other effect. -/
def Claim.UndefinedOpcodeTraps : Prop :=
  ∀ (s : State) (c : Core) (w : BitVec 32), s.actor = some c →
    Traps s c (.undefinedOpcode w) (c.preciseTrap (.undefinedOpcode w) 1 1)

/-- R135: in a launch's code a privileged syllable raises the illegal-syllable trap, detail 0x02, and has no effect. -/
def Claim.PrivilegedSyllablesTrap : Prop :=
  ∀ (s : State) (c : Core) (a d : BitVec 6) (r : BitVec 16), s.actor = some c → c.phys.sysMode = false →
    ∀ i ∈ [Instr.mts a r, .mfs d r, .eret, .ovld a, .itlbinv a, .iptroot a, .ctxid a, .windowTable a r, .errstat a r,
        .einj a r], Traps s c i (c.preciseTrap i 1 2)

/-- R134, R230: nop, hpf and every other syllable of the hint space take their position and do nothing, whatever their
payload. -/
def Claim.HintsDoNothing : Prop :=
  ∀ (s : State) (c : Core) (o : BitVec 6) (p : BitVec 22), s.actor = some c →
    Makes s .nop c ∧ Makes s (.hpf p) c ∧ Makes s (.hintSpace o p) c

/-! ## The sequencer -/

/-- A step runs the instruction that the bundle at the program counter decodes to (R12, R26, R116, R127): with nothing
due before, the first syllable in the order of the classes; and while the bundle has syllables left, the next of them.
The model's choice: that the early syllables come before the reads of their cycle and the others after them, and the
first core's before the next one's, is log 5, and how a bundle that cannot be read is met is log 115. -/
def Claim.BundleRuns : Prop :=
  ∀ (s : State) (t : Seat) (ts : List Seat) (p : Nat) (i : Instr) (rest : List (Nat × Instr)), s.seats = t :: ts →
    (∀ len, s.clearOfReads → t.c.earlyBundle = false → t.issues s len p i rest →
      step s = exec i (s.sit t.pos (t.issuing s len p rest))) ∧
    (∀ len, s.clearOfWrites → t.c.earlyBundle = true → t.issues s len p i rest →
      step s = exec i (s.sit t.pos (t.issuing s len p rest))) ∧
    (s.clearOfReads → t.c.seq.queue = (p, i) :: rest →
      step s = exec i (s.sit t.pos { t.c with seq := { t.c.seq with pos := p, queue := rest } })) ∧
    (s.clearOfWrites → t.c.seq.queue = (p, i) :: rest → isEarly i = true →
      step s = exec i (s.sit t.pos { t.c with seq := { t.c.seq with pos := p, queue := rest } }))

/-- R34, R63, R64, R98, R191: a core of an interlocked launch issues its next bundle when its checks pass and the field-hold
term is true; where a check fails it is held, where the checks pass and the term is false it is frozen, and neither issues
anything in that cycle; one held for scales that no sqld in flight brings raises the queue imbalance, detail 0x01, in the first
cycle of that hold; a held core whose checks pass, and a frozen one whose term is true, is released. As the bundle issues, the
marks of the lines of a read that met one are cleared. A timing condition of one syllable holds the whole bundle. The model's
choice: that such a hold lasts to the stop and when scales are short is log 74, which reads and writes the check of R98 covers
is logs 72 and 73, and that of two producers of a bundle on one handle the later meets its need beside the earlier is log 39.
-/
def Claim.InterlockedIssue : Prop :=
  ∀ (s : State) (t : Seat) (ts : List Seat), s.seats = t :: ts → t.onTurn s → t.x.la.interlocked = true →
    t.c.phys.sysMode = false → t.c.decodesBadly = false →
    let q := t.c.seq
    let l := instrsAt t.c.code q.pc
    let starves (i : Instr) : Prop := let n := scalesNeeded t.c i
      n ≠ 0 ∧ t.c.q.sq.length + scalesComing t.x.now t.c < n + scalesPending t.c ∧
      ∀ f ∈ t.c.flights, ∀ a m h, f.instr ≠ .sqld a m h
    let with_ (b : Bool) : Core := { t.c with seq := { t.c.seq with starved := b } }
    (q.frozen = false → ¬t.checksPass s → (∀ r ∈ l, ¬starves r.2) →
      step s = .next (({ t with c := with_ false } : Seat).refusedAs s true false)) ∧
    (q.frozen = false → ¬t.checksPass s → ∀ a p i b, l = a ++ (p, i) :: b → starves i → (∀ r ∈ a, ¬starves r.2) →
      let r : TrapRec := { cause := 0x0B, detail := 1, kind := 1, engine := engineOf i, pos := p, bundle := some q.pc }
      step s = .next (({ t with c := if q.starved then t.c else (with_ true).raise t.x r } : Seat).refusedAs s true false)) ∧
    (q.frozen = false → t.checksPass s → q.held = true → step s = exec .holdRelease { s with cur := t.pos }) ∧
    (q.frozen = false → t.checksPass s → q.held = false → ¬t.fieldTerm s → step s = .next (t.refusedAs s false true)) ∧
    (q.frozen = true → ¬t.fieldTerm s → step s = .next (t.refusedAs s false true)) ∧
    (q.frozen = true → t.fieldTerm s → step s = exec .freezeRelease { s with cur := t.pos }) ∧
    (∀ (len p : Nat) (i : Instr) (rest : List (Nat × Instr)), q.frozen = false → q.held = false → t.checksPass s →
      t.fieldTerm s → (t.cleared s).decodes s len p i rest →
      step s = exec i (s.sit t.pos ((t.cleared s).issuing s len p rest))) ∧
    ((∀ p ∈ l, producerOf p.2 = none) → ∀ p ∈ l, timingHolds t.x t.c [p] = true → ¬t.checksPass s)

/-- A step runs the bundle at the program counter, and an interlocked launch's core chooses to issue it, to hold or to
freeze (R12, R26, R34, R63, R64, R98, R116, R127, R191). -/
def Obligations.StepRunsTheBundle : Prop :=
  Claim.BundleRuns ∧ Claim.InterlockedIssue

/-- The model's own placement of a program from outside (log entry 1): a word placed where the next step fetches is
run by the next step as the instruction it decodes to, on the first core as it stands; only the sequencer's record of
the bundle has changed. -/
def Obligations.PlacedWordRuns : Prop :=
  ∀ (s : State) (w : Nat) (i : Instr), w < 2 ^ 31 → decodeSyllable w none = .instr i → w / 2 ^ 28 ≠ 0 →
    w ≠ 0x7FFFFFFF →
    ∃ q : Seq, step (s.withFetchWord 32 w) =
        exec i { s.withFetchWord 32 w with cores := [{ s.placedCore (BitVec.ofNat 32 (w + 2 ^ 31)) with seq := q }] } ∧
      q.bundle = 0 ∧ q.pos = 0 ∧ q.queue = [] ∧ q.loops = (s.placedCore 0).seq.loops

/-! ## Class S (R138 to R160) -/

/-- R139: the register arithmetic instructions owe gd the value of the table, after its latency. The operands are read
at issue, and no form faults. -/
def Claim.ScalarArithmetic : Prop :=
  ∀ (s : State) (c : Core) (d a b : BitVec 6), s.actor = some c →
    let A := c.regs.readG a
    let B := c.regs.readG b
    let n := B.toNat % 64
    GivesG s c (.sadd d a b) 1 d (A + B) ∧ GivesG s c (.ssub d a b) 1 d (A - B) ∧
    GivesG s c (.sand d a b) 1 d (A &&& B) ∧ GivesG s c (.sor d a b) 1 d (A ||| B) ∧
    GivesG s c (.sxor d a b) 1 d (A ^^^ B) ∧ GivesG s c (.sshl d a b) 1 d (A <<< n) ∧
    GivesG s c (.sshr d a b) 1 d (A >>> n) ∧ GivesG s c (.ssra d a b) 1 d (A.sshiftRight n) ∧
    GivesG s c (.smul d a b) 3 d (BitVec.ofNat 64 (A.toNat * B.toNat)) ∧
    GivesG s c (.smulh d a b 0) 4 d (BitVec.ofInt 64 (A.toInt * B.toInt / 2 ^ 64)) ∧
    GivesG s c (.smulh d a b 1) 4 d (BitVec.ofNat 64 (A.toNat * B.toNat / 2 ^ 64)) ∧
    GivesG s c (.smin d a b 0) 1 d (if A.toInt ≤ B.toInt then A else B) ∧
    GivesG s c (.smin d a b 1) 1 d (if A.toNat ≤ B.toNat then A else B) ∧
    GivesG s c (.smax d a b 0) 1 d (if A.toInt < B.toInt then B else A) ∧
    GivesG s c (.smax d a b 1) 1 d (if A.toNat < B.toNat then B else A) ∧
    (∃ z, GivesG s c (.sclz d a) 1 d (BitVec.ofNat 64 z) ∧ z ≤ 64 ∧ (∀ k, k < z → A.getLsbD (63 - k) = false) ∧
      (z < 64 → A.getLsbD (63 - z) = true)) ∧
    GivesG s c (.spop d a) 1 d (BitVec.ofNat 64 ((List.range 64).countP fun k => A.getLsbD k))

/-- R139: division by zero gives a quotient of all ones and the dividend as remainder; otherwise the quotient is
truncated toward zero, −2^63 / −1 gives −2^63 and 0, and the natural forms divide naturals. -/
def Claim.ScalarDivision : Prop :=
  ∀ (s : State) (c : Core) (d a b : BitVec 6), s.actor = some c →
    let A := c.regs.readG a
    let B := c.regs.readG b
    (B = 0 → ∀ n, GivesG s c (.sdiv d a b n) 18 d (BitVec.allOnes 64) ∧ GivesG s c (.srem d a b n) 18 d A) ∧
    (B ≠ 0 →
      GivesG s c (.sdiv d a b 0) 18 d (BitVec.ofInt 64 (A.toInt.tdiv B.toInt)) ∧
      GivesG s c (.srem d a b 0) 18 d (BitVec.ofInt 64 (A.toInt.tmod B.toInt)) ∧
      GivesG s c (.sdiv d a b 1) 18 d (BitVec.ofNat 64 (A.toNat / B.toNat)) ∧
      GivesG s c (.srem d a b 1) 18 d (BitVec.ofNat 64 (A.toNat % B.toNat)))

/-- R139: the register arithmetic instructions. -/
def Obligations.RegisterArithmetic : Prop :=
  Claim.ScalarArithmetic ∧ Claim.ScalarDivision

/-- R140: an immediate instruction computes what its register counterpart computes, with the sign-extended immediate in
place of b; a shift immediate outside 0 to 63 raises the illegal-syllable trap, detail 0x06. -/
def Claim.ScalarImmediates : Prop :=
  ∀ (s : State) (c : Core) (d a : BitVec 6) (m : BitVec 10) (l : Option (BitVec 9)), s.actor = some c →
    let A := c.regs.readG a
    let B : Word := match l with
      | none => m.signExtend 64
      | some h => (h ++ m).signExtend 64
    GivesG s c (.saddi d a m l) 1 d (A + B) ∧ GivesG s c (.sandi d a m l) 1 d (A &&& B) ∧
    GivesG s c (.sori d a m l) 1 d (A ||| B) ∧ GivesG s c (.sxori d a m l) 1 d (A ^^^ B) ∧
    GivesG s c (.smuli d a m l) 3 d (A * B) ∧
    (B.toNat < 64 →
      GivesG s c (.sshli d a m l) 1 d (A <<< B.toNat) ∧ GivesG s c (.sshri d a m l) 1 d (A >>> B.toNat) ∧
      GivesG s c (.ssrai d a m l) 1 d (A.sshiftRight B.toNat)) ∧
    (64 ≤ B.toNat → ∀ i ∈ [Instr.sshli d a m l, .sshri d a m l, .ssrai d a m l], Traps s c i (c.preciseTrap i 1 6))

/-- R141: sli gives its immediate, sign-extended; slhi shifts gd left by the immediate's width, 16 bits or 25 with a
header, and inserts it. -/
def Claim.ScalarConstants : Prop :=
  ∀ (s : State) (c : Core) (d : BitVec 6) (m : BitVec 16) (h : BitVec 9), s.actor = some c →
    GivesG s c (.sli d m none) 1 d (m.signExtend 64) ∧ GivesG s c (.sli d m (some h)) 1 d ((h ++ m).signExtend 64) ∧
    GivesG s c (.slhi d m none) 1 d ((c.regs.readG d <<< 16) ||| m.zeroExtend 64) ∧
    GivesG s c (.slhi d m (some h)) 1 d ((c.regs.readG d <<< 25) ||| (h ++ m).zeroExtend 64)

/-- R140, R141: the immediate instructions and the constants. -/
def Obligations.ImmediateArithmetic : Prop :=
  Claim.ScalarImmediates ∧ Claim.ScalarConstants

/-- R142: sadr adds a shifted operand, ssel selects on bit c0 of a steer register, sext extends the low 8, 16 or 32
bits; a steer register number of 12 to 15 raises detail 0x04, width code 3 detail 0x06. -/
def Obligations.ScalarSelects : Prop :=
  ∀ (s : State) (c : Core) (d a b : BitVec 6) (m : BitVec 4), s.actor = some c →
    let A := c.regs.readG a
    let B := c.regs.readG b
    GivesG s c (.sadr d a b m) 1 d (A + (B <<< m.toNat)) ∧
    (m.toNat < 12 → GivesG s c (.ssel d a b m) 1 d (if (c.regs.readK m).getLsbD 0 then A else B)) ∧
    (12 ≤ m.toNat → Traps s c (.ssel d a b m) (c.preciseTrap (.ssel d a b m) 1 4)) ∧
    GivesG s c (.sext d a 0 0) 1 d ((A.setWidth 8).signExtend 64) ∧
    GivesG s c (.sext d a 0 1) 1 d ((A.setWidth 16).signExtend 64) ∧
    GivesG s c (.sext d a 0 2) 1 d ((A.setWidth 32).signExtend 64) ∧
    GivesG s c (.sext d a 1 0) 1 d ((A.setWidth 8).zeroExtend 64) ∧
    GivesG s c (.sext d a 1 1) 1 d ((A.setWidth 16).zeroExtend 64) ∧
    GivesG s c (.sext d a 1 2) 1 d ((A.setWidth 32).zeroExtend 64) ∧
    ∀ z, Traps s c (.sext d a z 3) (c.preciseTrap (.sext d a z 3) 1 6)

/-- R122, R143: a compare owes its one condition bit, 1 where the condition holds of the register or of the immediate;
kset owes both bits. A steer register number of 12 to 15 raises detail 0x04, condition 6 or 7 detail 0x06. -/
def Obligations.ScalarCompares : Prop :=
  ∀ (s : State) (c : Core) (k : BitVec 4) (e n : BitVec 1) (f : BitVec 3) (a b : BitVec 6) (m : BitVec 7)
    (l : Option (BitVec 9)) (v : BitVec 2), s.actor = some c →
    let A := c.regs.readG a
    let B := c.regs.readG b
    let I : Word := match l, n == 1 with
      | none, true => m.zeroExtend 64
      | none, false => m.signExtend 64
      | some h, true => (h ++ m).zeroExtend 64
      | some h, false => (h ++ m).signExtend 64
    let bit (P : Prop) [Decidable P] : Deferred := .cond k (if e = 1 then 2 else 1) (if P then (if e = 1 then 2 else 1) else 0)
    (k.toNat < 12 → f.toNat < 6 →
      Makes s (.scmp k e f n a b) (c.owes s.now 1 1 (bit (Compares f.toNat n A B = true))) ∧
      Makes s (.scmpi k e f n a m l) (c.owes s.now 1 1 (bit (Compares f.toNat n A I = true)))) ∧
    (k.toNat < 12 →
      Makes s (.kset k v) (c.owes s.now 1 1 (.cond k 3 v)) ∧
      Makes s (.ksetReg k a) (c.owes s.now 1 1 (.cond k 3 (A.setWidth 2)))) ∧
    (12 ≤ k.toNat → ∀ i ∈ [Instr.scmp k e f n a b, .scmpi k e f n a m l, .kset k v, .ksetReg k a],
      Traps s c i (c.preciseTrap i 1 4)) ∧
    (k.toNat < 12 → 6 ≤ f.toNat → ∀ i ∈ [Instr.scmp k e f n a b, .scmpi k e f n a m l],
      Traps s c i (c.preciseTrap i 1 6))

/-- R149: wnext takes the sowing list's entry at the cursor, and clears its condition bit; at the list's end it owes gd
0 and sets the bit, the cursor unchanged. The model's choice: that an entry that does not check (R304) still moves the cursor
on, though neither register is written, is log 126. -/
def Claim.SowingListStep : Prop :=
  ∀ (s : State) (c : Core) (k : BitVec 4) (e : BitVec 1) (d : BitVec 6), s.actor = some c → k.toNat < 12 →
    let bit : BitVec 2 := if e = 1 then 2 else 1
    (∀ h : c.q.cursor < c.q.sow.length, c.phys.flips = [] →
      Makes s (.wnext k e d) ((({ c with q := { c.q with cursor := c.q.cursor + 1 } }).owes s.now 1 1
        (.g d c.q.sow[c.q.cursor])).owes s.now 1 1 (.cond k bit 0))) ∧
    (c.q.cursor < c.q.sow.length → ∃ c', Makes s (.wnext k e d) c' ∧
      c'.q = { c.q with cursor := c.q.cursor + 1 } ∧ c'.regs = c.regs ∧ SameMemories c c') ∧
    (c.q.sow.length ≤ c.q.cursor →
      Makes s (.wnext k e d) ((c.owes s.now 1 1 (.g d 0)).owes s.now 1 1 (.cond k bit bit)))

/-- R36, R150: a cadd owes its counter a saturating addition, a ctest compares a counter read at issue with its
zero-extended operand, a cread gives the counter as read at issue, and a remote addition puts one register send in
flight that is read at issue+1. -/
def Claim.CounterInstructions : Prop :=
  ∀ (s : State) (c : Core) (k : BitVec 4) (e : BitVec 1) (n d a b : BitVec 6) (m : BitVec 10) (l : Option (BitVec 9)),
    s.actor = some c →
    let N := c.regs.readN n
    let I : Word := match l with
      | none => m.zeroExtend 64
      | some h => (h ++ m).zeroExtend 64
    let bit (P : Prop) [Decidable P] : Deferred := .cond k (if e = 1 then 2 else 1) (if P then (if e = 1 then 2 else 1) else 0)
    Makes s (.cadd n a) (c.owes s.now 1 1 (.count n (c.regs.readG a))) ∧ GivesG s c (.cread d n) 1 d N ∧
    (k.toNat < 12 →
      Makes s (.ctest k e n m l) (c.owes s.now 1 1 (bit (I.toNat ≤ N.toNat))) ∧
      Makes s (.ctestReg k e n a) (c.owes s.now 1 1 (bit ((c.regs.readG a).toNat ≤ N.toNat)))) ∧
    ∃ f : Flight, f.instr = .caddR n a b ∧ f.x = c.regs.readG a ∧
      f.d = (c.regs.readG b).toNat / 2 ^ 22 % 2 ^ 9 % ((s.ctx c).la.w * (s.ctx c).la.h) ∧
      f.streams = [{ eff := .sendRead, first := s.now + 1, n := 1 }] ∧ f.uid = c.nextUid ∧
      Makes s (.caddR n a b) { c with
        flights := c.flights ++ [f], nextUid := c.nextUid + 1
        net := { c.net with notes := c.net.notes ++ [{ dest := f.d, last := s.now + 1, sender := c.index }] } }

/-- R122: wnext, ctest and ctest g with a steer register number of 12 to 15 raise the illegal-syllable trap, detail
0x04. -/
def Claim.SteerNumbersOfCounters : Prop :=
  ∀ (s : State) (c : Core) (k : BitVec 4) (e : BitVec 1) (n d a : BitVec 6) (m : BitVec 10) (l : Option (BitVec 9)),
    s.actor = some c → 12 ≤ k.toNat →
    ∀ i ∈ [Instr.wnext k e d, .ctest k e n m l, .ctestReg k e n a], Traps s c i (c.preciseTrap i 1 4)

/-- R36, R122, R149, R150: the sowing list and the counters. -/
def Obligations.CountersAndSowing : Prop :=
  Claim.SowingListStep ∧ Claim.CounterInstructions ∧ Claim.SteerNumbersOfCounters

/-- R53, R144: prep owes succ0 and succ1 of its steer register, prep.hi succ2 and succ3, and the core remembers when
each byte was prepared unless its head has already sampled. -/
def Claim.PrepWritesSuccessors : Prop :=
  ∀ (s : State) (c : Core) (k : BitVec 4) (a b : BitVec 8), s.actor = some c → k.toNat < 12 →
    let fc := c.fcycle (s.ctx c)
    let with_ (n : Nat) : Core := { c with seq := { c.seq with preps :=
      if c.seq.head.isSome then c.seq.preps
      else c.seq.preps ++ [⟨k.toNat, n, fc⟩, ⟨k.toNat, n + 1, fc⟩] } }
    Makes s (.prep k a b) ((with_ 0).owes s.now 1 1 (.prep k false a b)) ∧
    Makes s (.prepHi k a b) ((with_ 2).owes s.now 1 1 (.prep k true a b))

/-- R55, R56, R61, R145: a head that stands where its furrow wants it samples its steer register in its issue cycle; a
second head, a head in a furrow without a headland, one not at origin+L−32 of a fixed furrow, or one of an elastic furrow
whose next bundle holds no fend raises detail 0x05. The model's choice: that in an elastic furrow the bundle that issues next
is looked at in the head's own issue cycle, and fend's check stands besides, is log 110, and that a core left behind in its
furrow is held to that furrow's words log 76. -/
def Claim.HeadSamples : Prop :=
  ∀ (s : State) (c : Core) (k : BitVec 4), s.actor = some c → k.toNat < 12 →
    let d := ((s.ctx c).own c).la.desc
    let fc := c.fcycle (s.ctx c)
    let w := c.regs.readK k
    let next := (loopTest c.seq.bundle c.seq.loops).2.getD (nextStart c.code (c.seq.bundle + c.seq.len))
    let placed := c.seq.head = none ∧ d.getLsbD 38 = true ∧
      (d.getLsbD 37 = true → ∃ p, (p, Instr.fend) ∈ instrsAt c.code next) ∧
      (d.getLsbD 37 = false → fc + 32 = d.toNat % 2 ^ 24 + 1)
    let sample : HeadSample := ⟨s.now, fc, k.toNat, w.toNat % 4, (w >>> 32).setWidth 32⟩
    (placed → Makes s (.head k) { c with seq := { c.seq with head := some sample } }) ∧
    (¬placed → 32 ≤ d.toNat % 2 ^ 24 + 1 → c.phys.sysMode = false →
      Traps s c (.head k) (c.preciseTrap (.head k) 4 5))

/-- R49, R61, R146: fend ends the core's part of the furrow in its issue cycle; in an elastic headland furrow the
core's head must have issued in the cycle before. The model's choice: that a core left behind in its furrow is held to that
furrow's words is log 76. -/
def Claim.FendEndsThePart : Prop :=
  ∀ (s : State) (c : Core), s.actor = some c →
    let d := ((s.ctx c).own c).la.desc
    let placed := d.getLsbD 38 = false ∨ d.getLsbD 37 = false ∨ ∃ h, c.seq.head = some h ∧ 1 ≤ s.now ∧ h.at_ + 1 = s.now
    (placed → Makes s .fend { c with seq := { c.seq with fend := some s.now } }) ∧
    (¬placed → 1 ≤ s.now → c.phys.sysMode = false → Traps s c .fend (c.preciseTrap .fend 4 5))

/-- R122: prep, prep.hi and head with a steer register number of 12 to 15 raise the illegal-syllable trap, detail
0x04. -/
def Claim.SteerNumbersOfHeadlands : Prop :=
  ∀ (s : State) (c : Core) (k : BitVec 4) (a b : BitVec 8), s.actor = some c → 12 ≤ k.toNat →
    ∀ i ∈ [Instr.prep k a b, .prepHi k a b, .head k], Traps s c i (c.preciseTrap i 1 4)

/-- R49, R53, R55, R56, R61, R122, R144 to R146: prep, head and fend. -/
def Obligations.HeadlandSyllables : Prop :=
  Claim.PrepWritesSuccessors ∧ Claim.HeadSamples ∧ Claim.FendEndsThePart ∧ Claim.SteerNumbersOfHeadlands

/-- R37, R123, R147, R148: a loop whose conditions hold pushes one level, from the bundle after its own to the bundle
at its offset, with its trip count: the immediate, the register as a natural number, or the count queue's next entry,
which is popped. A trip of 0 pushes no level and leaves the body to be skipped; loopq on an empty queue raises the queue
imbalance. The model's choice: that an entry that cannot be read (R304) is popped all the same is log 126, and that system
code, which raises none of a context's faults (R288), takes from an empty queue the 0 that it reads as is log 114. -/
def Claim.LoopsPushALevel : Prop :=
  ∀ (s : State) (c : Core) (n : BitVec 9) (g : BitVec 6) (o : BitVec 12) (l : Option (BitVec 9)),
    let e := c.seq.bundle + o.toNat
    let pushed (c : Core) (trip : Nat) : Core :=
      if trip = 0 then { c with seq := { c.seq with skip := some e } }
      else { c with seq := { c.seq with
        loops := ⟨nextStart c.code (c.seq.bundle + c.seq.len), e, trip, 0⟩ :: c.seq.loops } }
    (Clear s c (.loop n o l) →
      Makes s (.loop n o l) (pushed c (match l with | none => n.toNat | some h => (h ++ n).toNat))) ∧
    (Clear s c (.loopReg g o) → Makes s (.loopReg g o) (pushed c (c.regs.readG g).toNat)) ∧
    (Clear s c (.loopq o) →
      (∀ t ts, c.q.cq = t :: ts → c.phys.flips = [] → Makes s (.loopq o)
        (pushed { c with q := { c.q with cq := ts, cqHead := c.q.cqHead + 1 } } t.toNat)) ∧
      (∀ t ts, c.q.cq = t :: ts → ∃ c', Makes s (.loopq o) c' ∧
        c'.q = { c.q with cq := ts, cqHead := c.q.cqHead + 1 } ∧ c'.regs = c.regs ∧ SameMemories c c') ∧
      (c.q.cq = [] → c.phys.sysMode = false → Traps s c (.loopq o) (c.preciseTrap (.loopq o) 0x0B 3)) ∧
      (c.q.cq = [] → c.phys.sysMode = true → Makes s (.loopq o) (pushed c 0)))

/-- R59, R63, R123, R147, R148, R265: with six levels active a loop syllable raises the illegal-syllable trap, detail 0x07.
With fewer it raises detail 0x08 where its offset is below its bundle's length, where the syllable at its end lies past
65,535, is a fill or starts no bundle, and where its bundle is the end of an active level; so does loop g with a count above
0xFFFFFFFF. A loopq of launch code in a fixed furrow raises the timing fault, detail 0x09. The model's choice: that the
furrow is the core's own where its launch has left it behind is log 76. -/
def Claim.LoopsThatTrap : Prop :=
  ∀ (s : State) (c : Core) (n : BitVec 9) (g : BitVec 6) (o : BitVec 12) (l : Option (BitVec 9)), s.actor = some c →
    let e := c.seq.bundle + o.toNat
    let w := c.code.getD e 0xFFFFFFFF#32
    let bad := o.toNat < c.seq.len ∨ 65535 < e ∨ w = 0xFFFFFFFF#32 ∨ w.getLsbD 31 = false ∨
      ∃ v ∈ c.seq.loops, v.stop = c.seq.bundle
    let fails (i : Instr) (k d : Nat) : Prop := Traps s c i (c.preciseTrap i k d)
    (6 ≤ c.seq.loops.length → ∀ i ∈ [Instr.loop n o l, .loopReg g o, .loopq o], fails i 1 7) ∧
    (c.seq.loops.length < 6 → bad → ∀ i ∈ [Instr.loop n o l, .loopReg g o, .loopq o], fails i 1 8) ∧
    (c.seq.loops.length < 6 → 2 ^ 32 ≤ (c.regs.readG g).toNat → fails (.loopReg g o) 1 8) ∧
    (c.seq.loops.length < 6 → ¬bad → c.phys.sysMode = false → ((s.ctx c).own c).la.desc.getLsbD 37 = false →
      fails (.loopq o) 4 9)

/-- R12, R147: when a bundle has issued, the levels that end at it are tested from the innermost outward: one with
iterations left advances and branches to its start, one on its last is popped, and one that ends elsewhere stops the
test; where none branches the bundle after it is next. A zero trip makes the same test at the end of the body that it
skips. -/
def Claim.LoopEndTest : Prop :=
  (∀ c : Core,
    let e := c.seq.skip.getD c.seq.bundle
    let n := if c.seq.skip = none then c.seq.len else bundleLen c.code e
    let next := nextStart c.code (e + n)
    let ends (l : List LoopLevel) (pc : Nat) : Prop := c.retire = { c with seq := { c.seq with
      loops := l, pc := pc, len := 0, skip := none, suppressed := false } }
    (c.seq.loops = [] → ends [] next) ∧
    ∀ v vs, c.seq.loops = v :: vs →
      (v.stop ≠ e → ends (v :: vs) next) ∧
      (v.stop = e → v.index + 1 < v.trip → ends ({ v with index := v.index + 1 } :: vs) v.start) ∧
      (v.stop = e → v.trip ≤ v.index + 1 → c.retire = ({ c with seq := { c.seq with loops := vs } }).retire)) ∧
  ∀ (s : State) (t : Seat) (ts : List Seat), s.seats = t :: ts → s.clearOfReads → t.c.seq.queue = [] → t.c.seq.len ≠ 0 →
    step s = .next (s.sit t.pos t.c.retire)

/-- R12, R37, R59, R63, R123, R147, R148, R265: the loop syllables push a level or trap, and the end of a body tests the
levels. -/
def Obligations.LoopsPushAndTestLevels : Prop :=
  Claim.LoopsPushALevel ∧ Claim.LoopsThatTrap ∧ Claim.LoopEndTest

/-- R97, R151: vjoin clears every view mark and raises nothing. -/
def Claim.VjoinClearsMarks : Prop :=
  ∀ (s : State) (c : Core), s.actor = some c → Makes s .vjoin { c with sp := { c.sp with wl := [], ws := [] } }

/-- R59, R111, R112, R152, R153: an rfence that passes its check does nothing else; a bclose or a drain makes the open
batch the newest closed one, an empty batch making none; and a drain of an elastic furrow whose count is not met
leaves the core waiting. The model's choice: that a drain in system code never waits is log 123. -/
def Claim.FencesAndBatches : Prop :=
  ∀ (s : State) (c : Core) (a b : BitVec 6) (n : BitVec 4),
    let net : Traffic := if c.net.openBatch = [] then c.net
      else { c.net with openBatch := [], closed := c.net.closed ++ [c.net.openBatch] }
    (Clear s c (.rfence a b) → Makes s (.rfence a b) c) ∧
    (Clear s c .bclose → Makes s .bclose { c with net := net }) ∧
    (Clear s c (.drain n) → Makes s (.drain n) { c with
      net := net
      seq := if n.toNat < net.closed.length ∧ c.phys.sysMode = false then { c.seq with waiting := true } else c.seq })

/-- R59, R63, R111, R112, R152, R153, R265: in launch code a drain or a bclose that would make a sixteenth closed batch, a
drain of a fixed furrow whose count is not met, and an rfence into whose range a dhget is still to write or from which a dhput
is still to read after this cycle (R5), raise the timing fault, detail 0x0A; where an interlocked launch waits for the
condition instead, the core holds. The model's choice: that a drain of an elastic furrow whose batch is the sixteenth traps at
once is log 122, and that the furrow is the core's own where its launch has left it behind log 76. -/
def Claim.FencesFallShort : Prop :=
  ∀ (s : State) (c : Core) (a b : BitVec 6) (n : BitVec 4), s.actor = some c → c.phys.sysMode = false →
    let x := s.ctx c
    let elastic := (x.own c).la.desc.getLsbD 37
    let from_ := (c.regs.readG a).toNat % 2 ^ 22
    let len := min (c.regs.readG b).toNat (2 ^ 22)
    let full := c.net.openBatch ≠ [] ∧ 15 ≤ c.net.closed.length
    let short := n.toNat < c.net.closed.length + (if c.net.openBatch = [] then 0 else 1)
    let touches (f : Flight) : Prop := (f.addr < from_ + len ∧ from_ < f.addr + f.len) ∨
      (2 ^ 22 < from_ + len ∧ f.addr + 2 ^ 22 < from_ + len)
    let open_ := len ≠ 0 ∧ ∃ f ∈ c.flights, touches f ∧
      ((∃ d a b n, f.instr = .dhget d a b n) ∧ f.open_ = true ∨
        (∃ d a b n, f.instr = .dhput d a b n) ∧ ∃ t ∈ f.streams, t.k < t.n ∧ s.now < t.first + (t.n - 1) * t.mul / t.div)
    let fails (i : Instr) : Prop := Traps s c i (c.preciseTrap i 4 0x0A)
    let holds (i : Instr) : Prop := timingHolds x c [(c.seq.pos, i)] = true
    (full → fails .bclose) ∧
    (elastic = true → full → fails (.drain n)) ∧
    (elastic = false → full ∨ short → if x.la.interlocked = true then holds (.drain n) else fails (.drain n)) ∧
    (open_ → if x.la.interlocked = true then holds (.rfence a b) else fails (.rfence a b))

/-- R59, R63, R97, R111, R112, R151 to R153, R265: vjoin, rfence, bclose and drain. -/
def Obligations.FenceSyllables : Prop :=
  Claim.VjoinClearsMarks ∧ Claim.FencesAndBatches ∧ Claim.FencesFallShort

/-- R14, R35, R154, R155: an adv whose check passes owes its handle a move of one pointer by n+1 slots, an hset owes
both words of its handle, and an hget gives a word of the handle as it stands at issue. -/
def Claim.HandleInstructions : Prop :=
  ∀ (s : State) (c : Core) (h n : BitVec 4) (e w : BitVec 1) (q a b d : BitVec 6),
    let v := c.regs.handle h
    (s.actor = some c → (if e = 0 then n.toNat + 1 ≤ v.filled
        else c.producers h = [] ∧ n.toNat + 1 ≤ v.count - v.filled) →
      Makes s (.adv h n e) (c.owes s.now 1 1 (.adv h (n.toNat + 1) (e = 1)))) ∧
    (s.actor = some c → q.toNat < 16 → handleLegal (c.regs.readG a) (c.regs.readG b) = true →
      c.producers (q.setWidth 4) = [] →
      Makes s (.hset q a b) (c.owes s.now 1 1 (.hset (q.setWidth 4) (c.regs.readG a) (c.regs.readG b)))) ∧
    (s.actor = some c → q.toNat < 16 →
      GivesG s c (.hget d q w) 1 d (if w = 0 then c.regs.hw0 (q.setWidth 4) else c.regs.hw1 (q.setWidth 4)))

/-- R32, R39, R40, R156, R157: an mtc to a register and with a value that its checks admit owes that register the value; to
a register that does not exist it raises detail 0x06, and to one that is not writable, or of a value with a bit in a reserved
field, an illegal rounding mode or an illegal tile configuration, detail 0x0B. An mfc gives the
register's value at issue; where the head of the count queue, which cqstat reads, does not check (R304), it still completes. -/
def Claim.ControlRegisterMoves : Prop :=
  ∀ (s : State) (c : Core) (n d a : BitVec 6), s.actor = some c →
    let known := n.toNat < 0x0A ∨ (0x10 ≤ n.toNat ∧ n.toNat ≤ 0x25)
    let writable := n.toNat ∈ [0, 1, 8, 9] ∨ (0x10 ≤ n.toNat ∧ n.toNat ≤ 0x1F)
    (Clear s c (.mtc n a) → Makes s (.mtc n a) (c.owes s.now 1 1 (.ctrl n (c.regs.readG a)))) ∧
    (¬known → Traps s c (.mtc n a) (c.preciseTrap (.mtc n a) 1 6) ∧ Traps s c (.mfc d n) (c.preciseTrap (.mfc d n) 1 6)) ∧
    let field (lo k : Nat) : Nat := (c.regs.readG a).toNat / 2 ^ lo % 2 ^ k
    let reserved (l : List (Nat × Nat)) : Prop := ∃ p ∈ l, field p.1 p.2 ≠ 0
    let tile := 0x10 ≤ n.toNat ∧ n.toNat ≤ 0x1F
    let rowBytes := if field 0 4 = 2 then (field 16 8 + 2) / 2 else if field 0 4 = 4 then 2 * (field 16 8 + 1) else field 16 8 + 1
    let bad := (n = 0 ∧ reserved [(14, 2), (24, 40)]) ∨ (n = 1 ∧ (4 < field 0 3 ∨ reserved [(3, 13), (32, 32)])) ∨
      (n = 8 ∧ reserved [(23, 9), (48, 16)]) ∨ (n = 9 ∧ reserved [(32, 32)]) ∨
      (tile ∧ (4 < field 0 4 ∨ reserved [(4, 4), (34, 30)] ∨ 32768 < (field 8 8 + 1) * rowBytes ∨
        field 24 8 = 0x7F ∨ field 24 8 = 0xFF))
    (known → ¬writable ∨ bad → Traps s c (.mtc n a) (c.preciseTrap (.mtc n a) 1 0x0B)) ∧
    (writable → ¬bad → ¬tile ∨ (s.ctx c).la.interlocked = false → Makes s (.mtc n a) (c.owes s.now 1 1 (.ctrl n (c.regs.readG a)))) ∧
    (known → n ≠ 7 ∨ c.q.cq = [] ∨ c.phys.flips = [] → GivesG s c (.mfc d n) 1 d (c.readCtrl (s.ctx c) n.toNat)) ∧
    (s.actor = some c → known → ∃ c' l, Makes s (.mfc d n) c' ∧ c'.regs = c.regs ∧ c'.q = c.q ∧ SameMemories c c' ∧
      c'.pends = c.pends ++ l ∧ l.length ≤ 1)

/-- R35, R63, R122, R154, R155, R265: in launch code an adv of a drain pointer over slots that are not filled, or of a
fill pointer over slots that are not free, raises the timing fault, detail 0x12; an adv of a fill pointer or an hset of a
handle with a producer in flight raises detail 0x11; where an interlocked launch waits for these, the core holds. An hset
of words that are no handle raises the illegal-syllable trap, detail 0x06, and a handle number above 15 detail 0x04. -/
def Claim.HandlesFallShort : Prop :=
  ∀ (s : State) (c : Core) (h n : BitVec 4) (w : BitVec 1) (q a b d : BitVec 6), s.actor = some c →
    c.phys.sysMode = false →
    let v := c.regs.handle h
    let legal := handleLegal (c.regs.readG a) (c.regs.readG b)
    let fails (i : Instr) (m : Nat) : Prop :=
      if (s.ctx c).la.interlocked = true then timingHolds (s.ctx c) c [(c.seq.pos, i)] = true
      else Traps s c i (c.preciseTrap i 4 m)
    (v.filled < n.toNat + 1 → fails (.adv h n 0) 0x12) ∧
    (c.producers h ≠ [] → fails (.adv h n 1) 0x11) ∧
    (c.producers h = [] → v.count - v.filled < n.toNat + 1 → fails (.adv h n 1) 0x12) ∧
    (q.toNat < 16 → legal = true → c.producers (q.setWidth 4) ≠ [] → fails (.hset q a b) 0x11) ∧
    (q.toNat < 16 → legal = false → Traps s c (.hset q a b) (c.preciseTrap (.hset q a b) 1 6)) ∧
    (16 ≤ q.toNat → Traps s c (.hset q a b) (c.preciseTrap (.hset q a b) 1 4) ∧
      Traps s c (.hget d q w) (c.preciseTrap (.hget d q w) 1 4))

/-- R14, R35, R39, R40, R63, R122, R154 to R157, R265: adv, hset, hget, mtc and mfc. -/
def Obligations.HandlesAndControlRegisters : Prop :=
  Claim.HandleInstructions ∧ Claim.ControlRegisterMoves ∧ Claim.HandlesFallShort

/-- R135, R159, R160, R280, R282, R285, R287, R306, R307: in system code a write of a system register owes that
register its value from the next cycle; mfs gives the register as it stands at issue; ovld owes the overflow table. A word of
a window's entry with an illegal kind or operation or a bit in a reserved field raises the illegal-syllable trap, detail 0x06,
and so does an injection of mode 3 or with a reserved bit; the register keeps its value (R283, R307).
The model's choice: that mfs of the write-only itlbinv gives a free value is log 14, and that an mts of any value, reserved
bits included, completes where the rules name no trap for it is log 15. -/
def Claim.SystemRegisterMoves : Prop :=
  ∀ (s : State) (c : Core) (a d : BitVec 6) (r : BitVec 16), s.actor = some c → c.phys.sysMode = true →
    let A := c.regs.readG a
    (sysKnown r.toNat = true → sysReadOnly r.toNat = false → Makes s (.mts a r) (c.owes s.now 1 1 (.sys r A))) ∧
    (sysKnown r.toNat = false ∨ sysReadOnly r.toNat = true → Traps s c (.mts a r) (c.preciseTrap (.mts a r) 1 6)) ∧
    Makes s (.itlbinv a) (c.owes s.now 1 1 (.sys 0x22 A)) ∧ Makes s (.iptroot a) (c.owes s.now 1 1 (.sys 0x20 A)) ∧
    Makes s (.ctxid a) (c.owes s.now 1 1 (.sys 0x13 A)) ∧ Makes s (.errstat a r) (c.owes s.now 1 1 (.sys r A)) ∧
    let field (lo k : Nat) : Nat := A.toNat / 2 ^ lo % 2 ^ k
    let word := r.toNat % 4
    let badEntry := (word = 0 ∧ (field 1 2 = 3 ∨ field 3 5 ≠ 0 ∨ field 24 40 ≠ 0)) ∨ (word = 2 ∧ field 48 16 ≠ 0) ∨
      (word = 3 ∧ (field 2 2 = 3 ∨ field 12 20 ≠ 0 ∨ field 52 12 ≠ 0))
    (¬badEntry → Makes s (.windowTable a r) (c.owes s.now 1 1 (.sys r A))) ∧
    (badEntry → Traps s c (.windowTable a r) (c.preciseTrap (.windowTable a r) 1 6)) ∧
    (A.toNat % 4 ≠ 3 → A.toNat < 512 → Makes s (.einj a r) (c.owes s.now 1 1 (.sys r A))) ∧
    (A.toNat % 4 = 3 ∨ 512 ≤ A.toNat → Traps s c (.einj a r) (c.preciseTrap (.einj a r) 1 6)) ∧
    (ovtabLegal A = true → Makes s (.ovld a) (c.owes s.now 1 1 (.ovtab A))) ∧
    (ovtabLegal A = false → Traps s c (.ovld a) (c.preciseTrap (.ovld a) 1 0x0C)) ∧
    (sysKnown r.toNat = true → r ≠ 0x22#16 → GivesG s c (.mfs d r) 1 d (c.readSys r.toNat)) ∧
    Makes s (.mfs d 0x22#16) (({ c with free := c.free + 1 }).owes s.now 1 1 (.g d (Config.writeOnlyRead c.free)))

/-- R158: trap raises the software trap in its issue cycle with its code, precise to its bundle, and suppresses
nothing. -/
def Claim.SoftwareTrap : Prop :=
  ∀ (s : State) (c : Core) (i : BitVec 22) (l : Option (BitVec 9)), s.actor = some c →
    Traps s c (.trap i l) { c.preciseTrap (.trap i l) 0x14 0 with
      info0 := match l with | none => i.toNat | some h => (h ++ i).toNat }

/-- R130 to R137, R158, R230: the syllables that do nothing and those that trap. -/
def Obligations.HintsAndTraps : Prop :=
  Claim.HintsDoNothing ∧ Claim.UndefinedOpcodeTraps ∧ Claim.PrivilegedSyllablesTrap ∧ Claim.SoftwareTrap

/-- R159, R276, R288: eret ends system mode on its core, which reads back the groups of its savemask at 64 bytes a cycle
from then on and issues nothing more until the restart; once every core of a returning launch, or of a stopped one that
system software resumes, has executed it, the launch waits for the last of their restores. The model's choice: that a
savebase at which no image stands, or whose image would pass the rows, raises detail 0x06 is log 16, and that nothing of the
system code, its operations in flight included, performs after it is log 132. -/
def Claim.SystemReturn : Prop :=
  ∀ (s : State) (c : Core), s.actor = some c → c.phys.sysMode = true →
    let held := (maskBytes (s.ctx c).la.landing c.phys.savemask + 63) / 64
    let c' : Core := { c with
      phys := { c.phys with sysMode := false }, seq := { c.seq with stuck := true }, backAt := s.now + held }
    (58368 < c.phys.savebase.toNat ∨ c.phys.savebase.toNat ∉ c.phys.imageRows →
      ∃ t, exec .eret s = .next t ∧ t.cores = (s.setActor (c.raise (s.ctx c) (c.preciseTrap .eret 1 6))).cores) ∧
    (c.phys.savebase.toNat ≤ 58368 → c.phys.savebase.toNat ∈ c.phys.imageRows →
      ∃ t, exec .eret s = .next t ∧ t.cores = (s.setActor c').cores ∧ t.images = (s.setActor c').images ∧
        t.now = s.now ∧ t.parts = s.parts ∧
        ∀ la, s.launch? c.lid = some la →
          let cs := (s.setActor c').cores.filter fun d => d.lid == c.lid
          (la.phase = .returning ∨ la.phase = .stopped → cs.length = la.w * la.h →
            (∀ d ∈ cs, d.phys.sysMode = false) → ∃ u, t.launch? c.lid = some { la with phase := .restoring u } ∧
              (∀ d ∈ cs, d.backAt ≤ u) ∧ (u = 0 ∨ ∃ d ∈ cs, d.backAt = u)) ∧
          ((∃ d ∈ cs, d.phys.sysMode = true) → t.launches = s.launches))

/-- R135, R159, R160, R276, R280, R282, R283, R285, R287, R288, R306, R307: the privileged syllables in system code. -/
def Obligations.SystemSyllables : Prop :=
  Claim.SystemRegisterMoves ∧ Claim.SystemReturn

/-- R11, R26, R36, R39, R54, R144, R154, R155, R160, R200, R203, R287: a change that a syllable owes performs on the
acting core, which owes it no longer: the register, condition bits, successor bytes, counter, handle words, pointer,
control register, overflow table, system register, store mode or tag lane it names takes its value, and no other
register changes. A tile configuration, a tag lane or a store mode that the array holds busy raises the timing fault,
detail 0x02, and is not written (R190, R203). The model's choice: that the window entries which a core holds are its
context's, so that its image keeps them and a restart finds them, is log 66. -/
def Obligations.ScalarResultPerforms : Prop :=
  ∀ (s : State) (c : Core) (i : Nat) (p : Pend), s.actor = some c → c.pends[i]? = some p →
    let c0 : Core := { c with pends := c.pends.eraseIdx i }
    let r := c.regs
    let ends (c' : Core) : Prop := exec (.scalarResultWrite i) s = .next (s.setActor c')
    (∀ d v, p.what = .g d v → ends { c0 with regs := r.writeG d v }) ∧
    let steer (k : BitVec 4) (v : Word) : Core := { c0 with regs := r.writeK k v }
    let sum (n : BitVec 6) (v : Word) : Word := BitVec.ofNat 64 (min ((r.readN n).toNat + v.toNat) (2 ^ 64 - 1))
    (∀ k m v, p.what = .cond k m v →
      ends (steer k (r.readK k &&& ~~~((m.setWidth 64 : Word)) ||| ((v &&& m).setWidth 64)))) ∧
    (∀ k a b, p.what = .prep k false a b → ends (steer k
      ((r.readK k &&& 0xFFFF000000000000#64) ||| (a.setWidth 64 <<< 32) ||| (b.setWidth 64 <<< 40)))) ∧
    (∀ k a b, p.what = .prep k true a b → ends (steer k
      ((r.readK k &&& 0x0000FFFF00000000#64) ||| (a.setWidth 64 <<< 48) ||| (b.setWidth 64 <<< 56)))) ∧
    (∀ n v, p.what = .count n v → ends { c0 with regs := { r with n := r.n.set n.toNat (sum n v) n.isLt } }) ∧
    (∀ h a b, p.what = .hset h a b → ends { c0 with regs := r.writeH h a b }) ∧
    (∀ h n e, p.what = .adv h n e → ends { c0 with regs := if e then r.advFill h n else r.advDrain h n }) ∧
    (∀ n v, p.what = .ctrl n v →
      (n.toNat < 0x10 ∨ tileBusy c0 (n.toNat - 0x10) p.seqno s.now = false →
        ends { c0 with regs := r.writeCtrl n.toNat v }) ∧
      (0x10 ≤ n.toNat → tileBusy c0 (n.toNat - 0x10) p.seqno s.now = true →
        ends (c0.raise (s.ctx c) p.trap))) ∧
    (∀ v, p.what = .ovtab v → ends { c0 with regs := { r with ovtab := v } }) ∧
    (∀ n v, p.what = .sys n v → ∃ t, exec (.scalarResultWrite i) s = .next t ∧
      let c' := c0.writeSys n.toNat v
      t.cores = (s.setActor c').cores ∧
      (t.images = (s.setActor c').images.map fun (d : Core) =>
        if d.lid = c.lid ∧ d.index = c.index then { d with windows := c'.windows } else d) ∧
      (n.toNat ∉ [0x13, 0x20, 0x22] → t.tlb = s.tlb) ∧
      (n.toNat ∈ [0x13, 0x20, 0x22] → ∀ e, e ∈ t.tlb ↔
        e ∈ s.tlb ∧ ¬(e.1 = plotOf c.px c.py ∧ e.2.ctx = (c0.writeSys n.toNat v).phys.ctxid))) ∧
    (∀ g, p.what = .accMode g →
      (storeBusy c0 p.seqno s.now = false → ends { c0 with arr := { c.arr with grad := g } }) ∧
      (storeBusy c0 p.seqno s.now = true → ends (c0.raise (s.ctx c) p.trap))) ∧
    (∀ t bs, p.what = .tags t bs →
      (tileBusy c0 t.toNat p.seqno s.now = true → ends (c0.raise (s.ctx c) p.trap)) ∧
      (tileBusy c0 t.toNat p.seqno s.now = false →
        ends (c0.putRun c.nextUid (Run.full .tag (t.toNat * 256) bs))))

/-- R28, R36, R52: g0 reads zero and discards what is written to it; a register written reads back, of a steer register
the target half and the condition bits; no other register changes; a counter's addition saturates; m0 reads all ones. -/
def Claim.RegistersReadBack : Prop :=
  ∀ (r : Regs) (d e n q : BitVec 6) (k j h g : BitVec 4) (v w : Word) (f : VecFile) (i : Nat),
    r.readG 0 = 0 ∧ (r.writeG d v).readG e = (if e = d ∧ d ≠ 0 then v else r.readG e) ∧
    (r.writeK k v).readK j = (if j = k ∧ k.toNat < 12 then v &&& 0xFFFFFFFF00000003#64 else r.readK j) ∧
    r.readK k &&& 0x00000000FFFFFFFC#64 = 0 ∧
    ((r.addN n v).readN q).toNat = (if q = n then min ((r.readN n).toNat + v.toNat) (2 ^ 64 - 1) else (r.readN q).toNat) ∧
    (r.writeH h v w).hw0 g = (if g = h then v else r.hw0 g) ∧ (r.writeH h v w).hw1 g = (if g = h then w else r.hw1 g) ∧
    f.maskByte 0 i = 0xFF

/-- R35, R154: moving a pointer of a legal handle by no more than its check admits keeps the handle legal, moves that
pointer round its slots and changes the count of filled slots; the other pointer and the layout stay. -/
def Claim.HandlePointersMove : Prop :=
  ∀ (r : Regs) (h : BitVec 4) (n : Nat), handleLegal (r.hw0 h) (r.hw1 h) = true →
    let v := r.handle h
    (n ≤ v.filled →
      (r.advDrain h n).handle h = { v with drain := (v.drain + n) % v.count, filled := v.filled - n } ∧
      handleLegal ((r.advDrain h n).hw0 h) ((r.advDrain h n).hw1 h) = true) ∧
    (n ≤ v.count - v.filled →
      (r.advFill h n).handle h = { v with fill := (v.fill + n) % v.count, filled := v.filled + n } ∧
      handleLegal ((r.advFill h n).hw0 h) ((r.advFill h n).hw1 h) = true)

/-- R38, R39, R156, R157: what a control register reads once it has been written: shape, round, cellpat and the tile
configurations the word written; missct its two counts, its fill being that of the miss list. A write of another register,
and of one that mtc does not write, changes none of it, and no register of another kind. An open loop's index, and the
furrow's number, read as they stand. -/
def Claim.ControlRegistersReadBack : Prop :=
  ∀ (x : Ctx) (c : Core) (n m : Nat) (v : Word), c.q.miss.length ≤ 64 → m < 0x0A ∨ (0x10 ≤ m ∧ m ≤ 0x25) →
    let r := c.regs.writeCtrl n v
    let c' : Core := { c with regs := r }
    let plain := n ∈ [0, 1, 9] ∨ (0x10 ≤ n ∧ n ≤ 0x1F)
    (plain → c'.readCtrl x n = v) ∧
    (n = 8 → c'.readCtrl x 8 = (v &&& 0x0000FFFF0000FFFF#64) ||| (BitVec.ofNat 64 c.q.miss.length <<< 16)) ∧
    (m ≠ n ∨ ¬(plain ∨ n = 8) → c'.readCtrl x m = c.readCtrl x m) ∧
    r.g = c.regs.g ∧ r.k = c.regs.k ∧ r.n = c.regs.n ∧ r.h0 = c.regs.h0 ∧ r.h1 = c.regs.h1 ∧ r.ovtab = c.regs.ovtab ∧
    (∀ k y, k < 6 → c.seq.loops[k]? = some y → c.readCtrl x (0x20 + k) = BitVec.ofNat 64 y.index) ∧
    (∀ k, k < 6 → c.seq.loops.length ≤ k → c.readCtrl x (0x20 + k) = 0) ∧
    c.readCtrl x 3 = BitVec.ofNat 64 c.seq.furrow

/-- R281, R285, R287, R306, R307: what a system register reads once it has been written: its stored bits, the others zero. In an
errstat a 1 written to valid clears the entry with both counts, a 1 written to over clears it, and rep takes the bit written;
the other bits stand. A write changes no other register, general register or memory; sysid gives the core's place. The
model's choice: that reserved bits, those of the row maps' entries (R281) among them, are not stored is log 15, and that
each bit of an errstat clears only its own part and a 0 leaves both is log 35. -/
def Claim.SystemRegistersReadBack : Prop :=
  ∀ (c : Core) (r q : Nat) (v : Word), sysKnown r = true → sysReadOnly r = false → sysKnown q = true →
    let c' := c.writeSys r v
    let holds (m : Word) : Prop := c'.readSys r = v &&& m
    let isStat := 0x3000 ≤ r ∧ r % 16 = 0
    let old := c.readSys r
    (r = 2 → holds 0xFFF#64) ∧ (r = 0x10 → holds (BitVec.allOnes 64)) ∧ (r = 0x11 → holds 0x1F07FF#64) ∧
    (r = 0x13 → holds 0xFFFF#64) ∧ (r = 0x20 → holds (BitVec.allOnes 64)) ∧ (r = 0x21 → holds 0xFFFC0000#64) ∧
    (0x30 ≤ r → r ≤ 0x37 → holds (if r % 2 = 0 then 0x3FFFF0#64 else 0xFFFF003F#64)) ∧
    (0x100 ≤ r → r ≤ 0x1FF → holds (BitVec.allOnes 64)) ∧ (0x1000 ≤ r → r ≤ 0x13FF → holds 0x81FF#64) ∧
    (0x3000 ≤ r → r % 16 = 8 → holds 0x1FF#64) ∧ (0x3000 ≤ r → r % 16 = 9 → holds (BitVec.allOnes 64)) ∧
    (isStat →
      let missed : Word := if v.getLsbD 26 then 0 else old &&& 0x4000000#64
      let rep : Word := v &&& 0x8000000#64
      c'.readSys r = (if v.getLsbD 24 then missed ||| rep else (old &&& 0x3FFFFFF#64) ||| missed ||| rep) ∧
      ∀ k, 1 ≤ k → k ≤ 4 → c'.readSys (r + k) = if v.getLsbD 24 then 0 else c.readSys (r + k)) ∧
    (q ≠ r → ¬(isStat ∧ q / 16 = r / 16 ∧ q % 16 ≤ 4) → c'.readSys q = c.readSys q) ∧
    c'.regs = c.regs ∧ SameMemories c c' ∧ c'.phys.sysMode = c.phys.sysMode ∧
    (c.px < 32 → c.py < 16 →
      let id := (c.readSys 0).toNat
      id % 2 ^ 5 = c.px ∧ id / 2 ^ 8 % 2 ^ 4 = c.py ∧ id / 2 ^ 16 % 2 ^ 2 = 2 * (c.py / 8) + c.px / 16 ∧
      id / 2 ^ 24 % 2 ^ 6 = 8 * (c.py / 2) + c.px / 4)

/-- R28, R35, R36, R38, R39, R52, R154, R156, R157, R281, R285, R287, R306, R307: what registers of every kind and handles hold
once written. -/
def Obligations.RegistersAndHandles : Prop :=
  Claim.RegistersReadBack ∧ Claim.HandlePointersMove ∧ Claim.ControlRegistersReadBack ∧ Claim.SystemRegistersReadBack

/-! ## Class V (R161 to R186) -/

/-- R165: the repetitions of a V syllable are operations of their own, each starting `w` cycles after the one before
with its v registers one higher; nothing else of the core changes at issue. -/
def Obligations.RepetitionsAdvance : Prop :=
  ∀ (c : Core) (f : Flight) (str : Nat → List Stream) (w n : Nat),
    c.repeats f str w n 0 = { c with
      nextUid := c.nextUid + n
      flights := c.flights ++ (List.range n).map fun r => { f with
        uid := c.nextUid + r, issue := f.issue + r * w
        d := if f.d < 40 then f.d + r else f.d
        a := if f.a < 40 then f.a + r else f.a
        b := if f.b < 40 then f.b + r else f.b
        streams := str (f.issue + r * w) } }

/-- R29, R120, R121, R126, R136, R137, R162, R180, R185, R186: where a row-streamed V instruction traps. A register code beyond
its set or that names a source only in the destination raises the illegal-syllable trap, detail 0x04; a format that its row of
R162 does not give, detail 0x05; a repetition that passes the last register, detail 0x09; a shape whose elements pass 16 KiB,
of the mask instructions 16,384 bits, of vthr 4,096 rows too, detail 0x0A; a mask field of a mask instruction that is not 0,
detail 0x03. The lowest detail is raised; where none holds the instruction issues. -/
def Claim.VectorRowSyllablesTrap : Prop :=
  ∀ (s : State) (c : Core) (d a b : BitVec 6) (m : BitVec 4) (l : Option (BitVec 9)), s.actor = some c →
    let rows := c.regs.shape.toNat % 2 ^ 14 + 1
    let elems := rows * shapeCols c.regs.shape
    let low : Nat := (l.getD 0).toNat % 64
    let dst (r : BitVec 6) : Prop := r.toNat < 40
    let src (r : BitVec 6) : Prop := r.toNat < 50
    let past (n : Nat) (rs : List (BitVec 6)) : Prop := ∃ r ∈ rs, r.toNat < 40 ∧ 39 < r.toNat + n
    let wide := 16384 < elems * elemSize m.toNat
    let all := m.toNat ≤ 8
    let ints := 2 ≤ m.toNat ∧ m.toNat ≤ 8
    let floats := m.toNat ≤ 1
    let two (fmt big : Prop) (i : Instr) : Prop := TrapsWhere s c i [(¬(dst d ∧ src a ∧ src b), 4), (¬fmt, 5),
      (past (if a = 49 ∨ b = 49 then 0 else low) [d, a, b], 9), (big, 0x0A)] []
    let one (fmt : Prop) (i : Instr) : Prop := TrapsWhere s c i [(¬(dst d ∧ src a), 4), (¬fmt, 5),
      (past (if a = 49 then 0 else low) [d, a], 9), (wide, 0x0A)] []
    let based (fmt : Prop) (i : Instr) : Prop := TrapsWhere s c i [(¬(dst d ∧ (b = 48 ∨ b = 49)), 4), (¬fmt, 5),
      (past (if b = 49 then 0 else low) [d], 9), (wide, 0x0A)] []
    let masks (rs : List (BitVec 6)) (i : Instr) : Prop := TrapsWhere s c i [((l.getD 0).toNat / 64 ≠ 0, 3),
      (∃ r ∈ rs, 16 ≤ r.toNat, 4), (∃ r ∈ rs, 15 < r.toNat + low, 9), (16384 < elems, 0x0A)] []
    (∀ i ∈ [Instr.vadd d a b m l, .vsub d a b m l, .vmul d a b m l, .vfma d a b m l, .vmin d a b m l, .vmax d a b m l,
      .vand d a b m l, .vor d a b m l, .vxor d a b m l, .vsel d a b m l, .vperm d a b m l], two all wide i) ∧
    (∀ i ∈ [Instr.vshl d a b m l, .vshr d a b m l, .vsra d a b m l], two ints wide i) ∧
    two all (wide ∨ 4096 < rows) (.vthr d a b m l) ∧
    (∀ i ∈ [Instr.vabs d a m l, .vneg d a m l, .vbcast d a m l], one all i) ∧
    (∀ i ∈ [Instr.vexp d a m l, .vlog d a m l, .vrcp d a m l, .vrsqrt d a m l, .vtanh d a m l], one floats i) ∧
    based ints (.viota d b m l) ∧ based (m.toNat = 6 ∨ m.toNat = 7) (.vrand d b m l) ∧
    masks [d, a, b] (.mand d a b l) ∧ masks [d, a, b] (.mor d a b l) ∧ masks [d, a] (.mnot d a l)

/-- R161, R162, R165, R168, R170, R172, R174, R180, R183, R185, R186: a row-streamed V instruction that is clear puts its
repetitions in flight; row j of each is read j cycles after the repetition's start and written k cycles later, k being
the latency of its unit, and a repetition starts k+rows−1 cycles after the one before. -/
def Claim.VectorRowsIssue : Prop :=
  ∀ (s : State) (c : Core) (d a b : BitVec 6) (m : BitVec 4) (l : Option (BitVec 9)),
    let rows := c.regs.shape.toNat % 2 ^ 14 + 1
    let low : Nat := (l.getD 0).toNat % 64
    let streams (k t : Nat) : List Stream :=
      [{ eff := .vread, first := t, n := rows }, { eff := .vwrite, first := t + k, n := rows }]
    let two (i : Instr) (k : Nat) : Prop := Clear s c i →
      Makes s i (c.repeats (vflight (s.ctx c) c i d.toNat a.toNat b.toNat l) (streams k) (k + rows - 1)
        (if a = 49 ∨ b = 49 then 1 else low + 1) 0)
    let one (i : Instr) (k : Nat) : Prop := Clear s c i →
      Makes s i (c.repeats (vflight (s.ctx c) c i d.toNat a.toNat 48 l) (streams k) (k + rows - 1)
        (if a = 49 then 1 else low + 1) 0)
    let based (i : Instr) (k : Nat) : Prop := Clear s c i →
      Makes s i (c.repeats { vflight (s.ctx c) c i d.toNat 48 48 l with
        y := if b = 49 then c.regs.readG (lendLow l) else 0 } (streams k) (k + rows - 1) (if b = 49 then 1 else low + 1) 0)
    let masks (i : Instr) (b : Nat) : Prop := Clear s c i →
      Makes s i (c.repeats (vflight (s.ctx c) c i d.toNat a.toNat b l) (streams 3) (rows + 2) (low + 1) 0)
    two (.vadd d a b m l) 3 ∧ two (.vsub d a b m l) 3 ∧ two (.vmul d a b m l) 4 ∧ two (.vfma d a b m l) 4 ∧
    two (.vmin d a b m l) 3 ∧ two (.vmax d a b m l) 3 ∧ one (.vabs d a m l) 3 ∧ one (.vneg d a m l) 3 ∧
    two (.vand d a b m l) 3 ∧ two (.vor d a b m l) 3 ∧ two (.vxor d a b m l) 3 ∧ two (.vshl d a b m l) 3 ∧
    two (.vshr d a b m l) 3 ∧ two (.vsra d a b m l) 3 ∧ two (.vsel d a b m l) 3 ∧ one (.vexp d a m l) 9 ∧
    one (.vlog d a m l) 9 ∧ one (.vrcp d a m l) 9 ∧ one (.vrsqrt d a m l) 9 ∧ one (.vtanh d a m l) 9 ∧
    two (.vthr d a b m l) 6 ∧ one (.vbcast d a m l) 5 ∧ two (.vperm d a b m l) 5 ∧ based (.viota d b m l) 3 ∧
    based (.vrand d b m l) 4 ∧ masks (.mand d a b l) b.toNat ∧ masks (.mor d a b l) b.toNat ∧ masks (.mnot d a l) 0

/-- R29, R120, R121, R126, R136, R137, R161, R162, R165, R168, R170, R172, R174, R180, R183, R185, R186: the row-streamed V
instructions at issue. -/
def Obligations.VectorRowInstructionsIssue : Prop :=
  Claim.VectorRowSyllablesTrap ∧ Claim.VectorRowsIssue

/-- R29, R120, R121, R126, R136, R137, R162, R171, R173, R175, R176, R178, R179, R181 to R183, R186: where the V instructions of
other shapes trap, with details 0x03, 0x04, 0x05, 0x09 and 0x0A as the row-streamed ones. A pair of formats that vcvt or vwid
does not convert is detail 0x05. Detail 0x06 is a condition of vcmp that does not exist, or un of integers; a repetition of
vcmp, vcas, vhist or mpop; and a pair of vcas that is odd or passes v39. The destination of a vtrn has 256 columns at most. -/
def Claim.VectorOtherSyllablesTrap : Prop :=
  ∀ (s : State) (c : Core) (f3 d3 : BitVec 3) (d a b : BitVec 6) (e : BitVec 2) (g m : BitVec 4) (l : Option (BitVec 9)),
    s.actor = some c →
    let rows := c.regs.shape.toNat % 2 ^ 14 + 1
    let elems := rows * shapeCols c.regs.shape
    let low : Nat := (l.getD 0).toNat % 64
    let dst (r : BitVec 6) : Prop := r.toNat < 40
    let src (r : BitVec 6) : Prop := r.toNat < 50
    let wide := 16384 < elems * elemSize m.toNat
    let half (m : Nat) : Nat := if m = 11 then 1 else 2 * elemSize m
    let widePair (p : Nat) : Prop := 32768 < elems * max (half p) (half m.toNat)
    let late (fmt big : Prop) (i : Instr) : Prop := TrapsWhere s c i [(¬(dst d ∧ src a), 4), (¬fmt, 5),
      (∃ r ∈ [d, a], r.toNat < 40 ∧ 39 < r.toNat + if a = 49 then 0 else low, 9), (big, 0x0A)] []
    TrapsWhere s c (.vcmp f3 d3 a b m l) [(¬(src a ∧ src b), 4), (8 < m.toNat, 5),
      (f3.toNat = 7 ∨ (f3.toNat = 6 ∧ 1 < m.toNat) ∨ (a ≠ 49 ∧ b ≠ 49 ∧ low ≠ 0), 6), (wide, 0x0A)] [] ∧
    TrapsWhere s c (.vcas d a b m l) [(¬(dst d ∧ dst a ∧ dst b), 4), (8 < m.toNat, 5),
      ((∃ r ∈ [d, a, b], r.toNat % 2 = 1) ∨ 36 < d.toNat ∨ low ≠ 0, 6), (wide, 0x0A)] [] ∧
    TrapsWhere s c (.vcvt d a e g m l) [(¬(dst d ∧ a.toNat < 49), 4),
      (m.toNat ∉ [[1, 2, 3, 4, 5, 6, 7, 8, 9, 10, 11], [0, 1, 3, 4, 6, 7, 8], [0, 1, 2, 3, 4, 7, 8],
        [2, 3, 4, 5, 6, 7, 8, 9, 10, 11]].getD e.toNat [], 5),
      (widePair ([0, 2, 6, 1].getD e.toNat 0), 0x0A)] [] ∧
    TrapsWhere s c (.vwid d a g m l) [(low / 16 ≠ 0, 3), (¬(dst d ∧ a.toNat < 49), 4),
      ((g.toNat, m.toNat) ∉ [(9, 0), (9, 1), (10, 0), (10, 1), (11, 0), (11, 1), (1, 0), (4, 3), (4, 2), (3, 2), (8, 7), (8, 6),
        (8, 5), (7, 6), (7, 5), (6, 5)], 5), (widePair g.toNat, 0x0A)] [] ∧
    TrapsWhere s c (.vhist b a m l) [(¬src a, 4), (¬(2 ≤ m.toNat ∧ m.toNat ≤ 8), 5), (low ≠ 0, 6), (wide, 0x0A)] [] ∧
    TrapsWhere s c (.mpop d a l) [((l.getD 0).toNat / 64 ≠ 0, 3), (16 ≤ a.toNat, 4), (low ≠ 0, 6), (16384 < elems, 0x0A)] [] ∧
    late (m.toNat ≤ 8) wide (.vsumr d a m l) ∧ late (m.toNat ≤ 8) wide (.vmaxr d a m l) ∧
    late (m.toNat ≤ 1) wide (.vrenorm d a m l) ∧ late (m.toNat ≤ 8) (wide ∨ 256 < rows) (.vtrn d a m l)

/-- R162, R165, R171, R173, R175, R178, R179, R181 to R184, R186: the V instructions of other shapes. vcmp, vcas, vcvt
and vwid do not repeat; vsumr, vmaxr, vrenorm and vtrn write every result at one instant after the last row; vhist
appends at issue+rows+10; mpop only reads rows; vshape owes the shape. -/
def Claim.VectorOthersIssue : Prop :=
  ∀ (s : State) (c : Core) (f3 d3 : BitVec 3) (d a b : BitVec 6) (e : BitVec 2) (g m : BitVec 4)
    (l : Option (BitVec 9)) (r14 : BitVec 14) (n8 : BitVec 8),
    let rows := c.regs.shape.toNat % 2 ^ 14 + 1
    let low : Nat := (l.getD 0).toNat % 64
    let reads : Stream := { eff := .vread, first := s.now, n := rows }
    let late (i : Instr) (v : Eff) (k : Nat) : Prop := Clear s c i →
      Makes s i (c.repeats (vflight (s.ctx c) c i d.toNat a.toNat 48 l)
        (fun t => [{ eff := .vread, first := t, n := rows }, { eff := v, first := t + (rows + k), n := 1 }])
        (rows + k) (if a = 49 then 1 else low + 1) 0)
    let once (i : Instr) (P : Flight → Prop) (ss : List Stream) : Prop := Clear s c i →
      Flies s c i (fun _ => c) fun f => P f ∧ f.rows = rows ∧ f.streams = ss
    let rowed (k : Nat) : List Stream := [reads, { eff := .vwrite, first := s.now + k, n := rows }]
    once (.vcmp f3 d3 a b m l) (fun f => f.d = d3.toNat ∧ f.a = a.toNat ∧ f.b = b.toNat) (rowed 3) ∧
    once (.vcas d a b m l) (fun f => f.d = d.toNat ∧ f.a = a.toNat ∧ f.b = b.toNat) (rowed 3) ∧
    once (.vcvt d a e g m l) (fun f => f.d = d.toNat ∧ f.a = a.toNat ∧ f.y = c.regs.readG (g.setWidth 6)) (rowed 4) ∧
    once (.vwid d a g m l) (fun f => f.d = d.toNat ∧ f.a = a.toNat ∧ f.tcfg = c.regs.tcfgOf ((lendLow l).setWidth 4))
      (rowed 4) ∧
    once (.vhist b a m l) (fun f => f.a = a.toNat)
      [reads, { eff := .cqAppend, first := s.now + (rows + 10), n := 1 }] ∧
    once (.mpop d a l) (fun f => f.d = d.toNat ∧ f.a = a.toNat) [reads] ∧
    late (.vsumr d a m l) .harrow 11 ∧ late (.vmaxr d a m l) .harrow 11 ∧ late (.vrenorm d a m l) .harrow 11 ∧
    late (.vtrn d a m l) .vwrite 5 ∧
    (s.actor = some c →
      Makes s (.vshape r14 n8) (c.owes s.now 1 2 (.ctrl 0 (BitVec.ofNat 64 (r14.toNat + n8.toNat * 2 ^ 16)))))

/-- R29, R120, R121, R126, R136, R137, R162, R165, R171, R173, R175, R176, R178, R179, R181 to R184, R186: the V instructions of
other shapes at issue. -/
def Obligations.VectorOtherInstructionsIssue : Prop :=
  Claim.VectorOtherSyllablesTrap ∧ Claim.VectorOthersIssue

/-- R161, R166: a row's read changes no register, queue or memory; the operation holds what the row will write, which,
with no wrong unit among its sources, is the row computed from its sources as they stand; row j of a vtrn holds, for
element i, what element i·rows+j of the destination takes (R183). vhist adds the included elements of each bin to its counts,
which begin at 0 (R181); vrenorm counts a row whose sum is degenerate (R182); and mpop counts the ones of its rows and, with its
last row, owes gd their number at issue+rows+3 (R186). -/
def Claim.VectorRowRead : Prop :=
  ∀ (s : State) (c : Core) (u j k : Nat) (f : Flight), EventAt s c u j f k →
    ∃ c', Makes s (.vectorRowRead u j) c' ∧ SameMemories c c' ∧ SameRegisters c c' ∧
      ((∀ d a l, f.instr ≠ .mpop d a l) → (∀ b a m l, f.instr ≠ .vhist b a m l) →
        c.phys.flips = [] → f.codes = [] → (f.next j).live = true →
        ∃ g ∈ c'.flights, g.uid = u ∧ g.data = f.data ++ [(k, ((c.moved f j).busy 1).vrow (s.ctx c) (f.next j) k)] ∧
          ∀ d a m l, f.instr = .vrenorm d a m l →
            let e := elemSize m.toNat
            let on (i : Nat) : Bool := c.vec.bit ((l.getD 0).toNat / 64) (k * f.cols + i)
            let row := (List.range f.cols).map fun i => if on i then some (c.vpacked f f.a e (k * f.cols + i)) else none
            let x := rowSum m.toNat f.ovtab row / (if m = 0 then 2 ^ 23 else 2 ^ 7) % 2 ^ 8
            g.degen = f.degen + if (∃ i, i < f.cols ∧ on i = true) ∧ (x = 0 ∨ x = 255) then 1 else 0) ∧
      (∀ b a m l, f.instr = .vhist b a m l → c.phys.flips = [] → f.codes = [] → (f.next j).live = true →
        ∃ g ∈ c'.flights, g.uid = u ∧
          let old := if k = 0 then List.replicate (b.toNat + 1) 0 else f.counts
          g.counts.length = old.length ∧ ∀ (p n : Nat), old[p]? = some n →
            g.counts[p]? = some (n + (List.range f.cols).countP fun i =>
              c.vec.bit ((l.getD 0).toNat / 64) (k * f.cols + i) &&
              c.vpacked f f.a (elemSize m.toNat) (k * f.cols + i) == p)) ∧
      (∀ d a l, f.instr = .mpop d a l → c.phys.flips = [] → f.codes = [] →
        let n := f.len + (List.range f.cols).countP fun i => c.vec.bit f.a (k * f.cols + i)
        (k + 1 ≠ f.rows → (f.next j).live = true → ∃ g ∈ c'.flights, g.uid = u ∧ g.len = n) ∧
        (k + 1 = f.rows → ∃ p, c'.pends = c.pends ++ [p] ∧ p.due = f.issue + f.rows + 3 ∧
          p.what = .g d (BitVec.ofNat 64 n))) ∧
      (∀ d a m l, f.instr = .vtrn d a m l → c.vrow (s.ctx c) f k = (List.range f.cols).flatMap fun i =>
        elemRuns f.d 7 m.toNat (i * f.rows + k) (c.velem f f.a (elemSize m.toNat) k i)
          (c.vec.maskBit (lendMask l) (i * f.rows + k)))

/-- R13, R162: a row's write writes the runs held for it and no other byte; scratchpad, array, registers and
queues keep their values. -/
def Claim.VectorRowWriteFrame : Prop :=
  ∀ (s : State) (c : Core) (u j k : Nat) (f : Flight), EventAt s c u j f k → c.canonical →
    (∀ d a m l, f.instr ≠ .vtrn d a m l) →
    ∃ c', Makes s (.vectorRowWrite u j) c' ∧ c'.vec = (f.rowData k).foldl (fun v r => v.putRun r) c.vec ∧
      (∀ p a, ¬Covered (f.rowData k) p a → c'.vec.byte p a = c.vec.byte p a) ∧
      c'.sp = c.sp ∧ c'.arr = c.arr ∧ c'.phys.hbm = c.phys.hbm ∧ SameRegisters c c'

/-- R13, R162, R183: a vtrn writes every row that it holds at its one instant, in the order in which they were read, and
nothing else. -/
def Claim.TransposeWrite : Prop :=
  ∀ (s : State) (c : Core) (u j k : Nat) (f : Flight), EventAt s c u j f k → c.canonical →
    (∃ d a m l, f.instr = .vtrn d a m l) →
    ∃ c', Makes s (.vectorRowWrite u j) c' ∧ c'.vec = (f.data.flatMap fun q => q.2).foldl (fun v r => v.putRun r) c.vec ∧
      (∀ p a, ¬Covered (f.data.flatMap fun q => q.2) p a → c'.vec.byte p a = c.vec.byte p a) ∧
      c'.sp = c.sp ∧ c'.arr = c.arr ∧ c'.phys.hbm = c.phys.hbm ∧ SameRegisters c c'

/-- R28, R120, R161: what a row reads of a source code: an element of a vector register or of a bypass register as it
stands, zero for code 48, and the low bits of the scalar for code 49. -/
def Claim.VectorSources : Prop :=
  ∀ (c : Core) (f : Flight) (r e p : Nat), f.shadow = [] →
    c.vpacked f r e p = if r < 40 then c.vec.packed .v r e p else if r < 48 then c.vec.packed .b (r - 40) e p
      else if r = 49 then f.x.toNat % 2 ^ (8 * e) else 0

/-- R80, R163, R168 to R173, R175, R177, R178, R183, R185, R186: what element i of row j becomes. An element-wise
instruction, vbcast, vperm, viota and vrand, and the conversions, write it where the mask is 1, and their unit's bypass row
everywhere; vsel and vcas write both of their alternatives' places; vcmp writes a mask bit where the mask is 1, and a bypass
row of all ones and zeros; mand, mor and mnot write a mask bit. A write to m0 is discarded. It holds of an operation whose format
its row of R162 gives and whose rows lie inside the shape of R29: no other issues (R120, R186). -/
def Claim.VectorRowValues : Prop :=
  ∀ (x : Ctx) (c : Core) (f : Flight) (j : Nat) (d a b : BitVec 6) (m g : BitVec 4) (l : Option (BitVec 9)),
    c.vec.canonical → (j + 1) * f.cols ≤ 16384 →
    (m.toNat ≤ 8 ∨ (∃ s, f.instr = .vcvt d a s g m l) ∨ f.instr = .vwid d a g m l) →
    let fmt := m.toNat
    let e := elemSize fmt
    let w := 8 * e
    let v := c.rowWritten x f j
    let q (i : Nat) : Nat := j * f.cols + i
    let A (i : Nat) : Nat := c.vpacked f f.a e (q i)
    let B (i : Nat) : Nat := c.vpacked f f.b e (q i)
    let on (i : Nat) : Bool := c.vec.bit ((l.getD 0).toNat / 64) (q i)
    let row (i : Instr) (unit : Nat) (all : Bool) (value : Nat → Nat) : Prop := f.instr = i → ∀ n, n < f.cols →
      v.packed .v f.d e (q n) = (if all || on n then value n else c.vec.packed .v f.d e (q n)) ∧
      v.packed .b unit e (q n) = value n
    let elem (i : Instr) (n : Nat) : Nat :=
      elemOp i fmt (rndOf (f.round.toNat % 8)) f.ovtab (A n) (B n) (c.vpacked f f.d e (q n)) % 2 ^ w
    let mixed (y : Word) : Word := (y ^^^ (y >>> 29)) * 0x9E3779B97F4A7C15#64
    let random (k : Nat) : Nat :=
      let tid : Word := BitVec.ofNat 64 (f.round.toNat / 2 ^ 16 % 2 ^ 16)
      (mixed (mixed (mixed (x.la.seed ^^^ (tid <<< 48 ||| BitVec.ofNat 64 (k % 2 ^ 48))))) >>> 48).toNat
    (∀ i ∈ [Instr.vadd d a b m l, .vsub d a b m l, .vmin d a b m l, .vmax d a b m l, .vabs d a m l, .vneg d a m l],
      row i 0 false (elem i)) ∧
    (∀ i ∈ [Instr.vand d a b m l, .vor d a b m l, .vxor d a b m l, .vshl d a b m l, .vshr d a b m l, .vsra d a b m l],
      row i 1 false (elem i)) ∧
    (∀ i ∈ [Instr.vmul d a b m l, .vfma d a b m l], row i 2 false (elem i)) ∧
    (∀ i ∈ [Instr.vexp d a m l, .vlog d a m l, .vrcp d a m l, .vrsqrt d a m l, .vtanh d a m l], row i 3 false (elem i)) ∧
    row (.vsel d a b m l) 1 true (fun n => if on n then A n else B n) ∧
    row (.vbcast d a m l) 7 false (fun _ => c.vpacked f f.a e j) ∧
    row (.vperm d a b m l) 7 false (fun n => if B n < f.cols then c.vpacked f f.a e (q (B n)) else 0) ∧
    row (.viota d b m l) 0 false (fun n => (f.y.toNat + q n) % 2 ^ w) ∧
    (fmt = 6 ∨ fmt = 7 → row (.vrand d b m l) 1 false fun n => random (f.y.toNat + q n)) ∧
    (∀ y z : BitVec 3, f.instr = .vcmp y z a b m l → ∀ n, n < f.cols →
      (f.d = 0 → v.m = c.vec.m) ∧
      (f.d ≠ 0 → v.bit f.d (q n) = if on n then vcond y.toNat fmt (A n) (B n) else c.vec.bit f.d (q n)) ∧
      v.packed .b 5 e (q n) = if vcond y.toNat fmt (A n) (B n) then 2 ^ w - 1 else 0) ∧
    (f.instr = .vcas d a b m l → q f.cols * e ≤ 16384 → ∀ n, n < f.cols →
      let X := (A n, c.vpacked f (f.a + 1) e (q n))
      let Y := (B n, c.vpacked f (f.b + 1) e (q n))
      let swap := on n && vbefore fmt Y X
      let first := if swap then Y else X
      let second := if swap then X else Y
      v.packed .v f.d e (q n) = first.1 ∧ v.packed .v (f.d + 1) e (q n) = first.2 ∧
      v.packed .v (f.d + 2) e (q n) = second.1 ∧ v.packed .v (f.d + 3) e (q n) = second.2 ∧
      v.packed .b 5 e (q n) = first.1) ∧
    (let mask (i : Instr) (value : Nat → Bool) : Prop := f.instr = i → ∀ n, n < f.cols →
        (f.d = 0 → v.m = c.vec.m) ∧ (f.d ≠ 0 → v.bit f.d (q n) = value n)
      let bit (r n : Nat) : Bool := c.vec.bit r (q n)
      mask (.mand d a b l) (fun n => bit f.a n && bit f.b n) ∧ mask (.mor d a b l) (fun n => bit f.a n || bit f.b n) ∧
      mask (.mnot d a l) (fun n => !bit f.a n)) ∧
    (let nibble (r n : Nat) (u : VecFile) : Nat := (u.byte .v (r * 16384 + q n / 2)).toNat / 16 ^ (q n % 2) % 16
      let converts (i : Instr) (value : Nat → Nat) : Prop :=
        (fmt ≠ 11 → row i 4 false fun n => value n % 2 ^ w) ∧
        (fmt = 11 → f.instr = i → ∀ n, n < f.cols →
          nibble f.d n v = if on n then value n % 16 else nibble f.d n c.vec)
      (∀ s : BitVec 2,
        let src := [0, 2, 6, 1].getD s.toNat 0
        let mode := f.round.toNat % 8
        converts (.vcvt d a s g m l) fun n =>
          let r := (l.getD 0).toNat / 16 % 4
          let sr : Rnd := .sr (random (f.y.toNat + q n))
          dstBits fmt f.tcfg f.ovtab
            (if r = 0 then (if mode = 4 then sr else rndOf mode) else if r = 1 then .ne else if r = 2 then .rz else sr)
            (srcNum src 0 (c.vpacked f f.a (elemSize src) (q n)))) ∧
      (g.toNat ≠ 11 → converts (.vwid d a g m l) fun n =>
        dstBits fmt f.tcfg f.ovtab .ne (srcNum g.toNat (f.tcfg.toNat / 2 ^ 24 % 2 ^ 8)
          (c.vpacked f f.a (elemSize g.toNat) (q n)))) ∧
      (g.toNat = 11 → f.shadow = [] → f.a < 40 → converts (.vwid d a g m l) fun n =>
        dstBits fmt f.tcfg f.ovtab .ne (srcNum 11 (f.tcfg.toNat / 2 ^ 24 % 2 ^ 8) (nibble f.a n c.vec))))

/-- R13, R28, R120, R161 to R163, R166, R181 to R183, R186: a vector row's read and its write complete in every state in which
they are due, and a vtrn's write does; what a row is read from. -/
def Obligations.VectorRowEvents : Prop :=
  Claim.VectorRowRead ∧ Claim.VectorRowWriteFrame ∧ Claim.TransposeWrite ∧ Claim.VectorSources

/-- R30, R32: a run written into a canonical file leaves the masked-off bits of each byte as they were and gives the
others the run's; the mask m0 is not written (R28). -/
def Obligations.RunWritesItsBytes : Prop :=
  ∀ (v : VecFile) (r : Run) (i : Nat) (m x : Byte), v.canonical → r.bytes[i]? = some (m, x) →
    (v.putRun r).byte r.space (r.addr + i) =
      if r.space = .m ∧ r.addr < 2048 then v.byte r.space (r.addr + i)
      else (v.byte r.space (r.addr + i) &&& ~~~m) ||| (x &&& m)

/-- R168, R170: the integer results of the element-wise instructions, for every integer format, are those of the
integers, taken modulo 2 to the power of the element's width; vmin and vmax give the lesser and the greater. -/
def Claim.VectorIntegerElements : Prop :=
  ∀ (m : Nat) (dd aa bb : BitVec 6) (mm : BitVec 4) (l : Option (BitVec 9)) (r : Rnd) (ov : Word) (a b d : Nat),
    2 ≤ m → m ≤ 8 →
    let w := 8 * elemSize m
    a < 2 ^ w → b < 2 ^ w → d < 2 ^ w →
    elemOp (.vadd dd aa bb mm l) m r ov a b d = (a + b) % 2 ^ w ∧
    elemOp (.vsub dd aa bb mm l) m r ov a b d = (a + (2 ^ w - b)) % 2 ^ w ∧
    elemOp (.vmul dd aa bb mm l) m r ov a b d = a * b % 2 ^ w ∧
    elemOp (.vfma dd aa bb mm l) m r ov a b d = (a * b + d) % 2 ^ w ∧
    elemOp (.vneg dd aa mm l) m r ov a b d = (2 ^ w - a) % 2 ^ w ∧
    elemOp (.vand dd aa bb mm l) m r ov a b d = a &&& b ∧
    elemOp (.vor dd aa bb mm l) m r ov a b d = a ||| b ∧
    elemOp (.vxor dd aa bb mm l) m r ov a b d = a ^^^ b ∧
    elemOp (.vshl dd aa bb mm l) m r ov a b d = a * 2 ^ (b % w) % 2 ^ w ∧
    elemOp (.vshr dd aa bb mm l) m r ov a b d = a / 2 ^ (b % w) ∧
    elemOp (.vsra dd aa bb mm l) m r ov a b d = ((BitVec.ofNat w a).sshiftRight (b % w)).toNat ∧
    decInt m (elemOp (.vmin dd aa bb mm l) m r ov a b d) = min (decInt m a) (decInt m b) ∧
    decInt m (elemOp (.vmax dd aa bb mm l) m r ov a b d) = max (decInt m a) (decInt m b) ∧
    elemOp (.vabs dd aa mm l) m r ov a b d = (decInt m a).natAbs % 2 ^ w

/-- R68, R75, R77, R78, R169, R170, R174: the float results of the element-wise instructions in f32 (format 0) and bf16 (format
1). vadd, vsub, vmul and vfma of finite numbers give the exact result rounded once, and rounding a number that the format holds
gives its word; an exact zero has the sign of both its terms, and of terms that differ −0 where the mode rounds toward −∞, and
a zero product the exclusive or of the signs; a NaN, ∞ − ∞ and 0 × ∞ give the canonical NaN, and other sums and products with
an infinity an infinity with their sign; vmin and vmax put −0 below +0, and of equal operands give either's bits; vabs and vneg
clear and invert the sign bit; the special functions give the table of their special inputs. -/
def Claim.VectorFloatElements : Prop :=
  ∀ (m : Nat) (dd aa bb : BitVec 6) (mm : BitVec 4) (l : Option (BitVec 9)) (r : Rnd) (ov : Word) (a b d : Nat),
    m ≤ 1 →
    let w := 8 * elemSize m
    let x := decFloat m a
    let y := decFloat m b
    let top := 2 ^ (w - 1)
    let nan := if m = 0 then 0x7FC00000 else 0x7FC0
    let inf := if m = 0 then 0x7F800000 else 0x7F80
    let one := if m = 0 then 0x3F800000 else 0x3F80
    let gives (i : Instr) (v : Nat) : Prop := elemOp i m r ov a b d = v
    let rounds (i : Instr) (g : Int) (v : Int) : Prop :=
      ∃ z : Machine.Num, z.at g = some v ∧ gives i (encFloat m ov r z)
    a < 2 ^ w → b < 2 ^ w →
    (x ≠ .nan → encFloat m ov r x = a) ∧
    (x = .nan ∨ y = .nan → ∀ i ∈ [Instr.vadd dd aa bb mm l, .vsub dd aa bb mm l, .vmul dd aa bb mm l, .vmin dd aa bb mm l,
      .vmax dd aa bb mm l], gives i nan) ∧
    (∀ g p q, x.at g = some p → y.at g = some q →
      rounds (.vadd dd aa bb mm l) g (p + q) ∧ rounds (.vsub dd aa bb mm l) g (p - q)) ∧
    (∀ g h p q, x.at g = some p → y.at h = some q → rounds (.vmul dd aa bb mm l) (g + h) (p * q)) ∧
    let z := decFloat m d
    let zero (s t : Bool) : Nat := if (if s = t then s else decide (r = .dn)) then top else 0
    (∀ g p q, x.at g = some p → y.at g = some q → p + q = 0 → gives (.vadd dd aa bb mm l) (zero x.sign y.sign)) ∧
    (∀ g p q, x.at g = some p → y.at g = some q → p - q = 0 → gives (.vsub dd aa bb mm l) (zero x.sign !y.sign)) ∧
    (∀ g h p q, x.at g = some p → y.at h = some q → p * q = 0 →
      gives (.vmul dd aa bb mm l) (if x.sign = y.sign then 0 else top)) ∧
    (x = .nan ∨ y = .nan ∨ z = .nan → gives (.vfma dd aa bb mm l) nan) ∧
    (∀ g h p q v, x.at g = some p → y.at h = some q → z.at (g + h) = some v →
      rounds (.vfma dd aa bb mm l) (g + h) (p * q + v) ∧
      (p * q + v = 0 → gives (.vfma dd aa bb mm l) (zero (x.sign != y.sign) z.sign))) ∧
    (∀ s t g, (x = .inf s ∧ y = .inf t ∧ s ≠ t → gives (.vadd dd aa bb mm l) nan) ∧
      (x = .inf s ∧ y = .inf t ∧ s = t → gives (.vsub dd aa bb mm l) nan) ∧
      (x = .inf s ∧ y.at g = some 0 ∨ x.at g = some 0 ∧ y = .inf s →
        gives (.vmul dd aa bb mm l) nan ∧ gives (.vfma dd aa bb mm l) nan) ∧
      (x = .inf s → y = .inf t → z = .inf (s == t) → gives (.vfma dd aa bb mm l) nan)) ∧
    (let infinite (n : Machine.Num) : Prop := n = .inf n.sign
      let finite (n : Machine.Num) : Prop := n ≠ .nan ∧ ¬infinite n
      let some0 (n : Machine.Num) : Prop := n ≠ .nan ∧ n.isZero = false
      let word (s : Bool) : Nat := if s then inf + top else inf
      let sign := x.sign != y.sign
      (infinite x → finite y ∨ y = .inf x.sign → gives (.vadd dd aa bb mm l) (word x.sign)) ∧
      (infinite x → finite y ∨ y = .inf (!x.sign) → gives (.vsub dd aa bb mm l) (word x.sign)) ∧
      (finite x → infinite y → gives (.vadd dd aa bb mm l) (word y.sign) ∧ gives (.vsub dd aa bb mm l) (word !y.sign)) ∧
      ((infinite x ∧ some0 y) ∨ (some0 x ∧ infinite y) → gives (.vmul dd aa bb mm l) (word sign) ∧
        (finite z ∨ z = .inf sign → gives (.vfma dd aa bb mm l) (word sign))) ∧
      (finite x → finite y → infinite z → gives (.vfma dd aa bb mm l) (word z.sign)) ∧
      (x ≠ .nan → a = b → gives (.vmin dd aa bb mm l) a ∧ gives (.vmax dd aa bb mm l) a)) ∧
    (Machine.Num.lt x y = true → gives (.vmin dd aa bb mm l) a ∧ gives (.vmax dd aa bb mm l) b) ∧
    (Machine.Num.lt y x = true → gives (.vmin dd aa bb mm l) b ∧ gives (.vmax dd aa bb mm l) a) ∧
    (a = top → b = 0 → gives (.vmin dd aa bb mm l) top ∧ gives (.vmax dd aa bb mm l) 0) ∧
    (a = 0 → b = top → gives (.vmin dd aa bb mm l) top ∧ gives (.vmax dd aa bb mm l) 0) ∧
    (x ≠ .nan → gives (.vabs dd aa mm l) (a % top) ∧ gives (.vneg dd aa mm l) (a ^^^ top)) ∧
    (x = .nan → ∀ i ∈ [Instr.vabs dd aa mm l, .vneg dd aa mm l, .vexp dd aa mm l, .vlog dd aa mm l, .vrcp dd aa mm l,
      .vrsqrt dd aa mm l, .vtanh dd aa mm l], gives i nan) ∧
    let e := Instr.vexp dd aa mm l
    let g := Instr.vlog dd aa mm l
    let c := Instr.vrcp dd aa mm l
    let q := Instr.vrsqrt dd aa mm l
    let t := Instr.vtanh dd aa mm l
    (a = 0 → gives e one ∧ gives g (inf + top) ∧ gives c inf ∧ gives q inf ∧ gives t 0) ∧
    (a = top → gives e one ∧ gives g (inf + top) ∧ gives c (inf + top) ∧ gives q (inf + top) ∧ gives t top) ∧
    (a = inf → gives e inf ∧ gives g inf ∧ gives c 0 ∧ gives q 0 ∧ gives t one) ∧
    (a = inf + top → gives e 0 ∧ gives g nan ∧ gives c top ∧ gives q nan ∧ gives t (one + top)) ∧
    (∀ n k, x = .fin true n k → n ≠ 0 → gives g nan ∧ gives q nan)

/-- R68 to R70, R77 to R79, R81, R82: the rounding of a number m·2^e into f32, bf16, e4m3 and e5m2, and into e2m1 where its extra
value takes no part. The magnitude goes to a multiple of the step of its binade, which is never finer than the smallest
subnormal: to the nearest, of two the even one; toward zero; toward +∞ or −∞; or, under stochastic rounding, upward where the
first 16 of its discarded bits and the random word carry. A multiple that the format holds is the result, with the sign of the
number; a larger one is an overflow: of f32 the infinity, or the largest finite value where the mode rounds away from it, of
the others what the overflow table says. e2m1 has one zero and overflows to 6. -/
def Claim.FloatRounding : Prop :=
  ∀ (q : Nat) (p : Nat) (low high : Int) (most : Nat) (r : Rnd) (cfg ov : Word) (s : Bool) (m : Nat) (e : Int),
    (q, p, low, most, high) ∈ [(0, 24, -149, 2 ^ 24 - 1, 104), (1, 8, -133, 2 ^ 8 - 1, 120), (9, 4, -9, 7, 6), (10, 3, -16, 7, 13),
      (11, 2, -1, 3, 1)] → m ≠ 0 →
    (q = 11 → cfg.getLsbD 32 = false ∨ ∃ w, r = .sr w) → (∀ w, r = .sr w → w < 2 ^ 16) →
    let bits := dstBits q cfg ov r (.fin s m e)
    let value := if q = 0 then decF32 bits else if q = 1 then decBf16 bits else if q = 9 then decE4m3 bits
      else if q = 10 then decE5m2 bits else decE2m1 0 bits
    ∃ (g : Int) (t : Nat),
      let f := min g e
      let X := m * 2 ^ (e - f).toNat
      let U := 2 ^ (g - f).toNat
      let n := (g - f).toNat
      (low ≤ g ∧ X < 2 ^ p * U ∧ (low < g → 2 ^ (p - 1) * U ≤ X)) ∧
      (r = .ne → 2 * t * U ≤ 2 * X + U ∧ 2 * X ≤ 2 * t * U + U ∧ (2 * t * U = 2 * X + U ∨ 2 * X = 2 * t * U + U → t % 2 = 0)) ∧
      (r = .rz ∨ (r = .up ∧ s = true) ∨ (r = .dn ∧ s = false) → t * U ≤ X ∧ X < (t + 1) * U) ∧
      ((r = .up ∧ s = false) ∨ (r = .dn ∧ s = true) → X ≤ t * U ∧ t * U < X + U) ∧
      (∀ w, r = .sr w → t = X / U + if n ≠ 0 ∧ (if n ≤ 16 then 2 ^ n ≤ X % U + w / 2 ^ (16 - n)
        else 2 ^ 16 ≤ X % U / 2 ^ (n - 16) + w) then 1 else 0) ∧
      let fits := Machine.Num.lt (.fin false most high) (.fin false t g) = false
      let minus (v : Nat) : Nat := v + if s then (if q = 0 then 2 ^ 31 else if q = 1 then 2 ^ 15 else if q = 11 then 2 ^ 3 else 2 ^ 7) else 0
      let entry := ov.toNat / 2 ^ (if q = 1 then 0 else if q = 9 then 2 else 4) % 2 ^ 2
      (fits → Machine.Num.eq value (.fin s t g) = true ∧ (q ≠ 11 → value.sign = s) ∧ (q = 11 → bits ≠ 8 ∧ bits < 16)) ∧
      (¬fits → q = 0 → (∀ w, r ≠ .sr w) → bits = minus (if r = .rz ∨ (r = .up ∧ s = true) ∨ (r = .dn ∧ s = false) then 0x7F7FFFFF else 0x7F800000)) ∧
      (¬fits → q = 1 → (entry = 0 → bits = minus 0x7F7F) ∧ (entry = 1 → bits = minus 0x7F80) ∧ (entry = 2 → bits = 0x7FC0)) ∧
      (¬fits → q = 9 → (entry = 0 → bits = minus 0x7E) ∧ (entry = 2 → bits = 0x7F)) ∧
      (¬fits → q = 10 → (entry = 0 → bits = minus 0x7B) ∧ (entry = 1 → bits = minus 0x7C) ∧ (entry = 2 → bits = 0x7E)) ∧
      (¬fits → q = 11 → bits = minus 7)

/-- R71, R72, R77, R78: with alt4use set a number of magnitude at most 6 goes into e2m1 by its set, which the extra value joins
where it is not zero, lies below 6 and is none of the others: to the nearest, of two the one that is not the extra value, else
the even code; toward zero; or to the next at or above, or at or below it. A magnitude above 6 gives 6. -/
def Claim.ExtraValueRounding : Prop :=
  ∀ (r : Rnd) (cfg ov : Word) (x : Machine.Num) (s : Bool) (m : Nat) (e : Int), cfg.getLsbD 32 = true → (∀ w, r ≠ .sr w) →
    x = .fin s m e → m ≠ 0 →
    let extra := cfg.toNat / 2 ^ 24 % 2 ^ 8
    let six (s : Bool) : Machine.Num := .fin s 6 0
    let lt := Machine.Num.lt
    let joins : Prop := let a := decE4m3 extra
      a.isZero = false ∧ lt (six true) a = true ∧ lt a (six false) = true ∧
        ∀ c, c < 16 → c ≠ 8 → Machine.Num.eq (decE2m1 extra c) a = false
    let inSet (c : Nat) : Prop := c < 16 ∧ (c = 8 → joins)
    let at_ (c : Nat) : Machine.Num := decE2m1 extra c
    let away (c : Nat) : Machine.Num := (Machine.Num.add false x (at_ c).neg).abs
    let v := dstBits 11 cfg ov r x
    (lt (six false) x.abs = true → v = if s then 15 else 7) ∧
    (lt (six false) x.abs = false → inSet v ∧ ∀ c, inSet c →
      (r = .ne → lt (away c) (away v) = false ∧
        (lt (away v) (away c) = false → Machine.Num.eq (at_ c) (at_ v) = false → v ≠ 8 ∧ (c ≠ 8 → v % 2 = 0))) ∧
      (r = .up ∨ (r = .rz ∧ s = true) → lt (at_ v) x = false ∧ (lt (at_ c) x = false → lt (at_ c) (at_ v) = false)) ∧
      (r = .dn ∨ (r = .rz ∧ s = false) → lt x (at_ v) = false ∧ (lt x (at_ c) = false → lt (at_ v) (at_ c) = false)))

/-- R72, R74, R75, R77, R78, R82, R83, R175 to R178: the elements that vcvt and vwid convert. Widening keeps the value of
every integer, and of every e4m3, e5m2, e2m1 and bf16 element but a NaN; a float enters an integer format rounded in the
mode, a NaN as 0 and an infinity as the limit; and an integer outside the format takes the limit, or the low bits where
the overflow table says wrap. -/
def Claim.VectorConversions : Prop :=
  (∀ (p q : Nat) (cfg ov : Word) (r : Rnd) (w : Nat),
    (p, q) ∈ [(4, 3), (4, 2), (3, 2), (8, 7), (8, 6), (8, 5), (7, 6), (7, 5), (6, 5)] →
    decInt q (dstBits q cfg ov r (srcNum p 0 w)) = decInt p w) ∧
  (∀ (cfg ov : Word) (r : Rnd) (w : Nat), w < 2 ^ 16 → decBf16 w ≠ .nan →
    dstBits 0 cfg ov r (srcNum 1 0 w) = w * 2 ^ 16) ∧
  (∀ (p q alt : Nat) (cfg ov : Word) (w : Nat), p ∈ [9, 10, 11] → q ≤ 1 → w < 256 → alt < 256 →
    let x := srcNum p alt w
    let y := decFloat q (dstBits q cfg ov .ne x)
    (x = .nan → dstBits q cfg ov .ne x = if q = 0 then 0x7FC00000 else 0x7FC0) ∧
    (x ≠ .nan → y.sign = x.sign ∧ Machine.Num.eq y x = true)) ∧
  (∀ (m : Nat) (cfg ov : Word) (r : Rnd), 2 ≤ m → m ≤ 8 →
    let lo : Int := if m ≤ 4 then -2 ^ (8 * elemSize m - 1) else 0
    let hi : Int := if m ≤ 4 then 2 ^ (8 * elemSize m - 1) - 1 else 2 ^ (8 * elemSize m) - 1
    let enters (x : Machine.Num) (g : Int) : Prop :=
      let v := dstBits m cfg ov r x
      let wrap := ovEntry ov (ovBit m) = 3
      (lo ≤ g → g ≤ hi → decInt m v = g) ∧
      (g < lo → if wrap then (v : Int) = g % 2 ^ (8 * elemSize m) else decInt m v = lo) ∧
      (hi < g → if wrap then (v : Int) = g % 2 ^ (8 * elemSize m) else decInt m v = hi)
    dstBits m cfg ov r .nan = 0 ∧ decInt m (dstBits m cfg ov r (.inf true)) = lo ∧
    decInt m (dstBits m cfg ov r (.inf false)) = hi ∧
    ∀ (x : Machine.Num) (q v : Int), q ≤ 0 → x.at q = some v →
      let u : Int := 2 ^ (-q).toNat
      ∃ g : Int, enters x g ∧
        (r = .ne → 2 * (v - g * u).natAbs ≤ u ∧ (2 * ((v - g * u).natAbs : Int) = u → g % 2 = 0)) ∧
        (r = .rz → g.natAbs * u ≤ v.natAbs ∧ v.natAbs < (g.natAbs + 1) * u ∧ 0 ≤ g * v) ∧
        (r = .up → (g - 1) * u < v ∧ v ≤ g * u) ∧ (r = .dn → g * u ≤ v ∧ v < (g + 1) * u))

/-- R171, R173: the conditions of vcmp and the order of vcas. Integers compare by their value, signed or natural; of floats a
NaN makes every condition false but ne and un, and −0 equals +0. In the order of vcas the greater value ranks ahead, a
NaN behind every number, and of equal values or of two NaNs the one of the lower index. -/
def Claim.VectorConditions : Prop :=
  ∀ (m a b i j : Nat), a < 2 ^ (8 * elemSize m) → b < 2 ^ (8 * elemSize m) →
    let ahead := vbefore m (a, i) (b, j)
    (2 ≤ m → m ≤ 8 →
      let p := decInt m a
      let q := decInt m b
      (vcond 0 m a b = true ↔ p = q) ∧ (vcond 1 m a b = true ↔ p ≠ q) ∧ (vcond 2 m a b = true ↔ p < q) ∧
      (vcond 3 m a b = true ↔ p ≤ q) ∧ (vcond 4 m a b = true ↔ q < p) ∧ (vcond 5 m a b = true ↔ q ≤ p) ∧
      (ahead = true ↔ q < p ∨ (p = q ∧ i < j))) ∧
    (m ≤ 1 →
      let x := decFloat m a
      let y := decFloat m b
      (x = .nan ∨ y = .nan → ∀ f, f ≤ 6 → (vcond f m a b = true ↔ f = 1 ∨ f = 6)) ∧
      (x = .nan → y = .nan → (ahead = true ↔ i < j)) ∧ (x = .nan → y ≠ .nan → ahead = false) ∧
      (x ≠ .nan → y = .nan → ahead = true) ∧
      (∀ g p q, x.at g = some p → y.at g = some q →
        (vcond 0 m a b = true ↔ p = q) ∧ (vcond 1 m a b = true ↔ p ≠ q) ∧ (vcond 2 m a b = true ↔ p < q) ∧
        (vcond 3 m a b = true ↔ p ≤ q) ∧ (vcond 4 m a b = true ↔ q < p) ∧ (vcond 5 m a b = true ↔ q ≤ p) ∧
        vcond 6 m a b = false ∧ (ahead = true ↔ q < p ∨ (p = q ∧ i < j))) ∧
      (∀ s g q, x = .inf s → y.at g = some q →
        vcond 0 m a b = false ∧ vcond 2 m a b = s ∧ vcond 5 m a b = !s ∧ vcond 6 m a b = false ∧ ahead = !s) ∧
      (∀ t g p, x.at g = some p → y = .inf t →
        vcond 0 m a b = false ∧ vcond 2 m a b = !t ∧ vcond 5 m a b = t ∧ vcond 6 m a b = false ∧ ahead = t) ∧
      (∀ s t, x = .inf s → y = .inf t → (vcond 0 m a b = true ↔ s = t) ∧ (vcond 2 m a b = true ↔ s = true ∧ t = false) ∧
        (vcond 5 m a b = true ↔ s = false ∨ t = true) ∧
        (ahead = true ↔ (s = false ∧ t = true) ∨ (s = t ∧ i < j))))

/-- R87, R105: the canonical tree. One position is its own tree; of more the left part is the largest power of two below their
number, and an empty position leaves the other as it is. -/
def Claim.CanonicalTree : Prop :=
  ∀ (g : Nat → Nat → Nat) (l r : List (Option Nat)) (v : Option Nat) (k : Nat),
    tree g [] = none ∧ tree g [v] = v ∧
    (l.length = 2 ^ k → 1 ≤ r.length → r.length ≤ 2 ^ k → tree g (l ++ r) =
      match tree g l, tree g r with
      | some x, some y => some (g x y)
      | some x, none => some x
      | none, y => y)

/-- R87, R162, R163, R179, R180, R182: what row j of vsumr, vmaxr, vthr and vrenorm gives, masked-off elements being empty
positions. A sum is the tree of vadd rounded to nearest even, 0 where every position is empty, and the canonical NaN where it
is one; a maximum is the tree of the element that ranks ahead, the left one of equals, and the least value of the format where
every position is empty, each of a format that R162 gives; vthr counts the elements at or above its threshold. vrenorm gives
its winners their quotient by the row's sum, or, where the sum is a zero, a subnormal, infinite or NaN, by their number of one,
rounded, and the others +0: the quotient of numbers m·2^e and n·2^h is rounded from its first 79 bits and more, with a last bit
for the rest. -/
def Claim.VectorRowReductions : Prop :=
  (∀ (x : Ctx) (c : Core) (f : Flight) (j : Nat) (d a b : BitVec 6) (m : BitVec 4) (l : Option (BitVec 9)),
    c.vec.canonical → f.cols ≤ 256 →
    let fmt := m.toNat
    let e := elemSize fmt
    let w := 8 * e
    let v := c.rowWritten x f j
    let q (i : Nat) : Nat := j * f.cols + i
    let A (i : Nat) : Nat := c.vpacked f f.a e (q i)
    let on (i : Nat) : Bool := c.vec.bit ((l.getD 0).toNat / 64) (q i)
    let row := (List.range f.cols).map fun i => if on i then some (A i) else none
    let plus (y z : Nat) : Nat := elemOp (.vadd d a b m l) fmt .ne f.ovtab y z 0
    let nan := if fmt = 0 then 0x7FC00000 else 0x7FC0
    let sum := match tree plus row with
      | none => 0
      | some s => if fmt ≤ 1 ∧ decFloat fmt s = .nan then nan else s
    let most := match tree (fun y z => if vbefore fmt (z, 0) (y, 0) then z else y) row with
      | some s => s
      | none => if fmt = 0 then 0xFF800000 else if fmt = 1 then 0xFF80 else if 2 ≤ fmt ∧ fmt ≤ 4 then 2 ^ (w - 1) else 0
    (f.instr = .vsumr d a m l → fmt ≤ 8 → v.packed .v f.d e j = sum % 2 ^ w ∧ v.packed .b 6 e j = sum % 2 ^ w) ∧
    (f.instr = .vmaxr d a m l → fmt ≤ 8 → v.packed .v f.d e j = most % 2 ^ w ∧ v.packed .b 6 e j = most % 2 ^ w) ∧
    (f.instr = .vthr d a b m l →
      let n := (List.range f.cols).countP fun i => on i && vcond 5 fmt (A i) (c.vpacked f f.b e j)
      v.packed .v f.d 4 j = n ∧ v.packed .b 6 4 j = n) ∧
    (f.instr = .vrenorm d a m l → fmt ≤ 1 →
      let enc (y : Machine.Num) : Nat := encFloat fmt f.ovtab (rndOf (f.round.toNat % 8)) y % 2 ^ w
      let won := (List.range f.cols).countP on
      let power := if fmt = 0 then sum / 2 ^ 23 % 2 ^ 8 else sum / 2 ^ 7 % 2 ^ 8
      ∀ i, i < f.cols → v.packed .v f.d e (q i) = v.packed .b 6 e (q i) ∧
        (on i = false → v.packed .v f.d e (q i) = 0) ∧
        (on i = true → power = 0 ∨ power = 255 → v.packed .v f.d e (q i) = enc (quotient false 1 0 won 0)) ∧
        (on i = true → power ≠ 0 → power ≠ 255 → ∀ (s t : Bool) (n y : Nat) (g h : Int), decFloat fmt (A i) = .fin s n g →
          decFloat fmt sum = .fin t y h →
          v.packed .v f.d e (q i) = enc (if n = 0 then .fin (s != t) 0 0 else quotient (s != t) n g y h)))) ∧
  ∀ (s : Bool) (m n : Nat) (e h : Int), n ≠ 0 → ∃ (p r k : Nat),
    quotient s m e n h = .fin s (2 * p + if r = 0 then 0 else 1) (e - h - k - 1) ∧ m * 2 ^ k = p * n + r ∧ r < n ∧
    (m ≠ 0 → 2 ^ 79 ≤ p)

/-- R29, R68 to R72, R74, R75, R77 to R83, R87, R105, R120, R161 to R163, R168 to R180, R182, R183, R185, R186: the elements of
class V, what a row's elements become, and what its rows come to. -/
def Obligations.VectorElements : Prop :=
  Claim.VectorRowValues ∧ Claim.VectorIntegerElements ∧ Claim.VectorFloatElements ∧ Claim.FloatRounding ∧ Claim.ExtraValueRounding ∧
  Claim.VectorConversions ∧ Claim.VectorConditions ∧
  Claim.CanonicalTree ∧ Claim.VectorRowReductions

/-- R37, R162, R179, R181, R182: the harrow's results are written at one instant and its degenerate rows counted, and a
histogram enters the count queue whole where it has room, or raises the queue imbalance and enters nothing. -/
def Claim.HarrowAndHistogramEnd : Prop :=
  ∀ (s : State) (c : Core) (u j k : Nat) (f : Flight), EventAt s c u j f k →
    let c0 := c.moved f j
    (c.canonical → ∃ c', Makes s (.harrowResultWrite u j) c' ∧
      c'.vec = (f.data.flatMap fun q => q.2).foldl (fun v r => v.putRun r) c.vec ∧
      (∀ p a, ¬Covered (f.data.flatMap fun q => q.2) p a → c'.vec.byte p a = c.vec.byte p a) ∧
      c'.sp = c.sp ∧ c'.arr = c.arr ∧ c'.q = c.q ∧
      c'.regs = { c.regs with degen := BitVec.ofNat 16 (min (c.regs.degen.toNat + f.degen) 65535) }) ∧
    (c.q.cq.length + f.counts.length ≤ 64 → ∃ c', Makes s (.countQueueAppend u j) c' ∧ c' = { c0 with
      q := { c.q with cq := c.q.cq ++ f.counts.map fun n => BitVec.ofNat 16 (min n 65535) }
      phys := { c.phys with errs := c'.phys.errs, flips := c'.phys.flips } }) ∧
    (64 < c.q.cq.length + f.counts.length →
      Makes s (.countQueueAppend u j) (c0.raise (s.ctx c) ((f.next j).trap 0x0B 4 0 0 0)))

/-! ## Class M (R187 to R205) -/

/-- R187, R196, R197: a clear wld marks its descriptors loading at issue and owes its scales, its 128 K-rows and the end of its
loading at their instants: each selected bank's descriptor of the slot gets the expert, the tile's format, the loading bit and
the extra value, of bf16 that of the slot above the expert, format 5 and the loading bit, and the other half of a bf16 pair
that a load of another format breaks is empty; no other descriptor, weight or scale changes. wset and wclr owe their change at
issue+1. The model's choice: that a broken pair's half loses its weights and scales too is log 92. With an error in the array a
wld completes all the same (R304). -/
def Claim.WeightInstructionsIssue : Prop :=
  ∀ (s : State) (c : Core) (t : BitVec 4) (z : BitVec 2) (b e : BitVec 8),
    let cfg := c.regs.tcfgOf t
    let banks := (List.range 8).filter fun i => b.getLsbD i
    let loading := banks.foldl (fun a n => a.beginLoad e.toNat z.toNat (tcFormat cfg) (tcAlt4 cfg).toNat n) c.arr
    (Clear s c (.wld t z b e) → ∃ c', Makes s (.wld t z b e) c' ∧ c'.regs = c.regs ∧ c'.q = c.q ∧ c'.vec = c.vec ∧
      c'.sp = c.sp ∧ c'.arr.acc = c.arr.acc) ∧
    (Clear s c (.wld t z b e) → c.codesClean 4 = true →
      Flies s c (.wld t z b e)
        (fun _ => { c with arr := loading })
        fun f => f.a = t.toNat ∧ f.tcfg = cfg ∧ f.streams =
          [{ eff := .wldPop, first := s.now + 2, n := 1 }, { eff := .wldK, first := s.now + 2, n := 128 },
           { eff := .loadEnd, first := s.now + 134, n := 1 }]) ∧
    (Clear s c (.wld t z b e) → c.canonical →
      let fmt := cfg.toNat % 16
      let extra := cfg.toNat / 2 ^ 24 % 2 ^ 8
      loading = { c.arr with desc := loading.desc, weight := loading.weight, scale := loading.scale } ∧
      ∀ n y, n < 8 → y < 4 →
        let named := b.getLsbD n = true ∧ y = z.toNat
        let above := b.getLsbD n = true ∧ fmt = 4 ∧ y = z.toNat + 1
        let broken := b.getLsbD n = true ∧ fmt ≠ 4 ∧ y = (z ^^^ 1#2).toNat ∧ (c.arr.descOf n y).toNat / 2 ^ 8 % 2 ^ 3 ∈ [4, 5]
        let weights (i : Nat) : Byte := c.arr.weight.get 0 ((y * 8 + n) * 4096 + i)
        let scales (i : Nat) : Byte := c.arr.scale.get 0x7F ((y * 8 + n) * 128 + i)
        (named → loading.descOf n y = BitVec.ofNat 32 (e.toNat + fmt * 2 ^ 8 + 2 ^ 11 + extra * 2 ^ 12)) ∧
        (above → loading.descOf n y = BitVec.ofNat 32 (e.toNat + 5 * 2 ^ 8 + 2 ^ 11)) ∧
        (broken → loading.descOf n y = 0x7FF#32) ∧
        (¬named → ¬above → ¬broken → loading.descOf n y = c.arr.descOf n y) ∧
        (∀ i, i < 4096 → loading.weight.get 0 ((y * 8 + n) * 4096 + i) = if broken then 0 else weights i) ∧
        ∀ i, i < 128 → loading.scale.get 0x7F ((y * 8 + n) * 128 + i) = if broken then 0x7F else scales i) ∧
    (∀ i ∈ [Instr.wset z b e, .wclr z b], Clear s c i →
      Flies s c i (fun _ => c) fun f => f.streams = [{ eff := .desc, first := s.now + 1, n := 1 }])

/-- R189, R195, R198, R199: a clear pass takes its tile configurations and its cell pattern at issue; row j is read at
issue+2+ρ(j) and added at issue+140+ρ(j), ρ being j, or ⌊j/2⌋ for e2m1, or 2j for bf16. -/
def Claim.PassesIssue : Prop :=
  ∀ (s : State) (c : Core) (d a : BitVec 6) (z : BitVec 2),
    let ca := c.regs.tcfgOf (a.setWidth 4)
    let rows := ca.toNat / 2 ^ 8 % 2 ^ 8 + 1
    let fmt := ca.toNat % 16
    let ρ : Nat × Nat := if fmt = 2 then (1, 2) else if fmt = 4 then (2, 1) else (1, 1)
    let P (dst : Nat) (f : Flight) : Prop :=
      f.rows = rows ∧ f.d = dst ∧ f.a = a.toNat ∧ f.len = z.toNat ∧ f.tcfg = ca ∧ f.pat = c.regs.cellpat ∧
      f.streams = [{ eff := .arrRead, first := s.now + 2, n := rows, mul := ρ.1, div := ρ.2 },
        { eff := .arrUpdate, first := s.now + 140, n := rows, mul := ρ.1, div := ρ.2 }]
    (∀ i ∈ [Instr.mma d a z, .mmaz d a z], Clear s c i → Flies s c i (fun _ => c) (P d.toNat)) ∧
    (∀ g : BitVec 6, Clear s c (.mmag a g z) →
      Flies s c (.mmag a g z) (fun _ => c) fun f => P 2 f ∧ f.b = g.toNat ∧ f.tcfg2 = c.regs.tcfgOf (g.setWidth 4))

/-- R33, R200 to R204: mpat, mtag and mzero owe the cell pattern, a tag lane and the store's mode; the drains read row j
at issue+1+j and write it at issue+4+j; mmiss takes the miss list at issue, empties it, and writes its entries at
issue+3. The model's choice: that a source that does not check (R304) still completes the issue, and still empties the list,
is log 126. -/
def Claim.MatrixMovesIssue : Prop :=
  ∀ (s : State) (c : Core) (t a d n b : BitVec 6) (e z : BitVec 1) (m : BitVec 4),
    let rows := c.regs.shape.toNat % 2 ^ 14 + 1
    (s.actor = some c →
      Makes s (.mpat a) (c.owes s.now 1 3 (.ctrl 9 (c.regs.readG a &&& 0xFFFFFFFF#64)))) ∧
    (Clear s c (.mtag t a) → c.phys.flips = [] → ∃ bs, bs.length = 256 ∧
      (∀ i, i < 256 → bs[i]? = some (if a.toNat < 40 then c.vec.byte .v (a.toNat * 16384 + i)
        else if a.toNat < 48 then c.vec.byte .b ((a.toNat - 40) * 16384 + i) else 0)) ∧
      Makes s (.mtag t a) (c.owes s.now 1 3 (.tags (t.setWidth 4) bs))) ∧
    (Clear s c (.mtag t a) → ∃ c' l, Makes s (.mtag t a) c' ∧ SameMemories c c' ∧ SameRegisters c c' ∧ c'.pends = c.pends ++ l ∧
      l.length ≤ 1) ∧
    (Clear s c (.mzero e) → Makes s (.mzero e) (c.owes s.now 1 3 (.accMode (e = 1)))) ∧
    (Clear s c (.mdrn d n b m) → Flies s c (.mdrn d n b m) (fun _ => c) fun f =>
      f.d = d.toNat ∧ f.a = n.toNat ∧ f.base = (c.regs.readG b).toNat ∧ f.streams =
        [{ eff := .accRead, first := s.now + 1, n := rows }, { eff := .vwrite, first := s.now + 4, n := rows }]) ∧
    (Clear s c (.mgdrn d n z m) → Flies s c (.mgdrn d n z m) (fun _ => c) fun f =>
      f.d = d.toNat ∧ f.a = n.toNat ∧ f.streams =
        [{ eff := .accRead, first := s.now + 1, n := 16 }, { eff := .vwrite, first := s.now + 4, n := 16 }]) ∧
    (Clear s c (.mmiss d) → ∃ c', Makes s (.mmiss d) c' ∧ c'.q = { c.q with miss := [] } ∧ SameMemories c c' ∧ c'.regs = c.regs) ∧
    (Clear s c (.mmiss d) → c.phys.flips = [] →
      Flies s c (.mmiss d) (fun _ => { c with q := { c.q with miss := [] } }) fun f =>
      f.streams = [{ eff := .vwrite, first := s.now + 3, n := 1 }] ∧
      ∃ bs, f.data = [(0, [Run.full .v (d.toNat * 16384) bs])] ∧ bs.length = 128 ∧
        ∀ p, p < 64 → leNat ((bs.drop (2 * p)).take 2) =
          match c.q.miss[p]? with
          | some x => x.toNat
          | none => 0xFFFF)

/-- R32, R63, R126, R136, R137, R187 to R191, R196 to R204, R265: where the M syllables trap. A number beyond its set raises the
illegal-syllable trap, detail 0x04; a drain's format, detail 0x05; no bank, a tile configuration that is illegal or has not the
shape that the instruction needs, an odd slot of bf16, a row of the store beyond the last or a group beyond the last, detail
0x06; a drain's shape above 16 KiB, detail 0x0A. In launch code a wld or pass whose port is not free raises the timing fault,
detail 0x0B, a wld, wset or wclr of a loading slot detail 0x0C, a store in the other mode detail 0x0E, and an mmaz of a busy
accumulator detail 0x02; an interlocked launch waits instead, the mode apart, and waits too on any loading slot, on a busy tile
or store and on scales. The model's choice: when scales are short is log 74. -/
def Claim.MatrixSyllablesTrap : Prop :=
  ∀ (s : State) (c : Core) (t : BitVec 4) (y d a g n : BitVec 6) (z : BitVec 2) (b e : BitVec 8) (x : BitVec 1)
    (m : BitVec 4), s.actor = some c →
    let cfg := c.regs.tcfgOf
    let tile (r : BitVec 6) : Word := cfg (r.setWidth 4)
    let fmt (w : Word) : Nat := w.toNat % 16
    let rows (w : Word) : Nat := w.toNat / 2 ^ 8 % 2 ^ 8 + 1
    let cols (w : Word) : Nat := w.toNat / 2 ^ 16 % 2 ^ 8 + 1
    let rowBytes (w : Word) : Nat := if fmt w = 2 then (cols w + 1) / 2 else if fmt w = 4 then 2 * cols w else cols w
    let legal (w : Word) : Prop := fmt w ≤ 4 ∧ rows w * rowBytes w ≤ 32768 ∧ w.toNat / 2 ^ 24 % 2 ^ 8 ∉ [0x7F, 0xFF]
    let odd (w : Word) : Prop := fmt w = 4 ∧ z.toNat % 2 = 1
    let banks := (List.range 8).countP fun i => b.getLsbD i
    let loads (n y : Nat) : Prop := (c.arr.descOf n y).getLsbD 11 = true
    let waits := (s.ctx c).la.interlocked = true
    let any : Prop × Nat × Bool := (waits ∧ ∃ k, k < 32 ∧ (c.arr.desc.toList.getD k 0).getLsbD 11 = true, 0x0C, true)
    let pass (f : Flight) : Prop := (∃ d a z, f.instr = .mma d a z ∨ f.instr = .mmaz d a z) ∨ ∃ a g z, f.instr = .mmag a g z
    let port : Prop × Nat × Bool := (∃ f ∈ c.flights, pass f ∧ s.now < f.issue + f.span, 0x0B, true)
    let short (need : Nat) : Prop × Nat × Bool :=
      (waits ∧ need ≠ 0 ∧ c.q.sq.length + scalesComing s.now c < need + scalesPending c, 4, true)
    let pops (w : Word) (k : Nat) : Nat := if fmt w ≤ 2 then k else 0
    let mode (grad : Bool) : Prop × Nat × Bool := (c.arr.grad = grad, 0x0E, false)
    let busyAcc (k at_ : Nat) : Prop := ∃ f ∈ c.flights, f.seqno < s.now ∧ at_ ≤ f.issue + 140 + f.span - 1 ∧
      ((∃ d a z, f.instr = .mma d a z ∨ f.instr = .mmaz d a z) ∧ f.d = k ∨ (∃ a g z, f.instr = .mmag a g z) ∧ k = 2)
    let shape := c.regs.shape.toNat % 2 ^ 14 + 1
    let passIll (d a : BitVec 6) : List (Prop × Nat) := [(1 < d.toNat ∨ 16 ≤ a.toNat, 4),
      (¬legal (tile a) ∨ cols (tile a) ≠ 128 ∨ odd (tile a), 6)]
    TrapsWhere s c (.wld t z b e)
      [(banks = 0 ∨ ¬legal (cfg t) ∨ rows (cfg t) ≠ 128 ∨ cols (cfg t) ≠ 32 * banks ∨ odd (cfg t) ∨
        (fmt (cfg t) = 4 ∧ 4 < banks), 6)]
      [short (pops (cfg t) (128 * banks)),
       (∃ f ∈ c.flights, (∃ t z b e, f.instr = .wld t z b e) ∧ s.now < f.issue + 128, 0x0B, true),
       (∃ n, n < 8 ∧ b.getLsbD n = true ∧ (loads n z.toNat ∨ (fmt (cfg t) = 4 ∧ loads n (z.toNat + 1))), 0x0C, true), any] ∧
    (∀ i ∈ [Instr.wset z b e, .wclr z b], TrapsWhere s c i [(b = 0, 6)]
      [(∃ n, n < 8 ∧ b.getLsbD n = true ∧ loads n z.toNat, 0x0C, true), any]) ∧
    TrapsWhere s c (.mma d a z) (passIll d a) [short (pops (tile a) (4 * rows (tile a))), port, any, mode true] ∧
    TrapsWhere s c (.mmaz d a z) (passIll d a)
      [(busyAcc d.toNat s.now, 2, true), short (pops (tile a) (4 * rows (tile a))), port, any, mode true] ∧
    TrapsWhere s c (.mmag a g z) [(16 ≤ a.toNat ∨ 16 ≤ g.toNat, 4),
        (¬legal (tile a) ∨ ¬legal (tile g) ∨
          ¬((fmt (tile a) ≤ 1 ∧ fmt (tile g) ≤ 1) ∨ (fmt (tile a) = fmt (tile g) ∧ fmt (tile a) ∈ [2, 4])) ∨
          rows (tile a) ≠ rows (tile g) ∨ cols (tile a) ≠ 128 ∨ cols (tile g) ≠ 256 ∨ odd (tile a), 6)]
      [short (pops (tile a) (12 * rows (tile a))), port, any, mode false] ∧
    TrapsWhere s c (.mpat y) [] [any] ∧
    TrapsWhere s c (.mtag y a) [(16 ≤ y.toNat ∨ ¬a.toNat < 49, 4)]
      [(waits ∧ tileBusy c y.toNat s.now (s.now + 1) = true, 2, true), any] ∧
    TrapsWhere s c (.mzero x) [] [(waits ∧ ∃ k, k < 3 ∧ busyAcc k (s.now + 1), 2, true), any] ∧
    TrapsWhere s c (.mdrn d n y m) [(¬d.toNat < 40 ∨ 1 < n.toNat, 4), (m.toNat ∉ [0, 1, 2, 3, 4, 9, 10], 5),
      (256 < (c.regs.readG y).toNat + shape, 6), (16384 < shape * shapeCols c.regs.shape * elemSize m.toNat, 0x0A)]
      [any, mode true] ∧
    TrapsWhere s c (.mgdrn d n x m) [(¬d.toNat < 40, 4), (1 < m.toNat, 5), (31 < n.toNat, 6)]
      [(waits ∧ x = 1 ∧ busyAcc 2 (s.now + 1), 2, true), any, mode false] ∧
    TrapsWhere s c (.mmiss d) [(¬d.toNat < 40, 4)] [any]

/-- R32, R33, R63, R126, R136, R137, R187 to R191, R195 to R204, R265: class M at issue. -/
def Obligations.MatrixInstructionsIssue : Prop :=
  Claim.MatrixSyllablesTrap ∧ Claim.WeightInstructionsIssue ∧ Claim.PassesIssue ∧ Claim.MatrixMovesIssue

/-- R196, R197: a weight load's scale pops, K-rows and end, and a change of descriptors, change the array's weights,
scales and descriptors alone (and the scale queue, and what an error raises): the accumulator store, the vector file,
scratchpad and the registers keep their values. -/
def Claim.WeightEventsFrame : Prop :=
  ∀ (s : State) (c : Core) (u j k : Nat) (f : Flight), EventAt s c u j f k →
    ∀ i ∈ [Instr.wldScalePop u j, .wldKrowWrite u j, .slotLoadingEnd u j, .descriptorUpdate u j],
      ∃ c', Makes s i c' ∧ c'.arr.acc = c.arr.acc ∧ c'.arr.grad = c.arr.grad ∧ c'.vec = c.vec ∧ c'.sp = c.sp ∧
        c'.regs = c.regs ∧ c'.phys.hbm = c.phys.hbm ∧ c'.q.cq = c.q.cq ∧ c'.q.miss = c.q.miss

/-- R187, R196: at the end of a load the loading bit clears in the descriptor of the slot in every selected bank, and for
bf16 of the slot above it, and no other descriptor, weight or scale changes. -/
def Claim.LoadEndsLoading : Prop :=
  ∀ (s : State) (c : Core) (u j k : Nat) (f : Flight) (t : BitVec 4) (z : BitVec 2) (b e : BitVec 8),
    EventAt s c u j f k → f.instr = .wld t z b e → (tcFormat f.tcfg = 4 → z.toNat % 2 = 0) → c.codesClean 4 = true →
    ∃ a : ArrayState, Makes s (.slotLoadingEnd u j) { c.moved f j with arr := a } ∧ a = { c.arr with desc := a.desc } ∧
      ∀ n y, n < 8 → y < 4 → a.descOf n y =
        if b.getLsbD n = true ∧ (y = z.toNat ∨ (tcFormat f.tcfg = 4 ∧ y = z.toNat + 1))
        then c.arr.descOf n y &&& ~~~0x800#32 else c.arr.descOf n y

/-- R187, R196: K-row k of a load writes, for column q of every selected bank, the tile's element (k, 32·pos+q), pos being
the bank's place among the selected ones, into the slot: of bf16 its low byte there and its high byte into the slot above.
No other weight, no scale and no descriptor changes. -/
def Claim.WeightRowsWrite : Prop :=
  ∀ (s : State) (c : Core) (u j k : Nat) (f : Flight) (t : BitVec 4) (z : BitVec 2) (b e : BitVec 8),
    EventAt s c u j f k → f.instr = .wld t z b e → (tcFormat f.tcfg = 4 → z.toNat % 2 = 0) → k < 128 → c.canonical →
    c.codesClean 4 = true →
    let pos (n : Nat) : Nat := (List.range n).countP fun i => b.getLsbD i
    let elem (n q : Nat) : Nat := c.tileElem f.a f.tcfg k (32 * pos n + q)
    let at_ (y n r q : Nat) : Nat := ((y * 8 + n) * 128 + r) * 32 + q
    ∃ a : ArrayState, Makes s (.wldKrowWrite u j) { c.moved f j with arr := a } ∧ a = { c.arr with weight := a.weight } ∧
      ∀ y n r q, y < 4 → n < 8 → r < 128 → q < 32 → a.weight.get 0 (at_ y n r q) =
        if b.getLsbD n = true ∧ r = k ∧ y = z.toNat then BitVec.ofNat 8 (elem n q)
        else if b.getLsbD n = true ∧ r = k ∧ tcFormat f.tcfg = 4 ∧ y = z.toNat + 1 then BitVec.ofNat 8 (elem n q / 256)
        else c.arr.weight.get 0 (at_ y n r q)

/-- R34, R187, R196: a load of e4m3, e5m2 or e2m1 takes its scales from the head of the queue, bank ascending, column, block,
into its slot; where the queue falls short it takes what is there and raises the queue imbalance, or the timing fault while
an sqld is in flight, and writes no scale. One of i8 or bf16 takes none, and its slots' scales become 0x7F. No other scale,
no weight and no descriptor changes. The model's choice: that a pop which falls short takes the scales that are there and
writes none is log 91. -/
def Claim.WeightScalesPop : Prop :=
  ∀ (s : State) (c : Core) (u j k : Nat) (f : Flight) (t : BitVec 4) (z : BitVec 2) (b e : BitVec 8),
    EventAt s c u j f k → f.instr = .wld t z b e → (tcFormat f.tcfg = 4 → z.toNat % 2 = 0) → c.canonical →
    c.codesClean 4 = true →
    let pos (n : Nat) : Nat := (List.range n).countP fun i => b.getLsbD i
    let at_ (y n q i : Nat) : Nat := ((y * 8 + n) * 32 + q) * 4 + i
    let flying := ∃ g ∈ c.flights, ∃ a i l, g.instr = .sqld a i l
    let c0 := c.moved f j
    let queue (n : Nat) : Queues := { c.q with sq := c.q.sq.drop n, sqHead := c.q.sqHead + min n c.q.sq.length }
    f.len = 128 * pos 8 →
    (tcFormat f.tcfg ≤ 2 → f.len ≤ c.q.sq.length →
      ∃ a : ArrayState, Makes s (.wldScalePop u j) { c0 with arr := a, q := queue f.len } ∧
        a = { c.arr with scale := a.scale } ∧
        ∀ y n q i, y < 4 → n < 8 → q < 32 → i < 4 → a.scale.get 0x7F (at_ y n q i) =
          if b.getLsbD n = true ∧ y = z.toNat then c.q.sq.getD (128 * pos n + 4 * q + i) 0
          else c.arr.scale.get 0x7F (at_ y n q i)) ∧
    (tcFormat f.tcfg ≤ 2 → c.q.sq.length < f.len →
      (flying → Makes s (.wldScalePop u j) (({ c0 with q := queue f.len }).raise (s.ctx c) ((f.next j).trap 4 4 0 0 0))) ∧
      (¬flying → Makes s (.wldScalePop u j) (({ c0 with q := queue f.len }).raise (s.ctx c) ((f.next j).trap 0x0B 1 0 0 0)))) ∧
    (2 < tcFormat f.tcfg →
      ∃ a : ArrayState, Makes s (.wldScalePop u j) { c0 with arr := a } ∧ a = { c.arr with scale := a.scale } ∧
        ∀ y n q i, y < 4 → n < 8 → q < 32 → i < 4 → a.scale.get 0x7F (at_ y n q i) =
          if b.getLsbD n = true ∧ (y = z.toNat ∨ (tcFormat f.tcfg = 4 ∧ y = z.toNat + 1)) then 0x7F
          else c.arr.scale.get 0x7F (at_ y n q i))

/-- R187, R197: a wset gives the descriptors that it selects its expert, and the other half of a bf16 pair too, and keeps
their format, loading bit and extra value; a wclr makes them those of an empty slot, with zero weights and scales 0x7F. No
other descriptor, weight or scale changes. -/
def Claim.DescriptorsChange : Prop :=
  ∀ (s : State) (c : Core) (u j k : Nat) (f : Flight) (z : BitVec 2) (b e : BitVec 8), EventAt s c u j f k → c.canonical →
    c.codesClean 4 = true →
    let half (n : Nat) : Prop := (c.arr.descOf n z.toNat).toNat / 2 ^ 8 % 2 ^ 3 ∈ [4, 5]
    let named (n y : Nat) : Prop := b.getLsbD n = true ∧ (y = z.toNat ∨ (half n ∧ y = (z ^^^ 1#2).toNat))
    (f.instr = .wset z b e →
      ∃ a : ArrayState, Makes s (.descriptorUpdate u j) { c.moved f j with arr := a } ∧ a = { c.arr with desc := a.desc } ∧
        ∀ n y, n < 8 → y < 4 →
          (named n y → a.descOf n y = (c.arr.descOf n y &&& 0x000FFF00#32) ||| e.setWidth 32) ∧
          (¬named n y → a.descOf n y = c.arr.descOf n y)) ∧
    (f.instr = .wclr z b →
      ∃ a : ArrayState, Makes s (.descriptorUpdate u j) { c.moved f j with arr := a } ∧
        a = { c.arr with desc := a.desc, weight := a.weight, scale := a.scale } ∧
        ∀ n y, n < 8 → y < 4 →
          (named n y → a.descOf n y = 0x7FF#32 ∧ (∀ i, i < 4096 → a.weight.get 0 ((y * 8 + n) * 4096 + i) = 0) ∧
            ∀ i, i < 128 → a.scale.get 0x7F ((y * 8 + n) * 128 + i) = 0x7F) ∧
          (¬named n y → a.descOf n y = c.arr.descOf n y ∧
            (∀ i, i < 4096 → a.weight.get 0 ((y * 8 + n) * 4096 + i) = c.arr.weight.get 0 ((y * 8 + n) * 4096 + i)) ∧
            ∀ i, i < 128 → a.scale.get 0x7F ((y * 8 + n) * 128 + i) = c.arr.scale.get 0x7F ((y * 8 + n) * 128 + i)))

/-- R34, R187, R196, R197: the events of weight loads and descriptors, and, with no error in the array, what each of them
writes. -/
def Obligations.WeightEvents : Prop :=
  Claim.WeightEventsFrame ∧ Claim.LoadEndsLoading ∧ Claim.WeightRowsWrite ∧ Claim.WeightScalesPop ∧ Claim.DescriptorsChange

/-- R34, R38, R189, R192, R193, R199: reading a row of a pass changes no memory, no weight and none of the store; it pops
the scales of its row, four for a float format of mma or mmaz and twelve of mmag, and of i8 and bf16 none. With no error in
the core and scales enough, the misses of its row, in ascending bank, count up to 0xFFFF and enter the miss list while it has
room. A miss that finds the list full raises the tag-miss fault, detail 0x01, and so does every miss, detail 0x02, of a launch
whose precise-miss bit is set. The model's choice: that a row's scales are consumed even where it is suppressed, and that of a
pass that reads weights only the misses below a bank whose slot is loading or does not pair count, is log 91. -/
def Claim.ArrayRowReadFrame : Prop :=
  ∀ (s : State) (c : Core) (u j k : Nat) (f : Flight), EventAt s c u j f k →
    ∃ c', Makes s (.arrayRowRead u j) c' ∧ SameMemories c c' ∧ c'.regs.g = c.regs.g ∧ c'.regs.k = c.regs.k ∧
      c'.regs.n = c.regs.n ∧ c'.regs.tcfg = c.regs.tcfg ∧ c'.q.cq = c.q.cq ∧ c'.q.sow = c.q.sow ∧
      let grad := ∃ a g z, f.instr = .mmag a g z
      let tag := if f.tcfg.getLsbD 33 then (c.vec.tag.get 0 (f.a * 256 + k)).toNat else 0xFF
      let bf := tcFormat f.tcfg == 4
      let missing := (List.range 8).filter fun n => (c.arr.resolve bf tag f.len n).isNone
      let blocked (n : Nat) : Prop := ∃ y, c.arr.resolve bf tag f.len n = some y ∧
        ((c.arr.descOf n y).getLsbD 11 = true ∨ (bf = true ∧ (c.arr.descOf n (y + 1)).getLsbD 11 = true) ∨
          c.arr.pairs (tcFormat f.tcfg) n y = false)
      (∃ n, c'.q.sq = c.q.sq.drop n ∧ (2 < tcFormat f.tcfg → n = 0) ∧ (tcFormat f.tcfg ≤ 2 → grad → n = 12) ∧
        (tcFormat f.tcfg ≤ 2 → ¬grad → n = 4) ∧
        (c.phys.flips = [] → n ≤ c.q.sq.length →
          ∃ m, (grad ∨ (∀ n, n < 8 → ¬blocked n) → m = missing) ∧
            (∀ b, b < 8 → ¬grad → blocked b → (∀ n, n < b → ¬blocked n) → m = missing.filter fun n => n < b) ∧
            c'.regs.misses.toNat = min 65535 (c.regs.misses.toNat + m.length) ∧
            c'.q.miss = c.q.miss ++ (m.map fun n => BitVec.ofNat 11 (k + 256 * n)).take (64 - c.q.miss.length) ∧
            let p := if (s.ctx c).la.precise then 0 else 64 - c.q.miss.length
            (grad ∨ (∀ n, n < 8 → ¬blocked n) → c.trap = none → c.phys.sysMode = false → (s.ctx c).la.phase = .running →
              (m[p]? = none → c'.trap = none) ∧
              ∀ b, m[p]? = some b → ∃ t, c'.trap = some t ∧ t.cause = 0x0C ∧ t.kind = 1 ∧ t.info0 = k + 256 * b ∧
                t.detail = if 64 ≤ c.q.miss.length + p then 1 else 2))) ∧
      ∃ l, c'.q.miss = c.q.miss ++ l

/-- R73, R84 to R86, R187 to R189, R192, R194, R199: with no error in the core, scales enough, and no slot of the row loading
or of another format, a row of mma or mmaz holds from its read to its update one term for each column. Of a bank that missed
it is none. Of i8 it is the exact sum of the products or of the absolute differences of activations and weights, or the
greatest or the least of their sums. Of a narrow format, activations and weights scaled, it is the exact sum of the products
or of the absolute differences, and of bf16 their canonical tree in f32; of both the greatest or the least of the exact sums,
rounded, a NaN where one of them is. An empty slot has weights of zero. A row of mmag holds its slots and both its rows,
scaled. -/
def Claim.ArrayRowTerms : Prop :=
  ∀ (s : State) (c : Core) (u j k : Nat) (f : Flight), EventAt s c u j f k → c.phys.flips = [] → (f.next j).live = true →
    let fmt := tcFormat f.tcfg
    let tag := if f.tcfg.getLsbD 33 then (c.vec.tag.get 0 (f.a * 256 + k)).toNat else 0xFF
    let slot (n : Nat) : Option Nat := c.arr.resolve (fmt == 4) tag f.len n
    let f32 (x : Machine.Num) : Machine.Num := decF32 (encF32 .ne x)
    let scaled (e : Nat) (x : Machine.Num) : Machine.Num := if e = 0xFF then .nan else x.scale (e - 127)
    let popped (n : Nat) : Nat := if fmt ≤ 2 then (c.q.sq.getD n 0).toNat else 127
    let A (i : Nat) : Machine.Num := scaled (popped (i / 32)) (tileNum fmt (tcAlt4 f.tcfg).toNat (c.tileElem f.a f.tcfg k i))
    let row (g : Nat → Machine.Num) (n : Nat) : List Machine.Num := (List.range n).map g
    let exact (l : List Machine.Num) : Machine.Num := l.foldl (Machine.Num.add false) (.fin true 0 0)
    let tree32 (l : List Machine.Num) : Option Machine.Num :=
      tree (fun a b => f32 (Machine.Num.add false a b)) (l.map fun x => some (f32 x))
    let apart (a b : Machine.Num) : Machine.Num := (Machine.Num.add false a b.neg).abs
    let code := f.pat.toNat / 2 ^ (2 * (k % 16)) % 4
    ((∀ a g z, f.instr ≠ .mmag a g z) → (fmt ≤ 2 → 4 ≤ c.q.sq.length) →
      (∀ n y, n < 8 → slot n = some y → (c.arr.descOf n y).getLsbD 11 = false ∧
        (fmt = 4 → (c.arr.descOf n (y + 1)).getLsbD 11 = false) ∧ c.arr.pairs fmt n y = true) →
      ∃ c' ts, Makes s (.arrayRowRead u j) c' ∧
        c'.flight? u = some { f.next j with terms := f.terms ++ [(k, ts)] } ∧ ts.length = 256 ∧
        ∀ n q, n < 8 → q < 32 → (slot n = none → ts[32 * n + q]? = some .miss) ∧
          ∀ y, slot n = some y →
            let holds (t : ColTerm) : Prop := ts[32 * n + q]? = some t
            let byte (y i : Nat) : Nat := (c.arr.weight.get 0 (((y * 8 + n) * 128 + i) * 32 + q)).toNat
            let d := (c.arr.descOf n y).toNat
            let kind := d / 2 ^ 8 % 2 ^ 3
            (fmt = 3 →
              let a (i : Nat) : Int := (BitVec.ofNat 8 (c.tileElem f.a f.tcfg k i)).toInt
              let w (i : Nat) : Int := if kind = 7 then 0 else (BitVec.ofNat 8 (byte y i)).toInt
              (code = 0 → holds (.addI ((List.range 128).map fun i => a i * w i).sum)) ∧
              (code = 1 → holds (.addI ((List.range 128).map fun i => ((a i - w i).natAbs : Int)).sum)) ∧
              (code = 2 → ∃ m, holds (.selI true m) ∧ (∀ i, i < 128 → a i + w i ≤ m) ∧ ∃ i, i < 128 ∧ m = a i + w i) ∧
              (code = 3 → ∃ m, holds (.selI false m) ∧ (∀ i, i < 128 → m ≤ a i + w i) ∧ ∃ i, i < 128 ∧ m = a i + w i)) ∧
            (fmt ≠ 3 →
              let weight (i : Nat) : Machine.Num :=
                if kind = 4 then decBf16 (byte y i + 256 * byte (y + 1) i)
                else scaled (c.arr.scale.get 0x7F (((y * 8 + n) * 32 + q) * 4 + i / 32)).toNat
                  (tileNum kind (d / 2 ^ 12 % 2 ^ 8) (byte y i))
              let w (i : Nat) : Machine.Num := if kind = 7 then .fin false 0 0 else weight i
              let sums := row (fun i => Machine.Num.add false (A i) (w i)) 128
              let best (mx : Bool) (m : Machine.Num) : Prop := if .nan ∈ sums then m = .nan
                else m ∈ sums ∧ ∀ x ∈ sums, (if mx then Machine.Num.lt m x else Machine.Num.lt x m) = false
              (code = 0 → fmt ≠ 4 → holds (.addF (exact (row (fun i => Machine.Num.mul (A i) (w i)) 128)))) ∧
              (code = 1 → fmt ≠ 4 → holds (.addF (exact (row (fun i => apart (A i) (w i)) 128)))) ∧
              (code = 0 → fmt = 4 → ∃ v, tree32 (row (fun i => Machine.Num.mul (A i) (w i)) 128) = some v ∧ holds (.addF v)) ∧
              (code = 1 → fmt = 4 → ∃ v, tree32 (row (fun i => apart (A i) (w i)) 128) = some v ∧ holds (.addF v)) ∧
              (code = 2 → ∃ m, best true m ∧ holds (.selF true (f32 m))) ∧
              (code = 3 → ∃ m, best false m ∧ holds (.selF false (f32 m))))) ∧
    (∀ a g z, f.instr = .mmag a g z → (fmt ≤ 2 → 12 ≤ c.q.sq.length) →
      let G (i : Nat) : Machine.Num := scaled (popped (4 + i / 32))
        (tileNum (tcFormat f.tcfg2) (tcAlt4 f.tcfg2).toNat (c.tileElem f.b f.tcfg2 k i))
      ∃ c', Makes s (.arrayRowRead u j) c' ∧ c'.flight? u = some { f.next j with
        grads := f.grads ++ [(k, { slots := (List.range 8).map slot, a := row A 128, g := row G 256 })] })

/-- R192: a row of tag 0xFF uses the named slot of every bank; a row of another tag uses the lowest slot of a bank whose
descriptor names that expert, of a bf16 pass the lowest that holds a low byte too, or misses it. -/
def Claim.RowsRouteByTag : Prop :=
  ∀ (a : ArrayState) (named n : Nat),
    (∀ bf, a.resolve bf 0xFF named n = some named) ∧
    (∀ t y, t ≠ 0xFF → a.resolve false t named n = some y →
      y < 4 ∧ (a.descOf n y).toNat % 256 = t ∧ ∀ x, x < y → (a.descOf n x).toNat % 256 ≠ t) ∧
    (∀ t, t ≠ 0xFF → a.resolve false t named n = none → ∀ x, x < 4 → (a.descOf n x).toNat % 256 ≠ t) ∧
    let low (t x : Nat) : Prop := (a.descOf n x).toNat % 256 = t ∧ (a.descOf n x).toNat / 2 ^ 8 % 2 ^ 3 = 4
    (∀ t y, t ≠ 0xFF → a.resolve true t named n = some y → y < 4 ∧ low t y ∧ ∀ x, x < y → ¬low t x) ∧
    (∀ t, t ≠ 0xFF → a.resolve true t named n = none → ∀ x, x < 4 → ¬low t x)

/-- R33, R194, R195, R199: adding a row of a pass changes the accumulator store alone. An mma changes the bytes of its row's
elements alone; an mmaz those, and with its last row the rows beyond it, which become zero; an mmag those of the groups of
slots that its row hit. With no error in the store each element of an mma's row takes its term, and of an mmaz's its term
applied to the starting value of the row's cell operation; an element of a slot that an mmag's row hit takes the product of
its activation and its gradient, with one rounding to nearest even. -/
def Claim.ArrayRowUpdateFrame : Prop :=
  ∀ (s : State) (c : Core) (u j k : Nat) (f : Flight), EventAt s c u j f k → c.canonical →
    ∃ c', Makes s (.arrayRowUpdate u j) c' ∧ c'.vec = c.vec ∧ c'.sp = c.sp ∧ c'.regs = c.regs ∧ c'.q = c.q ∧
      c'.arr.weight = c.arr.weight ∧ c'.arr.scale = c.arr.scale ∧ c'.arr.desc = c.arr.desc ∧ c'.arr.grad = c.arr.grad ∧
      (∀ d t z, f.instr = .mma d t z → ∀ x,
        (∀ n, n < (((f.terms.find? fun p => p.1 == k).map (·.2)).getD []).length →
          ∀ i, i < 4 → x ≠ f.d * 262144 + k * 1024 + 4 * n + i) →
        c'.arr.acc.get 0 x = c.arr.acc.get 0 x) ∧
      let ts := ((f.terms.find? fun p => p.1 == k).map (·.2)).getD []
      let row := f.d * 262144 + k * 1024
      let beyond (x : Nat) : Prop := k + 1 = f.rows ∧ f.d * 262144 + f.rows * 1024 ≤ x ∧ x < (f.d + 1) * 262144
      (∀ d t z, f.instr = .mmaz d t z → ∀ x,
        ((∀ n, n < ts.length → ∀ i, i < 4 → x ≠ row + 4 * n + i) → ¬beyond x → c'.arr.acc.get 0 x = c.arr.acc.get 0 x) ∧
        (beyond x → c'.arr.acc.get 0 x = 0)) ∧
      (∀ a g z, f.instr = .mmag a g z → ∀ x,
        (∀ p, f.grads.find? (fun p => p.1 == k) = some p → p.2.a.length ≤ 128 ∧ ∀ b y, p.2.slots[b]? = some (some y) →
          x < (4 * b + y) * 16384 ∨ (4 * b + y + 1) * 16384 ≤ x) →
        c'.arr.acc.get 0 x = c.arr.acc.get 0 x) ∧
      (c.phys.flips = [] → ts.length ≤ 256 → ∀ n v, ts[n]? = some v →
        let elem (a : ArrayState) : Nat := leNat (a.acc.bytes 0 (row + 4 * n) 4)
        let int := tcFormat f.tcfg = 3
        let code := f.pat.toNat / 2 ^ (2 * (k % 16)) % 4
        let start := if code ≤ 1 then 0 else if code = 2 then (if int then 0x80000000 else 0xFF800000)
          else if int then 0x7FFFFFFF else 0x7F800000
        (∀ d t z, f.instr = .mma d t z → elem c'.arr = updateElem (elem c.arr) v % 2 ^ 32) ∧
        (∀ d t z, f.instr = .mmaz d t z → elem c'.arr = updateElem start v % 2 ^ 32)) ∧
      (c.phys.flips = [] → ∀ a g z p, f.instr = .mmag a g z → f.grads.find? (fun p => p.1 == k) = some p →
        p.2.a.length ≤ 128 → p.2.slots.length ≤ 8 → (∀ y, some y ∈ p.2.slots → y < 4) →
        ∀ b y i q A G, p.2.slots[b]? = some (some y) → p.2.a[i]? = some A → q < 32 → p.2.g[32 * b + q]? = some G →
          let elem (a : ArrayState) : Nat := leNat (a.acc.bytes 0 ((4 * b + y) * 16384 + 4 * (32 * i + q)) 4)
          elem c'.arr = encF32 .ne (Machine.Num.add false (decF32 (elem c.arr)) (Machine.Num.mul A G)) % 2 ^ 32)

/-- R85, R86, R193, R194: one element's update: a miss keeps it, an integer sum is added modulo 2^32, an integer maximum
or minimum keeps the greater or the lesser, and a float sum is added with one rounding to nearest even. A float maximum or
minimum of a NaN is the canonical NaN; else it takes the greater or the lesser, and on a tie the element keeps its bits. -/
def Claim.AccumulatorElementUpdate : Prop :=
  ∀ (old : Nat) (v : Int) (x : Machine.Num), old < 2 ^ 32 →
    updateElem old .miss = old ∧
    ((updateElem old (.addI v) : Nat) : Int) = ((old : Int) + v) % 2 ^ 32 ∧
    (-2 ^ 31 ≤ v → v < 2 ^ 31 →
      (BitVec.ofNat 32 (updateElem old (.selI true v))).toInt = max (BitVec.ofNat 32 old).toInt v ∧
      (BitVec.ofNat 32 (updateElem old (.selI false v))).toInt = min (BitVec.ofNat 32 old).toInt v) ∧
    updateElem old (.addF x) = encF32 .ne (Machine.Num.add false (decF32 old) x) ∧
    ∀ mx, (decF32 old = .nan ∨ x = .nan → updateElem old (.selF mx x) = 0x7FC00000) ∧
      (decF32 old ≠ .nan → x ≠ .nan →
        let takes := if mx then Machine.Num.lt (decF32 old) x else Machine.Num.lt x (decF32 old)
        updateElem old (.selF mx x) = if takes then encF32 .ne x else old)

/-- R85, R86, R192 to R194: routing by tag and the update of an element. -/
def Obligations.MatrixRules : Prop :=
  Claim.RowsRouteByTag ∧ Claim.AccumulatorElementUpdate

/-- R190, R201, R202: a drain's read changes neither the vector file nor the registers; mdrn keeps the store, and so does an
mgdrn that does not clear. One that clears makes every byte of its group zero and no other, unless a pass issued before it
still holds the gradient store busy: then it raises the timing fault, detail 0x02, and clears nothing. With no error in the core
the row read waits for its write: f32 and i32 elements as they are, into bf16, e4m3 or e5m2 rounded in the mode taken at
issue under the overflow table, into i16 or i8 by value where it fits, else the limit, or the low bits where the table says
wrap. -/
def Claim.AccumulatorRowRead : Prop :=
  ∀ (s : State) (c : Core) (u j k : Nat) (f : Flight), EventAt s c u j f k → c.canonical →
    ∃ c', Makes s (.accumulatorRowRead u j) c' ∧ c'.vec = c.vec ∧ c'.sp = c.sp ∧ c'.regs = c.regs ∧ c'.q = c.q ∧
      (∀ d n b m, f.instr = .mdrn d n b m → c'.arr = c.arr) ∧
      (∀ d n m, f.instr = .mgdrn d n 0 m → c'.arr = c.arr) ∧
      (∀ d n m, f.instr = .mgdrn d n 1 m →
        let holds (g : Flight) : Prop := g.seqno < f.seqno ∧ s.now ≤ g.issue + 140 + g.span - 1 ∧
          ((∃ a b z, g.instr = .mmag a b z) ∨ ((∃ d a z, g.instr = .mma d a z ∨ g.instr = .mmaz d a z) ∧ g.d = 2))
        let busy := ∃ g ∈ (c.moved f j).flights, holds g
        (¬busy → ∀ x, c'.arr.acc.get 0 x =
          if f.a * 16384 + k * 1024 ≤ x ∧ x < f.a * 16384 + k * 1024 + 1024 then 0 else c.arr.acc.get 0 x) ∧
        (busy → c'.arr = c.arr) ∧
        (busy → c.phys.flips = [] → c.trap = none → c.phys.sysMode = false → (s.ctx c).la.phase = .running →
          ∃ t, c'.trap = some t ∧ t.cause = 4 ∧ t.detail = 2)) ∧
      (c.phys.flips = [] → (f.next j).live = true →
        let elem (lo i : Nat) : Nat := leNat (c.arr.acc.bytes 0 (lo + 4 * i) 4)
        let rnd := rndOf (f.round.toNat % 8)
        let converts (m w v : Nat) : Prop :=
          let x := (BitVec.ofNat 32 w).toInt
          let hi : Int := 2 ^ (8 * elemSize m - 1)
          let wraps := f.ovtab.toNat / 2 ^ (if m = 3 then 10 else 8) % 2 ^ 2 = 3
          (m = 0 ∨ m = 2 → v = w) ∧ (m = 1 → v = encBf16 f.ovtab rnd (decF32 w)) ∧
          (m = 9 → v = encE4m3 f.ovtab rnd (decF32 w)) ∧ (m = 10 → v = encE5m2 f.ovtab rnd (decF32 w)) ∧
          (m = 3 ∨ m = 4 → (-hi ≤ x ∧ x < hi ∨ wraps → (v : Int) = x % (2 * hi)) ∧
            (¬wraps → x < -hi → (v : Int) = hi) ∧ (¬wraps → hi ≤ x → (v : Int) = hi - 1))
        let holds (e at_ n lo m : Nat) : Prop := ∃ v : Nat → Nat, (∀ i, i < n → converts m (elem lo i) (v i)) ∧
          c'.flight? u = some { f.next j with data := f.data ++
            [(k, [Run.full .v at_ ((List.range n).flatMap fun i => leBytes e (v i))])] }
        (∀ d n b m, f.instr = .mdrn d n b m →
          let e := elemSize m.toNat
          holds e (f.d * 16384 + k * f.cols * e) f.cols (f.a * 262144 + (f.base + k) * 1024) m.toNat) ∧
        (∀ d n z m, f.instr = .mgdrn d n z m →
          let e := elemSize m.toNat
          holds e (f.d * 16384 + k * 256 * e) 256 (f.a * 16384 + k * 1024) m.toNat))

/-- R33, R34, R38, R73, R84 to R86, R187 to R190, R192 to R195, R199, R201, R202: the events of passes and drains. -/
def Obligations.ArrayEvents : Prop :=
  Claim.ArrayRowReadFrame ∧ Claim.ArrayRowTerms ∧ Claim.ArrayRowUpdateFrame ∧ Claim.AccumulatorRowRead

/-! ## Classes L and W (R206 to R214) -/

/-- R14, R29, R32, R63, R126, R136, R137, R190, R207 to R212, R214, R265: where the transfers of class L trap. A destination code
beyond its set or that names a source only raises the illegal-syllable trap, detail 0x04; a row address that is no multiple of
the element's size, an lds address that is none of 8, a tile configuration that is illegal, a slot smaller than the transfer,
and an sqld of no or of more than 1,024 bytes or past the end of scratchpad, detail 0x06; a shape above 16 KiB, of a mask 16,384
bits, detail 0x0A. In launch code a need of filled slots that is not met raises the timing fault, detail 0x01, or an interlocked
launch waits, as it does on a tile held busy; and an operation that would make 769 of classes L, W and D in flight raises detail
0x0F. The model's choice: which operations are in flight is log 134. -/
def Claim.LoadsTrap : Prop :=
  ∀ (s : State) (c : Core) (d a b : BitVec 6) (x : BitVec 1) (w : BitVec 2) (h n : BitVec 4) (m : BitVec 10)
    (l : Option (BitVec 9)), s.actor = some c →
    let A := (c.regs.readG a).toNat % 2 ^ 22
    let B := (c.regs.readG b).toNat % 2 ^ 22
    let v := c.regs.handle h
    let rows := c.regs.shape.toNat % 2 ^ 14 + 1
    let row := shapeCols c.regs.shape * 2 ^ w.toNat
    let cfg := c.regs.tcfgOf (d.setWidth 4)
    let imm := imm19 m l
    let flies (f : Flight) : Prop := (f.cls = 4 ∨ f.cls = 5 ∨ f.cls = 6) ∧ f.cancelled = false ∧
      (f.open_ = true ∨ (∃ t ∈ f.streams, t.k < t.n ∧ s.now < t.first + (t.n - 1) * t.mul / t.div) ∨
        (∃ d a m l, f.instr = .lds d a m l) ∨ ∃ a m l, f.instr = .sqld a m l)
    let full : Prop × Nat × Bool := (768 ≤ c.inFlight s.now, 0x0F, false)
    let busy : Prop × Nat × Bool := ((s.ctx c).la.interlocked = true ∧
      ∃ j, j < tcRows cfg ∧ tileBusy c d.toNat s.now (s.now + 5 + j) = true, 2, true)
    let filled : Prop × Nat × Bool := (v.filled < n.toNat, 1, true)
    let source : Prop × Nat := (40 ≤ d.toNat, 4)
    let wide : Prop × Nat := (16384 < rows * row, 0x0A)
    let odd := A % 2 ^ w.toNat ≠ 0 ∨ (1 < rows ∧ (if B = 0 then row else B) % 2 ^ w.toNat ≠ 0)
    (∀ k, k ≤ c.inFlight s.now ↔ ∃ fs : List Flight, fs.Sublist c.flights ∧ (∀ f ∈ fs, flies f) ∧
      k ≤ fs.length + c.pends.countP fun p => p.cls == 4) ∧
    TrapsWhere s c (.ld d a b x w) [source, (odd, 6), wide] [full] ∧
    TrapsWhere s c (.ldh d h n w) [source, (v.slot < rows * row, 6), wide] [filled, full] ∧
    TrapsWhere s c (.ldt d a b x) [(16 ≤ d.toNat, 4), (tcLegal cfg = false, 6)] [busy, full] ∧
    TrapsWhere s c (.ldth d h n) [(16 ≤ d.toNat, 4), (tcLegal cfg = false ∨ v.slot < tcRows cfg * tcRowBytes cfg, 6)]
      [filled, busy, full] ∧
    TrapsWhere s c (.ldm d a x) [(16 ≤ d.toNat, 4), (16384 < rows * shapeCols c.regs.shape, 0x0A)] [full] ∧
    TrapsWhere s c (.lds d a m l) [((c.regs.readG a + imm).toNat % 8 ≠ 0, 6)] [full] ∧
    TrapsWhere s c (.sqld a m l) [(imm.toInt < 1 ∨ 1024 < imm.toInt ∨ 2 ^ 22 < A + imm.toNat, 6)] [full]

/-- R14, R29, R32, R63, R99, R126, R136, R137, R207 to R213, R265: where the transfers of class W trap. A code beyond its set, or
the broadcast code, raises the illegal-syllable trap, detail 0x04; a row address that is no multiple of the element's size, an
sts address that is none of 8, a tile configuration that is illegal, and a slot smaller than the transfer, detail 0x06; a shape
above 16 KiB, of a mask 16,384 bits, detail 0x0A. In launch code a need of free slots, those that producers in flight will fill
apart, that is not met raises the timing fault, detail 0x01, or an interlocked launch waits; and a 769th operation in flight
raises detail 0x0F. -/
def Claim.StoresTrap : Prop :=
  ∀ (s : State) (c : Core) (d a b : BitVec 6) (x : BitVec 1) (w : BitVec 2) (h n : BitVec 4) (m : BitVec 10)
    (l : Option (BitVec 9)), s.actor = some c →
    let v := c.regs.handle h
    let elems := (c.regs.shape.toNat % 2 ^ 14 + 1) * shapeCols c.regs.shape
    let size := 2 ^ w.toNat
    let cfg := c.regs.tcfgOf (d.setWidth 4)
    let pitch := (c.regs.readG b).toNat % 2 ^ 22
    let tall := elems ≠ shapeCols c.regs.shape
    let odd := (c.regs.readG a).toNat % size ≠ 0 ∨ (tall ∧ pitch % size ≠ 0)
    let full : Prop × Nat × Bool := (768 ≤ c.inFlight s.now, 0x0F, false)
    let free : Prop × Nat × Bool := (n ≠ 0 ∧ v.count - v.filled < n.toNat + (c.producers h).length, 1, true)
    let code (k : Nat) : Prop × Nat := (k ≤ d.toNat, 4)
    let wide : Prop × Nat := (16384 < elems * size, 0x0A)
    TrapsWhere s c (.st d a b x w) [code 49, (odd, 6), wide] [full] ∧
    TrapsWhere s c (.sth d h n w) [code 49, (v.slot < elems * size, 6), wide] [free, full] ∧
    TrapsWhere s c (.stt d a b x) [code 16, (tcLegal cfg = false, 6)] [full] ∧
    TrapsWhere s c (.stth d h n) [code 16, (tcLegal cfg = false ∨ v.slot < tcRows cfg * tcRowBytes cfg, 6)] [free, full] ∧
    TrapsWhere s c (.stm d a x) [code 16, (16384 < elems, 0x0A)] [full] ∧
    TrapsWhere s c (.sts d a m l) [((c.regs.readG a + imm19 m l).toNat % 8 ≠ 0, 6)] [full]

/-- R99, R207 to R210, R212 to R214: a clear load fixes its address, pitch, slot and shape at issue; row j is read at
issue+1+j and written at issue+5+j (a swizzled vector load at issue+6+j, a mask load at issue+3+j); lds reads at
issue+1, and sqld reads at issue+1 and appends at issue+5. -/
def Claim.LoadsFly : Prop :=
  ∀ (s : State) (c : Core) (d a b : BitVec 6) (x : BitVec 1) (w : BitVec 2) (h n : BitVec 4) (m : BitVec 10)
    (l : Option (BitVec 9)),
    let A := (c.regs.readG a).toNat % 2 ^ 22
    let B := (c.regs.readG b).toNat % 2 ^ 22
    let v := c.regs.handle h
    let slot := v.base + v.drain * v.slot
    let rows := c.regs.shape.toNat % 2 ^ 14 + 1
    let row := shapeCols c.regs.shape * 2 ^ w.toNat
    let cfg := c.regs.tcfgOf (d.setWidth 4)
    let moves (rows k : Nat) : List Stream :=
      [{ eff := .spRead, first := s.now + 1, n := rows }, { eff := .regWrite, first := s.now + k, n := rows }]
    let at_ (f : Flight) (addr pitch rows len : Nat) : Prop :=
      f.d = d.toNat ∧ f.addr = addr ∧ f.pitch = pitch ∧ f.rows = rows ∧ f.len = len ∧ f.prod = false
    (Clear s c (.ld d a b x w) → Transfers s c (.ld d a b x w) false fun f =>
      at_ f A (if B = 0 then row else B) rows row ∧ f.swz = (x = 1) ∧ f.streams = moves rows (if x = 1 then 6 else 5)) ∧
    (Clear s c (.ldh d h n w) → Transfers s c (.ldh d h n w) false fun f =>
      at_ f slot row rows row ∧ f.swz = v.swz ∧ f.streams = moves rows (if v.swz then 6 else 5)) ∧
    (Clear s c (.ldt d a b x) → Transfers s c (.ldt d a b x) false fun f =>
      at_ f A (if B = 0 then tcRowBytes cfg else B) (tcRows cfg) (tcRowBytes cfg) ∧ f.swz = (x = 1) ∧
      f.streams = moves (tcRows cfg) 5) ∧
    (Clear s c (.ldth d h n) → Transfers s c (.ldth d h n) false fun f =>
      at_ f slot (tcRowBytes cfg) (tcRows cfg) (tcRowBytes cfg) ∧ f.swz = v.swz ∧ f.streams = moves (tcRows cfg) 5) ∧
    (Clear s c (.ldm d a x) → Transfers s c (.ldm d a x) false fun f =>
      f.d = d.toNat ∧ f.addr = A ∧ f.rows = rows ∧ f.swz = (x = 1) ∧ f.streams = moves rows 3) ∧
    (Clear s c (.lds d a m l) → Transfers s c (.lds d a m l) false fun f =>
      f.addr = (c.regs.readG a + imm19 m l).toNat % 2 ^ 22 ∧ f.rows = 1 ∧ f.len = 8 ∧
      f.streams = [{ eff := .spRead, first := s.now + 1, n := 1 }]) ∧
    (Clear s c (.sqld a m l) → Flies s c (.sqld a m l) (fun _ => c) fun f =>
      f.addr = A ∧ f.len = (imm19 m l).toNat ∧ f.streams =
        [{ eff := .spRead, first := s.now + 1, n := 1 }, { eff := .scaleApp, first := s.now + 5, n := 1 }])

/-- R14, R29, R32, R63, R99, R126, R136, R137, R190, R207 to R214, R265: class L at issue. -/
def Obligations.LoadsIssue : Prop :=
  Claim.LoadsTrap ∧ Claim.LoadsFly

/-- R99, R207 to R210, R212, R213: a clear store reads row j of its source at issue+j and writes it at issue+2+j; a
handle form writes the slot after those of the producers in flight; sts takes its scalar at issue. -/
def Claim.StoresFly : Prop :=
  ∀ (s : State) (c : Core) (d a b : BitVec 6) (x : BitVec 1) (w : BitVec 2) (h n : BitVec 4) (m : BitVec 10)
    (l : Option (BitVec 9)),
    let A := (c.regs.readG a).toNat % 2 ^ 22
    let B := (c.regs.readG b).toNat % 2 ^ 22
    let v := c.regs.handle h
    let slot := v.base + (v.fill + (c.producers h).length) % v.count * v.slot
    let rows := c.regs.shape.toNat % 2 ^ 14 + 1
    let row := shapeCols c.regs.shape * 2 ^ w.toNat
    let cfg := c.regs.tcfgOf (d.setWidth 4)
    let moves (rows : Nat) : List Stream :=
      [{ eff := .spRead, first := s.now, n := rows }, { eff := .spWrite, first := s.now + 2, n := rows }]
    let at_ (f : Flight) (addr pitch rows len : Nat) (prod : Bool) : Prop :=
      f.d = d.toNat ∧ f.addr = addr ∧ f.pitch = pitch ∧ f.rows = rows ∧ f.len = len ∧ f.prod = prod ∧
      f.streams = moves rows
    (Clear s c (.st d a b x w) → Transfers s c (.st d a b x w) true fun f =>
      at_ f A (if B = 0 then row else B) rows row false ∧ f.swz = (x = 1)) ∧
    (Clear s c (.sth d h n w) → Transfers s c (.sth d h n w) true fun f =>
      at_ f slot row rows row true ∧ f.swz = v.swz ∧ f.handle = some h.toNat) ∧
    (Clear s c (.stt d a b x) → Transfers s c (.stt d a b x) true fun f =>
      at_ f A (if B = 0 then tcRowBytes cfg else B) (tcRows cfg) (tcRowBytes cfg) false ∧ f.swz = (x = 1)) ∧
    (Clear s c (.stth d h n) → Transfers s c (.stth d h n) true fun f =>
      at_ f slot (tcRowBytes cfg) (tcRows cfg) (tcRowBytes cfg) true ∧ f.swz = v.swz ∧ f.handle = some h.toNat) ∧
    (Clear s c (.stm d a x) → Transfers s c (.stm d a x) true fun f =>
      f.d = d.toNat ∧ f.addr = A ∧ f.rows = rows ∧ f.swz = (x = 1) ∧ f.streams = moves rows) ∧
    (Clear s c (.sts d a m l) → Transfers s c (.sts d a m l) true fun f =>
      f.addr = (c.regs.readG a + imm19 m l).toNat % 2 ^ 22 ∧ f.rows = 1 ∧ f.len = 8 ∧
      f.data = [(0, [Run.full .v 0 (leBytes 8 (c.regs.readG d).toNat)])] ∧
      f.streams = [{ eff := .spWrite, first := s.now + 2, n := 1 }])

/-- R14, R29, R32, R63, R99, R126, R136, R137, R207 to R213, R265: class W at issue. -/
def Obligations.StoresIssue : Prop :=
  Claim.StoresTrap ∧ Claim.StoresFly

/-- R13, R26, R95, R96, R126, R210, R212 to R214: a row's read changes no memory and no register. A load's row that may be read
holds, until its write, the bytes of scratchpad at its row's addresses, as they stood before the writes of its own bundle; a
scalar load owes its register their little-endian number at issue+4, and a scale load keeps them for its append. A store's row,
with no error in the core, holds the bytes of its source: of its vector or bypass register, zeros for a code beyond them, of
its tile, or the mask bytes in which its bits lie. A row of a mask covers the bits of its columns alone. The model's choice:
that a merge of what its own bundle sent to its own core is no write of that bundle is log 160. -/
def Claim.ScratchpadRowRead : Prop :=
  ∀ (s : State) (c : Core) (u j k : Nat) (f : Flight), EventAt s c u j f k →
    ∃ c', Makes s (.scratchpadRowRead u j) c' ∧ SameMemories c c' ∧ SameRegisters c c' ∧
      (∀ p ∈ c'.pends, p ∈ c.pends ∨ ∃ d a m l v, f.instr = .lds d a m l ∧ p.due = f.issue + 4 ∧ p.what = .g d v) ∧
      let as := f.rowAddrs k
      let bs := as.map fun a => ((f.shadow.find? fun e => e.1 == a).map (·.2)).getD (c.sp.mem.get 0 a)
      let bit := k * f.cols
      let covers (ms : List Byte) : Prop := ∀ q m, ms[q]? = some m → ∀ i, i < 8 →
        (m.getLsbD i = true ↔ bit ≤ 8 * (bit / 8 + q) + i ∧ 8 * (bit / 8 + q) + i < bit + f.cols)
      let holds (r : Run) : Prop := c'.flight? u = some { f.next j with data := f.data ++ [(k, [r])] }
      (f.cls ≠ 5 → Reads s c f as →
        (∀ d a m l, f.instr = .lds d a m l → c'.pends = c.pends ++
          [⟨f.issue + 4, f.seqno, 4, f.bundle, f.pos, .g d (BitVec.ofNat 64 (leNat bs))⟩]) ∧
        (∀ a m l, f.instr = .sqld a m l → c'.flight? u = some { f.next j with bytes := bs }) ∧
        ((f.next j).live = true →
          ((∃ d a b x w, f.instr = .ld d a b x w) ∨ (∃ d h n w, f.instr = .ldh d h n w) →
            holds (Run.full .v (f.d * 16384 + k * f.len) bs)) ∧
          ((∃ d a b x, f.instr = .ldt d a b x) ∨ (∃ d h n, f.instr = .ldth d h n) →
            holds (Run.full .tile (f.d * 32768 + k * f.len) bs)) ∧
          (∀ d a x, f.instr = .ldm d a x → ∃ ms, ms.length = bs.length ∧ covers ms ∧
            holds { space := .m, addr := f.d * 2048 + bit / 8, bytes := ms.zip bs }))) ∧
      (f.cls = 5 → c.phys.flips = [] → f.codes = [] → f.shadow = [] → (f.next j).live = true →
        ((∃ d a b x w, f.instr = .st d a b x w) ∨ (∃ d h n w, f.instr = .sth d h n w) →
          holds (Run.full .v 0 ((List.range f.len).map fun i =>
            if f.d < 40 then c.vec.v.get 0 (f.d * 16384 + (k * f.len + i))
            else if f.d < 48 then c.vec.b.get 0 ((f.d - 40) * 16384 + (k * f.len + i)) else 0))) ∧
        ((∃ d a b x, f.instr = .stt d a b x) ∨ (∃ d h n, f.instr = .stth d h n) →
          holds (Run.full .v 0 (c.vec.tile.bytes 0 (f.d * 32768 + k * f.len) f.len))) ∧
        (∀ d a x, f.instr = .stm d a x → ∃ ms, covers ms ∧ ms.length = (bit + f.cols - 1) / 8 - bit / 8 + 1 ∧
          holds { space := .v, addr := 0, bytes := ms.zip ((List.range ms.length).map fun q =>
            if f.d = 0 then 0xFF else c.vec.m.get 0 (f.d * 2048 + (bit / 8 + q))) }))

/-- R190, R210, R211, R213: a load's row reaches its register, mask or tile: the runs it holds are written, one after the
other, and no other byte changes; a row of a tile that the array holds busy raises the timing fault, detail 0x02, and
changes nothing. -/
def Claim.RegisterRowWrite : Prop :=
  ∀ (s : State) (c : Core) (u j k : Nat) (f : Flight), EventAt s c u j f k → c.canonical →
    let busy := ∃ d : BitVec 6, ((∃ a b x, f.instr = .ldt d a b x) ∨ ∃ h n, f.instr = .ldth d h n) ∧
      tileBusy (c.moved f j) d.toNat f.seqno s.now = true
    ∃ c', Makes s (.registerRowWrite u j) c' ∧
      (∀ p a, ¬Covered (f.rowData k) p a → c'.vec.byte p a = c.vec.byte p a) ∧
      (¬busy → c'.vec = (f.rowData k).foldl (fun v r => v.putRun r) c.vec) ∧
      c'.sp = c.sp ∧ c'.arr = c.arr ∧ c'.phys.hbm = c.phys.hbm ∧ SameRegisters c c' ∧
      (busy → c'.vec = c.vec ∧ (c.phys.sysMode = false → (s.ctx c).la.phase = .running → c.trap = none →
        ∃ t, c'.trap = some t ∧ t.cause = 4 ∧ t.detail = 2))

/-- R13, R26, R95, R96, R126, R190, R210 to R214: the events of loads and of a store's reads. -/
def Obligations.LoadEvents : Prop :=
  Claim.ScratchpadRowRead ∧ Claim.RegisterRowWrite

/-- R14, R91 to R96, R99, R100, R208, R210, R213, R257, R265: a store's row that was read, where its core may be written, puts
its bytes at its row's addresses, one after the other, each under the bits it covers; it changes no other byte of scratchpad.
One that was not read, or may not be written, leaves scratchpad as it is. The last row of a handle form, once written,
completes the slot: the handle's fill pointer moves to the next slot and its count rises by one, its drain pointer and its
layout staying; one with an earlier producer on its handle in flight, or on a handle whose slots are all filled, moves neither
and raises the timing fault, detail 0x10 or 0x13. No other register changes, and neither do the memories, the queues, the
timing models, the sequencer, the traffic, the watchpoints and the windows. The model's choice: that of two producers of one
bundle the one of the lower class is the earlier is log 39. -/
def Obligations.StoreRowWriteFrame : Prop :=
  ∀ (s : State) (c : Core) (u j k : Nat) (f : Flight), EventAt s c u j f k → c.canonical →
    ∃ c', Makes s (.storeRowWrite u j) c' ∧
      (∀ a, a ∉ f.rowAddrs k → c'.sp.mem.get 0 a = c.sp.mem.get 0 a) ∧
      (∀ r rs, f.rowData k = r :: rs → Writes s c (f.rowAddrs k) → (f.rowAddrs k).Nodup →
        ∀ (i a : Nat) (m v : Byte), (f.rowAddrs k)[i]? = some a → r.bytes[i]? = some (m, v) →
          c'.sp.mem.get 0 a = (c.sp.mem.get 0 a &&& ~~~m) ||| (v &&& m)) ∧
      (f.rowData k = [] ∨ ¬Writes s c (f.rowAddrs k) → c'.sp = c.sp) ∧ SameBesides c c' ∧
      Completes s c f j (k + 1 = f.rows ∧ f.rowData k ≠ [] ∧ Writes s c (f.rowAddrs k)) c'

/-- R92: the swizzled view is a rearrangement of each 4 KiB line in 16-byte pieces: it keeps the line and the byte in
its piece, and applying it twice gives the address back, so no two addresses of a view share a byte. -/
def Claim.SwizzleRearrangesLines : Prop :=
  ∀ a : Nat, a < 2 ^ 22 →
    linear true a < 2 ^ 22 ∧ linear true a / 4096 = a / 4096 ∧ linear true a % 16 = a % 16 ∧
    linear true (linear true a) = a ∧ linear true a / 16 % 256 = (a / 16 % 256) ^^^ (a / 4096 % 256)

/-- R92, R95, R97: bytes written in a view read back from the addresses written, every other byte keeps its value, and
the lines written carry the mark of that view. -/
def Claim.ScratchpadWritesReadBack : Prop :=
  ∀ (c : Core) (now seqno : Nat) (swz : Bool) (as : List Nat) (bs : List Byte), c.sp.mem.wf 0 = true → as.Nodup →
    as.length = bs.length →
    let c' := c.spWrite now seqno swz as bs
    (∀ i (h : i < as.length) (g : i < bs.length), c'.sp.mem.get 0 as[i] = bs[i]) ∧
    (∀ a, a ∉ as → c'.sp.mem.get 0 a = c.sp.mem.get 0 a) ∧
    (∀ a ∈ as, (a / 4096, now) ∈ (if swz then c'.sp.ws else c'.sp.wl)) ∧ c'.vec = c.vec ∧ c'.regs = c.regs

/-- R92, R95, R97: the two views of scratchpad. -/
def Obligations.ScratchpadViews : Prop :=
  Claim.SwizzleRearrangesLines ∧ Claim.ScratchpadWritesReadBack

/-- R34, R214, R307: the scales of an sqld enter the queue whole where it has room, or raise the queue imbalance and
enter nothing; the bytes written are encoded anew, which is all that their error codes see of it. -/
def Claim.ScalesEnterWhole : Prop :=
  ∀ (s : State) (c : Core) (u j k : Nat) (f : Flight), EventAt s c u j f k →
    (c.q.sq.length + f.bytes.length ≤ 1024 → ∃ c', Makes s (.scaleAppend u j) c' ∧ c' = { c.moved f j with
      q := { c.q with sq := c.q.sq ++ f.bytes }
      phys := { c.phys with errs := c'.phys.errs, flips := c'.phys.flips } }) ∧
    (1024 < c.q.sq.length + f.bytes.length →
      Makes s (.scaleAppend u j) ((c.moved f j).raise (s.ctx c) ((f.next j).trap 0x0B 2 0 0 0)))

/-- R34, R37, R162, R179, R181, R182, R214: the harrow's results, and the appends to the two queues. -/
def Obligations.ResultsEnterWhole : Prop :=
  Claim.HarrowAndHistogramEnd ∧ Claim.ScalesEnterWhole

/-! ## Class D (R215 to R229) -/

/-- R99, R215, R218: a clear dcp copies one handle slot, eight blocks a cycle read from issue+4 and written from
issue+9, to or from its handle; a clear dgln reads its list at issue+1 and moves four blocks a cycle, and one of no rows
does nothing. -/
def Claim.CopiesIssue : Prop :=
  ∀ (s : State) (c : Core) (r d a b : BitVec 6) (h n m : BitVec 4) (e : BitVec 1),
    let v := c.regs.handle h
    let g := (c.regs.readG r).toNat % 2 ^ 22
    let A := c.regs.readG a
    let list := A.toNat / 2 ^ 32 % 2 ^ 11
    let size := 64 * 2 ^ m.toNat
    (Clear s c (.dcp r h n e) → Flies s c (.dcp r h n e) (fun _ => c) fun f =>
      f.len = v.slot ∧ f.prod = (e = 0) ∧ f.handle = some h.toNat ∧
      (e = 0 → f.a = g ∧ f.addr = v.base + (v.fill + (c.producers h).length) % v.count * v.slot) ∧
      (e = 1 → f.a = v.base + v.drain * v.slot ∧ f.addr = g) ∧
      f.streams = [{ eff := .blkRead, first := s.now + 4, n := v.slot / 64, div := 8 },
        { eff := .blkWrite, first := s.now + 9, n := v.slot / 64, div := 8 }]) ∧
    (Clear s c (.dgln d a b m) → list = 0 → Makes s (.dgln d a b m) c) ∧
    (Clear s c (.dgln d a b m) → list ≠ 0 → Flies s c (.dgln d a b m) (fun _ => c) fun f =>
      f.x = A ∧ f.a = (c.regs.readG b).toNat % 2 ^ 22 ∧ f.addr = (c.regs.readG d).toNat % 2 ^ 22 ∧ f.len = size ∧
      f.streams = [{ eff := .listRead, first := s.now + 1, n := 1 },
        { eff := .blkRead, first := s.now + 4, n := list * size / 64, div := 4 },
        { eff := .blkWrite, first := s.now + 9, n := list * size / 64, div := 4 }])

/-- R22, R100 to R102, R216, R219: a clear send or atomic whose destination range stays out of the landing area goes in flight
with its destination core and byte, its blocks read four a cycle from issue+4; a range that passes the end of scratchpad or
overlaps the landing area raises the landing-overflow fault; a send of 0 bytes does nothing. The model's choice: that the
fault's address is that of the range's first byte is log 148. -/
def Claim.SendsIssue : Prop :=
  ∀ (s : State) (c : Core) (d a b : BitVec 6) (p q : BitVec 2) (l : Option (BitVec 9)),
    let x := s.ctx c
    let D := (c.regs.readG d).toNat
    let dest := D / 2 ^ 22 % 2 ^ 9 % (x.la.w * x.la.h)
    let n := (c.regs.readG b).toNat
    let limit := 4194304 - x.la.landing * 65536
    let bad (a n : Nat) : Prop := n ≠ 0 ∧ (4194304 < a + n ∨ limit < a + n)
    let noted (k : Nat) : Core := { c with net := { c.net with
      notes := c.net.notes ++ [{ dest := dest, last := k, sender := c.index }] } }
    let e := if q.toNat ≤ 1 then 4 else 8
    (∀ i ∈ [Instr.dput d a b, .dred d a b p q l], Clear s c i →
      (bad (D % 2 ^ 22) n → Traps s c i { c.preciseTrap i 0x0A 0 with address := dest * 2 ^ 22 + D % 2 ^ 22 }) ∧
      (n = 0 → Makes s i c) ∧
      (n ≠ 0 → ¬bad (D % 2 ^ 22) n →
        Flies s c i (fun _ => noted (s.now + 4 + ((n + 63) / 64 - 1) / 4)) fun f =>
          f.d = dest ∧ f.addr = D % 2 ^ 22 ∧ f.a = (c.regs.readG a).toNat % 2 ^ 22 ∧ f.len = n ∧
          f.streams = [{ eff := .sendRead, first := s.now + 4, n := (n + 63) / 64, div := 4 }])) ∧
    (Clear s c (.amo d a p q) → ¬bad (D % 2 ^ 22) e →
      Flies s c (.amo d a p q) (fun _ => noted (s.now + 4)) fun f =>
        f.d = dest ∧ f.addr = D % 2 ^ 22 ∧ f.x = c.regs.readG a ∧ f.len = e ∧
        f.streams = [{ eff := .sendRead, first := s.now + 4, n := 1 }]) ∧
    (∀ i ∈ [Instr.amo d a p q, .amor d a b p q], Clear s c i → bad (D % 2 ^ 22) e →
      Traps s c i { c.preciseTrap i 0x0A 0 with address := dest * 2 ^ 22 + D % 2 ^ 22 }) ∧
    (Clear s c (.amor d a b p q) → ¬bad (D % 2 ^ 22) e → bad (n % 2 ^ 22) e →
      Traps s c (.amor d a b p q) { c.preciseTrap (.amor d a b p q) 0x0A 0 with address := n % 2 ^ 22 }) ∧
    (Clear s c (.amor d a b p q) → ¬bad (D % 2 ^ 22) e → ¬bad (n % 2 ^ 22) e →
      Flies s c (.amor d a b p q) (fun _ => noted (s.now + 4)) fun f =>
        f.d = dest ∧ f.addr = D % 2 ^ 22 ∧ f.a = n % 2 ^ 22 ∧ f.x = c.regs.readG a ∧ f.len = e ∧
        f.streams = [{ eff := .sendRead, first := s.now + 4, n := 1 }])

/-- R14, R63, R99, R136, R137, R208, R209, R215, R216, R218, R219, R222, R228, R265: where copies, sends, atomics, column
commands and dcan trap. The illegal-syllable trap, detail 0x06, is raised by a dcp, or a chrd or chwr through a handle, of a
swizzled view, and by the latter of a slot below 1,024 bytes; a send above 65,536 bytes; a dred of operation 3, or whose size
or destination is no multiple of its element's; a dgln of size code 5 or more, of more than 1,024 rows, or whose base or
destination is no multiple of 64 or list of 2; an atomic whose addresses are no multiple of its operand's size; a chrd to an
address that is no multiple of 64; and a dcan of tag 0. In launch code a need that is not met raises the timing fault, detail
0x01, or an interlocked launch waits, and a 769th operation in flight raises detail 0x0F. -/
def Claim.EngineSyllablesTrap : Prop :=
  ∀ (s : State) (c : Core) (r d a b : BitVec 6) (k : BitVec 5) (h n m t : BitVec 4) (e : BitVec 1) (p q : BitVec 2)
    (l : Option (BitVec 9)), s.actor = some c →
    let G (r : BitVec 6) : Nat := (c.regs.readG r).toNat
    let local_ (r : BitVec 6) : Nat := G r % 2 ^ 22
    let v := c.regs.handle h
    let full : Prop × Nat × Bool := (768 ≤ c.inFlight s.now, 0x0F, false)
    let filled : Prop × Nat × Bool := (v.filled < n.toNat, 1, true)
    let free : Prop × Nat × Bool := (n ≠ 0 ∧ v.count - v.filled < n.toNat + (c.producers h).length, 1, true)
    let word := if q.toNat ≤ 1 then 4 else 8
    let elem := if q = 1 then 2 else 4
    TrapsWhere s c (.dcp r h n e) [(v.swz = true, 6)] [if e = 0 then free else filled, full] ∧
    TrapsWhere s c (.dput d a b) [(65536 < G b, 6)] [full] ∧
    TrapsWhere s c (.dred d a b p q l)
      [(p.toNat = 3 ∨ 65536 < G b ∨ G b % elem ≠ 0 ∨ local_ d % elem ≠ 0, 6)] [full] ∧
    TrapsWhere s c (.dgln d a b m) [(4 < m.toNat ∨ 1024 < G a / 2 ^ 32 % 2 ^ 11 ∨ local_ d % 64 ≠ 0 ∨ local_ b % 64 ≠ 0 ∨
      local_ a % 2 ≠ 0, 6)] [full] ∧
    TrapsWhere s c (.amo d a p q) [(local_ d % word ≠ 0, 6)] [full] ∧
    TrapsWhere s c (.amor d a b p q) [(local_ d % word ≠ 0 ∨ local_ b % word ≠ 0, 6)] [full] ∧
    TrapsWhere s c (.dcan t) [(t = 0, 6)] [] ∧
    TrapsWhere s c (.chrd k n a t) [(G a % 64 ≠ 0, 6)] [full] ∧ TrapsWhere s c (.chwr k n a) [] [full] ∧
    TrapsWhere s c (.chrdHandle k m h n t) [(v.swz = true ∨ v.slot < 1024, 6)] [free, full] ∧
    TrapsWhere s c (.chwrHandle k m h n) [(v.swz = true ∨ v.slot < 1024, 6)] [filled, full]

/-- R14, R22, R63, R99 to R102, R136, R137, R208, R209, R215, R216, R218, R219, R222, R228, R265: copies, sends and atomics at
issue, and where they, the column commands and dcan trap. -/
def Obligations.CopiesAndSendsIssue : Prop :=
  Claim.EngineSyllablesTrap ∧ Claim.CopiesIssue ∧ Claim.SendsIssue

/-- R110, R111, R136, R137, R209, R220, R265, R282, R283: a clear dhget whose window maps its range goes in flight with its
counter; a dhput reads four blocks a cycle from issue+4 and joins the open batch; a range that its window does not map raises
the host-window fault, which names the host address, and one that overlaps the landing area the landing-overflow fault. A
transfer of no bytes, or past the end of scratchpad, raises the illegal-syllable trap, detail 0x06, and a 769th operation in
flight the timing fault, detail 0x0F. The model's choice: that this one's address is the range's first byte in the landing area
is log 148. -/
def Obligations.HostTransfersIssue : Prop :=
  ∀ (s : State) (c : Core) (d a b : BitVec 6) (n : BitVec 4),
    let x := s.ctx c
    let D := (c.regs.readG d).toNat % 2 ^ 22
    let A := c.regs.readG a
    let len := (c.regs.readG b).toNat
    let P (f : Flight) : Prop := f.addr = D ∧ f.x = A ∧ f.len = len ∧ f.d = n.toNat ∧ f.open_ = true
    let inside := D + len ≤ 4194304 - x.la.landing * 65536
    (s.actor = some c → ∀ i ∈ [Instr.dhget d a b n, .dhput d a b n],
      TrapsWhere s c i [(len = 0 ∨ 2 ^ 22 < D + len, 6)] [(768 ≤ c.inFlight s.now, 0x0F, false)]) ∧
    (Clear s c (.dhget d a b n) → inside → windowOk c.windows true A len = true →
      Flies s c (.dhget d a b n) (fun _ => c) fun f => P f ∧ f.streams = []) ∧
    (Clear s c (.dhget d a b n) → inside → windowOk c.windows true A len = false →
      Traps s c (.dhget d a b n) { c.preciseTrap (.dhget d a b n) 0x12 0 with address := A.toNat }) ∧
    (Clear s c (.dhput d a b n) → inside → windowOk c.windows false A len = true →
      isReduce c.windows A = false ∨ x.la.group ≠ 0xFF →
      Flies s c (.dhput d a b n)
        (fun _ => { c with net := { c.net with openBatch := c.net.openBatch ++ [c.nextUid] } }) fun f =>
        P f ∧ f.streams = [{ eff := .sendRead, first := s.now + 4, n := (len + 63) / 64, div := 4 }]) ∧
    (∀ i ∈ [Instr.dhget d a b n, .dhput d a b n], Clear s c i → ¬inside →
      Traps s c i { c.preciseTrap i 0x0A 0 with address := max D (4194304 - x.la.landing * 65536) }) ∧
    (Clear s c (.dhput d a b n) → inside →
      windowOk c.windows false A len = false ∨ (isReduce c.windows A = true ∧ x.la.group = 0xFF) →
      Traps s c (.dhput d a b n) { c.preciseTrap (.dhput d a b n) 0x12 0 with address := A.toNat })

/-- R42, R223, R224, R227: a channel command to a bank of 0 to 29 that passes the checks of the timing model updates the
model, and nothing else of the core; one that fails raises the channel-timing fault with the row of R224 it fails; an
activate of a row whose page the row map does not hold raises the unmapped-row fault. The model's choice: that the record
of a chpra or chref, which name no bank, names the lowest bank that fails is log 103. -/
def Obligations.ChannelCommands : Prop :=
  ∀ (s : State) (c : Core) (k : BitVec 5) (r : BitVec 15) (g : BitVec 6), s.actor = some c →
    let fc := (s.ctx c).field
    let W := (c.regs.readG g).toNat
    let passes (i : Instr) (m : ChCmd) (b row : Nat) : Prop := c.chan.check m b s.now fc = none →
      Makes s i (({ c with chan := c.chan.apply m b s.now row }).busy 6)
    let fails (i : Instr) (m : ChCmd) (b : Nat) : Prop := ∀ d, c.chan.check m b s.now fc = some d →
      Traps s c i { c.preciseTrap i 7 d with address := b }
    let failsAll (i : Instr) (m : ChCmd) : Prop := ∀ d, c.chan.check m 0 s.now fc = some d →
      Traps s c i { c.preciseTrap i 7 d with address := c.chan.failingBank m 0 s.now }
    let lost (i : Instr) (b row : Nat) : Prop := Traps s c i { c.preciseTrap i 8 0 with address := b + row * 65536 }
    let mapped (row : Nat) : Prop := c.rowMapped row = true
    (k.toNat < 30 → mapped r.toNat → passes (.chact k r) .act k.toNat r.toNat ∧ fails (.chact k r) .act k.toNat) ∧
    (30 ≤ k.toNat ∨ ¬mapped r.toNat → lost (.chact k r) k.toNat r.toNat) ∧
    (k.toNat < 30 → W < 32768 → mapped W →
      passes (.chactReg k g) .act k.toNat W ∧ fails (.chactReg k g) .act k.toNat) ∧
    (30 ≤ k.toNat ∨ 32768 ≤ W ∨ ¬mapped W → lost (.chactReg k g) k.toNat (W % 32768)) ∧
    (k.toNat < 30 → passes (.chpre k) .pre k.toNat 0 ∧ fails (.chpre k) .pre k.toNat ∧
      passes (.chrefb k) .refb k.toNat 0 ∧ fails (.chrefb k) .refb k.toNat) ∧
    (30 ≤ k.toNat → lost (.chpre k) k.toNat 0 ∧ lost (.chrefb k) k.toNat 0) ∧
    passes .chpra .pra 0 0 ∧ failsAll .chpra .pra ∧ passes .chref .ref 0 0 ∧ failsAll .chref .ref

/-- R43, R224, R225: the checks of each command to a bank, by the detail of the first row that fails. A bus cycle of a command in
a system window, field cycles 0 to 255 of each 4,096, is the last of them: one cycle, of chrd nine and of chwr five. -/
def Claim.ChannelChecks : Prop :=
  ∀ (h : Chan) (b x fc : Nat),
    let k := h.bank b
    let soon (t : Option Nat) (n : Nat) : Prop := ∃ y, t = some y ∧ x < y + n
    let refreshes (k : Bank) : Prop := soon k.refb 136 ∨ soon h.ref 298
    let idle (k : Bank) : Prop := k.row = none ∧ ¬refreshes k
    let early (k : Bank) : Prop := soon k.act 30 ∨ soon k.rd 4 ∨ soon k.wr 15
    let groups (v : Vector (Option Nat) 8) (same other : Nat) : Prop :=
      ∃ (g : Nat) (y : Nat), v[g]? = some (some y) ∧ x < y + if g = b / 4 then same else other
    let late : Prop × Nat := (refreshes k, 0x0A)
    let apart : Prop × Nat := (∃ p, h.refb = some p ∧ p.2 ≠ b ∧ x < p.1 + 7, 0x0B)
    let bus (n : Nat) : Prop × Nat := (∃ i, i < n ∧ (fc + i) % 4096 < 256, 0x0C)
    let columns : List (Prop × Nat) := [(k.row = none, 1), (soon k.act 13, 5), (groups h.col 2 1, 6)]
    FirstOf [(¬idle k, 1), (soon k.pre 13 ∨ soon k.act 43, 2),
      (∃ p ∈ h.acts, p.2 ≠ b ∧ x < p.1 + (if p.2 / 4 = b / 4 then 4 else 2), 3),
      (∃ p, h.acts[3]? = some p ∧ x < p.1 + 16, 4), late, apart, bus 1] (h.check .act b x fc) ∧
    FirstOf (columns ++ [(groups h.wr 8 3, 7), late, bus 9]) (h.check .rd b x fc) ∧
    FirstOf (columns ++ [late, bus 5]) (h.check .wr b x fc) ∧
    FirstOf [(k.row = none ∧ refreshes k, 1), (k.row ≠ none ∧ early k, 8), late, bus 1] (h.check .pre b x fc) ∧
    FirstOf [(∃ y, y < 30 ∧ (h.bank y).row ≠ none ∧ early (h.bank y), 8), bus 1] (h.check .pra b x fc) ∧
    FirstOf [(∃ y, y < 30 ∧ (¬idle (h.bank y) ∨ soon (h.bank y).pre 13), 9), bus 1] (h.check .ref b x fc) ∧
    FirstOf [(¬idle k, 1), (soon k.pre 13, 9), late, apart, bus 1] (h.check .refb b x fc)

/-- R42, R222 to R224, R226: what a command that passes leaves in the timing model. An activate opens its row, its bank's row
pages starting anew, and is the latest of the channel's last four; a column command is its bank's and its group's last; a
precharge closes its bank, and chpra every open one, while an idle bank stays as it is; a refresh is its bank's last, from which
its deadline counts, chref's that of every bank. Nothing else changes. -/
def Claim.ChannelRecords : Prop :=
  ∀ (h : Chan) (b x row : Nat), b < 30 →
    let k := h.bank b
    let sets (h' : Chan) (y : Bank) : Prop := ∀ n, n < 30 → h'.bank n = if n = b then y else h.bank n
    let marks (v w : Vector (Option Nat) 8) : Prop := ∀ g : Nat, w[g]? = if g = b / 4 then some (some x) else v[g]?
    let closed (k : Bank) : Bank := if k.row = none then k else { k with row := none, pre := some x, pages := [] }
    let to_ (m : ChCmd) : Chan := h.apply m b x row
    (sets (to_ .act) { k with row := some row, act := some x, pages := [] } ∧
      to_ .act = { h with banks := (to_ .act).banks, acts := ((x, b) :: h.acts).take 4 }) ∧
    (sets (to_ .rd) { k with rd := some x } ∧ marks h.col (to_ .rd).col ∧
      to_ .rd = { h with banks := (to_ .rd).banks, col := (to_ .rd).col }) ∧
    (sets (to_ .wr) { k with wr := some x } ∧ marks h.col (to_ .wr).col ∧ marks h.wr (to_ .wr).wr ∧
      to_ .wr = { h with banks := (to_ .wr).banks, col := (to_ .wr).col, wr := (to_ .wr).wr }) ∧
    (sets (to_ .pre) (closed k) ∧ to_ .pre = { h with banks := (to_ .pre).banks }) ∧
    ((∀ n, n < 30 → (to_ .pra).bank n = closed (h.bank n)) ∧ to_ .pra = { h with banks := (to_ .pra).banks }) ∧
    ((∀ n, n < 30 → (to_ .ref).bank n = { h.bank n with last := x, warned := false }) ∧
      to_ .ref = { h with banks := (to_ .ref).banks, ref := some x }) ∧
    (sets (to_ .refb) { k with refb := some x, last := x, warned := false } ∧
      to_ .refb = { h with banks := (to_ .refb).banks, refb := some (x, b) })

/-- R224: a chact passes exactly when its bank is idle, 13 cycles have passed since the bank's last precharge and 43
since its last activate, 4 since an activate of another bank of its group and 2 since one of another group, 16 since the
fourth activate before, 136 and 298 since a refresh, 7 since a refresh of another bank, and its bus cycle lies outside
the system windows. -/
def Claim.ActivatePasses : Prop :=
  ∀ (h : Chan) (b x fc : Nat),
    let k := h.bank b
    let past (t : Option Nat) (n : Nat) : Prop := ∀ y, t = some y → y + n ≤ x
    h.check .act b x fc = none ↔
      k.row = none ∧ past k.pre 13 ∧ past k.act 43 ∧ past k.refb 136 ∧ past h.ref 298 ∧
      (∀ p ∈ h.acts, p.2 ≠ b → p.1 + (if p.2 / 4 = b / 4 then 4 else 2) ≤ x) ∧
      (∀ p, h.acts[3]? = some p → p.1 + 16 ≤ x) ∧
      (∀ p, h.refb = some p → p.2 ≠ b → p.1 + 7 ≤ x) ∧ 256 ≤ fc % 4096

/-- R42, R43, R222 to R226: the checks of the home channel's timing model, and what it records of a command that passes. -/
def Obligations.ActivateTiming : Prop :=
  Claim.ActivatePasses ∧ Claim.ChannelChecks ∧ Claim.ChannelRecords

/-- R108, R222, R227, R228: a column read that passes its checks takes the column's 64 bytes at issue, as they stand after
every earlier write, and owes them to scratchpad at issue+48; a column write reads its source at issue+2. Only a read of column
15 into a handle is a producer on it. A read with a tag belongs to the row page of its tag in its bank's open row, which the
first read of the page starts. A command that fails a check raises the channel-timing fault. The model's choice: that the bytes
are taken at issue, after every earlier write, is log 86. -/
def Claim.ColumnCommandsIssue : Prop :=
  ∀ (s : State) (c : Core) (k : BitVec 5) (n h m t : BitVec 4) (g : BitVec 6),
    let fc := (s.ctx c).field
    let A := (c.regs.readG g).toNat % 2 ^ 22
    let v := c.regs.handle h
    let col := c.columnAt k.toNat ((c.chan.bank k.toNat).row.getD 0) n.toNat
    let flown (i : Instr) (P : Flight → Prop) : Prop :=
      ∃ c' f, Makes s i c' ∧ c'.flights = c.flights ++ [f] ∧ f.uid = c.nextUid ∧ f.instr = i ∧ f.len = 64 ∧ P f ∧
        SameMemories c c' ∧ c'.regs = c.regs ∧ c'.q = c.q ∧ c'.net = c.net
    let lost (i : Instr) : Prop := Clear s c i → 30 ≤ k.toNat →
      Traps s c i { c.preciseTrap i 8 0 with address := k.toNat }
    let pages := (c.chan.bank k.toNat).pages
    let first := pages.find? fun p => p.1 == t.toNat
    let reads (i : Instr) (addr : Nat) (handle : Option Nat) : Prop := Clear s c i → k.toNat < 30 →
      (c.chan.check .rd k.toNat s.now fc = none → flown i fun f => f.addr = addr ∧
        f.streams = [{ eff := .chData, first := s.now + 48, n := 1 }] ∧ f.cancelled = false ∧
        f.prod = (handle.isSome && n == 15) ∧ (f.prod = true → f.handle = handle) ∧
        f.page = (match first with | some p => p.2 | none => s.now) ∧
        (∀ c', Makes s i c' → (c'.chan.bank k.toNat).pages =
          if t = 0 ∨ first ≠ none then pages else pages ++ [(t.toNat, s.now)]) ∧
        (c.phys.flips = [] → f.bytes = c.phys.hbm.bytes 0 col 64)) ∧
      (∀ d, c.chan.check .rd k.toNat s.now fc = some d → Traps s c i { c.preciseTrap i 7 d with address := k.toNat })
    let writes (i : Instr) (addr : Nat) : Prop := Clear s c i → k.toNat < 30 →
      (c.chan.check .wr k.toNat s.now fc = none → flown i fun f => f.addr = addr ∧ f.base = col ∧ f.prod = false ∧
        f.streams = [{ eff := .chSource, first := s.now + 2, n := 1 }]) ∧
      (∀ d, c.chan.check .wr k.toNat s.now fc = some d → Traps s c i { c.preciseTrap i 7 d with address := k.toNat })
    (∀ i ∈ [Instr.chrd k n g t, .chrdHandle k n h m t, .chwr k n g, .chwrHandle k n h m], lost i) ∧
    reads (.chrd k n g t) A none ∧
    reads (.chrdHandle k n h m t)
      ((v.base + (v.fill + (c.producers h).length) % v.count * v.slot + 64 * n.toNat) % 2 ^ 22) (some h.toNat) ∧
    writes (.chwr k n g) A ∧ writes (.chwrHandle k n h m) ((v.base + v.drain * v.slot + 64 * n.toNat) % 2 ^ 22)

/-- R109, R222: dcan suppresses the reads of its tag whose page has no read with an instant of this cycle or earlier,
and no other operation; its tag is never 0. The model's choice: that a page is judged by its first read's instant,
issue+48, even where that read is already suppressed, is log 81. -/
def Claim.CancelSuppressesPages : Prop :=
  ∀ (s : State) (c : Core) (t : BitVec 4), s.actor = some c →
    (t = 0 → Traps s c (.dcan t) (c.preciseTrap (.dcan t) 1 6)) ∧
    (t ≠ 0 → ∃ c', Makes s (.dcan t) c' ∧ c'.flights.length = c.flights.length ∧ SameMemories c c' ∧
      c'.regs = c.regs ∧ c'.q = c.q ∧
      ∀ (i : Nat) (f : Flight), c.flights[i]? = some f →
        c'.flights[i]? = some (if cancelTag f.instr = t.toNat ∧ s.now < f.page + 48 then { f with cancelled := true } else f))

/-- R108, R109, R222, R227, R228: column commands at issue, and dcan. -/
def Obligations.ColumnsAndCancellation : Prop :=
  Claim.ColumnCommandsIssue ∧ Claim.CancelSuppressesPages

/-- R96, R102, R216, R218: the engines' reads change no memory and no register. A list that may be read gives the gleaner its
indices, 16 bits each, little-endian; a source block that may be read is held for its write, of a dcp the 64 bytes at its
place in the source, of a dgln those at the index of its row. A send gathers the bytes of its blocks, and with the last one
its record is on the mesh, to arrive 1 to 72 cycles later; an atomic's and a remote counter addition's carries the operand
taken at issue. The model's choice: that a send of which a block may not be read completes no record is log 79, and the
cycles on the way are free within their limits (log 6). -/
def Claim.EngineReads : Prop :=
  ∀ (s : State) (c : Core) (u j k : Nat) (f : Flight), EventAt s c u j f k →
    let span (a n : Nat) : List Nat := (List.range n).map fun i => (a + i) % 4194304
    let byte (a : Nat) : Byte := c.sp.mem.get 0 (a % 4194304)
    let same (c' : Core) : Prop := SameMemories c c' ∧ c'.regs = c.regs ∧ c'.q = c.q ∧ c'.chan = c.chan
    let block := 64 * k
    (∃ c', Makes s (.gleanerListRead u j) c' ∧ same c' ∧
      let A := f.x.toNat % 4194304
      (Reads s c f (span A (2 * f.rows)) → (f.next j).live = true →
        c'.flight? u = some { f.next j with
          counts := (List.range f.rows).map fun i => (byte (A + 2 * i)).toNat + 256 * (byte (A + 2 * i + 1)).toNat })) ∧
    (∃ c', Makes s (.drillBlockRead u j) c' ∧ same c' ∧
      let holds (as : List Nat) : Prop := as ≠ [] → Reads s c f as → (f.next j).live = true →
        c'.flight? u = some { f.next j with data := f.data ++ [(k, [Run.full .v 0 (as.map byte)])] }
      (∀ r h n e, f.instr = .dcp r h n e → holds (span (f.a + block) (min 64 (f.len - block)))) ∧
      (∀ d a b m e, f.instr = .dgln d a b m → f.counts[block / f.len]? = some e →
        holds (span (f.a + e * f.len + block % f.len) 64))) ∧
    (∃ c', Makes s (.sendBlockRead u j) c' ∧ same c' ∧
      let goes (kind : RecKind) (bs : List Byte) : Prop := ∃ t, s.now < t ∧ t ≤ s.now + 72 ∧
        c'.net = { c.net with out := c.net.out ++ [⟨kind, c.index, u, f.d, f.addr, bs, t, false, []⟩] }
      let operand := leBytes f.len f.x.toNat
      (∀ d a p m, f.instr = .amo d a p m → goes (.atomic p m none) operand) ∧
      (∀ d a b p m, f.instr = .amor d a b p m → goes (.atomic p m (some f.a)) operand) ∧
      (∀ n a b, f.instr = .caddR n a b → goes (.counter n f.x) operand) ∧
      let as := span (f.a + block) (min 64 (f.len - block))
      let bs := f.bytes ++ as.map byte
      let last := ∃ t, f.streams[j]? = some t ∧ t.n = k + 1 ∧ bs.length = f.len
      let sends (kind : RecKind) : Prop := Reads s c f as →
        ((f.next j).live = true → c'.flight? u = some { f.next j with bytes := bs }) ∧
        (last → goes kind bs) ∧ (¬last → c'.net = c.net)
      (∀ d a b, f.instr = .dput d a b → sends .plain) ∧
      (∀ d a b p m l, f.instr = .dred d a b p m l → sends (.reduce (l.getD 0).toNat p m)) ∧
      (∀ d a b n, f.instr = .dhput d a b n → Reads s c f as → (f.next j).live = true →
        c'.net = c.net ∧ c'.flight? u = some { f.next j with bytes := bs }))

/-- R14, R96, R99, R100, R108, R109, R208, R215, R218, R222, R228, R257, R265: a block's write puts the bytes held at its 64
addresses, and a chrd's data its column's, where the core may be written and the read was not suppressed, and change no other
byte of scratchpad, and a block whose source was not read is not written. The last block of a dcp into its handle, and the data
of the last column of a row read into one, complete the slot as the last row of a store does, or raise the timing fault, detail
0x10 or 0x13; neither changes another register, another memory, a queue, a timing model, the traffic, the sequencer, a
watchpoint or a window. A chwr's source read, where it may be made, gives its column those bytes of scratchpad, and changes no
other byte of the channel. The model's choice: which of two producers is the earlier is log 39. -/
def Claim.EngineWrites : Prop :=
  ∀ (s : State) (c : Core) (u j k : Nat) (f : Flight), EventAt s c u j f k → c.canonical →
    let span (a : Nat) : List Nat := (List.range 64).map fun i => (a + i) % 4194304
    let takes (c' : Core) (a : Nat) (bs : List Byte) : Prop :=
      (∀ b, b ∉ span a → c'.sp.mem.get 0 b = c.sp.mem.get 0 b) ∧
      (bs = [] ∨ ¬Writes s c (span a) → c'.sp = c.sp) ∧
      (Writes s c (span a) → ∀ i b, i < 64 → bs[i]? = some b → c'.sp.mem.get 0 ((a + i) % 4194304) = b)
    let held := (f.rowData k).flatMap fun r => r.bytes.map (·.2)
    let column := if f.cancelled then [] else f.bytes
    (∃ c', Makes s (.drillBlockWrite u j) c' ∧ takes c' (f.addr + 64 * k) held ∧ SameBesides c c' ∧
      Completes s c f j ((∃ t, f.streams[j]? = some t ∧ t.n = k + 1) ∧ held ≠ [] ∧ Writes s c (span (f.addr + 64 * k))) c') ∧
    (∃ c', Makes s (.channelReadData u j) c' ∧ takes c' f.addr column ∧ SameBesides c c' ∧
      Completes s c f j (column ≠ [] ∧ Writes s c (span f.addr)) c') ∧
    (∃ c', Makes s (.channelWriteSourceRead u j) c' ∧
      (∀ a, a < f.base ∨ f.base + 64 ≤ a → c'.phys.hbm.get 0 a = c.phys.hbm.get 0 a) ∧
      (Reads s c f (span f.addr) → ∀ i, i < 64 →
        c'.phys.hbm.get 0 (f.base + i) = c.sp.mem.get 0 ((f.addr + i) % 4194304)) ∧
      c'.sp = c.sp ∧ c'.vec = c.vec ∧ c'.arr = c.arr ∧ c'.regs = c.regs)

/-- R14, R96, R99 to R102, R108, R109, R208, R215, R216, R218, R219, R222, R228, R257, R265: the engines' events. -/
def Obligations.EngineEventsFrame : Prop := Claim.EngineReads ∧ Claim.EngineWrites

/-- R100, R101, R114, R263, R264, R304, R307: a record that arrives leaves the mesh and lands at its destination core, where it
has room: it stands in as many 64-byte blocks of the landing area as it needs, each inside the area and none of another landed
record's, whose units are encoded anew. A record with no room raises the landing-overflow fault there, a destination report of
the engine of sends. The model's choice: that the blocks of its send that landed at a stop give way to the whole record is log
106, that a record takes free blocks of the area, whatever their order, log 147, and that the fault's address is that of the
record's first byte log 148. -/
def Claim.RecordArrival : Prop :=
  ∀ (s : State) (c : Core) (i : Nat) (r : Rec), s.actor = some c → c.net.out[i]? = some r →
    let s' := s.setActor { c with net := { c.net with out := c.net.out.eraseIdx i } }
    ∃ t, exec (.recordArrival i) s = .next t ∧ t.cores.length = s'.cores.length ∧ t.images = s'.images ∧
      ∀ (n : Nat) (d : Core), s'.cores[n]? = some d →
        let here := d.net.land.filter fun y => !(y.open_ && y.sender == r.sender && y.order == r.order)
        let area := (s'.ctx d).la.landing * 65536
        let room := recSizes d.net.prev + recSizes here + r.size ≤ area
        let mine := d.lid = c.lid ∧ d.index = r.dest
        (¬mine → t.cores[n]? = some d) ∧
        (mine → ¬room → t.cores[n]? = some (d.raise (s'.ctx d) { cause := 0x0A, kind := 2, engine := 8, address := r.addr })) ∧
        (mine → room → ∃ bs : List Nat, bs.Nodup ∧
          (∀ b ∈ bs, 64 * b + 64 ≤ area ∧ ∀ y ∈ d.net.prev ++ here, b ∉ y.blocks) ∧
          ((∀ y ∈ d.net.prev ++ here, 64 * y.blocks.length ≤ y.size) → 64 * bs.length = r.size) ∧
          t.cores[n]? = some (bs.foldl (fun e b => e.writeUnits 0 ((s'.ctx d).landBase + 64 * b) 64)
            { d with net := { d.net with land := here ++ [{ r with blocks := bs }] } }))

/-- R110, R111, R220, R221: the host side's events of a transfer: bytes of a dhget stand, where its core may be written, at
their place in its scratchpad, and no other byte changes; a completion adds 1 to the transfer's counter; an acknowledgement in
the order of the batches takes the transfer out of its batch and gives the host those of its bytes that have not reached it
yet; an error raises the host-window fault and adds to no counter. Bytes of a dhget that reach a stopped context are written in
its image too (R271); of the scratchpad's rows no other byte changes. The model's choice: that they go into the rows that the
save has written, and those that no such row holds into the core on which the context still stands, is log 84. -/
def Obligations.HostSideEvents : Prop :=
  ∀ (s : State) (c : Core) (u off : Nat) (bs : List Byte) (f : Flight), s.actor = some c → c.flight? u = some f →
    let written (a : Nat) : Prop := ∃ i, i < bs.length ∧ off + i < f.len ∧ a = (f.addr + off + i) % 4194304
    let may := ∀ b, written b → b < (s.ctx c).landBase ∧ (s.ctx c).outside b = false
    (c.canonical → ∃ c', c'.regs = c.regs ∧ c'.vec = c.vec ∧
      (∀ a, (∀ i, i < bs.length → a ≠ (f.addr + off + i) % 4194304) → c'.sp.mem.get 0 a = c.sp.mem.get 0 a) ∧
      (∀ a, ¬written a → c'.sp.mem.get 0 a = c.sp.mem.get 0 a) ∧ (¬may → c'.sp = c.sp) ∧
      (may → bs.length ≤ 4194304 → ∀ i b, bs[i]? = some b → off + i < f.len →
        c'.sp.mem.get 0 ((f.addr + off + i) % 4194304) = b) ∧
      (s.cur < s.cores.length → Makes s (.hostDataArrival u off bs) c') ∧
      (s.cores.length ≤ s.cur → (s.physOf c.physNo).hbm.wf 0 = true →
        ∃ t, exec (.hostDataArrival u off bs) s = .next t ∧ t.images = (s.setActor c').images ∧ t.launches = s.launches ∧
          t.parts = s.parts ∧ t.now = s.now ∧ t.cores.length = s.cores.length ∧
          let rows := (30 * 32768 + c.imageRow) * 1024
          let stands (a : Nat) : Prop := a < (s.ctx c).landBase ∧
            (c.imageMask.getLsbD 20 = true ∨ a < c.imageMask.toNat % 2 ^ 11 * 4096 ∨ c.imageLand ≤ a)
          ∀ a, a < 4194304 →
            (¬(written a ∧ stands a) → (t.physOf c.physNo).hbm.get 0 (rows + a) = (s.physOf c.physNo).hbm.get 0 (rows + a)) ∧
            (written a → stands a → may → (t.physOf c.physNo).hbm.get 0 (rows + a) = c'.sp.mem.get 0 a) ∧
            ∀ (n : Nat) (d e : Core), s.cores[n]? = some d → t.cores[n]? = some e → e.vec = d.vec ∧ e.arr = d.arr ∧
              e.regs = d.regs ∧ (¬(d.lid = c.lid ∧ d.index = c.index ∧ written a ∧ ¬stands a) → d.canonical →
                e.sp.mem.get 0 a = d.sp.mem.get 0 a) ∧
              (d.lid = c.lid → d.index = c.index → d.canonical → written a → ¬stands a → may →
                e.sp.mem.get 0 a = c'.sp.mem.get 0 a))) ∧
    (∃ c', Makes s (.hostTransferComplete u) c' ∧ SameMemories c c' ∧
      c'.regs = c.regs.addN (BitVec.ofNat 6 f.d) 1) ∧
    (c.net.inTurn u = true → f.streams.any Stream.live = false →
      ∃ c', exec (.hostAcknowledgement u) s = .next { s.setActor c' with host :=
          ⟨(windowTarget c.windows f.x).1, (windowTarget c.windows f.x).2 + BitVec.ofNat 64 f.moved,
            sendRank (s.ctx c) c f.x, f.bytes.drop f.moved⟩ :: s.host } ∧
        c'.net = c.net.ack u ∧ SameMemories c c' ∧ c'.regs = c.regs) ∧
    (∃ c', Makes s (.hostSideError u) (c'.raise (s.ctx c) (f.trap 0x12 0 f.x.toNat 0 0)) ∧ c'.regs = c.regs ∧
      SameMemories c c')

/-- R262, R271: with ranks still to come a contribution's bytes are kept; with the last one the reduction's result is
written where the window says, where its core may be written, and in the image of a stopped context too, and the counter of
the window rises by 1, in a stopped context at its restart. A rank's second contribution to an open reduction raises the
host-window fault. The model's choice: that its record names window and rank, and that the reduction then ends without a
result, is log 89. -/
def Claim.PeerReduction : Prop :=
  ∀ (s : State) (c : Core) (w : BitVec 6) (rank : Nat) (bs : List Byte), s.actor = some c →
    let w0 := windowWord c.windows w.toNat 0
    let w3 := (windowWord c.windows w.toNat 3).toNat
    let mine := c.net.peer.filter fun p => p.1 == w.toNat
    let rest := c.net.peer.filter fun p => p.1 != w.toNat
    w0.getLsbD 0 = true → w0.toNat / 2 % 4 = 2 →
    ((∃ p ∈ mine, p.2.1 = rank) → Makes s (.peerReduceContribution w rank bs)
      (({ c with net := { c.net with peer := rest } }).raise (s.ctx c)
        { cause := 0x12, kind := 1, engine := 9, address := w.toNat * 2 ^ 58, info0 := rank })) ∧
    ((∀ p ∈ mine, p.2.1 ≠ rank) → mine.length + 1 < w3 / 2 ^ 32 % 2 ^ 20 →
      Makes s (.peerReduceContribution w rank bs)
        { c with net := { c.net with peer := rest ++ (mine ++ [(w.toNat, rank, bs)]) } }) ∧
    ((∀ p ∈ mine, p.2.1 ≠ rank) → w3 / 2 ^ 32 % 2 ^ 20 ≤ mine.length + 1 →
      ∃ c' as, exec (.peerReduceContribution w rank bs) s =
          .next (((s.setActor c').intoImage as).countOrHold c.lid c.index (BitVec.ofNat 6 (w3 / 2 ^ 4 % 2 ^ 4)) 1) ∧
        (s.cur < s.cores.length → (s.setActor c').intoImage as = s.setActor c') ∧
        c'.net.peer = rest ∧ c'.vec = c.vec ∧ c'.arr = c.arr ∧ c'.regs = c.regs ∧
        ∀ (p : Partition) (g : Nat × Group), s.part? c.lid.part.toNat = some p →
          p.groups.find? (fun g => g.1 == w3 / 2 ^ 8 % 2 ^ 4) = some g → c.canonical →
          let out := reduceBytes (w3 / 2 ^ 2 % 2 ^ 2) (w3 % 2 ^ 2) (g.2.members.length * g.2.w * g.2.h)
            ((mine ++ [(w.toNat, rank, bs)]).map fun q => (q.2.1, q.2.2))
          let place := (windowWord c.windows w.toNat 1).toNat % 2 ^ 22
          (as = if (s.ctx c).badAddr (addrsOf false place out.length) = none then addrsOf false place out.length else []) ∧
          ∀ a, c'.sp.mem.get 0 a =
            if (s.ctx c).badAddr (addrsOf false place out.length) = none then landsAt place out (c.sp.mem.get 0) a
            else c.sp.mem.get 0 a)

/-- R36, R58, R271: an addition to a counter of a launch's core is made at once, or, while the launch is stopped, is held
for its restart. The model's choice: that it is made at once is log 27. -/
def Claim.AdditionsWaitForRestart : Prop :=
  ∀ (s : State) (l : LaunchId) (la : Launch) (i : Nat) (n : BitVec 6) (v : Word), s.launch? l = some la →
    (la.stoppedNow = true → (s.countOrHold l i n v).cores = s.cores ∧
      (s.countOrHold l i n v).launch? l = some { la with held := la.held ++ [(i, n, v)] }) ∧
    (la.stoppedNow = false → (s.countOrHold l i n v).launches = s.launches ∧
      (s.countOrHold l i n v).cores = s.cores.map fun c =>
        if c.lid = l ∧ c.index = i then { c with regs := c.regs.addN n v } else c)

/-- R36, R58, R100, R101, R114, R262, R264, R271: records from the mesh and contributions from the host. -/
def Obligations.ArrivalsFromOutside : Prop :=
  Claim.RecordArrival ∧ Claim.PeerReduction ∧ Claim.AdditionsWaitForRestart

/-- R103, R104, R105: the order and the conflicts of a merge. Records come in the order of sender and of issue there; the
keys of the reduce-sends in ascending order. Where no conflict is found, no two records that overlap conflict and every
key's records have one sender each and agree in place, size, operation and format; a conflict that is found is at the
lowest byte of all. -/
def Claim.MergeOrder : Prop :=
  ∀ l : List Rec,
    (sortRecs l).Perm l ∧
    ((sortRecs l).Pairwise fun a b => a.sender < b.sender ∨ (a.sender = b.sender ∧ a.order ≤ b.order)) ∧
    (keysOf l).Pairwise (· < ·) ∧ (∀ k, k ∈ keysOf l ↔ ∃ r ∈ l, r.key = some k) ∧
    (firstConflict l = none →
      (l.Pairwise fun a b => recsConflict a b = true → commonByte a b = none) ∧
      (l.Pairwise fun a b => a.key = b.key → a.key ≠ none →
        a.sender ≠ b.sender ∧ a.addr = b.addr ∧ a.bytes.length = b.bytes.length ∧ a.kind = b.kind)) ∧
    ∀ b p q, firstConflict l = some (b, p, q) → (b, p, q) ∈ conflicts l ∧
      ∀ x y z, [x, y].Sublist l → recsConflict x y = true → commonByte x y = some z → b ≤ z

/-- R101, R103 to R105, R219: what a merge's records come to. With B bytes of records it takes 4 cycles and one for each 1,024
bytes, a send of n bytes being 64 and n rounded up to 64, and any other record 64. Of two records that touch a common
byte, plain ones and a plain one with an atomic conflict where their senders differ, two reduce-sends where their keys differ,
a reduce-send with a plain write or an atomic always, two atomics never; an amor's return conflicts with every other byte
merged, and an addition to a counter with none. The byte of a conflict is the lowest that both touch, and it names the two
lowest senders of the records that touch it, or its one sender twice. -/
def Claim.MergeConflicts : Prop :=
  (∀ l : List Rec,
    let size (r : Rec) : Nat := match r.kind with
      | .plain => 64 + 64 * ((r.bytes.length + 63) / 64)
      | .reduce _ _ _ => 64 + 64 * ((r.bytes.length + 63) / 64)
      | _ => 64
    let B := (l.map size).sum
    mergeWork l = if B = 0 then 0 else 4 + (B + 1023) / 1024) ∧
  (∀ (a b : Rec) (k m : Nat) (o f p g : BitVec 2) (v w : Option Nat) (n : BitVec 6) (z : Word),
    let clash : Prop := recsConflict a b = true ∧ recsConflict b a = true
    let never : Prop := recsConflict a b = false ∧ recsConflict b a = false
    let clashUnless (P : Prop) : Prop := (P → never) ∧ (¬P → clash)
    (a.kind = .plain → b.kind = .plain → clashUnless (a.sender = b.sender)) ∧
    (a.kind = .plain → b.kind = .reduce k o f → clash) ∧
    (a.kind = .plain → b.kind = .atomic o f v → clashUnless (a.sender = b.sender)) ∧
    (a.kind = .reduce k o f → b.kind = .reduce m p g → clashUnless (k = m)) ∧
    (a.kind = .reduce k o f → b.kind = .atomic p g v → clash) ∧
    (a.kind = .atomic o f v → b.kind = .atomic p g w → never) ∧
    (a.kind = .ret → (∀ n z, b.kind ≠ .counter n z) → clash) ∧
    (a.kind = .counter n z → never)) ∧
  (∀ a b : Rec,
    let touch (r : Rec) (y : Nat) : Prop := r.addr ≤ y ∧ y < r.addr + r.bytes.length
    (commonByte a b = none ↔ ∀ y, ¬(touch a y ∧ touch b y)) ∧
    ∀ z, commonByte a b = some z ↔ touch a z ∧ touch b z ∧ ∀ y, touch a y → touch b y → z ≤ y) ∧
  ∀ (l : List Rec) (y : Nat),
    let touches (n : Nat) : Prop := ∃ r ∈ l, r.sender = n ∧ r.addr ≤ y ∧ y < r.addr + r.bytes.length ∧
      ∀ n z, r.kind ≠ .counter n z
    let two := twoSenders l y
    (∀ n, touches n → touches two.1 ∧ two.1 ≤ n ∧ touches two.2) ∧
    (∀ n, touches n → n ≠ two.1 → two.2 ≠ two.1 ∧ two.2 ≤ n)

/-- R48, R103 to R106, R217, R219, R264: a merge whose work passes the seam, or that meets a conflict, applies nothing and
raises its trap. One that does neither applies every landed record of the previous furrow and leaves none: the plain writes in
the order of the records, the results of the reduce keys, the atomics one after the other, each on the bytes that stand then,
their returns onto the mesh, the returns that have landed, and the additions to counters; every other byte of scratchpad stays.
A record whose units in the landing area cannot be corrected (R304) is not applied, and neither is the result of a key of which
one is such a record. A merge that has no record, or whose origin raised the fault of a late block, leaves everything as it is.
The model's choice: that a record which cannot be read leaves the rest of the seam to be applied is log 149, that a class-0
context takes writes outside its footprint log 155, that two conflicting senders stand in info0 in ascending order is log 32,
that a return travels from the merge's own cycle, 8 cycles longer to another die, log 80, which of several conflicts at one
byte is named log 108, and that a read of the sender's own bundle sees the merged bytes log 160. -/
def Claim.MergeApplies : Prop :=
  (∀ (s : State) (c : Core), s.actor = some c → c.net.prev = [] ∨ c.net.lateFault = true →
    Makes s .merge { c with seq := { c.seq with checked := insertNat 0 c.seq.checked } }) ∧
  ∀ (s : State) (c : Core), s.actor = some c → c.net.prev ≠ [] → c.net.lateFault = false →
    let x := s.ctx c
    let c0 := c.markChecked 0
    let read := c.net.prev.foldl (fun (r : Core × List Rec) y =>
      let v := r.1.readUnits x (mergeTrap 0 0 0 0) 0 (y.blocks.flatMap fun b => unitsOf (x.landBase + 64 * b) 64)
      (v.1, if v.2 then r.2 else r.2 ++ [y])) (c0, [])
    let prev := c.net.prev.filter fun r => !read.2.contains r
    let keys := (keysOf prev).filter fun k => !read.2.any fun r => r.key == some k
    let seam := x.la.desc.toNat / 2 ^ 24 % 2 ^ 13
    let ofKind (p : RecKind → Bool) : List Rec := sortRecs (prev.filter fun r => p r.kind)
    let plain := ofKind fun k => match k with | .plain => true | _ => false
    let atomics := ofKind fun k => match k with | .atomic .. => true | _ => false
    let last := ofKind fun k => match k with | .ret | .counter .. => true | _ => false
    let rets := last.filter fun r => r.kind == .ret
    let reduced := reducedBy x.cores prev keys (writtenBy plain (c.sp.mem.get 0))
    let done := atomics.foldl atomicBy (reduced, [])
    (seam < mergeWork c.net.prev → Makes s .merge (c0.raise x (mergeTrap 4 7 0 0))) ∧
    (c.phys.flips = [] → read = (c0, [])) ∧
    (mergeWork c.net.prev ≤ seam → ∀ b p q, firstConflict c.net.prev = some (b, p, q) →
      Makes s .merge (read.1.raise x (mergeTrap 9 0 (p + q * 65536) 0))) ∧
    (mergeWork c.net.prev ≤ seam → firstConflict c.net.prev = none →
      ∃ c', Makes s .merge c' ∧ c'.net.prev = [] ∧ c'.vec = c.vec ∧ c'.arr = c.arr ∧ c'.regs.g = c.regs.g ∧
        c'.regs.k = c.regs.k ∧ c'.phys.hbm = c.phys.hbm ∧
        c'.regs = last.foldl (fun r y => match y.kind with | .counter n v => r.addN n v | _ => r) c.regs ∧
        (c.canonical → ∀ a, (∀ r ∈ prev, a ∉ addrsOf false r.addr (max r.bytes.length 8)) →
          c'.sp.mem.get 0 a = c.sp.mem.get 0 a) ∧
        (c.canonical → c.phys.flips = [] → (c.err 0).inj.getLsbD 8 = false →
          (∀ a, c'.sp.mem.get 0 a = writtenBy rets done.1 a) ∧
          ∃ back, c'.net.out = c.net.out ++ back ∧ back.map (fun r => (r.dest, r.addr, r.bytes)) = done.2 ∧
            ∀ r ∈ back, r.kind = .ret ∧ r.sender = c.index ∧
              r.arrive = s.now + if x.dieOf c.index = x.dieOf r.dest then 0 else 8))

/-- R48, R101, R103 to R106, R217, R219, R264: a merge applies the previous furrow's records whole, or refuses them whole; how
long it takes, and which records conflict. -/
def Obligations.MergeAppliesOrRefuses : Prop :=
  Claim.MergeOrder ∧ Claim.MergeConflicts ∧ Claim.MergeApplies

/-! ## The timetable and the launch (R45 to R67, R226, R241 to R262) -/

/-- R45 to R50, R56, R57, R101: at its origin a running launch enters the successor furrow from this cycle, a fixed
furrow that is not marked .done fixes the next origin L cycles on, and every core of the launch has the records that
landed before the seam ahead of it; a core that raised neither an entry fault nor an overrun has no fend and no head and
is in its successor, and one that did stays in its furrow; its loop levels, registers and memories keep their values, and
other launches' cores are untouched. The next origin of an interlocked launch's fixed furrow that is not marked .done falls in
the cycle in which every core of it has counted L cycles of the furrow (R64). The model's choice: that a furrow that ends
before its seam leaves its unmerged records to the next one's is log 107, and that a core left in its furrow counts on from
its origin log 76. -/
def Claim.FurrowTurns : Prop :=
  ∀ (s : State) (l : LaunchId) (la : Launch), s.launch? l = some la → la.phase = .running →
    s.nextOrigin la = some s.now →
    let k := successorOf la (s.coresOf l)
    let d := la.descOf k.2
    ∃ t la', exec (.furrowOrigin l) s = .next t ∧ t.launch? l = some la' ∧ la'.furrow = k.2 ∧ la'.origin = s.now ∧
      la'.phase = .running ∧ t.parts = s.parts ∧ t.images = s.images ∧ t.now = s.now ∧
      (descElastic d = false → la.interlocked = false → la.doneOf k.2 = false →
        la'.next = some (s.now + (d.toNat % 2 ^ 24 + 1))) ∧
      (descElastic d = false → la.interlocked = true → la.doneOf k.2 = false → ∀ (u : State) (n : Nat),
        u.nextOrigin la' = some n ↔ n = u.now ∧ ∀ c ∈ u.coresOf l,
          d.toNat % 2 ^ 24 + 1 ≤ c.fcycle { now := u.now, base := 0, la := la' }) ∧
      t.cores.length = s.cores.length ∧
      ∀ (n : Nat) (c e : Core), s.cores[n]? = some c → t.cores[n]? = some e →
        (c.lid ≠ l → e = c) ∧
        (c.lid = l → e.net.prev = c.net.prev ++ c.net.land ∧ e.net.land = [] ∧ SameMemories c e ∧ e.regs = c.regs ∧
          e.seq.loops = c.seq.loops ∧ (c.seq.stuck = false → 2 ∉ c.seq.checked → e.seq.fend = none ∧ e.seq.head = none ∧
            e.seq.furrow = if descHeadland la.desc then succByte (c.seq.head.elim 0 (·.target)) k.1 else k.2) ∧
          (c.seq.stuck = true ∨ 2 ∈ c.seq.checked → e.seq.furrow = c.seq.furrow ∧ e.seq.pc = c.seq.pc ∧
            e.seq.since = some (c.seq.since.getD la.origin) ∧ e.seq.fcycleLost = c.seq.fcycleLost))

/-- R46, R48, R49, R63, R102, R127, R128, R137: at an origin a core enters its successor at the syllable of its furrow
table's entry, where the furrow before had a headland, and where it had none at the syllable that its program counter has
reached. An entry that is not valid, and a syllable that is a fill, has S = 0 or lies past 65,535, is the entry fault, and the
core issues nothing. A block that was read later than its rule allows is the timing fault, detail 0x08, at the core that it
was sent to; where both are raised the entry fault is recorded. The model's choice: that an entry of a furrow that the
furrow list does not hold is no valid one is log 142, and that the limit of a fixed furrow's sends counts field cycles from the
origin, in an interlocked launch too, log 151. -/
def Claim.FurrowEntries : Prop :=
  ∀ (s : State) (l : LaunchId) (la : Launch), s.launch? l = some la → la.phase = .running →
    s.nextOrigin la = some s.now →
    let cs := s.coresOf l
    let k := successorOf la cs
    ∃ t, exec (.furrowOrigin l) s = .next t ∧ t.cores.length = s.cores.length ∧
      ∀ (n : Nat) (c e : Core), s.cores[n]? = some c → t.cores[n]? = some e → c.lid = l →
        let turns := c.seq.stuck = false ∧ 2 ∉ c.seq.checked
        let succ := if descHeadland la.desc then succByte (c.seq.head.elim 0 (·.target)) k.1 else k.2
        let entry := look 0#32 c.ftab succ
        let listed := descHeadland la.desc = false ∨ (entry.getLsbD 31 = true ∧ (la.descOf succ).getLsbD 63 = true)
        let pc := if descHeadland la.desc then entry.toNat % 2 ^ 16 else c.seq.pc
        let word := c.code.getD pc 0xFFFFFFFF#32
        let fault := if 65535 < pc then 4 else if word = 0xFFFFFFFF#32 then 2 else if word.getLsbD 31 then 0 else 1
        let late := ∃ d ∈ cs, ∃ y ∈ d.net.notes, y.dest = c.index ∧
          ((la.desc.getLsbD 37 = true ∧ ∃ z, d.seq.fend = some z ∧ z < y.last + 32) ∨
            (la.desc.getLsbD 37 = false ∧ la.origin + (la.desc.toNat % 2 ^ 24 + 1) < y.last + 72))
        let clean := c.trap = none ∧ c.phys.sysMode = false
        let entryFault (d : Nat) : Prop := e.seq.stuck = true ∧
          (clean → ∃ y, e.trap = some y ∧ y.cause = 2 ∧ y.detail = d ∧ y.kind = 0 ∧ y.raised = s.now)
        (e.net.notes = [] ∧ (e.net.lateFault = true ↔ late)) ∧
        (turns → listed → e.seq.pc = pc) ∧
        (turns → ¬listed → entryFault 3) ∧
        (turns → listed → fault ≠ 0 → entryFault fault) ∧
        (turns → listed → fault = 0 → e.seq.stuck = false ∧ (clean → ¬late → e.trap = none)) ∧
        (clean → late → ¬turns ∨ (listed ∧ fault = 0) →
          ∃ y, e.trap = some y ∧ y.cause = 4 ∧ y.detail = 8 ∧ y.kind = 2 ∧ y.engine = 8 ∧ y.raised = s.now)

/-- R45 to R50, R56, R57, R63, R64, R67, R101, R102, R127, R128, R137: an origin, at which the cores of a launch turn to the
next furrow and enter it. -/
def Obligations.FurrowOrigin : Prop :=
  Claim.FurrowTurns ∧ Claim.FurrowEntries

/-- R50, R55, R59, R63, R64, R66, R67, R226: a missing head, an overrun and a refresh deadline raise their traps at their core,
an overrun naming the bundle that would have issued, which does not, nor are the loop levels tested at it; the releases end
their wait. The model's choice: that the core issues on from the bundle after it in program order until the stop is log 102,
and that the record of a missing head is of kind 0 and engine 0 and names no bundle is log 116. -/
def Claim.CoreTimetableEvents : Prop :=
  ∀ (s : State) (c : Core) (b : Nat), s.actor = some c →
    let x := s.ctx c
    let checked (k : Nat) : Seq := { c.seq with checked := insertNat k c.seq.checked }
    Makes s .missingHead (({ c with seq := checked 1 }).raise x { cause := 4, detail := 5 }) ∧
    Makes s .furrowOverrun (({ c with seq := { checked 2 with
      bundle := c.seq.pc, pc := nextStart c.code (c.seq.pc + bundleLen c.code c.seq.pc), len := 0, skip := none,
      suppressed := false, waiting := false, held := false, frozen := false, triedAt := some s.now } }).raise x
      { cause := 5, bundle := some c.seq.pc }) ∧
    Makes s (.refreshDeadline b) (({ c with chan := c.chan.setBank b fun y => { y with warned := true } }).raise x
      { cause := 7, detail := 0x0D, engine := 10, address := b }) ∧
    Makes s .drainRelease { c with seq := { c.seq with waiting := false } } ∧
    Makes s .holdRelease { c with seq := { c.seq with held := false } } ∧
    Makes s .freezeRelease { c with seq := { c.seq with frozen := false } }

/-- R53, R56, R57, R60, R61, R259: 40 cycles after the last fend an elastic join fixes the next origin at a multiple of
4,096 field cycles, or the end of a furrow marked .done; at a headland's compare every core with a late prep raises the
timing fault, detail 0x06, and where some core's hash differs from the decider's every core raises the divergence, one with a
late prep both. The model's choice: that the record of a late prep is of kind 0 and engine 0 and names no bundle is log 116, that
a prep's limits count fcycle log 119, and that of several preps of the byte the last is judged log 150. -/
def Claim.LaunchTimetableEvents : Prop :=
  ∀ (s : State) (l : LaunchId) (la : Launch), s.launch? l = some la → la.phase = .running →
    let cs := s.coresOf l
    let base := (s.part? la.id.part.toNat).elim 0 (·.base)
    (∀ y, lastFend cs = some y → descElastic la.desc = true → y + 40 ≤ s.now →
      exec (.elasticJoin l) s = .next (s.setLaunch (if la.doneOf la.furrow then { la with ended := some (y + 40) }
        else { la with next := some (nextAligned base (y + 40)) }))) ∧
    (descHeadland la.desc = true → la.compared = false →
      (deciderHead la cs = none →
        exec (.headlandHashCompare l) s = .next (s.setLaunch { la with compared := true })) ∧
      (∀ d, deciderHead la cs = some d →
        ∃ t, exec (.headlandHashCompare l) s = .next t ∧ t.launch? l = some { la with compared := true } ∧
          t.cores.length = s.cores.length ∧
          ∀ (n : Nat) (c e : Core), s.cores[n]? = some c → t.cores[n]? = some e →
            let x : Ctx := { s.ctx c with la := { la with compared := true } }
            let late := ∃ h, c.seq.head = some h ∧ prepTimely x d.index h c.seq = false
            (c.lid ≠ l → e = c) ∧
            (c.lid = l → ¬late → firstDiffering d.target cs = none → e = c) ∧
            (c.lid = l → late → firstDiffering d.target cs = none → e = c.raise x { cause := 4, detail := 6 }) ∧
            let diverges (i : Nat) : TrapRec := { cause := 6, kind := 3, engine := 12, info0 := descDecider la.desc + i * 65536 }
            (c.lid = l → ¬late → ∀ i, firstDiffering d.target cs = some i → e = c.raise x (diverges i)) ∧
            (c.lid = l → late → ∀ i, firstDiffering d.target cs = some i →
              e = (c.raise x { cause := 4, detail := 6 }).raise x (diverges i))))

/-- R50, R53, R55 to R57, R59 to R61, R63, R64, R66, R67, R226: the timetable's other events. -/
def Obligations.TimetableEvents : Prop := Claim.CoreTimetableEvents ∧ Claim.LaunchTimetableEvents

/-- R46, R47, R223, R254: the preparation over, a launch alone on its partition's count starts furrow 0 in this cycle,
which becomes field cycle 0; beside others it waits for a multiple of 4,096, and starts there. Every core enters furrow 0 at
its furrow table's entry, and one that has none valid issues nothing. The model's choice: that an entry of a furrow that the
furrow list does not hold is no valid one is log 142. -/
def Claim.FirstOrigin : Prop :=
  ∀ (s : State) (l : LaunchId) (la : Launch) (p : Partition), s.launch? l = some la → s.part? l.part.toNat = some p →
    let shared := ∃ y ∈ s.launches, y.id ≠ l ∧ y.id.part = l.part ∧ y.onCount = true
    let starts (base : Nat) : Prop := ∃ t la' p', exec (.firstOrigin l) s = .next t ∧ t.launch? l = some la' ∧
      la'.phase = .running ∧ la'.furrow = 0 ∧ la'.origin = s.now ∧ t.part? l.part.toNat = some p' ∧ p'.base = base ∧
      p'.counters = p.counters ∧
      ∀ (n : Nat) (c e : Core), s.cores[n]? = some c → t.cores[n]? = some e → c.lid = l →
        let w := look 0#32 c.ftab 0
        let listed := w.getLsbD 31 = true ∧ (la.descOf 0).getLsbD 63 = true
        e.seq.furrow = 0 ∧ (listed → e.seq.pc = w.toNat % 2 ^ 16) ∧ (¬listed → e.seq.stuck = true)
    (∀ u, la.phase = .preparing u → u ≤ s.now → ¬shared → starts s.now) ∧
    (∀ u, la.phase = .preparing u → u ≤ s.now → shared → nextAligned p.base s.now = s.now → starts p.base) ∧
    (∀ u, la.phase = .preparing u → u ≤ s.now → shared → nextAligned p.base s.now ≠ s.now →
      exec (.firstOrigin l) s = .next (s.setLaunch { la with phase := .starting (nextAligned p.base s.now) })) ∧
    (la.phase = .starting s.now → starts p.base)

/-- R242, R252, R257, R259, R294: a launch whose last furrow has ended and whose cores are quiet completes: its
completion counter rises by one, its completion report is sent, and the scheduler decides. The model's choice: that the
report's body is the launch word is log 57, that a footprint's restore begins here is log 60, and which events let the
scheduler decide is log 98. -/
def Claim.Completion : Prop :=
  ∀ (s : State) (l : LaunchId) (la : Launch) (p : Partition) (e : Nat), s.launch? l = some la →
    s.part? l.part.toNat = some p → la.phase = .running → s.furrowEnd la = some e → e ≤ s.now →
    (∀ c ∈ s.coresOf l, c.quiet = true) →
    let p' : Partition := if la.done = 65535 then p
      else { p with counters := assign la.done (satAdd (look 0 p.counters la.done) 1) p.counters }
    let t := ((s.setPart p').setLaunch { la with phase := .completed, ended := some e, yield_ := none }).report 4 0 0
      la.report (leBytes 8 (launchWord l))
    exec (.launchCompletion l) s =
      .next (State.schedule l.part.toNat (if la.cls = 0 then t.restoreFootprints l else t))

/-- R7, R43, R248, R251, R252, R280, R304: a core's code fill done makes its body resident, with the words that stand in the
window of the code store under the page-table entry that the fill read; a body that is resident stays as it is. A window that
holds a unit that cannot be corrected ends the launch instead. A system
window marks its partition as served in this cycle, and changes nothing else of it. The model's choice: which events let
the scheduler decide is log 98, and that a code window which holds a unit that cannot be corrected ends the launch log
130. -/
def Claim.FillAndWindow : Prop :=
  ∀ (s : State) (l : LaunchId) (la : Launch) (i : Nat) (n : BitVec 8) (p : Partition),
    (∀ e : Fill, s.launch? l = some la →
      la.fills.find? (fun e => e.core == i && e.place == 0 && e.fill == 0 && decide (e.ready ≤ s.now)) = some e →
      let b := la.body i
      let y := s.physOf b.at_
      let lost := y.lost 7 (windowByte y e.entry) (4 * (s.joinedOf la i).elim 0 fun j => j.code.length)
      (s.codeOf b = none → lost ≠ [] → ∃ t la', exec (.codeFillDone l i) s = .next t ∧ t.launch? l = some la' ∧
        la'.phase = .terminated ∧ t.resident = s.resident) ∧
      (s.codeOf b ≠ none ∨ lost = [] → ∃ u : State, exec (.codeFillDone l i) s = .next (State.schedule l.part.toNat
          (u.setLaunch { la with fills := la.fills.filter fun e => e.core != i })) ∧
        u.launches = s.launches ∧ u.parts = s.parts ∧ u.mgmt = s.mgmt ∧ u.now = s.now ∧ u.images = s.images ∧
        (s.codeOf b ≠ none → u = s) ∧
        (s.codeOf b = none → ∃ ws, u.codeOf b = some ws ∧ ws.length = (s.joinedOf la i).elim 0 (fun j => j.code.length) ∧
          (y.hbm.wf 0 = true → ∀ (k : Nat) (w : BitVec 32), ws[k]? = some w →
            w.toNat = leNat (y.hbm.bytes 0 (windowByte y e.entry + 4 * k) 4))))) ∧
    (s.part? n.toNat = some p → ∃ t, exec (.systemWindow n) s = .next t ∧
      t.part? n.toNat = some { p with window := some s.now } ∧ t.now = s.now)

/-- R7, R43, R46, R47, R223, R242, R248, R251, R252, R254, R257, R259: a launch's start, its end, the fill of its code
and the system windows. -/
def Obligations.LaunchEvents : Prop := Claim.FirstOrigin ∧ Claim.Completion ∧ Claim.FillAndWindow

/-! ## Traps, stops and restarts (R66, R263 to R278) -/

/-- R265, R266, R288: a core of a running launch records the first trap it raises; a later one only sets the more-traps
flag, and of two in one cycle the lower cause is recorded, and of one cause at one bundle's issue the lower position. No
trap is raised while the launch does not run. In system code a fault halts the core, with the record of the first; that of an
instruction that names a context's counters, handles or timetable raises nothing. The common stop of a launch falls 16 cycles
after the earliest trap of its cores. The model's choice: which instructions these are is log 114, that their faults have no
effect at all log 123, and that the software trap, a watchpoint match and a report of corrected bits are faults there log 161. -/
def Claim.FirstTrap : Prop :=
  (∀ (x : Ctx) (c : Core) (t : TrapRec), c.phys.sysMode = false →
    let keeps (o : TrapRec) : Prop := c.raise x t = { c with trap := some { o with more := true } }
    let replaces : Prop := c.raise x t = { c with trap := some { c.fillTrap x t with more := true } }
    (x.la.phase ≠ .running → c.raise x t = c) ∧
    (x.la.phase = .running →
      (c.trap = none → c.raise x t = { c with trap := some (c.fillTrap x t) }) ∧
      (∀ o, c.trap = some o → o.raised ≠ x.now → keeps o) ∧
      (∀ o, c.trap = some o → o.raised = x.now → o.cause < t.cause → keeps o) ∧
      (∀ o, c.trap = some o → o.raised = x.now → t.cause < o.cause → replaces) ∧
      (∀ o, c.trap = some o → o.raised = x.now → t.cause = o.cause →
        if t.kind = 0 ∧ o.kind = 0 ∧ t.bundle = o.bundle ∧ t.pos < o.pos then replaces else keeps o))) ∧
  (∀ (x : Ctx) (c : Core) (t : TrapRec), c.phys.sysMode = true →
    (t.names = true → c.raise x t = c) ∧
    (t.names = false →
      c.raise x t = { c with phys := { c.phys with halted := some (c.phys.halted.getD (c.fillTrap x t)) } })) ∧
  (∀ (c : Core) (f : Flight) (i : Instr) (u v y p q : Nat) (k h n : BitVec 4) (e : BitVec 1) (w : BitVec 2)
      (d a b : BitVec 6) (m : BitVec 10) (o : BitVec 12) (s t : BitVec 8) (z : BitVec 5) (l : Option (BitVec 9)),
    (f.trap u v y p q).names = (c.preciseTrap f.instr u v).names ∧
    (i ∈ [Instr.cadd d a, .caddR d a b, .ctest k e d m l, .ctestReg k e d a, .dhget d a b n, .dhput d a b n, .adv h n e,
        .hset d a b, .hget d a e, .ldh d h n w, .sth d h n w, .ldth d h n, .stth d h n, .dcp d h n e,
        .chrdHandle z k h n n, .chwrHandle z k h n, .fend, .head k, .prep k s t, .prepHi k s t, .loopq o, .drain n, .bclose,
        .rfence a b] → (c.preciseTrap i u v).names = true) ∧
    (i ∈ [Instr.sadd d a b, .mfc d a, .wnext k e d, .ld d a b e w, .st d a b e w, .dput d a b, .dcan n, .eret, .ovld a,
        .trap (m.setWidth 22) l, .nop, .vjoin] → (c.preciseTrap i u v).names = false)) ∧
  (∀ (x : Ctx) (c : Core) (t : TrapRec), (c.fillTrap x t).raised = x.now ∧ (c.fillTrap x t).fnum = c.seq.furrow ∧
    (c.fillTrap x t).fcycle = c.fcycle x ∧ (c.fillTrap x t).cause = t.cause ∧ (c.fillTrap x t).bundle = t.bundle) ∧
  ∀ (s : State) (l : LaunchId) (k : Nat), s.stopOf l = some k ↔
    (∃ c ∈ s.cores, c.lid = l ∧ ∃ t, c.trap = some t ∧ t.raised + 16 = k) ∧
    ∀ c ∈ s.cores, c.lid = l → ∀ t, c.trap = some t → k ≤ t.raised + 16

/-- R263, R285, R286: a watchpoint matches the bytes of its word that its control selects, of an access of its directions
and sources. An access that none matches raises nothing; of one that some match the lowest-numbered is recorded, with
cause 0x10, its number and the mask of the bytes matched, and the lowest of their addresses; a match of another sets the
more-traps flag, and the access changes nothing else of the core. -/
def Claim.WatchpointMatch : Prop :=
  ∀ (x : Ctx) (c : Core) (write : Bool) (src : Source) (as : List Nat) (t : Nat → TrapRec),
    let hits (i : Fin 4) (b : Nat) : Prop :=
      let ct := c.wp[2 * i.val + 1]
      ct.getLsbD 0 = true ∧ ct.getLsbD (if write then 1 else 2) = true ∧
      ct.getLsbD (match src with | .core => 3 | .eng => 4 | .merge => 5) = true ∧ b < 16 ∧ ct.getLsbD (16 + b) = true ∧
      c.wp[2 * i.val].toNat / 16 % 2 ^ 18 * 16 + b ∈ as
    let c' := c.watch x write src as t
    (∀ (i : Fin 4) (b : Nat), (c.watchMask i write src as).testBit b = true ↔ hits i b) ∧
    ((∀ i b, ¬hits i b) → c' = c) ∧
    (c.trap = none → c.phys.sysMode = false → x.la.phase = .running →
      ∀ i : Fin 4, (∃ b, hits i b) → (∀ j b, j < i → ¬hits j b) →
        ∃ (n a b : Nat) (more : Bool), as[n]? = some a ∧ hits i (a % 16) ∧
          a / 16 = c.wp[2 * i.val].toNat / 16 % 2 ^ 18 ∧ hits i b ∧ (∀ b', hits i b' → b ≤ b') ∧
          ((∃ j b, i < j ∧ hits j b) → more = true) ∧
          c' = { c with trap := some { c.fillTrap x { t n with
            cause := 0x10, address := c.wp[2 * i.val].toNat / 16 % 2 ^ 18 * 16 + b
            info0 := i.val + 4 * c.watchMask i write src as } with more := more } })

/-- R304 to R306: a unit whose code checks reads as it stands. One wrong bit of a unit in SRAM, and one wrong 16-bit symbol
in the home channel, is corrected: it counts, enters its array's log where no uncorrectable error stands, and raises cause
0x13 where rep is set. Any other error counts, enters the log where none stands before it, and raises cause 0x0D with the
array and the syndrome, and its data is not delivered. Errors of one cycle enter as if they came in ascending address. The
model's choice: that the syndrome is the bits in which the unit is wrong is log 127. -/
def Claim.FlippedUnits : Prop :=
  ∀ (x : Ctx) (c : Core) (t : TrapRec) (a u : Nat) (f : Word), a < 8 →
    let e := c.err a
    let enters (log : ErrLog) (unc : Bool) : Prop :=
      log.rep = e.rep ∧ log.inj = e.inj ∧ log.injAddr = e.injAddr ∧
      log.ce.toNat = (if unc then e.ce.toNat else min 65535 (e.ce.toNat + 1)) ∧
      log.ue.toNat = (if unc then min 255 (e.ue.toNat + 1) else e.ue.toNat) ∧
      let stands := log.valid = true ∧ log.unc = e.unc ∧ log.addr = e.addr ∧ log.syn = e.syn ∧ log.ctx = e.ctx ∧
        log.cyc = e.cyc ∧ log.at_ = e.at_
      let taken := log.valid = true ∧ log.unc = unc ∧ log.addr = BitVec.ofNat 64 (c.errAddr a u) ∧ log.syn = f ∧
        log.ctx = c.phys.ctxid ∧ log.cyc = BitVec.ofNat 64 x.field ∧ log.at_ = x.now
      let before := e.valid = true ∧ e.at_ = x.now ∧ c.errAddr a u < e.addr.toNat
      (¬before → if e.valid = true ∧ e.unc = true then log.missed = true ∧ stands else log.missed = e.missed ∧ taken) ∧
      (before → if unc = true then log.missed = true ∧ taken else log.missed = e.missed ∧ stands)
    (c.phys.flips.find? (fun e => e.1 == a && e.2.1 == u) = none → c.readUnit x t a u = (c, true)) ∧
    (c.phys.flips.find? (fun e => e.1 == a && e.2.1 == u) = some (a, u, f) →
      (c.phys.corrects a u = true → ∃ log, enters log false ∧ c.readUnit x t a u =
        (if e.rep then (c.setErr a log).raise x { t with cause := 0x13, engine := 13, kind := 1, info0 := a }
         else c.setErr a log, true)) ∧
      (c.phys.corrects a u = false → ∃ log, enters log true ∧ c.readUnit x t a u =
        ((c.setErr a log).raise x { t with cause := 0x0D, engine := 13, kind := 1, info0 := a, info1 := f.toNat }, false))) ∧
    (c.phys.flips = [(a, u, f)] → f ≠ 0 →
      (a ≠ 7 → (c.phys.corrects a u = true ↔ ∃ i, i < 64 ∧ f = 1#64 <<< i)) ∧
      (a = 7 → (c.phys.corrects a u = true ↔ ∃ k, k < 4 ∧ ∀ i, f.getLsbD i = true → i / 16 = k)))

/-- R66, R263, R265, R266, R285, R286, R288, R304 to R306: which trap is recorded and where the launch stops; what a
watchpoint's match and an error of a unit raise. -/
def Obligations.FirstTrapStandsAndStopsAll : Prop :=
  Claim.FirstTrap ∧ Claim.WatchpointMatch ∧ Claim.FlippedUnits

/-- R44, R66, R114, R221, R255 to R257, R266 to R269: at the common stop, and at the origin at which a launch yields, the
launch goes into its save, 64 bytes a cycle of a full image or of the footprint that the class-0 launch it makes room for
declares. Every record that its cores had on the mesh stands among the records landed at its destination, and so do the blocks
of each send that the stop cuts; blocks of dhputs already read have reached the host in the order of the batches, those of a
batch behind one with blocks left to read excepted; the open rows are closed and stay recorded; what is still to perform,
registers and memories keep their values. Every trap record takes the stop as a field cycle, the launch's first one its flag;
at a yield every core records cause 0x11. The model's choice: what is landed of a cut send is log 106, and which save a yield
makes, begun anew for each launch that yields to one, is log 62. -/
def Claim.Stops : Prop :=
  ∀ (s : State) (l : LaunchId) (la : Launch) (p : Partition), s.launch? l = some la → s.part? l.part.toNat = some p →
    la.phase = .running →
    let cs := s.coresOf l
    let sends (f : Flight) : Bool := match f.instr with | .dput .. => true | .dred .. => true | _ => false
    let unread (c : Core) (u : Nat) : Bool := (c.flight? u).any fun f => f.streams.any fun t => decide (t.k < t.n)
    let ids (c : Core) : List Nat :=
      let bs := c.net.closed ++ [c.net.openBatch]
      let whole := bs.takeWhile fun b => !b.any (unread c)
      (whole ++ (bs.drop whole.length).take 1).flatten
    let put (c : Core) (f : Flight) : Bool := (match f.instr with | .dhput .. => true | _ => false) &&
      decide (f.moved < f.bytes.length) && (ids c).contains f.uid
    let reached (c : Core) (f : Flight) : Sent :=
      ⟨(windowTarget c.windows f.x).1, (windowTarget c.windows f.x).2 + BitVec.ofNat 64 f.moved,
        sendRank (s.ctx c) c f.x, f.bytes.drop f.moved⟩
    let stops (t : State) (n : Nat) (yields : Bool) : Prop :=
      (∃ la', t.launch? l = some la' ∧ la'.phase = .saving (s.now + (n + 63) / 64) ∧
        la'.stop = s.now ∧ la'.stopField = s.now - p.base ∧ la'.saved = n) ∧
      t.parts = s.parts ∧ t.images = s.images ∧ t.cores.length = s.cores.length ∧
      t.host = (cs.flatMap fun c => (((ids c).filterMap c.flight?).filter (put c)).map (reached c)).reverse ++ s.host ∧
      ∀ (i : Nat) (c e : Core), s.cores[i]? = some c → t.cores[i]? = some e →
        (c.lid ≠ l → e = c) ∧
        (c.lid = l → SameMemories c e ∧ e.regs = c.regs ∧ e.seq = c.seq ∧ e.pends = c.pends ∧ e.net.out = [] ∧
          e.net.prev = c.net.prev ∧
          (e.flights = c.flights.map fun f => if put c f then { f with moved := f.bytes.length } else f) ∧
          e.chan = { c.chan with banks := c.chan.banks.map fun b => { b with shut := b.row.isSome } } ∧
          (∀ d ∈ cs, ∀ r ∈ d.net.out, r.dest = c.index → r ∈ e.net.land) ∧
          (∀ d ∈ cs, ∀ f ∈ d.flights, sends f = true → f.bytes ≠ [] → f.bytes.length ≠ f.len → f.d = c.index →
            ∃ r ∈ e.net.land, r.open_ = true ∧ r.sender = d.index ∧ r.order = f.uid ∧ r.addr = f.addr ∧ r.bytes = f.bytes) ∧
          (∀ y ∈ c.net.land, y.open_ = false → y ∈ e.net.land) ∧
          (yields = true → ∃ y, e.trap = some y ∧ y.cause = 0x11 ∧ y.raised = s.now - p.base ∧ y.stop = s.now - p.base) ∧
          (yields = false → (c.trap = none → e.trap = none) ∧
            ∀ y, c.trap = some y → ∃ z, e.trap = some z ∧ z.cause = y.cause ∧ z.raised = y.raised - p.base ∧
              z.stop = s.now - p.base ∧
              ((cs.map (·.index)).Nodup → (z.first = true ↔ ∀ d ∈ cs, ∀ o, d.trap = some o →
                y.raised < o.raised ∨ (y.raised = o.raised ∧ c.index ≤ d.index)))))
    (s.stopOf l = some s.now → ∃ t, exec (.commonStop l) s = .next t ∧ stops t 7159808 false) ∧
    (la.yield_ ≠ none → la.turned = some s.now → s.stopOf l = none → s.waiting la.yield_ = none →
      ∃ t, exec (.preemptionStop l) s = .next t ∧ stops t 7159808 true) ∧
    (∀ w, la.yield_ ≠ none → la.turned = some s.now → s.stopOf l = none → s.waiting la.yield_ = some w →
      let bit (k : Nat) : Nat := w.footprint / 2 ^ k % 2
      ∃ t, exec (.preemptionStop l) s = .next t ∧
        stops t (4096 * (w.footprint % 2 ^ 11) + 65536 * w.landing + 655360 * bit 16 + 528384 * bit 17 + 528384 * bit 18 +
          135296 * bit 19 + 65536) true ∧
        ∃ la', t.launch? l = some la' ∧ la'.footprinted = true)

/-- R257, R268, R272: the save of an image writes no byte of the channel but those of its rows; the lines of scratchpad that
its groups name, and those of the landing area that they are saved with, stand there at their offsets, and where it takes
every group the scratchpad, the vector file, the tiles and the accumulator store. -/
def Claim.ImagesAreWritten : Prop :=
  ∀ (x : Ctx) (c : Core) (m : Word) (land row : Nat), c.canonical → m.toNat % 2 ^ 11 ≤ 1024 → land ≤ 4194304 →
    let h := (c.writeImage x m land row).phys.hbm
    let at_ := (30 * 32768 + row) * 1024
    (∀ a, a < at_ ∨ at_ + 7340032 ≤ a → h.get 0 a = c.phys.hbm.get 0 a) ∧
    (∀ o, o < x.landBase → o < m.toNat % 2 ^ 11 * 4096 ∨ land ≤ o → h.get 0 (at_ + o) = c.sp.mem.get 0 o) ∧
    (m.getLsbD 20 = true →
      (∀ o, o < min 0x400000 x.landBase → h.get 0 (at_ + o) = c.sp.mem.get 0 o) ∧
      (∀ o, o < 655360 → h.get 0 (at_ + 0x400000 + o) = c.vec.v.get 0 o) ∧
      (∀ o, o < 524288 → h.get 0 (at_ + 0x4A0000 + o) = c.vec.tile.get 0 o) ∧
      (∀ o, o < 524288 → h.get 0 (at_ + 0x521000 + o) = c.arr.acc.get 0 o))

/-- R221, R257, R263, R267, R268, R275, R288, R291, R294, R308, R327: the save over, with every byte of its cores' dhgets
written, the images are written, those of a footprint with the landing area of its class-0 launch, the launch's trap report
goes out and the launch is terminated where some record's cause is terminating, back in its queue where the stop was a
pre-emption, and else stopped, with a request to yield that it has still to answer (R267); its cores have the cause of the
launch's earliest trap, and then the scheduler decides. The footprints saved for a class-0 launch end together, and the end of
a footprint's restore clears what it held. The model's choice: that the report goes out at the save's end is log 28, that the
save waits for the bytes of its dhgets log 84, that a request to yield is kept over any resumable stop, and a thermal one keeps
its launch queued while the module is hot, log 63, that the cores then run system code where the firmware has loaded any log
65, what a footprint's save and restore take log 60, and that the scheduler decides after the save of a resumable stop and
after a footprint's restore, which R252 does not list, log 98. -/
def Claim.Saves : Prop :=
  ∀ (s : State) (l : LaunchId) (la : Launch) (u : Nat),
    let s1 := s.saveImages l 0x100000 (4194304 - la.landing * 65536)
    let cs := s1.coresOf l
    let ripe (y : Launch) : Bool :=
      y.footprinted && y.yield_ == some (.class0 l) && y.footUntil.any fun u => u ≤ s.now
    let ends (ph : Phase) (y : Option Yield) : State :=
      ((s1.trapReport la).park l (stopCause cs)).setLaunch { la with phase := ph, yield_ := y }
    let ended := ends .terminated none
    let thermal := if la.yield_ = some .thermal ∧ s.mgmt.hot = true then la.yield_ else none
    let groups := BitVec.ofNat 64 ((s.launch? l).elim 0 fun x => x.footprint % 2 ^ 20)
    let land := (s.launch? l).elim 4194304 fun x => 4194304 - x.landing * 65536
    let gathered (l : LaunchId) : Prop := ∀ c ∈ s.coresOf l, ∀ f ∈ c.flights, (∃ d a b n, f.instr = .dhget d a b n) →
      f.open_ = true → f.len ≤ f.moved
    (∀ t, (¬gathered l → exec (.saveEnd l) s ≠ .next t) ∧
      ((∃ y ∈ s.footprints l, ¬gathered y.1.id) → exec (.footprintSaveEnd l) s ≠ .next t)) ∧
    (s.launch? l = some la → la.phase = .saving u → u ≤ s.now → la.footprinted = false → gathered l →
      ((∃ c ∈ cs, ∃ t, c.trap = some t ∧ terminating t.cause = true) →
        exec (.saveEnd l) s =
          .next (State.schedule l.part.toNat (if la.cls = 0 then ended.restoreFootprints l else ended))) ∧
      ((∀ c ∈ cs, ∀ t, c.trap = some t → terminating t.cause = false ∧ t.cause ≠ 0x11) →
        exec (.saveEnd l) s = .next ((ends .stopped la.yield_).schedule l.part.toNat)) ∧
      ((∀ c ∈ cs, ∀ t, c.trap = some t → terminating t.cause = false) → (∃ c ∈ cs, ∃ t, c.trap = some t ∧ t.cause = 0x11) →
        exec (.saveEnd l) s = .next ((ends .queued thermal).schedule l.part.toNat))) ∧
    (s.footprints l ≠ [] → s.yielding l = false → (∀ y ∈ s.footprints l, y.2 ≤ s.now ∧ gathered y.1.id) →
      exec (.footprintSaveEnd l) s = .next (State.schedule l.part.toNat ((s.footprints l).foldl
        (fun s y => (((s.saveImages y.1.id groups land).trapReport y.1).park y.1.id 0x11).setLaunch
          { y.1 with phase := .queued }) s))) ∧
    ((∃ y ∈ s.launches, ripe y = true) →
      exec (.footprintRestoreEnd l) s = .next (State.schedule l.part.toNat { s with
        launches := s.launches.map fun y =>
          if ripe y then { y with footprinted := false, footUntil := none, yield_ := none, saved := 0 } else y })) ∧
    ∀ (i : Nat) (y : TrapRec), (∃ c, cs[i]? = some c ∧ c.trap = some y) → (cs.map (·.index)).Nodup →
      (∀ c ∈ cs, ∀ o, c.trap = some o → y.raised < o.raised ∨
        (y.raised = o.raised ∧ ∃ d, cs[i]? = some d ∧ d.index ≤ c.index)) → stopCause cs = y.cause

/-- R44, R66, R114, R221, R255 to R257, R263, R266 to R269, R272, R275, R288, R291, R294, R327: a launch's stops and the ends
of its saves. -/
def Obligations.StopEvents : Prop := Claim.Stops ∧ Claim.ImagesAreWritten ∧ Claim.Saves

/-- R44, R114, R221, R229, R271, R276 to R278, R280, R304: the restore over, with every code page mapped, by the TLB or by the
page table, and no stored unit of a channel at fault, the restart is fixed at the first field cycle at least 256 cycles on with
the phase of the stop. The preamble opens a bank that the stop closed at its cycle before the restart, 4 cycles before the next
such bank. In the restart cycle every core resumes with no trap, every instant of its operations, its changes and its channel
moved by the length of the stop, its memories as they were, and every addition held for it made. The model's choice: that an
addition of the stop is made in the restart cycle itself, and a dhget's not before the cycle after it, is log 84. -/
def Obligations.RestartEvents : Prop :=
  ∀ (s : State) (l : LaunchId) (la : Launch) (p : Partition), s.launch? l = some la → s.part? l.part.toNat = some p →
    let cs := s.coresOf l
    let closed (c : Core) (k : Nat) : Prop := (c.chan.bank k).row ≠ none ∧ (c.chan.bank k).shut = true
    let opens (c : Core) (q k : Nat) : Nat := q - 64 - 4 * (List.range 30).countP fun j => k < j && (c.chan.bank j).row.isSome
    let maps (c : Core) (e : Nat × TlbEntry) : Prop :=
      let y := s.physOf c.physNo
      e.1 = plotOf (c.physNo % 32) (c.physNo / 32) ∧ e.2.ctx = y.ctxid ∧ e.2.page = codePage y
    let listed (c : Core) : Prop :=
      let y := s.physOf c.physNo
      entryOk (BitVec.ofNat 64 (leNat (y.hbm.bytes 0 (pageEntryAt y (codePage y)) 8))) = true
    (∀ u, la.phase = .restoring u → u ≤ s.now → p.base ≤ s.now → s.resides la = true →
      (∀ c ∈ cs, (∀ e ∈ c.phys.flips, e.1 ≠ 7) ∧ ∀ e ∈ (s.physOf c.physNo).flips, e.1 ≠ 7) →
      (∀ c ∈ cs, ∀ e ∈ s.tlb, maps c e → entryOk e.2.entry = true) →
      (∀ c ∈ cs, listed c) ∨
        ((∀ c ∈ cs, ∃ e ∈ s.tlb, maps c e) ∧ ∀ q, (s.tlb.filter fun e => e.1 == q).length ≤ 32) →
      ∃ t la' q, exec (.restoreEnd l) s = .next t ∧ t.launch? l = some la' ∧ la'.phase = .restarting q ∧
        s.now + 256 ≤ q ∧ q < s.now + 256 + 4096 ∧ (q - p.base) % 4096 = la.stopField % 4096 ∧
        (∀ d ∈ t.images, d.lid ≠ l)) ∧
    (∀ q, la.phase = .restarting q → (∃ c ∈ cs, ∃ k, k < 30 ∧ closed c k ∧ opens c q k ≤ s.now) →
      ∃ t, exec (.restartPreamble l) s = .next t ∧ t.launches = s.launches ∧ t.parts = s.parts ∧
        t.cores.length = s.cores.length ∧
        ∀ (n : Nat) (c e : Core), s.cores[n]? = some c → t.cores[n]? = some e →
          (c.lid ≠ l → e = c) ∧
          (c.lid = l → e = { c with chan := e.chan } ∧ e.chan = { c.chan with banks := e.chan.banks } ∧ ∀ k, k < 30 →
            (closed c k → opens c q k ≤ s.now → e.chan.bank k = { c.chan.bank k with shut := false }) ∧
            (¬(closed c k ∧ opens c q k ≤ s.now) → e.chan.bank k = c.chan.bank k))) ∧
    (la.phase = .restarting s.now → (∀ c ∈ cs, ∀ k, k < 30 → ¬closed c k) →
      let d := s.now - la.stop
      let later (t : Option Nat) : Option Nat := t.map (· + d)
      ∃ t la', exec (.restartCycle l) s = .next t ∧ t.launch? l = some la' ∧ la'.phase = .running ∧
        la'.origin = la.origin + d ∧ la'.next = later la.next ∧ la'.held = [] ∧ t.cores.length = s.cores.length ∧
        ∀ (n : Nat) (c e : Core), s.cores[n]? = some c → t.cores[n]? = some e →
          (c.lid ≠ l → e = c) ∧
          (c.lid = l → e.trap = none ∧ SameMemories c e ∧ e.phys.sysMode = false ∧
            e.phys.qcycle = BitVec.ofNat 64 (s.now - p.base) ∧
            e.pends = c.pends.map (fun y => { y with due := y.due + d, seqno := y.seqno + d }) ∧
            (e.flights = c.flights.map fun f => { f with
              issue := f.issue + d, seqno := f.seqno + d, page := f.page + d
              after := match f.instr with | .dhget .. => la.stop + d + 1 | _ => f.after
              streams := f.streams.map fun t => { t with first := t.first + d } }) ∧
            (∀ k, k < 30 → (e.chan.bank k).row = (c.chan.bank k).row ∧ (e.chan.bank k).act = later (c.chan.bank k).act ∧
              (e.chan.bank k).rd = later (c.chan.bank k).rd ∧ (e.chan.bank k).wr = later (c.chan.bank k).wr ∧
              (e.chan.bank k).last = (c.chan.bank k).last + d) ∧
            e.regs = ((la.held.filter fun h => h.1 == c.index).map (·.2)).foldl (fun r h => r.addN h.1 h.2) c.regs))

/-! ## The management endpoint (R241 to R262, R293 to R308) -/

/-- R7, R293, R294, R296: a command's header and a report are little-endian bytes: a header reads back as it was written,
and a report has its kind, status, length, number, executed number and tag at the offsets of R294, and then its body. -/
def Claim.HeadersReadBack : Prop :=
  (∀ (o : BitVec 16) (h : Hdr), (headerBytes o h).length = 32 ∧ readHeader (headerBytes o h) = (o, h)) ∧
  ∀ r : Report,
    let field (o n : Nat) : Nat := leNat ((r.bytes.drop o).take n)
    r.bytes.length = 32 + r.body.length ∧ field 0 2 = r.kind % 2 ^ 16 ∧ field 2 2 = r.status % 2 ^ 16 ∧
    field 4 4 = r.body.length % 2 ^ 32 ∧ field 8 6 = r.rsn.toNat ∧ field 0x0E 2 = 0 ∧ field 0x10 6 = r.executed.toNat ∧
    field 0x16 2 = 0 ∧ field 0x18 8 = r.tag.toNat ∧ r.bytes.drop 32 = r.body

/-- R293 to R296, R298: a command numbered 2 to 65 ahead is held once; one held already, or not ahead, is answered as a
duplicate; one further ahead as out of window; and the next one is taken, and rejected at its opcode where firmware is not
ready and it is none of the few that need none, and else at the first field of its header that fails. The number 0 is executed
as it arrives, by a command that may have it and whose header is sound: it is answered, and no number is taken; or it is
rejected. The model's choice: that a module without its management endpoint hears no command, and that firmware which is not
ready fails a command at its opcode, are log 69; which commands have a length of body of their own is log 58; that a state
report or a resend is answered by its own reports alone is log 31; that the answer of a command that takes its number counts it
among those executed is log 146; that a gone report answers also a number that was never sent, and the eight bytes in which it
names the number, are log 139. -/
def Claim.NumberOrder : Prop :=
  ∀ (s : State) (i : Instr) (h : Hdr), headerOf i = some h →
    let m := s.mgmt
    let n := aheadOf m.x h.csn
    let unlisted := ∃ g a b, i = .undefinedCommand g a b ∧ ∀ p ∈ opcodes, p.1 ≠ a.toNat
    let early := (∃ g, i = .stateReport g) ∨ (∃ g a b, i = .resendReports g a b) ∨ (∃ g f, i = .deliverFirmwareImage g f) ∨
      unlisted ∨ ∃ g a b, i = .undefinedCommand g a b ∧ a.toNat ≤ 3
    let zeroOk := (∃ g, i = .stateReport g) ∨ (∃ g a b, i = .resendReports g a b) ∨ unlisted ∨
      ∃ g a b, i = .undefinedCommand g a b ∧ a.toNat ≤ 2
    let sized := h.blen.toNat ≤ 65536 ∧ h.blen.toNat % 8 = 0 ∧ Fits i h
    let rejects (u : State) : Prop :=
      (unlisted → exec i s = .next (u.reject h 0)) ∧
      (¬unlisted → h.res0 ≠ 0 → exec i s = .next (u.reject h 2)) ∧
      (¬unlisted → h.res0 = 0 → ¬sized → exec i s = .next (u.reject h 4)) ∧
      (¬unlisted → h.res0 = 0 → sized → h.csn = 0 → ¬zeroOk → exec i s = .next (u.reject h 8)) ∧
      (¬unlisted → h.res0 = 0 → sized → h.csn ≠ 0 ∨ zeroOk → h.res1 ≠ 0 → exec i s = .next (u.reject h 0x0E)) ∧
      (¬unlisted → h.res0 = 0 → sized → h.csn ≠ 0 ∨ zeroOk → h.res1 = 0 → h.res2 ≠ 0 →
        exec i s = .next (u.reject h 0x18))
    (m.usable 0 = false → exec i s = .next s) ∧
    (m.usable 0 = true → h.csn ≠ 0 →
      (2 ≤ n → n ≤ 65 → (∀ q ∈ m.held, q.1 ≠ h.csn) →
        exec i s = .next { s with mgmt := { m with held := m.held ++ [(h.csn, i)] } }) ∧
      (2 ≤ n → n ≤ 65 → (∃ q ∈ m.held, q.1 = h.csn) → exec i s = .next (s.report 6 0 h.tag 0 [])) ∧
      (n = 0 ∨ 2 ^ 47 ≤ n → exec i s = .next (s.report 6 0 h.tag 0 [])) ∧
      (65 < n → n < 2 ^ 47 → exec i s = .next (s.report 7 0 h.tag 0 [])) ∧
      (n = 1 → m.usable 1 = false → ¬early → exec i s = .next ((s.taken h).reject h 0)) ∧
      (n = 1 → m.usable 1 = true ∨ early → rejects (s.taken h)) ∧
      (n = 1 → ∃ t, exec i s = .next t ∧ t.mgmt.x = h.csn)) ∧
    (m.usable 0 = true → h.csn = 0 →
      (m.usable 1 = false → ¬early → exec i s = .next (s.reject h 0)) ∧
      (m.usable 1 = true ∨ early → rejects s) ∧
      (h.res0 = 0 → sized → h.res1 = 0 → h.res2 = 0 →
        (∀ g, i = .stateReport g → exec i s = .next (s.report 9 0 h.tag 0 (stateBody m))) ∧
        (∀ g a, i = .resendReports g a a → (∀ r ∈ m.kept, r.rsn ≠ a) →
          exec i s = .next (s.report 8 0 h.tag 0 (leBytes 8 a.toNat))) ∧
        (∀ g a r, i = .resendReports g a a → m.kept.find? (fun r => r.rsn.toNat == a.toNat) = some r →
          exec i s = .next { s with sent := r :: s.sent }) ∧
        ∀ g a b, i = .undefinedCommand g a b → a.toNat = 1 ∨ a.toNat = 2 → exec i s = .next (s.reject h b.toNat)))

/-- R7, R293 to R296, R298: commands are read and answered in the order of their numbers. -/
def Obligations.CommandsComeInOrder : Prop :=
  Claim.HeadersReadBack ∧ Claim.NumberOrder

/-- R18, R241, R242, R247, R252, R260, R261, R282, R284: a command on a partition that is executed and whose conditions
hold changes that partition as the command says and is answered by its report. The model's choice: that the field count of
a new partition begins at its creation is log 52, that its counters and its seed register are 0 log 125, that its first
acceptance number is 0 log 30, that a survey report numbers the plots inside the partition log 135, and that an answer counts
its own command among those executed log 146. -/
def Obligations.PartitionCommands : Prop :=
  ∀ (s : State) (h : Hdr) (n px py pw ph : BitVec 8) (p : Partition), Runs s h false →
    let u := s.taken h
    let new (z : Bool) : Partition :=
      { number := n.toNat, px := px.toNat, py := py.toNat, pw := pw.toNat, ph := ph.toNat, class0 := z, base := s.now }
    (∀ z, n.toNat ≤ 63 → s.part? n.toNat = none → rectLegal px.toNat py.toNat pw.toNat ph.toNat = true →
      (∀ q ∈ plotsOf px.toNat py.toNat pw.toNat ph.toNat, plotReady s.mgmt q = true) →
      (∀ q ∈ s.parts, rectApart (new z) q = true) →
      Answers s (.createPartition h n px py pw ph z) (({ u with parts := s.parts ++ [new z] }).accept h [])) ∧
    (s.part? n.toNat = some p →
      ((∀ y ∈ s.launches, y.id.part = n → y.holds = false) →
        Answers s (.destroyPartition h n) ((u.dropPart p).accept h [])) ∧
      (∀ v, Answers s (.writePartitionSeedRegister h n v) ((u.setPart { p with seed := v }).accept h [])) ∧
      (∀ (k : BitVec 8) v, Answers s (.addToPartitionCounter h n k v)
        (State.schedule p.number ((u.setPart { p with
          counters := assign k.toNat (satAdd (look 0 p.counters k.toNat) v) p.counters }).accept h []))) ∧
      (∀ (w : BitVec 6) w0 w1 w2 w3, windowWordLegal 0 w0 = true → windowWordLegal 2 w2 = true →
        windowWordLegal 3 w3 = true →
        Answers s (.writePartitionWindowEntry h n w w0 w1 w2 w3) ((u.setPart { p with
          windows := assign (4 * w.toNat + 3) w3 (assign (4 * w.toNat + 2) w2
            (assign (4 * w.toNat + 1) w1 (assign (4 * w.toNat) w0 p.windows))) }).accept h [])) ∧
      Answers s (.readSurveyTable h n) (u.dataReport h ((List.range (p.pw * p.ph * 2048)).flatMap fun i =>
        leBytes 4 (look (0, 0) p.survey i).1.toNat ++ leBytes 4 (look (0, 0) p.survey i).2.toNat)) ∧
      Answers s (.clearSurveyTable h n) ((u.setPart { p with survey := [] }).accept h []) ∧
      (∀ (g : BitVec 4) (w y : BitVec 8) ms, 1 ≤ ms.length → ms.length ≤ 1024 → w.toNat ∈ [1, 2, 4, 8, 16, 32] →
        y.toNat ∈ [1, 2, 4, 8, 16] →
        Answers s (.writeProcessGroupEntry h n g w y ms) ((u.setPart { p with
          groups := assign g.toNat { w := w.toNat, h := y.toNat, members := ms } p.groups }).accept h [])))

/-- R248: the rows for a sheaf are as many as its bytes need, each a row of its own that no sheaf of the area takes, and what
is written there reads back. The model's choice: which rows these are is log 129. -/
def Claim.SheafAreaReadsBack : Prop :=
  ∀ (s : State) (p : Partition) (bs : List Byte), s.canonical → s.partsApart → p ∈ s.parts →
    let rows := p.rowsFor bs.length
    rows.length = (bs.length + 1023) / 1024 ∧ rows.Nodup ∧ (∀ e ∈ p.area, ∀ r ∈ rows, r ∉ e.2) ∧
    ((s.writeArea p rows bs).readArea p bs.length rows).2.1 = bs

/-- R36, R58, R243, R244, R247 to R252, R259, R271, R275, R276, R302, R327: the commands on code and on launches that are
executed and whose conditions hold. The model's choice: that the report of an accepted launch carries the launch word is log
57, that an addition to a context's counter is made as its command executes log 27, that a pre-empted launch in its queue can
be cancelled log 59, that a refused sheaf is not measured log 50, that a sheaf's own bytes alone are, log 140, that the bodies
of an unregistered one leave their slots and code stores log 53, that a sheaf takes whole rows of its own log 51, which ones
log 129, what a load-code command carries beside the container's bytes log 100, how long it is before a resume's restore where
no system code is loaded log 8, and that an answer counts its own command among those executed log 146. -/
def Claim.LaunchCommandAnswers : Prop :=
  ∀ (s : State) (h : Hdr) (l : LaunchId) (la : Launch) (p : Partition), Runs s h false → s.part? l.part.toNat = some p →
    let u := s.taken h
    (∀ f : Sheaf, (∀ x ∈ p.sheaves, x.id ≠ f.id) → sheafUse (f :: p.sheaves) ≤ sheafArea p → sheafRefused f = false →
      let rows := p.rowsFor f.bytes.length
      Answers s (.loadCode h l.part f) (((u.writeArea p rows f.bytes).setPart { p with
        sheaves := p.sheaves ++ [loadedSheaf f], area := p.area ++ [(f.id, rows)]
        pm := Config.sm3 (p.pm ++ Config.sm3 f.bytes) }).accept h [])) ∧
    (∀ f, (∃ x ∈ p.sheaves, x.id = f) → (∀ y ∈ s.launches, y.id.part = l.part → y.sheaf = f → y.holds = false) →
      let z := u.setPart { p with sheaves := p.sheaves.filter fun x => x.id != f, area := p.area.filter fun x => x.1 != f }
      let stays (b : Body) : Bool := !(p.owns b.at_ && b.sheaf == f)
      Answers s (.unregisterSheaf h l.part f) (({ z with
        placed := s.placed.filter fun b => stays b.1, resident := s.resident.filter fun b => stays b.1 }).accept h [])) ∧
    (∀ r, h.blen = 256 → r.length = 256 → recField r 3 1 = p.number → recordFault u r = none →
      let new := launchOf p p.nextAcc r
      Answers s (.launch h r) (State.schedule p.number
        ((({ u with launches := s.launches ++ [{ new with fills := u.fillsOf new }] }).setPart
          { p with nextAcc := p.nextAcc + 1, early := [] }).accept h (leBytes 8 (launchWord new.id))))) ∧
    (s.launch? l = some la →
      (la.phase = .queued → Answers s (.cancelQueuedLaunch h l) ((u.remove l).accept h [])) ∧
      (la.holds = false ∨ la.phase = .stopped → Answers s (.releaseContext h l) ((u.remove l).accept h [])) ∧
      (∀ x y : BitVec 8, la.phase = .stopped → rectInside p la.w la.h x.toNat y.toNat = (true, true) →
        u.onRect { la with x0 := x.toNat, y0 := y.toNat } = [] →
        ∃ (t : State) (la' : Launch), Answers s (.resumeLaunch h l x y) (t.accept h []) ∧ t.launch? l = some la' ∧ la'.x0 = x.toNat ∧
          la'.y0 = y.toNat ∧ (la'.phase = .returning ∨ ∃ z, la'.phase = .restoring z)) ∧
      (∀ (i : Nat) (n : BitVec 6) (v : Word), i < la.w * la.h → la.fresh = false → la.phase = .running ∨ la.phase = .completed →
        Answers s (.addToContextCounter h l i n v) ((u.mapCores (fun c => c.lid == l && c.index == i)
          fun c => { c with regs := c.regs.addN n v }).accept h [])) ∧
      (∀ (i : Nat) (n : BitVec 6) (v : Word), i < la.w * la.h → la.fresh = false → la.phase = .stopped →
        Answers s (.addToContextCounter h l i n v) (({ u with launches := s.launches.map fun (y : Launch) =>
          if y.id == l then { y with held := y.held ++ [(i, n, v)] } else y }).accept h [])))

/-- R36, R58, R243, R244, R247 to R252, R259, R271, R275, R276, R302, R327: the commands on code and on launches, and the
area that holds a partition's sheaves. -/
def Obligations.LaunchCommands : Prop :=
  Claim.SheafAreaReadsBack ∧ Claim.LaunchCommandAnswers

/-- R272, R273: where the bytes of a context stand in its image: the scratchpad up to the landing area, the vector file, the
tiles, the tag lanes, the accumulator store, the weights and the scales as they are; the scalar registers, the handles, the
counters, the overflow table and the watchpoints little-endian in the fixed part; the masks above m0, the bypass registers
and the sowing list in the unit group. -/
def Claim.ImageLayout : Prop :=
  ∀ (x : Ctx) (c : Core) (o : Nat),
    let holds (a : Nat) (l : List Byte) : Prop := (List.range l.length).map (fun k => c.givenByte x (a + k)) = l.map some
    (o < 0x400000 → o < x.landBase → c.givenByte x o = some (c.sp.mem.get 0 o)) ∧
    (o < 655360 → c.givenByte x (0x400000 + o) = some (c.vec.v.get 0 o)) ∧
    (o < 524288 → c.givenByte x (0x4A0000 + o) = some (c.vec.tile.get 0 o)) ∧
    (o < 4096 → c.givenByte x (0x520000 + o) = some (c.vec.tag.get 0 o)) ∧
    (o < 524288 → c.givenByte x (0x521000 + o) = some (c.arr.acc.get 0 o)) ∧
    (o < 131072 → c.givenByte x (0x5A2000 + o) = some (c.arr.weight.get 0 o)) ∧
    (o < 4096 → c.givenByte x (0x5C2000 + o) = some (c.arr.scale.get 0x7F o)) ∧
    (∀ d : BitVec 6, holds (0x5C4000 + 8 * d.toNat) (leBytes 8 (c.regs.readG d).toNat)) ∧
    (∀ k : BitVec 4, k.toNat < 12 → holds (0x5C4200 + 8 * k.toNat) (leBytes 8 (c.regs.readK k).toNat)) ∧
    (∀ h : BitVec 4, holds (0x5C4400 + 16 * h.toNat) (leBytes 8 (c.regs.hw0 h).toNat ++ leBytes 8 (c.regs.hw1 h).toNat)) ∧
    (∀ n : BitVec 6, holds (0x5C4500 + 8 * n.toNat) (leBytes 8 (c.regs.readN n).toNat)) ∧
    holds 0x5C4A00 (leBytes 8 c.regs.ovtab.toNat) ∧
    (∀ r : Fin 8, holds (0x5C4A40 + 8 * r.val) (leBytes 8 c.wp[r.val].toNat)) ∧
    (2048 ≤ o → o < 32768 → c.givenByte x (0x5D4000 + o) = some (c.vec.m.get 0 o)) ∧
    (o < 131072 → c.givenByte x (0x5DC000 + o) = some (c.vec.b.get 0 o)) ∧
    (∀ h : o < c.q.sow.length, o < 4096 → holds (0x5FC000 + 8 * o) (leBytes 8 c.q.sow[o].toNat))

/-- R38, R39, R97, R156, R187, R268 to R273: the image's other parts: the count queue and the miss list, zero behind their last
entry; the control registers; the trap record; the view marks; the columns of channel reads under way; the flight record in
acceptance order, an entry for each operation in flight that is not suppressed and for each change of a V, M or L syllable that
is still to come, with engine, opcode, bundle, effects left and the distance from the stop to the next of them; the
descriptors; the scale queue with its depth; the mode bit; the sowing list's length and cursor; and zeros between the groups.
The model's choice: that the bytes that the rules call the device's own, or lay out no further, are none of the model's is log
13, and which columns the holding buffer holds, what counts as an effect, and how one without an instant stands in the flight
record, log 113. -/
def Claim.ImageRecords : Prop :=
  ∀ (x : Ctx) (c : Core) (i : Nat),
    let byte (o : Nat) : Option Byte := c.givenByte x o
    let holds (a : Nat) (l : List Byte) : Prop := (List.range l.length).map (fun k => byte (a + k)) = l.map some
    let fixed : Nat := 0x5C4000
    (i < 64 → holds (fixed + 0x700 + 2 * i) (leBytes 2 (c.q.cq.getD i 0).toNat) ∧
      holds (fixed + 0x780 + 2 * i) (leBytes 2 (c.q.miss.getD i 0).toNat) ∧
      holds (fixed + 0x800 + 8 * i)
        (if i < 0x0A ∨ (0x10 ≤ i ∧ i ≤ 0x25) then leBytes 8 (c.readCtrl x i).toNat else List.replicate 8 0)) ∧
    holds (fixed + 0xA80)
      ((c.trap.getD { cause := 0, fnum := c.seq.furrow, stop := x.la.stopField }).bytes c.lid c.index) ∧
    (i < 1024 → ∃ b, byte (fixed + 0x1C00 + i / 4) = some b ∧
      (b.getLsbD (2 * (i % 4)) = true ↔ ∃ e ∈ c.sp.wl, e.1 = i) ∧
      (b.getLsbD (2 * (i % 4) + 1) = true ↔ ∃ e ∈ c.sp.ws, e.1 = i)) ∧
    (let reading := c.flights.filter fun f => f.live && !f.cancelled && f.streams.any fun t => t.eff == .chData
      ∀ f, i < 48 → reading[i]? = some f → f.bytes.length = 64 → holds (fixed + 0x1000 + 64 * i) f.bytes) ∧
    (let es := c.flightEntries x.la.stop
      let at_ := fixed + 0x2000 + 32 * i
      let opcode (i : Instr) : Nat := encodeSyllable i / 2 ^ 28 % 8 + encodeSyllable i / 2 ^ 22 % 32 * 8
      (∀ e, i < 768 → es[i]? = some e →
        let left := e.due.filterMap fun d => d.map (· - x.la.stop)
        holds at_ (leBytes 1 e.engine ++ leBytes 1 e.op) ∧ holds (at_ + 4) (leBytes 2 e.bundle ++ leBytes 2 e.due.length) ∧
        (∀ n ∈ left, (∀ y ∈ left, n ≤ y) → holds (at_ + 2) (leBytes 2 (min 65535 n))) ∧
        (e.due = [] → holds (at_ + 2) [0, 0]) ∧ (e.due ≠ [] → left = [] → byte (at_ + 2) = none ∧ byte (at_ + 3) = none) ∧
        ∀ k, 8 ≤ k → k < 32 → byte (at_ + k) = none) ∧
      (i < 768 → es.length ≤ i → holds at_ (List.replicate 32 0)) ∧
      (es.Pairwise fun d e => d.at_ ≤ e.at_) ∧
      (∀ f ∈ c.flights, f.live = true → f.cancelled = false → ∃ e ∈ es, e.at_ = 8 * f.seqno + f.cls ∧
        e.engine = engineOf f.instr ∧ e.bundle = f.bundle ∧ e.op = opcode f.instr ∧ e.due = f.effects x.la.stop) ∧
      (∀ p ∈ c.pends, ∀ i, (p.cls = 2 ∧ (∃ r v, p.what = .ctrl r v) ∧ i = .vshape 0 0) ∨
          (p.cls = 2 ∧ (∃ r v, p.what = .g r v) ∧ i = .mpop 0 0 none) ∨ (p.cls = 4 ∧ i = .lds 0 0 0 none) ∨
          (p.cls = 3 ∧ ∃ t bs, p.what = .tags t bs ∧ i = .mtag 0 0) ∨ (p.cls = 3 ∧ ∃ g, p.what = .accMode g ∧ i = .mzero 0) ∨
          (p.cls = 3 ∧ ∃ r v, p.what = .ctrl r v ∧ i = .mpat 0) →
        ∃ e ∈ es, e = ⟨8 * p.seqno + p.cls, engineOf i, opcode i, p.bundle, [some p.due]⟩) ∧
      (∀ e ∈ es, (∃ f ∈ c.flights, f.live = true ∧ f.cancelled = false ∧ e.at_ = 8 * f.seqno + f.cls ∧
          e.due = f.effects x.la.stop) ∨
        ∃ p ∈ c.pends, 2 ≤ p.cls ∧ p.cls ≤ 4 ∧ e.at_ = 8 * p.seqno + p.cls ∧ e.due = [some p.due]) ∧
      ∀ f ∈ c.flights,
        let pops := tcFormat f.tcfg ≤ 2
        let clears := ∃ d n m, f.instr = .mgdrn d n 1 m
        let acts (e : Eff) : Prop := e ∉ [Eff.vread, .spRead, .arrRead, .accRead, .listRead, .blkRead] ∨
          (e = .arrRead ∧ pops) ∨ (e = .accRead ∧ clears)
        (∀ n, some n ∈ f.effects x.la.stop ↔
          (∃ t ∈ f.streams, acts t.eff ∧ ∃ k, t.k ≤ k ∧ k < t.n ∧ n = t.first + k * t.mul / t.div) ∨
          (∃ t ∈ f.streams, ¬acts t.eff ∧ t.k < t.n ∧ ((∃ d a m l, f.instr = .lds d a m l) ∧
              n = t.first + t.k * t.mul / t.div + 3 ∨ (∃ d a l, f.instr = .mpop d a l) ∧ n = f.issue + f.rows + 3)) ∨
          (f.open_ = true ∧ (∃ d a b m, f.instr = .dhget d a b m) ∧ n = x.la.stop + 1)) ∧
        (none ∈ f.effects x.la.stop ↔ f.open_ = true ∧ ∀ d a b m, f.instr ≠ .dhget d a b m)) ∧
    (∀ n y, n < 8 → y < 4 → holds (0x5C3000 + 4 * (4 * n + y)) (leBytes 4 (c.arr.descOf n y).toNat)) ∧
    (byte 0x5A1000 = some (if c.arr.grad then 1 else 0)) ∧ holds 0x5A1002 (leBytes 2 c.q.sq.length) ∧
    (i < 1024 → byte (0x5A1400 + i) = some (c.q.sq.getD i 0)) ∧
    holds 0x604000 (leBytes 8 c.q.sow.length ++ leBytes 8 c.q.cursor) ∧
    (0x5C3080 ≤ i ∧ i < 0x5C4000 ∨ 0x5CC000 ≤ i ∧ i < 0x5D4000 ∨ 0x6D4000 ≤ i → byte i = some 0) ∧
    (0x604010 ≤ i → i < 0x6D4000 → byte i = none) ∧ (x.landBase ≤ i → i < 0x400000 → byte i = none)

/-- R268, R269: the bytes of a trap record: its fields little-endian at their offsets, and its flags. The model's choice: what
the bundle field of an entry fault holds is log 121. -/
def Claim.TrapRecordBytes : Prop :=
  ∀ (l : LaunchId) (core : Nat) (t : TrapRec),
    let b := t.bytes l core
    let field (o n : Nat) : Nat := leNat ((b.drop o).take n)
    let flag (k : Nat) : Bool := (field 2 1).testBit k
    b.length = 64 ∧ field 0 1 = t.cause % 256 ∧ field 1 1 = t.detail % 256 ∧ field 3 1 = t.engine % 256 ∧
    field 4 2 = core % 65536 ∧ field 6 1 = t.fnum % 256 ∧ field 7 1 = t.pos % 256 ∧ field 8 4 = t.fcycle % 2 ^ 25 ∧
    (field 0x0C 4 = match t.bundle with
      | some n => n % 65536 + 2 ^ 31
      | none => 0) ∧
    field 0x10 8 = t.raised % 2 ^ 64 ∧ field 0x18 8 = t.stop % 2 ^ 64 ∧ field 0x20 8 = t.address % 2 ^ 64 ∧
    field 0x28 8 = t.info0 % 2 ^ 64 ∧ field 0x30 8 = t.info1 % 2 ^ 64 ∧ field 0x38 6 = l.acc % 2 ^ 48 ∧
    field 0x3E 1 = l.part.toNat ∧ field 0x3F 1 = 0 ∧
    (t.cause = 0 → field 2 1 = 0) ∧
    (t.cause ≠ 0 → (flag 0 = true ↔ t.cause ∉ [1, 2, 3, 4, 5, 6, 7, 8, 9, 0xA, 0xB, 0xC, 0xD, 0x15]) ∧
      field 2 1 / 2 % 4 = t.kind % 4 ∧ flag 3 = t.outside ∧ flag 4 = t.first ∧ flag 5 = t.idle ∧ flag 6 = t.more ∧
      flag 7 = false)

/-- R296 to R299, R303: the body of a state report: the last number issued, which is its own, and the oldest kept, X, the map of
the held commands, the readiness map, and the identity public key. -/
def Claim.StateReportBody : Prop :=
  ∀ m : Mgmt,
    let b := stateBody m
    let field (o n : Nat) : Nat := leNat ((b.drop o).take n)
    b.length = 144 ∧ field 0 6 = (m.rsn + 1).toNat ∧ field 8 6 = (match (m.kept.take 1023).getLast? with
      | some r => r.rsn.toNat
      | none => (m.rsn + 1).toNat) ∧
    field 0x10 6 = m.x.toNat ∧ field 6 2 = 0 ∧ field 0x0E 2 = 0 ∧ field 0x16 2 = 0 ∧
    (∀ i, i < 64 → ((field 0x18 8).testBit i = true ↔ ∃ q ∈ m.held, q.1 = m.x + BitVec.ofNat 48 (2 + i))) ∧
    (∀ i : Fin 6, field (0x20 + 8 * i.val) 8 = m.ready[i].toNat) ∧
    ∀ i, i < 64 → b[0x50 + i]? = some (m.idKey.getD i 0)

/-- R259, R268, R285, R289, R294, R295, R297 to R303, R306, R307: reads and writes of state, attestation, error logs, reports
about reports, firmware, and a command that is none, when they are executed and their conditions hold. A watchpoint is written
for a launch that waits in its queue, or, before it is accepted, for the one that its partition accepts next, which takes those
of its cores. A context that stands on its core is read and written there, one that is saved in its rows of the system banks;
the bytes that a unit at fault should give read as free values. The model's choice: that a state report or a resend is answered
by its own reports alone is log 31, what clears an error log log 35, that the bytes of an image whose inner layout is the
device's read as free values and are not written log 13, what a read that meets a unit at fault gives log 130, for which
launches a watchpoint is written, and that a write before the acceptance names the number that is given next, log 136, what a
gone report answers and how it names the number log 139, the order of the registers in the body of a read of error logs log
128, that an attest without the security engine is rejected at its opcode log 69, and that an answer, and X in a numbered state
report, counts its own command among those executed log 146. -/
def Claim.StateCommandAnswers : Prop :=
  ∀ (s : State) (h : Hdr) (l : LaunchId) (la : Launch),
    let u := s.taken h
    let padded (n : Nat) (l : List Byte) : List Byte := (List.range n).map fun i => l.getD i 0
    (Runs s h false → s.launch? l = some la → la.waits = true → ∀ (i : Nat) (r : BitVec 3) (v : Word), i < la.w * la.h →
      Answers s (.stateRead h l (.watch i r)) (u.dataReport h (leBytes 8 (look 0 la.wp (8 * i + r.toNat)).toNat)) ∧
      (watchWordOk r.toNat v = true → Answers s (.stateWrite h l (.watch i r) (leBytes 8 v.toNat))
        ((u.setLaunch { la with wp := assign (8 * i + r.toNat) v la.wp }).accept h []))) ∧
    (Runs s h false → s.launch? l = none → ∀ (p : Partition) (i : Nat) (r : BitVec 3) (v : Word),
      s.part? l.part.toNat = some p → l.acc = p.nextAcc → i < 512 → watchWordOk r.toNat v = true →
      Answers s (.stateWrite h l (.watch i r) (leBytes 8 v.toNat))
        ((u.setPart { p with early := assign (8 * i + r.toNat) v p.early }).accept h []) ∧
      ∀ b, (launchOf p p.nextAcc b).wp = p.early.filter fun e => e.1 < 8 * ((launchOf p p.nextAcc b).w * (launchOf p p.nextAcc b).h)) ∧
    (Runs s h false → s.launch? l = some la → ∀ (i off n : Nat) (c : Core) (bs : List Byte), u.contextOf la i = some c →
      let rows := (30 * 32768 + c.imageRow) * 1024
      let y := u.physOf c.physNo
      let lost (o : Nat) : Prop :=
        if la.phase = Phase.completed then o ∈ c.lostOffsets else ∃ e ∈ y.lost 7 (rows + off) n, e.1 / 4 = (rows + o) / 32
      let sound : Prop := if la.phase = Phase.completed then ∀ d ∈ u.cores, d.lid = la.id → d.index = i → d.phys.flips = []
        else y.wrongIn 7 (rows + off) n = []
      let unarmed (q : Phys) : Prop := q.flips = [] ∧ ∀ e ∈ q.errs.toList, e.inj.getLsbD 8 = false
      (off + n ≤ 7340032 → ∃ (v : State) (r : List Byte),
        Answers s (.stateRead h l (.image i off n)) (({ v with free := s.free + 1 }).dataReport h r) ∧ r.length = n ∧
        v.launches = u.launches ∧ v.parts = u.parts ∧ v.mgmt = u.mgmt ∧ (sound → v = u) ∧
        ∀ k b, r[k]? = some b → ∀ g, c.givenByte (u.ctx c) (off + k) = g →
          (g = none ∨ lost (off + k) → b = Config.pipelineByte s.free (off + k)) ∧
          (g.isSome = true → ¬lost (off + k) →
            (la.phase = .completed → g = some b) ∧ (la.phase ≠ .completed → b = y.hbm.get 0 (rows + (off + k))))) ∧
      (off + bs.length ≤ 7340032 → la.phase = .completed →
        let w := bs.zipIdx.foldl (fun (d : Core) b => d.putImage (u.ctx c) (off + b.2) b.1) c
        ∃ z, Answers s (.stateWrite h l (.image i off bs.length) bs) ((u.setContext z).accept h []) ∧
          z = { w with phys := { w.phys with errs := z.phys.errs, flips := z.phys.flips } } ∧ (unarmed c.phys → z = w)) ∧
      (off + bs.length ≤ 7340032 → la.phase ≠ .completed →
        let w : Phys := { y with hbm := bs.zipIdx.foldl (fun m b =>
          if (c.givenByte (u.ctx c) (off + b.2)).isSome then m.put 0 (rows + off + b.2) b.1 else m) y.hbm }
        ∃ z, Answers s (.stateWrite h l (.image i off bs.length) bs) ((u.setPhys c.physNo z).accept h []) ∧
          z = { w with errs := z.errs, flips := z.flips } ∧ (unarmed y → z = w))) ∧
    (Runs s h false → ∀ nonce (p : Partition), s.part? l.part.toNat = some p → nonce.length = 32 →
      (s.mgmt.usable 2 = true →
        let svn := s.mgmt.running.elim 0 fun f => f.svn.toNat
        let text := nonce ++ padded 32 s.mgmt.m1 ++ padded 32 p.pm ++ [BitVec.ofNat 8 svn] ++ [l.part] ++
          List.replicate 30 0
        Answers s (.attest h nonce l.part) (({ u with free := s.free + 1 }).dataReport h
          (text ++ padded 64 (Config.sm2Sign (Config.sm3 text) s.free)))) ∧
      (s.mgmt.usable 2 = false → Answers s (.attest h nonce l.part) (u.reject h 0))) ∧
    (Runs s h false → ∀ (x : BitVec 5) (y : BitVec 4),
      Answers s (.readErrorLogs h x y) (u.dataReport h ((s.physOf (32 * y.toNat + x.toNat)).errs.toList.flatMap fun e =>
        leBytes 8 (e.ce.toNat + e.ue.toNat * 2 ^ 16 + e.valid.toNat * 2 ^ 24 + e.unc.toNat * 2 ^ 25 +
          e.missed.toNat * 2 ^ 26 + e.rep.toNat * 2 ^ 27) ++ leBytes 8 e.addr.toNat ++ leBytes 8 e.syn.toNat ++
        leBytes 8 e.ctx.toNat ++ leBytes 8 e.cyc.toNat ++ leBytes 8 e.inj.toNat ++ leBytes 8 e.injAddr.toNat)) ∧
      ∃ z, Answers s (.clearErrorLogs h x y) ((u.setPhys (32 * y.toNat + x.toNat) z).accept h []) ∧
        ∀ (n : Nat) (e : ErrLog), z.errs[n]? = some e → e.valid = false ∧ e.missed = false ∧ e.ce = 0 ∧ e.ue = 0) ∧
    (Runs s h true →
      (h.blen = 0 → Answers s (.stateReport h) (u.report 9 0 h.tag 0 (stateBody u.mgmt))) ∧
      (∀ a, (∀ r ∈ s.mgmt.kept, r.rsn ≠ a) → Answers s (.resendReports h a a) (u.report 8 0 h.tag 0 (leBytes 8 a.toNat))) ∧
      (∀ a r, s.mgmt.kept.find? (fun r => r.rsn.toNat == a.toNat) = some r →
        Answers s (.resendReports h a a) { u with sent := r :: s.sent }) ∧
      (∀ g, Fits (.deliverFirmwareImage h g) h → imageFault s.mgmt g = none → s.mgmt.fw = true →
        Answers s (.deliverFirmwareImage h g) (({ u with mgmt := { u.mgmt with flash := some g } }).accept h [])) ∧
      (∀ g, Fits (.deliverFirmwareImage h g) h → imageFault s.mgmt g = none → s.mgmt.fw = false →
        Answers s (.deliverFirmwareImage h g)
          ((({ u with mgmt := { u.mgmt with flash := some g } }).runImage g).accept h [])) ∧
      (∀ a b, (∀ p ∈ opcodes, p.1 ≠ a.toNat) → Answers s (.undefinedCommand h a b) (u.report 2 0 h.tag 0 [])) ∧
      (∀ a b, (∃ p ∈ opcodes, p.1 = a.toNat) → a.toNat ≤ 3 ∨ s.mgmt.usable 1 = true →
        Answers s (.undefinedCommand h a b) (u.report 2 b.toNat h.tag 0 [])))

/-- R38, R39, R97, R156, R187, R259, R268 to R273, R285, R289, R294 to R303, R306, R307: the layout of an image, of a trap
record and of a state report, and the commands that read and write state. -/
def Obligations.StateCommands : Prop :=
  Claim.ImageLayout ∧ Claim.ImageRecords ∧ Claim.TrapRecordBytes ∧ Claim.StateReportBody ∧ Claim.StateCommandAnswers

/-- R296, R298 to R301, R308: power-up and a management reset begin X and report numbering anew; a function's bit only changes
from 0 to 1; power loss keeps flash and fuses and nothing that runs; a thermal request asks every launch that is not yet at its
save to yield, and a recovery lets the waiting ones start. The model's choice: that an interrupted firmware write leaves no
image is log 68, that a management reset drops the held commands log 138, which launches a thermal request asks and holds is
log 63, and that a recovery lets the scheduler decide on every partition, which R252 does not list, is log 98. -/
def Obligations.ManagementEvents : Prop :=
  ∀ s : State,
    (∃ t, exec .managementReset s = .next t ∧ t.mgmt.x = 0 ∧ t.mgmt.rsn = 0 ∧ t.mgmt.held = [] ∧ t.cores = s.cores) ∧
    (s.mgmt.powered = false → ∃ t, exec .powerUp s = .next t ∧ t.mgmt.powered = true ∧ t.mgmt.x = 0 ∧ t.mgmt.rsn = 0 ∧
      (s.mgmt.flash = none → t.mgmt.fw = s.mgmt.fw) ∧
      ∀ f, s.mgmt.flash = some f → imageFault s.mgmt f = none → t.mgmt.fw = true ∧ t.mgmt.running = some f) ∧
    (∀ f ok, s.mgmt.powered = true → readyAt s.mgmt (readyBit f).1 (readyBit f).2 = false →
      readyAt s.mgmt ((readyBit f).1 + 3) (readyBit f).2 = false → ok = false ∨ mayReady s.mgmt f = true →
      exec (.functionReady f ok) s =
        .next { s with mgmt := setReady (if ok then (readyBit f).1 else (readyBit f).1 + 3) (readyBit f).2 s.mgmt }) ∧
    (∀ b, ∃ t, exec (.powerLoss b) s = .next t ∧ t.cores = [] ∧ t.parts = [] ∧ t.launches = [] ∧ t.images = [] ∧
      t.mgmt.powered = false ∧ t.mgmt.fusedSvn = s.mgmt.fusedSvn ∧ t.mgmt.fusedKey = s.mgmt.fusedKey ∧
      t.mgmt.flash = if b then none else s.mgmt.flash) ∧
    exec .thermalYield s = .next { s with
      mgmt := { s.mgmt with hot := true }
      launches := s.launches.map fun y =>
        if y.asked then { y with yield_ := some .thermal } else y } ∧
    exec .thermalRecovery s = .next (State.scheduleAll { s with
      mgmt := { s.mgmt with hot := false }
      launches := s.launches.map fun y =>
        if y.yield_ = some .thermal ∧ y.phase = .queued then { y with yield_ := none } else y })

/-! ## Rules of the whole machine -/

/-- R11, R138: at its issue a syllable changes no register, no byte of scratchpad, of the vector file, of the
accumulator store or of the home channel, no partition and nothing of the management endpoint: what it computes
performs later. -/
def Obligations.IssueChangesNoRegister : Prop :=
  ∀ (s t : State) (c : Core) (i : Instr), i.encodable = true → s.actor = some c → exec i s = .next t →
    ∃ c', t.cores = (s.setActor c').cores ∧ t.images = (s.setActor c').images ∧ t.parts = s.parts ∧ t.mgmt = s.mgmt ∧
      t.now = s.now ∧ c'.regs = c.regs ∧ c'.sp.mem = c.sp.mem ∧ c'.vec = c.vec ∧ c'.arr.acc = c.arr.acc ∧
      c'.arr.grad = c.arr.grad ∧ c'.phys.hbm = c.phys.hbm ∧ c'.wp = c.wp ∧ c'.windows = c.windows ∧
      ∃ l, c'.pends = c.pends ++ l ∧ ∀ p ∈ l, s.now < p.due

/-- Every instruction has a meaning: no instruction is refused in any state, and a syllable whose core exists always
answers a next state, its faults being traps that its core takes. -/
def Obligations.NothingIsRefused : Prop :=
  (∀ (s : State) (i : Instr) (r : Refusal), exec i s ≠ .refused r) ∧
  ∀ (s : State) (c : Core) (i : Instr), i.encodable = true → s.actor = some c → ∃ t, exec i s = .next t

/-- R242: no step makes a partition counter less. -/
def Obligations.PartitionCountersNeverDecrease : Prop :=
  ∀ s t : State, s.partsApart → step s = .next t → ∀ p ∈ s.parts, ∀ q ∈ t.parts, p.number = q.number →
    ∀ k, (look 0 p.counters k).toNat ≤ (look 0 q.counters k).toNat

/-- R18: partitions are legal rectangles of whole plots that never overlap: every step keeps them so. -/
def Obligations.PartitionsStayApart : Prop :=
  ∀ s t : State, s.partsApart → step s = .next t → t.partsApart

/-- The model's own form of memory: every step keeps every memory sorted by address, with no byte listed that an
unlisted address reads as. -/
def Obligations.MemoriesStayCanonical : Prop :=
  ∀ s t : State, s.canonical → step s = .next t → t.canonical

/-- R241, R254, R296 to R298, R305: right after power is applied no function is ready, no partition, launch or context
exists, X is 0 and no report has been numbered, and both invariants hold. -/
def Obligations.ResetState : Prop :=
  State.reset.partsApart ∧ State.reset.canonical ∧ State.reset.parts = [] ∧ State.reset.launches = [] ∧
  State.reset.cores = [] ∧ State.reset.images = [] ∧ State.reset.mgmt.x = 0 ∧ State.reset.mgmt.rsn = 0 ∧
  State.reset.mgmt.ready = Vector.replicate 6 0 ∧ State.reset.mgmt.fw = false ∧ State.reset.sent = []
end

