-- ==== Sys2Proof/Laws/State.lean ====
section
/-!
SUPPORT. What each update of the state, of a core and of its registers leaves and gives, field by field.
-/

namespace Sys2Proof.Machine


/-! ## The module -/

@[simp] theorem State.setActor_now (s : State) (c : Core) : (s.setActor c).now = s.now := by unfold State.setActor; split <;> rfl
@[simp] theorem State.setActor_cur (s : State) (c : Core) : (s.setActor c).cur = s.cur := by unfold State.setActor; split <;> rfl
@[simp] theorem State.setActor_launches (s : State) (c : Core) : (s.setActor c).launches = s.launches := by unfold State.setActor; split <;> rfl
@[simp] theorem State.setActor_parts (s : State) (c : Core) : (s.setActor c).parts = s.parts := by unfold State.setActor; split <;> rfl
@[simp] theorem State.setActor_mgmt (s : State) (c : Core) : (s.setActor c).mgmt = s.mgmt := by unfold State.setActor; split <;> rfl
@[simp] theorem State.setActor_inbox (s : State) (c : Core) : (s.setActor c).inbox = s.inbox := by unfold State.setActor; split <;> rfl
@[simp] theorem State.setActor_sent (s : State) (c : Core) : (s.setActor c).sent = s.sent := by unfold State.setActor; split <;> rfl
@[simp] theorem State.setActor_host (s : State) (c : Core) : (s.setActor c).host = s.host := by unfold State.setActor; split <;> rfl
@[simp] theorem State.setActor_idle (s : State) (c : Core) : (s.setActor c).idle = s.idle := by unfold State.setActor; split <;> rfl
@[simp] theorem State.setActor_placed (s : State) (c : Core) : (s.setActor c).placed = s.placed := by unfold State.setActor; split <;> rfl
@[simp] theorem State.setActor_resident (s : State) (c : Core) : (s.setActor c).resident = s.resident := by unfold State.setActor; split <;> rfl
@[simp] theorem State.setActor_tlb (s : State) (c : Core) : (s.setActor c).tlb = s.tlb := by unfold State.setActor; split <;> rfl
@[simp] theorem State.setActor_sysCode (s : State) (c : Core) : (s.setActor c).sysCode = s.sysCode := by unfold State.setActor; split <;> rfl
@[simp] theorem State.setActor_rrPart (s : State) (c : Core) : (s.setActor c).rrPart = s.rrPart := by unfold State.setActor; split <;> rfl
@[simp] theorem State.setActor_free (s : State) (c : Core) : (s.setActor c).free = s.free := by unfold State.setActor; split <;> rfl
@[simp] theorem State.sit_now (s : State) (n : Nat) (c : Core) : (s.sit n c).now = s.now := rfl
@[simp] theorem State.sit_images (s : State) (n : Nat) (c : Core) : (s.sit n c).images = s.images := rfl
@[simp] theorem State.sit_launches (s : State) (n : Nat) (c : Core) : (s.sit n c).launches = s.launches := rfl
@[simp] theorem State.sit_parts (s : State) (n : Nat) (c : Core) : (s.sit n c).parts = s.parts := rfl
@[simp] theorem State.sit_mgmt (s : State) (n : Nat) (c : Core) : (s.sit n c).mgmt = s.mgmt := rfl
@[simp] theorem State.sit_inbox (s : State) (n : Nat) (c : Core) : (s.sit n c).inbox = s.inbox := rfl
@[simp] theorem State.sit_sent (s : State) (n : Nat) (c : Core) : (s.sit n c).sent = s.sent := rfl
@[simp] theorem State.sit_host (s : State) (n : Nat) (c : Core) : (s.sit n c).host = s.host := rfl
@[simp] theorem State.sit_idle (s : State) (n : Nat) (c : Core) : (s.sit n c).idle = s.idle := rfl
@[simp] theorem State.sit_placed (s : State) (n : Nat) (c : Core) : (s.sit n c).placed = s.placed := rfl
@[simp] theorem State.sit_resident (s : State) (n : Nat) (c : Core) : (s.sit n c).resident = s.resident := rfl
@[simp] theorem State.sit_tlb (s : State) (n : Nat) (c : Core) : (s.sit n c).tlb = s.tlb := rfl
@[simp] theorem State.sit_sysCode (s : State) (n : Nat) (c : Core) : (s.sit n c).sysCode = s.sysCode := rfl
@[simp] theorem State.sit_rrPart (s : State) (n : Nat) (c : Core) : (s.sit n c).rrPart = s.rrPart := rfl
@[simp] theorem State.sit_free (s : State) (n : Nat) (c : Core) : (s.sit n c).free = s.free := rfl
@[simp] theorem State.setLaunch_now (s : State) (la : Launch) : (s.setLaunch la).now = s.now := rfl
@[simp] theorem State.setLaunch_cores (s : State) (la : Launch) : (s.setLaunch la).cores = s.cores := rfl
@[simp] theorem State.setLaunch_cur (s : State) (la : Launch) : (s.setLaunch la).cur = s.cur := rfl
@[simp] theorem State.setLaunch_images (s : State) (la : Launch) : (s.setLaunch la).images = s.images := rfl
@[simp] theorem State.setLaunch_parts (s : State) (la : Launch) : (s.setLaunch la).parts = s.parts := rfl
@[simp] theorem State.setLaunch_mgmt (s : State) (la : Launch) : (s.setLaunch la).mgmt = s.mgmt := rfl
@[simp] theorem State.setLaunch_inbox (s : State) (la : Launch) : (s.setLaunch la).inbox = s.inbox := rfl
@[simp] theorem State.setLaunch_sent (s : State) (la : Launch) : (s.setLaunch la).sent = s.sent := rfl
@[simp] theorem State.setLaunch_host (s : State) (la : Launch) : (s.setLaunch la).host = s.host := rfl
@[simp] theorem State.setLaunch_idle (s : State) (la : Launch) : (s.setLaunch la).idle = s.idle := rfl
@[simp] theorem State.setLaunch_placed (s : State) (la : Launch) : (s.setLaunch la).placed = s.placed := rfl
@[simp] theorem State.setLaunch_resident (s : State) (la : Launch) : (s.setLaunch la).resident = s.resident := rfl
@[simp] theorem State.setLaunch_tlb (s : State) (la : Launch) : (s.setLaunch la).tlb = s.tlb := rfl
@[simp] theorem State.setLaunch_sysCode (s : State) (la : Launch) : (s.setLaunch la).sysCode = s.sysCode := rfl
@[simp] theorem State.setLaunch_rrPart (s : State) (la : Launch) : (s.setLaunch la).rrPart = s.rrPart := rfl
@[simp] theorem State.setLaunch_free (s : State) (la : Launch) : (s.setLaunch la).free = s.free := rfl
@[simp] theorem State.setPart_now (s : State) (p : Partition) : (s.setPart p).now = s.now := rfl
@[simp] theorem State.setPart_cores (s : State) (p : Partition) : (s.setPart p).cores = s.cores := rfl
@[simp] theorem State.setPart_cur (s : State) (p : Partition) : (s.setPart p).cur = s.cur := rfl
@[simp] theorem State.setPart_images (s : State) (p : Partition) : (s.setPart p).images = s.images := rfl
@[simp] theorem State.setPart_launches (s : State) (p : Partition) : (s.setPart p).launches = s.launches := rfl
@[simp] theorem State.setPart_mgmt (s : State) (p : Partition) : (s.setPart p).mgmt = s.mgmt := rfl
@[simp] theorem State.setPart_inbox (s : State) (p : Partition) : (s.setPart p).inbox = s.inbox := rfl
@[simp] theorem State.setPart_sent (s : State) (p : Partition) : (s.setPart p).sent = s.sent := rfl
@[simp] theorem State.setPart_host (s : State) (p : Partition) : (s.setPart p).host = s.host := rfl
@[simp] theorem State.setPart_idle (s : State) (p : Partition) : (s.setPart p).idle = s.idle := rfl
@[simp] theorem State.setPart_placed (s : State) (p : Partition) : (s.setPart p).placed = s.placed := rfl
@[simp] theorem State.setPart_resident (s : State) (p : Partition) : (s.setPart p).resident = s.resident := rfl
@[simp] theorem State.setPart_tlb (s : State) (p : Partition) : (s.setPart p).tlb = s.tlb := rfl
@[simp] theorem State.setPart_sysCode (s : State) (p : Partition) : (s.setPart p).sysCode = s.sysCode := rfl
@[simp] theorem State.setPart_rrPart (s : State) (p : Partition) : (s.setPart p).rrPart = s.rrPart := rfl
@[simp] theorem State.setPart_free (s : State) (p : Partition) : (s.setPart p).free = s.free := rfl
@[simp] theorem State.mapCores_now (s : State) (p : Core → Bool) (f : Core → Core) : (s.mapCores p f).now = s.now := rfl
@[simp] theorem State.mapCores_cur (s : State) (p : Core → Bool) (f : Core → Core) : (s.mapCores p f).cur = s.cur := rfl
@[simp] theorem State.mapCores_images (s : State) (p : Core → Bool) (f : Core → Core) : (s.mapCores p f).images = s.images := rfl
@[simp] theorem State.mapCores_launches (s : State) (p : Core → Bool) (f : Core → Core) : (s.mapCores p f).launches = s.launches := rfl
@[simp] theorem State.mapCores_parts (s : State) (p : Core → Bool) (f : Core → Core) : (s.mapCores p f).parts = s.parts := rfl
@[simp] theorem State.mapCores_mgmt (s : State) (p : Core → Bool) (f : Core → Core) : (s.mapCores p f).mgmt = s.mgmt := rfl
@[simp] theorem State.mapCores_inbox (s : State) (p : Core → Bool) (f : Core → Core) : (s.mapCores p f).inbox = s.inbox := rfl
@[simp] theorem State.mapCores_sent (s : State) (p : Core → Bool) (f : Core → Core) : (s.mapCores p f).sent = s.sent := rfl
@[simp] theorem State.mapCores_host (s : State) (p : Core → Bool) (f : Core → Core) : (s.mapCores p f).host = s.host := rfl
@[simp] theorem State.mapCores_idle (s : State) (p : Core → Bool) (f : Core → Core) : (s.mapCores p f).idle = s.idle := rfl
@[simp] theorem State.mapCores_placed (s : State) (p : Core → Bool) (f : Core → Core) : (s.mapCores p f).placed = s.placed := rfl
@[simp] theorem State.mapCores_resident (s : State) (p : Core → Bool) (f : Core → Core) : (s.mapCores p f).resident = s.resident := rfl
@[simp] theorem State.mapCores_tlb (s : State) (p : Core → Bool) (f : Core → Core) : (s.mapCores p f).tlb = s.tlb := rfl
@[simp] theorem State.mapCores_sysCode (s : State) (p : Core → Bool) (f : Core → Core) : (s.mapCores p f).sysCode = s.sysCode := rfl
@[simp] theorem State.mapCores_rrPart (s : State) (p : Core → Bool) (f : Core → Core) : (s.mapCores p f).rrPart = s.rrPart := rfl
@[simp] theorem State.mapCores_free (s : State) (p : Core → Bool) (f : Core → Core) : (s.mapCores p f).free = s.free := rfl
@[simp] theorem State.onLaunch_now (s : State) (l : LaunchId) (f : Core → Core) : (s.onLaunch l f).now = s.now := rfl
@[simp] theorem State.onLaunch_cur (s : State) (l : LaunchId) (f : Core → Core) : (s.onLaunch l f).cur = s.cur := rfl
@[simp] theorem State.onLaunch_images (s : State) (l : LaunchId) (f : Core → Core) : (s.onLaunch l f).images = s.images := rfl
@[simp] theorem State.onLaunch_launches (s : State) (l : LaunchId) (f : Core → Core) : (s.onLaunch l f).launches = s.launches := rfl
@[simp] theorem State.onLaunch_parts (s : State) (l : LaunchId) (f : Core → Core) : (s.onLaunch l f).parts = s.parts := rfl
@[simp] theorem State.onLaunch_mgmt (s : State) (l : LaunchId) (f : Core → Core) : (s.onLaunch l f).mgmt = s.mgmt := rfl
@[simp] theorem State.onLaunch_inbox (s : State) (l : LaunchId) (f : Core → Core) : (s.onLaunch l f).inbox = s.inbox := rfl
@[simp] theorem State.onLaunch_sent (s : State) (l : LaunchId) (f : Core → Core) : (s.onLaunch l f).sent = s.sent := rfl
@[simp] theorem State.onLaunch_host (s : State) (l : LaunchId) (f : Core → Core) : (s.onLaunch l f).host = s.host := rfl
@[simp] theorem State.onLaunch_idle (s : State) (l : LaunchId) (f : Core → Core) : (s.onLaunch l f).idle = s.idle := rfl
@[simp] theorem State.onLaunch_placed (s : State) (l : LaunchId) (f : Core → Core) : (s.onLaunch l f).placed = s.placed := rfl
@[simp] theorem State.onLaunch_resident (s : State) (l : LaunchId) (f : Core → Core) : (s.onLaunch l f).resident = s.resident := rfl
@[simp] theorem State.onLaunch_tlb (s : State) (l : LaunchId) (f : Core → Core) : (s.onLaunch l f).tlb = s.tlb := rfl
@[simp] theorem State.onLaunch_sysCode (s : State) (l : LaunchId) (f : Core → Core) : (s.onLaunch l f).sysCode = s.sysCode := rfl
@[simp] theorem State.onLaunch_rrPart (s : State) (l : LaunchId) (f : Core → Core) : (s.onLaunch l f).rrPart = s.rrPart := rfl
@[simp] theorem State.onLaunch_free (s : State) (l : LaunchId) (f : Core → Core) : (s.onLaunch l f).free = s.free := rfl
@[simp] theorem State.report_now (s : State) (k st : Nat) (t : BitVec 64) (e : Nat) (b : List Byte) : (s.report k st t e b).now = s.now := rfl
@[simp] theorem State.report_cores (s : State) (k st : Nat) (t : BitVec 64) (e : Nat) (b : List Byte) : (s.report k st t e b).cores = s.cores := rfl
@[simp] theorem State.report_cur (s : State) (k st : Nat) (t : BitVec 64) (e : Nat) (b : List Byte) : (s.report k st t e b).cur = s.cur := rfl
@[simp] theorem State.report_images (s : State) (k st : Nat) (t : BitVec 64) (e : Nat) (b : List Byte) : (s.report k st t e b).images = s.images := rfl
@[simp] theorem State.report_launches (s : State) (k st : Nat) (t : BitVec 64) (e : Nat) (b : List Byte) : (s.report k st t e b).launches = s.launches := rfl
@[simp] theorem State.report_parts (s : State) (k st : Nat) (t : BitVec 64) (e : Nat) (b : List Byte) : (s.report k st t e b).parts = s.parts := rfl
@[simp] theorem State.report_inbox (s : State) (k st : Nat) (t : BitVec 64) (e : Nat) (b : List Byte) : (s.report k st t e b).inbox = s.inbox := rfl
@[simp] theorem State.report_host (s : State) (k st : Nat) (t : BitVec 64) (e : Nat) (b : List Byte) : (s.report k st t e b).host = s.host := rfl
@[simp] theorem State.report_idle (s : State) (k st : Nat) (t : BitVec 64) (e : Nat) (b : List Byte) : (s.report k st t e b).idle = s.idle := rfl
@[simp] theorem State.report_placed (s : State) (k st : Nat) (t : BitVec 64) (e : Nat) (b : List Byte) : (s.report k st t e b).placed = s.placed := rfl
@[simp] theorem State.report_resident (s : State) (k st : Nat) (t : BitVec 64) (e : Nat) (b : List Byte) : (s.report k st t e b).resident = s.resident := rfl
@[simp] theorem State.report_tlb (s : State) (k st : Nat) (t : BitVec 64) (e : Nat) (b : List Byte) : (s.report k st t e b).tlb = s.tlb := rfl
@[simp] theorem State.report_sysCode (s : State) (k st : Nat) (t : BitVec 64) (e : Nat) (b : List Byte) : (s.report k st t e b).sysCode = s.sysCode := rfl
@[simp] theorem State.report_rrPart (s : State) (k st : Nat) (t : BitVec 64) (e : Nat) (b : List Byte) : (s.report k st t e b).rrPart = s.rrPart := rfl
@[simp] theorem State.report_free (s : State) (k st : Nat) (t : BitVec 64) (e : Nat) (b : List Byte) : (s.report k st t e b).free = s.free := rfl
@[simp] theorem State.taken_now (s : State) (h : Hdr) : (s.taken h).now = s.now := rfl
@[simp] theorem State.taken_cores (s : State) (h : Hdr) : (s.taken h).cores = s.cores := rfl
@[simp] theorem State.taken_cur (s : State) (h : Hdr) : (s.taken h).cur = s.cur := rfl
@[simp] theorem State.taken_images (s : State) (h : Hdr) : (s.taken h).images = s.images := rfl
@[simp] theorem State.taken_launches (s : State) (h : Hdr) : (s.taken h).launches = s.launches := rfl
@[simp] theorem State.taken_parts (s : State) (h : Hdr) : (s.taken h).parts = s.parts := rfl
@[simp] theorem State.taken_inbox (s : State) (h : Hdr) : (s.taken h).inbox = s.inbox := rfl
@[simp] theorem State.taken_sent (s : State) (h : Hdr) : (s.taken h).sent = s.sent := rfl
@[simp] theorem State.taken_host (s : State) (h : Hdr) : (s.taken h).host = s.host := rfl
@[simp] theorem State.taken_idle (s : State) (h : Hdr) : (s.taken h).idle = s.idle := rfl
@[simp] theorem State.taken_placed (s : State) (h : Hdr) : (s.taken h).placed = s.placed := rfl
@[simp] theorem State.taken_resident (s : State) (h : Hdr) : (s.taken h).resident = s.resident := rfl
@[simp] theorem State.taken_tlb (s : State) (h : Hdr) : (s.taken h).tlb = s.tlb := rfl
@[simp] theorem State.taken_sysCode (s : State) (h : Hdr) : (s.taken h).sysCode = s.sysCode := rfl
@[simp] theorem State.taken_rrPart (s : State) (h : Hdr) : (s.taken h).rrPart = s.rrPart := rfl
@[simp] theorem State.taken_free (s : State) (h : Hdr) : (s.taken h).free = s.free := rfl
@[simp] theorem State.restoreFootprints_now (s : State) (l : LaunchId) : (s.restoreFootprints l).now = s.now := rfl
@[simp] theorem State.restoreFootprints_cores (s : State) (l : LaunchId) : (s.restoreFootprints l).cores = s.cores := rfl
@[simp] theorem State.restoreFootprints_cur (s : State) (l : LaunchId) : (s.restoreFootprints l).cur = s.cur := rfl
@[simp] theorem State.restoreFootprints_images (s : State) (l : LaunchId) : (s.restoreFootprints l).images = s.images := rfl
@[simp] theorem State.restoreFootprints_parts (s : State) (l : LaunchId) : (s.restoreFootprints l).parts = s.parts := rfl
@[simp] theorem State.restoreFootprints_mgmt (s : State) (l : LaunchId) : (s.restoreFootprints l).mgmt = s.mgmt := rfl
@[simp] theorem State.restoreFootprints_inbox (s : State) (l : LaunchId) : (s.restoreFootprints l).inbox = s.inbox := rfl
@[simp] theorem State.restoreFootprints_sent (s : State) (l : LaunchId) : (s.restoreFootprints l).sent = s.sent := rfl
@[simp] theorem State.restoreFootprints_host (s : State) (l : LaunchId) : (s.restoreFootprints l).host = s.host := rfl
@[simp] theorem State.restoreFootprints_idle (s : State) (l : LaunchId) : (s.restoreFootprints l).idle = s.idle := rfl
@[simp] theorem State.restoreFootprints_placed (s : State) (l : LaunchId) : (s.restoreFootprints l).placed = s.placed := rfl
@[simp] theorem State.restoreFootprints_resident (s : State) (l : LaunchId) : (s.restoreFootprints l).resident = s.resident := rfl
@[simp] theorem State.restoreFootprints_tlb (s : State) (l : LaunchId) : (s.restoreFootprints l).tlb = s.tlb := rfl
@[simp] theorem State.restoreFootprints_sysCode (s : State) (l : LaunchId) : (s.restoreFootprints l).sysCode = s.sysCode := rfl
@[simp] theorem State.restoreFootprints_rrPart (s : State) (l : LaunchId) : (s.restoreFootprints l).rrPart = s.rrPart := rfl
@[simp] theorem State.restoreFootprints_free (s : State) (l : LaunchId) : (s.restoreFootprints l).free = s.free := rfl
@[simp] theorem State.landAt_now (s : State) (l : LaunchId) (r : Rec) : (s.landAt l r).now = s.now := rfl
@[simp] theorem State.landAt_cur (s : State) (l : LaunchId) (r : Rec) : (s.landAt l r).cur = s.cur := rfl
@[simp] theorem State.landAt_images (s : State) (l : LaunchId) (r : Rec) : (s.landAt l r).images = s.images := rfl
@[simp] theorem State.landAt_launches (s : State) (l : LaunchId) (r : Rec) : (s.landAt l r).launches = s.launches := rfl
@[simp] theorem State.landAt_parts (s : State) (l : LaunchId) (r : Rec) : (s.landAt l r).parts = s.parts := rfl
@[simp] theorem State.landAt_mgmt (s : State) (l : LaunchId) (r : Rec) : (s.landAt l r).mgmt = s.mgmt := rfl
@[simp] theorem State.landAt_inbox (s : State) (l : LaunchId) (r : Rec) : (s.landAt l r).inbox = s.inbox := rfl
@[simp] theorem State.landAt_sent (s : State) (l : LaunchId) (r : Rec) : (s.landAt l r).sent = s.sent := rfl
@[simp] theorem State.landAt_host (s : State) (l : LaunchId) (r : Rec) : (s.landAt l r).host = s.host := rfl
@[simp] theorem State.landAt_idle (s : State) (l : LaunchId) (r : Rec) : (s.landAt l r).idle = s.idle := rfl
@[simp] theorem State.landAt_placed (s : State) (l : LaunchId) (r : Rec) : (s.landAt l r).placed = s.placed := rfl
@[simp] theorem State.landAt_resident (s : State) (l : LaunchId) (r : Rec) : (s.landAt l r).resident = s.resident := rfl
@[simp] theorem State.landAt_tlb (s : State) (l : LaunchId) (r : Rec) : (s.landAt l r).tlb = s.tlb := rfl
@[simp] theorem State.landAt_sysCode (s : State) (l : LaunchId) (r : Rec) : (s.landAt l r).sysCode = s.sysCode := rfl
@[simp] theorem State.landAt_rrPart (s : State) (l : LaunchId) (r : Rec) : (s.landAt l r).rrPart = s.rrPart := rfl
@[simp] theorem State.landAt_free (s : State) (l : LaunchId) (r : Rec) : (s.landAt l r).free = s.free := rfl
@[simp] theorem State.setLaunch_launches (s : State) (la : Launch) :
    (s.setLaunch la).launches = s.launches.map fun x => if x.id == la.id then la else x := rfl
@[simp] theorem State.setPart_parts (s : State) (p : Partition) :
    (s.setPart p).parts = s.parts.map fun x => if x.number == p.number then p else x := rfl
@[simp] theorem State.mapCores_cores (s : State) (p : Core → Bool) (f : Core → Core) :
    (s.mapCores p f).cores = s.cores.map fun c => if p c then f c else c := rfl

/-! ## Contexts that leave, are saved and come back -/

/-- A field that each step of a fold keeps is kept by the fold. -/
theorem foldl_keeps {α β γ : Type} (g : α → γ) (f : α → β → α) (h : ∀ a b, g (f a b) = g a) (l : List β) (a : α) :
    g (l.foldl f a) = g a := by
  induction l generalizing a with
  | nil => rfl
  | cons b l ih => rw [List.foldl_cons, ih, h]

@[simp] theorem State.setPhys_now (s : State) (n : Nat) (p : Phys) : (s.setPhys n p).now = s.now := by unfold State.setPhys; split <;> rfl
@[simp] theorem State.setPhys_cur (s : State) (n : Nat) (p : Phys) : (s.setPhys n p).cur = s.cur := by unfold State.setPhys; split <;> rfl
@[simp] theorem State.setPhys_images (s : State) (n : Nat) (p : Phys) : (s.setPhys n p).images = s.images := by unfold State.setPhys; split <;> rfl
@[simp] theorem State.setPhys_launches (s : State) (n : Nat) (p : Phys) : (s.setPhys n p).launches = s.launches := by unfold State.setPhys; split <;> rfl
@[simp] theorem State.setPhys_parts (s : State) (n : Nat) (p : Phys) : (s.setPhys n p).parts = s.parts := by unfold State.setPhys; split <;> rfl
@[simp] theorem State.setPhys_mgmt (s : State) (n : Nat) (p : Phys) : (s.setPhys n p).mgmt = s.mgmt := by unfold State.setPhys; split <;> rfl
@[simp] theorem State.setPhys_inbox (s : State) (n : Nat) (p : Phys) : (s.setPhys n p).inbox = s.inbox := by unfold State.setPhys; split <;> rfl
@[simp] theorem State.setPhys_sent (s : State) (n : Nat) (p : Phys) : (s.setPhys n p).sent = s.sent := by unfold State.setPhys; split <;> rfl
@[simp] theorem State.setPhys_host (s : State) (n : Nat) (p : Phys) : (s.setPhys n p).host = s.host := by unfold State.setPhys; split <;> rfl
@[simp] theorem State.setPhys_placed (s : State) (n : Nat) (p : Phys) : (s.setPhys n p).placed = s.placed := by unfold State.setPhys; split <;> rfl
@[simp] theorem State.setPhys_resident (s : State) (n : Nat) (p : Phys) : (s.setPhys n p).resident = s.resident := by unfold State.setPhys; split <;> rfl
@[simp] theorem State.setPhys_tlb (s : State) (n : Nat) (p : Phys) : (s.setPhys n p).tlb = s.tlb := by unfold State.setPhys; split <;> rfl
@[simp] theorem State.setPhys_sysCode (s : State) (n : Nat) (p : Phys) : (s.setPhys n p).sysCode = s.sysCode := by unfold State.setPhys; split <;> rfl
@[simp] theorem State.setPhys_rrPart (s : State) (n : Nat) (p : Phys) : (s.setPhys n p).rrPart = s.rrPart := by unfold State.setPhys; split <;> rfl
@[simp] theorem State.setPhys_free (s : State) (n : Nat) (p : Phys) : (s.setPhys n p).free = s.free := by unfold State.setPhys; split <;> rfl
@[simp] theorem State.onPhys_now (s : State) (n : Nat) (f : Core → Core) : (s.onPhys n f).now = s.now := by unfold State.onPhys; simp
@[simp] theorem State.onPhys_cur (s : State) (n : Nat) (f : Core → Core) : (s.onPhys n f).cur = s.cur := by unfold State.onPhys; simp
@[simp] theorem State.onPhys_images (s : State) (n : Nat) (f : Core → Core) : (s.onPhys n f).images = s.images := by unfold State.onPhys; simp
@[simp] theorem State.onPhys_launches (s : State) (n : Nat) (f : Core → Core) : (s.onPhys n f).launches = s.launches := by unfold State.onPhys; simp
@[simp] theorem State.onPhys_parts (s : State) (n : Nat) (f : Core → Core) : (s.onPhys n f).parts = s.parts := by unfold State.onPhys; simp
@[simp] theorem State.onPhys_mgmt (s : State) (n : Nat) (f : Core → Core) : (s.onPhys n f).mgmt = s.mgmt := by unfold State.onPhys; simp
@[simp] theorem State.onPhys_inbox (s : State) (n : Nat) (f : Core → Core) : (s.onPhys n f).inbox = s.inbox := by unfold State.onPhys; simp
@[simp] theorem State.onPhys_sent (s : State) (n : Nat) (f : Core → Core) : (s.onPhys n f).sent = s.sent := by unfold State.onPhys; simp
@[simp] theorem State.onPhys_host (s : State) (n : Nat) (f : Core → Core) : (s.onPhys n f).host = s.host := by unfold State.onPhys; simp
@[simp] theorem State.onPhys_placed (s : State) (n : Nat) (f : Core → Core) : (s.onPhys n f).placed = s.placed := by unfold State.onPhys; simp
@[simp] theorem State.onPhys_resident (s : State) (n : Nat) (f : Core → Core) : (s.onPhys n f).resident = s.resident := by unfold State.onPhys; simp
@[simp] theorem State.onPhys_tlb (s : State) (n : Nat) (f : Core → Core) : (s.onPhys n f).tlb = s.tlb := by unfold State.onPhys; simp
@[simp] theorem State.onPhys_sysCode (s : State) (n : Nat) (f : Core → Core) : (s.onPhys n f).sysCode = s.sysCode := by unfold State.onPhys; simp
@[simp] theorem State.onPhys_rrPart (s : State) (n : Nat) (f : Core → Core) : (s.onPhys n f).rrPart = s.rrPart := by unfold State.onPhys; simp
@[simp] theorem State.onPhys_free (s : State) (n : Nat) (f : Core → Core) : (s.onPhys n f).free = s.free := by unfold State.onPhys; simp
@[simp] theorem State.readHbm_now (s : State) (k a n : Nat) : (s.readHbm k a n).1.now = s.now := by unfold State.readHbm; simp only; split <;> simp
@[simp] theorem State.readHbm_cur (s : State) (k a n : Nat) : (s.readHbm k a n).1.cur = s.cur := by unfold State.readHbm; simp only; split <;> simp
@[simp] theorem State.readHbm_images (s : State) (k a n : Nat) : (s.readHbm k a n).1.images = s.images := by unfold State.readHbm; simp only; split <;> simp
@[simp] theorem State.readHbm_launches (s : State) (k a n : Nat) : (s.readHbm k a n).1.launches = s.launches := by unfold State.readHbm; simp only; split <;> simp
@[simp] theorem State.readHbm_parts (s : State) (k a n : Nat) : (s.readHbm k a n).1.parts = s.parts := by unfold State.readHbm; simp only; split <;> simp
@[simp] theorem State.readHbm_mgmt (s : State) (k a n : Nat) : (s.readHbm k a n).1.mgmt = s.mgmt := by unfold State.readHbm; simp only; split <;> simp
@[simp] theorem State.readHbm_inbox (s : State) (k a n : Nat) : (s.readHbm k a n).1.inbox = s.inbox := by unfold State.readHbm; simp only; split <;> simp
@[simp] theorem State.readHbm_sent (s : State) (k a n : Nat) : (s.readHbm k a n).1.sent = s.sent := by unfold State.readHbm; simp only; split <;> simp
@[simp] theorem State.readHbm_host (s : State) (k a n : Nat) : (s.readHbm k a n).1.host = s.host := by unfold State.readHbm; simp only; split <;> simp
@[simp] theorem State.readHbm_placed (s : State) (k a n : Nat) : (s.readHbm k a n).1.placed = s.placed := by unfold State.readHbm; simp only; split <;> simp
@[simp] theorem State.readHbm_resident (s : State) (k a n : Nat) : (s.readHbm k a n).1.resident = s.resident := by unfold State.readHbm; simp only; split <;> simp
@[simp] theorem State.readHbm_tlb (s : State) (k a n : Nat) : (s.readHbm k a n).1.tlb = s.tlb := by unfold State.readHbm; simp only; split <;> simp
@[simp] theorem State.readHbm_sysCode (s : State) (k a n : Nat) : (s.readHbm k a n).1.sysCode = s.sysCode := by unfold State.readHbm; simp only; split <;> simp
@[simp] theorem State.readHbm_rrPart (s : State) (k a n : Nat) : (s.readHbm k a n).1.rrPart = s.rrPart := by unfold State.readHbm; simp only; split <;> simp
@[simp] theorem State.readHbm_free (s : State) (k a n : Nat) : (s.readHbm k a n).1.free = s.free := by unfold State.readHbm; simp only; split <;> simp
@[simp] theorem State.vacate_now (s : State) (on : Core → Bool) : (s.vacate on).now = s.now := rfl
@[simp] theorem State.vacate_cur (s : State) (on : Core → Bool) : (s.vacate on).cur = s.cur := rfl
@[simp] theorem State.vacate_images (s : State) (on : Core → Bool) : (s.vacate on).images = s.images := rfl
@[simp] theorem State.vacate_launches (s : State) (on : Core → Bool) : (s.vacate on).launches = s.launches := rfl
@[simp] theorem State.vacate_parts (s : State) (on : Core → Bool) : (s.vacate on).parts = s.parts := rfl
@[simp] theorem State.vacate_mgmt (s : State) (on : Core → Bool) : (s.vacate on).mgmt = s.mgmt := rfl
@[simp] theorem State.vacate_inbox (s : State) (on : Core → Bool) : (s.vacate on).inbox = s.inbox := rfl
@[simp] theorem State.vacate_sent (s : State) (on : Core → Bool) : (s.vacate on).sent = s.sent := rfl
@[simp] theorem State.vacate_host (s : State) (on : Core → Bool) : (s.vacate on).host = s.host := rfl
@[simp] theorem State.vacate_placed (s : State) (on : Core → Bool) : (s.vacate on).placed = s.placed := rfl
@[simp] theorem State.vacate_resident (s : State) (on : Core → Bool) : (s.vacate on).resident = s.resident := rfl
@[simp] theorem State.vacate_tlb (s : State) (on : Core → Bool) : (s.vacate on).tlb = s.tlb := rfl
@[simp] theorem State.vacate_sysCode (s : State) (on : Core → Bool) : (s.vacate on).sysCode = s.sysCode := rfl
@[simp] theorem State.vacate_rrPart (s : State) (on : Core → Bool) : (s.vacate on).rrPart = s.rrPart := rfl
@[simp] theorem State.freeImage_now (s : State) (c : Core) : (s.freeImage c).now = s.now := by unfold State.freeImage; simp
@[simp] theorem State.freeImage_cur (s : State) (c : Core) : (s.freeImage c).cur = s.cur := by unfold State.freeImage; simp
@[simp] theorem State.freeImage_images (s : State) (c : Core) : (s.freeImage c).images = s.images := by unfold State.freeImage; simp
@[simp] theorem State.freeImage_launches (s : State) (c : Core) : (s.freeImage c).launches = s.launches := by unfold State.freeImage; simp
@[simp] theorem State.freeImage_parts (s : State) (c : Core) : (s.freeImage c).parts = s.parts := by unfold State.freeImage; simp
@[simp] theorem State.freeImage_mgmt (s : State) (c : Core) : (s.freeImage c).mgmt = s.mgmt := by unfold State.freeImage; simp
@[simp] theorem State.freeImage_inbox (s : State) (c : Core) : (s.freeImage c).inbox = s.inbox := by unfold State.freeImage; simp
@[simp] theorem State.freeImage_sent (s : State) (c : Core) : (s.freeImage c).sent = s.sent := by unfold State.freeImage; simp
@[simp] theorem State.freeImage_host (s : State) (c : Core) : (s.freeImage c).host = s.host := by unfold State.freeImage; simp
@[simp] theorem State.freeImage_placed (s : State) (c : Core) : (s.freeImage c).placed = s.placed := by unfold State.freeImage; simp
@[simp] theorem State.freeImage_resident (s : State) (c : Core) : (s.freeImage c).resident = s.resident := by unfold State.freeImage; simp
@[simp] theorem State.freeImage_tlb (s : State) (c : Core) : (s.freeImage c).tlb = s.tlb := by unfold State.freeImage; simp
@[simp] theorem State.freeImage_sysCode (s : State) (c : Core) : (s.freeImage c).sysCode = s.sysCode := by unfold State.freeImage; simp
@[simp] theorem State.freeImage_rrPart (s : State) (c : Core) : (s.freeImage c).rrPart = s.rrPart := by unfold State.freeImage; simp
@[simp] theorem State.freeImage_free (s : State) (c : Core) : (s.freeImage c).free = s.free := by unfold State.freeImage; simp
@[simp] theorem State.drop_now (s : State) (l : LaunchId) : (s.drop l).now = s.now := by unfold State.drop; exact (foldl_keeps State.now _ (by simp) _ _).trans rfl
@[simp] theorem State.drop_cur (s : State) (l : LaunchId) : (s.drop l).cur = s.cur := by unfold State.drop; exact (foldl_keeps State.cur _ (by simp) _ _).trans rfl
@[simp] theorem State.drop_launches (s : State) (l : LaunchId) : (s.drop l).launches = s.launches := by unfold State.drop; exact (foldl_keeps State.launches _ (by simp) _ _).trans rfl
@[simp] theorem State.drop_parts (s : State) (l : LaunchId) : (s.drop l).parts = s.parts := by unfold State.drop; exact (foldl_keeps State.parts _ (by simp) _ _).trans rfl
@[simp] theorem State.drop_mgmt (s : State) (l : LaunchId) : (s.drop l).mgmt = s.mgmt := by unfold State.drop; exact (foldl_keeps State.mgmt _ (by simp) _ _).trans rfl
@[simp] theorem State.drop_inbox (s : State) (l : LaunchId) : (s.drop l).inbox = s.inbox := by unfold State.drop; exact (foldl_keeps State.inbox _ (by simp) _ _).trans rfl
@[simp] theorem State.drop_sent (s : State) (l : LaunchId) : (s.drop l).sent = s.sent := by unfold State.drop; exact (foldl_keeps State.sent _ (by simp) _ _).trans rfl
@[simp] theorem State.drop_host (s : State) (l : LaunchId) : (s.drop l).host = s.host := by unfold State.drop; exact (foldl_keeps State.host _ (by simp) _ _).trans rfl
@[simp] theorem State.drop_placed (s : State) (l : LaunchId) : (s.drop l).placed = s.placed := by unfold State.drop; exact (foldl_keeps State.placed _ (by simp) _ _).trans rfl
@[simp] theorem State.drop_resident (s : State) (l : LaunchId) : (s.drop l).resident = s.resident := by unfold State.drop; exact (foldl_keeps State.resident _ (by simp) _ _).trans rfl
@[simp] theorem State.drop_tlb (s : State) (l : LaunchId) : (s.drop l).tlb = s.tlb := by unfold State.drop; exact (foldl_keeps State.tlb _ (by simp) _ _).trans rfl
@[simp] theorem State.drop_sysCode (s : State) (l : LaunchId) : (s.drop l).sysCode = s.sysCode := by unfold State.drop; exact (foldl_keeps State.sysCode _ (by simp) _ _).trans rfl
@[simp] theorem State.drop_rrPart (s : State) (l : LaunchId) : (s.drop l).rrPart = s.rrPart := by unfold State.drop; exact (foldl_keeps State.rrPart _ (by simp) _ _).trans rfl
@[simp] theorem State.park_now (s : State) (l : LaunchId) (n : Nat) : (s.park l n).now = s.now := by unfold State.park; simp only; split <;> rfl
@[simp] theorem State.park_cur (s : State) (l : LaunchId) (n : Nat) : (s.park l n).cur = s.cur := by unfold State.park; simp only; split <;> rfl
@[simp] theorem State.park_launches (s : State) (l : LaunchId) (n : Nat) : (s.park l n).launches = s.launches := by unfold State.park; simp only; split <;> rfl
@[simp] theorem State.park_parts (s : State) (l : LaunchId) (n : Nat) : (s.park l n).parts = s.parts := by unfold State.park; simp only; split <;> rfl
@[simp] theorem State.park_mgmt (s : State) (l : LaunchId) (n : Nat) : (s.park l n).mgmt = s.mgmt := by unfold State.park; simp only; split <;> rfl
@[simp] theorem State.park_inbox (s : State) (l : LaunchId) (n : Nat) : (s.park l n).inbox = s.inbox := by unfold State.park; simp only; split <;> rfl
@[simp] theorem State.park_sent (s : State) (l : LaunchId) (n : Nat) : (s.park l n).sent = s.sent := by unfold State.park; simp only; split <;> rfl
@[simp] theorem State.park_host (s : State) (l : LaunchId) (n : Nat) : (s.park l n).host = s.host := by unfold State.park; simp only; split <;> rfl
@[simp] theorem State.park_placed (s : State) (l : LaunchId) (n : Nat) : (s.park l n).placed = s.placed := by unfold State.park; simp only; split <;> rfl
@[simp] theorem State.park_resident (s : State) (l : LaunchId) (n : Nat) : (s.park l n).resident = s.resident := by unfold State.park; simp only; split <;> rfl
@[simp] theorem State.park_tlb (s : State) (l : LaunchId) (n : Nat) : (s.park l n).tlb = s.tlb := by unfold State.park; simp only; split <;> rfl
@[simp] theorem State.park_sysCode (s : State) (l : LaunchId) (n : Nat) : (s.park l n).sysCode = s.sysCode := by unfold State.park; simp only; split <;> rfl
@[simp] theorem State.park_rrPart (s : State) (l : LaunchId) (n : Nat) : (s.park l n).rrPart = s.rrPart := by unfold State.park; simp only; split <;> rfl
@[simp] theorem State.moveImage_now (s : State) (la : Launch) (c : Core) : (s.moveImage la c).now = s.now := by unfold State.moveImage; simp only; split <;> simp
@[simp] theorem State.moveImage_cur (s : State) (la : Launch) (c : Core) : (s.moveImage la c).cur = s.cur := by unfold State.moveImage; simp only; split <;> simp
@[simp] theorem State.moveImage_launches (s : State) (la : Launch) (c : Core) : (s.moveImage la c).launches = s.launches := by unfold State.moveImage; simp only; split <;> simp
@[simp] theorem State.moveImage_parts (s : State) (la : Launch) (c : Core) : (s.moveImage la c).parts = s.parts := by unfold State.moveImage; simp only; split <;> simp
@[simp] theorem State.moveImage_mgmt (s : State) (la : Launch) (c : Core) : (s.moveImage la c).mgmt = s.mgmt := by unfold State.moveImage; simp only; split <;> simp
@[simp] theorem State.moveImage_inbox (s : State) (la : Launch) (c : Core) : (s.moveImage la c).inbox = s.inbox := by unfold State.moveImage; simp only; split <;> simp
@[simp] theorem State.moveImage_sent (s : State) (la : Launch) (c : Core) : (s.moveImage la c).sent = s.sent := by unfold State.moveImage; simp only; split <;> simp
@[simp] theorem State.moveImage_host (s : State) (la : Launch) (c : Core) : (s.moveImage la c).host = s.host := by unfold State.moveImage; simp only; split <;> simp
@[simp] theorem State.moveImage_placed (s : State) (la : Launch) (c : Core) : (s.moveImage la c).placed = s.placed := by unfold State.moveImage; simp only; split <;> simp
@[simp] theorem State.moveImage_resident (s : State) (la : Launch) (c : Core) : (s.moveImage la c).resident = s.resident := by unfold State.moveImage; simp only; split <;> simp
@[simp] theorem State.moveImage_tlb (s : State) (la : Launch) (c : Core) : (s.moveImage la c).tlb = s.tlb := by unfold State.moveImage; simp only; split <;> simp
@[simp] theorem State.moveImage_sysCode (s : State) (la : Launch) (c : Core) : (s.moveImage la c).sysCode = s.sysCode := by unfold State.moveImage; simp only; split <;> simp
@[simp] theorem State.moveImage_rrPart (s : State) (la : Launch) (c : Core) : (s.moveImage la c).rrPart = s.rrPart := by unfold State.moveImage; simp only; split <;> simp
@[simp] theorem State.moveImage_free (s : State) (la : Launch) (c : Core) : (s.moveImage la c).free = s.free := by unfold State.moveImage; simp only; split <;> simp
@[simp] theorem State.unpark_now (s : State) (la : Launch) : (s.unpark la).now = s.now := by unfold State.unpark; simp only; exact (foldl_keeps State.now _ (by simp) _ _).trans rfl
@[simp] theorem State.unpark_cur (s : State) (la : Launch) : (s.unpark la).cur = s.cur := by unfold State.unpark; simp only; exact (foldl_keeps State.cur _ (by simp) _ _).trans rfl
@[simp] theorem State.unpark_launches (s : State) (la : Launch) : (s.unpark la).launches = s.launches := by unfold State.unpark; simp only; exact (foldl_keeps State.launches _ (by simp) _ _).trans rfl
@[simp] theorem State.unpark_parts (s : State) (la : Launch) : (s.unpark la).parts = s.parts := by unfold State.unpark; simp only; exact (foldl_keeps State.parts _ (by simp) _ _).trans rfl
@[simp] theorem State.unpark_mgmt (s : State) (la : Launch) : (s.unpark la).mgmt = s.mgmt := by unfold State.unpark; simp only; exact (foldl_keeps State.mgmt _ (by simp) _ _).trans rfl
@[simp] theorem State.unpark_inbox (s : State) (la : Launch) : (s.unpark la).inbox = s.inbox := by unfold State.unpark; simp only; exact (foldl_keeps State.inbox _ (by simp) _ _).trans rfl
@[simp] theorem State.unpark_sent (s : State) (la : Launch) : (s.unpark la).sent = s.sent := by unfold State.unpark; simp only; exact (foldl_keeps State.sent _ (by simp) _ _).trans rfl
@[simp] theorem State.unpark_host (s : State) (la : Launch) : (s.unpark la).host = s.host := by unfold State.unpark; simp only; exact (foldl_keeps State.host _ (by simp) _ _).trans rfl
@[simp] theorem State.unpark_placed (s : State) (la : Launch) : (s.unpark la).placed = s.placed := by unfold State.unpark; simp only; exact (foldl_keeps State.placed _ (by simp) _ _).trans rfl
@[simp] theorem State.unpark_resident (s : State) (la : Launch) : (s.unpark la).resident = s.resident := by unfold State.unpark; simp only; exact (foldl_keeps State.resident _ (by simp) _ _).trans rfl
@[simp] theorem State.unpark_tlb (s : State) (la : Launch) : (s.unpark la).tlb = s.tlb := by unfold State.unpark; simp only; exact (foldl_keeps State.tlb _ (by simp) _ _).trans rfl
@[simp] theorem State.unpark_sysCode (s : State) (la : Launch) : (s.unpark la).sysCode = s.sysCode := by unfold State.unpark; simp only; exact (foldl_keeps State.sysCode _ (by simp) _ _).trans rfl
@[simp] theorem State.unpark_rrPart (s : State) (la : Launch) : (s.unpark la).rrPart = s.rrPart := by unfold State.unpark; simp only; exact (foldl_keeps State.rrPart _ (by simp) _ _).trans rfl
@[simp] theorem State.mapPage_now (s : State) (n k : Nat) : (s.mapPage n k).now = s.now := by unfold State.mapPage; simp
@[simp] theorem State.mapPage_cur (s : State) (n k : Nat) : (s.mapPage n k).cur = s.cur := by unfold State.mapPage; simp
@[simp] theorem State.mapPage_images (s : State) (n k : Nat) : (s.mapPage n k).images = s.images := by unfold State.mapPage; simp
@[simp] theorem State.mapPage_launches (s : State) (n k : Nat) : (s.mapPage n k).launches = s.launches := by unfold State.mapPage; simp
@[simp] theorem State.mapPage_parts (s : State) (n k : Nat) : (s.mapPage n k).parts = s.parts := by unfold State.mapPage; simp
@[simp] theorem State.mapPage_mgmt (s : State) (n k : Nat) : (s.mapPage n k).mgmt = s.mgmt := by unfold State.mapPage; simp
@[simp] theorem State.mapPage_inbox (s : State) (n k : Nat) : (s.mapPage n k).inbox = s.inbox := by unfold State.mapPage; simp
@[simp] theorem State.mapPage_sent (s : State) (n k : Nat) : (s.mapPage n k).sent = s.sent := by unfold State.mapPage; simp
@[simp] theorem State.mapPage_host (s : State) (n k : Nat) : (s.mapPage n k).host = s.host := by unfold State.mapPage; simp
@[simp] theorem State.mapPage_placed (s : State) (n k : Nat) : (s.mapPage n k).placed = s.placed := by unfold State.mapPage; simp
@[simp] theorem State.mapPage_resident (s : State) (n k : Nat) : (s.mapPage n k).resident = s.resident := by unfold State.mapPage; simp
@[simp] theorem State.mapPage_sysCode (s : State) (n k : Nat) : (s.mapPage n k).sysCode = s.sysCode := by unfold State.mapPage; simp
@[simp] theorem State.mapPage_rrPart (s : State) (n k : Nat) : (s.mapPage n k).rrPart = s.rrPart := by unfold State.mapPage; simp
@[simp] theorem State.mapPage_free (s : State) (n k : Nat) : (s.mapPage n k).free = s.free := by unfold State.mapPage; simp
@[simp] theorem State.place_now (s : State) (b : Body) (k : Nat) (ws : List (BitVec 32)) : (s.place b k ws).now = s.now := by unfold State.place; simp only; split <;> simp
@[simp] theorem State.place_cur (s : State) (b : Body) (k : Nat) (ws : List (BitVec 32)) : (s.place b k ws).cur = s.cur := by unfold State.place; simp only; split <;> simp
@[simp] theorem State.place_images (s : State) (b : Body) (k : Nat) (ws : List (BitVec 32)) : (s.place b k ws).images = s.images := by unfold State.place; simp only; split <;> simp
@[simp] theorem State.place_launches (s : State) (b : Body) (k : Nat) (ws : List (BitVec 32)) : (s.place b k ws).launches = s.launches := by unfold State.place; simp only; split <;> simp
@[simp] theorem State.place_parts (s : State) (b : Body) (k : Nat) (ws : List (BitVec 32)) : (s.place b k ws).parts = s.parts := by unfold State.place; simp only; split <;> simp
@[simp] theorem State.place_mgmt (s : State) (b : Body) (k : Nat) (ws : List (BitVec 32)) : (s.place b k ws).mgmt = s.mgmt := by unfold State.place; simp only; split <;> simp
@[simp] theorem State.place_inbox (s : State) (b : Body) (k : Nat) (ws : List (BitVec 32)) : (s.place b k ws).inbox = s.inbox := by unfold State.place; simp only; split <;> simp
@[simp] theorem State.place_sent (s : State) (b : Body) (k : Nat) (ws : List (BitVec 32)) : (s.place b k ws).sent = s.sent := by unfold State.place; simp only; split <;> simp
@[simp] theorem State.place_host (s : State) (b : Body) (k : Nat) (ws : List (BitVec 32)) : (s.place b k ws).host = s.host := by unfold State.place; simp only; split <;> simp
@[simp] theorem State.place_resident (s : State) (b : Body) (k : Nat) (ws : List (BitVec 32)) : (s.place b k ws).resident = s.resident := by unfold State.place; simp only; split <;> simp
@[simp] theorem State.place_sysCode (s : State) (b : Body) (k : Nat) (ws : List (BitVec 32)) : (s.place b k ws).sysCode = s.sysCode := by unfold State.place; simp only; split <;> simp
@[simp] theorem State.place_rrPart (s : State) (b : Body) (k : Nat) (ws : List (BitVec 32)) : (s.place b k ws).rrPart = s.rrPart := by unfold State.place; simp only; split <;> simp
@[simp] theorem State.place_free (s : State) (b : Body) (k : Nat) (ws : List (BitVec 32)) : (s.place b k ws).free = s.free := by unfold State.place; simp only; split <;> simp
@[simp] theorem State.readEntry_now (s : State) (n : Nat) : (s.readEntry n).1.now = s.now := by unfold State.readEntry; simp only; split <;> simp
@[simp] theorem State.readEntry_cur (s : State) (n : Nat) : (s.readEntry n).1.cur = s.cur := by unfold State.readEntry; simp only; split <;> simp
@[simp] theorem State.readEntry_images (s : State) (n : Nat) : (s.readEntry n).1.images = s.images := by unfold State.readEntry; simp only; split <;> simp
@[simp] theorem State.readEntry_launches (s : State) (n : Nat) : (s.readEntry n).1.launches = s.launches := by unfold State.readEntry; simp only; split <;> simp
@[simp] theorem State.readEntry_parts (s : State) (n : Nat) : (s.readEntry n).1.parts = s.parts := by unfold State.readEntry; simp only; split <;> simp
@[simp] theorem State.readEntry_mgmt (s : State) (n : Nat) : (s.readEntry n).1.mgmt = s.mgmt := by unfold State.readEntry; simp only; split <;> simp
@[simp] theorem State.readEntry_inbox (s : State) (n : Nat) : (s.readEntry n).1.inbox = s.inbox := by unfold State.readEntry; simp only; split <;> simp
@[simp] theorem State.readEntry_sent (s : State) (n : Nat) : (s.readEntry n).1.sent = s.sent := by unfold State.readEntry; simp only; split <;> simp
@[simp] theorem State.readEntry_host (s : State) (n : Nat) : (s.readEntry n).1.host = s.host := by unfold State.readEntry; simp only; split <;> simp
@[simp] theorem State.readEntry_placed (s : State) (n : Nat) : (s.readEntry n).1.placed = s.placed := by unfold State.readEntry; simp only; split <;> simp
@[simp] theorem State.readEntry_resident (s : State) (n : Nat) : (s.readEntry n).1.resident = s.resident := by unfold State.readEntry; simp only; split <;> simp
@[simp] theorem State.readEntry_tlb (s : State) (n : Nat) : (s.readEntry n).1.tlb = s.tlb := by unfold State.readEntry; simp only; split <;> simp
@[simp] theorem State.readEntry_sysCode (s : State) (n : Nat) : (s.readEntry n).1.sysCode = s.sysCode := by unfold State.readEntry; simp only; split <;> simp
@[simp] theorem State.readEntry_rrPart (s : State) (n : Nat) : (s.readEntry n).1.rrPart = s.rrPart := by unfold State.readEntry; simp only; split <;> simp
@[simp] theorem State.readEntry_free (s : State) (n : Nat) : (s.readEntry n).1.free = s.free := by unfold State.readEntry; simp only; split <;> simp
@[simp] theorem State.remap_now (s : State) (n k : Nat) (e : Word) : (s.remap n k e).now = s.now := by unfold State.remap; split <;> simp
@[simp] theorem State.remap_cur (s : State) (n k : Nat) (e : Word) : (s.remap n k e).cur = s.cur := by unfold State.remap; split <;> simp
@[simp] theorem State.remap_images (s : State) (n k : Nat) (e : Word) : (s.remap n k e).images = s.images := by unfold State.remap; split <;> simp
@[simp] theorem State.remap_launches (s : State) (n k : Nat) (e : Word) : (s.remap n k e).launches = s.launches := by unfold State.remap; split <;> simp
@[simp] theorem State.remap_parts (s : State) (n k : Nat) (e : Word) : (s.remap n k e).parts = s.parts := by unfold State.remap; split <;> simp
@[simp] theorem State.remap_mgmt (s : State) (n k : Nat) (e : Word) : (s.remap n k e).mgmt = s.mgmt := by unfold State.remap; split <;> simp
@[simp] theorem State.remap_inbox (s : State) (n k : Nat) (e : Word) : (s.remap n k e).inbox = s.inbox := by unfold State.remap; split <;> simp
@[simp] theorem State.remap_sent (s : State) (n k : Nat) (e : Word) : (s.remap n k e).sent = s.sent := by unfold State.remap; split <;> simp
@[simp] theorem State.remap_host (s : State) (n k : Nat) (e : Word) : (s.remap n k e).host = s.host := by unfold State.remap; split <;> simp
@[simp] theorem State.remap_placed (s : State) (n k : Nat) (e : Word) : (s.remap n k e).placed = s.placed := by unfold State.remap; split <;> simp
@[simp] theorem State.remap_resident (s : State) (n k : Nat) (e : Word) : (s.remap n k e).resident = s.resident := by unfold State.remap; split <;> simp
@[simp] theorem State.remap_sysCode (s : State) (n k : Nat) (e : Word) : (s.remap n k e).sysCode = s.sysCode := by unfold State.remap; split <;> simp
@[simp] theorem State.remap_rrPart (s : State) (n k : Nat) (e : Word) : (s.remap n k e).rrPart = s.rrPart := by unfold State.remap; split <;> simp
@[simp] theorem State.remap_free (s : State) (n k : Nat) (e : Word) : (s.remap n k e).free = s.free := by unfold State.remap; split <;> simp
@[simp] theorem State.translate_now (s : State) (n : Nat) : (s.translate n).2.now = s.now := rfl
@[simp] theorem State.translate_cur (s : State) (n : Nat) : (s.translate n).2.cur = s.cur := rfl
@[simp] theorem State.translate_images (s : State) (n : Nat) : (s.translate n).2.images = s.images := rfl
@[simp] theorem State.translate_launches (s : State) (n : Nat) : (s.translate n).2.launches = s.launches := rfl
@[simp] theorem State.translate_parts (s : State) (n : Nat) : (s.translate n).2.parts = s.parts := rfl
@[simp] theorem State.translate_mgmt (s : State) (n : Nat) : (s.translate n).2.mgmt = s.mgmt := rfl
@[simp] theorem State.translate_inbox (s : State) (n : Nat) : (s.translate n).2.inbox = s.inbox := rfl
@[simp] theorem State.translate_sent (s : State) (n : Nat) : (s.translate n).2.sent = s.sent := rfl
@[simp] theorem State.translate_host (s : State) (n : Nat) : (s.translate n).2.host = s.host := rfl
@[simp] theorem State.translate_placed (s : State) (n : Nat) : (s.translate n).2.placed = s.placed := rfl
@[simp] theorem State.translate_resident (s : State) (n : Nat) : (s.translate n).2.resident = s.resident := rfl
@[simp] theorem State.translate_sysCode (s : State) (n : Nat) : (s.translate n).2.sysCode = s.sysCode := rfl
@[simp] theorem State.translate_rrPart (s : State) (n : Nat) : (s.translate n).2.rrPart = s.rrPart := rfl
@[simp] theorem State.translate_free (s : State) (n : Nat) : (s.translate n).2.free = s.free := rfl
@[simp] theorem State.beginFill_now (s : State) (n : Nat) (k : Option Nat) : (s.beginFill n k).1.now = s.now := by
  unfold State.beginFill; simp only; split <;> [simp; (split <;> cases k <;> simp)]
@[simp] theorem State.beginFill_cur (s : State) (n : Nat) (k : Option Nat) : (s.beginFill n k).1.cur = s.cur := by
  unfold State.beginFill; simp only; split <;> [simp; (split <;> cases k <;> simp)]
@[simp] theorem State.beginFill_images (s : State) (n : Nat) (k : Option Nat) : (s.beginFill n k).1.images = s.images := by
  unfold State.beginFill; simp only; split <;> [simp; (split <;> cases k <;> simp)]
@[simp] theorem State.beginFill_launches (s : State) (n : Nat) (k : Option Nat) : (s.beginFill n k).1.launches = s.launches := by
  unfold State.beginFill; simp only; split <;> [simp; (split <;> cases k <;> simp)]
@[simp] theorem State.beginFill_parts (s : State) (n : Nat) (k : Option Nat) : (s.beginFill n k).1.parts = s.parts := by
  unfold State.beginFill; simp only; split <;> [simp; (split <;> cases k <;> simp)]
@[simp] theorem State.beginFill_mgmt (s : State) (n : Nat) (k : Option Nat) : (s.beginFill n k).1.mgmt = s.mgmt := by
  unfold State.beginFill; simp only; split <;> [simp; (split <;> cases k <;> simp)]
@[simp] theorem State.beginFill_inbox (s : State) (n : Nat) (k : Option Nat) : (s.beginFill n k).1.inbox = s.inbox := by
  unfold State.beginFill; simp only; split <;> [simp; (split <;> cases k <;> simp)]
@[simp] theorem State.beginFill_sent (s : State) (n : Nat) (k : Option Nat) : (s.beginFill n k).1.sent = s.sent := by
  unfold State.beginFill; simp only; split <;> [simp; (split <;> cases k <;> simp)]
@[simp] theorem State.beginFill_host (s : State) (n : Nat) (k : Option Nat) : (s.beginFill n k).1.host = s.host := by
  unfold State.beginFill; simp only; split <;> [simp; (split <;> cases k <;> simp)]
@[simp] theorem State.beginFill_placed (s : State) (n : Nat) (k : Option Nat) : (s.beginFill n k).1.placed = s.placed := by
  unfold State.beginFill; simp only; split <;> [simp; (split <;> cases k <;> simp)]
@[simp] theorem State.beginFill_resident (s : State) (n : Nat) (k : Option Nat) : (s.beginFill n k).1.resident = s.resident := by
  unfold State.beginFill; simp only; split <;> [simp; (split <;> cases k <;> simp)]
@[simp] theorem State.beginFill_sysCode (s : State) (n : Nat) (k : Option Nat) : (s.beginFill n k).1.sysCode = s.sysCode := by
  unfold State.beginFill; simp only; split <;> [simp; (split <;> cases k <;> simp)]
@[simp] theorem State.beginFill_rrPart (s : State) (n : Nat) (k : Option Nat) : (s.beginFill n k).1.rrPart = s.rrPart := by
  unfold State.beginFill; simp only; split <;> [simp; (split <;> cases k <;> simp)]
@[simp] theorem State.beginFill_free (s : State) (n : Nat) (k : Option Nat) : (s.beginFill n k).1.free = s.free := by
  unfold State.beginFill; simp only; split <;> [simp; (split <;> cases k <;> simp)]
@[simp] theorem State.findSlot_now (s : State) (n : Nat) : (s.findSlot n).1.now = s.now := State.readHbm_now ..
@[simp] theorem State.findSlot_cur (s : State) (n : Nat) : (s.findSlot n).1.cur = s.cur := State.readHbm_cur ..
@[simp] theorem State.findSlot_images (s : State) (n : Nat) : (s.findSlot n).1.images = s.images := State.readHbm_images ..
@[simp] theorem State.findSlot_launches (s : State) (n : Nat) : (s.findSlot n).1.launches = s.launches := State.readHbm_launches ..
@[simp] theorem State.findSlot_parts (s : State) (n : Nat) : (s.findSlot n).1.parts = s.parts := State.readHbm_parts ..
@[simp] theorem State.findSlot_mgmt (s : State) (n : Nat) : (s.findSlot n).1.mgmt = s.mgmt := State.readHbm_mgmt ..
@[simp] theorem State.findSlot_inbox (s : State) (n : Nat) : (s.findSlot n).1.inbox = s.inbox := State.readHbm_inbox ..
@[simp] theorem State.findSlot_sent (s : State) (n : Nat) : (s.findSlot n).1.sent = s.sent := State.readHbm_sent ..
@[simp] theorem State.findSlot_host (s : State) (n : Nat) : (s.findSlot n).1.host = s.host := State.readHbm_host ..
@[simp] theorem State.findSlot_placed (s : State) (n : Nat) : (s.findSlot n).1.placed = s.placed := State.readHbm_placed ..
@[simp] theorem State.findSlot_resident (s : State) (n : Nat) : (s.findSlot n).1.resident = s.resident := State.readHbm_resident ..
@[simp] theorem State.findSlot_sysCode (s : State) (n : Nat) : (s.findSlot n).1.sysCode = s.sysCode := State.readHbm_sysCode ..
@[simp] theorem State.findSlot_rrPart (s : State) (n : Nat) : (s.findSlot n).1.rrPart = s.rrPart := State.readHbm_rrPart ..
@[simp] theorem State.findSlot_free (s : State) (n : Nat) : (s.findSlot n).1.free = s.free := State.readHbm_free ..
@[simp] theorem State.writeArea_now (s : State) (p : Partition) (r : List Nat) (b : List Byte) : (s.writeArea p r b).now = s.now := by unfold State.writeArea; exact foldl_keeps State.now _ (by simp) _ _
@[simp] theorem State.writeArea_cur (s : State) (p : Partition) (r : List Nat) (b : List Byte) : (s.writeArea p r b).cur = s.cur := by unfold State.writeArea; exact foldl_keeps State.cur _ (by simp) _ _
@[simp] theorem State.writeArea_images (s : State) (p : Partition) (r : List Nat) (b : List Byte) : (s.writeArea p r b).images = s.images := by unfold State.writeArea; exact foldl_keeps State.images _ (by simp) _ _
@[simp] theorem State.writeArea_launches (s : State) (p : Partition) (r : List Nat) (b : List Byte) : (s.writeArea p r b).launches = s.launches := by unfold State.writeArea; exact foldl_keeps State.launches _ (by simp) _ _
@[simp] theorem State.writeArea_parts (s : State) (p : Partition) (r : List Nat) (b : List Byte) : (s.writeArea p r b).parts = s.parts := by unfold State.writeArea; exact foldl_keeps State.parts _ (by simp) _ _
@[simp] theorem State.writeArea_mgmt (s : State) (p : Partition) (r : List Nat) (b : List Byte) : (s.writeArea p r b).mgmt = s.mgmt := by unfold State.writeArea; exact foldl_keeps State.mgmt _ (by simp) _ _
@[simp] theorem State.writeArea_inbox (s : State) (p : Partition) (r : List Nat) (b : List Byte) : (s.writeArea p r b).inbox = s.inbox := by unfold State.writeArea; exact foldl_keeps State.inbox _ (by simp) _ _
@[simp] theorem State.writeArea_sent (s : State) (p : Partition) (r : List Nat) (b : List Byte) : (s.writeArea p r b).sent = s.sent := by unfold State.writeArea; exact foldl_keeps State.sent _ (by simp) _ _
@[simp] theorem State.writeArea_host (s : State) (p : Partition) (r : List Nat) (b : List Byte) : (s.writeArea p r b).host = s.host := by unfold State.writeArea; exact foldl_keeps State.host _ (by simp) _ _
@[simp] theorem State.writeArea_placed (s : State) (p : Partition) (r : List Nat) (b : List Byte) : (s.writeArea p r b).placed = s.placed := by unfold State.writeArea; exact foldl_keeps State.placed _ (by simp) _ _
@[simp] theorem State.writeArea_resident (s : State) (p : Partition) (r : List Nat) (b : List Byte) : (s.writeArea p r b).resident = s.resident := by unfold State.writeArea; exact foldl_keeps State.resident _ (by simp) _ _
@[simp] theorem State.writeArea_tlb (s : State) (p : Partition) (r : List Nat) (b : List Byte) : (s.writeArea p r b).tlb = s.tlb := by unfold State.writeArea; exact foldl_keeps State.tlb _ (by simp) _ _
@[simp] theorem State.writeArea_sysCode (s : State) (p : Partition) (r : List Nat) (b : List Byte) : (s.writeArea p r b).sysCode = s.sysCode := by unfold State.writeArea; exact foldl_keeps State.sysCode _ (by simp) _ _
@[simp] theorem State.writeArea_rrPart (s : State) (p : Partition) (r : List Nat) (b : List Byte) : (s.writeArea p r b).rrPart = s.rrPart := by unfold State.writeArea; exact foldl_keeps State.rrPart _ (by simp) _ _
@[simp] theorem State.writeArea_free (s : State) (p : Partition) (r : List Nat) (b : List Byte) : (s.writeArea p r b).free = s.free := by unfold State.writeArea; exact foldl_keeps State.free _ (by simp) _ _
@[simp] theorem State.readArea_now (s : State) (p : Partition) (n : Nat) (r : List Nat) : (s.readArea p n r).1.now = s.now := by unfold State.readArea; exact foldl_keeps (fun t : State × List Byte × Option (Nat × Word) => t.1.now) _ (by simp) _ _
@[simp] theorem State.readArea_cur (s : State) (p : Partition) (n : Nat) (r : List Nat) : (s.readArea p n r).1.cur = s.cur := by unfold State.readArea; exact foldl_keeps (fun t : State × List Byte × Option (Nat × Word) => t.1.cur) _ (by simp) _ _
@[simp] theorem State.readArea_images (s : State) (p : Partition) (n : Nat) (r : List Nat) : (s.readArea p n r).1.images = s.images := by unfold State.readArea; exact foldl_keeps (fun t : State × List Byte × Option (Nat × Word) => t.1.images) _ (by simp) _ _
@[simp] theorem State.readArea_launches (s : State) (p : Partition) (n : Nat) (r : List Nat) : (s.readArea p n r).1.launches = s.launches := by unfold State.readArea; exact foldl_keeps (fun t : State × List Byte × Option (Nat × Word) => t.1.launches) _ (by simp) _ _
@[simp] theorem State.readArea_parts (s : State) (p : Partition) (n : Nat) (r : List Nat) : (s.readArea p n r).1.parts = s.parts := by unfold State.readArea; exact foldl_keeps (fun t : State × List Byte × Option (Nat × Word) => t.1.parts) _ (by simp) _ _
@[simp] theorem State.readArea_mgmt (s : State) (p : Partition) (n : Nat) (r : List Nat) : (s.readArea p n r).1.mgmt = s.mgmt := by unfold State.readArea; exact foldl_keeps (fun t : State × List Byte × Option (Nat × Word) => t.1.mgmt) _ (by simp) _ _
@[simp] theorem State.readArea_inbox (s : State) (p : Partition) (n : Nat) (r : List Nat) : (s.readArea p n r).1.inbox = s.inbox := by unfold State.readArea; exact foldl_keeps (fun t : State × List Byte × Option (Nat × Word) => t.1.inbox) _ (by simp) _ _
@[simp] theorem State.readArea_sent (s : State) (p : Partition) (n : Nat) (r : List Nat) : (s.readArea p n r).1.sent = s.sent := by unfold State.readArea; exact foldl_keeps (fun t : State × List Byte × Option (Nat × Word) => t.1.sent) _ (by simp) _ _
@[simp] theorem State.readArea_host (s : State) (p : Partition) (n : Nat) (r : List Nat) : (s.readArea p n r).1.host = s.host := by unfold State.readArea; exact foldl_keeps (fun t : State × List Byte × Option (Nat × Word) => t.1.host) _ (by simp) _ _
@[simp] theorem State.readArea_placed (s : State) (p : Partition) (n : Nat) (r : List Nat) : (s.readArea p n r).1.placed = s.placed := by unfold State.readArea; exact foldl_keeps (fun t : State × List Byte × Option (Nat × Word) => t.1.placed) _ (by simp) _ _
@[simp] theorem State.readArea_resident (s : State) (p : Partition) (n : Nat) (r : List Nat) : (s.readArea p n r).1.resident = s.resident := by unfold State.readArea; exact foldl_keeps (fun t : State × List Byte × Option (Nat × Word) => t.1.resident) _ (by simp) _ _
@[simp] theorem State.readArea_tlb (s : State) (p : Partition) (n : Nat) (r : List Nat) : (s.readArea p n r).1.tlb = s.tlb := by unfold State.readArea; exact foldl_keeps (fun t : State × List Byte × Option (Nat × Word) => t.1.tlb) _ (by simp) _ _
@[simp] theorem State.readArea_sysCode (s : State) (p : Partition) (n : Nat) (r : List Nat) : (s.readArea p n r).1.sysCode = s.sysCode := by unfold State.readArea; exact foldl_keeps (fun t : State × List Byte × Option (Nat × Word) => t.1.sysCode) _ (by simp) _ _
@[simp] theorem State.readArea_rrPart (s : State) (p : Partition) (n : Nat) (r : List Nat) : (s.readArea p n r).1.rrPart = s.rrPart := by unfold State.readArea; exact foldl_keeps (fun t : State × List Byte × Option (Nat × Word) => t.1.rrPart) _ (by simp) _ _
@[simp] theorem State.readArea_free (s : State) (p : Partition) (n : Nat) (r : List Nat) : (s.readArea p n r).1.free = s.free := by unfold State.readArea; exact foldl_keeps (fun t : State × List Byte × Option (Nat × Word) => t.1.free) _ (by simp) _ _
@[simp] theorem State.areaBody_now (s : State) (b : Body) (p : Partition) : (s.areaBody b p).1.now = s.now := by unfold State.areaBody; split <;> simp
@[simp] theorem State.areaBody_cur (s : State) (b : Body) (p : Partition) : (s.areaBody b p).1.cur = s.cur := by unfold State.areaBody; split <;> simp
@[simp] theorem State.areaBody_images (s : State) (b : Body) (p : Partition) : (s.areaBody b p).1.images = s.images := by unfold State.areaBody; split <;> simp
@[simp] theorem State.areaBody_launches (s : State) (b : Body) (p : Partition) : (s.areaBody b p).1.launches = s.launches := by unfold State.areaBody; split <;> simp
@[simp] theorem State.areaBody_parts (s : State) (b : Body) (p : Partition) : (s.areaBody b p).1.parts = s.parts := by unfold State.areaBody; split <;> simp
@[simp] theorem State.areaBody_mgmt (s : State) (b : Body) (p : Partition) : (s.areaBody b p).1.mgmt = s.mgmt := by unfold State.areaBody; split <;> simp
@[simp] theorem State.areaBody_inbox (s : State) (b : Body) (p : Partition) : (s.areaBody b p).1.inbox = s.inbox := by unfold State.areaBody; split <;> simp
@[simp] theorem State.areaBody_sent (s : State) (b : Body) (p : Partition) : (s.areaBody b p).1.sent = s.sent := by unfold State.areaBody; split <;> simp
@[simp] theorem State.areaBody_host (s : State) (b : Body) (p : Partition) : (s.areaBody b p).1.host = s.host := by unfold State.areaBody; split <;> simp
@[simp] theorem State.areaBody_placed (s : State) (b : Body) (p : Partition) : (s.areaBody b p).1.placed = s.placed := by unfold State.areaBody; split <;> simp
@[simp] theorem State.areaBody_resident (s : State) (b : Body) (p : Partition) : (s.areaBody b p).1.resident = s.resident := by unfold State.areaBody; split <;> simp
@[simp] theorem State.areaBody_tlb (s : State) (b : Body) (p : Partition) : (s.areaBody b p).1.tlb = s.tlb := by unfold State.areaBody; split <;> simp
@[simp] theorem State.areaBody_sysCode (s : State) (b : Body) (p : Partition) : (s.areaBody b p).1.sysCode = s.sysCode := by unfold State.areaBody; split <;> simp
@[simp] theorem State.areaBody_rrPart (s : State) (b : Body) (p : Partition) : (s.areaBody b p).1.rrPart = s.rrPart := by unfold State.areaBody; split <;> simp
@[simp] theorem State.areaBody_free (s : State) (b : Body) (p : Partition) : (s.areaBody b p).1.free = s.free := by unfold State.areaBody; split <;> simp
@[simp] theorem State.intoImage_now (s : State) (l : List Nat) : (s.intoImage l).now = s.now := by unfold State.intoImage; split <;> (try split) <;> simp
@[simp] theorem State.intoImage_cur (s : State) (l : List Nat) : (s.intoImage l).cur = s.cur := by unfold State.intoImage; split <;> (try split) <;> simp
@[simp] theorem State.intoImage_images (s : State) (l : List Nat) : (s.intoImage l).images = s.images := by unfold State.intoImage; split <;> (try split) <;> simp
@[simp] theorem State.intoImage_launches (s : State) (l : List Nat) : (s.intoImage l).launches = s.launches := by unfold State.intoImage; split <;> (try split) <;> simp
@[simp] theorem State.intoImage_parts (s : State) (l : List Nat) : (s.intoImage l).parts = s.parts := by unfold State.intoImage; split <;> (try split) <;> simp
@[simp] theorem State.intoImage_mgmt (s : State) (l : List Nat) : (s.intoImage l).mgmt = s.mgmt := by unfold State.intoImage; split <;> (try split) <;> simp
@[simp] theorem State.intoImage_inbox (s : State) (l : List Nat) : (s.intoImage l).inbox = s.inbox := by unfold State.intoImage; split <;> (try split) <;> simp
@[simp] theorem State.intoImage_sent (s : State) (l : List Nat) : (s.intoImage l).sent = s.sent := by unfold State.intoImage; split <;> (try split) <;> simp
@[simp] theorem State.intoImage_host (s : State) (l : List Nat) : (s.intoImage l).host = s.host := by unfold State.intoImage; split <;> (try split) <;> simp
@[simp] theorem State.intoImage_placed (s : State) (l : List Nat) : (s.intoImage l).placed = s.placed := by unfold State.intoImage; split <;> (try split) <;> simp
@[simp] theorem State.intoImage_resident (s : State) (l : List Nat) : (s.intoImage l).resident = s.resident := by unfold State.intoImage; split <;> (try split) <;> simp
@[simp] theorem State.intoImage_tlb (s : State) (l : List Nat) : (s.intoImage l).tlb = s.tlb := by unfold State.intoImage; split <;> (try split) <;> simp
@[simp] theorem State.intoImage_sysCode (s : State) (l : List Nat) : (s.intoImage l).sysCode = s.sysCode := by unfold State.intoImage; split <;> (try split) <;> simp
@[simp] theorem State.intoImage_rrPart (s : State) (l : List Nat) : (s.intoImage l).rrPart = s.rrPart := by unfold State.intoImage; split <;> (try split) <;> simp
@[simp] theorem State.intoImage_free (s : State) (l : List Nat) : (s.intoImage l).free = s.free := by unfold State.intoImage; split <;> (try split) <;> simp

/-! ## A core -/

@[simp] theorem Core.owes_lid (now k cls : Nat) (w : Deferred) (c : Core) : (c.owes now k cls w).lid = c.lid := rfl
@[simp] theorem Core.owes_index (now k cls : Nat) (w : Deferred) (c : Core) : (c.owes now k cls w).index = c.index := rfl
@[simp] theorem Core.owes_px (now k cls : Nat) (w : Deferred) (c : Core) : (c.owes now k cls w).px = c.px := rfl
@[simp] theorem Core.owes_py (now k cls : Nat) (w : Deferred) (c : Core) : (c.owes now k cls w).py = c.py := rfl
@[simp] theorem Core.owes_code (now k cls : Nat) (w : Deferred) (c : Core) : (c.owes now k cls w).code = c.code := rfl
@[simp] theorem Core.owes_ftab (now k cls : Nat) (w : Deferred) (c : Core) : (c.owes now k cls w).ftab = c.ftab := rfl
@[simp] theorem Core.owes_regs (now k cls : Nat) (w : Deferred) (c : Core) : (c.owes now k cls w).regs = c.regs := rfl
@[simp] theorem Core.owes_seq (now k cls : Nat) (w : Deferred) (c : Core) : (c.owes now k cls w).seq = c.seq := rfl
@[simp] theorem Core.owes_sp (now k cls : Nat) (w : Deferred) (c : Core) : (c.owes now k cls w).sp = c.sp := rfl
@[simp] theorem Core.owes_vec (now k cls : Nat) (w : Deferred) (c : Core) : (c.owes now k cls w).vec = c.vec := rfl
@[simp] theorem Core.owes_arr (now k cls : Nat) (w : Deferred) (c : Core) : (c.owes now k cls w).arr = c.arr := rfl
@[simp] theorem Core.owes_q (now k cls : Nat) (w : Deferred) (c : Core) : (c.owes now k cls w).q = c.q := rfl
@[simp] theorem Core.owes_chan (now k cls : Nat) (w : Deferred) (c : Core) : (c.owes now k cls w).chan = c.chan := rfl
@[simp] theorem Core.owes_net (now k cls : Nat) (w : Deferred) (c : Core) : (c.owes now k cls w).net = c.net := rfl
@[simp] theorem Core.owes_flights (now k cls : Nat) (w : Deferred) (c : Core) : (c.owes now k cls w).flights = c.flights := rfl
@[simp] theorem Core.owes_nextUid (now k cls : Nat) (w : Deferred) (c : Core) : (c.owes now k cls w).nextUid = c.nextUid := rfl
@[simp] theorem Core.owes_free (now k cls : Nat) (w : Deferred) (c : Core) : (c.owes now k cls w).free = c.free := rfl
@[simp] theorem Core.owes_trap (now k cls : Nat) (w : Deferred) (c : Core) : (c.owes now k cls w).trap = c.trap := rfl
@[simp] theorem Core.owes_wp (now k cls : Nat) (w : Deferred) (c : Core) : (c.owes now k cls w).wp = c.wp := rfl
@[simp] theorem Core.owes_windows (now k cls : Nat) (w : Deferred) (c : Core) : (c.owes now k cls w).windows = c.windows := rfl
@[simp] theorem Core.owes_imageRow (now k cls : Nat) (w : Deferred) (c : Core) : (c.owes now k cls w).imageRow = c.imageRow := rfl
@[simp] theorem Core.owes_imageMask (now k cls : Nat) (w : Deferred) (c : Core) : (c.owes now k cls w).imageMask = c.imageMask := rfl
@[simp] theorem Core.owes_imageLand (now k cls : Nat) (w : Deferred) (c : Core) : (c.owes now k cls w).imageLand = c.imageLand := rfl
@[simp] theorem Core.owes_backAt (now k cls : Nat) (w : Deferred) (c : Core) : (c.owes now k cls w).backAt = c.backAt := rfl
@[simp] theorem Core.owes_phys (now k cls : Nat) (w : Deferred) (c : Core) : (c.owes now k cls w).phys = c.phys := rfl
@[simp] theorem Core.later_lid (x : Ctx) (cls p n : Nat) (w : Deferred) (c : Core) : (c.later x cls p n w).lid = c.lid := rfl
@[simp] theorem Core.later_index (x : Ctx) (cls p n : Nat) (w : Deferred) (c : Core) : (c.later x cls p n w).index = c.index := rfl
@[simp] theorem Core.later_px (x : Ctx) (cls p n : Nat) (w : Deferred) (c : Core) : (c.later x cls p n w).px = c.px := rfl
@[simp] theorem Core.later_py (x : Ctx) (cls p n : Nat) (w : Deferred) (c : Core) : (c.later x cls p n w).py = c.py := rfl
@[simp] theorem Core.later_code (x : Ctx) (cls p n : Nat) (w : Deferred) (c : Core) : (c.later x cls p n w).code = c.code := rfl
@[simp] theorem Core.later_ftab (x : Ctx) (cls p n : Nat) (w : Deferred) (c : Core) : (c.later x cls p n w).ftab = c.ftab := rfl
@[simp] theorem Core.later_regs (x : Ctx) (cls p n : Nat) (w : Deferred) (c : Core) : (c.later x cls p n w).regs = c.regs := rfl
@[simp] theorem Core.later_seq (x : Ctx) (cls p n : Nat) (w : Deferred) (c : Core) : (c.later x cls p n w).seq = c.seq := rfl
@[simp] theorem Core.later_sp (x : Ctx) (cls p n : Nat) (w : Deferred) (c : Core) : (c.later x cls p n w).sp = c.sp := rfl
@[simp] theorem Core.later_vec (x : Ctx) (cls p n : Nat) (w : Deferred) (c : Core) : (c.later x cls p n w).vec = c.vec := rfl
@[simp] theorem Core.later_arr (x : Ctx) (cls p n : Nat) (w : Deferred) (c : Core) : (c.later x cls p n w).arr = c.arr := rfl
@[simp] theorem Core.later_q (x : Ctx) (cls p n : Nat) (w : Deferred) (c : Core) : (c.later x cls p n w).q = c.q := rfl
@[simp] theorem Core.later_chan (x : Ctx) (cls p n : Nat) (w : Deferred) (c : Core) : (c.later x cls p n w).chan = c.chan := rfl
@[simp] theorem Core.later_net (x : Ctx) (cls p n : Nat) (w : Deferred) (c : Core) : (c.later x cls p n w).net = c.net := rfl
@[simp] theorem Core.later_flights (x : Ctx) (cls p n : Nat) (w : Deferred) (c : Core) : (c.later x cls p n w).flights = c.flights := rfl
@[simp] theorem Core.later_nextUid (x : Ctx) (cls p n : Nat) (w : Deferred) (c : Core) : (c.later x cls p n w).nextUid = c.nextUid := rfl
@[simp] theorem Core.later_free (x : Ctx) (cls p n : Nat) (w : Deferred) (c : Core) : (c.later x cls p n w).free = c.free := rfl
@[simp] theorem Core.later_trap (x : Ctx) (cls p n : Nat) (w : Deferred) (c : Core) : (c.later x cls p n w).trap = c.trap := rfl
@[simp] theorem Core.later_wp (x : Ctx) (cls p n : Nat) (w : Deferred) (c : Core) : (c.later x cls p n w).wp = c.wp := rfl
@[simp] theorem Core.later_windows (x : Ctx) (cls p n : Nat) (w : Deferred) (c : Core) : (c.later x cls p n w).windows = c.windows := rfl
@[simp] theorem Core.later_imageRow (x : Ctx) (cls p n : Nat) (w : Deferred) (c : Core) : (c.later x cls p n w).imageRow = c.imageRow := rfl
@[simp] theorem Core.later_imageMask (x : Ctx) (cls p n : Nat) (w : Deferred) (c : Core) : (c.later x cls p n w).imageMask = c.imageMask := rfl
@[simp] theorem Core.later_imageLand (x : Ctx) (cls p n : Nat) (w : Deferred) (c : Core) : (c.later x cls p n w).imageLand = c.imageLand := rfl
@[simp] theorem Core.later_backAt (x : Ctx) (cls p n : Nat) (w : Deferred) (c : Core) : (c.later x cls p n w).backAt = c.backAt := rfl
@[simp] theorem Core.later_phys (x : Ctx) (cls p n : Nat) (w : Deferred) (c : Core) : (c.later x cls p n w).phys = c.phys := rfl
@[simp] theorem Core.fly_lid (f : Flight) (c : Core) : (c.fly f).lid = c.lid := rfl
@[simp] theorem Core.fly_index (f : Flight) (c : Core) : (c.fly f).index = c.index := rfl
@[simp] theorem Core.fly_px (f : Flight) (c : Core) : (c.fly f).px = c.px := rfl
@[simp] theorem Core.fly_py (f : Flight) (c : Core) : (c.fly f).py = c.py := rfl
@[simp] theorem Core.fly_code (f : Flight) (c : Core) : (c.fly f).code = c.code := rfl
@[simp] theorem Core.fly_ftab (f : Flight) (c : Core) : (c.fly f).ftab = c.ftab := rfl
@[simp] theorem Core.fly_regs (f : Flight) (c : Core) : (c.fly f).regs = c.regs := rfl
@[simp] theorem Core.fly_seq (f : Flight) (c : Core) : (c.fly f).seq = c.seq := rfl
@[simp] theorem Core.fly_sp (f : Flight) (c : Core) : (c.fly f).sp = c.sp := rfl
@[simp] theorem Core.fly_vec (f : Flight) (c : Core) : (c.fly f).vec = c.vec := rfl
@[simp] theorem Core.fly_arr (f : Flight) (c : Core) : (c.fly f).arr = c.arr := rfl
@[simp] theorem Core.fly_q (f : Flight) (c : Core) : (c.fly f).q = c.q := rfl
@[simp] theorem Core.fly_chan (f : Flight) (c : Core) : (c.fly f).chan = c.chan := rfl
@[simp] theorem Core.fly_net (f : Flight) (c : Core) : (c.fly f).net = c.net := rfl
@[simp] theorem Core.fly_pends (f : Flight) (c : Core) : (c.fly f).pends = c.pends := rfl
@[simp] theorem Core.fly_free (f : Flight) (c : Core) : (c.fly f).free = c.free := rfl
@[simp] theorem Core.fly_trap (f : Flight) (c : Core) : (c.fly f).trap = c.trap := rfl
@[simp] theorem Core.fly_wp (f : Flight) (c : Core) : (c.fly f).wp = c.wp := rfl
@[simp] theorem Core.fly_windows (f : Flight) (c : Core) : (c.fly f).windows = c.windows := rfl
@[simp] theorem Core.fly_imageRow (f : Flight) (c : Core) : (c.fly f).imageRow = c.imageRow := rfl
@[simp] theorem Core.fly_imageMask (f : Flight) (c : Core) : (c.fly f).imageMask = c.imageMask := rfl
@[simp] theorem Core.fly_imageLand (f : Flight) (c : Core) : (c.fly f).imageLand = c.imageLand := rfl
@[simp] theorem Core.fly_backAt (f : Flight) (c : Core) : (c.fly f).backAt = c.backAt := rfl
@[simp] theorem Core.fly_phys (f : Flight) (c : Core) : (c.fly f).phys = c.phys := rfl
@[simp] theorem Core.setFlight_lid (f : Flight) (c : Core) : (c.setFlight f).lid = c.lid := rfl
@[simp] theorem Core.setFlight_index (f : Flight) (c : Core) : (c.setFlight f).index = c.index := rfl
@[simp] theorem Core.setFlight_px (f : Flight) (c : Core) : (c.setFlight f).px = c.px := rfl
@[simp] theorem Core.setFlight_py (f : Flight) (c : Core) : (c.setFlight f).py = c.py := rfl
@[simp] theorem Core.setFlight_code (f : Flight) (c : Core) : (c.setFlight f).code = c.code := rfl
@[simp] theorem Core.setFlight_ftab (f : Flight) (c : Core) : (c.setFlight f).ftab = c.ftab := rfl
@[simp] theorem Core.setFlight_regs (f : Flight) (c : Core) : (c.setFlight f).regs = c.regs := rfl
@[simp] theorem Core.setFlight_seq (f : Flight) (c : Core) : (c.setFlight f).seq = c.seq := rfl
@[simp] theorem Core.setFlight_sp (f : Flight) (c : Core) : (c.setFlight f).sp = c.sp := rfl
@[simp] theorem Core.setFlight_vec (f : Flight) (c : Core) : (c.setFlight f).vec = c.vec := rfl
@[simp] theorem Core.setFlight_arr (f : Flight) (c : Core) : (c.setFlight f).arr = c.arr := rfl
@[simp] theorem Core.setFlight_q (f : Flight) (c : Core) : (c.setFlight f).q = c.q := rfl
@[simp] theorem Core.setFlight_chan (f : Flight) (c : Core) : (c.setFlight f).chan = c.chan := rfl
@[simp] theorem Core.setFlight_net (f : Flight) (c : Core) : (c.setFlight f).net = c.net := rfl
@[simp] theorem Core.setFlight_pends (f : Flight) (c : Core) : (c.setFlight f).pends = c.pends := rfl
@[simp] theorem Core.setFlight_nextUid (f : Flight) (c : Core) : (c.setFlight f).nextUid = c.nextUid := rfl
@[simp] theorem Core.setFlight_free (f : Flight) (c : Core) : (c.setFlight f).free = c.free := rfl
@[simp] theorem Core.setFlight_trap (f : Flight) (c : Core) : (c.setFlight f).trap = c.trap := rfl
@[simp] theorem Core.setFlight_wp (f : Flight) (c : Core) : (c.setFlight f).wp = c.wp := rfl
@[simp] theorem Core.setFlight_windows (f : Flight) (c : Core) : (c.setFlight f).windows = c.windows := rfl
@[simp] theorem Core.setFlight_imageRow (f : Flight) (c : Core) : (c.setFlight f).imageRow = c.imageRow := rfl
@[simp] theorem Core.setFlight_imageMask (f : Flight) (c : Core) : (c.setFlight f).imageMask = c.imageMask := rfl
@[simp] theorem Core.setFlight_imageLand (f : Flight) (c : Core) : (c.setFlight f).imageLand = c.imageLand := rfl
@[simp] theorem Core.setFlight_backAt (f : Flight) (c : Core) : (c.setFlight f).backAt = c.backAt := rfl
@[simp] theorem Core.setFlight_phys (f : Flight) (c : Core) : (c.setFlight f).phys = c.phys := rfl
@[simp] theorem Core.moved_lid (f : Flight) (j : Nat) (c : Core) : (c.moved f j).lid = c.lid := rfl
@[simp] theorem Core.moved_index (f : Flight) (j : Nat) (c : Core) : (c.moved f j).index = c.index := rfl
@[simp] theorem Core.moved_px (f : Flight) (j : Nat) (c : Core) : (c.moved f j).px = c.px := rfl
@[simp] theorem Core.moved_py (f : Flight) (j : Nat) (c : Core) : (c.moved f j).py = c.py := rfl
@[simp] theorem Core.moved_code (f : Flight) (j : Nat) (c : Core) : (c.moved f j).code = c.code := rfl
@[simp] theorem Core.moved_ftab (f : Flight) (j : Nat) (c : Core) : (c.moved f j).ftab = c.ftab := rfl
@[simp] theorem Core.moved_regs (f : Flight) (j : Nat) (c : Core) : (c.moved f j).regs = c.regs := rfl
@[simp] theorem Core.moved_seq (f : Flight) (j : Nat) (c : Core) : (c.moved f j).seq = c.seq := rfl
@[simp] theorem Core.moved_sp (f : Flight) (j : Nat) (c : Core) : (c.moved f j).sp = c.sp := rfl
@[simp] theorem Core.moved_vec (f : Flight) (j : Nat) (c : Core) : (c.moved f j).vec = c.vec := rfl
@[simp] theorem Core.moved_arr (f : Flight) (j : Nat) (c : Core) : (c.moved f j).arr = c.arr := rfl
@[simp] theorem Core.moved_q (f : Flight) (j : Nat) (c : Core) : (c.moved f j).q = c.q := rfl
@[simp] theorem Core.moved_chan (f : Flight) (j : Nat) (c : Core) : (c.moved f j).chan = c.chan := rfl
@[simp] theorem Core.moved_net (f : Flight) (j : Nat) (c : Core) : (c.moved f j).net = c.net := rfl
@[simp] theorem Core.moved_pends (f : Flight) (j : Nat) (c : Core) : (c.moved f j).pends = c.pends := rfl
@[simp] theorem Core.moved_nextUid (f : Flight) (j : Nat) (c : Core) : (c.moved f j).nextUid = c.nextUid := rfl
@[simp] theorem Core.moved_free (f : Flight) (j : Nat) (c : Core) : (c.moved f j).free = c.free := rfl
@[simp] theorem Core.moved_trap (f : Flight) (j : Nat) (c : Core) : (c.moved f j).trap = c.trap := rfl
@[simp] theorem Core.moved_wp (f : Flight) (j : Nat) (c : Core) : (c.moved f j).wp = c.wp := rfl
@[simp] theorem Core.moved_windows (f : Flight) (j : Nat) (c : Core) : (c.moved f j).windows = c.windows := rfl
@[simp] theorem Core.moved_imageRow (f : Flight) (j : Nat) (c : Core) : (c.moved f j).imageRow = c.imageRow := rfl
@[simp] theorem Core.moved_imageMask (f : Flight) (j : Nat) (c : Core) : (c.moved f j).imageMask = c.imageMask := rfl
@[simp] theorem Core.moved_imageLand (f : Flight) (j : Nat) (c : Core) : (c.moved f j).imageLand = c.imageLand := rfl
@[simp] theorem Core.moved_backAt (f : Flight) (j : Nat) (c : Core) : (c.moved f j).backAt = c.backAt := rfl
@[simp] theorem Core.moved_phys (f : Flight) (j : Nat) (c : Core) : (c.moved f j).phys = c.phys := rfl
@[simp] theorem Core.busy_lid (u : Nat) (c : Core) : (c.busy u).lid = c.lid := rfl
@[simp] theorem Core.busy_index (u : Nat) (c : Core) : (c.busy u).index = c.index := rfl
@[simp] theorem Core.busy_px (u : Nat) (c : Core) : (c.busy u).px = c.px := rfl
@[simp] theorem Core.busy_py (u : Nat) (c : Core) : (c.busy u).py = c.py := rfl
@[simp] theorem Core.busy_code (u : Nat) (c : Core) : (c.busy u).code = c.code := rfl
@[simp] theorem Core.busy_ftab (u : Nat) (c : Core) : (c.busy u).ftab = c.ftab := rfl
@[simp] theorem Core.busy_regs (u : Nat) (c : Core) : (c.busy u).regs = c.regs := rfl
@[simp] theorem Core.busy_sp (u : Nat) (c : Core) : (c.busy u).sp = c.sp := rfl
@[simp] theorem Core.busy_vec (u : Nat) (c : Core) : (c.busy u).vec = c.vec := rfl
@[simp] theorem Core.busy_arr (u : Nat) (c : Core) : (c.busy u).arr = c.arr := rfl
@[simp] theorem Core.busy_q (u : Nat) (c : Core) : (c.busy u).q = c.q := rfl
@[simp] theorem Core.busy_chan (u : Nat) (c : Core) : (c.busy u).chan = c.chan := rfl
@[simp] theorem Core.busy_net (u : Nat) (c : Core) : (c.busy u).net = c.net := rfl
@[simp] theorem Core.busy_pends (u : Nat) (c : Core) : (c.busy u).pends = c.pends := rfl
@[simp] theorem Core.busy_flights (u : Nat) (c : Core) : (c.busy u).flights = c.flights := rfl
@[simp] theorem Core.busy_nextUid (u : Nat) (c : Core) : (c.busy u).nextUid = c.nextUid := rfl
@[simp] theorem Core.busy_free (u : Nat) (c : Core) : (c.busy u).free = c.free := rfl
@[simp] theorem Core.busy_trap (u : Nat) (c : Core) : (c.busy u).trap = c.trap := rfl
@[simp] theorem Core.busy_wp (u : Nat) (c : Core) : (c.busy u).wp = c.wp := rfl
@[simp] theorem Core.busy_windows (u : Nat) (c : Core) : (c.busy u).windows = c.windows := rfl
@[simp] theorem Core.busy_imageRow (u : Nat) (c : Core) : (c.busy u).imageRow = c.imageRow := rfl
@[simp] theorem Core.busy_imageMask (u : Nat) (c : Core) : (c.busy u).imageMask = c.imageMask := rfl
@[simp] theorem Core.busy_imageLand (u : Nat) (c : Core) : (c.busy u).imageLand = c.imageLand := rfl
@[simp] theorem Core.busy_backAt (u : Nat) (c : Core) : (c.busy u).backAt = c.backAt := rfl
@[simp] theorem Core.busy_phys (u : Nat) (c : Core) : (c.busy u).phys = c.phys := rfl
@[simp] theorem Core.note_lid (d l : Nat) (c : Core) : (c.note d l).lid = c.lid := rfl
@[simp] theorem Core.note_index (d l : Nat) (c : Core) : (c.note d l).index = c.index := rfl
@[simp] theorem Core.note_px (d l : Nat) (c : Core) : (c.note d l).px = c.px := rfl
@[simp] theorem Core.note_py (d l : Nat) (c : Core) : (c.note d l).py = c.py := rfl
@[simp] theorem Core.note_code (d l : Nat) (c : Core) : (c.note d l).code = c.code := rfl
@[simp] theorem Core.note_ftab (d l : Nat) (c : Core) : (c.note d l).ftab = c.ftab := rfl
@[simp] theorem Core.note_regs (d l : Nat) (c : Core) : (c.note d l).regs = c.regs := rfl
@[simp] theorem Core.note_seq (d l : Nat) (c : Core) : (c.note d l).seq = c.seq := rfl
@[simp] theorem Core.note_sp (d l : Nat) (c : Core) : (c.note d l).sp = c.sp := rfl
@[simp] theorem Core.note_vec (d l : Nat) (c : Core) : (c.note d l).vec = c.vec := rfl
@[simp] theorem Core.note_arr (d l : Nat) (c : Core) : (c.note d l).arr = c.arr := rfl
@[simp] theorem Core.note_q (d l : Nat) (c : Core) : (c.note d l).q = c.q := rfl
@[simp] theorem Core.note_chan (d l : Nat) (c : Core) : (c.note d l).chan = c.chan := rfl
@[simp] theorem Core.note_pends (d l : Nat) (c : Core) : (c.note d l).pends = c.pends := rfl
@[simp] theorem Core.note_flights (d l : Nat) (c : Core) : (c.note d l).flights = c.flights := rfl
@[simp] theorem Core.note_nextUid (d l : Nat) (c : Core) : (c.note d l).nextUid = c.nextUid := rfl
@[simp] theorem Core.note_free (d l : Nat) (c : Core) : (c.note d l).free = c.free := rfl
@[simp] theorem Core.note_trap (d l : Nat) (c : Core) : (c.note d l).trap = c.trap := rfl
@[simp] theorem Core.note_wp (d l : Nat) (c : Core) : (c.note d l).wp = c.wp := rfl
@[simp] theorem Core.note_windows (d l : Nat) (c : Core) : (c.note d l).windows = c.windows := rfl
@[simp] theorem Core.note_imageRow (d l : Nat) (c : Core) : (c.note d l).imageRow = c.imageRow := rfl
@[simp] theorem Core.note_imageMask (d l : Nat) (c : Core) : (c.note d l).imageMask = c.imageMask := rfl
@[simp] theorem Core.note_imageLand (d l : Nat) (c : Core) : (c.note d l).imageLand = c.imageLand := rfl
@[simp] theorem Core.note_backAt (d l : Nat) (c : Core) : (c.note d l).backAt = c.backAt := rfl
@[simp] theorem Core.note_phys (d l : Nat) (c : Core) : (c.note d l).phys = c.phys := rfl
@[simp] theorem Core.markChecked_lid (k : Nat) (c : Core) : (c.markChecked k).lid = c.lid := rfl
@[simp] theorem Core.markChecked_index (k : Nat) (c : Core) : (c.markChecked k).index = c.index := rfl
@[simp] theorem Core.markChecked_px (k : Nat) (c : Core) : (c.markChecked k).px = c.px := rfl
@[simp] theorem Core.markChecked_py (k : Nat) (c : Core) : (c.markChecked k).py = c.py := rfl
@[simp] theorem Core.markChecked_code (k : Nat) (c : Core) : (c.markChecked k).code = c.code := rfl
@[simp] theorem Core.markChecked_ftab (k : Nat) (c : Core) : (c.markChecked k).ftab = c.ftab := rfl
@[simp] theorem Core.markChecked_regs (k : Nat) (c : Core) : (c.markChecked k).regs = c.regs := rfl
@[simp] theorem Core.markChecked_sp (k : Nat) (c : Core) : (c.markChecked k).sp = c.sp := rfl
@[simp] theorem Core.markChecked_vec (k : Nat) (c : Core) : (c.markChecked k).vec = c.vec := rfl
@[simp] theorem Core.markChecked_arr (k : Nat) (c : Core) : (c.markChecked k).arr = c.arr := rfl
@[simp] theorem Core.markChecked_q (k : Nat) (c : Core) : (c.markChecked k).q = c.q := rfl
@[simp] theorem Core.markChecked_chan (k : Nat) (c : Core) : (c.markChecked k).chan = c.chan := rfl
@[simp] theorem Core.markChecked_net (k : Nat) (c : Core) : (c.markChecked k).net = c.net := rfl
@[simp] theorem Core.markChecked_pends (k : Nat) (c : Core) : (c.markChecked k).pends = c.pends := rfl
@[simp] theorem Core.markChecked_flights (k : Nat) (c : Core) : (c.markChecked k).flights = c.flights := rfl
@[simp] theorem Core.markChecked_nextUid (k : Nat) (c : Core) : (c.markChecked k).nextUid = c.nextUid := rfl
@[simp] theorem Core.markChecked_free (k : Nat) (c : Core) : (c.markChecked k).free = c.free := rfl
@[simp] theorem Core.markChecked_trap (k : Nat) (c : Core) : (c.markChecked k).trap = c.trap := rfl
@[simp] theorem Core.markChecked_wp (k : Nat) (c : Core) : (c.markChecked k).wp = c.wp := rfl
@[simp] theorem Core.markChecked_windows (k : Nat) (c : Core) : (c.markChecked k).windows = c.windows := rfl
@[simp] theorem Core.markChecked_imageRow (k : Nat) (c : Core) : (c.markChecked k).imageRow = c.imageRow := rfl
@[simp] theorem Core.markChecked_imageMask (k : Nat) (c : Core) : (c.markChecked k).imageMask = c.imageMask := rfl
@[simp] theorem Core.markChecked_imageLand (k : Nat) (c : Core) : (c.markChecked k).imageLand = c.imageLand := rfl
@[simp] theorem Core.markChecked_backAt (k : Nat) (c : Core) : (c.markChecked k).backAt = c.backAt := rfl
@[simp] theorem Core.markChecked_phys (k : Nat) (c : Core) : (c.markChecked k).phys = c.phys := rfl
@[simp] theorem Core.raise_lid (x : Ctx) (t : TrapRec) (c : Core) : (c.raise x t).lid = c.lid := by
  unfold Core.raise; repeat' split
  all_goals rfl
@[simp] theorem Core.raise_index (x : Ctx) (t : TrapRec) (c : Core) : (c.raise x t).index = c.index := by
  unfold Core.raise; repeat' split
  all_goals rfl
@[simp] theorem Core.raise_px (x : Ctx) (t : TrapRec) (c : Core) : (c.raise x t).px = c.px := by
  unfold Core.raise; repeat' split
  all_goals rfl
@[simp] theorem Core.raise_py (x : Ctx) (t : TrapRec) (c : Core) : (c.raise x t).py = c.py := by
  unfold Core.raise; repeat' split
  all_goals rfl
@[simp] theorem Core.raise_code (x : Ctx) (t : TrapRec) (c : Core) : (c.raise x t).code = c.code := by
  unfold Core.raise; repeat' split
  all_goals rfl
@[simp] theorem Core.raise_ftab (x : Ctx) (t : TrapRec) (c : Core) : (c.raise x t).ftab = c.ftab := by
  unfold Core.raise; repeat' split
  all_goals rfl
@[simp] theorem Core.raise_regs (x : Ctx) (t : TrapRec) (c : Core) : (c.raise x t).regs = c.regs := by
  unfold Core.raise; repeat' split
  all_goals rfl
@[simp] theorem Core.raise_seq (x : Ctx) (t : TrapRec) (c : Core) : (c.raise x t).seq = c.seq := by
  unfold Core.raise; repeat' split
  all_goals rfl
@[simp] theorem Core.raise_sp (x : Ctx) (t : TrapRec) (c : Core) : (c.raise x t).sp = c.sp := by
  unfold Core.raise; repeat' split
  all_goals rfl
@[simp] theorem Core.raise_vec (x : Ctx) (t : TrapRec) (c : Core) : (c.raise x t).vec = c.vec := by
  unfold Core.raise; repeat' split
  all_goals rfl
@[simp] theorem Core.raise_arr (x : Ctx) (t : TrapRec) (c : Core) : (c.raise x t).arr = c.arr := by
  unfold Core.raise; repeat' split
  all_goals rfl
@[simp] theorem Core.raise_q (x : Ctx) (t : TrapRec) (c : Core) : (c.raise x t).q = c.q := by
  unfold Core.raise; repeat' split
  all_goals rfl
@[simp] theorem Core.raise_chan (x : Ctx) (t : TrapRec) (c : Core) : (c.raise x t).chan = c.chan := by
  unfold Core.raise; repeat' split
  all_goals rfl
@[simp] theorem Core.raise_net (x : Ctx) (t : TrapRec) (c : Core) : (c.raise x t).net = c.net := by
  unfold Core.raise; repeat' split
  all_goals rfl
@[simp] theorem Core.raise_pends (x : Ctx) (t : TrapRec) (c : Core) : (c.raise x t).pends = c.pends := by
  unfold Core.raise; repeat' split
  all_goals rfl
@[simp] theorem Core.raise_flights (x : Ctx) (t : TrapRec) (c : Core) : (c.raise x t).flights = c.flights := by
  unfold Core.raise; repeat' split
  all_goals rfl
@[simp] theorem Core.raise_nextUid (x : Ctx) (t : TrapRec) (c : Core) : (c.raise x t).nextUid = c.nextUid := by
  unfold Core.raise; repeat' split
  all_goals rfl
@[simp] theorem Core.raise_free (x : Ctx) (t : TrapRec) (c : Core) : (c.raise x t).free = c.free := by
  unfold Core.raise; repeat' split
  all_goals rfl
@[simp] theorem Core.raise_wp (x : Ctx) (t : TrapRec) (c : Core) : (c.raise x t).wp = c.wp := by
  unfold Core.raise; repeat' split
  all_goals rfl
@[simp] theorem Core.raise_windows (x : Ctx) (t : TrapRec) (c : Core) : (c.raise x t).windows = c.windows := by
  unfold Core.raise; repeat' split
  all_goals rfl
@[simp] theorem Core.raise_imageRow (x : Ctx) (t : TrapRec) (c : Core) : (c.raise x t).imageRow = c.imageRow := by
  unfold Core.raise; repeat' split
  all_goals rfl
@[simp] theorem Core.raise_imageMask (x : Ctx) (t : TrapRec) (c : Core) : (c.raise x t).imageMask = c.imageMask := by
  unfold Core.raise; repeat' split
  all_goals rfl
@[simp] theorem Core.raise_imageLand (x : Ctx) (t : TrapRec) (c : Core) : (c.raise x t).imageLand = c.imageLand := by
  unfold Core.raise; repeat' split
  all_goals rfl
@[simp] theorem Core.raise_backAt (x : Ctx) (t : TrapRec) (c : Core) : (c.raise x t).backAt = c.backAt := by
  unfold Core.raise; repeat' split
  all_goals rfl
@[simp] theorem Core.setErr_lid (a : Nat) (e : ErrLog) (c : Core) : (c.setErr a e).lid = c.lid := by unfold Core.setErr; split <;> rfl
@[simp] theorem Core.setErr_index (a : Nat) (e : ErrLog) (c : Core) : (c.setErr a e).index = c.index := by unfold Core.setErr; split <;> rfl
@[simp] theorem Core.setErr_px (a : Nat) (e : ErrLog) (c : Core) : (c.setErr a e).px = c.px := by unfold Core.setErr; split <;> rfl
@[simp] theorem Core.setErr_py (a : Nat) (e : ErrLog) (c : Core) : (c.setErr a e).py = c.py := by unfold Core.setErr; split <;> rfl
@[simp] theorem Core.setErr_code (a : Nat) (e : ErrLog) (c : Core) : (c.setErr a e).code = c.code := by unfold Core.setErr; split <;> rfl
@[simp] theorem Core.setErr_ftab (a : Nat) (e : ErrLog) (c : Core) : (c.setErr a e).ftab = c.ftab := by unfold Core.setErr; split <;> rfl
@[simp] theorem Core.setErr_regs (a : Nat) (e : ErrLog) (c : Core) : (c.setErr a e).regs = c.regs := by unfold Core.setErr; split <;> rfl
@[simp] theorem Core.setErr_seq (a : Nat) (e : ErrLog) (c : Core) : (c.setErr a e).seq = c.seq := by unfold Core.setErr; split <;> rfl
@[simp] theorem Core.setErr_sp (a : Nat) (e : ErrLog) (c : Core) : (c.setErr a e).sp = c.sp := by unfold Core.setErr; split <;> rfl
@[simp] theorem Core.setErr_vec (a : Nat) (e : ErrLog) (c : Core) : (c.setErr a e).vec = c.vec := by unfold Core.setErr; split <;> rfl
@[simp] theorem Core.setErr_arr (a : Nat) (e : ErrLog) (c : Core) : (c.setErr a e).arr = c.arr := by unfold Core.setErr; split <;> rfl
@[simp] theorem Core.setErr_q (a : Nat) (e : ErrLog) (c : Core) : (c.setErr a e).q = c.q := by unfold Core.setErr; split <;> rfl
@[simp] theorem Core.setErr_chan (a : Nat) (e : ErrLog) (c : Core) : (c.setErr a e).chan = c.chan := by unfold Core.setErr; split <;> rfl
@[simp] theorem Core.setErr_net (a : Nat) (e : ErrLog) (c : Core) : (c.setErr a e).net = c.net := by unfold Core.setErr; split <;> rfl
@[simp] theorem Core.setErr_pends (a : Nat) (e : ErrLog) (c : Core) : (c.setErr a e).pends = c.pends := by unfold Core.setErr; split <;> rfl
@[simp] theorem Core.setErr_flights (a : Nat) (e : ErrLog) (c : Core) : (c.setErr a e).flights = c.flights := by unfold Core.setErr; split <;> rfl
@[simp] theorem Core.setErr_nextUid (a : Nat) (e : ErrLog) (c : Core) : (c.setErr a e).nextUid = c.nextUid := by unfold Core.setErr; split <;> rfl
@[simp] theorem Core.setErr_free (a : Nat) (e : ErrLog) (c : Core) : (c.setErr a e).free = c.free := by unfold Core.setErr; split <;> rfl
@[simp] theorem Core.setErr_trap (a : Nat) (e : ErrLog) (c : Core) : (c.setErr a e).trap = c.trap := by unfold Core.setErr; split <;> rfl
@[simp] theorem Core.setErr_wp (a : Nat) (e : ErrLog) (c : Core) : (c.setErr a e).wp = c.wp := by unfold Core.setErr; split <;> rfl
@[simp] theorem Core.setErr_windows (a : Nat) (e : ErrLog) (c : Core) : (c.setErr a e).windows = c.windows := by unfold Core.setErr; split <;> rfl
@[simp] theorem Core.setErr_imageRow (a : Nat) (e : ErrLog) (c : Core) : (c.setErr a e).imageRow = c.imageRow := by unfold Core.setErr; split <;> rfl
@[simp] theorem Core.setErr_imageMask (a : Nat) (e : ErrLog) (c : Core) : (c.setErr a e).imageMask = c.imageMask := by unfold Core.setErr; split <;> rfl
@[simp] theorem Core.setErr_imageLand (a : Nat) (e : ErrLog) (c : Core) : (c.setErr a e).imageLand = c.imageLand := by unfold Core.setErr; split <;> rfl
@[simp] theorem Core.setErr_backAt (a : Nat) (e : ErrLog) (c : Core) : (c.setErr a e).backAt = c.backAt := by unfold Core.setErr; split <;> rfl
@[simp] theorem Core.spPut_lid (q a : Nat) (v : Byte) (c : Core) : (c.spPut q a v).lid = c.lid := rfl
@[simp] theorem Core.spPut_index (q a : Nat) (v : Byte) (c : Core) : (c.spPut q a v).index = c.index := rfl
@[simp] theorem Core.spPut_px (q a : Nat) (v : Byte) (c : Core) : (c.spPut q a v).px = c.px := rfl
@[simp] theorem Core.spPut_py (q a : Nat) (v : Byte) (c : Core) : (c.spPut q a v).py = c.py := rfl
@[simp] theorem Core.spPut_code (q a : Nat) (v : Byte) (c : Core) : (c.spPut q a v).code = c.code := rfl
@[simp] theorem Core.spPut_ftab (q a : Nat) (v : Byte) (c : Core) : (c.spPut q a v).ftab = c.ftab := rfl
@[simp] theorem Core.spPut_regs (q a : Nat) (v : Byte) (c : Core) : (c.spPut q a v).regs = c.regs := rfl
@[simp] theorem Core.spPut_seq (q a : Nat) (v : Byte) (c : Core) : (c.spPut q a v).seq = c.seq := rfl
@[simp] theorem Core.spPut_vec (q a : Nat) (v : Byte) (c : Core) : (c.spPut q a v).vec = c.vec := rfl
@[simp] theorem Core.spPut_arr (q a : Nat) (v : Byte) (c : Core) : (c.spPut q a v).arr = c.arr := rfl
@[simp] theorem Core.spPut_q (q a : Nat) (v : Byte) (c : Core) : (c.spPut q a v).q = c.q := rfl
@[simp] theorem Core.spPut_chan (q a : Nat) (v : Byte) (c : Core) : (c.spPut q a v).chan = c.chan := rfl
@[simp] theorem Core.spPut_net (q a : Nat) (v : Byte) (c : Core) : (c.spPut q a v).net = c.net := rfl
@[simp] theorem Core.spPut_pends (q a : Nat) (v : Byte) (c : Core) : (c.spPut q a v).pends = c.pends := rfl
@[simp] theorem Core.spPut_nextUid (q a : Nat) (v : Byte) (c : Core) : (c.spPut q a v).nextUid = c.nextUid := rfl
@[simp] theorem Core.spPut_free (q a : Nat) (v : Byte) (c : Core) : (c.spPut q a v).free = c.free := rfl
@[simp] theorem Core.spPut_trap (q a : Nat) (v : Byte) (c : Core) : (c.spPut q a v).trap = c.trap := rfl
@[simp] theorem Core.spPut_wp (q a : Nat) (v : Byte) (c : Core) : (c.spPut q a v).wp = c.wp := rfl
@[simp] theorem Core.spPut_windows (q a : Nat) (v : Byte) (c : Core) : (c.spPut q a v).windows = c.windows := rfl
@[simp] theorem Core.spPut_imageRow (q a : Nat) (v : Byte) (c : Core) : (c.spPut q a v).imageRow = c.imageRow := rfl
@[simp] theorem Core.spPut_imageMask (q a : Nat) (v : Byte) (c : Core) : (c.spPut q a v).imageMask = c.imageMask := rfl
@[simp] theorem Core.spPut_imageLand (q a : Nat) (v : Byte) (c : Core) : (c.spPut q a v).imageLand = c.imageLand := rfl
@[simp] theorem Core.spPut_backAt (q a : Nat) (v : Byte) (c : Core) : (c.spPut q a v).backAt = c.backAt := rfl
@[simp] theorem Core.spPut_phys (q a : Nat) (v : Byte) (c : Core) : (c.spPut q a v).phys = c.phys := rfl

/-- What a trap leaves of what a physical core holds. -/
theorem Core.raise_hbm (x : Ctx) (t : TrapRec) (c : Core) : (c.raise x t).phys.hbm = c.phys.hbm := by
  unfold Core.raise; repeat' split
  all_goals rfl

@[simp] theorem Core.later_pends (x : Ctx) (cls p n : Nat) (w : Deferred) (c : Core) :
    (c.later x cls p n w).pends = c.pends ++ [⟨x.now + n, x.now, cls, c.seq.bundle, p, w⟩] := rfl

/-- A deferred change of the syllable now taking its effect. -/
theorem Core.later_eq_owes (x : Ctx) (cls n : Nat) (w : Deferred) (c : Core) :
    c.later x cls c.seq.pos n w = c.owes x.now n cls w := rfl


/-! ## Registers -/

@[simp] theorem Regs.writeG_k (r : Regs) (d : BitVec 6) (x : Word) : (r.writeG d x).k = r.k := by unfold Regs.writeG; split <;> rfl
@[simp] theorem Regs.writeG_n (r : Regs) (d : BitVec 6) (x : Word) : (r.writeG d x).n = r.n := by unfold Regs.writeG; split <;> rfl
@[simp] theorem Regs.writeG_h0 (r : Regs) (d : BitVec 6) (x : Word) : (r.writeG d x).h0 = r.h0 := by unfold Regs.writeG; split <;> rfl
@[simp] theorem Regs.writeG_h1 (r : Regs) (d : BitVec 6) (x : Word) : (r.writeG d x).h1 = r.h1 := by unfold Regs.writeG; split <;> rfl
@[simp] theorem Regs.writeG_tcfg (r : Regs) (d : BitVec 6) (x : Word) : (r.writeG d x).tcfg = r.tcfg := by unfold Regs.writeG; split <;> rfl
@[simp] theorem Regs.writeG_shape (r : Regs) (d : BitVec 6) (x : Word) : (r.writeG d x).shape = r.shape := by unfold Regs.writeG; split <;> rfl
@[simp] theorem Regs.writeG_round (r : Regs) (d : BitVec 6) (x : Word) : (r.writeG d x).round = r.round := by unfold Regs.writeG; split <;> rfl
@[simp] theorem Regs.writeG_cellpat (r : Regs) (d : BitVec 6) (x : Word) : (r.writeG d x).cellpat = r.cellpat := by unfold Regs.writeG; split <;> rfl
@[simp] theorem Regs.writeG_misses (r : Regs) (d : BitVec 6) (x : Word) : (r.writeG d x).misses = r.misses := by unfold Regs.writeG; split <;> rfl
@[simp] theorem Regs.writeG_degen (r : Regs) (d : BitVec 6) (x : Word) : (r.writeG d x).degen = r.degen := by unfold Regs.writeG; split <;> rfl
@[simp] theorem Regs.writeG_ovtab (r : Regs) (d : BitVec 6) (x : Word) : (r.writeG d x).ovtab = r.ovtab := by unfold Regs.writeG; split <;> rfl
@[simp] theorem Regs.writeK_g (r : Regs) (d : BitVec 4) (x : Word) : (r.writeK d x).g = r.g := by unfold Regs.writeK; split <;> rfl
@[simp] theorem Regs.writeK_n (r : Regs) (d : BitVec 4) (x : Word) : (r.writeK d x).n = r.n := by unfold Regs.writeK; split <;> rfl
@[simp] theorem Regs.writeK_h0 (r : Regs) (d : BitVec 4) (x : Word) : (r.writeK d x).h0 = r.h0 := by unfold Regs.writeK; split <;> rfl
@[simp] theorem Regs.writeK_h1 (r : Regs) (d : BitVec 4) (x : Word) : (r.writeK d x).h1 = r.h1 := by unfold Regs.writeK; split <;> rfl
@[simp] theorem Regs.writeK_tcfg (r : Regs) (d : BitVec 4) (x : Word) : (r.writeK d x).tcfg = r.tcfg := by unfold Regs.writeK; split <;> rfl
@[simp] theorem Regs.writeK_shape (r : Regs) (d : BitVec 4) (x : Word) : (r.writeK d x).shape = r.shape := by unfold Regs.writeK; split <;> rfl
@[simp] theorem Regs.writeK_round (r : Regs) (d : BitVec 4) (x : Word) : (r.writeK d x).round = r.round := by unfold Regs.writeK; split <;> rfl
@[simp] theorem Regs.writeK_cellpat (r : Regs) (d : BitVec 4) (x : Word) : (r.writeK d x).cellpat = r.cellpat := by unfold Regs.writeK; split <;> rfl
@[simp] theorem Regs.writeK_misses (r : Regs) (d : BitVec 4) (x : Word) : (r.writeK d x).misses = r.misses := by unfold Regs.writeK; split <;> rfl
@[simp] theorem Regs.writeK_degen (r : Regs) (d : BitVec 4) (x : Word) : (r.writeK d x).degen = r.degen := by unfold Regs.writeK; split <;> rfl
@[simp] theorem Regs.writeK_ovtab (r : Regs) (d : BitVec 4) (x : Word) : (r.writeK d x).ovtab = r.ovtab := by unfold Regs.writeK; split <;> rfl
@[simp] theorem Regs.addN_g (r : Regs) (d : BitVec 6) (x : Word) : (r.addN d x).g = r.g := rfl
@[simp] theorem Regs.addN_k (r : Regs) (d : BitVec 6) (x : Word) : (r.addN d x).k = r.k := rfl
@[simp] theorem Regs.addN_h0 (r : Regs) (d : BitVec 6) (x : Word) : (r.addN d x).h0 = r.h0 := rfl
@[simp] theorem Regs.addN_h1 (r : Regs) (d : BitVec 6) (x : Word) : (r.addN d x).h1 = r.h1 := rfl
@[simp] theorem Regs.addN_tcfg (r : Regs) (d : BitVec 6) (x : Word) : (r.addN d x).tcfg = r.tcfg := rfl
@[simp] theorem Regs.addN_shape (r : Regs) (d : BitVec 6) (x : Word) : (r.addN d x).shape = r.shape := rfl
@[simp] theorem Regs.addN_round (r : Regs) (d : BitVec 6) (x : Word) : (r.addN d x).round = r.round := rfl
@[simp] theorem Regs.addN_cellpat (r : Regs) (d : BitVec 6) (x : Word) : (r.addN d x).cellpat = r.cellpat := rfl
@[simp] theorem Regs.addN_misses (r : Regs) (d : BitVec 6) (x : Word) : (r.addN d x).misses = r.misses := rfl
@[simp] theorem Regs.addN_degen (r : Regs) (d : BitVec 6) (x : Word) : (r.addN d x).degen = r.degen := rfl
@[simp] theorem Regs.addN_ovtab (r : Regs) (d : BitVec 6) (x : Word) : (r.addN d x).ovtab = r.ovtab := rfl
@[simp] theorem Regs.writeH_g (r : Regs) (h : BitVec 4) (a b : Word) : (r.writeH h a b).g = r.g := rfl
@[simp] theorem Regs.writeH_k (r : Regs) (h : BitVec 4) (a b : Word) : (r.writeH h a b).k = r.k := rfl
@[simp] theorem Regs.writeH_n (r : Regs) (h : BitVec 4) (a b : Word) : (r.writeH h a b).n = r.n := rfl
@[simp] theorem Regs.writeH_tcfg (r : Regs) (h : BitVec 4) (a b : Word) : (r.writeH h a b).tcfg = r.tcfg := rfl
@[simp] theorem Regs.writeH_shape (r : Regs) (h : BitVec 4) (a b : Word) : (r.writeH h a b).shape = r.shape := rfl
@[simp] theorem Regs.writeH_round (r : Regs) (h : BitVec 4) (a b : Word) : (r.writeH h a b).round = r.round := rfl
@[simp] theorem Regs.writeH_cellpat (r : Regs) (h : BitVec 4) (a b : Word) : (r.writeH h a b).cellpat = r.cellpat := rfl
@[simp] theorem Regs.writeH_misses (r : Regs) (h : BitVec 4) (a b : Word) : (r.writeH h a b).misses = r.misses := rfl
@[simp] theorem Regs.writeH_degen (r : Regs) (h : BitVec 4) (a b : Word) : (r.writeH h a b).degen = r.degen := rfl
@[simp] theorem Regs.writeH_ovtab (r : Regs) (h : BitVec 4) (a b : Word) : (r.writeH h a b).ovtab = r.ovtab := rfl
@[simp] theorem Regs.advDrain_g (r : Regs) (h : BitVec 4) (n : Nat) : (r.advDrain h n).g = r.g := rfl
@[simp] theorem Regs.advDrain_k (r : Regs) (h : BitVec 4) (n : Nat) : (r.advDrain h n).k = r.k := rfl
@[simp] theorem Regs.advDrain_n (r : Regs) (h : BitVec 4) (n : Nat) : (r.advDrain h n).n = r.n := rfl
@[simp] theorem Regs.advDrain_tcfg (r : Regs) (h : BitVec 4) (n : Nat) : (r.advDrain h n).tcfg = r.tcfg := rfl
@[simp] theorem Regs.advDrain_shape (r : Regs) (h : BitVec 4) (n : Nat) : (r.advDrain h n).shape = r.shape := rfl
@[simp] theorem Regs.advDrain_round (r : Regs) (h : BitVec 4) (n : Nat) : (r.advDrain h n).round = r.round := rfl
@[simp] theorem Regs.advDrain_cellpat (r : Regs) (h : BitVec 4) (n : Nat) : (r.advDrain h n).cellpat = r.cellpat := rfl
@[simp] theorem Regs.advDrain_misses (r : Regs) (h : BitVec 4) (n : Nat) : (r.advDrain h n).misses = r.misses := rfl
@[simp] theorem Regs.advDrain_degen (r : Regs) (h : BitVec 4) (n : Nat) : (r.advDrain h n).degen = r.degen := rfl
@[simp] theorem Regs.advDrain_ovtab (r : Regs) (h : BitVec 4) (n : Nat) : (r.advDrain h n).ovtab = r.ovtab := rfl
@[simp] theorem Regs.advFill_g (r : Regs) (h : BitVec 4) (n : Nat) : (r.advFill h n).g = r.g := rfl
@[simp] theorem Regs.advFill_k (r : Regs) (h : BitVec 4) (n : Nat) : (r.advFill h n).k = r.k := rfl
@[simp] theorem Regs.advFill_n (r : Regs) (h : BitVec 4) (n : Nat) : (r.advFill h n).n = r.n := rfl
@[simp] theorem Regs.advFill_tcfg (r : Regs) (h : BitVec 4) (n : Nat) : (r.advFill h n).tcfg = r.tcfg := rfl
@[simp] theorem Regs.advFill_shape (r : Regs) (h : BitVec 4) (n : Nat) : (r.advFill h n).shape = r.shape := rfl
@[simp] theorem Regs.advFill_round (r : Regs) (h : BitVec 4) (n : Nat) : (r.advFill h n).round = r.round := rfl
@[simp] theorem Regs.advFill_cellpat (r : Regs) (h : BitVec 4) (n : Nat) : (r.advFill h n).cellpat = r.cellpat := rfl
@[simp] theorem Regs.advFill_misses (r : Regs) (h : BitVec 4) (n : Nat) : (r.advFill h n).misses = r.misses := rfl
@[simp] theorem Regs.advFill_degen (r : Regs) (h : BitVec 4) (n : Nat) : (r.advFill h n).degen = r.degen := rfl
@[simp] theorem Regs.advFill_ovtab (r : Regs) (h : BitVec 4) (n : Nat) : (r.advFill h n).ovtab = r.ovtab := rfl

/-! ## A core left behind, and a context's windows -/

/-- A core that its rectangle has not left behind is held to its launch's own furrow. -/
@[simp] theorem Ctx.own_of_since_none {c : Core} (h : c.seq.since = none) (x : Ctx) : x.own c = x := by
  simp [Ctx.own, h]

@[simp] theorem Ctx.own_now (c : Core) (x : Ctx) : (x.own c).now = x.now := by unfold Ctx.own; split <;> rfl
@[simp] theorem Ctx.own_base (c : Core) (x : Ctx) : (x.own c).base = x.base := by unfold Ctx.own; split <;> rfl

@[simp] theorem State.keepWindows_cores (c : Core) (s : State) : (s.keepWindows c).cores = s.cores := rfl
@[simp] theorem State.keepWindows_launches (c : Core) (s : State) : (s.keepWindows c).launches = s.launches := rfl
@[simp] theorem State.keepWindows_parts (c : Core) (s : State) : (s.keepWindows c).parts = s.parts := rfl
@[simp] theorem State.keepWindows_now (c : Core) (s : State) : (s.keepWindows c).now = s.now := rfl
@[simp] theorem State.keepWindows_mgmt (c : Core) (s : State) : (s.keepWindows c).mgmt = s.mgmt := rfl

end Sys2Proof.Machine
end

