-- ==== Sys2Proof/Laws/Memory.lean ====
section
/-!
SUPPORT. Sparse memories: every operation keeps the canonical form, a byte written reads back, and no other byte
changes.
-/

namespace Sys2Proof.Machine

/-! ## The form -/

/-- Every address of a memory is above `k`. -/
def Mem.above (k : Nat) (m : Mem) : Prop := ∀ e ∈ m, k < e.1

theorem Mem.wf_cons (d : Byte) (k : Nat) (x : Byte) (m : Mem) :
    Mem.wf d ((k, x) :: m) = true ↔ x ≠ d ∧ Mem.above k m ∧ Mem.wf d m = true := by
  simp [Mem.wf, Mem.above, and_assoc]

theorem Mem.above_cons_of (d : Byte) {k a : Nat} (x : Byte) {m : Mem} (h : Mem.above k m) (ha : k < a) :
    Mem.above k (Mem.cons d a x m) := by
  unfold Mem.cons Mem.above at *; split
  · exact h
  · intro e he; rcases List.mem_cons.1 he with rfl | he
    · exact ha
    · exact h e he

theorem Mem.above_put (d : Byte) {k a : Nat} (x : Byte) {m : Mem} (h : Mem.above k m) (ha : k < a) :
    Mem.above k (m.put d a x) := by
  induction m with
  | nil => exact Mem.above_cons_of d x h ha
  | cons e m ih =>
    obtain ⟨j, y⟩ := e
    have hm : Mem.above k m := fun e he => h e (List.mem_cons_of_mem _ he)
    have hj : k < j := h (j, y) List.mem_cons_self
    simp only [Mem.put]; split
    · intro e he; rcases List.mem_cons.1 he with rfl | he
      · exact hj
      · exact ih hm e he
    · split
      · exact Mem.above_cons_of d x hm ha
      · exact Mem.above_cons_of d x h ha

theorem Mem.wf_cons_of (d : Byte) {a : Nat} (x : Byte) {m : Mem} (h : m.wf d = true) (ha : Mem.above a m) :
    (Mem.cons d a x m).wf d = true := by
  unfold Mem.cons; split
  · exact h
  · exact (Mem.wf_cons d a x m).2 ⟨‹_›, ha, h⟩

theorem Mem.above_trans {j k : Nat} {m : Mem} (h : Mem.above k m) (hj : j ≤ k) : Mem.above j m :=
  fun e he => Nat.lt_of_le_of_lt hj (h e he)

/-- A byte's write keeps the form. -/
theorem Mem.wf_put (d : Byte) (a : Nat) (x : Byte) {m : Mem} (h : m.wf d = true) : (m.put d a x).wf d = true := by
  induction m with
  | nil => exact Mem.wf_cons_of d x rfl (fun e he => by cases he)
  | cons e m ih =>
    obtain ⟨k, y⟩ := e
    obtain ⟨hy, hk, hm⟩ := (Mem.wf_cons d k y m).1 h
    simp only [Mem.put]; split
    · exact (Mem.wf_cons d k y _).2 ⟨hy, Mem.above_put d x hk ‹_›, ih hm⟩
    · split
      · subst k; exact Mem.wf_cons_of d x hm hk
      · refine Mem.wf_cons_of d x h fun e he => ?_
        rcases List.mem_cons.1 he with rfl | he
        · simp only; omega
        · have := hk e he; omega

theorem Mem.wf_putAll (d : Byte) (a : Nat) (bs : List Byte) {m : Mem} (h : m.wf d = true) :
    (m.putAll d a bs).wf d = true := by
  induction bs generalizing m a with
  | nil => exact h
  | cons x bs ih => exact ih _ (Mem.wf_put d a x h)

theorem Mem.wf_putBits (d : Byte) (a : Nat) (k x : Byte) {m : Mem} (h : m.wf d = true) :
    (m.putBits d a k x).wf d = true := Mem.wf_put d a _ h

theorem Mem.wf_filter (d : Byte) (p : Host.Cell → Bool) {m : Mem} (h : m.wf d = true) :
    Mem.wf d (m.filter p) = true := by
  induction m with
  | nil => rfl
  | cons e m ih =>
    obtain ⟨k, y⟩ := e
    obtain ⟨hy, hk, hm⟩ := (Mem.wf_cons d k y m).1 h
    rw [List.filter_cons]; split
    · exact (Mem.wf_cons d k y _).2 ⟨hy, fun e he => hk e (List.mem_filter.1 he).1, ih hm⟩
    · exact ih hm

theorem Mem.wf_clear (d : Byte) (lo hi : Nat) {m : Mem} (h : m.wf d = true) : (m.clear lo hi).wf d = true :=
  Mem.wf_filter d _ h

theorem Mem.wf_append (d : Byte) {l m : Mem} (hl : l.wf d = true) (hm : m.wf d = true)
    (h : ∀ e ∈ l, Mem.above e.1 m) : Mem.wf d (l ++ m) = true := by
  induction l with
  | nil => exact hm
  | cons e l ih =>
    obtain ⟨k, y⟩ := e
    obtain ⟨hy, hk, hl⟩ := (Mem.wf_cons d k y l).1 hl
    refine (Mem.wf_cons d k y _).2 ⟨hy, fun e he => ?_, ih hl fun e he => h e (List.mem_cons_of_mem _ he)⟩
    rcases List.mem_append.1 he with he | he
    · exact hk e he
    · exact h (k, y) List.mem_cons_self e he

/-- Taking a range from one memory and the rest from another keeps the form. -/
theorem wf_mergeMem (d : Byte) {lo hi : Nat} {a b : Mem} (hlo : lo ≤ hi) (ha : a.wf d = true) (hb : b.wf d = true) :
    (mergeMem lo hi a b).wf d = true := by
  unfold mergeMem
  refine Mem.wf_append d (Mem.wf_append d (Mem.wf_filter d _ hb) (Mem.wf_filter d _ ha) ?_) (Mem.wf_filter d _ hb) ?_
  · intro e he f hf
    simp only [List.mem_filter, decide_eq_true_eq, Bool.and_eq_true] at he hf; omega
  · intro e he f hf
    simp only [List.mem_append, List.mem_filter, decide_eq_true_eq, Bool.and_eq_true] at he hf; omega

/-- A memory moved up keeps the form. -/
theorem Mem.wf_up (d : Byte) (k : Nat) {m : Mem} (h : m.wf d = true) : (m.up k).wf d = true := by
  induction m with
  | nil => rfl
  | cons e m ih =>
    obtain ⟨j, y⟩ := e
    obtain ⟨hy, hj, hm⟩ := (Mem.wf_cons d j y m).1 h
    refine (Mem.wf_cons d (j + k) y _).2 ⟨hy, fun e he => ?_, ih hm⟩
    obtain ⟨f, hf, rfl⟩ := List.mem_map.1 he
    have := hj f hf; simp only; omega

/-- A range counted from its first byte keeps the form. -/
theorem Mem.wf_part (d : Byte) (lo hi : Nat) {m : Mem} (h : m.wf d = true) : (m.part lo hi).wf d = true := by
  induction m with
  | nil => rfl
  | cons e m ih =>
    obtain ⟨j, y⟩ := e
    obtain ⟨hy, hj, hm⟩ := (Mem.wf_cons d j y m).1 h
    unfold Mem.part at *
    rw [List.filter_cons]; split
    · refine (Mem.wf_cons d (j - lo) y _).2 ⟨hy, fun e he => ?_, ih hm⟩
      obtain ⟨f, hf, rfl⟩ := List.mem_map.1 he
      have := hj f (List.mem_filter.1 hf).1
      have : lo ≤ j := by have h : _ = true := ‹_›; simp only [Bool.and_eq_true, decide_eq_true_eq] at h; exact h.1
      simp only; omega
    · exact ih hm

theorem Mem.above_cells (d : Byte) {k a : Nat} (bs : List Byte) (h : k < a) : Mem.above k (Mem.cells d a bs) := by
  induction bs generalizing a with
  | nil => exact fun e he => by cases he
  | cons x bs ih => exact Mem.above_cons_of d x (ih (by omega)) h

/-- The cells of some bytes have the form. -/
theorem Mem.wf_cells (d : Byte) (a : Nat) (bs : List Byte) : (Mem.cells d a bs).wf d = true := by
  induction bs generalizing a with
  | nil => rfl
  | cons x bs ih => exact Mem.wf_cons_of d x (ih _) (Mem.above_cells d bs (by omega))

theorem Mem.above_redefault (d e : Byte) {k : Nat} (n a : Nat) (m : Mem) (h : k < a) :
    Mem.above k (Mem.redefault d e n a m) := by
  induction n generalizing a m with
  | zero => exact fun e he => by cases he
  | succ n ih =>
    match m with
    | [] => exact Mem.above_cons_of e d (ih _ _ (by omega)) h
    | (j, y) :: m =>
      simp only [Mem.redefault]; split
      · exact Mem.above_cons_of e y (ih _ _ (by omega)) h
      · exact Mem.above_cons_of e d (ih _ _ (by omega)) h

/-- Cells of another default have the form of that default. -/
theorem Mem.wf_redefault (d e : Byte) (n a : Nat) (m : Mem) : (Mem.redefault d e n a m).wf e = true := by
  induction n generalizing a m with
  | zero => rfl
  | succ n ih =>
    match m with
    | [] => exact Mem.wf_cons_of e d (ih _ _) (Mem.above_redefault d e n _ _ (by omega))
    | (j, y) :: m =>
      simp only [Mem.redefault]; split
      · exact Mem.wf_cons_of e y (ih _ _) (Mem.above_redefault d e n _ _ (by omega))
      · exact Mem.wf_cons_of e d (ih _ _) (Mem.above_redefault d e n _ _ (by omega))

theorem Mem.wf_iff_pairwise (d : Byte) (m : Mem) :
    m.wf d = true ↔ (∀ e ∈ m, e.2 ≠ d) ∧ m.Pairwise fun e f => e.1 < f.1 := by
  induction m with
  | nil => simp [Mem.wf]
  | cons e m ih =>
    obtain ⟨k, y⟩ := e
    rw [Mem.wf_cons, ih, List.pairwise_cons]
    simp only [List.mem_cons, forall_eq_or_imp, Mem.above]
    constructor
    · rintro ⟨a, b, c, d⟩; exact ⟨⟨a, c⟩, b, d⟩
    · rintro ⟨⟨a, c⟩, b, d⟩; exact ⟨a, b, c, d⟩

/-- The bytes of an image that are given have the form. -/
theorem wf_givenCells (x : Ctx) (lo hi : Nat) (c : Core) : (c.givenCells x lo hi).wf 0 = true := by
  refine (Mem.wf_iff_pairwise 0 _).2 ⟨fun e he => ?_, ?_⟩
  · obtain ⟨i, _, hi⟩ := List.mem_filterMap.1 he
    revert hi; split
    · split
      · simp
      · intro h; cases h; assumption
    · simp
  · refine List.Pairwise.filterMap _ (fun i j hij e he f hf => ?_) List.pairwise_lt_range
    revert he hf; split
    · split
      · simp
      · intro h; cases h; split
        · split
          · simp
          · intro h; cases h; simp only; omega
        · simp
    · simp

/-- Pieces that follow each other, each cut to its own offsets, have the form together. -/
theorem wf_pieces (l : List (Nat × Nat × Mem)) (hm : ∀ p ∈ l, p.2.2.wf 0 = true)
    (hl : l.Pairwise fun p q => p.2.1 ≤ q.1) :
    Mem.wf 0 (l.flatMap fun p => p.2.2.filter fun e => p.1 ≤ e.1 && e.1 < p.2.1) = true := by
  induction l with
  | nil => rfl
  | cons p l ih =>
    rw [List.flatMap_cons]
    refine Mem.wf_append 0 (Mem.wf_filter 0 _ (hm p List.mem_cons_self))
      (ih (fun q hq => hm q (List.mem_cons_of_mem _ hq)) (List.pairwise_cons.1 hl).2) fun e he f hf => ?_
    obtain ⟨q, hq, hf⟩ := List.mem_flatMap.1 hf
    have := (List.pairwise_cons.1 hl).1 q hq
    simp only [List.mem_filter, decide_eq_true_eq, Bool.and_eq_true] at he hf; omega

/-- A canonical context's image has the form. -/
theorem wf_imageCells (x : Ctx) {c : Core} (h : c.canonical) : (c.imageCells x).wf 0 = true := by
  obtain ⟨hs, ⟨hv, hb, hm, ht, hg⟩, ⟨ha, hw, -⟩, -⟩ := h
  refine wf_pieces _ ?_ ?_
  · simp only [Core.imagePieces, List.mem_cons, List.not_mem_nil, or_false, forall_eq_or_imp, forall_eq]
    exact ⟨hs, Mem.wf_up 0 _ hv, Mem.wf_up 0 _ ht, Mem.wf_up 0 _ hg, Mem.wf_up 0 _ ha, wf_givenCells .., Mem.wf_up 0 _ hw,
      Mem.wf_up 0 _ (Mem.wf_redefault ..), wf_givenCells .., wf_givenCells .., Mem.wf_cells .., Mem.wf_up 0 _ hm,
      Mem.wf_up 0 _ hb, wf_givenCells .., wf_givenCells ..⟩
  · simp only [Core.imagePieces, List.pairwise_cons, List.mem_cons, List.not_mem_nil, or_false, forall_eq_or_imp, forall_eq]
    refine ⟨?_, ?_⟩
    · omega
    · simp

theorem wf_mergeSpans (cells : Mem) (b : Nat) (l : List (Nat × Nat)) (hc : cells.wf 0 = true) (hl : ∀ s ∈ l, s.1 ≤ s.2)
    {m : Mem} (hm : m.wf 0 = true) : (l.foldl (fun h s => mergeMem (b + s.1) (b + s.2) cells h) m).wf 0 = true := by
  induction l generalizing m with
  | nil => exact hm
  | cons s l ih =>
    exact ih (fun q hq => hl q (List.mem_cons_of_mem _ hq))
      (wf_mergeMem 0 (Nat.add_le_add_left (hl s List.mem_cons_self) b) hc hm)

theorem groupSpans_le (landBase : Nat) (m : Word) (h : landBase ≤ 4194304) : ∀ s ∈ groupSpans landBase m, s.1 ≤ s.2 := by
  unfold groupSpans; split
  · simp
  · intro s hs
    simp only [List.mem_append, List.mem_cons, List.not_mem_nil, or_false, List.mem_ite_nil_right] at hs
    rcases hs with ((((hs | hs) | hs) | hs) | hs) | hs
    · rcases hs with rfl | rfl
      · simp
      · exact h
    all_goals (obtain ⟨_, rfl⟩ := hs; simp)

/-- A context's image written over its rows keeps the channel's form. -/
theorem wf_writeImage (x : Ctx) (m : Word) {land : Nat} (row : Nat) {c : Core} (hl : land ≤ 4194304) (h : c.canonical) :
    (c.writeImage x m land row).canonical :=
  ⟨h.1, h.2.1, h.2.2.1, wf_mergeSpans _ _ _ (Mem.wf_up 0 _ (wf_imageCells x h)) (groupSpans_le _ m hl) h.2.2.2⟩

/-! ## Reading -/

theorem Mem.get_above (d : Byte) {k a : Nat} {m : Mem} (h : Mem.above k m) (ha : a ≤ k) : m.get d a = d := by
  cases m with
  | nil => rfl
  | cons e m =>
    obtain ⟨j, y⟩ := e
    have : k < j := h (j, y) List.mem_cons_self
    simp only [Mem.get]
    rw [if_neg (by omega), if_neg (by omega)]

theorem Mem.get_cons (d : Byte) {a : Nat} (x : Byte) {m : Mem} (h : Mem.above a m) (b : Nat) :
    (Mem.cons d a x m).get d b = if b = a then x else m.get d b := by
  unfold Mem.cons; split
  · subst x; split
    · subst b; exact Mem.get_above d h (Nat.le_refl _)
    · rfl
  · simp only [Mem.get]
    by_cases hb : b = a
    · simp [hb]
    · rw [if_neg hb, if_neg (Ne.symm hb)]
      split
      · rfl
      · exact (Mem.get_above d h (by omega)).symm

/-- A read after a write: the byte written, or what the byte held. -/
theorem Mem.get_put (d : Byte) (a : Nat) (x : Byte) {m : Mem} (h : m.wf d = true) (b : Nat) :
    (m.put d a x).get d b = if b = a then x else m.get d b := by
  induction m with
  | nil => exact Mem.get_cons d x (fun e he => by cases he) b
  | cons e m ih =>
    obtain ⟨k, y⟩ := e
    obtain ⟨_, hk, hm⟩ := (Mem.wf_cons d k y m).1 h
    simp only [Mem.put]; split
    · simp only [Mem.get, ih hm]
      split
      · rfl
      · split
        · rw [if_neg (by omega)]
        · rw [if_neg (by omega)]
    · split
      · subst k; rw [Mem.get_cons d x hk]
        by_cases hb : b = a
        · simp [hb]
        · rw [if_neg hb, if_neg hb]; simp only [Mem.get]
          split
          · rfl
          · rw [if_neg (fun h => hb h.symm)]; exact Mem.get_above d hk (by omega)
      · refine Mem.get_cons d x (fun e he => ?_) b
        rcases List.mem_cons.1 he with rfl | he
        · simp only; omega
        · have := hk e he; omega

/-- A run of bytes written: those of the run, and what the others held. -/
theorem Mem.get_putAll (d : Byte) (bs : List Byte) (a b : Nat) {m : Mem} (h : m.wf d = true) :
    (m.putAll d a bs).get d b = if a ≤ b then (bs[b - a]?).getD (m.get d b) else m.get d b := by
  induction bs generalizing m a with
  | nil => simp [Mem.putAll]
  | cons x bs ih =>
    simp only [Mem.putAll]
    rw [ih _ (Mem.wf_put d a x h), Mem.get_put d a x h]
    by_cases h1 : a + 1 ≤ b
    · have e : b - a = (b - (a + 1)) + 1 := by omega
      rw [if_pos h1, if_pos (by omega : a ≤ b), if_neg (by omega : ¬ b = a), e, List.getElem?_cons_succ]
    · rw [if_neg h1]
      by_cases h2 : b = a
      · subst h2; simp
      · rw [if_neg h2, if_neg (by omega)]

/-- A byte written under a mask. -/
theorem Mem.get_putBits (d : Byte) (a : Nat) (k x : Byte) {m : Mem} (h : m.wf d = true) (b : Nat) :
    (m.putBits d a k x).get d b = if b = a then (m.get d a &&& ~~~k) ||| (x &&& k) else m.get d b :=
  Mem.get_put d a _ h b

theorem Mem.get_clear (d : Byte) (lo hi : Nat) {m : Mem} (h : m.wf d = true) (b : Nat) :
    (m.clear lo hi).get d b = if lo ≤ b ∧ b < hi then d else m.get d b := by
  induction m with
  | nil => simp [Mem.clear, Mem.get]
  | cons e m ih =>
    obtain ⟨k, y⟩ := e
    obtain ⟨_, hk, hm⟩ := (Mem.wf_cons d k y m).1 h
    have ih := ih hm
    have hf : b ≤ k → Mem.get d m b = d := Mem.get_above d hk
    have hc : b ≤ k → Mem.get d (Mem.clear lo hi m) b = d :=
      Mem.get_above d fun e he => hk e (List.mem_filter.1 he).1
    by_cases c : lo ≤ k ∧ k < hi
    · have e : Mem.clear lo hi ((k, y) :: m) = Mem.clear lo hi m := by simp [Mem.clear, c.1, c.2]
      rw [e]; simp only [Mem.get]
      by_cases h1 : k < b
      · rw [if_pos h1]; exact ih
      · rw [if_neg h1, hc (by omega)]
        split
        · rfl
        · rw [if_neg (fun e : k = b => ‹¬ (lo ≤ b ∧ b < hi)› (e ▸ c))]
    · have e : Mem.clear lo hi ((k, y) :: m) = (k, y) :: Mem.clear lo hi m := by
        unfold Mem.clear; rw [List.filter_cons, if_pos (by simp; omega)]
      rw [e]; simp only [Mem.get]
      by_cases h1 : k < b
      · rw [if_pos h1, if_pos h1]; exact ih
      · rw [if_neg h1, if_neg h1]
        by_cases h2 : k = b
        · subst h2; rw [if_neg c]
        · rw [if_neg h2, ite_self]

/-! ## Association lists -/

/-- A memory without the cells of some addresses reads there as if nothing had been written. -/
theorem Mem.get_filter (d : Byte) (p : Nat → Bool) {m : Mem} (h : m.wf d = true) (b : Nat) :
    Mem.get d (m.filter fun e => p e.1) b = if p b then m.get d b else d := by
  induction m with
  | nil => simp [Mem.get]
  | cons e m ih =>
    obtain ⟨k, y⟩ := e
    obtain ⟨_, hk, hm⟩ := (Mem.wf_cons d k y m).1 h
    have below : Mem.above k (m.filter fun e => p e.1) := fun e he => hk e (List.mem_filter.1 he).1
    rw [List.filter_cons]
    by_cases hb : k < b
    · cases hp : p k <;> simp [Mem.get, hb, ih hm]
    · cases hp : p k
      · by_cases e : k = b
        · subst e; simp [hp, Mem.get_above d below]
        · simp [Mem.get, hb, e, Mem.get_above d below (show b ≤ k by omega)]
      · by_cases e : k = b
        · subst e; simp [Mem.get, hp]
        · simp [Mem.get, hb, e]

/-- A new context's channel: the rows that it maps read zero, and all others keep their bytes (R27). -/
theorem Phys.zeroRows_get {p : Phys} (h : p.hbm.wf 0 = true) (a : Nat) :
    p.zeroRows.hbm.get 0 a = if p.ofContext a then 0 else p.hbm.get 0 a := by
  unfold Phys.zeroRows; simp only
  rw [Mem.get_filter 0 (fun a => !p.ofContext a) h]; cases p.ofContext a <;> rfl

theorem wf_zeroRows {p : Phys} (h : p.hbm.wf 0 = true) : p.zeroRows.hbm.wf 0 = true := Mem.wf_filter 0 _ h

/-- A key's value once one key is assigned. -/
theorem look_assign {α : Type} (d x : α) (k j : Nat) (l : List (Nat × α)) :
    look d (assign k x l) j = if j = k then x else look d l j := by
  have c : ∀ (i : Nat) (y : α) (l : List (Nat × α)), look d ((i, y) :: l) j = if i = j then y else look d l j := by
    intro i y l; unfold look; by_cases h : i = j <;> simp [h]
  induction l with
  | nil => rw [assign, c]; by_cases h : j = k
           · rw [if_pos h, if_pos h.symm]
           · rw [if_neg h, if_neg (Ne.symm h)]
  | cons e l ih =>
    obtain ⟨i, y⟩ := e
    unfold assign; split
    · rw [c, c, ih]
      split
      · rw [if_neg (by omega)]
      · rfl
    · split
      · subst i; rw [c, c]; by_cases h : j = k
        · rw [if_pos h, if_pos h.symm]
        · rw [if_neg h, if_neg (Ne.symm h), if_neg (Ne.symm h)]
      · rw [c]; by_cases h : j = k
        · rw [if_pos h, if_pos h.symm]
        · rw [if_neg h, if_neg (Ne.symm h)]

/-! ## Reset -/

/-- Every memory of the machine after reset is canonical. -/
theorem reset_canonical : State.reset.canonical := by
  simp [State.canonical, State.reset]

end Sys2Proof.Machine
end

