-- ==== Sys2Proof/Laws/Ops.lean ====
section
/-!
SUPPORT. What each shared operation can do, said once: how a syllable's issue answers, how an event and a command
answer, what error detection and watchpoints may change, and that the writes of the memories keep their form.
-/

namespace Sys2Proof.Machine

/-! ## The acting core -/

theorem State.setActor_actor {s : State} {c : Core} (h : s.actor = some c) (c' : Core) :
    (s.setActor c').actor = some c' := by
  unfold State.actor State.setActor at *
  split
  · rename_i hlt; simp [hlt]
  · rename_i hlt
    rw [if_neg hlt] at h
    obtain ⟨hl, _⟩ := List.getElem?_eq_some_iff.1 h
    simp [hl]

theorem onCore_at {s : State} {c : Core} (h : s.actor = some c) (f : Ctx → Core → Core) :
    onCore s f = .next (s.setActor (f (s.ctx c) c)) := by
  simp [onCore, h]

/-! ## Issue -/

/-- A syllable that meets every condition of its issue takes its effect. -/
theorem issueSyl_clear {s : State} {c : Core} {i : Instr} (h : Clear s c i) (eff : Ctx → Core → Core) :
    issueSyl i eff s = .next (s.setActor (eff (s.ctx c) c)) := by
  obtain ⟨ha, hi, ht⟩ := h
  simp only [issueSyl, onCore_at ha, hi]
  cases e : timingCode (s.ctx c) c i with
  | none => rfl
  | some d =>
    rcases ht with ht | ht
    · rw [e] at ht; cases ht
    · simp [ht]

/-- An illegal syllable traps and has no effect (R66, R136). -/
theorem issueSyl_illegal {s : State} {c : Core} {i : Instr} {d : Nat} (ha : s.actor = some c)
    (hi : illegal c i = some d) (eff : Ctx → Core → Core) :
    issueSyl i eff s = .next (s.setActor (c.refuse (s.ctx c) i 1 d)) := by
  simp [issueSyl, onCore_at ha, hi]

/-- A syllable with another fault of its issue traps and has no effect, but of what a context has in system mode (R265, R288). -/
theorem issueSyl_timing {s : State} {c : Core} {i : Instr} {d : Nat} (ha : s.actor = some c)
    (hi : illegal c i = none) (ht : timingCode (s.ctx c) c i = some d) (hm : c.exempt i = false)
    (eff : Ctx → Core → Core) :
    issueSyl i eff s = .next (s.setActor (c.refuse (s.ctx c) i 4 d)) := by
  simp [issueSyl, onCore_at ha, hi, ht, hm]

/-- Everything a syllable's issue can do: no core acts, it traps, or it takes its effect. -/
theorem issueSyl_cases (i : Instr) (eff : Ctx → Core → Core) (s : State) :
    (s.actor = none ∧ issueSyl i eff s = .fault .noActor) ∨
    ∃ c, s.actor = some c ∧
      ((Clear s c i ∧ issueSyl i eff s = .next (s.setActor (eff (s.ctx c) c))) ∨
       ∃ k d, issueSyl i eff s = .next (s.setActor (c.refuse (s.ctx c) i k d))) := by
  cases ha : s.actor with
  | none => left; simp [issueSyl, onCore, ha]
  | some c =>
    right; refine ⟨c, rfl, ?_⟩
    cases hi : illegal c i with
    | some d => exact .inr ⟨1, d, issueSyl_illegal ha hi eff⟩
    | none =>
      cases ht : timingCode (s.ctx c) c i with
      | none => exact .inl ⟨⟨ha, hi, .inl ht⟩, issueSyl_clear ⟨ha, hi, .inl ht⟩ eff⟩
      | some d =>
        cases hm : c.exempt i with
        | true => exact .inl ⟨⟨ha, hi, .inr hm⟩, issueSyl_clear ⟨ha, hi, .inr hm⟩ eff⟩
        | false => exact .inr ⟨4, d, issueSyl_timing ha hi ht hm eff⟩

/-- A syllable's issue, where it answers a next state, changes the acting core alone. -/
theorem issueSyl_next {i : Instr} {eff : Ctx → Core → Core} {s t : State} (h : issueSyl i eff s = .next t) :
    ∃ c c', s.actor = some c ∧ t = s.setActor c' := by
  rcases issueSyl_cases i eff s with ⟨_, e⟩ | ⟨c, ha, ⟨_, e⟩ | ⟨k, d, e⟩⟩ <;> rw [e] at h
  · cases h
  · cases h; exact ⟨c, _, ha, rfl⟩
  · cases h; exact ⟨c, _, ha, rfl⟩

/-! ## Where a syllable may not issue -/

/-- The number that a list of checks gives is that of the first condition that holds. -/
theorem firstCode_of {l : List (Prop × Nat)} {b : List (Bool × Nat)}
    (h : List.Forall₂ (fun p q => (p.1 ↔ q.1 = true) ∧ p.2 = q.2) l b) {o : Option Nat} (k : FirstOf l o) :
    firstCode b = o := by
  cases o with
  | none =>
    simp only [firstCode, Option.map_eq_none_iff, List.find?_eq_none, Bool.not_eq_true]
    induction h with
    | nil => simp
    | cons e _ ih =>
      simp only [FirstOf, List.mem_cons, forall_eq_or_imp] at k ⊢
      exact ⟨by simpa [e.1] using k.1, ih k.2⟩
  | some d =>
    obtain ⟨a, p, r, rfl, hp, ha⟩ := k
    induction a generalizing b with
    | nil => cases h with | cons e _ => simp [firstCode, e.1.1 hp, ← e.2]
    | cons x a ih =>
      cases h with
      | cons e t =>
        have : ¬_ = true := fun y => ha x (by simp) (e.1.2 y)
        simp only [firstCode, List.find?_cons, this]
        exact ih t fun q hq => ha q (by simp [hq])

/-- The lowest of the details of a list, beside those of another. -/
theorem lowest_of (l : List (Bool × Nat × Bool)) (o : Option Nat) :
    let r := l.foldl (fun m p => match m with
      | none => some p.2.1
      | some d => some (min d p.2.1)) o
    (r = none ↔ o = none ∧ l = []) ∧
    ∀ d, r = some d → (o = some d ∨ ∃ p ∈ l, p.2.1 = d) ∧ (∀ e, o = some e → d ≤ e) ∧ ∀ p ∈ l, d ≤ p.2.1 := by
  induction l generalizing o with
  | nil => exact ⟨by simp, fun d h => ⟨.inl h, fun e he => by simp_all, by simp⟩⟩
  | cons q l ih =>
    intro r
    cases o with
    | none =>
      have := ih (some q.2.1)
      refine ⟨⟨fun h => absurd h (this.1.not.2 (by simp)), fun h => by simp at h⟩, fun d h => ?_⟩
      obtain ⟨h1, h2, h3⟩ := this.2 d h
      refine ⟨.inr ?_, by simp, fun p hp => ?_⟩
      · rcases h1 with h1 | ⟨p, hp, e⟩
        · exact ⟨q, by simp, by simpa using h1⟩
        · exact ⟨p, by simp [hp], e⟩
      · rcases List.mem_cons.1 hp with rfl | hp
        · exact h2 _ rfl
        · exact h3 p hp
    | some o =>
      have := ih (some (min o q.2.1))
      refine ⟨⟨fun h => absurd h (this.1.not.2 (by simp)), fun h => by simp at h⟩, fun d h => ?_⟩
      obtain ⟨h1, h2, h3⟩ := this.2 d h
      have h2 := h2 _ rfl
      refine ⟨?_, fun e he => by cases he; omega, fun p hp => ?_⟩
      · rcases h1 with h1 | ⟨p, hp, e⟩
        · have h1 : min o q.2.1 = d := by simpa using h1
          by_cases hm : o ≤ q.2.1
          · exact .inl (by rw [← h1, Nat.min_eq_left hm])
          · exact .inr ⟨q, by simp, by omega⟩
        · exact .inr ⟨p, by simp [hp], e⟩
      · rcases List.mem_cons.1 hp with rfl | hp
        · omega
        · exact h3 p hp

/-- The timing detail of a syllable is the lowest that it fails and that its launch does not wait on. -/
theorem timingCode_of {x : Ctx} {c : Core} {i : Instr} {tim : List (Prop × Nat × Bool)}
    (ht : ∀ d h, (true, d, h) ∈ timing x c i ↔ ∃ p, (p, d, h) ∈ tim ∧ p)
    (hs : tim.Pairwise fun p q => p.2.1 ≤ q.2.1) :
    (∀ a q b, tim = a ++ q :: b → q.1 → ¬(x.la.interlocked = true ∧ q.2.2 = true) →
      (∀ r ∈ a, r.1 → x.la.interlocked = true ∧ r.2.2 = true) → timingCode x c i = some q.2.1) ∧
    ((∀ q ∈ tim, ¬q.1) → timingCode x c i = none) := by
  have low := lowest_of ((timing x c i).filter fun p => p.1 && !(x.la.interlocked && p.2.2)) none
  have mem (d : Nat) (h : Bool) : (true, d, h) ∈ ((timing x c i).filter fun p => p.1 && !(x.la.interlocked && p.2.2)) ↔
      (∃ p, (p, d, h) ∈ tim ∧ p) ∧ ¬(x.la.interlocked = true ∧ h = true) := by
    rw [List.mem_filter, ht]; cases h <;> cases x.la.interlocked <;> simp
  refine ⟨fun a q b e hq nw hn => ?_, fun hn => low.1.2 ⟨rfl, ?_⟩⟩
  · have m := (mem q.2.1 q.2.2).2 ⟨⟨q.1, by simp [e], hq⟩, nw⟩
    change List.foldl _ none _ = _
    cases o : List.foldl _ none _ with
    | none => exact absurd (low.1.1 o).2 (List.ne_nil_of_mem m)
    | some d =>
      obtain ⟨h1, -, h3⟩ := low.2 d o
      have le := h3 _ m
      obtain h1 | ⟨⟨b1, d1, w1⟩, hp, rfl⟩ := h1
      · cases h1
      · have tr : b1 = true := by
          have := (List.mem_filter.1 hp).2
          revert this; cases b1 <;> simp
        subst tr
        obtain ⟨⟨P, pm, pt⟩, w⟩ := (mem d1 w1).1 hp
        rw [e, List.mem_append, List.mem_cons] at pm
        rw [e, List.pairwise_append] at hs
        rcases pm with pm | pm | pm
        · exact absurd (hn _ pm pt) w
        · rw [← pm]
        · exact congrArg some (Nat.le_antisymm le ((List.pairwise_cons.1 hs.2.1).1 _ pm))
  · rw [List.eq_nil_iff_forall_not_mem]
    rintro ⟨p, d, h⟩ hp
    have tr : p = true := by
      have := (List.mem_filter.1 hp).2
      revert this; cases p <;> simp
    subst tr
    obtain ⟨⟨P, pm, pt⟩, -⟩ := (mem d h).1 hp
    exact hn _ pm pt

/-- A bundle of one syllable waits on that syllable's own conditions. -/
theorem timingHolds_one (x : Ctx) (c : Core) (p : Nat) (i : Instr) :
    timingHolds x c [(p, i)] = (timing x c i).any fun p => p.1 && p.2.2 := by
  simp [timingHolds, Core.afterProducers]

/-- What lists of conditions say of a syllable's faults, where they are its checks' (R63, R136, R265). -/
theorem trapsWhere_of {s : State} {c : Core} {i : Instr} {ill : List (Prop × Nat)} {tim : List (Prop × Nat × Bool)}
    {bl : List (Bool × Nat)} {eff : Ctx → Core → Core} (ha : s.actor = some c) (he : exec i s = issueSyl i eff s)
    (hi : illegalForm c i = firstCode bl) (hb : List.Forall₂ (fun p q => (p.1 ↔ q.1 = true) ∧ p.2 = q.2) ill bl)
    (ht : ∀ d h, (true, d, h) ∈ timing (s.ctx c) c i ↔ ∃ p, (p, d, h) ∈ tim ∧ p)
    (hs : tim.Pairwise fun p q => p.2.1 ≤ q.2.1) : TrapsWhere s c i ill tim := by
  have code := timingCode_of ht hs
  have legal (k : FirstOf ill none) : illegal c i = none := by rw [illegal, hi, firstCode_of hb k]; rfl
  refine ⟨fun d k ne => ?_, fun k ne a q b e hq => ⟨fun w => ?_, fun nw hn => ?_⟩,
    fun k hn => ⟨ha, legal k, .inl (code.2 hn)⟩⟩
  · have e : illegal c i = some d := by
      rw [illegal, hi, firstCode_of hb k]
      rcases ne with ne | ne <;> simp [ne]
    exact he.trans (issueSyl_illegal ha e _)
  · rw [timingHolds_one, List.any_eq_true]
    exact ⟨_, (ht q.2.1 q.2.2).2 ⟨q.1, by simp [e], hq⟩, by simpa using w.2⟩
  · exact he.trans (issueSyl_timing ha (legal k) (code.1 a q b e hq nw hn) ne _)

/-! ## Events -/

/-- An event of an operation in flight performs on the core as the operation's progress leaves it. -/
theorem coreEvent_at {s : State} {c : Core} {u j k : Nat} {f : Flight} (h : EventAt s c u j f k)
    (g : Ctx → Flight → Nat → Core → Core) :
    coreEvent u j g s = .next (s.setActor (g (s.ctx c) (f.next j) k (c.moved f j))) := by
  obtain ⟨ha, hf, hk⟩ := h
  obtain ⟨t, ht, rfl⟩ := Option.map_eq_some_iff.1 hk
  simp [coreEvent, ha, hf, ht, Core.moved]

/-- An event, where it answers a next state, changes the acting core alone. -/
theorem coreEvent_next {u j : Nat} {g : Ctx → Flight → Nat → Core → Core} {s t : State}
    (h : coreEvent u j g s = .next t) :
    ∃ c f k, EventAt s c u j f k ∧ t = s.setActor (g (s.ctx c) (f.next j) k (c.moved f j)) := by
  cases ha : s.actor with
  | none => simp [coreEvent, ha] at h
  | some c =>
    cases hf : c.flight? u with
    | none => simp [coreEvent, ha, hf] at h
    | some f =>
      cases ht : f.streams[j]? with
      | none => simp [coreEvent, ha, hf, ht] at h
      | some y =>
        have e : EventAt s c u j f y.k := ⟨ha, hf, by simp [ht]⟩
        rw [coreEvent_at e] at h; cases h; exact ⟨c, f, _, e, rfl⟩

theorem flightEvent_at {s : State} {c : Core} {u : Nat} {f : Flight} (ha : s.actor = some c)
    (hf : c.flight? u = some f) (g : Ctx → Flight → Core → Core) :
    flightEvent u g s = .next (s.setActor (g (s.ctx c) f c)) := by
  simp [flightEvent, ha, hf]

theorem flightEvent_next {u : Nat} {g : Ctx → Flight → Core → Core} {s t : State} (h : flightEvent u g s = .next t) :
    ∃ c f, s.actor = some c ∧ c.flight? u = some f ∧ t = s.setActor (g (s.ctx c) f c) := by
  cases ha : s.actor with
  | none => simp [flightEvent, ha] at h
  | some c =>
    cases hf : c.flight? u with
    | none => simp [flightEvent, ha, hf] at h
    | some f => rw [flightEvent_at ha hf] at h; cases h; exact ⟨c, f, rfl, hf, rfl⟩

/-! ## Error detection, traps and watchpoints -/

/-- Nothing differs but the trap record, the fault that halted system code, and the error logs and codes (R266, R288, R304 to R307). -/
def Core.SameButErrors (c c' : Core) : Prop :=
  c' = { c with
    trap := c'.trap
    phys := { c.phys with halted := c'.phys.halted, errs := c'.phys.errs, flips := c'.phys.flips } }

theorem Core.SameButErrors.refl (c : Core) : c.SameButErrors c := by
  rfl

theorem Core.SameButErrors.trans {a b c : Core} (h : a.SameButErrors b) (k : b.SameButErrors c) :
    a.SameButErrors c := by
  rw [Core.SameButErrors] at *; rw [k, h]

theorem Core.SameButErrors.fold {α : Type} {l : List α} {f : Core → α → Core}
    (h : ∀ (c : Core) (x : α), c.SameButErrors (f c x)) (c : Core) : c.SameButErrors (l.foldl f c) := by
  induction l generalizing c with
  | nil => exact .refl c
  | cons x l ih => exact (h c x).trans (ih _)

theorem Core.raise_same (x : Ctx) (t : TrapRec) (c : Core) : c.SameButErrors (c.raise x t) := by
  unfold Core.raise Core.SameButErrors
  split
  · split <;> rfl
  · split
    · rfl
    · split
      · rfl
      · split <;> rfl

theorem Core.setErr_same (a : Nat) (e : ErrLog) (c : Core) : c.SameButErrors (c.setErr a e) := by
  unfold Core.setErr Core.SameButErrors; split <;> rfl

theorem Core.raiseWatch_same (x : Ctx) (w m : Nat) (t : TrapRec) (c : Core) :
    c.SameButErrors (c.raiseWatch x w m t) := by
  unfold Core.raiseWatch
  split
  · split
    · split
      · rfl
      · split <;> rfl
    · exact Core.raise_same ..
  · exact Core.raise_same ..

theorem Core.watch_same (x : Ctx) (w : Bool) (src : Source) (as : List Nat) (t : Nat → TrapRec) (c : Core) :
    c.SameButErrors (c.watch x w src as t) := by
  unfold Core.watch
  split
  · exact .refl c
  · refine .fold (fun c i => ?_) c
    dsimp only; split
    · exact .refl c
    · exact Core.raiseWatch_same ..

theorem Core.readUnit_same (x : Ctx) (t : TrapRec) (a u : Nat) (c : Core) :
    c.SameButErrors (c.readUnit x t a u).1 := by
  unfold Core.readUnit
  split
  · exact .refl c
  · dsimp only; split
    · dsimp only; split
      · exact (Core.setErr_same ..).trans (Core.raise_same ..)
      · exact Core.setErr_same ..
    · exact (Core.setErr_same ..).trans (Core.raise_same ..)

theorem Core.readUnits_same (x : Ctx) (t : TrapRec) (a : Nat) (us : List Nat) (c : Core) :
    c.SameButErrors (c.readUnits x t a us).1 := by
  unfold Core.readUnits
  split
  · exact .refl c
  · suffices ∀ (l : List Nat) (b : Bool) (c : Core), c.SameButErrors
        (l.foldl (fun r u => ((r.1.readUnit x t a u).1, (r.1.readUnit x t a u).2 && r.2)) (c, b)).1 from this _ true c
    intro l; induction l with
    | nil => exact fun _ c => .refl c
    | cons u l ih => exact fun b c => (Core.readUnit_same x t a u c).trans (ih _ _)

theorem Core.writeSpan_same (a lo hi : Nat) (c : Core) : c.SameButErrors (c.writeSpan a lo hi) := by
  unfold Core.writeSpan
  dsimp only; split
  · rfl
  · exact Core.SameButErrors.trans (b := { c with phys := { c.phys with flips := _ } }) rfl (Core.setErr_same ..)

theorem Core.writeUnits_same (a k n : Nat) (c : Core) : c.SameButErrors (c.writeUnits a k n) := by
  unfold Core.writeUnits
  split
  · exact .refl c
  · exact Core.writeSpan_same ..

theorem Core.writeCells_same (a : Nat) (as : List Nat) (c : Core) : c.SameButErrors (c.writeCells a as) := by
  unfold Core.writeCells
  split
  · exact .refl c
  · exact .fold (fun _ _ => Core.writeSpan_same ..) _

theorem Flight.seen_clean {f : Flight} (h : f.codes = []) (l : List (Nat × Nat × Word)) : f.seen l = l := by
  simp [Flight.seen, h]

/-- A check by an operation changes what any check changes, and no unit. -/
theorem Core.seenBy_same {g : Core → Core × Bool} (h : ∀ d : Core, d.SameButErrors (g d).1) (f : Flight) (c : Core) :
    c.SameButErrors (c.seenBy f g).1 ∧ (c.seenBy f g).1.phys.flips = c.phys.flips := by
  have e := h { c with phys := { c.phys with flips := f.seen c.phys.flips } }
  rw [Core.SameButErrors] at *
  exact ⟨by rw [Core.seenBy]; dsimp only; rw [e], rfl⟩

/-- An operation that keeps no unit meets the wrong bits as they are. -/
theorem Core.seenBy_clean {f : Flight} (h : f.codes = []) {g : Core → Core × Bool} {c : Core}
    (k : (g c).1.phys.flips = c.phys.flips) : c.seenBy f g = g c := by
  rw [Core.seenBy, Flight.seen_clean h]
  show (({ (g c).1 with phys := { (g c).1.phys with flips := c.phys.flips } } : Core), (g c).2) = g c
  rw [← k]

/-- A write past some operations changes what they keep, and error codes. -/
theorem Core.writeCellsPast_same (own : Flight → Bool) (a : Nat) (as : List Nat) (c : Core) :
    ∃ fs, ({ c with flights := fs } : Core).SameButErrors (c.writeCellsPast own a as) := by
  unfold Core.writeCellsPast
  split
  · exact ⟨c.flights, .refl c⟩
  · exact ⟨_, Core.writeCells_same ..⟩

/-- Where no unit is wrong, none is armed and no operation keeps one, a write changes no code (R304, R307). -/
theorem Core.writeCellsPast_clean (own : Flight → Bool) {a : Nat} (as : List Nat) {c : Core} (h : c.codesClean a = true)
    (k : ∀ f ∈ c.flights, f.codes = []) : c.writeCellsPast own a as = c := by
  have : c.flights.all (fun f => f.codes.isEmpty) = true := by simpa using k
  simp [Core.writeCellsPast, h, this]

theorem Core.readArraysOf_same (x : Ctx) (p : Nat → Bool) (c : Core) : c.SameButErrors (c.readArraysOf x p) :=
  .fold (fun _ _ => Core.readUnits_same ..) c

theorem Core.writeArraysOf_same (p : Nat → Bool) (c : Core) : c.SameButErrors (c.writeArraysOf p) :=
  .fold (fun _ _ => .fold (fun _ _ => Core.writeSpan_same ..) _) c

theorem Core.spoil_same (l : List (Nat × Word)) (c : Core) : c.SameButErrors (c.spoil l) := by rfl

/-! ## Scratchpad accesses of an operation -/

theorem Ctx.badAddr_none {x : Ctx} {as : List Nat} :
    x.badAddr as = none ↔ ∀ a ∈ as, a < x.landBase ∧ x.outside a = false := by
  simp [Ctx.badAddr, Ctx.forbidden]

theorem Core.mayWrite_of {s : State} {c : Core} {as : List Nat} (h : Writes s c as) (t : TrapRec) (d : Core) :
    d.mayWrite (s.ctx c) t as = (d, true) := by
  simp [Core.mayWrite, Ctx.badAddr_none.2 h]

theorem Core.readOk_of {s : State} {c d : Core} {f : Flight} {as : List Nat} (h : Reads s c f as) (j : Nat)
    (hf : d.phys.flips = c.phys.flips) (hs : d.sp = c.sp) : d.readOk (s.ctx c) f j as = (d, true) := by
  have hz : (!(s.ctx c).la.interlocked && d.sp.hazard f.swz as) = false := by
    cases hi : (s.ctx c).la.interlocked with
    | true => rfl
    | false =>
      have := h.2.2 hi
      simp only [Bool.not_false, Bool.true_and, Scratch.hazard, linesOf, hs]
      simp only [List.any_eq_false, List.mem_dedup, List.mem_map, forall_exists_index, and_imp, forall_apply_eq_imp_iff₂,
        Bool.not_eq_true, beq_eq_false_iff_ne]
      exact this
  have hc : ∀ (t : TrapRec) us, d.readUnits (s.ctx c) t 0 us = (d, true) := fun t us => by simp [Core.readUnits, hf, h.1.1]
  simp only [Core.readOk, Ctx.badAddr_none.2 h.2.1, hz, Bool.false_eq_true, if_false]
  rw [Core.seenBy_clean h.1.2 (by rw [hc]), hc]

theorem Core.SameButErrors.regs {c c' : Core} (h : c.SameButErrors c') : c'.regs = c.regs := by rw [h]
theorem Core.SameButErrors.seq {c c' : Core} (h : c.SameButErrors c') : c'.seq = c.seq := by rw [h]
theorem Core.SameButErrors.sp {c c' : Core} (h : c.SameButErrors c') : c'.sp = c.sp := by rw [h]
theorem Core.SameButErrors.vec {c c' : Core} (h : c.SameButErrors c') : c'.vec = c.vec := by rw [h]
theorem Core.SameButErrors.arr {c c' : Core} (h : c.SameButErrors c') : c'.arr = c.arr := by rw [h]
theorem Core.SameButErrors.q {c c' : Core} (h : c.SameButErrors c') : c'.q = c.q := by rw [h]
theorem Core.SameButErrors.chan {c c' : Core} (h : c.SameButErrors c') : c'.chan = c.chan := by rw [h]
theorem Core.SameButErrors.net {c c' : Core} (h : c.SameButErrors c') : c'.net = c.net := by rw [h]
theorem Core.SameButErrors.pends {c c' : Core} (h : c.SameButErrors c') : c'.pends = c.pends := by rw [h]
theorem Core.SameButErrors.flights {c c' : Core} (h : c.SameButErrors c') : c'.flights = c.flights := by rw [h]
theorem Core.SameButErrors.lid {c c' : Core} (h : c.SameButErrors c') : c'.lid = c.lid := by rw [h]
theorem Core.SameButErrors.hbm {c c' : Core} (h : c.SameButErrors c') : c'.phys.hbm = c.phys.hbm := by rw [h]
theorem Core.SameButErrors.sysMode {c c' : Core} (h : c.SameButErrors c') : c'.phys.sysMode = c.phys.sysMode := by
  rw [h]

theorem Core.SameButErrors.canonical {c c' : Core} (h : c.SameButErrors c') (k : c.canonical) : c'.canonical := by
  unfold Core.canonical at *; rw [h.sp, h.vec, h.arr, h.hbm]; exact k

/-! ## Writes -/

theorem Core.spPut_canonical (q a : Nat) (v : Byte) {c : Core} (h : c.canonical) : (c.spPut q a v).canonical :=
  ⟨Mem.wf_put 0 a v h.1, h.2⟩

/-- A write of scratchpad keeps every memory's form. -/
theorem Core.spWrite_canonical (now q : Nat) (z : Bool) (as : List Nat) (bs : List Byte) {c : Core} (h : c.canonical) :
    (c.spWrite now q z as bs).canonical := by
  have h1 : ∀ (l : List (Nat × Byte)) (c : Core), c.canonical →
      (l.foldl (fun c p => c.spPut q p.1 p.2) c).canonical := by
    intro l; induction l with
    | nil => exact fun c h => h
    | cons p l ih => exact fun c h => ih _ (Core.spPut_canonical q p.1 p.2 h)
  have h2 := let ⟨_, k⟩ := Core.writeCellsPast_same (fun f => f.cls == 4 && f.seqno == q) 0 as _
    k.canonical (h1 (as.zip bs) c h)
  unfold Core.spWrite Scratch.mark; dsimp only
  split <;> exact h2

theorem VecFile.mem_canonical {v : VecFile} (h : v.canonical) (p : Space) : (v.mem p).wf 0 = true := by
  obtain ⟨h1, h2, h3, h4, h5⟩ := h; cases p <;> assumption

theorem VecFile.setMem_canonical {v : VecFile} (h : v.canonical) (p : Space) {m : Mem} (hm : m.wf 0 = true) :
    (v.setMem p m).canonical := by
  obtain ⟨h1, h2, h3, h4, h5⟩ := h; cases p <;> simp_all [VecFile.setMem, VecFile.canonical]

theorem VecFile.putRun_canonical {v : VecFile} (h : v.canonical) (r : Run) : (v.putRun r).canonical := by
  unfold VecFile.putRun; split
  · exact h
  · refine VecFile.setMem_canonical h _ ?_
    suffices ∀ (l : List ((Byte × Byte) × Nat)) (m : Mem), m.wf 0 = true →
        Mem.wf 0 (l.foldl (fun m p => m.putBits 0 (r.addr + p.2) p.1.1 p.1.2) m) = true from
      this _ _ (VecFile.mem_canonical h _)
    intro l; induction l with
    | nil => exact fun m h => h
    | cons p l ih => exact fun m h => ih _ (Mem.wf_putBits 0 _ _ _ h)

/-- Result runs put their bits one after the other, and change beside them the old bytes and units that operations keep, and
error codes. -/
theorem Core.putRuns_same (u : Nat) (rs : List Run) (c : Core) :
    ∃ fs, ({ c with flights := fs, vec := rs.foldl (fun v r => VecFile.putRun r v) c.vec } : Core).SameButErrors (c.putRuns u rs) := by
  have bits : ∀ (l : List Run) (c : Core), ∃ fs, l.foldl (fun c r => c.placeRun u r) c =
      { c with flights := fs, vec := l.foldl (fun v r => VecFile.putRun r v) c.vec } := by
    intro l; induction l with
    | nil => exact fun c => ⟨c.flights, rfl⟩
    | cons r l ih => exact fun c => let ⟨fs, e⟩ := ih (c.placeRun u r); ⟨fs, by rw [List.foldl_cons, e]; rfl⟩
  have codes : ∀ (l : List Nat) (c : Core), ∃ fs, ({ c with flights := fs } : Core).SameButErrors
      (l.foldl (fun c a => c.writeCellsPast (fun f => f.cls == 2 && f.uid == u) a (writtenIn a rs)) c) := by
    intro l; induction l with
    | nil => exact fun c => ⟨c.flights, .refl c⟩
    | cons a l ih =>
      intro c
      obtain ⟨fs, k⟩ := Core.writeCellsPast_same (fun f => f.cls == 2 && f.uid == u) a (writtenIn a rs) c
      obtain ⟨gs, e⟩ := ih (c.writeCellsPast (fun f => f.cls == 2 && f.uid == u) a (writtenIn a rs))
      exact ⟨gs, by rw [Core.SameButErrors] at k; rw [k] at e; rw [List.foldl_cons, k]; exact e⟩
  obtain ⟨fs, e⟩ := bits rs c
  obtain ⟨gs, k⟩ := codes [1, 2, 6] (rs.foldl (fun c r => c.placeRun u r) c)
  exact ⟨gs, by rw [Core.putRuns]; rw [e] at k ⊢; exact k⟩

/-- Result runs keep every memory's form. -/
theorem Core.putRuns_canonical (u : Nat) (rs : List Run) {c : Core} (h : c.canonical) : (c.putRuns u rs).canonical := by
  obtain ⟨fs, k⟩ := Core.putRuns_same u rs c
  refine k.canonical ⟨h.1, ?_, h.2.2⟩
  suffices ∀ (l : List Run) (v : VecFile), v.canonical → (l.foldl (fun v r => VecFile.putRun r v) v).canonical from this rs _ h.2.1
  intro l; induction l with
  | nil => exact fun v h => h
  | cons r l ih => exact fun v h => ih _ (VecFile.putRun_canonical h r)

theorem Core.putRun_canonical (u : Nat) (r : Run) {c : Core} (h : c.canonical) : (c.putRun u r).canonical :=
  Core.putRuns_canonical u [r] h

/-- The memory of one space once another has been replaced. -/
theorem VecFile.mem_setMem (v : VecFile) (p q : Space) (m : Mem) :
    (v.setMem p m).mem q = if q = p then m else v.mem q := by
  cases p <;> cases q <;> rfl

/-- Result runs change the vector file, masks and tiles, the old bytes and units that operations keep, and error codes. -/
theorem Core.putRuns_regs (u : Nat) (rs : List Run) (c : Core) :
    (c.putRuns u rs).regs = c.regs ∧ (c.putRuns u rs).sp = c.sp ∧ (c.putRuns u rs).arr = c.arr ∧
    (c.putRuns u rs).seq = c.seq ∧ (c.putRuns u rs).q = c.q ∧ (c.putRuns u rs).chan = c.chan ∧
    (c.putRuns u rs).phys.hbm = c.phys.hbm := by
  obtain ⟨fs, k⟩ := Core.putRuns_same u rs c
  exact ⟨k.regs, k.sp, k.arr, k.seq, k.q, k.chan, k.hbm⟩

/-- A scratchpad write changes scratchpad, its marks, the old bytes and units that operations keep, and error codes. -/
theorem Core.spWrite_regs (now q : Nat) (z : Bool) (as : List Nat) (bs : List Byte) (c : Core) :
    (c.spWrite now q z as bs).regs = c.regs ∧ (c.spWrite now q z as bs).vec = c.vec ∧
    (c.spWrite now q z as bs).arr = c.arr ∧ (c.spWrite now q z as bs).seq = c.seq ∧
    (c.spWrite now q z as bs).q = c.q ∧ (c.spWrite now q z as bs).phys.hbm = c.phys.hbm := by
  have h1 : ∀ (l : List (Nat × Byte)) (c : Core),
      ∃ fs sp, l.foldl (fun c p => c.spPut q p.1 p.2) c = { c with flights := fs, sp := sp } := by
    intro l; induction l with
    | nil => exact fun c => ⟨c.flights, c.sp, rfl⟩
    | cons p l ih => exact fun c => let ⟨fs, sp, e⟩ := ih (c.spPut q p.1 p.2); ⟨fs, sp, by rw [List.foldl_cons, e]; rfl⟩
  obtain ⟨fs, sp, e⟩ := h1 (as.zip bs) c
  obtain ⟨gs, h2⟩ := Core.writeCellsPast_same (fun f => f.cls == 4 && f.seqno == q) 0 as { c with flights := fs, sp := sp }
  rw [Core.SameButErrors] at h2
  unfold Core.spWrite; dsimp only; rw [e, h2]
  exact ⟨rfl, rfl, rfl, rfl, rfl, rfl⟩

/-! ## The landing area, a seam's reads, and the end of a producer -/

theorem freeBlocks_eq (used : List Nat) : ∀ (fuel k n : Nat),
    freeBlocks used fuel k n = ((List.range' k fuel).filter fun b => !used.contains b).take n
  | 0, _, _ => by simp [freeBlocks]
  | _ + 1, _, 0 => by simp [freeBlocks]
  | fuel + 1, k, n + 1 => by
    simp only [freeBlocks, List.range'_succ, List.filter_cons, freeBlocks_eq used fuel]
    cases used.contains k <;> simp

/-- The blocks that a record takes are apart, lie among the first numbers, and stand in nobody's use. -/
theorem freeBlocks_spec (used : List Nat) (fuel k n : Nat) :
    (freeBlocks used fuel k n).Nodup ∧ ∀ b ∈ freeBlocks used fuel k n, k ≤ b ∧ b < k + fuel ∧ b ∉ used := by
  rw [freeBlocks_eq]
  refine ⟨((List.nodup_range').filter _).sublist (List.take_sublist ..), fun b h => ?_⟩
  have := List.mem_of_mem_take h
  simp only [List.mem_filter, List.mem_range'_1, Bool.not_eq_true', List.contains_eq_mem, decide_eq_false_iff_not] at this
  exact ⟨this.1.1, this.1.2, this.2⟩

/-- There is room for `n` blocks among the first `n` and one more for each in use. -/
theorem freeBlocks_length (used : List Nat) (k n : Nat) : (freeBlocks used (n + used.length) k n).length = n := by
  rw [freeBlocks_eq, List.length_take]
  refine Nat.min_eq_left ?_
  have h := List.length_eq_length_filter_add (l := List.range' k (n + used.length)) fun b => used.contains b
  have u : ((List.range' k (n + used.length)).filter fun b => used.contains b).length ≤ used.length :=
    (List.subperm_of_subset ((List.nodup_range').filter _) fun b h => by simpa using (List.mem_filter.1 h).2).length_le
  rw [List.length_range'] at h
  omega

theorem Core.writeBlocks_same (g : Nat → Nat) (bs : List Nat) (c : Core) :
    c.SameButErrors (bs.foldl (fun c b => c.writeUnits 0 (g b) 64) c) :=
  .fold (fun _ _ => Core.writeUnits_same ..) c

/-- What a record that lands leaves: itself in its blocks behind those that landed before it, and error codes. -/
theorem Core.putLanded_same (x : Ctx) (r : Rec) (c : Core) :
    ({ c with net := { c.net with land := c.net.land ++
      [{ r with blocks := x.landingBlocks (c.net.prev ++ c.net.land) r }] } } : Core).SameButErrors (c.putLanded x r) :=
  Core.writeBlocks_same ..

theorem Core.readLanded_same (x : Ctx) (c : Core) : c.SameButErrors (c.readLanded x).1 := by
  suffices ∀ (l : List Rec) (c : Core) (o : List Rec), c.SameButErrors (l.foldl (fun (r : Core × List Rec) y =>
      let u := r.1.readUnits x (mergeTrap 0 0 0 0) 0 (x.recUnits y)
      (u.1, if u.2 then r.2 else r.2 ++ [y])) (c, o)).1 from this _ c []
  intro l; induction l with
  | nil => exact fun c _ => .refl c
  | cons y l ih => exact fun c o => (Core.readUnits_same ..).trans (ih _ _)

/-- Where no unit is wrong, every landed record can be read and nothing changes (R304). -/
theorem Core.readLanded_clean (x : Ctx) {c : Core} (h : c.phys.flips = []) : c.readLanded x = (c, []) := by
  suffices ∀ l : List Rec, l.foldl (fun (r : Core × List Rec) y =>
      let u := r.1.readUnits x (mergeTrap 0 0 0 0) 0 (x.recUnits y)
      (u.1, if u.2 then r.2 else r.2 ++ [y])) (c, []) = (c, []) from this _
  intro l; induction l with
  | nil => rfl
  | cons y l ih => rw [List.foldl_cons]; simpa [Core.readUnits, h] using ih

/-- The last write of a producer of handle `n`: it moves the fill pointer, or raises the fault that its handle asks for. -/
theorem Core.complete_cases (x : Ctx) (f : Flight) (k n : Nat) (c : Core) (hp : f.prod = true) (hn : f.handle = some n) :
    let h := BitVec.ofNat 4 n
    let earlier := ∃ g ∈ c.producers h, g.seqno < f.seqno ∨ (g.seqno = f.seqno ∧ g.cls < f.cls)
    let full := (c.regs.handle h).count ≤ (c.regs.handle h).filled
    (earlier ∧ c.complete x f k = c.raise x (f.trap 4 0x10 0 k 0)) ∨
    (¬earlier ∧ full ∧ c.complete x f k = c.raise x (f.trap 4 0x13 0 k 0)) ∨
    (¬earlier ∧ ¬full ∧ c.complete x f k = { c with regs := c.regs.advFill h 1 }) := by
  intro h earlier full
  have e : ((c.producers h).any fun g => g.seqno < f.seqno || (g.seqno == f.seqno && g.cls < f.cls)) = true ↔ earlier := by
    simp [earlier]
  by_cases he : earlier
  · exact .inl ⟨he, by simp [Core.complete, hn, hp, h, e.2 he]⟩
  · rw [← e, Bool.not_eq_true] at he
    refine .inr ?_
    by_cases hf : full
    · exact .inl ⟨by rw [← e, he]; simp, hf, by simp [Core.complete, hn, hp, h, he, full] at *; simp [hf]⟩
    · exact .inr ⟨by rw [← e, he]; simp, hf, by simp [Core.complete, hn, hp, h, he, full] at *; omega⟩

/-! ## Traps of system code, and what an interlocked core waits for -/

/-- In system code a trap changes nothing but what the management controller has of it (R288). -/
theorem Core.raise_system (x : Ctx) (t : TrapRec) {c : Core} (h : c.phys.sysMode = true) :
    c.raise x t = if t.names then c
      else { c with phys := { c.phys with halted := some (c.phys.halted.getD (c.fillTrap x t)) } } := by
  simp [Core.raise, h]

/-- What a hold for scales that nothing brings can do: it is none, it has been reported, or it is reported now (R63). -/
theorem Core.starve_cases (x : Ctx) (l : List (Nat × Instr)) (c : Core) :
    ((∀ p ∈ l, scalesStarve x c p.2 = false) ∧ c.starve x l = { c with seq := { c.seq with starved := false } }) ∨
    ∃ a p b, l = a ++ p :: b ∧ (∀ q ∈ a, scalesStarve x c q.2 = false) ∧ scalesStarve x c p.2 = true ∧
      c.starve x l = if c.seq.starved then c
        else ({ c with seq := { c.seq with starved := true } } : Core).raise x
          { cause := 0x0B, detail := 1, kind := 1, engine := engineOf p.2, pos := p.1, bundle := some c.seq.pc } := by
  unfold Core.starve
  cases h : l.find? fun p => scalesStarve x c p.2 with
  | none => exact .inl ⟨by simpa using h, rfl⟩
  | some p =>
    obtain ⟨hp, a, b, e, ha⟩ := List.find?_eq_some_iff_append.1 h
    exact .inr ⟨a, p, b, e, by simpa using ha, hp, rfl⟩

/-- A refusal of issue, as the statements name it. -/
theorem refused_eq (s : State) (t : Seat) (h f : Bool) : refused s t h f = (t.refusedAs s h f, none) := rfl

/-- The field-hold term of R64, as the statements say it. -/
theorem fieldHold_iff (s : State) (t : Seat) : fieldHold s t = true ↔ t.fieldTerm s := by
  simp only [fieldHold, Seat.fieldTerm, State.coresOf, List.all_eq_true, List.mem_filter, beq_iff_eq, and_imp]
  refine forall_congr' fun d => forall_congr' fun _ => forall_congr' fun _ => ?_
  cases d.seq.hist[14]? <;> simp

/-- The view check of R98 holds a core where some read of its bundle meets a write of the other view. -/
theorem viewHolds_iff (s : State) (t : Seat) (rs : List (Bool × List Nat)) :
    viewHolds s.now t.c (instrsAt t.c.code t.c.seq.pc) rs = true ↔ ∃ r ∈ rs, t.meetsWrite s r := by
  simp only [viewHolds, Seat.meetsWrite, writePending, markedLately, List.any_eq_true, Bool.or_eq_true, Bool.and_eq_true,
    bne_iff_ne, List.contains_iff_mem, decide_eq_true_eq, Bool.not_eq_true', List.any_eq_false, beq_iff_eq, or_assoc, ne_eq]

/-- The checks of an interlocked core pass where neither a timing condition nor the view check holds it. -/
theorem checksPass_iff (s : State) (t : Seat) : t.checksPass s ↔
    (timingHolds t.x t.c (instrsAt t.c.code t.c.seq.pc) ||
      viewHolds s.now t.c (instrsAt t.c.code t.c.seq.pc) (s.bundleReads t.pos t.c (instrsAt t.c.code t.c.seq.pc))) = false := by
  rw [Bool.or_eq_false_iff, ← Bool.not_eq_true (viewHolds ..), viewHolds_iff]
  simp [Seat.checksPass]

end Sys2Proof.Machine
end

