-- ==== Sys2Proof/Laws/PerInstr.lean ====
section
/-!
SUPPORT. For each constructor of the instructions: its word decodes to it, with every operand at every value that its
fields admit (R115 to R135); a step that is no syllable has no word.
-/

namespace Sys2Proof.Laws.RoundTrip

/-- A syllable's word, with its lend field, decodes to the syllable. -/
def Statement (i : Instr) : Prop := i.encodable = true → decodeSyllable (encodeSyllable i) i.lend = .instr i

theorem ofS {w o : Nat} {l : Option (BitVec 9)} {d : Decoded} (hc : w / 268435456 % 8 = 1) (ho : w / 4194304 % 64 = o)
    (h : decodeS o w l = some d) : decodeSyllable w l = d := by simp [decodeSyllable, hc, ho, h]

theorem ofV {w o : Nat} {l : Option (BitVec 9)} {d : Decoded} (hc : w / 268435456 % 8 = 2) (ho : w / 4194304 % 64 = o)
    (h : decodeV o w l = some d) : decodeSyllable w l = d := by simp [decodeSyllable, hc, ho, h]

theorem ofM {w o : Nat} {l : Option (BitVec 9)} {d : Decoded} (hc : w / 268435456 % 8 = 3) (ho : w / 4194304 % 64 = o)
    (h : decodeM o w l = some d) : decodeSyllable w l = d := by simp [decodeSyllable, hc, ho, h]

theorem ofL {w o : Nat} {l : Option (BitVec 9)} {d : Decoded} (hc : w / 268435456 % 8 = 4) (ho : w / 4194304 % 64 = o)
    (h : decodeL o w l = some d) : decodeSyllable w l = d := by simp [decodeSyllable, hc, ho, h]

theorem ofW {w o : Nat} {l : Option (BitVec 9)} {d : Decoded} (hc : w / 268435456 % 8 = 5) (ho : w / 4194304 % 64 = o)
    (h : decodeW o w l = some d) : decodeSyllable w l = d := by simp [decodeSyllable, hc, ho, h]

theorem ofD {w o : Nat} {l : Option (BitVec 9)} {d : Decoded} (hc : w / 268435456 % 8 = 6) (ho : w / 4194304 % 64 = o)
    (h : decodeD o w l = some d) : decodeSyllable w l = d := by simp [decodeSyllable, hc, ho, h]

theorem ofX {w o : Nat} {l : Option (BitVec 9)} {d : Decoded} (hc : w / 268435456 % 8 = 7) (ho : w / 4194304 % 64 = o)
    (h : decodeX o w l = some d) : decodeSyllable w l = d := by simp [decodeSyllable, hc, ho, h]

theorem bits_of {w lo n : Nat} (x : BitVec n) (h : w / 2 ^ lo % 2 ^ n = x.toNat) : bits w lo n = x :=
  BitVec.eq_of_toNat_eq (by simpa [bits] using h)

theorem clear_of {w lo n : Nat} (h : w / 2 ^ lo % 2 ^ n = 0) : clear w lo n = true := by simp [clear, h]

theorem and_of {a b : Bool} (ha : a = true) (hb : b = true) : (a && b) = true := by simp [ha, hb]

theorem took {p ok : Bool} {i j : Instr} (h : ok = true) (e : i = j) : takes p ok i = some (.instr j) := by
  simp [takes, h, e]

theorem tookA {ok : Bool} {i j : Instr} (h : ok = true) (e : i = j) : takesA ok i = some (.instr j) := by
  simp [takesA, h, e]

theorem tookM {w : Nat} {l : Option (BitVec 9)} {ok : Bool} {rs : List (BitVec 6)} {i j : Instr} (hm : clear w 0 4 = true)
    (h : ok = true) (e : i = j) : takesM w l ok rs i = some (.instr j) := by
  simp [takesM, takes, hm, h, e]

theorem if_clear {α : Type} {w lo n : Nat} {a b : α} (h : w / 2 ^ lo % 2 ^ n = 0) :
    (if clear w lo n = true then a else b) = a := if_pos (clear_of h)

theorem if_set {α : Type} {w lo n : Nat} {a b : α} (h : w / 2 ^ lo % 2 ^ n ≠ 0) :
    (if clear w lo n = true then a else b) = b := if_neg (by simp [clear, h])

theorem ofMts (a : BitVec 6) (r : BitVec 16) :
    decodeSyllable (0x1C800000 + a.toNat * 65536 + r.toNat) none = .instr (mtsOf a r) := by
  have := a.isLt; have := r.isLt
  obtain ⟨w, e⟩ : ∃ w, w = 0x1C800000 + a.toNat * 65536 + r.toNat := ⟨_, rfl⟩
  rw [← e]; refine ofS (o := 50) (by omega) (by omega) ?_
  exact took rfl (by rw [bits_of a (by omega), bits_of r (by omega)])

theorem mtsOf_own {a : BitVec 6} {r : BitVec 16} (h : ownRow r = false) : mtsOf a r = .mts a r := by
  simp only [ownRow, Bool.or_eq_false_iff, beq_eq_false_iff_ne, Bool.and_eq_false_iff, decide_eq_false_iff_not,
    ne_eq] at h
  obtain ⟨⟨⟨⟨h1, h2⟩, h3⟩, h4⟩, h5⟩ := h
  unfold mtsOf
  rw [if_neg h1, if_neg h2, if_neg h3, if_neg (by simp [isWindow]; omega), if_neg, if_neg]
  all_goals simp only [isEinj, isErrstat, Bool.and_eq_true, decide_eq_true_eq, beq_iff_eq]
  all_goals omega

theorem mtsOf_windowTable (a : BitVec 6) {r : BitVec 16} (h : isWindow r = true) : mtsOf a r = .windowTable a r := by
  have h' : 0x100 ≤ r.toNat ∧ r.toNat ≤ 0x1FF := by simpa [isWindow] using h
  unfold mtsOf
  rw [if_neg, if_neg, if_neg, if_pos h]
  all_goals (intro e; subst e; simp at h')

theorem mtsOf_errstat (a : BitVec 6) {r : BitVec 16} (h : isErrstat r = true) : mtsOf a r = .errstat a r := by
  have h' : (0x3000 ≤ r.toNat ∧ r.toNat < 0x3080) ∧ r.toNat % 16 = 0 := by simpa [isErrstat] using h
  unfold mtsOf
  rw [if_neg, if_neg, if_neg, if_neg, if_pos h]
  · simp [isWindow]; omega
  all_goals (intro e; subst e; simp at h')

theorem mtsOf_einj (a : BitVec 6) {r : BitVec 16} (h : isEinj r = true) : mtsOf a r = .einj a r := by
  have h' : (0x3000 ≤ r.toNat ∧ r.toNat < 0x3080) ∧ r.toNat % 16 = 8 := by simpa [isEinj] using h
  unfold mtsOf
  rw [if_neg, if_neg, if_neg, if_neg, if_neg, if_pos h]
  · simp [isErrstat]; omega
  · simp [isWindow]; omega
  all_goals (intro e; subst e; simp at h')

theorem decodeS_none {o w : Nat} {l : Option (BitVec 9)} (h : ¬ o ≤ 0x36) : decodeS o w l = none := by
  unfold decodeS; split <;> first | rfl | omega

theorem decodeV_none {o w : Nat} {l : Option (BitVec 9)} (h : ¬ o ≤ 0x26) : decodeV o w l = none := by
  unfold decodeV; split <;> first | rfl | omega

theorem decodeM_none {o w : Nat} {l : Option (BitVec 9)} (h : ¬ o ≤ 0x0B) : decodeM o w l = none := by
  unfold decodeM; split <;> first | rfl | omega

theorem decodeL_none {o w : Nat} {l : Option (BitVec 9)} (h : ¬ o ≤ 0x06) : decodeL o w l = none := by
  unfold decodeL; split <;> first | rfl | omega

theorem decodeW_none {o w : Nat} {l : Option (BitVec 9)} (h : ¬ o ≤ 0x05) : decodeW o w l = none := by
  unfold decodeW; split <;> first | rfl | omega

theorem decodeD_none {o w : Nat} {l : Option (BitVec 9)} (h : ¬ (o ≤ 0x08 ∨ (0x10 ≤ o ∧ o ≤ 0x16))) :
    decodeD o w l = none := by
  unfold decodeD; split <;> first | rfl | omega

theorem decodeX_none {o w : Nat} {l : Option (BitVec 9)} (h : ¬ o ≤ 0x3E) : decodeX o w l = none := by
  unfold decodeX; rw [if_neg (by omega), if_neg (by omega), if_neg h]

/-- A word of an undefined opcode decodes to the undefined syllable of its low 31 bits (R130 to R132). -/
theorem undefined_word (w : Nat) (l : Option (BitVec 9))
    (h : opDefined (w / 268435456 % 8) (w / 4194304 % 64) = false) :
    decodeSyllable w l = .instr (.undefinedOpcode (BitVec.ofNat 32 (w % 2147483648))) := by
  unfold decodeSyllable opDefined at *; dsimp only
  split at h <;> rename_i e <;> simp only [decide_eq_false_iff_not, Bool.or_eq_false_iff, Bool.and_eq_false_iff] at h
  all_goals try rw [e]
  · rw [decodeS_none h]; rfl
  · rw [decodeV_none h]; rfl
  · rw [decodeM_none h]; rfl
  · rw [decodeL_none h]; rfl
  · rw [decodeW_none h]; rfl
  · rw [decodeD_none (by omega)]; rfl
  · rw [decodeX_none h]; rfl
  · first | rfl | (split <;> first | (exfalso; simp_all; done) | rfl)

theorem sadd (x0 : BitVec 6) (x1 : BitVec 6) (x2 : BitVec 6) : Statement (.sadd x0 x1 x2) := fun _ => by
  have := x0.isLt; have := x1.isLt; have := x2.isLt
  obtain ⟨w, e⟩ : ∃ w, w = 0x10000000 + x0.toNat * 65536 + x1.toNat * 1024 + x2.toNat * 16 := ⟨_, rfl⟩
  show decodeSyllable (0x10000000 + x0.toNat * 65536 + x1.toNat * 1024 + x2.toNat * 16) none = _
  rw [← e]; refine ofS (o := 0) (by omega) (by omega) ?_
  exact took (and_of (clear_of (by omega)) rfl) (by rw [bits_of x0 (by omega), bits_of x1 (by omega), bits_of x2 (by omega)])
theorem ssub (x0 : BitVec 6) (x1 : BitVec 6) (x2 : BitVec 6) : Statement (.ssub x0 x1 x2) := fun _ => by
  have := x0.isLt; have := x1.isLt; have := x2.isLt
  obtain ⟨w, e⟩ : ∃ w, w = 0x10400000 + x0.toNat * 65536 + x1.toNat * 1024 + x2.toNat * 16 := ⟨_, rfl⟩
  show decodeSyllable (0x10400000 + x0.toNat * 65536 + x1.toNat * 1024 + x2.toNat * 16) none = _
  rw [← e]; refine ofS (o := 1) (by omega) (by omega) ?_
  exact took (and_of (clear_of (by omega)) rfl) (by rw [bits_of x0 (by omega), bits_of x1 (by omega), bits_of x2 (by omega)])
theorem sand (x0 : BitVec 6) (x1 : BitVec 6) (x2 : BitVec 6) : Statement (.sand x0 x1 x2) := fun _ => by
  have := x0.isLt; have := x1.isLt; have := x2.isLt
  obtain ⟨w, e⟩ : ∃ w, w = 0x10800000 + x0.toNat * 65536 + x1.toNat * 1024 + x2.toNat * 16 := ⟨_, rfl⟩
  show decodeSyllable (0x10800000 + x0.toNat * 65536 + x1.toNat * 1024 + x2.toNat * 16) none = _
  rw [← e]; refine ofS (o := 2) (by omega) (by omega) ?_
  exact took (and_of (clear_of (by omega)) rfl) (by rw [bits_of x0 (by omega), bits_of x1 (by omega), bits_of x2 (by omega)])
theorem sor (x0 : BitVec 6) (x1 : BitVec 6) (x2 : BitVec 6) : Statement (.sor x0 x1 x2) := fun _ => by
  have := x0.isLt; have := x1.isLt; have := x2.isLt
  obtain ⟨w, e⟩ : ∃ w, w = 0x10C00000 + x0.toNat * 65536 + x1.toNat * 1024 + x2.toNat * 16 := ⟨_, rfl⟩
  show decodeSyllable (0x10C00000 + x0.toNat * 65536 + x1.toNat * 1024 + x2.toNat * 16) none = _
  rw [← e]; refine ofS (o := 3) (by omega) (by omega) ?_
  exact took (and_of (clear_of (by omega)) rfl) (by rw [bits_of x0 (by omega), bits_of x1 (by omega), bits_of x2 (by omega)])
theorem sxor (x0 : BitVec 6) (x1 : BitVec 6) (x2 : BitVec 6) : Statement (.sxor x0 x1 x2) := fun _ => by
  have := x0.isLt; have := x1.isLt; have := x2.isLt
  obtain ⟨w, e⟩ : ∃ w, w = 0x11000000 + x0.toNat * 65536 + x1.toNat * 1024 + x2.toNat * 16 := ⟨_, rfl⟩
  show decodeSyllable (0x11000000 + x0.toNat * 65536 + x1.toNat * 1024 + x2.toNat * 16) none = _
  rw [← e]; refine ofS (o := 4) (by omega) (by omega) ?_
  exact took (and_of (clear_of (by omega)) rfl) (by rw [bits_of x0 (by omega), bits_of x1 (by omega), bits_of x2 (by omega)])
theorem sshl (x0 : BitVec 6) (x1 : BitVec 6) (x2 : BitVec 6) : Statement (.sshl x0 x1 x2) := fun _ => by
  have := x0.isLt; have := x1.isLt; have := x2.isLt
  obtain ⟨w, e⟩ : ∃ w, w = 0x11400000 + x0.toNat * 65536 + x1.toNat * 1024 + x2.toNat * 16 := ⟨_, rfl⟩
  show decodeSyllable (0x11400000 + x0.toNat * 65536 + x1.toNat * 1024 + x2.toNat * 16) none = _
  rw [← e]; refine ofS (o := 5) (by omega) (by omega) ?_
  exact took (and_of (clear_of (by omega)) rfl) (by rw [bits_of x0 (by omega), bits_of x1 (by omega), bits_of x2 (by omega)])
theorem sshr (x0 : BitVec 6) (x1 : BitVec 6) (x2 : BitVec 6) : Statement (.sshr x0 x1 x2) := fun _ => by
  have := x0.isLt; have := x1.isLt; have := x2.isLt
  obtain ⟨w, e⟩ : ∃ w, w = 0x11800000 + x0.toNat * 65536 + x1.toNat * 1024 + x2.toNat * 16 := ⟨_, rfl⟩
  show decodeSyllable (0x11800000 + x0.toNat * 65536 + x1.toNat * 1024 + x2.toNat * 16) none = _
  rw [← e]; refine ofS (o := 6) (by omega) (by omega) ?_
  exact took (and_of (clear_of (by omega)) rfl) (by rw [bits_of x0 (by omega), bits_of x1 (by omega), bits_of x2 (by omega)])
theorem ssra (x0 : BitVec 6) (x1 : BitVec 6) (x2 : BitVec 6) : Statement (.ssra x0 x1 x2) := fun _ => by
  have := x0.isLt; have := x1.isLt; have := x2.isLt
  obtain ⟨w, e⟩ : ∃ w, w = 0x11C00000 + x0.toNat * 65536 + x1.toNat * 1024 + x2.toNat * 16 := ⟨_, rfl⟩
  show decodeSyllable (0x11C00000 + x0.toNat * 65536 + x1.toNat * 1024 + x2.toNat * 16) none = _
  rw [← e]; refine ofS (o := 7) (by omega) (by omega) ?_
  exact took (and_of (clear_of (by omega)) rfl) (by rw [bits_of x0 (by omega), bits_of x1 (by omega), bits_of x2 (by omega)])
theorem smul (x0 : BitVec 6) (x1 : BitVec 6) (x2 : BitVec 6) : Statement (.smul x0 x1 x2) := fun _ => by
  have := x0.isLt; have := x1.isLt; have := x2.isLt
  obtain ⟨w, e⟩ : ∃ w, w = 0x12000000 + x0.toNat * 65536 + x1.toNat * 1024 + x2.toNat * 16 := ⟨_, rfl⟩
  show decodeSyllable (0x12000000 + x0.toNat * 65536 + x1.toNat * 1024 + x2.toNat * 16) none = _
  rw [← e]; refine ofS (o := 8) (by omega) (by omega) ?_
  exact took (and_of (clear_of (by omega)) rfl) (by rw [bits_of x0 (by omega), bits_of x1 (by omega), bits_of x2 (by omega)])
theorem smulh (x0 : BitVec 6) (x1 : BitVec 6) (x2 : BitVec 6) (x3 : BitVec 1) : Statement (.smulh x0 x1 x2 x3) := fun _ => by
  have := x0.isLt; have := x1.isLt; have := x2.isLt; have := x3.isLt
  obtain ⟨w, e⟩ : ∃ w, w = 0x12400000 + x0.toNat * 65536 + x1.toNat * 1024 + x2.toNat * 16 + x3.toNat := ⟨_, rfl⟩
  show decodeSyllable (0x12400000 + x0.toNat * 65536 + x1.toNat * 1024 + x2.toNat * 16 + x3.toNat) none = _
  rw [← e]; refine ofS (o := 9) (by omega) (by omega) ?_
  exact took (and_of (clear_of (by omega)) rfl) (by rw [bits_of x0 (by omega), bits_of x1 (by omega), bits_of x2 (by omega), bits_of x3 (by omega)])
theorem sdiv (x0 : BitVec 6) (x1 : BitVec 6) (x2 : BitVec 6) (x3 : BitVec 1) : Statement (.sdiv x0 x1 x2 x3) := fun _ => by
  have := x0.isLt; have := x1.isLt; have := x2.isLt; have := x3.isLt
  obtain ⟨w, e⟩ : ∃ w, w = 0x12800000 + x0.toNat * 65536 + x1.toNat * 1024 + x2.toNat * 16 + x3.toNat := ⟨_, rfl⟩
  show decodeSyllable (0x12800000 + x0.toNat * 65536 + x1.toNat * 1024 + x2.toNat * 16 + x3.toNat) none = _
  rw [← e]; refine ofS (o := 10) (by omega) (by omega) ?_
  exact took (and_of (clear_of (by omega)) rfl) (by rw [bits_of x0 (by omega), bits_of x1 (by omega), bits_of x2 (by omega), bits_of x3 (by omega)])
theorem srem (x0 : BitVec 6) (x1 : BitVec 6) (x2 : BitVec 6) (x3 : BitVec 1) : Statement (.srem x0 x1 x2 x3) := fun _ => by
  have := x0.isLt; have := x1.isLt; have := x2.isLt; have := x3.isLt
  obtain ⟨w, e⟩ : ∃ w, w = 0x12C00000 + x0.toNat * 65536 + x1.toNat * 1024 + x2.toNat * 16 + x3.toNat := ⟨_, rfl⟩
  show decodeSyllable (0x12C00000 + x0.toNat * 65536 + x1.toNat * 1024 + x2.toNat * 16 + x3.toNat) none = _
  rw [← e]; refine ofS (o := 11) (by omega) (by omega) ?_
  exact took (and_of (clear_of (by omega)) rfl) (by rw [bits_of x0 (by omega), bits_of x1 (by omega), bits_of x2 (by omega), bits_of x3 (by omega)])
theorem smin (x0 : BitVec 6) (x1 : BitVec 6) (x2 : BitVec 6) (x3 : BitVec 1) : Statement (.smin x0 x1 x2 x3) := fun _ => by
  have := x0.isLt; have := x1.isLt; have := x2.isLt; have := x3.isLt
  obtain ⟨w, e⟩ : ∃ w, w = 0x13000000 + x0.toNat * 65536 + x1.toNat * 1024 + x2.toNat * 16 + x3.toNat := ⟨_, rfl⟩
  show decodeSyllable (0x13000000 + x0.toNat * 65536 + x1.toNat * 1024 + x2.toNat * 16 + x3.toNat) none = _
  rw [← e]; refine ofS (o := 12) (by omega) (by omega) ?_
  exact took (and_of (clear_of (by omega)) rfl) (by rw [bits_of x0 (by omega), bits_of x1 (by omega), bits_of x2 (by omega), bits_of x3 (by omega)])
theorem smax (x0 : BitVec 6) (x1 : BitVec 6) (x2 : BitVec 6) (x3 : BitVec 1) : Statement (.smax x0 x1 x2 x3) := fun _ => by
  have := x0.isLt; have := x1.isLt; have := x2.isLt; have := x3.isLt
  obtain ⟨w, e⟩ : ∃ w, w = 0x13400000 + x0.toNat * 65536 + x1.toNat * 1024 + x2.toNat * 16 + x3.toNat := ⟨_, rfl⟩
  show decodeSyllable (0x13400000 + x0.toNat * 65536 + x1.toNat * 1024 + x2.toNat * 16 + x3.toNat) none = _
  rw [← e]; refine ofS (o := 13) (by omega) (by omega) ?_
  exact took (and_of (clear_of (by omega)) rfl) (by rw [bits_of x0 (by omega), bits_of x1 (by omega), bits_of x2 (by omega), bits_of x3 (by omega)])
theorem sclz (x0 : BitVec 6) (x1 : BitVec 6) : Statement (.sclz x0 x1) := fun _ => by
  have := x0.isLt; have := x1.isLt
  obtain ⟨w, e⟩ : ∃ w, w = 0x13800000 + x0.toNat * 65536 + x1.toNat * 1024 := ⟨_, rfl⟩
  show decodeSyllable (0x13800000 + x0.toNat * 65536 + x1.toNat * 1024) none = _
  rw [← e]; refine ofS (o := 14) (by omega) (by omega) ?_
  exact took (and_of (clear_of (by omega)) rfl) (by rw [bits_of x0 (by omega), bits_of x1 (by omega)])
theorem spop (x0 : BitVec 6) (x1 : BitVec 6) : Statement (.spop x0 x1) := fun _ => by
  have := x0.isLt; have := x1.isLt
  obtain ⟨w, e⟩ : ∃ w, w = 0x13C00000 + x0.toNat * 65536 + x1.toNat * 1024 := ⟨_, rfl⟩
  show decodeSyllable (0x13C00000 + x0.toNat * 65536 + x1.toNat * 1024) none = _
  rw [← e]; refine ofS (o := 15) (by omega) (by omega) ?_
  exact took (and_of (clear_of (by omega)) rfl) (by rw [bits_of x0 (by omega), bits_of x1 (by omega)])
theorem saddi (x0 : BitVec 6) (x1 : BitVec 6) (x2 : BitVec 10) (x3 : Option (BitVec 9)) : Statement (.saddi x0 x1 x2 x3) := fun _ => by
  have := x0.isLt; have := x1.isLt; have := x2.isLt
  obtain ⟨w, e⟩ : ∃ w, w = 0x14000000 + x0.toNat * 65536 + x1.toNat * 1024 + x2.toNat := ⟨_, rfl⟩
  show decodeSyllable (0x14000000 + x0.toNat * 65536 + x1.toNat * 1024 + x2.toNat) x3 = _
  rw [← e]; refine ofS (o := 16) (by omega) (by omega) ?_
  exact took rfl (by rw [bits_of x0 (by omega), bits_of x1 (by omega), bits_of x2 (by omega)])
theorem sandi (x0 : BitVec 6) (x1 : BitVec 6) (x2 : BitVec 10) (x3 : Option (BitVec 9)) : Statement (.sandi x0 x1 x2 x3) := fun _ => by
  have := x0.isLt; have := x1.isLt; have := x2.isLt
  obtain ⟨w, e⟩ : ∃ w, w = 0x14400000 + x0.toNat * 65536 + x1.toNat * 1024 + x2.toNat := ⟨_, rfl⟩
  show decodeSyllable (0x14400000 + x0.toNat * 65536 + x1.toNat * 1024 + x2.toNat) x3 = _
  rw [← e]; refine ofS (o := 17) (by omega) (by omega) ?_
  exact took rfl (by rw [bits_of x0 (by omega), bits_of x1 (by omega), bits_of x2 (by omega)])
theorem sori (x0 : BitVec 6) (x1 : BitVec 6) (x2 : BitVec 10) (x3 : Option (BitVec 9)) : Statement (.sori x0 x1 x2 x3) := fun _ => by
  have := x0.isLt; have := x1.isLt; have := x2.isLt
  obtain ⟨w, e⟩ : ∃ w, w = 0x14800000 + x0.toNat * 65536 + x1.toNat * 1024 + x2.toNat := ⟨_, rfl⟩
  show decodeSyllable (0x14800000 + x0.toNat * 65536 + x1.toNat * 1024 + x2.toNat) x3 = _
  rw [← e]; refine ofS (o := 18) (by omega) (by omega) ?_
  exact took rfl (by rw [bits_of x0 (by omega), bits_of x1 (by omega), bits_of x2 (by omega)])
theorem sxori (x0 : BitVec 6) (x1 : BitVec 6) (x2 : BitVec 10) (x3 : Option (BitVec 9)) : Statement (.sxori x0 x1 x2 x3) := fun _ => by
  have := x0.isLt; have := x1.isLt; have := x2.isLt
  obtain ⟨w, e⟩ : ∃ w, w = 0x14C00000 + x0.toNat * 65536 + x1.toNat * 1024 + x2.toNat := ⟨_, rfl⟩
  show decodeSyllable (0x14C00000 + x0.toNat * 65536 + x1.toNat * 1024 + x2.toNat) x3 = _
  rw [← e]; refine ofS (o := 19) (by omega) (by omega) ?_
  exact took rfl (by rw [bits_of x0 (by omega), bits_of x1 (by omega), bits_of x2 (by omega)])
theorem sshli (x0 : BitVec 6) (x1 : BitVec 6) (x2 : BitVec 10) (x3 : Option (BitVec 9)) : Statement (.sshli x0 x1 x2 x3) := fun _ => by
  have := x0.isLt; have := x1.isLt; have := x2.isLt
  obtain ⟨w, e⟩ : ∃ w, w = 0x15000000 + x0.toNat * 65536 + x1.toNat * 1024 + x2.toNat := ⟨_, rfl⟩
  show decodeSyllable (0x15000000 + x0.toNat * 65536 + x1.toNat * 1024 + x2.toNat) x3 = _
  rw [← e]; refine ofS (o := 20) (by omega) (by omega) ?_
  exact took rfl (by rw [bits_of x0 (by omega), bits_of x1 (by omega), bits_of x2 (by omega)])
theorem sshri (x0 : BitVec 6) (x1 : BitVec 6) (x2 : BitVec 10) (x3 : Option (BitVec 9)) : Statement (.sshri x0 x1 x2 x3) := fun _ => by
  have := x0.isLt; have := x1.isLt; have := x2.isLt
  obtain ⟨w, e⟩ : ∃ w, w = 0x15400000 + x0.toNat * 65536 + x1.toNat * 1024 + x2.toNat := ⟨_, rfl⟩
  show decodeSyllable (0x15400000 + x0.toNat * 65536 + x1.toNat * 1024 + x2.toNat) x3 = _
  rw [← e]; refine ofS (o := 21) (by omega) (by omega) ?_
  exact took rfl (by rw [bits_of x0 (by omega), bits_of x1 (by omega), bits_of x2 (by omega)])
theorem ssrai (x0 : BitVec 6) (x1 : BitVec 6) (x2 : BitVec 10) (x3 : Option (BitVec 9)) : Statement (.ssrai x0 x1 x2 x3) := fun _ => by
  have := x0.isLt; have := x1.isLt; have := x2.isLt
  obtain ⟨w, e⟩ : ∃ w, w = 0x15800000 + x0.toNat * 65536 + x1.toNat * 1024 + x2.toNat := ⟨_, rfl⟩
  show decodeSyllable (0x15800000 + x0.toNat * 65536 + x1.toNat * 1024 + x2.toNat) x3 = _
  rw [← e]; refine ofS (o := 22) (by omega) (by omega) ?_
  exact took rfl (by rw [bits_of x0 (by omega), bits_of x1 (by omega), bits_of x2 (by omega)])
theorem smuli (x0 : BitVec 6) (x1 : BitVec 6) (x2 : BitVec 10) (x3 : Option (BitVec 9)) : Statement (.smuli x0 x1 x2 x3) := fun _ => by
  have := x0.isLt; have := x1.isLt; have := x2.isLt
  obtain ⟨w, e⟩ : ∃ w, w = 0x15C00000 + x0.toNat * 65536 + x1.toNat * 1024 + x2.toNat := ⟨_, rfl⟩
  show decodeSyllable (0x15C00000 + x0.toNat * 65536 + x1.toNat * 1024 + x2.toNat) x3 = _
  rw [← e]; refine ofS (o := 23) (by omega) (by omega) ?_
  exact took rfl (by rw [bits_of x0 (by omega), bits_of x1 (by omega), bits_of x2 (by omega)])
theorem sli (x0 : BitVec 6) (x1 : BitVec 16) (x2 : Option (BitVec 9)) : Statement (.sli x0 x1 x2) := fun _ => by
  have := x0.isLt; have := x1.isLt
  obtain ⟨w, e⟩ : ∃ w, w = 0x16000000 + x0.toNat * 65536 + x1.toNat := ⟨_, rfl⟩
  show decodeSyllable (0x16000000 + x0.toNat * 65536 + x1.toNat) x2 = _
  rw [← e]; refine ofS (o := 24) (by omega) (by omega) ?_
  exact took rfl (by rw [bits_of x0 (by omega), bits_of x1 (by omega)])
theorem slhi (x0 : BitVec 6) (x1 : BitVec 16) (x2 : Option (BitVec 9)) : Statement (.slhi x0 x1 x2) := fun _ => by
  have := x0.isLt; have := x1.isLt
  obtain ⟨w, e⟩ : ∃ w, w = 0x16400000 + x0.toNat * 65536 + x1.toNat := ⟨_, rfl⟩
  show decodeSyllable (0x16400000 + x0.toNat * 65536 + x1.toNat) x2 = _
  rw [← e]; refine ofS (o := 25) (by omega) (by omega) ?_
  exact took rfl (by rw [bits_of x0 (by omega), bits_of x1 (by omega)])
theorem sadr (x0 : BitVec 6) (x1 : BitVec 6) (x2 : BitVec 6) (x3 : BitVec 4) : Statement (.sadr x0 x1 x2 x3) := fun _ => by
  have := x0.isLt; have := x1.isLt; have := x2.isLt; have := x3.isLt
  obtain ⟨w, e⟩ : ∃ w, w = 0x16800000 + x0.toNat * 65536 + x1.toNat * 1024 + x2.toNat * 16 + x3.toNat := ⟨_, rfl⟩
  show decodeSyllable (0x16800000 + x0.toNat * 65536 + x1.toNat * 1024 + x2.toNat * 16 + x3.toNat) none = _
  rw [← e]; refine ofS (o := 26) (by omega) (by omega) ?_
  exact took rfl (by rw [bits_of x0 (by omega), bits_of x1 (by omega), bits_of x2 (by omega), bits_of x3 (by omega)])
theorem ssel (x0 : BitVec 6) (x1 : BitVec 6) (x2 : BitVec 6) (x3 : BitVec 4) : Statement (.ssel x0 x1 x2 x3) := fun _ => by
  have := x0.isLt; have := x1.isLt; have := x2.isLt; have := x3.isLt
  obtain ⟨w, e⟩ : ∃ w, w = 0x16C00000 + x0.toNat * 65536 + x1.toNat * 1024 + x2.toNat * 16 + x3.toNat := ⟨_, rfl⟩
  show decodeSyllable (0x16C00000 + x0.toNat * 65536 + x1.toNat * 1024 + x2.toNat * 16 + x3.toNat) none = _
  rw [← e]; refine ofS (o := 27) (by omega) (by omega) ?_
  exact took rfl (by rw [bits_of x0 (by omega), bits_of x1 (by omega), bits_of x2 (by omega), bits_of x3 (by omega)])
theorem sext (x0 : BitVec 6) (x1 : BitVec 6) (x2 : BitVec 1) (x3 : BitVec 2) : Statement (.sext x0 x1 x2 x3) := fun _ => by
  have := x0.isLt; have := x1.isLt; have := x2.isLt; have := x3.isLt
  obtain ⟨w, e⟩ : ∃ w, w = 0x17000000 + x0.toNat * 65536 + x1.toNat * 1024 + x2.toNat * 4 + x3.toNat := ⟨_, rfl⟩
  show decodeSyllable (0x17000000 + x0.toNat * 65536 + x1.toNat * 1024 + x2.toNat * 4 + x3.toNat) none = _
  rw [← e]; refine ofS (o := 28) (by omega) (by omega) ?_
  exact took (and_of (clear_of (by omega)) rfl) (by rw [bits_of x0 (by omega), bits_of x1 (by omega), bits_of x2 (by omega), bits_of x3 (by omega)])
theorem scmp (x0 : BitVec 4) (x1 : BitVec 1) (x2 : BitVec 3) (x3 : BitVec 1) (x4 : BitVec 6) (x5 : BitVec 6) : Statement (.scmp x0 x1 x2 x3 x4 x5) := fun _ => by
  have := x0.isLt; have := x1.isLt; have := x2.isLt; have := x3.isLt; have := x4.isLt; have := x5.isLt
  obtain ⟨w, e⟩ : ∃ w, w = 0x17400000 + x0.toNat * 262144 + x1.toNat * 131072 + x2.toNat * 16384 + x3.toNat * 8192 + x4.toNat * 128 + x5.toNat * 2 := ⟨_, rfl⟩
  show decodeSyllable (0x17400000 + x0.toNat * 262144 + x1.toNat * 131072 + x2.toNat * 16384 + x3.toNat * 8192 + x4.toNat * 128 + x5.toNat * 2) none = _
  rw [← e]; refine ofS (o := 29) (by omega) (by omega) ?_
  exact took (and_of (clear_of (by omega)) rfl) (by rw [bits_of x0 (by omega), bits_of x1 (by omega), bits_of x2 (by omega), bits_of x3 (by omega), bits_of x4 (by omega), bits_of x5 (by omega)])
theorem scmpi (x0 : BitVec 4) (x1 : BitVec 1) (x2 : BitVec 3) (x3 : BitVec 1) (x4 : BitVec 6) (x5 : BitVec 7) (x6 : Option (BitVec 9)) : Statement (.scmpi x0 x1 x2 x3 x4 x5 x6) := fun _ => by
  have := x0.isLt; have := x1.isLt; have := x2.isLt; have := x3.isLt; have := x4.isLt; have := x5.isLt
  obtain ⟨w, e⟩ : ∃ w, w = 0x17800000 + x0.toNat * 262144 + x1.toNat * 131072 + x2.toNat * 16384 + x3.toNat * 8192 + x4.toNat * 128 + x5.toNat := ⟨_, rfl⟩
  show decodeSyllable (0x17800000 + x0.toNat * 262144 + x1.toNat * 131072 + x2.toNat * 16384 + x3.toNat * 8192 + x4.toNat * 128 + x5.toNat) x6 = _
  rw [← e]; refine ofS (o := 30) (by omega) (by omega) ?_
  exact took rfl (by rw [bits_of x0 (by omega), bits_of x1 (by omega), bits_of x2 (by omega), bits_of x3 (by omega), bits_of x4 (by omega), bits_of x5 (by omega)])
theorem kset (x0 : BitVec 4) (x1 : BitVec 2) : Statement (.kset x0 x1) := fun _ => by
  have := x0.isLt; have := x1.isLt
  obtain ⟨w, e⟩ : ∃ w, w = 0x17C00000 + x0.toNat * 262144 + x1.toNat := ⟨_, rfl⟩
  show decodeSyllable (0x17C00000 + x0.toNat * 262144 + x1.toNat) none = _
  rw [← e]; refine ofS (o := 31) (by omega) (by omega) ?_
  refine (if_clear (by omega)).trans ?_
  exact took (and_of (clear_of (by omega)) rfl) (by rw [bits_of x0 (by omega), bits_of x1 (by omega)])
theorem ksetReg (x0 : BitVec 4) (x1 : BitVec 6) : Statement (.ksetReg x0 x1) := fun _ => by
  have := x0.isLt; have := x1.isLt
  obtain ⟨w, e⟩ : ∃ w, w = 0x17C20000 + x0.toNat * 262144 + x1.toNat * 2048 := ⟨_, rfl⟩
  show decodeSyllable (0x17C20000 + x0.toNat * 262144 + x1.toNat * 2048) none = _
  rw [← e]; refine ofS (o := 31) (by omega) (by omega) ?_
  refine (if_set (by omega)).trans ?_
  exact took (and_of (clear_of (by omega)) rfl) (by rw [bits_of x0 (by omega), bits_of x1 (by omega)])
theorem prep (x0 : BitVec 4) (x1 : BitVec 8) (x2 : BitVec 8) : Statement (.prep x0 x1 x2) := fun _ => by
  have := x0.isLt; have := x1.isLt; have := x2.isLt
  obtain ⟨w, e⟩ : ∃ w, w = 0x18000000 + x0.toNat * 262144 + x1.toNat * 256 + x2.toNat := ⟨_, rfl⟩
  show decodeSyllable (0x18000000 + x0.toNat * 262144 + x1.toNat * 256 + x2.toNat) none = _
  rw [← e]; refine ofS (o := 32) (by omega) (by omega) ?_
  refine (if_clear (by omega)).trans ?_
  exact took (and_of (clear_of (by omega)) rfl) (by rw [bits_of x0 (by omega), bits_of x1 (by omega), bits_of x2 (by omega)])
theorem prepHi (x0 : BitVec 4) (x1 : BitVec 8) (x2 : BitVec 8) : Statement (.prepHi x0 x1 x2) := fun _ => by
  have := x0.isLt; have := x1.isLt; have := x2.isLt
  obtain ⟨w, e⟩ : ∃ w, w = 0x18020000 + x0.toNat * 262144 + x1.toNat * 256 + x2.toNat := ⟨_, rfl⟩
  show decodeSyllable (0x18020000 + x0.toNat * 262144 + x1.toNat * 256 + x2.toNat) none = _
  rw [← e]; refine ofS (o := 32) (by omega) (by omega) ?_
  refine (if_set (by omega)).trans ?_
  exact took (and_of (clear_of (by omega)) rfl) (by rw [bits_of x0 (by omega), bits_of x1 (by omega), bits_of x2 (by omega)])
theorem head (x0 : BitVec 4) : Statement (.head x0) := fun _ => by
  have := x0.isLt
  obtain ⟨w, e⟩ : ∃ w, w = 0x18400000 + x0.toNat * 262144 := ⟨_, rfl⟩
  show decodeSyllable (0x18400000 + x0.toNat * 262144) none = _
  rw [← e]; refine ofS (o := 33) (by omega) (by omega) ?_
  exact took (and_of (clear_of (by omega)) rfl) (by rw [bits_of x0 (by omega)])
theorem fend : Statement (.fend) := fun _ => by
  obtain ⟨w, e⟩ : ∃ w, w = 0x18800000 := ⟨_, rfl⟩
  show decodeSyllable (0x18800000) none = _
  rw [← e]; refine ofS (o := 34) (by omega) (by omega) ?_
  exact took (and_of (clear_of (by omega)) rfl) (by rfl)
theorem loop (x0 : BitVec 9) (x1 : BitVec 12) (x2 : Option (BitVec 9)) : Statement (.loop x0 x1 x2) := fun _ => by
  have := x0.isLt; have := x1.isLt
  obtain ⟨w, e⟩ : ∃ w, w = 0x18C00000 + x0.toNat * 4096 + x1.toNat := ⟨_, rfl⟩
  show decodeSyllable (0x18C00000 + x0.toNat * 4096 + x1.toNat) x2 = _
  rw [← e]; refine ofS (o := 35) (by omega) (by omega) ?_
  refine (if_clear (by omega)).trans ?_
  exact took rfl (by rw [bits_of x0 (by omega), bits_of x1 (by omega)])
theorem loopReg (x0 : BitVec 6) (x1 : BitVec 12) : Statement (.loopReg x0 x1) := fun _ => by
  have := x0.isLt; have := x1.isLt
  obtain ⟨w, e⟩ : ∃ w, w = 0x18E00000 + x0.toNat * 4096 + x1.toNat := ⟨_, rfl⟩
  show decodeSyllable (0x18E00000 + x0.toNat * 4096 + x1.toNat) none = _
  rw [← e]; refine ofS (o := 35) (by omega) (by omega) ?_
  refine (if_set (by omega)).trans ?_
  exact took (and_of (clear_of (by omega)) rfl) (by rw [bits_of x0 (by omega), bits_of x1 (by omega)])
theorem loopq (x0 : BitVec 12) : Statement (.loopq x0) := fun _ => by
  have := x0.isLt
  obtain ⟨w, e⟩ : ∃ w, w = 0x19000000 + x0.toNat := ⟨_, rfl⟩
  show decodeSyllable (0x19000000 + x0.toNat) none = _
  rw [← e]; refine ofS (o := 36) (by omega) (by omega) ?_
  exact took (and_of (clear_of (by omega)) rfl) (by rw [bits_of x0 (by omega)])
theorem wnext (x0 : BitVec 4) (x1 : BitVec 1) (x2 : BitVec 6) : Statement (.wnext x0 x1 x2) := fun _ => by
  have := x0.isLt; have := x1.isLt; have := x2.isLt
  obtain ⟨w, e⟩ : ∃ w, w = 0x19400000 + x0.toNat * 262144 + x1.toNat * 131072 + x2.toNat * 2048 := ⟨_, rfl⟩
  show decodeSyllable (0x19400000 + x0.toNat * 262144 + x1.toNat * 131072 + x2.toNat * 2048) none = _
  rw [← e]; refine ofS (o := 37) (by omega) (by omega) ?_
  exact took (and_of (clear_of (by omega)) rfl) (by rw [bits_of x0 (by omega), bits_of x1 (by omega), bits_of x2 (by omega)])
theorem cadd (x0 : BitVec 6) (x1 : BitVec 6) : Statement (.cadd x0 x1) := fun _ => by
  have := x0.isLt; have := x1.isLt
  obtain ⟨w, e⟩ : ∃ w, w = 0x19800000 + x0.toNat * 65536 + x1.toNat * 1024 := ⟨_, rfl⟩
  show decodeSyllable (0x19800000 + x0.toNat * 65536 + x1.toNat * 1024) none = _
  rw [← e]; refine ofS (o := 38) (by omega) (by omega) ?_
  refine (if_clear (by omega)).trans ?_
  exact took (and_of (clear_of (by omega)) rfl) (by rw [bits_of x0 (by omega), bits_of x1 (by omega)])
theorem caddR (x0 : BitVec 6) (x1 : BitVec 6) (x2 : BitVec 6) : Statement (.caddR x0 x1 x2) := fun _ => by
  have := x0.isLt; have := x1.isLt; have := x2.isLt
  obtain ⟨w, e⟩ : ∃ w, w = 0x19800001 + x0.toNat * 65536 + x1.toNat * 1024 + x2.toNat * 16 := ⟨_, rfl⟩
  show decodeSyllable (0x19800001 + x0.toNat * 65536 + x1.toNat * 1024 + x2.toNat * 16) none = _
  rw [← e]; refine ofS (o := 38) (by omega) (by omega) ?_
  refine (if_set (by omega)).trans ?_
  exact took (and_of (clear_of (by omega)) rfl) (by rw [bits_of x0 (by omega), bits_of x1 (by omega), bits_of x2 (by omega)])
theorem ctest (x0 : BitVec 4) (x1 : BitVec 1) (x2 : BitVec 6) (x3 : BitVec 10) (x4 : Option (BitVec 9)) : Statement (.ctest x0 x1 x2 x3 x4) := fun _ => by
  have := x0.isLt; have := x1.isLt; have := x2.isLt; have := x3.isLt
  obtain ⟨w, e⟩ : ∃ w, w = 0x19C00000 + x0.toNat * 262144 + x1.toNat * 131072 + x2.toNat * 2048 + x3.toNat := ⟨_, rfl⟩
  show decodeSyllable (0x19C00000 + x0.toNat * 262144 + x1.toNat * 131072 + x2.toNat * 2048 + x3.toNat) x4 = _
  rw [← e]; refine ofS (o := 39) (by omega) (by omega) ?_
  refine (if_clear (by omega)).trans ?_
  exact took rfl (by rw [bits_of x0 (by omega), bits_of x1 (by omega), bits_of x2 (by omega), bits_of x3 (by omega)])
theorem ctestReg (x0 : BitVec 4) (x1 : BitVec 1) (x2 : BitVec 6) (x3 : BitVec 6) : Statement (.ctestReg x0 x1 x2 x3) := fun _ => by
  have := x0.isLt; have := x1.isLt; have := x2.isLt; have := x3.isLt
  obtain ⟨w, e⟩ : ∃ w, w = 0x19C00400 + x0.toNat * 262144 + x1.toNat * 131072 + x2.toNat * 2048 + x3.toNat := ⟨_, rfl⟩
  show decodeSyllable (0x19C00400 + x0.toNat * 262144 + x1.toNat * 131072 + x2.toNat * 2048 + x3.toNat) none = _
  rw [← e]; refine ofS (o := 39) (by omega) (by omega) ?_
  refine (if_set (by omega)).trans ?_
  exact took (and_of (clear_of (by omega)) rfl) (by rw [bits_of x0 (by omega), bits_of x1 (by omega), bits_of x2 (by omega), bits_of x3 (by omega)])
theorem cread (x0 : BitVec 6) (x1 : BitVec 6) : Statement (.cread x0 x1) := fun _ => by
  have := x0.isLt; have := x1.isLt
  obtain ⟨w, e⟩ : ∃ w, w = 0x1A000000 + x0.toNat * 65536 + x1.toNat * 1024 := ⟨_, rfl⟩
  show decodeSyllable (0x1A000000 + x0.toNat * 65536 + x1.toNat * 1024) none = _
  rw [← e]; refine ofS (o := 40) (by omega) (by omega) ?_
  exact took (and_of (clear_of (by omega)) rfl) (by rw [bits_of x0 (by omega), bits_of x1 (by omega)])
theorem rfence (x0 : BitVec 6) (x1 : BitVec 6) : Statement (.rfence x0 x1) := fun _ => by
  have := x0.isLt; have := x1.isLt
  obtain ⟨w, e⟩ : ∃ w, w = 0x1A400000 + x0.toNat * 1024 + x1.toNat * 16 := ⟨_, rfl⟩
  show decodeSyllable (0x1A400000 + x0.toNat * 1024 + x1.toNat * 16) none = _
  rw [← e]; refine ofS (o := 41) (by omega) (by omega) ?_
  exact took (and_of (and_of (clear_of (by omega)) (clear_of (by omega))) rfl) (by rw [bits_of x0 (by omega), bits_of x1 (by omega)])
theorem vjoin : Statement (.vjoin) := fun _ => by
  obtain ⟨w, e⟩ : ∃ w, w = 0x1A800000 := ⟨_, rfl⟩
  show decodeSyllable (0x1A800000) none = _
  rw [← e]; refine ofS (o := 42) (by omega) (by omega) ?_
  exact took (and_of (clear_of (by omega)) rfl) (by rfl)
theorem drain (x0 : BitVec 4) : Statement (.drain x0) := fun _ => by
  have := x0.isLt
  obtain ⟨w, e⟩ : ∃ w, w = 0x1AC00000 + x0.toNat := ⟨_, rfl⟩
  show decodeSyllable (0x1AC00000 + x0.toNat) none = _
  rw [← e]; refine ofS (o := 43) (by omega) (by omega) ?_
  exact took (and_of (clear_of (by omega)) rfl) (by rw [bits_of x0 (by omega)])
theorem bclose : Statement (.bclose) := fun _ => by
  obtain ⟨w, e⟩ : ∃ w, w = 0x1B000000 := ⟨_, rfl⟩
  show decodeSyllable (0x1B000000) none = _
  rw [← e]; refine ofS (o := 44) (by omega) (by omega) ?_
  exact took (and_of (clear_of (by omega)) rfl) (by rfl)
theorem adv (x0 : BitVec 4) (x1 : BitVec 4) (x2 : BitVec 1) : Statement (.adv x0 x1 x2) := fun _ => by
  have := x0.isLt; have := x1.isLt; have := x2.isLt
  obtain ⟨w, e⟩ : ∃ w, w = 0x1B400000 + x0.toNat * 4096 + x1.toNat * 256 + x2.toNat * 16 := ⟨_, rfl⟩
  show decodeSyllable (0x1B400000 + x0.toNat * 4096 + x1.toNat * 256 + x2.toNat * 16) none = _
  rw [← e]; refine ofS (o := 45) (by omega) (by omega) ?_
  exact took (and_of (and_of (and_of (clear_of (by omega)) (clear_of (by omega))) (clear_of (by omega))) rfl) (by rw [bits_of x0 (by omega), bits_of x1 (by omega), bits_of x2 (by omega)])
theorem hset (x0 : BitVec 6) (x1 : BitVec 6) (x2 : BitVec 6) : Statement (.hset x0 x1 x2) := fun _ => by
  have := x0.isLt; have := x1.isLt; have := x2.isLt
  obtain ⟨w, e⟩ : ∃ w, w = 0x1B800000 + x0.toNat * 65536 + x1.toNat * 1024 + x2.toNat * 16 := ⟨_, rfl⟩
  show decodeSyllable (0x1B800000 + x0.toNat * 65536 + x1.toNat * 1024 + x2.toNat * 16) none = _
  rw [← e]; refine ofS (o := 46) (by omega) (by omega) ?_
  exact took (and_of (clear_of (by omega)) rfl) (by rw [bits_of x0 (by omega), bits_of x1 (by omega), bits_of x2 (by omega)])
theorem hget (x0 : BitVec 6) (x1 : BitVec 6) (x2 : BitVec 1) : Statement (.hget x0 x1 x2) := fun _ => by
  have := x0.isLt; have := x1.isLt; have := x2.isLt
  obtain ⟨w, e⟩ : ∃ w, w = 0x1BC00000 + x0.toNat * 65536 + x1.toNat * 1024 + x2.toNat := ⟨_, rfl⟩
  show decodeSyllable (0x1BC00000 + x0.toNat * 65536 + x1.toNat * 1024 + x2.toNat) none = _
  rw [← e]; refine ofS (o := 47) (by omega) (by omega) ?_
  exact took (and_of (clear_of (by omega)) rfl) (by rw [bits_of x0 (by omega), bits_of x1 (by omega), bits_of x2 (by omega)])
theorem mtc (x0 : BitVec 6) (x1 : BitVec 6) : Statement (.mtc x0 x1) := fun _ => by
  have := x0.isLt; have := x1.isLt
  obtain ⟨w, e⟩ : ∃ w, w = 0x1C000000 + x0.toNat * 65536 + x1.toNat * 1024 := ⟨_, rfl⟩
  show decodeSyllable (0x1C000000 + x0.toNat * 65536 + x1.toNat * 1024) none = _
  rw [← e]; refine ofS (o := 48) (by omega) (by omega) ?_
  exact took (and_of (clear_of (by omega)) rfl) (by rw [bits_of x0 (by omega), bits_of x1 (by omega)])
theorem mfc (x0 : BitVec 6) (x1 : BitVec 6) : Statement (.mfc x0 x1) := fun _ => by
  have := x0.isLt; have := x1.isLt
  obtain ⟨w, e⟩ : ∃ w, w = 0x1C400000 + x0.toNat * 65536 + x1.toNat * 1024 := ⟨_, rfl⟩
  show decodeSyllable (0x1C400000 + x0.toNat * 65536 + x1.toNat * 1024) none = _
  rw [← e]; refine ofS (o := 49) (by omega) (by omega) ?_
  exact took (and_of (clear_of (by omega)) rfl) (by rw [bits_of x0 (by omega), bits_of x1 (by omega)])
theorem mts (x0 : BitVec 6) (x1 : BitVec 16) : Statement (.mts x0 x1) := fun h => by
  have h : (!ownRow x1) = true := h
  exact (ofMts x0 x1).trans (congrArg _ (mtsOf_own (by simpa using h)))
theorem mfs (x0 : BitVec 6) (x1 : BitVec 16) : Statement (.mfs x0 x1) := fun _ => by
  have := x0.isLt; have := x1.isLt
  obtain ⟨w, e⟩ : ∃ w, w = 0x1CC00000 + x0.toNat * 65536 + x1.toNat := ⟨_, rfl⟩
  show decodeSyllable (0x1CC00000 + x0.toNat * 65536 + x1.toNat) none = _
  rw [← e]; refine ofS (o := 51) (by omega) (by omega) ?_
  exact took rfl (by rw [bits_of x0 (by omega), bits_of x1 (by omega)])
theorem trap (x0 : BitVec 22) (x1 : Option (BitVec 9)) : Statement (.trap x0 x1) := fun _ => by
  have := x0.isLt
  obtain ⟨w, e⟩ : ∃ w, w = 0x1D000000 + x0.toNat := ⟨_, rfl⟩
  show decodeSyllable (0x1D000000 + x0.toNat) x1 = _
  rw [← e]; refine ofS (o := 52) (by omega) (by omega) ?_
  exact took rfl (by rw [bits_of x0 (by omega)])
theorem eret : Statement (.eret) := fun _ => by
  obtain ⟨w, e⟩ : ∃ w, w = 0x1D400000 := ⟨_, rfl⟩
  show decodeSyllable (0x1D400000) none = _
  rw [← e]; refine ofS (o := 53) (by omega) (by omega) ?_
  exact took (and_of (clear_of (by omega)) rfl) (by rfl)
theorem ovld (x0 : BitVec 6) : Statement (.ovld x0) := fun _ => by
  have := x0.isLt
  obtain ⟨w, e⟩ : ∃ w, w = 0x1D800000 + x0.toNat * 1024 := ⟨_, rfl⟩
  show decodeSyllable (0x1D800000 + x0.toNat * 1024) none = _
  rw [← e]; refine ofS (o := 54) (by omega) (by omega) ?_
  exact took (and_of (and_of (clear_of (by omega)) (clear_of (by omega))) rfl) (by rw [bits_of x0 (by omega)])
theorem itlbinv (x0 : BitVec 6) : Statement (.itlbinv x0) := fun _ => by
  show decodeSyllable (0x1C800000 + 0x22 + x0.toNat * 65536) none = _
  rw [Nat.add_right_comm 0x1C800000 0x22]; exact ofMts x0 0x22#16
theorem iptroot (x0 : BitVec 6) : Statement (.iptroot x0) := fun _ => by
  show decodeSyllable (0x1C800000 + 0x20 + x0.toNat * 65536) none = _
  rw [Nat.add_right_comm 0x1C800000 0x20]; exact ofMts x0 0x20#16
theorem ctxid (x0 : BitVec 6) : Statement (.ctxid x0) := fun _ => by
  show decodeSyllable (0x1C800000 + 0x13 + x0.toNat * 65536) none = _
  rw [Nat.add_right_comm 0x1C800000 0x13]; exact ofMts x0 0x13#16
theorem windowTable (x0 : BitVec 6) (x1 : BitVec 16) : Statement (.windowTable x0 x1) := fun h => by
  exact (ofMts x0 x1).trans (congrArg _ (mtsOf_windowTable x0 h))
theorem errstat (x0 : BitVec 6) (x1 : BitVec 16) : Statement (.errstat x0 x1) := fun h => by
  exact (ofMts x0 x1).trans (congrArg _ (mtsOf_errstat x0 h))
theorem einj (x0 : BitVec 6) (x1 : BitVec 16) : Statement (.einj x0 x1) := fun h => by
  exact (ofMts x0 x1).trans (congrArg _ (mtsOf_einj x0 h))
theorem vadd (x0 : BitVec 6) (x1 : BitVec 6) (x2 : BitVec 6) (x3 : BitVec 4) (x4 : Option (BitVec 9)) : Statement (.vadd x0 x1 x2 x3 x4) := fun _ => by
  have := x0.isLt; have := x1.isLt; have := x2.isLt; have := x3.isLt
  obtain ⟨w, e⟩ : ∃ w, w = 0x20000000 + x0.toNat * 65536 + x1.toNat * 1024 + x2.toNat * 16 + x3.toNat := ⟨_, rfl⟩
  show decodeSyllable (0x20000000 + x0.toNat * 65536 + x1.toNat * 1024 + x2.toNat * 16 + x3.toNat) x4 = _
  rw [← e]; refine ofV (o := 0) (by omega) (by omega) ?_
  exact took rfl (by rw [bits_of x0 (by omega), bits_of x1 (by omega), bits_of x2 (by omega), bits_of x3 (by omega)])
theorem vsub (x0 : BitVec 6) (x1 : BitVec 6) (x2 : BitVec 6) (x3 : BitVec 4) (x4 : Option (BitVec 9)) : Statement (.vsub x0 x1 x2 x3 x4) := fun _ => by
  have := x0.isLt; have := x1.isLt; have := x2.isLt; have := x3.isLt
  obtain ⟨w, e⟩ : ∃ w, w = 0x20400000 + x0.toNat * 65536 + x1.toNat * 1024 + x2.toNat * 16 + x3.toNat := ⟨_, rfl⟩
  show decodeSyllable (0x20400000 + x0.toNat * 65536 + x1.toNat * 1024 + x2.toNat * 16 + x3.toNat) x4 = _
  rw [← e]; refine ofV (o := 1) (by omega) (by omega) ?_
  exact took rfl (by rw [bits_of x0 (by omega), bits_of x1 (by omega), bits_of x2 (by omega), bits_of x3 (by omega)])
theorem vmul (x0 : BitVec 6) (x1 : BitVec 6) (x2 : BitVec 6) (x3 : BitVec 4) (x4 : Option (BitVec 9)) : Statement (.vmul x0 x1 x2 x3 x4) := fun _ => by
  have := x0.isLt; have := x1.isLt; have := x2.isLt; have := x3.isLt
  obtain ⟨w, e⟩ : ∃ w, w = 0x20800000 + x0.toNat * 65536 + x1.toNat * 1024 + x2.toNat * 16 + x3.toNat := ⟨_, rfl⟩
  show decodeSyllable (0x20800000 + x0.toNat * 65536 + x1.toNat * 1024 + x2.toNat * 16 + x3.toNat) x4 = _
  rw [← e]; refine ofV (o := 2) (by omega) (by omega) ?_
  exact took rfl (by rw [bits_of x0 (by omega), bits_of x1 (by omega), bits_of x2 (by omega), bits_of x3 (by omega)])
theorem vfma (x0 : BitVec 6) (x1 : BitVec 6) (x2 : BitVec 6) (x3 : BitVec 4) (x4 : Option (BitVec 9)) : Statement (.vfma x0 x1 x2 x3 x4) := fun _ => by
  have := x0.isLt; have := x1.isLt; have := x2.isLt; have := x3.isLt
  obtain ⟨w, e⟩ : ∃ w, w = 0x20C00000 + x0.toNat * 65536 + x1.toNat * 1024 + x2.toNat * 16 + x3.toNat := ⟨_, rfl⟩
  show decodeSyllable (0x20C00000 + x0.toNat * 65536 + x1.toNat * 1024 + x2.toNat * 16 + x3.toNat) x4 = _
  rw [← e]; refine ofV (o := 3) (by omega) (by omega) ?_
  exact took rfl (by rw [bits_of x0 (by omega), bits_of x1 (by omega), bits_of x2 (by omega), bits_of x3 (by omega)])
theorem vmin (x0 : BitVec 6) (x1 : BitVec 6) (x2 : BitVec 6) (x3 : BitVec 4) (x4 : Option (BitVec 9)) : Statement (.vmin x0 x1 x2 x3 x4) := fun _ => by
  have := x0.isLt; have := x1.isLt; have := x2.isLt; have := x3.isLt
  obtain ⟨w, e⟩ : ∃ w, w = 0x21000000 + x0.toNat * 65536 + x1.toNat * 1024 + x2.toNat * 16 + x3.toNat := ⟨_, rfl⟩
  show decodeSyllable (0x21000000 + x0.toNat * 65536 + x1.toNat * 1024 + x2.toNat * 16 + x3.toNat) x4 = _
  rw [← e]; refine ofV (o := 4) (by omega) (by omega) ?_
  exact took rfl (by rw [bits_of x0 (by omega), bits_of x1 (by omega), bits_of x2 (by omega), bits_of x3 (by omega)])
theorem vmax (x0 : BitVec 6) (x1 : BitVec 6) (x2 : BitVec 6) (x3 : BitVec 4) (x4 : Option (BitVec 9)) : Statement (.vmax x0 x1 x2 x3 x4) := fun _ => by
  have := x0.isLt; have := x1.isLt; have := x2.isLt; have := x3.isLt
  obtain ⟨w, e⟩ : ∃ w, w = 0x21400000 + x0.toNat * 65536 + x1.toNat * 1024 + x2.toNat * 16 + x3.toNat := ⟨_, rfl⟩
  show decodeSyllable (0x21400000 + x0.toNat * 65536 + x1.toNat * 1024 + x2.toNat * 16 + x3.toNat) x4 = _
  rw [← e]; refine ofV (o := 5) (by omega) (by omega) ?_
  exact took rfl (by rw [bits_of x0 (by omega), bits_of x1 (by omega), bits_of x2 (by omega), bits_of x3 (by omega)])
theorem vabs (x0 : BitVec 6) (x1 : BitVec 6) (x2 : BitVec 4) (x3 : Option (BitVec 9)) : Statement (.vabs x0 x1 x2 x3) := fun _ => by
  have := x0.isLt; have := x1.isLt; have := x2.isLt
  obtain ⟨w, e⟩ : ∃ w, w = 0x21800000 + x0.toNat * 65536 + x1.toNat * 1024 + x2.toNat := ⟨_, rfl⟩
  show decodeSyllable (0x21800000 + x0.toNat * 65536 + x1.toNat * 1024 + x2.toNat) x3 = _
  rw [← e]; refine ofV (o := 6) (by omega) (by omega) ?_
  exact took (clear_of (by omega)) (by rw [bits_of x0 (by omega), bits_of x1 (by omega), bits_of x2 (by omega)])
theorem vneg (x0 : BitVec 6) (x1 : BitVec 6) (x2 : BitVec 4) (x3 : Option (BitVec 9)) : Statement (.vneg x0 x1 x2 x3) := fun _ => by
  have := x0.isLt; have := x1.isLt; have := x2.isLt
  obtain ⟨w, e⟩ : ∃ w, w = 0x21C00000 + x0.toNat * 65536 + x1.toNat * 1024 + x2.toNat := ⟨_, rfl⟩
  show decodeSyllable (0x21C00000 + x0.toNat * 65536 + x1.toNat * 1024 + x2.toNat) x3 = _
  rw [← e]; refine ofV (o := 7) (by omega) (by omega) ?_
  exact took (clear_of (by omega)) (by rw [bits_of x0 (by omega), bits_of x1 (by omega), bits_of x2 (by omega)])
theorem vand (x0 : BitVec 6) (x1 : BitVec 6) (x2 : BitVec 6) (x3 : BitVec 4) (x4 : Option (BitVec 9)) : Statement (.vand x0 x1 x2 x3 x4) := fun _ => by
  have := x0.isLt; have := x1.isLt; have := x2.isLt; have := x3.isLt
  obtain ⟨w, e⟩ : ∃ w, w = 0x22000000 + x0.toNat * 65536 + x1.toNat * 1024 + x2.toNat * 16 + x3.toNat := ⟨_, rfl⟩
  show decodeSyllable (0x22000000 + x0.toNat * 65536 + x1.toNat * 1024 + x2.toNat * 16 + x3.toNat) x4 = _
  rw [← e]; refine ofV (o := 8) (by omega) (by omega) ?_
  exact took rfl (by rw [bits_of x0 (by omega), bits_of x1 (by omega), bits_of x2 (by omega), bits_of x3 (by omega)])
theorem vor (x0 : BitVec 6) (x1 : BitVec 6) (x2 : BitVec 6) (x3 : BitVec 4) (x4 : Option (BitVec 9)) : Statement (.vor x0 x1 x2 x3 x4) := fun _ => by
  have := x0.isLt; have := x1.isLt; have := x2.isLt; have := x3.isLt
  obtain ⟨w, e⟩ : ∃ w, w = 0x22400000 + x0.toNat * 65536 + x1.toNat * 1024 + x2.toNat * 16 + x3.toNat := ⟨_, rfl⟩
  show decodeSyllable (0x22400000 + x0.toNat * 65536 + x1.toNat * 1024 + x2.toNat * 16 + x3.toNat) x4 = _
  rw [← e]; refine ofV (o := 9) (by omega) (by omega) ?_
  exact took rfl (by rw [bits_of x0 (by omega), bits_of x1 (by omega), bits_of x2 (by omega), bits_of x3 (by omega)])
theorem vxor (x0 : BitVec 6) (x1 : BitVec 6) (x2 : BitVec 6) (x3 : BitVec 4) (x4 : Option (BitVec 9)) : Statement (.vxor x0 x1 x2 x3 x4) := fun _ => by
  have := x0.isLt; have := x1.isLt; have := x2.isLt; have := x3.isLt
  obtain ⟨w, e⟩ : ∃ w, w = 0x22800000 + x0.toNat * 65536 + x1.toNat * 1024 + x2.toNat * 16 + x3.toNat := ⟨_, rfl⟩
  show decodeSyllable (0x22800000 + x0.toNat * 65536 + x1.toNat * 1024 + x2.toNat * 16 + x3.toNat) x4 = _
  rw [← e]; refine ofV (o := 10) (by omega) (by omega) ?_
  exact took rfl (by rw [bits_of x0 (by omega), bits_of x1 (by omega), bits_of x2 (by omega), bits_of x3 (by omega)])
theorem vshl (x0 : BitVec 6) (x1 : BitVec 6) (x2 : BitVec 6) (x3 : BitVec 4) (x4 : Option (BitVec 9)) : Statement (.vshl x0 x1 x2 x3 x4) := fun _ => by
  have := x0.isLt; have := x1.isLt; have := x2.isLt; have := x3.isLt
  obtain ⟨w, e⟩ : ∃ w, w = 0x22C00000 + x0.toNat * 65536 + x1.toNat * 1024 + x2.toNat * 16 + x3.toNat := ⟨_, rfl⟩
  show decodeSyllable (0x22C00000 + x0.toNat * 65536 + x1.toNat * 1024 + x2.toNat * 16 + x3.toNat) x4 = _
  rw [← e]; refine ofV (o := 11) (by omega) (by omega) ?_
  exact took rfl (by rw [bits_of x0 (by omega), bits_of x1 (by omega), bits_of x2 (by omega), bits_of x3 (by omega)])
theorem vshr (x0 : BitVec 6) (x1 : BitVec 6) (x2 : BitVec 6) (x3 : BitVec 4) (x4 : Option (BitVec 9)) : Statement (.vshr x0 x1 x2 x3 x4) := fun _ => by
  have := x0.isLt; have := x1.isLt; have := x2.isLt; have := x3.isLt
  obtain ⟨w, e⟩ : ∃ w, w = 0x23000000 + x0.toNat * 65536 + x1.toNat * 1024 + x2.toNat * 16 + x3.toNat := ⟨_, rfl⟩
  show decodeSyllable (0x23000000 + x0.toNat * 65536 + x1.toNat * 1024 + x2.toNat * 16 + x3.toNat) x4 = _
  rw [← e]; refine ofV (o := 12) (by omega) (by omega) ?_
  exact took rfl (by rw [bits_of x0 (by omega), bits_of x1 (by omega), bits_of x2 (by omega), bits_of x3 (by omega)])
theorem vsra (x0 : BitVec 6) (x1 : BitVec 6) (x2 : BitVec 6) (x3 : BitVec 4) (x4 : Option (BitVec 9)) : Statement (.vsra x0 x1 x2 x3 x4) := fun _ => by
  have := x0.isLt; have := x1.isLt; have := x2.isLt; have := x3.isLt
  obtain ⟨w, e⟩ : ∃ w, w = 0x23400000 + x0.toNat * 65536 + x1.toNat * 1024 + x2.toNat * 16 + x3.toNat := ⟨_, rfl⟩
  show decodeSyllable (0x23400000 + x0.toNat * 65536 + x1.toNat * 1024 + x2.toNat * 16 + x3.toNat) x4 = _
  rw [← e]; refine ofV (o := 13) (by omega) (by omega) ?_
  exact took rfl (by rw [bits_of x0 (by omega), bits_of x1 (by omega), bits_of x2 (by omega), bits_of x3 (by omega)])
theorem vcmp (x0 : BitVec 3) (x1 : BitVec 3) (x2 : BitVec 6) (x3 : BitVec 6) (x4 : BitVec 4) (x5 : Option (BitVec 9)) : Statement (.vcmp x0 x1 x2 x3 x4 x5) := fun _ => by
  have := x0.isLt; have := x1.isLt; have := x2.isLt; have := x3.isLt; have := x4.isLt
  obtain ⟨w, e⟩ : ∃ w, w = 0x23800000 + x0.toNat * 524288 + x1.toNat * 65536 + x2.toNat * 1024 + x3.toNat * 16 + x4.toNat := ⟨_, rfl⟩
  show decodeSyllable (0x23800000 + x0.toNat * 524288 + x1.toNat * 65536 + x2.toNat * 1024 + x3.toNat * 16 + x4.toNat) x5 = _
  rw [← e]; refine ofV (o := 14) (by omega) (by omega) ?_
  exact took rfl (by rw [bits_of x0 (by omega), bits_of x1 (by omega), bits_of x2 (by omega), bits_of x3 (by omega), bits_of x4 (by omega)])
theorem vsel (x0 : BitVec 6) (x1 : BitVec 6) (x2 : BitVec 6) (x3 : BitVec 4) (x4 : Option (BitVec 9)) : Statement (.vsel x0 x1 x2 x3 x4) := fun _ => by
  have := x0.isLt; have := x1.isLt; have := x2.isLt; have := x3.isLt
  obtain ⟨w, e⟩ : ∃ w, w = 0x23C00000 + x0.toNat * 65536 + x1.toNat * 1024 + x2.toNat * 16 + x3.toNat := ⟨_, rfl⟩
  show decodeSyllable (0x23C00000 + x0.toNat * 65536 + x1.toNat * 1024 + x2.toNat * 16 + x3.toNat) x4 = _
  rw [← e]; refine ofV (o := 15) (by omega) (by omega) ?_
  exact took rfl (by rw [bits_of x0 (by omega), bits_of x1 (by omega), bits_of x2 (by omega), bits_of x3 (by omega)])
theorem vcas (x0 : BitVec 6) (x1 : BitVec 6) (x2 : BitVec 6) (x3 : BitVec 4) (x4 : Option (BitVec 9)) : Statement (.vcas x0 x1 x2 x3 x4) := fun _ => by
  have := x0.isLt; have := x1.isLt; have := x2.isLt; have := x3.isLt
  obtain ⟨w, e⟩ : ∃ w, w = 0x24000000 + x0.toNat * 65536 + x1.toNat * 1024 + x2.toNat * 16 + x3.toNat := ⟨_, rfl⟩
  show decodeSyllable (0x24000000 + x0.toNat * 65536 + x1.toNat * 1024 + x2.toNat * 16 + x3.toNat) x4 = _
  rw [← e]; refine ofV (o := 16) (by omega) (by omega) ?_
  exact took rfl (by rw [bits_of x0 (by omega), bits_of x1 (by omega), bits_of x2 (by omega), bits_of x3 (by omega)])
theorem vexp (x0 : BitVec 6) (x1 : BitVec 6) (x2 : BitVec 4) (x3 : Option (BitVec 9)) : Statement (.vexp x0 x1 x2 x3) := fun _ => by
  have := x0.isLt; have := x1.isLt; have := x2.isLt
  obtain ⟨w, e⟩ : ∃ w, w = 0x24400000 + x0.toNat * 65536 + x1.toNat * 1024 + x2.toNat := ⟨_, rfl⟩
  show decodeSyllable (0x24400000 + x0.toNat * 65536 + x1.toNat * 1024 + x2.toNat) x3 = _
  rw [← e]; refine ofV (o := 17) (by omega) (by omega) ?_
  exact took (clear_of (by omega)) (by rw [bits_of x0 (by omega), bits_of x1 (by omega), bits_of x2 (by omega)])
theorem vlog (x0 : BitVec 6) (x1 : BitVec 6) (x2 : BitVec 4) (x3 : Option (BitVec 9)) : Statement (.vlog x0 x1 x2 x3) := fun _ => by
  have := x0.isLt; have := x1.isLt; have := x2.isLt
  obtain ⟨w, e⟩ : ∃ w, w = 0x24800000 + x0.toNat * 65536 + x1.toNat * 1024 + x2.toNat := ⟨_, rfl⟩
  show decodeSyllable (0x24800000 + x0.toNat * 65536 + x1.toNat * 1024 + x2.toNat) x3 = _
  rw [← e]; refine ofV (o := 18) (by omega) (by omega) ?_
  exact took (clear_of (by omega)) (by rw [bits_of x0 (by omega), bits_of x1 (by omega), bits_of x2 (by omega)])
theorem vrcp (x0 : BitVec 6) (x1 : BitVec 6) (x2 : BitVec 4) (x3 : Option (BitVec 9)) : Statement (.vrcp x0 x1 x2 x3) := fun _ => by
  have := x0.isLt; have := x1.isLt; have := x2.isLt
  obtain ⟨w, e⟩ : ∃ w, w = 0x24C00000 + x0.toNat * 65536 + x1.toNat * 1024 + x2.toNat := ⟨_, rfl⟩
  show decodeSyllable (0x24C00000 + x0.toNat * 65536 + x1.toNat * 1024 + x2.toNat) x3 = _
  rw [← e]; refine ofV (o := 19) (by omega) (by omega) ?_
  exact took (clear_of (by omega)) (by rw [bits_of x0 (by omega), bits_of x1 (by omega), bits_of x2 (by omega)])
theorem vrsqrt (x0 : BitVec 6) (x1 : BitVec 6) (x2 : BitVec 4) (x3 : Option (BitVec 9)) : Statement (.vrsqrt x0 x1 x2 x3) := fun _ => by
  have := x0.isLt; have := x1.isLt; have := x2.isLt
  obtain ⟨w, e⟩ : ∃ w, w = 0x25000000 + x0.toNat * 65536 + x1.toNat * 1024 + x2.toNat := ⟨_, rfl⟩
  show decodeSyllable (0x25000000 + x0.toNat * 65536 + x1.toNat * 1024 + x2.toNat) x3 = _
  rw [← e]; refine ofV (o := 20) (by omega) (by omega) ?_
  exact took (clear_of (by omega)) (by rw [bits_of x0 (by omega), bits_of x1 (by omega), bits_of x2 (by omega)])
theorem vtanh (x0 : BitVec 6) (x1 : BitVec 6) (x2 : BitVec 4) (x3 : Option (BitVec 9)) : Statement (.vtanh x0 x1 x2 x3) := fun _ => by
  have := x0.isLt; have := x1.isLt; have := x2.isLt
  obtain ⟨w, e⟩ : ∃ w, w = 0x25400000 + x0.toNat * 65536 + x1.toNat * 1024 + x2.toNat := ⟨_, rfl⟩
  show decodeSyllable (0x25400000 + x0.toNat * 65536 + x1.toNat * 1024 + x2.toNat) x3 = _
  rw [← e]; refine ofV (o := 21) (by omega) (by omega) ?_
  exact took (clear_of (by omega)) (by rw [bits_of x0 (by omega), bits_of x1 (by omega), bits_of x2 (by omega)])
theorem vcvt (x0 : BitVec 6) (x1 : BitVec 6) (x2 : BitVec 2) (x3 : BitVec 4) (x4 : BitVec 4) (x5 : Option (BitVec 9)) : Statement (.vcvt x0 x1 x2 x3 x4 x5) := fun _ => by
  have := x0.isLt; have := x1.isLt; have := x2.isLt; have := x3.isLt; have := x4.isLt
  obtain ⟨w, e⟩ : ∃ w, w = 0x25800000 + x0.toNat * 65536 + x1.toNat * 1024 + x2.toNat * 256 + x3.toNat * 16 + x4.toNat := ⟨_, rfl⟩
  show decodeSyllable (0x25800000 + x0.toNat * 65536 + x1.toNat * 1024 + x2.toNat * 256 + x3.toNat * 16 + x4.toNat) x5 = _
  rw [← e]; refine ofV (o := 22) (by omega) (by omega) ?_
  exact took rfl (by rw [bits_of x0 (by omega), bits_of x1 (by omega), bits_of x2 (by omega), bits_of x3 (by omega), bits_of x4 (by omega)])
theorem vwid (x0 : BitVec 6) (x1 : BitVec 6) (x2 : BitVec 4) (x3 : BitVec 4) (x4 : Option (BitVec 9)) : Statement (.vwid x0 x1 x2 x3 x4) := fun _ => by
  have := x0.isLt; have := x1.isLt; have := x2.isLt; have := x3.isLt
  obtain ⟨w, e⟩ : ∃ w, w = 0x25C00000 + x0.toNat * 65536 + x1.toNat * 1024 + x2.toNat * 64 + x3.toNat := ⟨_, rfl⟩
  show decodeSyllable (0x25C00000 + x0.toNat * 65536 + x1.toNat * 1024 + x2.toNat * 64 + x3.toNat) x4 = _
  rw [← e]; refine ofV (o := 23) (by omega) (by omega) ?_
  exact took (clear_of (by omega)) (by rw [bits_of x0 (by omega), bits_of x1 (by omega), bits_of x2 (by omega), bits_of x3 (by omega)])
theorem vsumr (x0 : BitVec 6) (x1 : BitVec 6) (x2 : BitVec 4) (x3 : Option (BitVec 9)) : Statement (.vsumr x0 x1 x2 x3) := fun _ => by
  have := x0.isLt; have := x1.isLt; have := x2.isLt
  obtain ⟨w, e⟩ : ∃ w, w = 0x26000000 + x0.toNat * 65536 + x1.toNat * 1024 + x2.toNat := ⟨_, rfl⟩
  show decodeSyllable (0x26000000 + x0.toNat * 65536 + x1.toNat * 1024 + x2.toNat) x3 = _
  rw [← e]; refine ofV (o := 24) (by omega) (by omega) ?_
  exact took (clear_of (by omega)) (by rw [bits_of x0 (by omega), bits_of x1 (by omega), bits_of x2 (by omega)])
theorem vmaxr (x0 : BitVec 6) (x1 : BitVec 6) (x2 : BitVec 4) (x3 : Option (BitVec 9)) : Statement (.vmaxr x0 x1 x2 x3) := fun _ => by
  have := x0.isLt; have := x1.isLt; have := x2.isLt
  obtain ⟨w, e⟩ : ∃ w, w = 0x26400000 + x0.toNat * 65536 + x1.toNat * 1024 + x2.toNat := ⟨_, rfl⟩
  show decodeSyllable (0x26400000 + x0.toNat * 65536 + x1.toNat * 1024 + x2.toNat) x3 = _
  rw [← e]; refine ofV (o := 25) (by omega) (by omega) ?_
  exact took (clear_of (by omega)) (by rw [bits_of x0 (by omega), bits_of x1 (by omega), bits_of x2 (by omega)])
theorem vthr (x0 : BitVec 6) (x1 : BitVec 6) (x2 : BitVec 6) (x3 : BitVec 4) (x4 : Option (BitVec 9)) : Statement (.vthr x0 x1 x2 x3 x4) := fun _ => by
  have := x0.isLt; have := x1.isLt; have := x2.isLt; have := x3.isLt
  obtain ⟨w, e⟩ : ∃ w, w = 0x26800000 + x0.toNat * 65536 + x1.toNat * 1024 + x2.toNat * 16 + x3.toNat := ⟨_, rfl⟩
  show decodeSyllable (0x26800000 + x0.toNat * 65536 + x1.toNat * 1024 + x2.toNat * 16 + x3.toNat) x4 = _
  rw [← e]; refine ofV (o := 26) (by omega) (by omega) ?_
  exact took rfl (by rw [bits_of x0 (by omega), bits_of x1 (by omega), bits_of x2 (by omega), bits_of x3 (by omega)])
theorem vhist (x0 : BitVec 6) (x1 : BitVec 6) (x2 : BitVec 4) (x3 : Option (BitVec 9)) : Statement (.vhist x0 x1 x2 x3) := fun _ => by
  have := x0.isLt; have := x1.isLt; have := x2.isLt
  obtain ⟨w, e⟩ : ∃ w, w = 0x26C00000 + x0.toNat * 65536 + x1.toNat * 1024 + x2.toNat := ⟨_, rfl⟩
  show decodeSyllable (0x26C00000 + x0.toNat * 65536 + x1.toNat * 1024 + x2.toNat) x3 = _
  rw [← e]; refine ofV (o := 27) (by omega) (by omega) ?_
  exact took (clear_of (by omega)) (by rw [bits_of x0 (by omega), bits_of x1 (by omega), bits_of x2 (by omega)])
theorem vrenorm (x0 : BitVec 6) (x1 : BitVec 6) (x2 : BitVec 4) (x3 : Option (BitVec 9)) : Statement (.vrenorm x0 x1 x2 x3) := fun _ => by
  have := x0.isLt; have := x1.isLt; have := x2.isLt
  obtain ⟨w, e⟩ : ∃ w, w = 0x27000000 + x0.toNat * 65536 + x1.toNat * 1024 + x2.toNat := ⟨_, rfl⟩
  show decodeSyllable (0x27000000 + x0.toNat * 65536 + x1.toNat * 1024 + x2.toNat) x3 = _
  rw [← e]; refine ofV (o := 28) (by omega) (by omega) ?_
  exact took (clear_of (by omega)) (by rw [bits_of x0 (by omega), bits_of x1 (by omega), bits_of x2 (by omega)])
theorem vbcast (x0 : BitVec 6) (x1 : BitVec 6) (x2 : BitVec 4) (x3 : Option (BitVec 9)) : Statement (.vbcast x0 x1 x2 x3) := fun _ => by
  have := x0.isLt; have := x1.isLt; have := x2.isLt
  obtain ⟨w, e⟩ : ∃ w, w = 0x27400000 + x0.toNat * 65536 + x1.toNat * 1024 + x2.toNat := ⟨_, rfl⟩
  show decodeSyllable (0x27400000 + x0.toNat * 65536 + x1.toNat * 1024 + x2.toNat) x3 = _
  rw [← e]; refine ofV (o := 29) (by omega) (by omega) ?_
  exact took (clear_of (by omega)) (by rw [bits_of x0 (by omega), bits_of x1 (by omega), bits_of x2 (by omega)])
theorem vperm (x0 : BitVec 6) (x1 : BitVec 6) (x2 : BitVec 6) (x3 : BitVec 4) (x4 : Option (BitVec 9)) : Statement (.vperm x0 x1 x2 x3 x4) := fun _ => by
  have := x0.isLt; have := x1.isLt; have := x2.isLt; have := x3.isLt
  obtain ⟨w, e⟩ : ∃ w, w = 0x27800000 + x0.toNat * 65536 + x1.toNat * 1024 + x2.toNat * 16 + x3.toNat := ⟨_, rfl⟩
  show decodeSyllable (0x27800000 + x0.toNat * 65536 + x1.toNat * 1024 + x2.toNat * 16 + x3.toNat) x4 = _
  rw [← e]; refine ofV (o := 30) (by omega) (by omega) ?_
  exact took rfl (by rw [bits_of x0 (by omega), bits_of x1 (by omega), bits_of x2 (by omega), bits_of x3 (by omega)])
theorem vtrn (x0 : BitVec 6) (x1 : BitVec 6) (x2 : BitVec 4) (x3 : Option (BitVec 9)) : Statement (.vtrn x0 x1 x2 x3) := fun _ => by
  have := x0.isLt; have := x1.isLt; have := x2.isLt
  obtain ⟨w, e⟩ : ∃ w, w = 0x27C00000 + x0.toNat * 65536 + x1.toNat * 1024 + x2.toNat := ⟨_, rfl⟩
  show decodeSyllable (0x27C00000 + x0.toNat * 65536 + x1.toNat * 1024 + x2.toNat) x3 = _
  rw [← e]; refine ofV (o := 31) (by omega) (by omega) ?_
  exact took (clear_of (by omega)) (by rw [bits_of x0 (by omega), bits_of x1 (by omega), bits_of x2 (by omega)])
theorem vshape (x0 : BitVec 14) (x1 : BitVec 8) : Statement (.vshape x0 x1) := fun _ => by
  have := x0.isLt; have := x1.isLt
  obtain ⟨w, e⟩ : ∃ w, w = 0x28000000 + x0.toNat * 256 + x1.toNat := ⟨_, rfl⟩
  show decodeSyllable (0x28000000 + x0.toNat * 256 + x1.toNat) none = _
  rw [← e]; refine ofV (o := 32) (by omega) (by omega) ?_
  exact took rfl (by rw [bits_of x0 (by omega), bits_of x1 (by omega)])
theorem viota (x0 : BitVec 6) (x1 : BitVec 6) (x2 : BitVec 4) (x3 : Option (BitVec 9)) : Statement (.viota x0 x1 x2 x3) := fun _ => by
  have := x0.isLt; have := x1.isLt; have := x2.isLt
  obtain ⟨w, e⟩ : ∃ w, w = 0x28400000 + x0.toNat * 65536 + x1.toNat * 16 + x2.toNat := ⟨_, rfl⟩
  show decodeSyllable (0x28400000 + x0.toNat * 65536 + x1.toNat * 16 + x2.toNat) x3 = _
  rw [← e]; refine ofV (o := 33) (by omega) (by omega) ?_
  exact tookA (clear_of (by omega)) (by rw [bits_of x0 (by omega), bits_of x1 (by omega), bits_of x2 (by omega)])
theorem vrand (x0 : BitVec 6) (x1 : BitVec 6) (x2 : BitVec 4) (x3 : Option (BitVec 9)) : Statement (.vrand x0 x1 x2 x3) := fun _ => by
  have := x0.isLt; have := x1.isLt; have := x2.isLt
  obtain ⟨w, e⟩ : ∃ w, w = 0x28800000 + x0.toNat * 65536 + x1.toNat * 16 + x2.toNat := ⟨_, rfl⟩
  show decodeSyllable (0x28800000 + x0.toNat * 65536 + x1.toNat * 16 + x2.toNat) x3 = _
  rw [← e]; refine ofV (o := 34) (by omega) (by omega) ?_
  exact tookA (clear_of (by omega)) (by rw [bits_of x0 (by omega), bits_of x1 (by omega), bits_of x2 (by omega)])
theorem mand (x0 : BitVec 6) (x1 : BitVec 6) (x2 : BitVec 6) (x3 : Option (BitVec 9)) : Statement (.mand x0 x1 x2 x3) := fun _ => by
  have := x0.isLt; have := x1.isLt; have := x2.isLt
  obtain ⟨w, e⟩ : ∃ w, w = 0x28C00000 + x0.toNat * 65536 + x1.toNat * 1024 + x2.toNat * 16 := ⟨_, rfl⟩
  show decodeSyllable (0x28C00000 + x0.toNat * 65536 + x1.toNat * 1024 + x2.toNat * 16) x3 = _
  rw [← e]; refine ofV (o := 35) (by omega) (by omega) ?_
  exact tookM (clear_of (by omega)) rfl (by rw [bits_of x0 (by omega), bits_of x1 (by omega), bits_of x2 (by omega)])
theorem mor (x0 : BitVec 6) (x1 : BitVec 6) (x2 : BitVec 6) (x3 : Option (BitVec 9)) : Statement (.mor x0 x1 x2 x3) := fun _ => by
  have := x0.isLt; have := x1.isLt; have := x2.isLt
  obtain ⟨w, e⟩ : ∃ w, w = 0x29000000 + x0.toNat * 65536 + x1.toNat * 1024 + x2.toNat * 16 := ⟨_, rfl⟩
  show decodeSyllable (0x29000000 + x0.toNat * 65536 + x1.toNat * 1024 + x2.toNat * 16) x3 = _
  rw [← e]; refine ofV (o := 36) (by omega) (by omega) ?_
  exact tookM (clear_of (by omega)) rfl (by rw [bits_of x0 (by omega), bits_of x1 (by omega), bits_of x2 (by omega)])
theorem mnot (x0 : BitVec 6) (x1 : BitVec 6) (x2 : Option (BitVec 9)) : Statement (.mnot x0 x1 x2) := fun _ => by
  have := x0.isLt; have := x1.isLt
  obtain ⟨w, e⟩ : ∃ w, w = 0x29400000 + x0.toNat * 65536 + x1.toNat * 1024 := ⟨_, rfl⟩
  show decodeSyllable (0x29400000 + x0.toNat * 65536 + x1.toNat * 1024) x2 = _
  rw [← e]; refine ofV (o := 37) (by omega) (by omega) ?_
  exact tookM (clear_of (by omega)) (clear_of (by omega)) (by rw [bits_of x0 (by omega), bits_of x1 (by omega)])
theorem mpop (x0 : BitVec 6) (x1 : BitVec 6) (x2 : Option (BitVec 9)) : Statement (.mpop x0 x1 x2) := fun _ => by
  have := x0.isLt; have := x1.isLt
  obtain ⟨w, e⟩ : ∃ w, w = 0x29800000 + x0.toNat * 65536 + x1.toNat * 1024 := ⟨_, rfl⟩
  show decodeSyllable (0x29800000 + x0.toNat * 65536 + x1.toNat * 1024) x2 = _
  rw [← e]; refine ofV (o := 38) (by omega) (by omega) ?_
  exact tookM (clear_of (by omega)) (clear_of (by omega)) (by rw [bits_of x0 (by omega), bits_of x1 (by omega)])
theorem wld (x0 : BitVec 4) (x1 : BitVec 2) (x2 : BitVec 8) (x3 : BitVec 8) : Statement (.wld x0 x1 x2 x3) := fun _ => by
  have := x0.isLt; have := x1.isLt; have := x2.isLt; have := x3.isLt
  obtain ⟨w, e⟩ : ∃ w, w = 0x30000000 + x0.toNat * 262144 + x1.toNat * 65536 + x2.toNat * 256 + x3.toNat := ⟨_, rfl⟩
  show decodeSyllable (0x30000000 + x0.toNat * 262144 + x1.toNat * 65536 + x2.toNat * 256 + x3.toNat) none = _
  rw [← e]; refine ofM (o := 0) (by omega) (by omega) ?_
  exact took rfl (by rw [bits_of x0 (by omega), bits_of x1 (by omega), bits_of x2 (by omega), bits_of x3 (by omega)])
theorem wset (x0 : BitVec 2) (x1 : BitVec 8) (x2 : BitVec 8) : Statement (.wset x0 x1 x2) := fun _ => by
  have := x0.isLt; have := x1.isLt; have := x2.isLt
  obtain ⟨w, e⟩ : ∃ w, w = 0x30400000 + x0.toNat * 65536 + x1.toNat * 256 + x2.toNat := ⟨_, rfl⟩
  show decodeSyllable (0x30400000 + x0.toNat * 65536 + x1.toNat * 256 + x2.toNat) none = _
  rw [← e]; refine ofM (o := 1) (by omega) (by omega) ?_
  exact took (and_of (clear_of (by omega)) rfl) (by rw [bits_of x0 (by omega), bits_of x1 (by omega), bits_of x2 (by omega)])
theorem wclr (x0 : BitVec 2) (x1 : BitVec 8) : Statement (.wclr x0 x1) := fun _ => by
  have := x0.isLt; have := x1.isLt
  obtain ⟨w, e⟩ : ∃ w, w = 0x30800000 + x0.toNat * 65536 + x1.toNat * 256 := ⟨_, rfl⟩
  show decodeSyllable (0x30800000 + x0.toNat * 65536 + x1.toNat * 256) none = _
  rw [← e]; refine ofM (o := 2) (by omega) (by omega) ?_
  exact took (and_of (and_of (clear_of (by omega)) (clear_of (by omega))) rfl) (by rw [bits_of x0 (by omega), bits_of x1 (by omega)])
theorem mma (x0 : BitVec 6) (x1 : BitVec 6) (x2 : BitVec 2) : Statement (.mma x0 x1 x2) := fun _ => by
  have := x0.isLt; have := x1.isLt; have := x2.isLt
  obtain ⟨w, e⟩ : ∃ w, w = 0x30C00000 + x0.toNat * 65536 + x1.toNat * 1024 + x2.toNat * 16 := ⟨_, rfl⟩
  show decodeSyllable (0x30C00000 + x0.toNat * 65536 + x1.toNat * 1024 + x2.toNat * 16) none = _
  rw [← e]; refine ofM (o := 3) (by omega) (by omega) ?_
  exact took (and_of (and_of (clear_of (by omega)) (clear_of (by omega))) rfl) (by rw [bits_of x0 (by omega), bits_of x1 (by omega), bits_of x2 (by omega)])
theorem mmaz (x0 : BitVec 6) (x1 : BitVec 6) (x2 : BitVec 2) : Statement (.mmaz x0 x1 x2) := fun _ => by
  have := x0.isLt; have := x1.isLt; have := x2.isLt
  obtain ⟨w, e⟩ : ∃ w, w = 0x31000000 + x0.toNat * 65536 + x1.toNat * 1024 + x2.toNat * 16 := ⟨_, rfl⟩
  show decodeSyllable (0x31000000 + x0.toNat * 65536 + x1.toNat * 1024 + x2.toNat * 16) none = _
  rw [← e]; refine ofM (o := 4) (by omega) (by omega) ?_
  exact took (and_of (and_of (clear_of (by omega)) (clear_of (by omega))) rfl) (by rw [bits_of x0 (by omega), bits_of x1 (by omega), bits_of x2 (by omega)])
theorem mmag (x0 : BitVec 6) (x1 : BitVec 6) (x2 : BitVec 2) : Statement (.mmag x0 x1 x2) := fun _ => by
  have := x0.isLt; have := x1.isLt; have := x2.isLt
  obtain ⟨w, e⟩ : ∃ w, w = 0x31400000 + x0.toNat * 1024 + x1.toNat * 16 + x2.toNat := ⟨_, rfl⟩
  show decodeSyllable (0x31400000 + x0.toNat * 1024 + x1.toNat * 16 + x2.toNat) none = _
  rw [← e]; refine ofM (o := 5) (by omega) (by omega) ?_
  exact took (and_of (and_of (clear_of (by omega)) (clear_of (by omega))) rfl) (by rw [bits_of x0 (by omega), bits_of x1 (by omega), bits_of x2 (by omega)])
theorem mpat (x0 : BitVec 6) : Statement (.mpat x0) := fun _ => by
  have := x0.isLt
  obtain ⟨w, e⟩ : ∃ w, w = 0x31800000 + x0.toNat * 1024 := ⟨_, rfl⟩
  show decodeSyllable (0x31800000 + x0.toNat * 1024) none = _
  rw [← e]; refine ofM (o := 6) (by omega) (by omega) ?_
  exact took (and_of (and_of (clear_of (by omega)) (clear_of (by omega))) rfl) (by rw [bits_of x0 (by omega)])
theorem mtag (x0 : BitVec 6) (x1 : BitVec 6) : Statement (.mtag x0 x1) := fun _ => by
  have := x0.isLt; have := x1.isLt
  obtain ⟨w, e⟩ : ∃ w, w = 0x31C00000 + x0.toNat * 65536 + x1.toNat * 1024 := ⟨_, rfl⟩
  show decodeSyllable (0x31C00000 + x0.toNat * 65536 + x1.toNat * 1024) none = _
  rw [← e]; refine ofM (o := 7) (by omega) (by omega) ?_
  exact took (and_of (clear_of (by omega)) rfl) (by rw [bits_of x0 (by omega), bits_of x1 (by omega)])
theorem mdrn (x0 : BitVec 6) (x1 : BitVec 6) (x2 : BitVec 6) (x3 : BitVec 4) : Statement (.mdrn x0 x1 x2 x3) := fun _ => by
  have := x0.isLt; have := x1.isLt; have := x2.isLt; have := x3.isLt
  obtain ⟨w, e⟩ : ∃ w, w = 0x32000000 + x0.toNat * 65536 + x1.toNat * 1024 + x2.toNat * 16 + x3.toNat := ⟨_, rfl⟩
  show decodeSyllable (0x32000000 + x0.toNat * 65536 + x1.toNat * 1024 + x2.toNat * 16 + x3.toNat) none = _
  rw [← e]; refine ofM (o := 8) (by omega) (by omega) ?_
  exact took rfl (by rw [bits_of x0 (by omega), bits_of x1 (by omega), bits_of x2 (by omega), bits_of x3 (by omega)])
theorem mgdrn (x0 : BitVec 6) (x1 : BitVec 6) (x2 : BitVec 1) (x3 : BitVec 4) : Statement (.mgdrn x0 x1 x2 x3) := fun _ => by
  have := x0.isLt; have := x1.isLt; have := x2.isLt; have := x3.isLt
  obtain ⟨w, e⟩ : ∃ w, w = 0x32400000 + x0.toNat * 65536 + x1.toNat * 1024 + x2.toNat * 16 + x3.toNat := ⟨_, rfl⟩
  show decodeSyllable (0x32400000 + x0.toNat * 65536 + x1.toNat * 1024 + x2.toNat * 16 + x3.toNat) none = _
  rw [← e]; refine ofM (o := 9) (by omega) (by omega) ?_
  exact took (and_of (clear_of (by omega)) rfl) (by rw [bits_of x0 (by omega), bits_of x1 (by omega), bits_of x2 (by omega), bits_of x3 (by omega)])
theorem mzero (x0 : BitVec 1) : Statement (.mzero x0) := fun _ => by
  have := x0.isLt
  obtain ⟨w, e⟩ : ∃ w, w = 0x32800000 + x0.toNat := ⟨_, rfl⟩
  show decodeSyllable (0x32800000 + x0.toNat) none = _
  rw [← e]; refine ofM (o := 10) (by omega) (by omega) ?_
  exact took (and_of (clear_of (by omega)) rfl) (by rw [bits_of x0 (by omega)])
theorem mmiss (x0 : BitVec 6) : Statement (.mmiss x0) := fun _ => by
  have := x0.isLt
  obtain ⟨w, e⟩ : ∃ w, w = 0x32C00000 + x0.toNat * 65536 := ⟨_, rfl⟩
  show decodeSyllable (0x32C00000 + x0.toNat * 65536) none = _
  rw [← e]; refine ofM (o := 11) (by omega) (by omega) ?_
  exact took (and_of (clear_of (by omega)) rfl) (by rw [bits_of x0 (by omega)])
theorem ld (x0 : BitVec 6) (x1 : BitVec 6) (x2 : BitVec 6) (x3 : BitVec 1) (x4 : BitVec 2) : Statement (.ld x0 x1 x2 x3 x4) := fun _ => by
  have := x0.isLt; have := x1.isLt; have := x2.isLt; have := x3.isLt; have := x4.isLt
  obtain ⟨w, e⟩ : ∃ w, w = 0x40000000 + x0.toNat * 65536 + x1.toNat * 1024 + x2.toNat * 16 + x3.toNat * 8 + x4.toNat := ⟨_, rfl⟩
  show decodeSyllable (0x40000000 + x0.toNat * 65536 + x1.toNat * 1024 + x2.toNat * 16 + x3.toNat * 8 + x4.toNat) none = _
  rw [← e]; refine ofL (o := 0) (by omega) (by omega) ?_
  exact took (and_of (clear_of (by omega)) rfl) (by rw [bits_of x0 (by omega), bits_of x1 (by omega), bits_of x2 (by omega), bits_of x3 (by omega), bits_of x4 (by omega)])
theorem ldh (x0 : BitVec 6) (x1 : BitVec 4) (x2 : BitVec 4) (x3 : BitVec 2) : Statement (.ldh x0 x1 x2 x3) := fun _ => by
  have := x0.isLt; have := x1.isLt; have := x2.isLt; have := x3.isLt
  obtain ⟨w, e⟩ : ∃ w, w = 0x40400000 + x0.toNat * 65536 + x1.toNat * 4096 + x2.toNat * 256 + x3.toNat * 16 := ⟨_, rfl⟩
  show decodeSyllable (0x40400000 + x0.toNat * 65536 + x1.toNat * 4096 + x2.toNat * 256 + x3.toNat * 16) none = _
  rw [← e]; refine ofL (o := 1) (by omega) (by omega) ?_
  exact took (and_of (and_of (clear_of (by omega)) (clear_of (by omega))) rfl) (by rw [bits_of x0 (by omega), bits_of x1 (by omega), bits_of x2 (by omega), bits_of x3 (by omega)])
theorem ldt (x0 : BitVec 6) (x1 : BitVec 6) (x2 : BitVec 6) (x3 : BitVec 1) : Statement (.ldt x0 x1 x2 x3) := fun _ => by
  have := x0.isLt; have := x1.isLt; have := x2.isLt; have := x3.isLt
  obtain ⟨w, e⟩ : ∃ w, w = 0x40800000 + x0.toNat * 65536 + x1.toNat * 1024 + x2.toNat * 16 + x3.toNat * 8 := ⟨_, rfl⟩
  show decodeSyllable (0x40800000 + x0.toNat * 65536 + x1.toNat * 1024 + x2.toNat * 16 + x3.toNat * 8) none = _
  rw [← e]; refine ofL (o := 2) (by omega) (by omega) ?_
  exact took (and_of (clear_of (by omega)) rfl) (by rw [bits_of x0 (by omega), bits_of x1 (by omega), bits_of x2 (by omega), bits_of x3 (by omega)])
theorem ldth (x0 : BitVec 6) (x1 : BitVec 4) (x2 : BitVec 4) : Statement (.ldth x0 x1 x2) := fun _ => by
  have := x0.isLt; have := x1.isLt; have := x2.isLt
  obtain ⟨w, e⟩ : ∃ w, w = 0x40C00000 + x0.toNat * 65536 + x1.toNat * 4096 + x2.toNat * 256 := ⟨_, rfl⟩
  show decodeSyllable (0x40C00000 + x0.toNat * 65536 + x1.toNat * 4096 + x2.toNat * 256) none = _
  rw [← e]; refine ofL (o := 3) (by omega) (by omega) ?_
  exact took (and_of (clear_of (by omega)) rfl) (by rw [bits_of x0 (by omega), bits_of x1 (by omega), bits_of x2 (by omega)])
theorem lds (x0 : BitVec 6) (x1 : BitVec 6) (x2 : BitVec 10) (x3 : Option (BitVec 9)) : Statement (.lds x0 x1 x2 x3) := fun _ => by
  have := x0.isLt; have := x1.isLt; have := x2.isLt
  obtain ⟨w, e⟩ : ∃ w, w = 0x41000000 + x0.toNat * 65536 + x1.toNat * 1024 + x2.toNat := ⟨_, rfl⟩
  show decodeSyllable (0x41000000 + x0.toNat * 65536 + x1.toNat * 1024 + x2.toNat) x3 = _
  rw [← e]; refine ofL (o := 4) (by omega) (by omega) ?_
  exact took rfl (by rw [bits_of x0 (by omega), bits_of x1 (by omega), bits_of x2 (by omega)])
theorem sqld (x0 : BitVec 6) (x1 : BitVec 10) (x2 : Option (BitVec 9)) : Statement (.sqld x0 x1 x2) := fun _ => by
  have := x0.isLt; have := x1.isLt
  obtain ⟨w, e⟩ : ∃ w, w = 0x41400000 + x0.toNat * 1024 + x1.toNat := ⟨_, rfl⟩
  show decodeSyllable (0x41400000 + x0.toNat * 1024 + x1.toNat) x2 = _
  rw [← e]; refine ofL (o := 5) (by omega) (by omega) ?_
  exact took (clear_of (by omega)) (by rw [bits_of x0 (by omega), bits_of x1 (by omega)])
theorem ldm (x0 : BitVec 6) (x1 : BitVec 6) (x2 : BitVec 1) : Statement (.ldm x0 x1 x2) := fun _ => by
  have := x0.isLt; have := x1.isLt; have := x2.isLt
  obtain ⟨w, e⟩ : ∃ w, w = 0x41800000 + x0.toNat * 65536 + x1.toNat * 1024 + x2.toNat * 8 := ⟨_, rfl⟩
  show decodeSyllable (0x41800000 + x0.toNat * 65536 + x1.toNat * 1024 + x2.toNat * 8) none = _
  rw [← e]; refine ofL (o := 6) (by omega) (by omega) ?_
  exact took (and_of (and_of (clear_of (by omega)) (clear_of (by omega))) rfl) (by rw [bits_of x0 (by omega), bits_of x1 (by omega), bits_of x2 (by omega)])
theorem st (x0 : BitVec 6) (x1 : BitVec 6) (x2 : BitVec 6) (x3 : BitVec 1) (x4 : BitVec 2) : Statement (.st x0 x1 x2 x3 x4) := fun _ => by
  have := x0.isLt; have := x1.isLt; have := x2.isLt; have := x3.isLt; have := x4.isLt
  obtain ⟨w, e⟩ : ∃ w, w = 0x50000000 + x0.toNat * 65536 + x1.toNat * 1024 + x2.toNat * 16 + x3.toNat * 8 + x4.toNat := ⟨_, rfl⟩
  show decodeSyllable (0x50000000 + x0.toNat * 65536 + x1.toNat * 1024 + x2.toNat * 16 + x3.toNat * 8 + x4.toNat) none = _
  rw [← e]; refine ofW (o := 0) (by omega) (by omega) ?_
  exact took (and_of (clear_of (by omega)) rfl) (by rw [bits_of x0 (by omega), bits_of x1 (by omega), bits_of x2 (by omega), bits_of x3 (by omega), bits_of x4 (by omega)])
theorem sth (x0 : BitVec 6) (x1 : BitVec 4) (x2 : BitVec 4) (x3 : BitVec 2) : Statement (.sth x0 x1 x2 x3) := fun _ => by
  have := x0.isLt; have := x1.isLt; have := x2.isLt; have := x3.isLt
  obtain ⟨w, e⟩ : ∃ w, w = 0x50400000 + x0.toNat * 65536 + x1.toNat * 4096 + x2.toNat * 256 + x3.toNat * 16 := ⟨_, rfl⟩
  show decodeSyllable (0x50400000 + x0.toNat * 65536 + x1.toNat * 4096 + x2.toNat * 256 + x3.toNat * 16) none = _
  rw [← e]; refine ofW (o := 1) (by omega) (by omega) ?_
  exact took (and_of (and_of (clear_of (by omega)) (clear_of (by omega))) rfl) (by rw [bits_of x0 (by omega), bits_of x1 (by omega), bits_of x2 (by omega), bits_of x3 (by omega)])
theorem stt (x0 : BitVec 6) (x1 : BitVec 6) (x2 : BitVec 6) (x3 : BitVec 1) : Statement (.stt x0 x1 x2 x3) := fun _ => by
  have := x0.isLt; have := x1.isLt; have := x2.isLt; have := x3.isLt
  obtain ⟨w, e⟩ : ∃ w, w = 0x50800000 + x0.toNat * 65536 + x1.toNat * 1024 + x2.toNat * 16 + x3.toNat * 8 := ⟨_, rfl⟩
  show decodeSyllable (0x50800000 + x0.toNat * 65536 + x1.toNat * 1024 + x2.toNat * 16 + x3.toNat * 8) none = _
  rw [← e]; refine ofW (o := 2) (by omega) (by omega) ?_
  exact took (and_of (clear_of (by omega)) rfl) (by rw [bits_of x0 (by omega), bits_of x1 (by omega), bits_of x2 (by omega), bits_of x3 (by omega)])
theorem stth (x0 : BitVec 6) (x1 : BitVec 4) (x2 : BitVec 4) : Statement (.stth x0 x1 x2) := fun _ => by
  have := x0.isLt; have := x1.isLt; have := x2.isLt
  obtain ⟨w, e⟩ : ∃ w, w = 0x50C00000 + x0.toNat * 65536 + x1.toNat * 4096 + x2.toNat * 256 := ⟨_, rfl⟩
  show decodeSyllable (0x50C00000 + x0.toNat * 65536 + x1.toNat * 4096 + x2.toNat * 256) none = _
  rw [← e]; refine ofW (o := 3) (by omega) (by omega) ?_
  exact took (and_of (clear_of (by omega)) rfl) (by rw [bits_of x0 (by omega), bits_of x1 (by omega), bits_of x2 (by omega)])
theorem sts (x0 : BitVec 6) (x1 : BitVec 6) (x2 : BitVec 10) (x3 : Option (BitVec 9)) : Statement (.sts x0 x1 x2 x3) := fun _ => by
  have := x0.isLt; have := x1.isLt; have := x2.isLt
  obtain ⟨w, e⟩ : ∃ w, w = 0x51000000 + x0.toNat * 65536 + x1.toNat * 1024 + x2.toNat := ⟨_, rfl⟩
  show decodeSyllable (0x51000000 + x0.toNat * 65536 + x1.toNat * 1024 + x2.toNat) x3 = _
  rw [← e]; refine ofW (o := 4) (by omega) (by omega) ?_
  exact took rfl (by rw [bits_of x0 (by omega), bits_of x1 (by omega), bits_of x2 (by omega)])
theorem stm (x0 : BitVec 6) (x1 : BitVec 6) (x2 : BitVec 1) : Statement (.stm x0 x1 x2) := fun _ => by
  have := x0.isLt; have := x1.isLt; have := x2.isLt
  obtain ⟨w, e⟩ : ∃ w, w = 0x51400000 + x0.toNat * 65536 + x1.toNat * 1024 + x2.toNat * 8 := ⟨_, rfl⟩
  show decodeSyllable (0x51400000 + x0.toNat * 65536 + x1.toNat * 1024 + x2.toNat * 8) none = _
  rw [← e]; refine ofW (o := 5) (by omega) (by omega) ?_
  exact took (and_of (and_of (clear_of (by omega)) (clear_of (by omega))) rfl) (by rw [bits_of x0 (by omega), bits_of x1 (by omega), bits_of x2 (by omega)])
theorem dcp (x0 : BitVec 6) (x1 : BitVec 4) (x2 : BitVec 4) (x3 : BitVec 1) : Statement (.dcp x0 x1 x2 x3) := fun _ => by
  have := x0.isLt; have := x1.isLt; have := x2.isLt; have := x3.isLt
  obtain ⟨w, e⟩ : ∃ w, w = 0x60000000 + x0.toNat * 65536 + x1.toNat * 4096 + x2.toNat * 256 + x3.toNat * 16 := ⟨_, rfl⟩
  show decodeSyllable (0x60000000 + x0.toNat * 65536 + x1.toNat * 4096 + x2.toNat * 256 + x3.toNat * 16) none = _
  rw [← e]; refine ofD (o := 0) (by omega) (by omega) ?_
  exact took (and_of (and_of (clear_of (by omega)) (clear_of (by omega))) rfl) (by rw [bits_of x0 (by omega), bits_of x1 (by omega), bits_of x2 (by omega), bits_of x3 (by omega)])
theorem dput (x0 : BitVec 6) (x1 : BitVec 6) (x2 : BitVec 6) : Statement (.dput x0 x1 x2) := fun _ => by
  have := x0.isLt; have := x1.isLt; have := x2.isLt
  obtain ⟨w, e⟩ : ∃ w, w = 0x60400000 + x0.toNat * 65536 + x1.toNat * 1024 + x2.toNat * 16 := ⟨_, rfl⟩
  show decodeSyllable (0x60400000 + x0.toNat * 65536 + x1.toNat * 1024 + x2.toNat * 16) none = _
  rw [← e]; refine ofD (o := 1) (by omega) (by omega) ?_
  exact took (and_of (clear_of (by omega)) rfl) (by rw [bits_of x0 (by omega), bits_of x1 (by omega), bits_of x2 (by omega)])
theorem dred (x0 : BitVec 6) (x1 : BitVec 6) (x2 : BitVec 6) (x3 : BitVec 2) (x4 : BitVec 2) (x5 : Option (BitVec 9)) : Statement (.dred x0 x1 x2 x3 x4 x5) := fun _ => by
  have := x0.isLt; have := x1.isLt; have := x2.isLt; have := x3.isLt; have := x4.isLt
  obtain ⟨w, e⟩ : ∃ w, w = 0x60800000 + x0.toNat * 65536 + x1.toNat * 1024 + x2.toNat * 16 + x3.toNat * 4 + x4.toNat := ⟨_, rfl⟩
  show decodeSyllable (0x60800000 + x0.toNat * 65536 + x1.toNat * 1024 + x2.toNat * 16 + x3.toNat * 4 + x4.toNat) x5 = _
  rw [← e]; refine ofD (o := 2) (by omega) (by omega) ?_
  exact took rfl (by rw [bits_of x0 (by omega), bits_of x1 (by omega), bits_of x2 (by omega), bits_of x3 (by omega), bits_of x4 (by omega)])
theorem dgln (x0 : BitVec 6) (x1 : BitVec 6) (x2 : BitVec 6) (x3 : BitVec 4) : Statement (.dgln x0 x1 x2 x3) := fun _ => by
  have := x0.isLt; have := x1.isLt; have := x2.isLt; have := x3.isLt
  obtain ⟨w, e⟩ : ∃ w, w = 0x60C00000 + x0.toNat * 65536 + x1.toNat * 1024 + x2.toNat * 16 + x3.toNat := ⟨_, rfl⟩
  show decodeSyllable (0x60C00000 + x0.toNat * 65536 + x1.toNat * 1024 + x2.toNat * 16 + x3.toNat) none = _
  rw [← e]; refine ofD (o := 3) (by omega) (by omega) ?_
  exact took rfl (by rw [bits_of x0 (by omega), bits_of x1 (by omega), bits_of x2 (by omega), bits_of x3 (by omega)])
theorem dhget (x0 : BitVec 6) (x1 : BitVec 6) (x2 : BitVec 6) (x3 : BitVec 4) : Statement (.dhget x0 x1 x2 x3) := fun _ => by
  have := x0.isLt; have := x1.isLt; have := x2.isLt; have := x3.isLt
  obtain ⟨w, e⟩ : ∃ w, w = 0x61000000 + x0.toNat * 65536 + x1.toNat * 1024 + x2.toNat * 16 + x3.toNat := ⟨_, rfl⟩
  show decodeSyllable (0x61000000 + x0.toNat * 65536 + x1.toNat * 1024 + x2.toNat * 16 + x3.toNat) none = _
  rw [← e]; refine ofD (o := 4) (by omega) (by omega) ?_
  exact took rfl (by rw [bits_of x0 (by omega), bits_of x1 (by omega), bits_of x2 (by omega), bits_of x3 (by omega)])
theorem dhput (x0 : BitVec 6) (x1 : BitVec 6) (x2 : BitVec 6) (x3 : BitVec 4) : Statement (.dhput x0 x1 x2 x3) := fun _ => by
  have := x0.isLt; have := x1.isLt; have := x2.isLt; have := x3.isLt
  obtain ⟨w, e⟩ : ∃ w, w = 0x61400000 + x0.toNat * 65536 + x1.toNat * 1024 + x2.toNat * 16 + x3.toNat := ⟨_, rfl⟩
  show decodeSyllable (0x61400000 + x0.toNat * 65536 + x1.toNat * 1024 + x2.toNat * 16 + x3.toNat) none = _
  rw [← e]; refine ofD (o := 5) (by omega) (by omega) ?_
  exact took rfl (by rw [bits_of x0 (by omega), bits_of x1 (by omega), bits_of x2 (by omega), bits_of x3 (by omega)])
theorem amo (x0 : BitVec 6) (x1 : BitVec 6) (x2 : BitVec 2) (x3 : BitVec 2) : Statement (.amo x0 x1 x2 x3) := fun _ => by
  have := x0.isLt; have := x1.isLt; have := x2.isLt; have := x3.isLt
  obtain ⟨w, e⟩ : ∃ w, w = 0x61800000 + x0.toNat * 65536 + x1.toNat * 1024 + x2.toNat * 4 + x3.toNat := ⟨_, rfl⟩
  show decodeSyllable (0x61800000 + x0.toNat * 65536 + x1.toNat * 1024 + x2.toNat * 4 + x3.toNat) none = _
  rw [← e]; refine ofD (o := 6) (by omega) (by omega) ?_
  exact took (and_of (clear_of (by omega)) rfl) (by rw [bits_of x0 (by omega), bits_of x1 (by omega), bits_of x2 (by omega), bits_of x3 (by omega)])
theorem amor (x0 : BitVec 6) (x1 : BitVec 6) (x2 : BitVec 6) (x3 : BitVec 2) (x4 : BitVec 2) : Statement (.amor x0 x1 x2 x3 x4) := fun _ => by
  have := x0.isLt; have := x1.isLt; have := x2.isLt; have := x3.isLt; have := x4.isLt
  obtain ⟨w, e⟩ : ∃ w, w = 0x61C00000 + x0.toNat * 65536 + x1.toNat * 1024 + x2.toNat * 16 + x3.toNat * 4 + x4.toNat := ⟨_, rfl⟩
  show decodeSyllable (0x61C00000 + x0.toNat * 65536 + x1.toNat * 1024 + x2.toNat * 16 + x3.toNat * 4 + x4.toNat) none = _
  rw [← e]; refine ofD (o := 7) (by omega) (by omega) ?_
  exact took rfl (by rw [bits_of x0 (by omega), bits_of x1 (by omega), bits_of x2 (by omega), bits_of x3 (by omega), bits_of x4 (by omega)])
theorem dcan (x0 : BitVec 4) : Statement (.dcan x0) := fun _ => by
  have := x0.isLt
  obtain ⟨w, e⟩ : ∃ w, w = 0x62000000 + x0.toNat := ⟨_, rfl⟩
  show decodeSyllable (0x62000000 + x0.toNat) none = _
  rw [← e]; refine ofD (o := 8) (by omega) (by omega) ?_
  exact took (and_of (clear_of (by omega)) rfl) (by rw [bits_of x0 (by omega)])
theorem chact (x0 : BitVec 5) (x1 : BitVec 15) : Statement (.chact x0 x1) := fun _ => by
  have := x0.isLt; have := x1.isLt
  obtain ⟨w, e⟩ : ∃ w, w = 0x64000000 + x0.toNat * 131072 + x1.toNat * 2 := ⟨_, rfl⟩
  show decodeSyllable (0x64000000 + x0.toNat * 131072 + x1.toNat * 2) none = _
  rw [← e]; refine ofD (o := 16) (by omega) (by omega) ?_
  refine (if_clear (by omega)).trans ?_
  exact took (and_of (clear_of (by omega)) rfl) (by rw [bits_of x0 (by omega), bits_of x1 (by omega)])
theorem chactReg (x0 : BitVec 5) (x1 : BitVec 6) : Statement (.chactReg x0 x1) := fun _ => by
  have := x0.isLt; have := x1.isLt
  obtain ⟨w, e⟩ : ∃ w, w = 0x64010000 + x0.toNat * 131072 + x1.toNat * 1024 := ⟨_, rfl⟩
  show decodeSyllable (0x64010000 + x0.toNat * 131072 + x1.toNat * 1024) none = _
  rw [← e]; refine ofD (o := 16) (by omega) (by omega) ?_
  refine (if_set (by omega)).trans ?_
  exact took (and_of (clear_of (by omega)) rfl) (by rw [bits_of x0 (by omega), bits_of x1 (by omega)])
theorem chrd (x0 : BitVec 5) (x1 : BitVec 4) (x2 : BitVec 6) (x3 : BitVec 4) : Statement (.chrd x0 x1 x2 x3) := fun _ => by
  have := x0.isLt; have := x1.isLt; have := x2.isLt; have := x3.isLt
  obtain ⟨w, e⟩ : ∃ w, w = 0x64400000 + x0.toNat * 131072 + x1.toNat * 8192 + x2.toNat * 64 + x3.toNat := ⟨_, rfl⟩
  show decodeSyllable (0x64400000 + x0.toNat * 131072 + x1.toNat * 8192 + x2.toNat * 64 + x3.toNat) none = _
  rw [← e]; refine ofD (o := 17) (by omega) (by omega) ?_
  refine (if_clear (by omega)).trans ?_
  exact took (and_of (clear_of (by omega)) rfl) (by rw [bits_of x0 (by omega), bits_of x1 (by omega), bits_of x2 (by omega), bits_of x3 (by omega)])
theorem chrdHandle (x0 : BitVec 5) (x1 : BitVec 4) (x2 : BitVec 4) (x3 : BitVec 4) (x4 : BitVec 4) : Statement (.chrdHandle x0 x1 x2 x3 x4) := fun _ => by
  have := x0.isLt; have := x1.isLt; have := x2.isLt; have := x3.isLt; have := x4.isLt
  obtain ⟨w, e⟩ : ∃ w, w = 0x64401000 + x0.toNat * 131072 + x1.toNat * 8192 + x2.toNat * 256 + x3.toNat * 16 + x4.toNat := ⟨_, rfl⟩
  show decodeSyllable (0x64401000 + x0.toNat * 131072 + x1.toNat * 8192 + x2.toNat * 256 + x3.toNat * 16 + x4.toNat) none = _
  rw [← e]; refine ofD (o := 17) (by omega) (by omega) ?_
  refine (if_set (by omega)).trans ?_
  exact took rfl (by rw [bits_of x0 (by omega), bits_of x1 (by omega), bits_of x2 (by omega), bits_of x3 (by omega), bits_of x4 (by omega)])
theorem chwr (x0 : BitVec 5) (x1 : BitVec 4) (x2 : BitVec 6) : Statement (.chwr x0 x1 x2) := fun _ => by
  have := x0.isLt; have := x1.isLt; have := x2.isLt
  obtain ⟨w, e⟩ : ∃ w, w = 0x64800000 + x0.toNat * 131072 + x1.toNat * 8192 + x2.toNat * 64 := ⟨_, rfl⟩
  show decodeSyllable (0x64800000 + x0.toNat * 131072 + x1.toNat * 8192 + x2.toNat * 64) none = _
  rw [← e]; refine ofD (o := 18) (by omega) (by omega) ?_
  refine (if_clear (by omega)).trans ?_
  exact took (and_of (clear_of (by omega)) rfl) (by rw [bits_of x0 (by omega), bits_of x1 (by omega), bits_of x2 (by omega)])
theorem chwrHandle (x0 : BitVec 5) (x1 : BitVec 4) (x2 : BitVec 4) (x3 : BitVec 4) : Statement (.chwrHandle x0 x1 x2 x3) := fun _ => by
  have := x0.isLt; have := x1.isLt; have := x2.isLt; have := x3.isLt
  obtain ⟨w, e⟩ : ∃ w, w = 0x64801000 + x0.toNat * 131072 + x1.toNat * 8192 + x2.toNat * 256 + x3.toNat * 16 := ⟨_, rfl⟩
  show decodeSyllable (0x64801000 + x0.toNat * 131072 + x1.toNat * 8192 + x2.toNat * 256 + x3.toNat * 16) none = _
  rw [← e]; refine ofD (o := 18) (by omega) (by omega) ?_
  refine (if_set (by omega)).trans ?_
  exact took (and_of (clear_of (by omega)) rfl) (by rw [bits_of x0 (by omega), bits_of x1 (by omega), bits_of x2 (by omega), bits_of x3 (by omega)])
theorem chpre (x0 : BitVec 5) : Statement (.chpre x0) := fun _ => by
  have := x0.isLt
  obtain ⟨w, e⟩ : ∃ w, w = 0x64C00000 + x0.toNat * 131072 := ⟨_, rfl⟩
  show decodeSyllable (0x64C00000 + x0.toNat * 131072) none = _
  rw [← e]; refine ofD (o := 19) (by omega) (by omega) ?_
  exact took (and_of (clear_of (by omega)) rfl) (by rw [bits_of x0 (by omega)])
theorem chpra : Statement (.chpra) := fun _ => by
  obtain ⟨w, e⟩ : ∃ w, w = 0x65000000 := ⟨_, rfl⟩
  show decodeSyllable (0x65000000) none = _
  rw [← e]; refine ofD (o := 20) (by omega) (by omega) ?_
  exact took (and_of (clear_of (by omega)) rfl) (by rfl)
theorem chref : Statement (.chref) := fun _ => by
  obtain ⟨w, e⟩ : ∃ w, w = 0x65400000 := ⟨_, rfl⟩
  show decodeSyllable (0x65400000) none = _
  rw [← e]; refine ofD (o := 21) (by omega) (by omega) ?_
  exact took (and_of (clear_of (by omega)) rfl) (by rfl)
theorem chrefb (x0 : BitVec 5) : Statement (.chrefb x0) := fun _ => by
  have := x0.isLt
  obtain ⟨w, e⟩ : ∃ w, w = 0x65800000 + x0.toNat * 131072 := ⟨_, rfl⟩
  show decodeSyllable (0x65800000 + x0.toNat * 131072) none = _
  rw [← e]; refine ofD (o := 22) (by omega) (by omega) ?_
  exact took (and_of (clear_of (by omega)) rfl) (by rw [bits_of x0 (by omega)])
theorem nop : Statement (.nop) := fun _ => rfl
theorem hpf (x0 : BitVec 22) : Statement (.hpf x0) := fun _ => by
  have := x0.isLt
  obtain ⟨w, e⟩ : ∃ w, w = 0x70400000 + x0.toNat := ⟨_, rfl⟩
  show decodeSyllable (0x70400000 + x0.toNat) none = _
  rw [← e]; exact ofX (o := 1) (by omega) (by omega) (by show some (Decoded.instr (.hpf (bits w 0 22))) = _; rw [bits_of x0 (by omega)])
theorem furrowOrigin (x0 : LaunchId) : Statement (.furrowOrigin x0) := nofun
theorem merge : Statement (.merge) := nofun
theorem missingHead : Statement (.missingHead) := nofun
theorem headlandHashCompare (x0 : LaunchId) : Statement (.headlandHashCompare x0) := nofun
theorem furrowOverrun : Statement (.furrowOverrun) := nofun
theorem elasticJoin (x0 : LaunchId) : Statement (.elasticJoin x0) := nofun
theorem drainRelease : Statement (.drainRelease) := nofun
theorem holdRelease : Statement (.holdRelease) := nofun
theorem freezeRelease : Statement (.freezeRelease) := nofun
theorem scalarResultWrite (x0 : Nat) : Statement (.scalarResultWrite x0) := nofun
theorem vectorRowRead (x0 : Nat) (x1 : Nat) : Statement (.vectorRowRead x0 x1) := nofun
theorem vectorRowWrite (x0 : Nat) (x1 : Nat) : Statement (.vectorRowWrite x0 x1) := nofun
theorem harrowResultWrite (x0 : Nat) (x1 : Nat) : Statement (.harrowResultWrite x0 x1) := nofun
theorem countQueueAppend (x0 : Nat) (x1 : Nat) : Statement (.countQueueAppend x0 x1) := nofun
theorem scratchpadRowRead (x0 : Nat) (x1 : Nat) : Statement (.scratchpadRowRead x0 x1) := nofun
theorem registerRowWrite (x0 : Nat) (x1 : Nat) : Statement (.registerRowWrite x0 x1) := nofun
theorem storeRowWrite (x0 : Nat) (x1 : Nat) : Statement (.storeRowWrite x0 x1) := nofun
theorem scaleAppend (x0 : Nat) (x1 : Nat) : Statement (.scaleAppend x0 x1) := nofun
theorem arrayRowRead (x0 : Nat) (x1 : Nat) : Statement (.arrayRowRead x0 x1) := nofun
theorem arrayRowUpdate (x0 : Nat) (x1 : Nat) : Statement (.arrayRowUpdate x0 x1) := nofun
theorem wldScalePop (x0 : Nat) (x1 : Nat) : Statement (.wldScalePop x0 x1) := nofun
theorem wldKrowWrite (x0 : Nat) (x1 : Nat) : Statement (.wldKrowWrite x0 x1) := nofun
theorem slotLoadingEnd (x0 : Nat) (x1 : Nat) : Statement (.slotLoadingEnd x0 x1) := nofun
theorem descriptorUpdate (x0 : Nat) (x1 : Nat) : Statement (.descriptorUpdate x0 x1) := nofun
theorem accumulatorRowRead (x0 : Nat) (x1 : Nat) : Statement (.accumulatorRowRead x0 x1) := nofun
theorem gleanerListRead (x0 : Nat) (x1 : Nat) : Statement (.gleanerListRead x0 x1) := nofun
theorem drillBlockRead (x0 : Nat) (x1 : Nat) : Statement (.drillBlockRead x0 x1) := nofun
theorem drillBlockWrite (x0 : Nat) (x1 : Nat) : Statement (.drillBlockWrite x0 x1) := nofun
theorem sendBlockRead (x0 : Nat) (x1 : Nat) : Statement (.sendBlockRead x0 x1) := nofun
theorem recordArrival (x0 : Nat) : Statement (.recordArrival x0) := nofun
theorem hostDataArrival (x0 : Nat) (x1 : Nat) (x2 : List (BitVec 8)) : Statement (.hostDataArrival x0 x1 x2) := nofun
theorem hostTransferComplete (x0 : Nat) : Statement (.hostTransferComplete x0) := nofun
theorem hostAcknowledgement (x0 : Nat) : Statement (.hostAcknowledgement x0) := nofun
theorem hostSideError (x0 : Nat) : Statement (.hostSideError x0) := nofun
theorem channelReadData (x0 : Nat) (x1 : Nat) : Statement (.channelReadData x0 x1) := nofun
theorem channelWriteSourceRead (x0 : Nat) (x1 : Nat) : Statement (.channelWriteSourceRead x0 x1) := nofun
theorem refreshDeadline (x0 : Nat) : Statement (.refreshDeadline x0) := nofun
theorem systemWindow (x0 : BitVec 8) : Statement (.systemWindow x0) := nofun
theorem codeFillDone (x0 : LaunchId) (x1 : Nat) : Statement (.codeFillDone x0 x1) := nofun
theorem commonStop (x0 : LaunchId) : Statement (.commonStop x0) := nofun
theorem preemptionStop (x0 : LaunchId) : Statement (.preemptionStop x0) := nofun
theorem saveEnd (x0 : LaunchId) : Statement (.saveEnd x0) := nofun
theorem footprintSaveEnd (x0 : LaunchId) : Statement (.footprintSaveEnd x0) := nofun
theorem footprintRestoreEnd (x0 : LaunchId) : Statement (.footprintRestoreEnd x0) := nofun
theorem restoreEnd (x0 : LaunchId) : Statement (.restoreEnd x0) := nofun
theorem restartPreamble (x0 : LaunchId) : Statement (.restartPreamble x0) := nofun
theorem restartCycle (x0 : LaunchId) : Statement (.restartCycle x0) := nofun
theorem firstOrigin (x0 : LaunchId) : Statement (.firstOrigin x0) := nofun
theorem launchCompletion (x0 : LaunchId) : Statement (.launchCompletion x0) := nofun
theorem peerReduceContribution (x0 : BitVec 6) (x1 : Nat) (x2 : List (BitVec 8)) : Statement (.peerReduceContribution x0 x1 x2) := nofun
theorem thermalYield : Statement (.thermalYield) := nofun
theorem thermalRecovery : Statement (.thermalRecovery) := nofun
theorem powerUp : Statement (.powerUp) := nofun
theorem functionReady (x0 : Fn) (x1 : Bool) : Statement (.functionReady x0 x1) := nofun
theorem managementReset : Statement (.managementReset) := nofun
theorem stateReport (x0 : Hdr) : Statement (.stateReport x0) := nofun
theorem resendReports (x0 : Hdr) (x1 : BitVec 48) (x2 : BitVec 48) : Statement (.resendReports x0 x1 x2) := nofun
theorem deliverFirmwareImage (x0 : Hdr) (x1 : FirmwareImage) : Statement (.deliverFirmwareImage x0 x1) := nofun
theorem createPartition (x0 : Hdr) (x1 : BitVec 8) (x2 : BitVec 8) (x3 : BitVec 8) (x4 : BitVec 8) (x5 : BitVec 8) (x6 : Bool) : Statement (.createPartition x0 x1 x2 x3 x4 x5 x6) := nofun
theorem destroyPartition (x0 : Hdr) (x1 : BitVec 8) : Statement (.destroyPartition x0 x1) := nofun
theorem writePartitionSeedRegister (x0 : Hdr) (x1 : BitVec 8) (x2 : BitVec 64) : Statement (.writePartitionSeedRegister x0 x1 x2) := nofun
theorem addToPartitionCounter (x0 : Hdr) (x1 : BitVec 8) (x2 : BitVec 8) (x3 : BitVec 64) : Statement (.addToPartitionCounter x0 x1 x2 x3) := nofun
theorem addToContextCounter (x0 : Hdr) (x1 : LaunchId) (x2 : Nat) (x3 : BitVec 6) (x4 : BitVec 64) : Statement (.addToContextCounter x0 x1 x2 x3 x4) := nofun
theorem writePartitionWindowEntry (x0 : Hdr) (x1 : BitVec 8) (x2 : BitVec 6) (x3 : BitVec 64) (x4 : BitVec 64) (x5 : BitVec 64) (x6 : BitVec 64) : Statement (.writePartitionWindowEntry x0 x1 x2 x3 x4 x5 x6) := nofun
theorem loadCode (x0 : Hdr) (x1 : BitVec 8) (x2 : Sheaf) : Statement (.loadCode x0 x1 x2) := nofun
theorem unregisterSheaf (x0 : Hdr) (x1 : BitVec 8) (x2 : BitVec 64) : Statement (.unregisterSheaf x0 x1 x2) := nofun
theorem launch (x0 : Hdr) (x1 : List (BitVec 8)) : Statement (.launch x0 x1) := nofun
theorem cancelQueuedLaunch (x0 : Hdr) (x1 : LaunchId) : Statement (.cancelQueuedLaunch x0 x1) := nofun
theorem resumeLaunch (x0 : Hdr) (x1 : LaunchId) (x2 : BitVec 8) (x3 : BitVec 8) : Statement (.resumeLaunch x0 x1 x2 x3) := nofun
theorem releaseContext (x0 : Hdr) (x1 : LaunchId) : Statement (.releaseContext x0 x1) := nofun
theorem stateRead (x0 : Hdr) (x1 : LaunchId) (x2 : StateSel) : Statement (.stateRead x0 x1 x2) := nofun
theorem stateWrite (x0 : Hdr) (x1 : LaunchId) (x2 : StateSel) (x3 : List (BitVec 8)) : Statement (.stateWrite x0 x1 x2 x3) := nofun
theorem readSurveyTable (x0 : Hdr) (x1 : BitVec 8) : Statement (.readSurveyTable x0 x1) := nofun
theorem clearSurveyTable (x0 : Hdr) (x1 : BitVec 8) : Statement (.clearSurveyTable x0 x1) := nofun
theorem writeProcessGroupEntry (x0 : Hdr) (x1 : BitVec 8) (x2 : BitVec 4) (x3 : BitVec 8) (x4 : BitVec 8) (x5 : List Member) : Statement (.writeProcessGroupEntry x0 x1 x2 x3 x4 x5) := nofun
theorem attest (x0 : Hdr) (x1 : List (BitVec 8)) (x2 : BitVec 8) : Statement (.attest x0 x1 x2) := nofun
theorem readErrorLogs (x0 : Hdr) (x1 : BitVec 5) (x2 : BitVec 4) : Statement (.readErrorLogs x0 x1 x2) := nofun
theorem clearErrorLogs (x0 : Hdr) (x1 : BitVec 5) (x2 : BitVec 4) : Statement (.clearErrorLogs x0 x1 x2) := nofun
theorem undefinedOpcode (x0 : BitVec 32) : Statement (.undefinedOpcode x0) := fun h => by
  have h : (decide (x0.toNat < 2147483648) && !(opDefined (x0.toNat / 268435456 % 8) (x0.toNat / 4194304 % 64)) &&
      x0.toNat / 268435456 % 8 != 0) = true := h
  simp only [Bool.and_eq_true, decide_eq_true_eq, Bool.not_eq_true'] at h
  obtain ⟨⟨hl, hd⟩, _⟩ := h
  show decodeSyllable (x0.toNat % 2147483648) none = _
  rw [Nat.mod_eq_of_lt hl, undefined_word x0.toNat none hd, Nat.mod_eq_of_lt hl]; simp
theorem hintSpace (x0 : BitVec 6) (x1 : BitVec 22) : Statement (.hintSpace x0 x1) := fun h => by
  have := x0.isLt; have := x1.isLt
  have h : (decide (2 ≤ x0.toNat) && decide (x0.toNat ≤ 0x3E)) = true := h
  simp only [Bool.and_eq_true, decide_eq_true_eq] at h
  obtain ⟨w, e⟩ : ∃ w, w = 0x70000000 + x0.toNat * 4194304 + x1.toNat := ⟨_, rfl⟩
  show decodeSyllable (0x70000000 + x0.toNat * 4194304 + x1.toNat) none = _
  rw [← e]
  refine ofX (o := x0.toNat) (by omega) (by omega) ?_
  unfold decodeX; rw [if_neg (by omega), if_neg (by omega), if_pos (by omega), bits_of x1 (by omega)]; simp
theorem undefinedCommand (x0 : Hdr) (x1 : BitVec 16) (x2 : BitVec 16) : Statement (.undefinedCommand x0 x1 x2) := nofun
theorem powerLoss (x0 : Bool) : Statement (.powerLoss x0) := nofun

end Sys2Proof.Laws.RoundTrip
end

