-- ==== Sys2Proof/Tests/Slice0.lean ====
section
/-!
SUPPORT. Tests: words written out from the encoding tables of spec/ and the instructions they stand for, terms the
well-formedness checks refuse, single steps on small states, and for every statement states and operands that meet its
hypotheses together.
-/

namespace Sys2Proof.Tests

open Sys2Proof Sys2Proof.Machine

/-! ## Words (R115 to R135, R159): each from the match value and the field places of its row of the opcode table -/

def words_scalar1 : List (Nat × Instr) :=
  [(0x10394270, .sadd 57 16 39), (0x10794270, .ssub 57 16 39), (0x10B94270, .sand 57 16 39),
   (0x10F42E20, .sor 52 11 34), (0x11394270, .sxor 57 16 39), (0x11794270, .sshl 57 16 39),
   (0x11B94270, .sshr 57 16 39), (0x11F94270, .ssra 57 16 39), (0x12394270, .smul 57 16 39),
   (0x127E56C0, .smulh 62 21 44 0), (0x12B94271, .sdiv 57 16 39 1), (0x12F94271, .srem 57 16 39 1),
   (0x13394271, .smin 57 16 39 1), (0x13794271, .smax 57 16 39 1), (0x13B94000, .sclz 57 16),
   (0x13F94000, .spop 57 16), (0x143E5648, .saddi 62 21 584 none), (0x147E5648, .sandi 62 21 584 none),
   (0x14B941FB, .sori 57 16 507 none), (0x14FE5648, .sxori 62 21 584 none)]

def words_scalar2 : List (Nat × Instr) :=
  [(0x153E5648, .sshli 62 21 584 none), (0x157E5648, .sshri 62 21 584 none), (0x15BE5648, .ssrai 62 21 584 none),
   (0x15FE5648, .smuli 62 21 584 none), (0x1634049D, .sli 52 1181 none), (0x167904EA, .slhi 57 1258 none),
   (0x16B9427E, .sadr 57 16 39 14), (0x16F9427E, .ssel 57 16 39 14), (0x17394002, .sext 57 16 0 2),
   (0x1767EAD8, .scmp 9 1 7 1 21 44), (0x17B90D31, .scmpi 14 0 4 0 26 49 none), (0x17E40000, .kset 9 0),
   (0x17E2F800, .ksetReg 8 31), (0x18245067, .prep 9 80 103), (0x180E5A71, .prepHi 3 90 113),
   (0x18640000, .head 9), (0x18800000, .fend), (0x18DD94EA, .loop 473 1258 none), (0x18E085D1, .loopReg 8 1489),
   (0x19000426, .loopq 1062)]

def words_scalar3 : List (Nat × Instr) :=
  [(0x19796000, .wnext 14 0 44), (0x19B94000, .cadd 57 16), (0x19BE56C1, .caddR 62 21 44),
   (0x19F96359, .ctest 14 0 44 857 none), (0x19F7DC12, .ctestReg 13 1 59 18), (0x1A3E5400, .cread 62 21),
   (0x1A400DA0, .rfence 3 26), (0x1A800000, .vjoin), (0x1AC0000E, .drain 14), (0x1B000000, .bclose),
   (0x1B404B10, .adv 4 11 1), (0x1BB94270, .hset 57 16 39), (0x1BF94000, .hget 57 16 0), (0x1C342C00, .mtc 52 11),
   (0x1C742C00, .mfc 52 11), (0x1CB40010, .mts 52 16), (0x1CF4049D, .mfs 52 1181), (0x1D0003D9, .trap 985 none),
   (0x1D400000, .eret), (0x1D80E400, .ovld 57)]

def words_scalar4 : List (Nat × Instr) :=
  [(0x1C890022, .itlbinv 9), (0x1C8A0020, .iptroot 10), (0x1C8B0013, .ctxid 11),
   (0x1C8C01A5, .windowTable 12 0x1A5), (0x1C8D3070, .errstat 13 0x3070), (0x1C8E3018, .einj 14 0x3018),
   (0x1FC00005, .undefinedOpcode 0x1FC00005)]

def words_vector1 : List (Nat × Instr) :=
  [(0x2039427E, .vadd 57 16 39 14 none), (0x2079427E, .vsub 57 16 39 14 none),
   (0x20B9427E, .vmul 57 16 39 14 none), (0x20F9427E, .vfma 57 16 39 14 none),
   (0x2139427E, .vmin 57 16 39 14 none), (0x2179427E, .vmax 57 16 39 14 none), (0x21B94007, .vabs 57 16 7 none),
   (0x21F94007, .vneg 57 16 7 none), (0x2239427E, .vand 57 16 39 14 none), (0x22742E29, .vor 52 11 34 9 none),
   (0x22B9427E, .vxor 57 16 39 14 none), (0x22F9427E, .vshl 57 16 39 14 none),
   (0x2339427E, .vshr 57 16 39 14 none), (0x2379427E, .vsra 57 16 39 14 none),
   (0x23889FE5, .vcmp 1 0 39 62 5 none), (0x23F9427E, .vsel 57 16 39 14 none),
   (0x2439427E, .vcas 57 16 39 14 none), (0x24794007, .vexp 57 16 7 none), (0x24B94007, .vlog 57 16 7 none),
   (0x24F94007, .vrcp 57 16 7 none)]

def words_vector2 : List (Nat × Instr) :=
  [(0x25036801, .vrsqrt 3 26 1 none), (0x257E540C, .vtanh 62 21 12 none), (0x25B943E5, .vcvt 57 16 3 14 5 none),
   (0x25F941CE, .vwid 57 16 7 14 none), (0x263E540C, .vsumr 62 21 12 none), (0x267E540C, .vmaxr 62 21 12 none),
   (0x26B9427E, .vthr 57 16 39 14 none), (0x26FE540C, .vhist 62 21 12 none), (0x27087C06, .vrenorm 8 31 6 none),
   (0x27436801, .vbcast 3 26 1 none), (0x27BE56C3, .vperm 62 21 44 3 none), (0x27F94007, .vtrn 57 16 7 none),
   (0x2804735A, .vshape 1139 90), (0x287E015C, .viota 62 21 12 none), (0x28BE015C, .vrand 62 21 12 none),
   (0x28F94270, .mand 57 16 39 none), (0x29342E20, .mor 52 11 34 none), (0x29794000, .mnot 57 16 none),
   (0x29B94000, .mpop 57 16 none)]

def words_matrix : List (Nat × Instr) :=
  [(0x30136279, .wld 4 3 98 121), (0x30415067, .wset 1 80 103), (0x30815000, .wclr 1 80),
   (0x30F42C20, .mma 52 11 2), (0x31394030, .mmaz 57 16 3), (0x3140E503, .mmag 57 16 3), (0x3180E400, .mpat 57),
   (0x31F94000, .mtag 57 16), (0x3239427E, .mdrn 57 16 39 14), (0x327E5413, .mgdrn 62 21 1 3),
   (0x32800001, .mzero 1), (0x32FE0000, .mmiss 62)]

def words_load : List (Nat × Instr) :=
  [(0x402F19DB, .ld 47 6 29 1 3), (0x4074B210, .ldh 52 11 2 1), (0x40B42E20, .ldt 52 11 34 0),
   (0x40F90700, .ldth 57 0 7), (0x41342DAE, .lds 52 11 430 none), (0x4140E4EA, .sqld 57 234 none),
   (0x41B42C08, .ldm 52 11 1)]

def words_store : List (Nat × Instr) :=
  [(0x502F19DB, .st 47 6 29 1 3), (0x5074B210, .sth 52 11 2 1), (0x50B42E20, .stt 52 11 34 0),
   (0x50F90700, .stth 57 0 7), (0x51342DAE, .sts 52 11 430 none), (0x51742C08, .stm 52 11 1)]

def words_engine : List (Nat × Instr) :=
  [(0x6034B200, .dcp 52 11 2 0), (0x60794270, .dput 57 16 39), (0x60B94279, .dred 57 16 39 2 1 none),
   (0x60F9427E, .dgln 57 16 39 14), (0x613E56C3, .dhget 62 21 44 3), (0x617E56C3, .dhput 62 21 44 3),
   (0x61B42C09, .amo 52 11 2 1), (0x61F94279, .amor 57 16 39 2 1), (0x62000009, .dcan 9),
   (0x643C0A6E, .chact 30 1335), (0x641B9000, .chactReg 13 36), (0x647209CE, .chrd 25 0 39 14),
   (0x646FD5C3, .chrdHandle 23 14 5 12 3), (0x64B209C0, .chwr 25 0 39), (0x64AFD5C0, .chwrHandle 23 14 5 12),
   (0x64FC0000, .chpre 30), (0x65000000, .chpra), (0x65400000, .chref), (0x65860000, .chrefb 3)]

def words_hint : List (Nat × Instr) :=
  [(0x70000000, .nop), (0x7040038C, .hpf 908), (0x7AC12345, .hintSpace 0x2B 0x12345)]

/-- A list of words whose decoding, and whose encoding, is the instruction beside each. -/
def wordsOk (l : List (Nat × Instr)) : Bool :=
  l.all fun p => decodeTableWord 32 p.1 == some p.2 && encodeSyllable p.2 == p.1

theorem test_words_scalar : wordsOk (words_scalar1 ++ words_scalar2 ++ words_scalar3 ++ words_scalar4) = true := by decide
theorem test_words_vector : wordsOk (words_vector1 ++ words_vector2) = true := by decide
theorem test_words_matrix : wordsOk words_matrix = true := by decide
theorem test_words_load_store : wordsOk (words_load ++ words_store) = true := by decide
theorem test_words_engine : wordsOk (words_engine ++ words_hint) = true := by decide

/-- Chapter 6's packet: the words of its table, with the lend fields that its header 0x80019200 gives them. -/
theorem test_chapter6_words : decodeSyllable 0x141453E8 (some 0) = .instr (.saddi 20 20 1000 (some 0)) ∧
    fetchAt [0x80019200#32, 0x141453E8#32, 0x20842310#32, 0x70000000#32] 0 = .bundle 4 false
      [⟨1, 0x141453E8, some 0⟩, ⟨2, 0x20842310, some 0xC9⟩, ⟨3, 0x70000000, some 0⟩] ∧
    decodeSyllable 0x20842310 (some 0xC9) = .instr (.vmul 4 8 49 0 (some 0xC9)) ∧
    decodeTableWord 32 0x70000000 = some .nop ∧ decodeTableWord 32 0x978EA2A8 = some (.scmpi 3 1 2 1 5 40 none) := by
  decide

/-- R10's bundle: the header lends the saddi the upper bits of 200000. -/
theorem test_header_lends : decodeWords [0x830C0000#32, 0x14010140#32] = some (.saddi 1 0 0x140 (some 0x0C3)) ∧
    imm19 0x140 (some 0x0C3) = 200000 := by decide

/-- R118: a lend to a syllable that takes none, and a reserved bit that is set, are no instruction. -/
theorem test_reserved_bits : decodeSyllable 0x10000001 none = .reserved false ∧
    decodeSyllable 0x10000000 (some 1) = .reserved false ∧ decodeSyllable 0x1D400001 none = .reserved true ∧
    decodeSyllable 0x28400400 none = .badCode := by decide

/-- R136, R162, R186: a mask instruction with another format code than 0 has detail 0x05, behind a lend mask (0x03) and a
register code of 16 or more (0x04). -/
theorem test_mask_format : decodeSyllable 0x28C10C21 none = .badFormat ∧
    decodeSyllable 0x28C10C21 (some 0x040) = .reserved false ∧ decodeSyllable 0x28D00C21 none = .badCode ∧
    decodeSyllable 0x29410C11 none = .reserved false ∧ decodeSyllable 0x29BF0C01 none = .badFormat := by decide

/-- R116, R127 to R129: a fill, a syllable without S, two syllables of one class and a lone header are entry and framing
faults. -/
theorem test_framing : fetchAt [] 0 = .entry 2 ∧ fetchAt [0x10000000#32] 0 = .entry 1 ∧
    fetchAt [0x98800000#32, 0x18800000#32] 0 = .framing 1 2 ∧ fetchAt [0x80000000#32] 0 = .framing 4 1 ∧
    fetchAt [0x98800000#32] 65536 = .entry 4 := by decide

/-! ## Well-formedness: one ill-formed term for each check, and the boundary that passes -/

/-- Terms that the checks refuse. -/
def illFormed : List Instr :=
  [.mts 0 0x22, .mts 0 0x20, .mts 0 0x13, .mts 0 0x1FF, .mts 0 0x3078, .windowTable 0 0x200, .errstat 0 0x3001, .einj 0 0x3000,
   .hintSpace 0x3F 0, .hintSpace 1 0, .undefinedOpcode 0, .undefinedOpcode 0x80000000, .merge, .powerUp,
   .ssel 0 0 0 12, .sext 0 0 0 3, .scmp 12 0 0 0 0 0, .scmp 0 0 6 0 0 0, .scmpi 0 0 6 0 0 0 none, .kset 12 0, .ksetReg 12 0,
   .prep 12 0 0, .prepHi 12 0 0, .head 12, .wnext 12 0 0, .ctest 12 0 0 0 none, .ctestReg 12 0 0 0, .hset 16 0 0,
   .hget 0 16 0, .mtc 0x0A 0, .mfc 0 0x26] ++
  [.vadd 40 0 0 0 none, .vsub 0 50 0 0 none, .vmul 0 0 50 0 none, .vfma 0 0 0 9 none, .vsel 48 0 0 0 none,
   .vcmp 7 0 0 0 0 none, .vcmp 0 0 50 0 0 none, .vabs 0 0 9 none, .vneg 48 0 0 none, .vcvt 0 0 0 0 12 none, .vwid 0 50 0 0 none,
   .vhist 0 50 0 none, .viota 48 0 0 none, .vrand 0 50 0 none, .mand 16 0 0 none, .mor 0 16 0 none, .mnot 0 16 none,
   .mpop 0 16 none, .mma 2 0 0, .mmaz 0 16 0, .mtag 16 0, .mdrn 0 2 0 0, .mdrn 0 0 0 12, .mgdrn 0 32 0 0, .ld 48 0 0 0 0,
   .ldh 49 0 0 0, .st 49 0 0 0 0, .sth 50 0 0 0, .ldt 16 0 0 0, .ldth 16 0 0, .stt 16 0 0 0, .stth 16 0 0, .ldm 16 0 0,
   .stm 16 0 0, .dred 0 0 0 3 0 none, .dgln 0 0 0 5, .dcan 0]

theorem test_ill_formed_refused : (illFormed.all fun i => !i.wellFormed) = true := by decide

theorem test_well_formed_boundary : ([Instr.mts 0 0x12, .windowTable 0 0x100, .errstat 0 0x3070, .einj 0 0x3078, .hintSpace 2 0,
    .undefinedOpcode 0x1DC00000, .ssel 0 0 0 11, .scmp 11 1 5 1 63 63, .mtc 0x25 0, .vadd 39 49 48 8 none, .mdrn 39 1 63 11,
    .dgln 0 0 0 4, .dcan 15].all fun i => i.wellFormed) = true := by decide


/-! ## Small states -/

/-- A running launch of one core whose furrow 0 has the descriptor `d`, from cycle 0 on. -/
def aLaunch (d : Word) : Launch :=
  { id := ⟨1, 0⟩, cls := 1, phase := .running, fresh := false, landing := 1
    furrows := [{ num := 0, desc := d, done := false }] }

/-- Its partition: one plot. -/
def aPart : Partition := { number := 1, px := 0, py := 0, pw := 1, ph := 1, class0 := false }

/-- Registers with the scalars `l`. -/
def rg (l : List (BitVec 6 × Word)) : Regs := l.foldl (fun r p => r.writeG p.1 p.2) {}

/-- The launch's core, with registers `r`. -/
def aCore (r : Regs) : Core := { lid := ⟨1, 0⟩, index := 0, px := 0, py := 0, regs := r }

/-- The module at cycle 1000 with that core acting. -/
def st (d : Word) (c : Core) : State :=
  { State.reset with now := 1000, cores := [c], launches := [aLaunch d], parts := [aPart] }

/-- A fixed furrow of 1032 cycles with a headland, whose head stands at cycle 1000. -/
def fixedD : Word := 0x8000004000000407

/-- An elastic furrow with a headland. -/
def elasticD : Word := 0x8000006000000FFF

theorem st_actor (d : Word) (c : Core) : (st d c).actor = some c := rfl

/-- A core in system mode, with registers `r`. -/
def sysCore (r : Regs) : Core := { aCore r with phys := { sysMode := true } }

/-- Whether a syllable's issue is clear. -/
def isClear (s : State) (c : Core) (i : Instr) : Bool :=
  s.actor == some c && illegal c i == none && timingCode (s.ctx c) c i == none

theorem clear_of_isClear {s : State} {c : Core} {i : Instr} (h : isClear s c i = true) : Clear s c i := by
  simp only [isClear, Bool.and_eq_true, beq_iff_eq] at h
  exact ⟨h.1.1, h.1.2, .inl h.2⟩

theorem clear_of_all {s : State} {c : Core} {l : List Instr} (h : l.all (isClear s c) = true) :
    ∀ i ∈ l, Clear s c i := fun i hi => clear_of_isClear (List.all_eq_true.1 h i hi)

/-! ## Single steps, results from the entries of spec/ -/

/-- The acting core after instruction `i`. -/
def after (s : State) (i : Instr) : Option Core :=
  match exec i s with
  | .next t => t.actor
  | _ => none

/-- What instruction `i` owes: each change with its cycle. -/
def owed (s : State) (i : Instr) : Option (List (Nat × Deferred)) :=
  (after s i).map fun c => c.pends.map fun p => (p.due, p.what)

/-- A core whose g1 to g4 hold −1, 1, −2^63 and 64. -/
def numbers : State := st fixedD (aCore (rg [(1, 0xFFFFFFFFFFFFFFFF), (2, 1), (3, 0x8000000000000000), (4, 64)]))

/-- R139, R140, R143, R149, R150: wraps, divisions, shifts of 64 as 0, the natural compare and an empty list. -/
theorem test_scalar_results : ([
    (.sadd 5 1 2, [(1001, .g 5 0)]),
    (.smulh 5 1 1 1, [(1004, .g 5 0xFFFFFFFFFFFFFFFE)]),
    (.smulh 5 1 1 0, [(1004, .g 5 0)]),
    (.sdiv 5 3 1 0, [(1018, .g 5 0x8000000000000000)]),
    (.srem 5 3 1 0, [(1018, .g 5 0)]),
    (.sdiv 5 3 0 0, [(1018, .g 5 0xFFFFFFFFFFFFFFFF)]),
    (.sshl 5 2 4, [(1001, .g 5 1)]),
    (.ssra 5 3 2, [(1001, .g 5 0xC000000000000000)]),
    (.sclz 5 2, [(1001, .g 5 63)]),
    (.spop 5 1, [(1001, .g 5 64)]),
    (.saddi 5 0 0x3E8 none, [(1001, .g 5 0xFFFFFFFFFFFFFFE8)]),
    (.scmp 3 1 2 1 2 1, [(1001, .cond 3 2 2)]),
    (.scmp 3 1 2 0 2 1, [(1001, .cond 3 2 0)]),
    (.wnext 0 0 7, [(1001, .g 7 0), (1001, .cond 0 1 1)])] : List (Instr × List (Nat × Deferred))).all (fun p => owed numbers p.1 == some p.2) = true := by decide

/-- R35, R52: g0 discards, a steer register keeps its target and its two condition bits. -/
theorem test_register_writes : (rg [(0, 5)]).readG 0 = 0 ∧
    (({} : Regs).writeK 3 0xFFFFFFFFFFFFFFFF).readK 3 = 0xFFFFFFFF00000003 ∧
    (({} : Regs).addN 9 0xFFFFFFFFFFFFFFFF |>.addN 9 1).readN 9 = 0xFFFFFFFFFFFFFFFF := by decide

/-- Cause and detail of the trap that instruction `i` raises in launch code. -/
def trapOf (i : Instr) : Option (Nat × Nat) :=
  (after (st fixedD (aCore {})) i).bind fun c => c.trap.map fun t => (t.cause, t.detail)

/-- R137: a steer register 12 raises detail 0x04, a privileged syllable in launch code detail 0x02. -/
theorem test_illegal_details :
    trapOf (.head 12) = some (1, 4) ∧ trapOf (.mts 0 0x10) = some (1, 2) ∧ trapOf .eret = some (1, 2) ∧
    trapOf (.sshli 0 0 64 none) = some (1, 6) ∧ trapOf (.undefinedOpcode 0x1DC00000) = some (1, 1) ∧
    trapOf (.trap 7 none) = some (0x14, 0) := by decide

/-- R92: byte 0x1234 of line 1 stands in piece 0x23 xor 0x01 of the swizzled view. -/
theorem test_swizzle : linear true 0x1234 = 0x1224 ∧ linear true 0x3FFFFF = 0x3FF00F ∧ linear false 0x1234 = 0x1234 := by
  decide

/-! ## Witnesses: encoding and the sequencer -/

/-- EncodeThenDecode, DecodeThenEncode. -/
theorem witness_encoding : Instr.encodable (.vmul 4 8 49 0 (some 0xC9)) = true ∧
    Instr.vmul 4 8 49 0 (some 0xC9) ≠ .undefinedOpcode 0x7FFFFFFF#32 ∧ 0x20842310 < 2 ^ 31 ∧ 0x20842310 / 2 ^ 28 ≠ 0 ∧
    decodeSyllable 0x20842310 (some 0xC9) = .instr (.vmul 4 8 49 0 (some 0xC9)) := by decide

/-- UndefinedOpcodeTraps, HintsDoNothing, SoftwareTrap: any state whose core acts; PrivilegedSyllablesTrap: launch code. -/
theorem witness_hints_and_traps : (st fixedD (aCore {})).actor = some (aCore {}) ∧ (aCore {}).phys.sysMode = false :=
  ⟨rfl, rfl⟩

/-- The module with a core at the start of the words `ws`, changed by `f`, in an elastic furrow with nothing due. -/
def running (ws : List (BitVec 32)) (f : Core → Core) : State :=
  { st elasticD (f { aCore {} with code := ws }) with parts := [{ aPart with window := some 1000 }] }

/-- PlacedWordRuns: a saddi's word. -/
theorem witness_placed_word : 0x14010140 < 2 ^ 31 ∧ decodeSyllable 0x14010140 none = .instr (.saddi 1 0 0x140 none) ∧
    0x14010140 / 2 ^ 28 ≠ 0 ∧ 0x14010140 ≠ 0x7FFFFFFF := by decide

/-- Nothing is due before the early syllables of a bundle, as a Boolean. -/
def isClearOfWrites (s : State) : Bool :=
  firstPick (stopDue s) s.launches == none && s.nextHeld == none && s.nextInput s.seats == none &&
  firstPick (windowDue s) s.parts == none && firstPick (launchDue s) s.launches == none &&
  firstPick (timetableDue s s.seats) s.launches == none && startDue s == none &&
  firstPick (deadlineDue s) s.seats == none && firstPick (mergeDue s) s.seats == none &&
  firstPick (arrivalDue s) s.seats == none && firstPick (pendDue s) s.seats == none &&
  firstPick (writeDue s) s.seats == none && firstPick (transferDue s) s.seats == none

/-- Nothing is due before the other syllables of a bundle, as a Boolean. -/
def isClearOfReads (s : State) : Bool :=
  isClearOfWrites s && firstPick (earlyDue s) s.seats == none && firstPick (eventDue s 1) s.seats == none &&
  firstPick (eventDue s 2) s.seats == none

theorem clearOfWrites_of {s : State} (h : isClearOfWrites s = true) : s.clearOfWrites := by
  simp only [isClearOfWrites, Bool.and_eq_true, beq_iff_eq, and_assoc] at h
  exact h

theorem clearOfReads_of {s : State} (h : isClearOfReads s = true) : s.clearOfReads := by
  simp only [isClearOfReads, Bool.and_eq_true, beq_iff_eq, and_assoc] at h
  exact ⟨clearOfWrites_of h.1, h.2⟩

/-- The one seat of that module. -/
def runningT (ws : List (BitVec 32)) (f : Core → Core) : Seat :=
  let c := f { aCore {} with code := ws }
  { pos := 0, x := (running ws f).ctx c, c := c }

/-- StepRunsTheBundle, first clause: the bundle of a saddi. -/
theorem witness_step_issues :
    let s := running [0x94010140] id
    s.seats = [runningT [0x94010140] id] ∧ s.clearOfReads ∧ (runningT [0x94010140] id).c.earlyBundle = false ∧
    (runningT [0x94010140] id).issues s 1 0 (.saddi 1 0 0x140 none) [] := by
  refine ⟨by decide, clearOfReads_of (by decide), by decide, by decide, by decide, .inl (by decide), by decide, by decide,
    by decide, [⟨0, 0x94010140, none⟩], by decide, by decide⟩

/-- StepRunsTheBundle, second clause: the bundle of a vjoin, which acts early. -/
theorem witness_step_issues_early :
    let s := running [0x9A800000] id
    s.seats = [runningT [0x9A800000] id] ∧ s.clearOfWrites ∧ (runningT [0x9A800000] id).c.earlyBundle = true ∧
    (runningT [0x9A800000] id).issues s 1 0 .vjoin [] := by
  refine ⟨by decide, clearOfWrites_of (by decide), by decide, by decide, by decide, .inl (by decide), by decide, by decide,
    by decide, [⟨0, 0x9A800000, none⟩], by decide, by decide⟩

/-- A core with syllable `i` still to act. -/
def queued (i : Instr) (c : Core) : Core := { c with seq := { c.seq with queue := [(0, i)], len := 1 } }

/-- StepRunsTheBundle, third and fourth clauses. -/
theorem witness_step_queue :
    (running [] (queued (.saddi 1 0 5 none))).seats = [runningT [] (queued (.saddi 1 0 5 none))] ∧
    (running [] (queued (.saddi 1 0 5 none))).clearOfReads ∧
    (running [] (queued .vjoin)).seats = [runningT [] (queued .vjoin)] ∧ isEarly .vjoin = true ∧
    (running [] (queued .vjoin)).clearOfWrites := by
  refine ⟨by decide, clearOfReads_of (by decide), by decide, by decide, clearOfWrites_of (by decide)⟩

/-- The word of the one-syllable bundle of `i`. -/
def bundleOf (i : Instr) : List (BitVec 32) := [BitVec.ofNat 32 (encodeSyllable i + 2 ^ 31)]

/-- The module of `running` with its launch interlocked, and its one seat. -/
def runningI (i : Instr) (f : Core → Core) : State :=
  { running (bundleOf i) f with launches := [{ aLaunch elasticD with interlocked := true }] }

/-- The one seat of that module. -/
def seatI (i : Instr) (f : Core → Core) : Seat :=
  let c := f { aCore {} with code := bundleOf i }
  { pos := 0, x := (runningI i f).ctx c, c := c }

/-- A core whose fcycle of 15 cycles ago lies far behind. -/
def lagging (c : Core) : Core := { c with seq := { c.seq with hist := List.replicate 15 5 } }

theorem not_fieldTerm_lagging {s : State} {t : Seat} (hc : t.c ∈ s.cores) (hy : t.c.seq.hist[14]? = some 5)
    (h : 20 < t.c.fcycle t.x) : ¬t.fieldTerm s := fun a => absurd (a t.c hc rfl 5 hy) (by omega)

/-- InterlockedIssue, its premises: a core on its turn before an adv, a saddi and an lds. -/
theorem witness_interlocked_turn :
    ([Instr.adv 1 0 0, .saddi 1 0 5 none, .lds 1 0 0 none].all fun i =>
      (runningI i id).seats == [seatI i id] && isClearOfReads (runningI i id) && !(seatI i id).c.earlyBundle &&
      (seatI i id).c.ready 1000 && !(seatI i id).c.seq.waiting && (seatI i id).x.la.interlocked &&
      !(seatI i id).c.phys.sysMode && !(seatI i id).c.decodesBadly) = true := by decide

/-- InterlockedIssue: a check that fails; checks that pass, the field-hold term true and false. -/
theorem witness_interlocked :
    ¬(seatI (.adv 1 0 0) id).checksPass (runningI (.adv 1 0 0) id) ∧
    (seatI (.saddi 1 0 5 none) id).checksPass (runningI (.saddi 1 0 5 none) id) ∧
    (seatI (.saddi 1 0 5 none) id).fieldTerm (runningI (.saddi 1 0 5 none) id) ∧
    (seatI (.saddi 1 0 5 none) lagging).checksPass (runningI (.saddi 1 0 5 none) lagging) ∧
    ¬(seatI (.saddi 1 0 5 none) lagging).fieldTerm (runningI (.saddi 1 0 5 none) lagging) ∧
    timingHolds (seatI (.adv 1 0 0) id).x (seatI (.adv 1 0 0) id).c [(0, .adv 1 0 0)] = true := by
  refine ⟨fun h => absurd h.1 (by decide), ⟨by decide, ?_⟩, ?_, ⟨by decide, ?_⟩,
    not_fieldTerm_lagging (by decide) (by decide) (by decide), by decide⟩
  · intro r hr; exact absurd hr (by rw [show State.bundleReads _ _ _ _ = [] from by decide]; simp)
  · intro d hd _ y hy
    simp only [runningI, running, st, List.mem_singleton] at hd
    subst hd; cases hy
  · intro r hr; exact absurd hr (by rw [show State.bundleReads _ _ _ _ = [] from by decide]; simp)

/-- A core with a mark of the other view on line 0, four cycles old. -/
def marked (c : Core) : Core := { c with sp := { c.sp with ws := [(0, 996)] } }

/-- InterlockedIssue: an lds of a marked line whose last write is four cycles old issues, its mark cleared; and of one whose
last write is three cycles old does not. -/
theorem witness_interlocked_read :
    let ld : Instr := .lds 1 0 0 none
    (seatI ld marked).checksPass (runningI ld marked) ∧
    ((seatI ld marked).cleared (runningI ld marked)).c.sp.ws = [] ∧
    ((seatI ld marked).cleared (runningI ld marked)).decodes (runningI ld marked) 1 0 ld [] := by
  refine ⟨⟨by decide, ?_⟩, by decide, by decide, by decide, by decide, [⟨0, BitVec.ofNat 32 (encodeSyllable (.lds 1 0 0 none) + 2 ^ 31), none⟩], by decide, by decide⟩
  intro r hr
  rw [show State.bundleReads _ _ _ _ = [(false, [0])] from by decide] at hr
  simp only [List.mem_singleton] at hr
  subst hr; unfold Seat.meetsWrite; decide

/-- R64, R98: what a step of an interlocked core does: held, frozen, released, and issued. -/
theorem test_interlocked :
    let after_ (i : Instr) (f : Core → Core) : Option (Bool × Bool × Nat) := match step (runningI i f) with
      | .next s => s.cores[0]?.map fun c => (c.seq.held, c.seq.frozen, c.pends.length)
      | _ => none
    after_ (.adv 1 0 0) id = some (true, false, 0) ∧ after_ (.saddi 1 0 5 none) lagging = some (false, true, 0) ∧
    after_ (.saddi 1 0 5 none) id = some (false, false, 1) := by decide

/-! ## Witnesses: class S and the system syllables -/

/-- ScalarArithmetic, ScalarSelects, ScalarCompares, SteerNumbersOfCounters, PrepWritesSuccessors, SteerNumbersOfHeadlands:
a core acts; their field bounds at the boundary. ScalarDivision: g0 is 0 and g1 is not. ScalarImmediates: 63 and 64. -/
theorem witness_scalar : numbers.actor.isSome = true ∧ (11#4).toNat < 12 ∧ 12 ≤ (12#4).toNat ∧ (5#3).toNat < 6 ∧
    6 ≤ (6#3).toNat ∧ (rg [(1, 5)]).readG 0 = 0 ∧ (rg [(1, 5)]).readG 1 ≠ 0 ∧
    ((63#10).signExtend 64).toNat < 64 ∧ 64 ≤ ((64#10).signExtend 64).toNat := by decide

/-- SowingListStep: an entry at the cursor of a core whose codes check, and the list's end. -/
theorem witness_sowing :
    let c (n : Nat) : Core := { aCore {} with q := { sow := [7], cursor := n } }
    (st fixedD (c 0)).actor = some (c 0) ∧ (c 0).q.cursor < (c 0).q.sow.length ∧ (c 0).phys.flips = [] ∧
    (st fixedD (c 1)).actor = some (c 1) ∧ (c 1).q.sow.length ≤ (c 1).q.cursor := by decide

/-- HeadSamples: a head at origin+L−32 of a fixed furrow, and in the cycle after one has issued; in an elastic furrow one
with a fend in the next bundle, and one without. -/
theorem witness_head :
    let e (ws : List (BitVec 32)) : Core := { aCore {} with code := ws, seq := { len := 1 } }
    let next (c : Core) : Nat := (loopTest c.seq.bundle c.seq.loops).2.getD (nextStart c.code (c.seq.bundle + c.seq.len))
    let fend := BitVec.ofNat 32 (encodeSyllable .fend + 2 ^ 31)
    (st elasticD (e [0xF0000000, fend])).actor = some (e [0xF0000000, fend]) ∧
    ((st elasticD (e [])).ctx (e [])).la.desc.getLsbD 37 = true ∧ ((st elasticD (e [])).ctx (e [])).la.desc.getLsbD 38 = true ∧
    (0, Instr.fend) ∈ instrsAt (e [0xF0000000, fend]).code (next (e [0xF0000000, fend])) ∧
    instrsAt (e [0xF0000000, 0xF0000000]).code (next (e [0xF0000000, 0xF0000000])) = [(0, Instr.nop)] ∧
    ((st fixedD (aCore {})).ctx (aCore {})).la.desc.getLsbD 37 = false ∧
    (st fixedD (aCore {})).actor = some (aCore {}) ∧ (3#4).toNat < 12 ∧ (aCore {}).seq.head = none ∧
    ((st fixedD (aCore {})).ctx (aCore {})).la.desc.getLsbD 38 = true ∧
    (aCore {}).fcycle ((st fixedD (aCore {})).ctx (aCore {})) + 32 = fixedD.toNat % 2 ^ 24 + 1 ∧
    32 ≤ fixedD.toNat % 2 ^ 24 + 1 ∧ (aCore {}).phys.sysMode = false ∧
    ¬({ aCore {} with seq := { head := some ⟨1, 1, 0, 0, 0⟩ } } : Core).seq.head = none := by decide

/-- FendEndsThePart: in the cycle after an elastic furrow's head, and without one. -/
theorem witness_fend :
    let c : Core := { aCore {} with seq := { head := some ⟨999, 999, 0, 0, 0⟩ } }
    (st elasticD c).actor = some c ∧ (999 : Nat) + 1 = (st elasticD c).now ∧ 1 ≤ (st elasticD c).now ∧
    ((st elasticD (aCore {})).ctx (aCore {})).la.desc.getLsbD 38 = true ∧
    ((st elasticD (aCore {})).ctx (aCore {})).la.desc.getLsbD 37 = true ∧ (aCore {}).seq.head = none := by decide

/-- A core at bundle 0 of two bundles, with the count queue `q`. -/
def loopC (q : List (BitVec 16)) : Core :=
  { aCore {} with code := [0x98C01001, 0xF0000000], seq := { len := 1 }, q := { cq := q } }

/-- LoopsPushALevel: every form, with an entry and with none in the count queue, in launch code and in system code. -/
theorem witness_loops :
    ([[], [5]].all fun q => [Instr.loop 0 1 none, .loop 0 1 (some 1), .loopReg 0 1, .loopq 1].all
      (isClear (st elasticD (loopC q)) (loopC q))) = true ∧
    (loopC [5]).q.cq = [5] ∧ (loopC []).q.cq = [] ∧ (loopC [5]).phys.flips = [] ∧ (loopC []).phys.sysMode = false ∧
    (let c : Core := { loopC [] with phys := { sysMode := true } }
     isClear (st elasticD c) c (.loopq 1) = true ∧ c.q.cq = [] ∧ c.phys.sysMode = true) := by decide

/-- LoopsThatTrap: six levels; an offset below the bundle's length, an end past 65,535, in a fill and inside a bundle, a
bundle that ends a level; an end that is right, in a fixed furrow and an elastic one; the last trip that fits, and the next. -/
theorem witness_loop_traps :
    let v : LoopLevel := ⟨0, 1, 2, 0⟩
    let c (l : List LoopLevel) (b : Nat) : Core :=
      { aCore (rg [(1, 0xFFFFFFFF), (2, 0x100000000)]) with
        code := [0x98C01001, 0xF0000000, 0x70000000], seq := { bundle := b, len := 1, loops := l } }
    let word (b o : Nat) : BitVec 32 := (c [] b).code.getD (b + o) 0xFFFFFFFF#32
    (st fixedD (c [] 0)).actor = some (c [] 0) ∧ 6 ≤ (c (List.replicate 6 v) 0).seq.loops.length ∧
    (c (List.replicate 5 v) 0).seq.loops.length < 6 ∧ (0#12).toNat < (c [] 0).seq.len ∧ 65535 < 61441 + (4095#12).toNat ∧
    word 0 3 = 0xFFFFFFFF ∧ (word 0 2).getLsbD 31 = false ∧ (∃ w ∈ (c [v] 1).seq.loops, w.stop = (c [v] 1).seq.bundle) ∧
    ¬((1#12).toNat < (c [] 0).seq.len ∨ 65535 < 0 + (1#12).toNat ∨ word 0 1 = 0xFFFFFFFF ∨ (word 0 1).getLsbD 31 = false) ∧
    (c [] 0).phys.sysMode = false ∧ ((st fixedD (c [] 0)).ctx (c [] 0)).la.desc.getLsbD 37 = false ∧
    2 ^ 32 ≤ ((c [] 0).regs.readG 2).toNat ∧ ((c [] 0).regs.readG 1).toNat < 2 ^ 32 := by decide

/-- A core whose bundle at `b` has issued, with the loop levels `l`. -/
def endingC (b : Nat) (l : List LoopLevel) (c : Core) : Core :=
  { c with seq := { c.seq with bundle := b, len := 1, loops := l, issuedAt := some 1000 } }

/-- LoopEndTest: no level; a level that ends elsewhere, one that repeats and one on its last iteration; and a seat whose
bundle has no syllable left. -/
theorem witness_loop_end :
    let v (stop trip index : Nat) : LoopLevel := ⟨0, stop, trip, index⟩
    (endingC 1 [] (loopC [])).seq.loops = [] ∧ (v 2 3 0).stop ≠ (endingC 1 [v 2 3 0] (loopC [])).seq.bundle ∧
    (v 1 2 0).stop = 1 ∧ (v 1 2 0).index + 1 < (v 1 2 0).trip ∧ (v 1 2 1).trip ≤ (v 1 2 1).index + 1 ∧
    (endingC 1 [v 1 2 0] (loopC [])).retire.seq.pc = 0 ∧ (endingC 1 [v 1 2 1] (loopC [])).retire.seq.loops = [] := by
  decide

/-- LoopEndTest, its step. -/
theorem witness_retirement :
    let s := running [0x94010140] (endingC 0 [])
    s.seats = [runningT [0x94010140] (endingC 0 [])] ∧ s.clearOfReads ∧
    (runningT [0x94010140] (endingC 0 [])).c.seq.queue = [] ∧ (runningT [0x94010140] (endingC 0 [])).c.seq.len ≠ 0 := by
  refine ⟨by decide, clearOfReads_of (by decide), by decide, by decide⟩

/-- FencesAndBatches: clear fences, and a drain whose count is not met. -/
theorem witness_fences :
    ([Instr.rfence 0 1, .bclose, .drain 15, .drain 0].all (isClear (st elasticD (aCore {})) (aCore {}))) = true ∧
    (let c : Core := { aCore {} with net := { closed := [[7]] } }
     isClear (st elasticD c) c (.drain 0) = true ∧ (0#4).toNat < c.net.closed.length) := by decide

/-- A core with 15 closed batches and an open one, a dhget in flight into bytes 0 to 63 and a dhput from bytes 64 to 127. -/
def fencedC : Core :=
  let f : Flight := { uid := 7, instr := .dhget 0 0 0 1, issue := 990, seqno := 990, cls := 6, bundle := 0, pos := 0, len := 64
                      open_ := true }
  { aCore (rg [(1, 63), (2, 64), (3, 1), (4, 1)]) with
    net := { openBatch := [8], closed := List.replicate 15 [9] }
    flights := [f, { f with uid := 8, instr := .dhput 0 0 0 1, addr := 64
                            streams := [{ eff := .sendRead, first := 1001, n := 1 }] }] }

/-- The launch of that core, interlocked. -/
def held (d : Word) (c : Core) : State := { st d c with launches := [{ aLaunch d with interlocked := true }] }

/-- FencesFallShort: a full set of batches in an elastic and in a fixed furrow, a count that is not met, a range whose last
byte a dhget writes and one whose first byte a dhput reads, in an exact and in an interlocked launch. -/
theorem witness_fences_short :
    let c := fencedC
    (st elasticD c).actor = some c ∧ (held fixedD c).actor = some c ∧ c.phys.sysMode = false ∧
    ((st elasticD c).ctx c).la.desc.getLsbD 37 = true ∧ ((st fixedD c).ctx c).la.desc.getLsbD 37 = false ∧
    ((st fixedD c).ctx c).la.interlocked = false ∧ ((held fixedD c).ctx c).la.interlocked = true ∧
    c.net.openBatch ≠ [] ∧ 15 ≤ c.net.closed.length ∧ (15#4).toNat < c.net.closed.length + 1 ∧
    (∃ f ∈ c.flights, f.addr < 63 + 1 ∧ 63 < f.addr + f.len ∧ f.instr = .dhget 0 0 0 1 ∧ f.open_ = true) ∧
    (∃ f ∈ c.flights, f.addr < 64 + 1 ∧ 64 < f.addr + f.len ∧ f.instr = .dhput 0 0 0 1 ∧
      ∃ t ∈ f.streams, t.k < t.n ∧ 1000 < t.first + (t.n - 1) * t.mul / t.div) ∧
    (c.regs.readG 1).toNat % 2 ^ 22 = 63 ∧ (c.regs.readG 2).toNat % 2 ^ 22 = 64 ∧ (c.regs.readG 3).toNat = 1 := by
  refine ⟨by decide, by decide, by decide, by decide, by decide, by decide, by decide, by decide, by decide, by decide,
    ⟨fencedC.flights[0], by decide⟩, ⟨fencedC.flights[1], by decide⟩, by decide, by decide, by decide⟩

/-- FencesFallShort, through the instructions: an rfence over either range traps in an exact launch. -/
theorem test_fence_traps : ([Instr.rfence 1 3, .rfence 2 3, .bclose, .drain 0].all fun i =>
    ((after (st elasticD fencedC) i).bind (·.trap)).map (fun t => (t.cause, t.detail)) == some (4, 0x0A)) = true := by decide

/-- R5, R112: a range whose last block a dhput reads in the rfence's own cycle is its own again. -/
theorem test_fence_same_cycle : let c := { fencedC with flights := fencedC.flights.map fun f =>
      { f with open_ := false, streams := f.streams.map fun t => { t with first := 1000 } } }
    isClear (st fixedD c) c (.rfence 2 3) = true := by decide

/-- Registers whose handle 1 has 4 slots of 64 bytes, `n` of them filled from slot 0 on. -/
def handleR (n : Nat) : Regs :=
  ({} : Regs).writeH 1 (BitVec.ofNat 64 (3 * 2 ^ 42)) (BitVec.ofNat 64 (n % 4 + n * 2 ^ 32))

/-- HandleInstructions, HandlePointersMove: both pointers at the most that their checks admit; a legal hset; R126's
handle 15 and the code 16 that is none. -/
theorem witness_handles :
    handleLegal ((handleR 3).hw0 1) ((handleR 3).hw1 1) = true ∧ (2#4).toNat + 1 ≤ ((handleR 3).handle 1).filled ∧
    (aCore (handleR 3)).producers 1 = [] ∧ (0#4).toNat + 1 ≤ ((handleR 3).handle 1).count - ((handleR 3).handle 1).filled ∧
    3 ≤ ((handleR 3).handle 1).filled ∧ 1 ≤ ((handleR 3).handle 1).count - ((handleR 3).handle 1).filled ∧
    (15#6).toNat < 16 ∧ handleLegal ((rg []).readG 0) ((rg []).readG 0) = true ∧
    (aCore {}).producers ((15#6).setWidth 4) = [] := by decide

/-- A core whose handle 1 has `n` slots filled and a store that fills another in flight. -/
def fillingC (n : Nat) : Core :=
  let f : Flight := { uid := 7, instr := .sth 0 1 0 0, issue := 990, seqno := 990, cls := 5, bundle := 0, pos := 0
                      handle := some 1, prod := true, streams := [{ eff := .spWrite, first := 1000, n := 1 }] }
  { aCore ((handleR n).writeG 4 1) with flights := [f] }

/-- HandlesFallShort: one slot more than are filled, one more than are free, a producer in flight, words that are no handle,
and handle number 16; in an exact and in an interlocked launch. -/
theorem witness_handles_short :
    let c := aCore (handleR 3)
    let p := fillingC 3
    (st fixedD c).actor = some c ∧ (held fixedD c).actor = some c ∧ c.phys.sysMode = false ∧
    ((held fixedD c).ctx c).la.interlocked = true ∧ (c.regs.handle 1).filled < (3#4).toNat + 1 ∧ c.producers 1 = [] ∧
    (c.regs.handle 1).count - (c.regs.handle 1).filled < (1#4).toNat + 1 ∧
    (st fixedD p).actor = some p ∧ p.producers 1 ≠ [] ∧ p.producers ((1#6).setWidth 4) ≠ [] ∧
    handleLegal (p.regs.readG 0) (p.regs.readG 0) = true ∧ handleLegal (p.regs.readG 4) (p.regs.readG 0) = false ∧
    16 ≤ (16#6).toNat := by decide

/-- ControlRegisterMoves: a clear mtc; a register that does not exist; one that is not writable; one that is read; cqstat with
an empty count queue, and with an entry on a core without a wrong unit. -/
theorem witness_control :
    isClear (st fixedD (aCore {})) (aCore {}) (.mtc 1 0) = true ∧
    ¬((0x0A#6).toNat < 0x0A ∨ (0x10 ≤ (0x0A#6).toNat ∧ (0x0A#6).toNat ≤ 0x25)) ∧
    ((0x20#6).toNat < 0x0A ∨ (0x10 ≤ (0x20#6).toNat ∧ (0x20#6).toNat ≤ 0x25)) ∧
    ¬((0x20#6).toNat ∈ [0, 1, 8, 9] ∨ (0x10 ≤ (0x20#6).toNat ∧ (0x20#6).toNat ≤ 0x1F)) ∧ (7#6).toNat = 7 ∧
    (aCore {}).q.cq = [] ∧ (loopC [5]).q.cq ≠ [] ∧ (loopC [5]).phys.flips = [] := by decide

/-- ControlRegisterMoves: of every register that an mtc writes a value that is legal to its last bit, and one past it in each of
its fields, which traps with detail 0x0B. -/
theorem witness_control_values :
    let traps (p : BitVec 6 × Word) : Bool :=
      ((after (st fixedD (aCore (rg [(1, p.2)]))) (.mtc p.1 1)).bind (·.trap)).map (fun t => (t.cause, t.detail)) == some (1, 0x0B)
    let clear (p : BitVec 6 × Word) : Bool := isClear (st fixedD (aCore (rg [(1, p.2)]))) (aCore (rg [(1, p.2)])) (.mtc p.1 1)
    ([(0, 0xFF3FFF), (1, 0xFFFF0004), (8, 0xFFFF007FFFFF), (9, 0xFFFFFFFF), (0x10, 0x3FE7FFF00), (0x1F, 0x00FF3F04)].all clear) = true ∧
    ([(0, 0x4000), (0, 0x1000000), (1, 5), (1, 8), (1, 0x100000000), (8, 0x800000), (8, 0x1000000000000), (9, 0x100000000), (0x10, 5),
      (0x10, 0x10), (0x10, 0x400000000)].all traps) = true ∧
    ([(0x1F, 0x00FF4004), (0x1F, 0x7F000000), (0x1F, 0xFF000000)].all traps) = true ∧ (st fixedD (aCore {})).actor = some (aCore {}) ∧
    ((st fixedD (aCore {})).ctx (aCore {})).la.interlocked = false := by decide

/-- SystemRegisterMoves: words of a window's entry with an illegal kind, operation or reserved bit, and of an injection with mode 3
or a bit above the ninth, each of which raises detail 0x06 and owes nothing. -/
theorem witness_system_values :
    let refused (i : Instr) (v : Word) : Bool :=
      ((after (st fixedD (sysCore (rg [(1, v)]))) i).map fun c => (c.pends == [], c.phys.halted.map fun t => (t.cause, t.detail))) ==
        some (true, some (1, 6))
    ([6, 8, 0x1000000].all (refused (.windowTable 1 0x100)) && refused (.windowTable 1 0x102) 0x1000000000000 &&
      [0xC, 0x1000, 0x10000000000000].all (refused (.windowTable 1 0x1FF)) && [3, 0x200].all (refused (.einj 1 0x3008))) = true ∧
    ([(.windowTable 1 0x1FF, 0x000FFFFF00000FFB), (.windowTable 1 0x101, 0xFFFFFFFFFFFFFFFF), (.einj 1 0x3008, 0x1FE)].all
      fun (p : Instr × Word) => owed (st fixedD (sysCore (rg [(1, p.2)]))) p.1 ==
        some [(1001, .sys (match p.1 with | .windowTable _ r | .einj _ r => r | _ => 0) p.2)]) = true := by decide

/-- SystemRegisterMoves: system code, a writable register, a read-only one and one that does not exist, and words that
the window table, the injection register and the overflow table take and refuse. -/
theorem witness_system_registers :
    (st fixedD (sysCore {})).actor = some (sysCore {}) ∧ (sysCore {}).phys.sysMode = true ∧
    sysKnown (0x10#16).toNat = true ∧ sysReadOnly (0x10#16).toNat = false ∧ sysReadOnly (0x12#16).toNat = true ∧
    sysKnown (0x1400#16).toNat = false ∧ (0x10#16 : BitVec 16) ≠ 0x22#16 ∧
    windowWordLegal ((0x100#16).toNat % 4) 0 = true ∧ (0x102#64 : Word).toNat % 4 ≠ 3 ∧ (0x102#64 : Word).toNat < 512 ∧
    ovtabLegal 0 = true ∧ ovtabLegal 0xFFFFFFFFFFFFFFFF = false := by decide

/-- ControlRegistersReadBack: a written register of each kind, one that no mtc writes, an open level and one that is not.
SystemRegistersReadBack: the ends of each range of registers, and one of another range. -/
theorem witness_registers_read_back :
    let c : Core := { aCore {} with seq := { loops := [⟨0, 1, 2, 1⟩] } }
    c.q.miss.length ≤ 64 ∧ (0x1F : Nat) ≤ 0x25 ∧ 9 ∈ [0, 1, 9] ∧ ¬(3 ∈ [0, 1, 9] ∨ (0x10 ≤ 3 ∧ 3 ≤ 0x1F)) ∧
    (c.seq.loops[0]?).map (·.index) = some 1 ∧ c.seq.loops.length ≤ 1 ∧
    ([2, 0x10, 0x11, 0x13, 0x20, 0x21, 0x30, 0x37, 0x100, 0x1FF, 0x1000, 0x13FF, 0x3000, 0x3070, 0x3008, 0x3078, 0x3009,
      0x3079].all fun r => sysKnown r && !sysReadOnly r) = true ∧ sysKnown 0x3004 = true ∧ c.px < 32 ∧ c.py < 16 := by decide

/-- ControlRegistersReadBack, SystemRegistersReadBack: an mtc to missct keeps its fill; an errstat of a logged error that
is cleared, and one that stands. -/
theorem test_registers_read_back :
    let e : ErrLog := { ce := 5, ue := 1, valid := true, unc := true, missed := true, addr := 64, syn := 3, cyc := 9 }
    let c : Core := { aCore {} with q := { miss := [1, 2] }, phys := { errs := (Vector.replicate 8 {}).set 7 e } }
    ({ c with regs := c.regs.writeCtrl 8 0xFFFFFFFFFFFFFFFF } : Core).readCtrl ((st fixedD c).ctx c) 8 = 0x0000FFFF0002FFFF ∧
    c.readSys 0x3070 = 0x07010005 ∧ (c.writeSys 0x3070 0x09000000).readSys 0x3070 = 0x0C000000 ∧
    (c.writeSys 0x3070 0x09000000).readSys 0x3071 = 0 ∧ (c.writeSys 0x3070 0x04000000).readSys 0x3070 = 0x03010005 ∧
    (c.writeSys 0x3070 0x04000000).readSys 0x3071 = 64 := by decide

/-- A returning launch whose one core is in system mode, and another core of it that is. -/
def returning (l : List Core) : State :=
  { st fixedD (sysCore {}) with
    cores := sysCore {} :: l, launches := [{ aLaunch fixedD with phase := .returning }] }

/-- SystemReturn: the last core to return, and one that is not; the last row at which an image can stand, one past it, and
a row at which none stands. -/
theorem witness_system_return :
    let k : Core := { sysCore {} with phys := { sysMode := true, savebase := 58368, imageRows := [58368] } }
    let s : State := { returning [] with cores := [k] }
    let u : State := { s with cores := [k, { sysCore {} with index := 1 }] }
    let c' : Core := { k with phys := { k.phys with sysMode := false }, seq := { k.seq with stuck := true }, backAt := 1000 + 1024 }
    s.actor = some k ∧ k.phys.sysMode = true ∧ k.phys.savebase.toNat ≤ 58368 ∧ k.phys.savebase.toNat ∈ k.phys.imageRows ∧
    58368 < (58369#64).toNat ∧ (0 : Nat) ∉ k.phys.imageRows ∧
    (s.launch? ⟨1, 0⟩).map (·.phase) = some .returning ∧ (s.setActor c').cores.length = 1 * 1 ∧
    (∀ d ∈ (s.setActor c').cores.filter fun d => d.lid == ⟨1, 0⟩, d.phys.sysMode = false) ∧
    (∃ d ∈ (u.setActor c').cores.filter fun d => d.lid == ⟨1, 0⟩, d.phys.sysMode = true) := by decide

/-- A core that owes `w`. -/
def owing (w : Deferred) (fs : List Flight) : Core :=
  { aCore {} with pends := [⟨1000, 999, 1, 0, 0, w⟩], flights := fs }

/-- A pass from tile 0 that began in cycle 999. -/
def aPass : Flight :=
  { uid := 0, instr := .mma 0 0 0, issue := 999, seqno := 999, cls := 3, bundle := 0, pos := 0, rows := 4
    streams := [{ eff := .arrUpdate, first := 1139, n := 4 }] }

/-- ScalarResultPerforms: each kind of change owed; a tile configuration, a tag lane and a store mode that the array holds
busy, and that it does not. -/
theorem witness_owed :
    ([Deferred.g 1 5, .cond 3 2 2, .prep 3 false 1 2, .prep 3 true 1 2, .count 9 1, .hset 1 0 0, .adv 1 1 true, .ctrl 0 5,
      .ctrl 0x10 5, .ovtab 0, .sys 0x10 5, .sys 0x13 5, .accMode true, .tags 0 []].all fun w =>
        ((owing w []).pends[0]?).map (·.what) == some w && !tileBusy { owing w [] with pends := [] } 0 999 1000 &&
        tileBusy { owing w [aPass] with pends := [] } 0 999 1000 && !storeBusy { owing w [] with pends := [] } 999 1000 &&
        storeBusy { owing w [aPass] with pends := [] } 1000 1000) = true := by decide

/-! ## Witnesses: classes V, M, L, W and D -/

/-- VectorRowInstructionsIssue, VectorOtherInstructionsIssue: every V instruction, at shape 1 × 1 and the last registers
of its repetition. -/
theorem witness_vector :
    ([Instr.vadd 39 39 39 8 none, .vsub 0 49 48 8 none, .vmul 0 1 2 0 (some 0xC9), .vfma 0 1 2 0 none, .vmin 0 1 2 0 none,
      .vmax 0 1 2 0 none, .vabs 0 1 0 none, .vneg 0 1 0 none, .vand 0 1 2 2 none, .vor 0 1 2 2 none, .vxor 0 1 2 2 none,
      .vshl 0 1 2 2 none, .vshr 0 1 2 2 none, .vsra 0 1 2 2 none, .vsel 0 1 2 0 none, .vexp 0 1 0 none, .vlog 0 1 0 none,
      .vrcp 0 1 0 none, .vrsqrt 0 1 0 none, .vtanh 0 1 0 none, .vthr 0 1 2 0 none, .vbcast 0 1 0 none, .vperm 0 1 2 0 none,
      .viota 0 48 2 none, .vrand 0 49 6 none, .mand 15 1 2 none, .mor 0 1 2 (some 1), .mnot 0 1 none, .vcmp 0 0 1 2 0 none,
      .vcas 36 38 2 0 none, .vcvt 0 1 0 1 1 none, .vwid 0 1 9 0 none, .vhist 0 1 2 none, .mpop 0 1 none, .vsumr 0 1 0 none,
      .vmaxr 0 1 0 none, .vrenorm 0 1 0 none, .vtrn 0 1 0 none, .vshape 0 0].all
        (isClear (st fixedD (aCore {})) (aCore {}))) = true := by decide

/-- An operation at event 0 of its one stream. -/
def flying (i : Instr) (e : Eff) (cls : Nat) (f : Flight → Flight) : Core :=
  { aCore {} with flights := [f { uid := 7, instr := i, issue := 999, seqno := 999, cls := cls, bundle := 0, pos := 0, rows := 2
                                  cols := 1, streams := [{ eff := e, first := 1000, n := 2 }] }] }

/-- Event 0 of the flying operation is due at the module's acting core. -/
def atEvent (c : Core) : Bool :=
  (st fixedD c).actor == some c && ((c.flight? 7).bind fun f => (f.streams[0]?).map (·.k)) == some 0

theorem eventAt_of {c : Core} {f : Flight} (h : atEvent c = true) (hf : c.flight? 7 = some f) :
    EventAt (st fixedD c) c 7 0 f 0 := by
  simp only [atEvent, Bool.and_eq_true, beq_iff_eq, hf, Option.bind_some] at h
  exact ⟨h.1, hf, h.2⟩

/-- A run of one byte. -/
def aRun : List (Nat × List Run) := [(0, [Run.full .v 5 [9]])]

/-- VectorRowEvents, HarrowAndHistogramEnd, WeightEvents, ArrayEvents, LoadEvents, StoreRowWriteFrame, ScalesEnterWhole,
EngineEventsFrame: an event of each kind is due, on a core whose memories are empty. -/
theorem witness_events :
    ([flying (.vadd 0 1 2 0 none) .vread 2 id, flying (.vadd 0 1 2 0 none) .vwrite 2 fun f => { f with data := aRun },
      flying (.vsumr 0 1 0 none) .harrow 2 id, flying (.vhist 0 1 2 none) .cqAppend 2 fun f => { f with counts := [1] },
      flying (.wld 0 0 1 0) .loadEnd 3 id, flying (.wset 0 1 0) .desc 3 id, flying (.mma 0 0 0) .arrRead 3 id,
      flying (.mma 0 0 0) .arrUpdate 3 id, flying (.mdrn 0 0 0 0) .accRead 3 id, flying (.mgdrn 0 0 0 0) .accRead 3 id,
      flying (.mgdrn 0 0 1 0) .accRead 3 id, flying (.lds 1 0 0 none) .spRead 4 id, flying (.ldt 0 0 0 0) .regWrite 4 id,
      flying (.st 0 0 0 0 0) .spWrite 5 id, flying (.sqld 0 1 none) .scaleApp 4 fun f => { f with bytes := [1] },
      flying (.dgln 0 0 0 0) .listRead 6 id, flying (.dcp 0 1 1 0) .blkWrite 6 id, flying (.dput 0 0 0) .sendRead 6 id,
      flying (.chrd 0 0 0 0) .chData 6 fun f => { f with cancelled := true }, flying (.chwr 0 0 0) .chSource 6 id].all
        atEvent) = true ∧
    (flying (.vadd 0 1 2 0 none) .vread 2 id).canonical ∧ (flying (.vadd 0 1 2 0 none) .vread 2 id).phys.flips = [] ∧
    (∀ f ∈ (flying (.vadd 0 1 2 0 none) .vread 2 id).flights, (f.next 0).live = true) := by
  refine ⟨by decide, ?_, by decide, by decide⟩
  simp [Core.canonical, VecFile.canonical, ArrayState.canonical, flying, aCore, Mem.wf]

/-- VectorRowRead, TransposeWrite: a vtrn's row to be read, and its two rows to be written, on a core without a wrong unit. -/
theorem witness_transpose :
    ([flying (.vtrn 0 1 0 none) .vread 2 id, flying (.vtrn 0 1 0 none) .vwrite 2 fun f =>
      { f with data := aRun ++ [(1, [Run.full .v 6 [8]])] }].all atEvent) = true ∧
    (flying (.vtrn 0 1 0 none) .vread 2 id).canonical := by
  refine ⟨by decide, ?_⟩
  simp [Core.canonical, VecFile.canonical, ArrayState.canonical, flying, aCore, Mem.wf]

/-- VectorRowRead: a histogram's first row, a row of vrenorm, and of mpop a row before the last and the last one, on a core
without a wrong unit. -/
theorem witness_row_reads :
    let pop (n : Nat) : Core := flying (.mpop 0 1 none) .vread 2 fun f => { f with rows := n }
    ([flying (.vhist 0 1 2 none) .vread 2 id, flying (.vrenorm 0 1 0 none) .vread 2 id, pop 2, pop 1].all fun c =>
      atEvent c && c.phys.flips.isEmpty && c.flights.all fun f => (f.next 0).live) = true ∧
    (0 : Nat) + 1 ≠ 2 ∧ (0 : Nat) + 1 = 1 := by decide

/-- An operation of rows of `n` elements from register 1, and register 3 where it has two sources, to register 5. -/
def rowF (n : Nat) (i : Instr) : Flight :=
  { uid := 7, instr := i, issue := 999, seqno := 999, cls := 2, bundle := 0, pos := 0, rows := 2, cols := n, d := 5, a := 1
    b := 3, x := 0x1FF, y := 7 }

/-- VectorSources, VectorRowValues: each instruction in formats that its clause admits, on elements of its row; a 4-bit
destination and source. -/
theorem witness_row_values : (aCore {}).canonical ∧ (rowF 4 (.vadd 5 1 3 4 none)).shadow = [] ∧
    ([Instr.vrand 5 3 6 none, .vrand 5 3 7 none, .vcas 5 1 3 4 none, .vcmp 5 0 1 3 4 none, .vcvt 5 1 0 1 11 none,
      .vwid 5 1 11 0 none, .mand 5 1 3 none].all fun i => (rowF 4 i).instr == i && decide (0 < (rowF 4 i).cols)) = true ∧
    (6#4).toNat = 6 ∧ (7#4).toNat = 7 ∧ (11#4).toNat = 11 ∧ (4#4).toNat ≠ 11 ∧ (1 * 4 + 4) * elemSize 4 ≤ 16384 ∧
    (rowF 4 (.vwid 5 1 11 0 none)).a < 40 ∧ (rowF 4 (.mand 5 1 3 none)).d ≠ 0 := by
  refine ⟨?_, rfl, by decide, by decide, by decide, by decide, by decide, by decide, by decide, by decide⟩
  simp [Core.canonical, VecFile.canonical, ArrayState.canonical, aCore, Mem.wf]

/-- A core whose registers 1 and 3 begin with the i8 elements 5, 3, 9, −1 and 3, 0, 4, 1, and whose mask 1 has bits 0, 1, 3. -/
def rowC : Core :=
  { aCore {} with vec := {
      v := [(16384, 5), (16385, 3), (16386, 9), (16387, 0xFF), (49152, 3), (49154, 4), (49155, 1)], m := [(2048, 0x0B)] } }

/-- Row 0 of operation `i` on that core: the first four i8 elements of register 5. -/
def rowOf (i : Instr) : List Nat :=
  let v := rowC.rowWritten ((st fixedD rowC).ctx rowC) (rowF 4 i) 0
  (List.range 4).map fun n => v.packed .v 5 1 n

/-- R163, R173, R175, R177, R178, R185: under mask 1 the third element stays, or is the other alternative of a vsel; an index
past the row's columns gives 0; viota counts from its base. -/
theorem test_rows : rowOf (.vperm 5 1 3 4 (some 0x40)) = [0xFF, 5, 0, 3] ∧ rowOf (.vsel 5 1 3 4 (some 0x40)) = [5, 3, 4, 0xFF] ∧
    rowOf (.viota 5 48 4 (some 0x40)) = [7, 8, 0, 10] ∧ rowOf (.vbcast 5 1 4 (some 0)) = [5, 5, 5, 5] ∧
    rowOf (.vbcast 5 1 4 (some 0x40)) = [5, 5, 0, 5] ∧ rowOf (.vmax 5 1 3 4 (some 0x40)) = [5, 3, 0, 1] := by decide

/-- R179, R180: the sum, the maximum and the number at or above a threshold of the elements under the mask, and of a row that
is masked off. -/
theorem test_row_reductions : (rowOf (.vsumr 5 1 4 (some 0x40)))[0]? = some 7 ∧ (rowOf (.vmaxr 5 1 4 (some 0x40)))[0]? = some 5 ∧
    (rowOf (.vthr 5 1 3 4 (some 0x40)))[0]? = some 2 ∧ (rowOf (.vsumr 5 1 4 (some 0x80)))[0]? = some 0 ∧
    (rowOf (.vmaxr 5 1 4 (some 0x80)))[0]? = some 0x80 := by decide

/-- RunWritesItsBytes: a masked byte, and one of m0. -/
theorem witness_run : VecFile.canonical {} ∧
    ({ space := .v, addr := 5, bytes := [(0x0F, 9)] } : Run).bytes[0]? = some (0x0F, 9) ∧
    ({ space := .m, addr := 2047, bytes := [(0xFF, 9)] } : Run).bytes[0]? = some (0xFF, 9) := by
  refine ⟨by simp [VecFile.canonical, Mem.wf], by decide, by decide⟩

/-- VectorIntegerElements: i32 and n8 at the ends of their ranges. -/
theorem witness_elements : 2 ≤ 8 ∧ 8 * elemSize 2 = 32 ∧ 8 * elemSize 8 = 8 ∧ 255 < 2 ^ (8 * elemSize 8) ∧
    0xFFFFFFFF < 2 ^ (8 * elemSize 2) := by decide

/-- VectorFloatElements: in f32 a NaN and a number, 1 and 2 at one scale and in their order, both zeros, both infinities
and −1; in bf16 its greatest word and its zeros. -/
theorem witness_floats : decFloat 0 0x7FC00000 = .nan ∧ decFloat 0 0x3F800000 ≠ .nan ∧
    (decFloat 0 0x3F800000).at (-23) = some (2 ^ 23) ∧ (decFloat 0 0x40000000).at (-23) = some (2 ^ 24) ∧
    Machine.Num.lt (decFloat 0 0x3F800000) (decFloat 0 0x40000000) = true ∧ 0xFF800000 < 2 ^ (8 * elemSize 0) ∧
    2 ^ (8 * elemSize 0 - 1) = 0x80000000 ∧ 0x7F800000 + 2 ^ (8 * elemSize 0 - 1) = 0xFF800000 ∧
    decFloat 0 0xBF800000 = .fin true (2 ^ 23) (-23) ∧ 0xFFFF < 2 ^ (8 * elemSize 1) ∧ decFloat 1 0xFFFF = .nan ∧
    2 ^ (8 * elemSize 1 - 1) = 0x8000 ∧ 0x7F80 + 2 ^ (8 * elemSize 1 - 1) = 0xFF80 := by decide

/-- VectorFloatElements, VectorConditions: in f32 1, −1 and 2 at one scale, zeros of both signs, infinities, a NaN; terms whose
sum and whose product are zero. -/
theorem witness_conditions : 0xFFFFFFFF < 2 ^ (8 * elemSize 0) ∧ 2 ≤ 8 ∧ 255 < 2 ^ (8 * elemSize 8) ∧
    (decFloat 0 0x3F800000).at (-23) = some (2 ^ 23) ∧ (decFloat 0 0xBF800000).at (-23) = some (-2 ^ 23) ∧
    (2 ^ 23 : Int) + -2 ^ 23 = 0 ∧ (decFloat 0 0).at (-23) = some 0 ∧ (decFloat 0 0x80000000).at (-23) = some 0 ∧
    (decFloat 0 0x80000000).at (-46) = some 0 ∧ (decFloat 0 0x3F800000).at (-46) ≠ none ∧
    decFloat 0 0x7F800000 = .inf false ∧ decFloat 0 0xFF800000 = .inf true ∧ (true == true) = true ∧
    decFloat 0 0x7FC00000 = .nan ∧ decFloat 1 0x7FC0 = .nan ∧ decFloat 0 0x3F800000 ≠ .nan := by decide

/-- CanonicalTree: four positions on the left, and one or four on the right. -/
theorem witness_tree : ([some 1, none, some 3, none] : List (Option Nat)).length = 2 ^ 2 ∧
    1 ≤ ([none] : List (Option Nat)).length ∧ ([some 1, none, none, none] : List (Option Nat)).length ≤ 2 ^ 2 := by decide

/-- VectorRowReductions: rows of 256 elements; in f32 a sum whose power is 0, one whose power is 255 and one between, of a
winner that is 0 and one that is not; a divisor. -/
theorem witness_reductions : (rowF 256 (.vrenorm 5 1 0 none)).cols ≤ 256 ∧ (0#4).toNat ≤ 1 ∧
    (rowF 256 (.vsumr 5 1 4 none)).instr = .vsumr 5 1 4 none ∧
    (0 : Nat) / 2 ^ 23 % 2 ^ 8 = 0 ∧ 0x7F800000 / 2 ^ 23 % 2 ^ 8 = 255 ∧ 0x3F800000 / 2 ^ 23 % 2 ^ 8 = 127 ∧
    decFloat 0 0 = .fin false 0 (-149) ∧ decFloat 0 0x3F800000 = .fin false (2 ^ 23) (-23) ∧ (2 : Nat) ^ 23 ≠ 0 := by decide

/-- VectorConversions: pairs of formats; a bf16 number; a NaN of e5m2 and a number; a half in quarters and an integer that
is out of i8's range on either side, with an overflow table that wraps and one that does not. -/
theorem witness_conversions : (8, 5) ∈ [(4, 3), (4, 2), (3, 2), (8, 7), (8, 6), (8, 5), (7, 6), (7, 5), (6, 5)] ∧
    decBf16 0xFF7F ≠ .nan ∧ (11 : Nat) ∈ [9, 10, 11] ∧ srcNum 10 0 0xFF = .nan ∧ srcNum 10 0 0x3C ≠ .nan ∧
    (decFloat 0 0x3F000000).at (-24) = some (2 ^ 23) ∧ (-24 : Int) ≤ 0 ∧ (Machine.Num.fin true 129 0).at 0 = some (-129) ∧
    (Machine.Num.fin false 128 0).at 0 = some 128 ∧ ovEntry 0 (ovBit 4) ≠ 3 ∧ ovEntry 0xFFFFFFFF (ovBit 4) = 3 := by decide

/-- HarrowAndHistogramEnd, ScalesEnterWhole: queues with room, and full ones. -/
theorem witness_queues : 63 + ([1] : List Nat).length ≤ 64 ∧ 64 < 64 + ([1] : List Nat).length ∧
    1023 + ([1] : List Nat).length ≤ 1024 ∧ 1024 < 1024 + ([1] : List Nat).length := by decide

/-- Registers with tile configurations 0 to 3: 128 × 32 weights of i8, a row of 128 columns, a row of 256, bf16. -/
def tileR : Regs :=
  ((((({} : Regs).writeCtrl 0x10 (3 + 127 * 2 ^ 8 + 31 * 2 ^ 16)).writeCtrl 0x11 (3 + 127 * 2 ^ 16)).writeCtrl 0x12
    (4 + 127 * 2 ^ 16)).writeCtrl 0x13 (4 + 255 * 2 ^ 16))

/-- WeightInstructionsIssue, PassesIssue, MatrixMovesIssue. -/
theorem witness_matrix :
    ([Instr.wld 0 3 1 5, .wset 3 0x80 5, .wclr 0 1, .mma 1 1 0, .mmaz 0 1 3, .mtag 15 48, .mzero 1, .mdrn 39 1 0 0,
      .mmiss 0].all (isClear (st fixedD (aCore tileR)) (aCore tileR))) = true ∧
    (let c : Core := { aCore tileR with arr := { grad := true } }
     [Instr.mmag 2 3 0, .mgdrn 0 31 1 1, .mzero 0].all (isClear (st fixedD c) c)) = true := by decide

/-- WeightInstructionsIssue: a clear wld of i8 that breaks a bf16 pair in one selected bank and meets none in another, and one of
bf16. -/
theorem witness_wld_begins :
    let a : ArrayState := { desc := (Vector.replicate 32 0x7FF#32).set 2 0x405 |>.set 3 0x505 }
    let c : Core := { aCore tileR with arr := a }
    let begun (i : Instr) : Option (List (BitVec 32)) := (after (st fixedD c) i).map fun d => [2, 3, 6, 7].map fun k => d.arr.descOf (k / 4) (k % 4)
    isClear (st fixedD c) c (.wld 0 3 1 9) = true ∧ isClear (st fixedD c) c (.wld 3 2 0xFF 9) = false ∧
    (a.descOf 0 2).toNat / 2 ^ 8 % 2 ^ 3 = 4 ∧ (a.descOf 1 2).toNat / 2 ^ 8 % 2 ^ 3 = 7 ∧ (3#2 ^^^ 1#2).toNat = 2 ∧
    begun (.wld 0 3 1 9) = some [0x7FF, 0xB09, 0x7FF, 0x7FF] := by decide

/-- LoadEndsLoading, WeightRowsWrite, WeightScalesPop, DescriptorsChange: a load of i8, of bf16 in an even slot and of
e4m3, with a queue that holds its scales, one that falls short, and an sqld in flight; a descriptor of bf16 and one that is
not; codes that check. -/
theorem witness_weight_events :
    let c (i : Instr) (e : Eff) (t : Word) : Core := flying i e 3 fun f => { f with tcfg := t, len := 128 }
    let with_ (n : Nat) (x : Core) : Core := { x with q := { sq := List.replicate n 1 } }
    let sq : Flight := { uid := 8, instr := .sqld 0 1 none, issue := 999, seqno := 999, cls := 4, bundle := 0, pos := 0 }
    ([c (.wld 0 3 1 5) .loadEnd 3, c (.wld 0 2 1 5) .loadEnd 4, c (.wld 0 2 1 5) .wldK 4, c (.wld 0 3 1 5) .wldK 0,
      c (.wld 0 3 1 5) .wldPop 0, c (.wld 0 2 1 5) .wldPop 4, c (.wset 0 1 5) .desc 0, c (.wclr 0 1) .desc 0].all
        fun c => atEvent c && c.codesClean 4) = true ∧ tcFormat 3 ≠ 4 ∧ tcFormat 4 = 4 ∧ (2#2).toNat % 2 = 0 ∧ tcFormat 0 ≤ 2 ∧
    128 = 128 * ((List.range 8).countP fun i => (1#8).getLsbD i) ∧
    128 ≤ (with_ 128 (c (.wld 0 3 1 5) .wldPop 0)).q.sq.length ∧ (with_ 127 (c (.wld 0 3 1 5) .wldPop 0)).q.sq.length < 128 ∧
    (∃ g ∈ [sq], ∃ a i l, g.instr = .sqld a i l) ∧
    (({ desc := Vector.replicate 32 0x405#32 } : ArrayState).descOf 0 0).toNat / 2 ^ 8 % 2 ^ 3 ∈ [4, 5] ∧
    (({} : ArrayState).descOf 0 0).toNat / 2 ^ 8 % 2 ^ 3 ∉ [4, 5] := by
  refine ⟨by decide, by decide, by decide, by decide, by decide, by decide, by simp, by simp,
    ⟨_, List.mem_singleton_self _, 0, 1, none, rfl⟩, by decide, by decide⟩

/-- ArrayRowReadFrame, ArrayRowUpdateFrame: a row of each kind of pass; a bank whose slot is loading and one that is not; a
pass of a float format, with its row's scales; the last row, and one before it. -/
theorem witness_pass_events :
    let c (i : Instr) (e : Eff) (t : Word) : Core := flying i e 3 fun f => { f with tcfg := t, terms := [(0, [])], grads := [] }
    let a (w : BitVec 32) : ArrayState := { desc := Vector.replicate 32 w }
    ([c (.mma 0 0 0) .arrRead 0, c (.mmag 0 0 0) .arrRead 0, c (.mmaz 0 0 0) .arrUpdate 3, c (.mmag 0 0 0) .arrUpdate 3].all
      fun c => atEvent c && c.phys.flips.isEmpty) = true ∧
    (a 0xD05).resolve false 0xFF 0 7 = some 0 ∧ ((a 0xD05).descOf 7 0).getLsbD 11 = true ∧
    ((a 0x305).descOf 7 0).getLsbD 11 = false ∧ (a 0x305).pairs 3 7 0 = true ∧ (List.replicate 12 (0 : Byte)).length = 12 ∧
    (1 : Nat) + 1 = 2 ∧ (0 : Nat) + 1 ≠ 2 := by decide

/-- ArrayRowReadFrame: of a row that misses in every bank, the first of a full list and of a list with room, the
misses that pass it, in a launch whose precise-miss bit is set and in one where it is not. -/
theorem witness_misses :
    let c (n : Nat) : Core := { flying (.mmag 0 0 0) .arrRead 3 (fun f => { f with tcfg := 3 + 2 ^ 33 }) with
      q := { miss := List.replicate n 0 } }
    let p : Core := c 0
    atEvent p = true ∧ p.phys.flips = [] ∧ p.trap = none ∧ p.phys.sysMode = false ∧ ((st fixedD p).ctx p).la.phase = .running ∧
    tcFormat (3 + 2 ^ 33) = 3 ∧ (3 + 2 ^ 33 : Word).getLsbD 33 = true ∧ (p.vec.tag.get 0 0).toNat = 0 ∧
    ((List.range 8).filter fun n => (p.arr.resolve false 0 0 n).isNone) = [0, 1, 2, 3, 4, 5, 6, 7] ∧
    ((st fixedD p).ctx p).la.precise = false ∧ 64 - (c 64).q.miss.length = 0 ∧ 64 - (c 60).q.miss.length = 4 ∧
    ([0, 1, 2, 3, 4, 5, 6, 7] : List Nat)[4]? = some 4 ∧ ([0, 1, 2, 3, 4, 5, 6, 7] : List Nat)[64 - p.q.miss.length]? = none ∧
    ({ aLaunch fixedD with precise := true } : Launch).precise = true := by decide

/-- ArrayRowTerms: a row of i8, of e4m3 with its four scales, and of bf16, in slots that pair; in empty slots; and a row of
mmag with its twelve scales. -/
theorem witness_terms :
    let c (i : Instr) (t : Word) (d e : BitVec 32) (n : Nat) : Core := { flying i .arrRead 3 fun f => { f with tcfg := t } with
      arr := { desc := (Vector.replicate 32 d).mapIdx fun k x => if k % 2 = 0 then x else e }, q := { sq := List.replicate n 1 } }
    ([c (.mma 0 0 0) 3 0x305 0x305 0, c (.mma 0 0 0) 0 0x005 0x105 4, c (.mma 0 0 0) 4 0x405 0x505 0, c (.mma 0 0 0) 4 0x7FF 0x7FF 0,
      c (.mma 0 0 0) 3 0x7FF 0x7FF 0].all fun p => atEvent p && p.phys.flips.isEmpty && p.flights.all fun f => (f.next 0).live &&
        decide (tcFormat f.tcfg ≤ 2 → 4 ≤ p.q.sq.length) && (List.range 8).all fun n =>
          p.arr.resolve (tcFormat f.tcfg == 4) 0xFF f.len n == some 0 && !(p.arr.descOf n 0).getLsbD 11 &&
            !(p.arr.descOf n 1).getLsbD 11 && p.arr.pairs (tcFormat f.tcfg) n 0) = true ∧
    (let p := c (.mmag 0 0 0) 0 0x7FF 0x7FF 12
     atEvent p = true ∧ p.phys.flips = [] ∧ 12 ≤ p.q.sq.length ∧ tcFormat 0 ≤ 2) := by decide

/-- ArrayRowUpdateFrame: a row of mmag that hit the last slot of bank 0. -/
theorem witness_gradient_update :
    let g : GradRow := { slots := [some 3, none], a := [.fin false 1 0], g := List.replicate 32 (.fin false 3 0) }
    let c : Core := flying (.mmag 0 0 0) .arrUpdate 3 fun f => { f with grads := [(0, g)] }
    atEvent c = true ∧ c.phys.flips = [] ∧ ((c.flight? 7).bind fun f => f.grads.find? fun p => p.1 == 0) = some (0, g) ∧
    g.a.length ≤ 128 ∧ g.slots.length ≤ 8 ∧ (∀ y, some y ∈ g.slots → y < 4) ∧ g.slots[0]? = some (some 3) ∧
    g.a[0]? = some (.fin false 1 0) ∧ g.g[32 * 0 + 31]? = some (.fin false 3 0) := by
  refine ⟨by decide, rfl, by decide, by decide, by decide, ?_, rfl, rfl, rfl⟩
  intro y h
  simp at h
  omega

/-- AccumulatorRowRead: rows of mdrn and mgdrn that wait for their writes; integers at the ends of i16, below them and above
them, under a table that says wrap and one that does not. -/
theorem witness_drains :
    let c (i : Instr) : Core := flying i .accRead 3 id
    ([Instr.mdrn 0 0 0 3, .mgdrn 0 0 0 4].all fun i => atEvent (c i) && (c i).phys.flips.isEmpty &&
      (c i).flights.all fun f => (f.next 0).live) = true ∧
    (2 : Int) ^ (8 * elemSize 3 - 1) = 32768 ∧ (BitVec.ofNat 32 0xFFFF8000).toInt = -32768 ∧
    (BitVec.ofNat 32 0xFFFF7FFF).toInt < -32768 ∧ 32768 ≤ (BitVec.ofNat 32 0x8000).toInt ∧ 0xC00 / 2 ^ 10 % 2 ^ 2 = 3 ∧
    0 / 2 ^ 10 % 2 ^ 2 ≠ 3 := by decide

/-- AccumulatorRowRead: an mgdrn that clears, with a pass of a bundle before it that holds the gradient store, and without. -/
theorem witness_gradient_drain :
    let c : Core := flying (.mgdrn 0 0 1 0) .accRead 3 id
    let g : Flight := { uid := 6, instr := .mmag 0 0 0, issue := 990, seqno := 990, cls := 3, bundle := 0, pos := 0, rows := 1
                        streams := [{ eff := .arrUpdate, first := 1121, n := 1 }] }
    let d : Core := { c with flights := g :: c.flights }
    let f : Flight := c.flights.headD g
    atEvent c = true ∧ atEvent d = true ∧ f.instr = .mgdrn 0 0 1 0 ∧ d.phys.flips = [] ∧ d.trap = none ∧
    (∀ h ∈ (c.moved f 0).flights, ¬h.seqno < f.seqno) ∧
    (∃ h ∈ (d.moved f 0).flights, h.seqno < f.seqno ∧ 1000 ≤ h.issue + 140 + h.span - 1 ∧ ∃ a b z, h.instr = .mmag a b z) := by
  refine ⟨by decide, by decide, rfl, rfl, rfl, by decide, ⟨_, List.mem_cons_self, by decide, by decide, 0, 0, 0, rfl⟩⟩

/-- RowsRouteByTag: a tag that a slot holds, of a bf16 pass behind one that holds a high byte, and one that every bank misses. -/
theorem witness_route :
    ({ desc := Vector.replicate 32 0x505#32 } : ArrayState).resolve false 5 0 0 = some 0 ∧
    ({ desc := (Vector.replicate 32 0x505#32).set 1 0x405#32 } : ArrayState).resolve true 5 0 0 = some 1 ∧
    ({} : ArrayState).resolve false 5 0 0 = none ∧ ({} : ArrayState).resolve true 5 0 0 = none ∧ (5 : Nat) ≠ 0xFF := by decide

/-- AccumulatorElementUpdate: the ends of its ranges; a NaN and a number. -/
theorem witness_update : 0xFFFFFFFF < 2 ^ 32 ∧ (-2 ^ 31 : Int) ≤ -2 ^ 31 ∧ (2 ^ 31 - 1 : Int) < 2 ^ 31 ∧
    decF32 0x7FC00000 = .nan ∧ decF32 0x3F800000 ≠ .nan := by decide

/-- LoadsIssue, StoresIssue: every form, with three slots of handle 1 filled; g4 is 64. -/
theorem witness_loads_and_stores :
    let c := aCore (((handleR 3).writeG 4 64).writeCtrl 0 0x10000)
    [Instr.ld 39 4 0 1 2, .ldh 0 1 3 0, .ldt 15 4 0 0, .ldth 0 1 3, .ldm 15 4 0, .lds 1 4 8 none, .sqld 4 1 none,
      .st 48 4 0 1 2, .sth 0 1 1 0, .stt 15 4 0 0, .stth 0 1 1, .stm 15 4 0, .sts 1 4 8 none].all
        (isClear (st fixedD c) c) = true := by decide

/-- ScratchpadRowRead: a row of every form that may be read, at the first and at the last place below the landing area, and of
every form of a store; a vector and a bypass register, a code beyond them, and m0. -/
theorem witness_scratchpad_rows :
    let c (i : Instr) (k : Nat) (f : Flight → Flight) : Core := flying i .spRead k fun g => f { g with len := 8 }
    ([Instr.ld 1 0 0 0 0, .ldh 1 0 0 0, .ldt 1 0 0 0, .ldth 1 0 0, .ldm 1 0 0, .lds 1 0 0 none, .sqld 0 8 none].all fun i =>
      [0, 0x3EFFF8].all fun a =>
        let p := c i 4 fun f => { f with addr := a }
        atEvent p && p.flights.all fun f => (f.next 0).live && decide (Reads (st fixedD p) p f (f.rowAddrs 0))) = true ∧
    ([Instr.st 1 0 0 0 0, .sth 1 0 0 0, .stt 1 0 0 0, .stth 1 0 0, .stm 1 0 0].all fun i =>
      let p := c i 5 id
      atEvent p && p.phys.flips.isEmpty && p.flights.all fun f => (f.next 0).live && f.shadow.isEmpty) = true ∧
    (39 : Nat) < 40 ∧ ¬(40 : Nat) < 40 ∧ (47 : Nat) < 48 ∧ ¬(48 : Nat) < 48 := by decide

/-- RegisterRowWrite: a tile load's row while the array holds its tile, in both forms, and while it does not. -/
theorem witness_busy_tile :
    let c (i : Instr) (l : List Flight) : Core :=
      let p := flying i .regWrite 4 fun f => { f with data := aRun }
      { p with flights := p.flights ++ l }
    let busy (p : Core) : Option Bool := (p.flight? 7).map fun f => tileBusy (p.moved f 0) 0 f.seqno 1000
    ([Instr.ldt 0 0 0 0, .ldth 0 0 0].all fun i => atEvent (c i [aPass]) && busy (c i [aPass]) == some true && busy (c i []) == some false) =
      true ∧
    (c (.ldt 0 0 0 0) [aPass]).phys.sysMode = false ∧ (c (.ldt 0 0 0 0) [aPass]).trap = none := by decide

/-- StoreRowWriteFrame: a row that was read, at the last place below the landing area and one byte beyond it; and one that was
not read. -/
theorem witness_store_row :
    let r : Run := { space := .v, addr := 0, bytes := [(0xFF, 1), (0x0F, 2)] }
    let c (a : Nat) (l : List (Nat × List Run)) : Core := flying (.st 0 0 0 0 0) .spWrite 5 fun f => { f with addr := a, len := 2, data := l }
    let rows (p : Core) : List Nat := ((p.flight? 7).map fun f => f.rowAddrs 0).getD []
    atEvent (c 0x3EFFFE [(0, [r])]) = true ∧ rows (c 0x3EFFFE [(0, [r])]) = [0x3EFFFE, 0x3EFFFF] ∧
    (rows (c 0x3EFFFE [(0, [r])])).Nodup ∧ ((c 0x3EFFFE [(0, [r])]).flight? 7).map (fun f => f.rowData 0) = some [r] ∧
    Writes (st fixedD (c 0x3EFFFE [])) (c 0x3EFFFE []) [0x3EFFFE, 0x3EFFFF] ∧
    ¬Writes (st fixedD (c 0x3EFFFF [])) (c 0x3EFFFF []) [0x3EFFFF, 0x3F0000] ∧
    ((c 0 []).flight? 7).map (fun f => f.rowData 0) = some [] := by decide

/-- The last write of a producer on handle 1, which has 4 slots of which `n` are filled, beside the operations `l`. -/
def producing (i : Instr) (e : Eff) (cls n : Nat) (l : List Flight) : Core :=
  let c := flying i e cls fun f => { f with
    handle := some 1, prod := true, rows := 1, len := 1, bytes := [3], data := [(0, [Run.full .v 0 [3]])]
    streams := [{ eff := e, first := 1000, n := 1 }] }
  { c with regs := handleR n, flights := c.flights ++ l }

/-- StoreRowWriteFrame, EngineWrites: the last write of a sth, a dcp and a chrd into handle 1 with a slot free, with none, and
with an earlier producer on the handle; what each leaves of the handle, or raises. -/
theorem witness_producers :
    let before : Flight := { uid := 8, instr := .sth 0 1 0 0, issue := 990, seqno := 990, cls := 5, bundle := 0, pos := 0
                             handle := some 1, prod := true, streams := [{ eff := .spWrite, first := 1000, n := 1 }] }
    let ends (f : Nat → List Flight → Core) (i : Instr) (n : Nat) (l : List Flight) : Option (Word × Option (Nat × Nat)) :=
      (after (st fixedD (f n l)) i).map fun c => (c.regs.hw1 1, c.trap.map fun t => (t.cause, t.detail))
    let all (f : Nat → List Flight → Core) (i : Instr) : Bool :=
      atEvent (f 3 []) && decide (Writes (st fixedD (f 3 [])) (f 3 []) ((List.range 64).map fun k => (0 + k) % 4194304)) &&
      ends f i 3 [] == some (4 * 2 ^ 32, none) && ends f i 4 [] == some (4 * 2 ^ 32, some (4, 0x13)) &&
      ends f i 3 [before] == some (3 + 3 * 2 ^ 32, some (4, 0x10))
    (all (producing (.sth 0 1 0 0) .spWrite 5) (.storeRowWrite 7 0) && all (producing (.dcp 0 1 1 0) .blkWrite 6) (.drillBlockWrite 7 0) &&
      all (producing (.chrdHandle 29 0 1 0 0) .chData 6) (.channelReadData 7 0)) = true ∧
    ((producing (.sth 0 1 0 0) .spWrite 5 3 []).moved ((producing (.sth 0 1 0 0) .spWrite 5 3 []).flights[0]) 0).flights = [] := by
  decide

/-- SwizzleRearrangesLines, ScratchpadWritesReadBack. -/
theorem witness_scratchpad : 0x3FFFFF < 2 ^ 22 ∧ Scratch.mem {} = [] ∧ Mem.wf 0 [] = true ∧
    ([0x3FFFFF, 0] : List Nat).Nodup ∧ ([0x3FFFFF, 0] : List Nat).length = ([1, 2] : List Byte).length := by decide

/-! ## Witnesses: class D and the host side -/

/-- A core with handle 1, handle 2 of two slots of 1,024 bytes, scalars for its addresses (g2 the last block below the landing area, g3 the next, g4 64),
windows 0 (data) and 1 (reduce) of 4 KiB, and rows 0 to 63 mapped. -/
def moverC : Core :=
  { aCore ((((handleR 3).writeG 2 0x3EFFC0 |>.writeG 3 0x3F0000 |>.writeG 4 64).writeG 5 0x0400000000000000).writeG 6 0x8000
      |>.writeH 2 0x40F00000000 0) with
    windows := [(0, 1), (2, 4096), (4, 5), (6, 4096), (7, 2 * 2 ^ 32 + 3 * 16)]
    phys := { rowmap0 := [(0, 0x8000)] } }

/-- CopiesIssue: both directions and a gather. -/
theorem witness_copies :
    ([Instr.dcp 1 1 1 0, .dcp 1 1 1 1, .dgln 1 1 1 0].all (isClear (st fixedD moverC) moverC)) = true := by decide

/-- SendsIssue: 64 bytes to the last block below the landing area, and one byte past it; no bytes. -/
theorem witness_sends :
    ([Instr.dput 2 1 4, .dput 3 1 4, .dput 2 1 0, .dred 2 1 4 0 0 (some 0x1FF), .amo 2 1 0 0, .amo 3 1 3 3, .amor 2 1 1 0 0,
      .amor 2 1 3 0 2, .amor 3 1 1 0 2].all (isClear (st fixedD moverC) moverC)) = true ∧
    4194304 - ((st fixedD moverC).ctx moverC).la.landing * 65536 = 0x3EFFC0 + 64 ∧
    4194304 - ((st fixedD moverC).ctx moverC).la.landing * 65536 < 0x3F0000 + 64 := by decide

/-- HostTransfersIssue: a mapped range, one past its window, one in the landing area, and a reduce window in a launch
without a group. -/
theorem witness_host_transfers :
    ([Instr.dhget 2 1 4 15, .dhput 2 1 4 0, .dhput 2 5 4 0, .dhput 3 1 4 0].all (isClear (st fixedD moverC) moverC)) = true ∧
    windowOk moverC.windows true 4032 64 = true ∧ windowOk moverC.windows true 4033 64 = false ∧
    windowOk moverC.windows false 0x0400000000000000 64 = true ∧ windowOk moverC.windows true 0x0400000000000000 64 = false ∧
    isReduce moverC.windows 0x0400000000000000 = true ∧ ((st fixedD moverC).ctx moverC).la.group = 0xFF := by decide

/-- That core with bank 29 open since cycle `t`. -/
def openC (t : Nat) : Core := { moverC with chan := moverC.chan.apply .act 29 t 5 }

/-- ChannelCommands: rows 63 and 64, commands that pass and that fail, in banks 29 and 30; a row number above 14 bits. -/
theorem witness_channel :
    (st fixedD moverC).actor = some moverC ∧ (29#5).toNat < 30 ∧ 30 ≤ (30#5).toNat ∧ moverC.rowMapped 63 = true ∧
    moverC.rowMapped 64 = false ∧ moverC.chan.check .act 29 1000 1000 = none ∧
    (openC 999).chan.check .act 29 1000 1000 = some 1 ∧ (openC 999).chan.check .pre 29 1000 1000 = some 8 ∧
    (openC 970).chan.check .pre 29 1000 1000 = none ∧ moverC.chan.check .refb 29 1000 1000 = none ∧
    (openC 970).chan.check .refb 29 1000 1000 = some 1 ∧ (openC 970).chan.check .pra 0 1000 1000 = none ∧
    (openC 999).chan.check .pra 0 1000 1000 = some 8 ∧ moverC.chan.check .ref 0 1000 1000 = none ∧
    (openC 970).chan.check .ref 0 1000 1000 = some 9 ∧ 32768 ≤ (moverC.regs.readG 6).toNat ∧
    (moverC.regs.readG 4).toNat < 32768 := by decide

/-- EngineReads: a list and a source block that may be read, of both kinds of copy; a send's first block and its last; the three
kinds that carry an operand. -/
theorem witness_engine_reads :
    let c (i : Instr) (e : Eff) : Core := flying i e 6 fun f => { f with rows := 1, len := 64, counts := [1] }
    let last (i : Instr) : Core := flying i .sendRead 6 fun f => { f with
      len := 64, streams := [{ eff := .sendRead, first := 1000, n := 1 }, { eff := .sendRead, first := 1001, n := 1 }] }
    let span (a n : Nat) : List Nat := (List.range n).map fun i => (a + i) % 4194304
    let may (p : Core) (as : List Nat) : Bool := atEvent p && p.flights.all fun f => (f.next 0).live && decide (Reads (st fixedD p) p f as)
    (may (c (.dgln 0 0 0 0) .listRead) (span 0 2) && may (c (.dcp 0 1 1 0) .blkRead) (span 0 64) &&
      may (c (.dgln 0 0 0 0) .blkRead) (span 64 64)) = true ∧ span 0 64 ≠ [] ∧
    ([Instr.dput 0 0 0, .dred 0 0 0 1 0 (some 5), .dhput 0 0 0 0].all fun i => may (c i .sendRead) (span 0 64) && may (last i) (span 0 64)) =
      true ∧
    ([Instr.amo 0 0 1 0, .amor 0 0 0 1 0, .caddR 0 0 0].all fun i => atEvent (c i .sendRead)) = true := by decide

/-- EngineWrites: a block and a column that may be written, a block in the landing area, and a chwr's source. -/
theorem witness_engine_writes :
    let c (i : Instr) (e : Eff) (a : Nat) : Core := flying i e 6 fun f => { f with
      addr := a, bytes := List.replicate 64 3, data := [(0, [Run.full .v 0 (List.replicate 64 3)])] }
    let span (a : Nat) : List Nat := (List.range 64).map fun i => (a + i) % 4194304
    ([c (.dcp 0 1 1 0) .blkWrite 0x3EFFC0, c (.chrd 0 0 0 0) .chData 0x3EFFC0].all fun p =>
      atEvent p && decide (Writes (st fixedD p) p (span 0x3EFFC0)) && !decide (Writes (st fixedD p) p (span 0x3EFFC1))) = true ∧
    (let p := c (.chwr 0 0 0) .chSource 0x3EFFC0
     (atEvent p && p.flights.all fun f => decide (Reads (st fixedD p) p f (span 0x3EFFC0))) = true) := by decide

/-- ColumnCommandsIssue: an open bank whose row is 13 cycles old, one that is younger, and bank 30. -/
theorem witness_columns :
    ([Instr.chrd 29 15 1 3, .chrdHandle 29 15 2 0 3, .chwr 29 15 1, .chwrHandle 29 15 2 0, .chrd 30 0 1 0].all
      (isClear (st fixedD (openC 987)) (openC 987))) = true ∧
    (openC 987).chan.check .rd 29 1000 1000 = none ∧ (openC 988).chan.check .rd 29 1000 1000 = some 5 ∧
    (openC 987).chan.check .wr 29 1000 1000 = none ∧ (openC 988).chan.check .wr 29 1000 1000 = some 5 ∧
    (openC 987).phys.flips = [] ∧ isClear (st fixedD (openC 988)) (openC 988) (.chwr 29 0 1) = true := by decide

/-- CancelSuppressesPages: a read of tag 3, its page's first read 47 cycles old. -/
theorem witness_cancel :
    let c := flying (.chrd 0 0 0 3) .chData 6 fun f => { f with page := 953 }
    (st fixedD c).actor = some c ∧ (3#4 : BitVec 4) ≠ 0 ∧ (c.flights[0]?).map (fun f => cancelTag f.instr) = some 3 ∧
    1000 < 953 + 48 := by decide

/-- A record of 64 bytes from core 0 to core 0. -/
def aRec : Rec := { kind := .plain, sender := 0, order := 0, dest := 0, addr := 0, bytes := List.replicate 64 1 }

/-- RecordArrival: a record on the mesh beside the blocks of its send that a stop landed, which give way to it; a record that
fills the landing area's last byte, and one that passes it. -/
theorem witness_record :
    let cut : Rec := { aRec with bytes := [], open_ := true }
    let c : Core := { aCore {} with net := { out := [aRec], land := [cut] } }
    let s := st fixedD c
    s.actor = some c ∧ c.net.out[0]? = some aRec ∧ c.lid = ⟨1, 0⟩ ∧ c.index = aRec.dest ∧
    (c.net.land.filter fun y => !(y.open_ && y.sender == aRec.sender && y.order == aRec.order)) = [] ∧
    0 + 0 + aRec.size ≤ (s.ctx c).la.landing * 65536 ∧ (s.ctx c).la.landing * 65536 = 65536 ∧
    (65536 - aRec.size) + aRec.size ≤ 65536 ∧ ¬(65536 - aRec.size + 1) + aRec.size ≤ 65536 := by decide

/-- RecordArrival: a record that lands between two others takes the blocks that they leave, and an injection armed in one of them
applies. -/
theorem test_landed_blocks :
    let y (l : List Nat) : Rec := { aRec with addr := 128, order := 1, blocks := l }
    let c : Core := { aCore {} with net := { out := [aRec], land := [y [1]], prev := [y [0, 3]] } }
    let armed : Core := c.setErr 0 { inj := 0x102#9, injAddr := 0x3F0088 }
    let landed (c : Core) : Option (List (List Nat) × List (Nat × Nat)) :=
      (after (st fixedD c) (.recordArrival 0)).map fun d => (d.net.land.map (·.blocks), d.phys.flips.map fun e => (e.1, e.2.1))
    landed c = some ([[1], [2, 4]], []) ∧ (landed armed).map (·.1) = some [[1], [2, 4]] ∧
    (landed armed).map (·.2) = some [(0, 0x3F0088 / 8)] ∧
    (∀ r ∈ c.net.prev ++ c.net.land, 64 * r.blocks.length ≤ r.size) := by decide

/-- HostSideEvents: a transfer whose reads are done, of the open batch. -/
theorem witness_host_side :
    let c := flying (.dhput 0 0 0 5) .sendRead 6 fun f => { f with streams := [] }
    let c : Core := { c with net := { openBatch := [7] } }
    (st fixedD c).actor = some c ∧ (c.flight? 7).map (fun f => f.streams.any Stream.live) = some false ∧
    c.net.inTurn 7 = true := by decide

/-- HostSideEvents: a dhget's bytes that fill scratchpad up to the landing area, and one byte more. -/
theorem witness_host_bytes :
    let c (n : Nat) : Core := flying (.dhget 0 0 0 5) .sendRead 6 fun f => { f with addr := 0x3EFF00, len := n }
    let s (n : Nat) : State := st fixedD (c n)
    (s 256).actor = some (c 256) ∧ ((c 256).flight? 7).map (fun f => (f.addr, f.len)) = some (0x3EFF00, 256) ∧
    ((List.range 4).all fun i => decide (0x3EFF00 + 252 + i < ((s 256).ctx (c 256)).landBase) &&
      !((s 256).ctx (c 256)).outside (0x3EFF00 + 252 + i)) = true ∧
    ¬0x3EFF00 + 252 + 4 < ((s 257).ctx (c 257)).landBase ∧ (252 : Nat) + 4 < 257 ∧ ([1, 2, 3, 4] : List Byte).length ≤ 4194304 := by
  decide

/-- HostSideEvents: a dhget of a context that stands in its image, whose bytes the image's scratchpad rows hold. -/
theorem witness_host_image :
    let c : Core := { flying (.dhget 0 0 0 5) .sendRead 6 fun f => { f with len := 64 } with imageMask := 1 }
    let s : State := { st fixedD (aCore {}) with cores := [], images := [c] }
    s.actor = some c ∧ s.cores.length ≤ s.cur ∧ (c.flight? 7).map (fun f => (f.addr, f.len)) = some (0, 64) ∧
    (s.physOf c.physNo).hbm.wf 0 = true ∧ 63 < (s.ctx c).landBase ∧ 63 < c.imageMask.toNat % 2 ^ 11 * 4096 ∧
    (s.ctx c).outside 63 = false := by decide

/-- HostSideEvents: bytes that no row of the image holds, of a context that still stands on its core. -/
theorem witness_host_core :
    let c : Core := { flying (.dhget 0 0 0 5) .sendRead 6 fun f => { f with len := 64 } with imageMask := 0 }
    let s : State := { st fixedD (aCore {}) with cores := [aCore {}], images := [c], cur := 1 }
    s.actor = some c ∧ s.cores.length ≤ s.cur ∧ (aCore {}).lid = c.lid ∧ (aCore {}).index = c.index ∧
    c.imageMask.getLsbD 20 = false ∧ ¬0 < c.imageMask.toNat % 2 ^ 11 * 4096 ∧ 63 < (s.ctx c).landBase ∧
    (s.ctx c).outside 63 = false := by decide

/-- PeerReduction: window 1 is a reduce window of two ranks, of which rank 0 has contributed; one more comes last. -/
theorem witness_peer :
    let c : Core := { moverC with net := { peer := [(1, 0, [])] } }
    (st fixedD c).actor = some c ∧ (windowWord c.windows 1 0).getLsbD 0 = true ∧
    (windowWord c.windows 1 0).toNat / 2 % 4 = 2 ∧ (windowWord c.windows 1 3).toNat / 2 ^ 32 % 2 ^ 20 = 2 ∧
    (∃ p ∈ c.net.peer.filter fun p => p.1 == 1, p.2.1 = 0) ∧ (∀ p ∈ c.net.peer.filter fun p => p.1 == 1, p.2.1 ≠ 1) ∧
    (c.net.peer.filter fun p => p.1 == 1).length + 1 = 2 ∧ (moverC.net.peer.filter fun p => p.1 == 1).length + 1 < 2 := by
  refine ⟨by decide, by decide, by decide, by decide, ⟨(1, 0, []), by decide, rfl⟩, by decide, by decide, by decide⟩

/-- PeerReduction, its last clause: the group of the window, a place below the landing area and one that it overlaps. -/
theorem witness_peer_group :
    let g : Group := { w := 1, h := 1, members := [{ part := 1, endpoint := 0 }] }
    let p : Partition := { aPart with groups := [(0, g)] }
    let s : State := { st fixedD moverC with parts := [p] }
    s.part? moverC.lid.part.toNat = some p ∧
    p.groups.find? (fun g => g.1 == (windowWord moverC.windows 1 3).toNat / 2 ^ 8 % 2 ^ 4) = some (0, g) ∧
    (s.ctx moverC).badAddr (addrsOf false 0x3EFFFC 4) = none ∧ (s.ctx moverC).badAddr (addrsOf false 0x3EFFFD 4) ≠ none := by
  decide

theorem moverC_canonical : moverC.canonical := by
  simp [Core.canonical, VecFile.canonical, ArrayState.canonical, moverC, aCore, Mem.wf]

/-- AdditionsWaitForRestart: a launch that is stopped and one that runs. -/
theorem witness_additions :
    let la (p : Phase) : Launch := { aLaunch fixedD with phase := p }
    let s (p : Phase) : State := { st fixedD moverC with launches := [la p] }
    (s .stopped).launch? ⟨1, 0⟩ = some (la .stopped) ∧ (la .stopped).stoppedNow = true ∧
    (s .running).launch? ⟨1, 0⟩ = some (la .running) ∧ (la .running).stoppedNow = false := by decide

/-- A core at the seam of a furrow whose seam cycle is 5, with these records. -/
def mergeC (l : List Rec) : Core := { aCore {} with net := { prev := l } }

/-- MergeAppliesOrRefuses: no record, and the fault of a late block; a seam too early, a conflict of two senders, and
neither, on a core whose codes check. -/
theorem witness_merge :
    (mergeC []).net.prev = [] ∧ ({ mergeC [aRec] with net := { prev := [aRec], lateFault := true } } : Core).net.lateFault = true ∧
    (mergeC [aRec]).net.prev ≠ [] ∧ (mergeC [aRec]).net.lateFault = false ∧ (mergeC [aRec]).phys.flips = [] ∧
    ((mergeC [aRec]).err 0).inj.getLsbD 8 = false ∧ 64 ∉ addrsOf false aRec.addr (max aRec.bytes.length 8) ∧
    let d : Word := 0x8000000005000407
    let e : Word := 0x8000000004000407
    (st d (mergeC [aRec])).actor = some (mergeC [aRec]) ∧ mergeWork [aRec] = 5 ∧
    ((st d (mergeC [aRec])).ctx (mergeC [aRec])).la.desc.toNat / 2 ^ 24 % 2 ^ 13 = 5 ∧
    ((st e (mergeC [aRec])).ctx (mergeC [aRec])).la.desc.toNat / 2 ^ 24 % 2 ^ 13 = 4 ∧
    firstConflict [aRec] = none ∧ firstConflict [aRec, { aRec with sender := 1 }] = some (0, 0, 1) ∧
    mergeWork [aRec, { aRec with sender := 1 }] = 5 := by decide

/-- MergeApplies: of two records that landed, the one with two wrong bits in its block is not applied, and the other is. -/
theorem witness_merge_lost :
    let r (a b : Nat) : Rec := { aRec with addr := a, order := a, bytes := [7], blocks := [b] }
    let c : Core := { mergeC [r 0 0, r 64 1] with phys := { flips := [(0, 0x3F0040 / 8, 3)] } }
    let d := after (st 0x8000000005000407 c) .merge
    c.phys.flips ≠ [] ∧ firstConflict c.net.prev = none ∧ mergeWork c.net.prev ≤ 5 ∧
    d.map (fun d => (d.sp.mem.get 0 0, d.sp.mem.get 0 64, d.trap.map fun t => t.cause, d.net.prev)) = some (7, 0, some 0x0D, []) := by decide

/-- MergeConflicts: records of every kind, of two senders and of one, of one key and of two; a common byte and none; a byte that
two records touch. -/
theorem witness_conflicts :
    let r (k : RecKind) (n : Nat) : Rec := { aRec with kind := k, sender := n }
    (r .plain 0).kind = .plain ∧ (r (.reduce 1 0 0) 0).kind = .reduce 1 0 0 ∧ (r (.atomic 0 0 none) 0).kind = .atomic 0 0 none ∧
    (r .ret 0).kind = .ret ∧ (r (.counter 1 5) 0).kind = .counter 1 5 ∧ (r .plain 0).sender ≠ (r .plain 1).sender ∧
    (∀ n z, (r .plain 0).kind ≠ .counter n z) ∧ commonByte aRec { aRec with addr := 63 } = some 63 ∧
    commonByte aRec { aRec with addr := 64 } = none ∧ (1 : Nat) ≠ (twoSenders [r .plain 0, r .plain 1] 0).1 ∧
    (∃ x ∈ [r .plain 0, r .plain 1], x.sender = 1 ∧ x.addr ≤ 0 ∧ 0 < x.addr + x.bytes.length) := by
  refine ⟨rfl, rfl, rfl, rfl, rfl, by decide, nofun, by decide, by decide, by decide, ⟨_, List.mem_cons_of_mem _ List.mem_cons_self, by decide⟩⟩

/-! ## Witnesses: where syllables trap, and the home channel's rows -/

/-- Each instruction of `l` raises its cause and detail on the acting core. -/
def trapsAt (s : State) (l : List (Instr × Nat × Nat)) : Bool :=
  l.all fun p => ((after s p.1).bind fun c => c.trap.map fun t => (t.cause, t.detail)) == some p.2

/-- Each instruction of `l` raises its illegal-syllable detail on a core with registers `r`. -/
def illegals (r : Regs) (l : List (Instr × Nat)) : Bool :=
  trapsAt (st fixedD (aCore r)) (l.map fun p => (p.1, 1, p.2))

/-- Registers of a shape of `n` rows of `k` columns. -/
def shapeR (n k : Nat) : Regs := { shape := BitVec.ofNat 64 (n - 1 + k % 256 * 2 ^ 16) }

/-- VectorRowSyllablesTrap: each detail of each group of forms, at a boundary. -/
theorem witness_vector_row_traps :
    illegals {} [(.vadd 40 0 0 0 none, 4), (.vsel 0 50 0 0 none, 4), (.vand 0 0 0 9 none, 5), (.vmul 39 0 0 0 (some 1), 9),
      (.vshl 0 0 0 1 none, 5), (.vthr 0 0 50 0 none, 4), (.vabs 0 39 0 (some 1), 9), (.vexp 0 0 2 none, 5),
      (.viota 0 47 2 none, 4), (.viota 0 48 1 none, 5), (.vrand 0 48 2 none, 5), (.vrand 39 48 6 (some 1), 9),
      (.mand 16 0 0 none, 4), (.mor 0 15 0 (some 1), 9), (.mnot 0 0 (some 0x40), 3)] = true ∧
    illegals (shapeR 16384 2) [(.vadd 0 0 0 8 none, 0x0A), (.vneg 0 0 4 none, 0x0A), (.mor 0 0 0 none, 0x0A)] = true ∧
    illegals (shapeR 4097 1) [(.vthr 0 0 0 8 none, 0x0A)] = true ∧
    (isClear (st fixedD (aCore (shapeR 4096 1))) (aCore (shapeR 4096 1)) (.vthr 0 0 0 8 none) &&
      isClear (st fixedD (aCore {})) (aCore {}) (.vadd 39 49 48 8 (some 63))) = true := by decide

/-- VectorOtherSyllablesTrap: each detail of each form, at a boundary. -/
theorem witness_vector_other_traps :
    illegals {} [(.vcmp 0 1 50 0 0 none, 4), (.vcmp 0 1 0 0 9 none, 5), (.vcmp 7 1 0 0 0 none, 6), (.vcmp 6 1 0 0 2 none, 6),
      (.vcmp 0 1 0 0 0 (some 1), 6), (.vcas 40 0 0 0 none, 4), (.vcas 37 0 0 0 none, 6), (.vcas 38 0 0 0 none, 6),
      (.vcvt 0 49 0 0 1 none, 4), (.vcvt 0 0 3 0 1 none, 5), (.vcvt 0 0 1 0 5 none, 5), (.vwid 0 0 9 2 none, 5),
      (.vwid 0 0 9 0 (some 16), 3), (.vhist 0 0 1 none, 5), (.vhist 0 0 2 (some 1), 6), (.mpop 0 16 none, 4),
      (.mpop 0 0 (some 1), 6), (.mpop 0 0 (some 0x40), 3), (.vsumr 39 0 0 (some 1), 9), (.vrenorm 0 0 2 none, 5)] = true ∧
    illegals (shapeR 257 1) [(.vtrn 0 0 8 none, 0x0A)] = true ∧
    illegals (shapeR 8193 2) [(.vcvt 0 0 3 0 9 none, 0x0A), (.vwid 0 0 11 1 none, 0x0A)] = true ∧
    isClear (st fixedD (aCore (shapeR 256 1))) (aCore (shapeR 256 1)) (.vtrn 0 0 8 none) = true := by decide

/-- A core of those tile configurations on which the operations `fs` are in flight, with loading bits `load`. -/
def matrixC (load grad : Bool) (fs : List Flight) : Core :=
  { aCore (tileR.writeG 1 256) with flights := fs, arr := {
      desc := (Vector.replicate 32 0x7FF#32).set 4 (if load then 0xFFF else 0x7FF), grad := grad } }

/-- MatrixSyllablesTrap: each illegal detail, and each timing detail of an exact launch. -/
theorem witness_matrix_traps :
    let pass (i : Instr) (t : Nat) : Flight :=
      { uid := 7, instr := i, issue := t, seqno := t, cls := 3, bundle := 0, pos := 0, rows := 1, tcfg := 3 }
    illegals (tileR.writeG 1 256) [(.wld 0 3 0 5, 6), (.wld 0 3 3 5, 6), (.wld 3 1 0xFF 5, 6), (.wset 3 0 5, 6), (.mma 2 1 0, 4),
      (.mmaz 0 16 0, 4), (.mma 0 0 0, 6), (.mma 0 2 1, 6), (.mmag 16 0 0, 4), (.mmag 1 3 0, 6), (.mtag 16 0, 4), (.mtag 0 49, 4),
      (.mdrn 40 0 0 0, 4), (.mdrn 0 0 0 5, 5), (.mdrn 0 0 1 0, 6), (.mgdrn 0 32 0 0, 6), (.mgdrn 0 0 0 2, 5), (.mmiss 40, 4)] = true ∧
    trapsAt (st fixedD (matrixC true true [pass (.mma 0 1 0) 1000, pass (.wld 0 3 1 5) 873]))
      [(.wld 0 0 2 5, 4, 0x0B), (.wset 0 2 5, 4, 0x0C), (.mma 0 1 0, 4, 0x0B), (.mdrn 0 0 0 0, 4, 0x0E)] = true ∧
    trapsAt (st fixedD (matrixC true true [pass (.mma 0 1 0) 860, pass (.wld 0 3 1 5) 872]))
      [(.wld 0 0 2 5, 4, 0x0C), (.mmaz 0 1 0, 4, 2), (.mma 0 1 0, 4, 0x0E)] = true ∧
    trapsAt (st fixedD (matrixC false false [])) [(.mmag 2 3 0, 4, 0x0E), (.mgdrn 0 0 0 0, 4, 0x0E)] = true := by decide

/-- MatrixSyllablesTrap: what an interlocked launch waits on: a loading slot, a busy store, and scales that are short. -/
theorem witness_matrix_waits :
    let c := matrixC true false [{ uid := 7, instr := .mma 0 1 0, issue := 1000, seqno := 999, cls := 3, bundle := 0, pos := 0
                                   rows := 1, tcfg := 3 }]
    ([Instr.mpat 0, .mtag 1 0, .mzero 0, .mdrn 0 0 0 0, .mmaz 0 1 0].all fun i =>
      timingHolds ((held fixedD c).ctx c) c [(0, i)] && timingCode ((held fixedD c).ctx c) c i == none) = true ∧
    scalesShort ((held fixedD (aCore {})).ctx (aCore {})) (aCore {}) (.mma 0 0 0) = true ∧
    storeBusy { c with flights := c.flights.map fun f => { f with issue := 860 } } 1000 1001 = false ∧
    storeBusy { c with flights := c.flights.map fun f => { f with issue := 861 } } 1000 1001 = true := by decide

/-- LoadsTrap, StoresTrap, HostTransfersIssue, EngineSyllablesTrap: each illegal detail of each form, at a boundary. -/
theorem witness_transfer_traps :
    let r := (((((handleR 2).writeG 1 1).writeG 2 2).writeG 3 4).writeG 4 65537).writeG 5 0x3FFFF8
    let tile : Regs := { r with tcfg := r.tcfg.set 1 5 |>.set 2 (3 + 64 * 2 ^ 16) }
    illegals { r with shape := 0x20001 } [(.ld 40 0 0 0 0, 4), (.ld 0 1 0 0 1, 6), (.ld 0 3 2 0 2, 6), (.st 49 0 0 0 0, 4),
      (.st 0 2 0 0 2, 6), (.lds 0 3 0 none, 6), (.sts 0 0 9 none, 6), (.sqld 0 0 none, 6), (.sqld 0 0 (some 3), 6),
      (.sqld 5 9 none, 6)] = true ∧
    illegals tile [(.ldh 0 1 0 0, 6), (.sth 0 1 0 0, 6), (.ldt 1 0 0 0, 6), (.ldt 16 0 0 0, 4), (.stt 1 0 0 0, 6),
      (.ldth 2 1 0, 6), (.stth 2 1 0, 6), (.ldm 16 0 0, 4), (.stm 16 0 0, 4)] = true ∧
    illegals (shapeR 16384 2) [(.ld 0 0 0 0 0, 0x0A), (.st 0 0 0 0 0, 0x0A), (.ldm 0 0 0, 0x0A), (.stm 0 0 0, 0x0A)] = true ∧
    illegals r [(.dput 0 0 4, 6), (.dred 0 0 3 3 0 none, 6), (.dred 0 0 2 0 0 none, 6), (.dred 2 0 3 0 0 none, 6),
      (.dgln 3 0 0 0, 6), (.dgln 0 0 0 5, 6), (.dgln 0 1 0 0, 6), (.dhget 0 0 0 0, 6), (.dhput 5 0 4 0, 6), (.amo 2 0 0 0, 6),
      (.amor 0 0 2 0 0, 6), (.dcan 0, 6), (.chrd 0 0 3 0, 6), (.chrdHandle 0 0 1 0 0, 6), (.chwrHandle 0 0 1 0, 6)] = true ∧
    illegals (r.writeH 1 (BitVec.ofNat 64 (2 ^ 54)) 0) [(.dcp 0 1 0 0, 6)] = true := by decide

set_option maxRecDepth 20000 in
/-- LoadsTrap, StoresTrap, EngineSyllablesTrap: needs that are not met and a 769th operation trap in an exact launch; an
interlocked one waits on the needs, and traps on the 769th. -/
theorem witness_transfer_timing :
    let f : Flight := { uid := 7, instr := .ldm 0 0 0, issue := 999, seqno := 999, cls := 4, bundle := 0, pos := 0
                        streams := [{ eff := .regWrite, first := 1001, n := 1 }] }
    let with_ (n : Nat) : Core := { aCore { handleR 2 with shape := 0x10000 } with flights := List.replicate n f }
    let needs : List Instr := [.ldh 0 1 3 0, .ldth 0 1 3, .sth 0 1 3 0, .stth 0 1 3, .dcp 0 1 3 0, .dcp 0 1 3 1]
    trapsAt (st fixedD (with_ 0)) (needs.map fun i => (i, 4, 1)) = true ∧
    (needs.all fun i => timingHolds ((held fixedD (with_ 0)).ctx (with_ 0)) (with_ 0) [(0, i)]) = true ∧
    (with_ 768).inFlight 1000 = 768 ∧ (with_ 768).inFlight 1001 = 0 ∧
    isClear (st fixedD (with_ 767)) (with_ 767) (.ldm 0 0 0) = true ∧
    trapsAt (held fixedD (with_ 768)) [(.ldm 0 0 0, 4, 0x0F), (.sts 0 0 0 none, 4, 0x0F), (.dput 0 0 0, 4, 0x0F)] = true := by
  decide

/-- ChannelChecks: the rows that the changes to fragment 10.1 fail (R228), and the others' boundaries. -/
theorem test_channel_rows :
    let h0 : Chan := {}
    let h := h0.apply .act 4 256 256
    let col := h.apply .rd 4 269 0
    let shut := (h.apply .rd 4 299 0).apply .pre 4 303 0
    let wr := h.apply .wr 4 269 0
    let all := { h0 with ref := some 300 }
    (h.check .rd 4 268 268 = some 5 ∧ h.check .rd 4 269 269 = none ∧ col.check .rd 4 270 270 = some 6 ∧
      col.check .rd 4 271 271 = none ∧ h.check .act 5 258 258 = some 3 ∧ h.check .act 5 260 260 = none ∧
      h.check .act 8 258 258 = none ∧ h0.check .act 4 254 254 = some 0x0C) ∧
    ((h.apply .rd 4 299 0).check .pre 4 302 302 = some 8 ∧ (h.apply .rd 4 299 0).check .pre 4 303 303 = none ∧
      shut.check .refb 4 315 315 = some 9 ∧ shut.check .refb 4 316 316 = none) ∧
    (let r := shut.apply .refb 4 316 0
     r.check .act 4 451 451 = some 1 ∧ r.check .act 4 452 452 = none ∧ r.check .act 9 322 322 = some 0x0B ∧
      r.check .act 9 323 323 = none ∧ r.check .pre 4 400 400 = some 1 ∧ r.check .pra 0 400 400 = none) ∧
    (wr.check .rd 5 276 276 = some 1 ∧ wr.check .rd 4 276 276 = some 7 ∧ wr.check .rd 4 277 277 = none ∧
      wr.check .pre 4 283 283 = some 8 ∧ wr.check .wr 4 4091 4091 = none ∧ wr.check .wr 4 4092 4092 = some 0x0C ∧
      wr.check .rd 4 4088 4088 = some 0x0C) ∧
    all.check .ref 0 597 597 = some 9 ∧ all.check .ref 0 598 598 = none ∧ h.check .ref 0 600 600 = some 9 := by decide

/-- ChannelRecords, ColumnCommandsIssue: what the commands leave, and the row page of two reads with one tag, of one with
another and of one without; column 15 into a handle is a producer. -/
theorem test_column_pages :
    let c := openC 970
    let next (c : Core) (i : Instr) : Core := (after (st fixedD c) i).getD c
    let pages (c : Core) : List (Nat × Nat) := (c.chan.bank 29).pages
    let c1 := { next c (.chrdHandle 29 14 2 1 3) with chan := (next c (.chrdHandle 29 14 2 1 3)).chan.setBank 29 fun b =>
      { b with pages := [(3, 990)] } }
    isClear (st fixedD c) c (.chrdHandle 29 15 2 1 3) = true ∧
    pages (next c (.chrdHandle 29 15 2 1 3)) = [(3, 1000)] ∧ pages (next c (.chrd 29 15 4 0)) = [] ∧
    ((next c (.chrdHandle 29 15 2 1 3)).flights.map fun f => (f.prod, f.page)) = [(true, 1000)] ∧
    ((next c (.chrdHandle 29 14 2 1 3)).flights.map fun f => (f.prod, f.page)) = [(false, 1000)] ∧
    ((next c (.chrd 29 15 4 3)).flights.map fun f => (f.prod, f.page)) = [(false, 1000)] ∧
    pages { c1 with chan := (c1.chan.apply .pre 29 1010 0) } = [] ∧ pages c1 = [(3, 990)] := by decide

/-! ## Witnesses: the timetable and the launch -/

/-- A module with the launch `la` and the cores `cs`. -/
def lm (la : Launch) (cs : List Core) : State :=
  { State.reset with now := 1000, cores := cs, launches := [la], parts := [aPart] }

/-- The core after a fend in cycle `t`. -/
def fendC (t : Nat) : Core := { aCore {} with seq := { fend := some t } }

theorem mergeC_canonical : (mergeC [aRec]).canonical := by
  simp [Core.canonical, VecFile.canonical, ArrayState.canonical, mergeC, aCore, Mem.wf]

/-- FurrowOrigin: a launch whose origin is now, on a core that has not overrun and on one that has; an interlocked one. -/
theorem witness_furrow_origin :
    let li : Launch := { aLaunch 0x80000000000003E7 with interlocked := true }
    (lm li [aCore {}]).nextOrigin li = some 1000 ∧ li.phase = .running ∧ descElastic (li.descOf (successorOf li [aCore {}]).2) = false ∧
    li.doneOf (successorOf li [aCore {}]).2 = false ∧ 2 ∈ ({ aCore {} with seq := { checked := [2] } } : Core).seq.checked ∧
    let la : Launch := { aLaunch fixedD with next := some 1000 }
    (lm la [fendC 990]).launch? ⟨1, 0⟩ = some la ∧ la.phase = .running ∧ (lm la [fendC 990]).nextOrigin la = some 1000 ∧
    descElastic (la.descOf (successorOf la [fendC 990]).2) = false ∧ la.doneOf (successorOf la [fendC 990]).2 = false ∧
    (fendC 990).seq.stuck = false ∧ 2 ∉ (fendC 990).seq.checked := by decide

/-- FurrowEntries: without a headland a core that falls through to a bundle, to a fill, to a word with S = 0 and past the store;
with one, an entry of a valid successor, one that is not valid, and one of a furrow that is not there; a block that was
read in time and one that was not, in an elastic and in a fixed furrow. -/
theorem witness_entries :
    let at_ (pc : Nat) : Core := { aCore {} with code := [0xF0000000, 0x10000000], seq := { pc := pc } }
    let table (w : BitVec 32) : Core := { aCore {} with code := [0xF0000000], ftab := [(0, w)] }
    let li : Launch := { aLaunch 0x80000000000003E7 with next := some 1000 }
    let lh : Launch := { aLaunch elasticD with next := some 1000 }
    let noted (last : Nat) (z : Option Nat) : Core := { aCore {} with net := { notes := [⟨0, last, 0⟩] }, seq := { fend := z } }
    ((lm li [at_ 0]).launch? ⟨1, 0⟩ = some li ∧ (lm li [at_ 0]).nextOrigin li = some 1000 ∧ descHeadland li.desc = false ∧
      (at_ 0).trap = none ∧ (at_ 0).phys.sysMode = false ∧ (at_ 0).seq.stuck = false ∧ 2 ∉ (at_ 0).seq.checked) ∧
    ((at_ 0).code.getD 0 0xFFFFFFFF = 0xF0000000#32 ∧ (0xF0000000#32).getLsbD 31 = true ∧
      (at_ 2).code.getD 2 0xFFFFFFFF = 0xFFFFFFFF#32 ∧ ((at_ 1).code.getD 1 0xFFFFFFFF).getLsbD 31 = false ∧
      65535 < (at_ 65536).seq.pc) ∧
    ((lm lh [table 0x80000000]).nextOrigin lh = some 1000 ∧ descHeadland lh.desc = true ∧
      (look 0#32 (table 0x80000000).ftab 0).getLsbD 31 = true ∧ (lh.descOf 0).getLsbD 63 = true ∧
      (look 0#32 (table 0).ftab 0).getLsbD 31 = false ∧ (lh.descOf 1).getLsbD 63 = false) ∧
    (li.desc.getLsbD 37 = false ∧ li.origin + (li.desc.toNat % 2 ^ 24 + 1) < 929 + 72 ∧
      ¬li.origin + (li.desc.toNat % 2 ^ 24 + 1) < 928 + 72 ∧ lh.desc.getLsbD 37 = true) ∧
    (∃ d ∈ [noted 969 (some 1000)], ∃ y ∈ d.net.notes, y.dest = 0 ∧ ∃ z, d.seq.fend = some z ∧ z < y.last + 32) ∧
    (noted 968 (some 1000)).net.notes.all (fun y => decide (¬1000 < y.last + 32)) = true := by
  intro at_ table li lh noted
  have entry : (noted 969 (some 1000)).net.notes = [⟨0, 969, 0⟩] ∧ (1000 : Nat) < 969 + 32 := by decide
  refine ⟨by decide, by decide, by decide, by decide, ⟨_, List.mem_cons_self, ⟨0, 969, 0⟩, ?_, rfl, 1000, rfl, entry.2⟩, by decide⟩
  exact entry.1 ▸ List.mem_cons_self

/-- A core with a head of target `t` and a prep of its byte 0, in field cycle `fc` of the furrow. -/
def headC (i fc : Nat) (t : BitVec 32) : Core :=
  { aCore {} with index := i, seq := { head := some ⟨1000, 1000, 1, 0, t⟩, preps := [⟨1, 0, fc⟩] } }

/-- LaunchTimetable: a join 40 cycles after its last fend, in a furrow marked .done and not; a headland without a head,
one whose prep is late, and two cores whose hashes differ. -/
theorem witness_timetable :
    let d : Launch := { aLaunch elasticD with furrows := [{ num := 0, desc := elasticD, done := true }] }
    (lm (aLaunch elasticD) [fendC 960]).launch? ⟨1, 0⟩ = some (aLaunch elasticD) ∧ lastFend [fendC 960] = some 960 ∧
    descElastic (aLaunch elasticD).desc = true ∧ (aLaunch elasticD).doneOf 0 = false ∧ d.doneOf d.furrow = true ∧
    (aLaunch fixedD).phase = .running ∧ descHeadland (aLaunch fixedD).desc = true ∧ (aLaunch fixedD).compared = false ∧
    deciderHead (aLaunch fixedD) [fendC 960] = none ∧
    (deciderHead (aLaunch fixedD) [headC 0 984 0]).map (·.target) = some 0 ∧
    firstDiffering 0 [headC 0 984 0] = none ∧ firstDiffering 0 [headC 0 984 0, headC 1 984 1] = some 1 ∧
    firstDiffering 0 [headC 0 985 0, headC 1 984 1] = some 1 ∧
    prepTimely ((st fixedD (aCore {})).ctx (aCore {})) 0 ⟨1000, 1000, 1, 0, 0⟩ (headC 0 984 0).seq = true ∧
    prepTimely ((st fixedD (aCore {})).ctx (aCore {})) 0 ⟨1000, 1000, 1, 0, 0⟩ (headC 0 985 0).seq = false := by decide

/-- FirstOrigin: alone, beside another launch at a multiple of 4,096, off it, and at its fixed origin. -/
theorem witness_first_origin :
    let la (p : Phase) : Launch := { aLaunch fixedD with phase := p }
    let two (p : Phase) (base : Nat) : State :=
      { lm (la p) [] with launches := [la p, { aLaunch fixedD with id := ⟨1, 1⟩ }], parts := [{ aPart with base := base }] }
    (lm (la (.preparing 1000)) []).launch? ⟨1, 0⟩ = some (la (.preparing 1000)) ∧
    ((lm (la (.preparing 1000)) []).part? 1) = some aPart ∧
    (¬∃ y ∈ (lm (la (.preparing 1000)) []).launches, y.id ≠ ⟨1, 0⟩ ∧ y.id.part = 1 ∧ y.onCount = true) ∧
    (∃ y ∈ (two (.preparing 1000) 1000).launches, y.id ≠ ⟨1, 0⟩ ∧ y.id.part = 1 ∧ y.onCount = true) ∧
    nextAligned 1000 1000 = 1000 ∧ nextAligned 999 1000 ≠ 1000 ∧
    (two (.starting 1000) 0).launch? ⟨1, 0⟩ = some (la (.starting 1000)) := by decide

/-- FirstOrigin: a furrow table with an entry of furrow 0 and one without. -/
theorem witness_first_entry :
    let c : Core := { aCore {} with ftab := [(0, 0x80000005)] }
    (look 0#32 c.ftab 0).getLsbD 31 = true ∧ ((aLaunch fixedD).descOf 0).getLsbD 63 = true ∧
    (look 0#32 (aCore {}).ftab 0).getLsbD 31 = false := by decide

/-- Completion, FillAndWindow: a launch whose last furrow ended in this cycle, with a completion counter and without;
one with a fill that ends in this cycle, of a body that is not resident and of one that is. -/
theorem witness_completion :
    let la : Launch := { aLaunch fixedD with ended := some 1000, done := 255 }
    let f : Fill := { core := 0, place := 0, fill := 0, ready := 1000 }
    let fill : Launch := { aLaunch fixedD with phase := .queued, fills := [f] }
    let there : State := { lm fill [] with resident := [(fill.body 0, [])] }
    (lm la [aCore {}]).launch? ⟨1, 0⟩ = some la ∧ (lm la [aCore {}]).part? 1 = some aPart ∧
    (lm la [aCore {}]).furrowEnd la = some 1000 ∧ (∀ c ∈ (lm la [aCore {}]).coresOf ⟨1, 0⟩, c.quiet = true) ∧
    (lm fill []).launch? ⟨1, 0⟩ = some fill ∧ there.launch? ⟨1, 0⟩ = some fill ∧
    fill.fills.find? (fun e => e.core == 0 && e.place == 0 && e.fill == 0 && decide (e.ready ≤ 1000)) = some f ∧
    (lm fill []).codeOf (fill.body 0) = none ∧ there.codeOf (fill.body 0) ≠ none ∧
    ((lm fill []).physOf (fill.body 0).at_).hbm.wf 0 = true ∧ (lm fill []).part? (1#8).toNat = some aPart := by
  decide

/-- FillAndWindow: a fill whose window holds a unit that cannot be corrected. -/
theorem witness_fill_lost :
    let f : Fill := { core := 0, place := 0, fill := 0, ready := 1000 }
    let la : Launch := { aLaunch fixedD with phase := .queued, fills := [f] }
    let code : Sheaf := { id := 0, bytes := [], funcs := [{ units := [{ common := { code := [0xF0000000] } }] }] }
    let s : State := { lm la [] with
      parts := [{ aPart with sheaves := [code] }], idle := [(0, { flips := [(7, 0x7800000, 0x0001000000000001)] })] }
    s.launch? ⟨1, 0⟩ = some la ∧ s.codeOf (la.body 0) = none ∧
    (s.physOf (la.body 0).at_).lost 7 (windowByte (s.physOf (la.body 0).at_) f.entry)
      (4 * (s.joinedOf la 0).elim 0 fun j => j.code.length) ≠ [] := by decide

/-! ## Witnesses: traps, stops and restarts -/

/-- A core with a trap of cause `k` raised in cycle `t`. -/
def trapC (k t : Nat) : Core := { aCore {} with trap := some { cause := k, raised := t } }

/-- FirstTrap: a launch that runs and one that does not; no record; records of an earlier cycle and of this one, with a
lower and a higher cause, and with the same one at a lower and at a higher position of a bundle. -/
theorem witness_traps :
    let o : TrapRec := { cause := 9, raised := 1000, bundle := some 0, pos := 2 }
    (aCore {}).phys.sysMode = false ∧ (sysCore {}).phys.sysMode = true ∧ (aCore {}).trap = none ∧
    ((st fixedD (aCore {})).ctx (aCore {})).la.phase = .running ∧ (aLaunch fixedD).phase ≠ .stopped ∧
    (trapC 9 999).trap.map (·.raised) = some 999 ∧ ((st fixedD (aCore {})).ctx (aCore {})).now = 1000 ∧
    (trapC 9 1000).trap.map (·.raised) = some 1000 ∧ (9 : Nat) < 10 ∧ (8 : Nat) < 9 ∧
    (({ o with pos := 1 } : TrapRec).kind = 0 ∧ o.kind = 0 ∧ ({ o with pos := 1 } : TrapRec).bundle = o.bundle ∧ 1 < o.pos) ∧
    ¬(o.pos < o.pos) ∧ (lm (aLaunch fixedD) [trapC 9 984]).stopOf ⟨1, 0⟩ = some 1000 := by decide

/-- FirstTrap: in system code a fault of a syllable that names a counter, and of one that names none. -/
theorem witness_names :
    ((sysCore {}).preciseTrap (.dhget 1 2 3 4) 4 0x0A).names = true ∧ ((sysCore {}).preciseTrap (.mtc 1 0) 1 6).names = false := by
  decide

/-- A core whose watchpoint 1 takes writes of class W at the last byte of word 1, and watchpoint 3 those at both its ends. -/
def watchC : Core :=
  { aCore {} with wp := (((Vector.replicate 8 0).set 2 16).set 3 0x8000000B |>.set 6 16).set 7 0x8001000B }

/-- WatchpointMatch: nothing enabled; watchpoint 1 hit and 0 not; an access that also hits watchpoint 3. -/
theorem witness_watchpoints :
    (aCore {}).wp[1].getLsbD 0 = false ∧ (aCore {}).wp[7].getLsbD 0 = false ∧ watchC.wp[1].getLsbD 0 = false ∧
    watchC.wp[3].getLsbD 0 = true ∧ watchC.wp[3].getLsbD 1 = true ∧ watchC.wp[3].getLsbD 3 = true ∧ (15 : Nat) < 16 ∧
    watchC.wp[3].getLsbD (16 + 15) = true ∧ watchC.wp[2].toNat / 16 % 2 ^ 18 * 16 + 15 ∈ [16, 31] ∧
    watchC.watchMask 1 true .core [16, 31] = 2 ^ 15 ∧ watchC.watchMask 3 true .core [16, 31] = 2 ^ 15 + 1 ∧
    watchC.trap = none ∧ watchC.phys.sysMode = false ∧ ((st fixedD watchC).ctx watchC).la.phase = .running := by decide

/-- A core with the wrong bits `f` in unit `u` of array `a`. -/
def flippedC (a u : Nat) (f : Word) : Core := { aCore {} with phys := { flips := [(a, u, f)] } }

/-- FlippedUnits: one wrong bit and two of a scratchpad unit; one wrong symbol and two of a channel unit; a unit that
checks; logs that hold nothing, a corrected error of an earlier cycle and one of this cycle. -/
theorem witness_flips :
    let c := flippedC 0 5 1
    let log (t : Nat) (a : Word) : ErrLog := { valid := true, at_ := t, addr := a }
    c.phys.flips.find? (fun e => e.1 == 0 && e.2.1 == 5) = some (0, 5, 1) ∧
    c.phys.flips.find? (fun e => e.1 == 0 && e.2.1 == 6) = none ∧ (1 : Word) = 1#64 <<< 0 ∧
    c.phys.corrects 0 5 = true ∧ (flippedC 0 5 3).phys.corrects 0 5 = false ∧
    (flippedC 7 5 0xFFFF000000000000).phys.corrects 7 5 = true ∧ (flippedC 7 5 0x0001000000000001).phys.corrects 7 5 = false ∧
    (7 : Nat) < 8 ∧ (c.err 0).valid = false ∧ (log 999 80).at_ ≠ ((st fixedD c).ctx c).now ∧
    (log 1000 80).at_ = ((st fixedD c).ctx c).now ∧ c.errAddr 0 5 < (log 1000 80).addr.toNat ∧
    ¬c.errAddr 0 5 < (log 1000 40).addr.toNat ∧ (log 999 80).unc = false := by decide

/-- A core with a record on the mesh, a dput of which one block of two is read, and two dhputs whose read blocks the host
has not, the second in a batch behind the first one's, which has a block left to read. -/
def cutC (c : Core) : Core :=
  let f : Flight := { uid := 3, instr := .dput 0 0 0, issue := 990, seqno := 990, cls := 6, bundle := 0, pos := 0, len := 128
                      bytes := List.replicate 64 1, streams := [{ eff := .sendRead, first := 994, k := 1, n := 2 }] }
  { c with
    net := { out := [aRec], closed := [[4]], openBatch := [5] }
    flights := [f, { f with uid := 4, instr := .dhput 0 0 0 0 }, { f with uid := 5, instr := .dhput 0 0 0 0, len := 64, streams := [] }]
    chan := c.chan.apply .act 29 990 5 }

/-- Stops: a trap 16 cycles old, a thermal request, and one of a class-0 launch that waits, at an origin; with a record on
the mesh, a send that the stop cuts, a dhput and an open row. -/
theorem witness_stops :
    let hot : Launch := { aLaunch fixedD with yield_ := some .thermal, turned := some 1000 }
    let way : Launch := { aLaunch fixedD with yield_ := some (.class0 ⟨1, 1⟩), turned := some 1000 }
    let z : Launch := { aLaunch fixedD with id := ⟨1, 1⟩, cls := 0, phase := .queued }
    let c := cutC (aCore {})
    (lm (aLaunch fixedD) [trapC 9 984]).launch? ⟨1, 0⟩ = some (aLaunch fixedD) ∧
    (lm (aLaunch fixedD) [trapC 9 984]).part? 1 = some aPart ∧
    (lm (aLaunch fixedD) [trapC 9 984]).stopOf ⟨1, 0⟩ = some 1000 ∧
    (lm hot [aCore {}]).launch? ⟨1, 0⟩ = some hot ∧ hot.yield_ ≠ none ∧ (lm hot [aCore {}]).stopOf ⟨1, 0⟩ = none ∧
    (lm hot [aCore {}]).waiting hot.yield_ = none ∧
    ({ lm way [aCore {}] with launches := [way, z] } : State).waiting way.yield_ = some z ∧
    aRec ∈ c.net.out ∧ aRec.dest = c.index ∧
    (∃ f ∈ c.flights, f.instr = .dput 0 0 0 ∧ f.bytes ≠ [] ∧ f.bytes.length ≠ f.len ∧ f.d = c.index) ∧
    (∃ f ∈ c.flights, f.instr = .dhput 0 0 0 0 ∧ f.uid ∈ c.net.closed.flatten ∧ f.moved < f.bytes.length ∧
      f.streams.any (fun t => decide (t.k < t.n)) = true) ∧
    (∃ f ∈ c.flights, f.instr = .dhput 0 0 0 0 ∧ f.uid ∈ c.net.openBatch) ∧ (c.chan.bank 29).row = some 5 ∧
    (((lm (aLaunch fixedD) [trapC 9 984]).coresOf ⟨1, 0⟩).map (·.index)).Nodup := by
  refine ⟨by decide, by decide, by decide, by decide, by decide, by decide, by decide, by decide, by decide, by decide,
    ⟨(cutC (aCore {})).flights[0], by decide⟩, ⟨(cutC (aCore {})).flights[1], by decide⟩,
    ⟨(cutC (aCore {})).flights[2], by decide⟩, by decide, by decide⟩

/-- Stops: of those two dhputs the one whose batch is the oldest reaches the host. -/
theorem test_stop_keeps_batches :
    ((cutC (aCore {})).flushPuts ((st fixedD (cutC (aCore {}))).ctx (cutC (aCore {})))).1.length = 1 := by decide

/-- ImagesAreWritten: a core in canonical form, and savemasks with every group, with every line, and with none, under a
landing area of two units where the launch has one. -/
theorem witness_images : (aCore {}).canonical ∧ (0x100000#64 : Word).getLsbD 20 = true ∧
    (0x100400#64 : Word).toNat % 2 ^ 11 ≤ 1024 ∧ (0x3E0000 : Nat) ≤ 4194304 ∧
    0x3EFFFF < ((st fixedD (aCore {})).ctx (aCore {})).landBase ∧ ¬0x3EFFFF < (0#64 : Word).toNat % 2 ^ 11 * 4096 := by
  refine ⟨?_, by decide, by decide, by decide, by decide, by decide⟩
  simp [Core.canonical, VecFile.canonical, ArrayState.canonical, aCore, Mem.wf]

/-- Saves: a save that is over, with a record of a terminating cause, of one that is not, and of a pre-emption; a
footprint's save and its restore; the earliest record. -/
theorem witness_saves :
    let la : Launch := { aLaunch fixedD with phase := .saving 1000 }
    let s (k : Nat) : List Core := ((lm la [trapC k 984]).saveImages ⟨1, 0⟩ 0x100000 0x3F0000).coresOf ⟨1, 0⟩
    let foot (p : Phase) : Launch :=
      { aLaunch fixedD with phase := p, footprinted := true, yield_ := some (.class0 ⟨1, 1⟩), footUntil := some 1000 }
    let hot : State := { lm { la with yield_ := some .thermal } [] with mgmt := { hot := true } }
    (lm la [trapC 1 984]).launch? ⟨1, 0⟩ = some la ∧ la.footprinted = false ∧ hot.mgmt.hot = true ∧
    ((s 1).any fun c => c.trap.any fun t => terminating t.cause) = true ∧
    ((s 0x14).all fun c => c.trap.all fun t => !terminating t.cause && t.cause != 0x11) = true ∧
    ((s 0x11).all fun c => c.trap.all fun t => !terminating t.cause) = true ∧
    ((s 0x11).any fun c => c.trap.any fun t => t.cause == 0x11) = true ∧
    (lm (foot (.saving 1000)) []).footprints ⟨1, 1⟩ ≠ [] ∧ (lm (foot (.saving 1000)) []).yielding ⟨1, 1⟩ = false ∧
    ((lm (foot (.saving 1000)) []).footprints ⟨1, 1⟩).all (fun y => decide (y.2 ≤ 1000)) = true ∧
    (foot .queued).footUntil.any (fun u => decide (u ≤ 1000)) = true ∧
    ((s 1)[0]?.bind (·.trap)).map (·.raised) = some 984 ∧ (((s 1).map (·.index)).Nodup) := by decide

/-- Saves: a dhget with bytes still to come, and one whose bytes are written. -/
theorem witness_gathered :
    let c (n : Nat) : Core := flying (.dhget 0 0 0 5) .sendRead 6 fun f => { f with len := 64, moved := n, open_ := true }
    let foot : Launch := { aLaunch fixedD with
      phase := .saving 1000, footprinted := true, yield_ := some (.class0 ⟨1, 1⟩), footUntil := some 1000 }
    ((lm foot [c 63]).coresOf ⟨1, 0⟩).any (fun d => d.flights.any fun f => f.open_ && decide (f.moved < f.len)) = true ∧
    ((lm foot [c 64]).coresOf ⟨1, 0⟩).all (fun d => d.flights.all fun f => decide (f.len ≤ f.moved)) = true ∧
    ((lm foot [c 63]).footprints ⟨1, 1⟩).map (·.1.id) = [⟨1, 0⟩] := by decide

/-- RestartEvents: a restore that is over on a core whose code page is mapped; a closed bank at its cycle of the preamble;
the restart cycle once it is open, with an addition held and none. -/
theorem witness_restart :
    let c : Core := { aCore {} with phys := { hbm := [(0x3C000000, 1)] } }
    let la (p : Phase) : Launch := { aLaunch fixedD with phase := p }
    let s : State := { lm (la (.restoring 1000)) [c] with resident := [((la .running).body 0, [])] }
    let shut : Core := { aCore {} with chan := ({} : Chan).setBank 29 fun b => { b with row := some 5, shut := true } }
    let back : Launch := { la (.restarting 1000) with held := [(0, 1, 5)] }
    s.launch? ⟨1, 0⟩ = some (la (.restoring 1000)) ∧ s.part? 1 = some aPart ∧ aPart.base ≤ s.now ∧
    let e : Nat × TlbEntry := (0, { ctx := (s.physOf 0).ctxid, page := codePage (s.physOf 0), entry := 1 })
    entryOk e.2.entry = true ∧ ([e] : List (Nat × TlbEntry)).length ≤ 32 ∧ e.1 = plotOf (c.physNo % 32) (c.physNo / 32) ∧ c.physNo = 0 ∧
    s.resides (la (.restoring 1000)) = true ∧ s.tlb = [] ∧ s.coresOf ⟨1, 0⟩ = [c] ∧ c.phys.flips = [] ∧
    entryOk (BitVec.ofNat 64 (leNat ((s.physOf c.physNo).hbm.bytes 0 (pageEntryAt (s.physOf c.physNo) (codePage (s.physOf c.physNo))) 8))) = true ∧
    (lm (la (.restarting 1064)) [shut]).launch? ⟨1, 0⟩ = some (la (.restarting 1064)) ∧ (shut.chan.bank 29).row ≠ none ∧
    (shut.chan.bank 29).shut = true ∧
    1064 - 64 - 4 * ((List.range 30).countP fun j => 29 < j && (shut.chan.bank j).row.isSome) ≤ 1000 ∧
    (lm back [aCore {}]).launch? ⟨1, 0⟩ = some back ∧ (∀ k, k < 30 → ((aCore {}).chan.bank k).shut = false) ∧
    back.held ≠ [] ∧ (la (.restarting 1000)).held = [] := by decide

/-! ## Witnesses: the management endpoint -/

/-- The header of command number `n` with a body of `b` bytes. -/
def hd (n : BitVec 48) (b : BitVec 32 := 0) : Hdr := { tag := 5, csn := n, blen := b }

/-- A module whose management endpoint is ready at X = 8; with firmware ready or without. -/
def mgmtUp (fw : Bool) : Mgmt :=
  { x := 8, powered := true, fw := fw, ready := (Vector.replicate 6 0).set 0 (if fw then 7 else 1) }

/-- The management endpoint with plot 0 and its channel group ready as well. -/
def upM : Mgmt := { mgmtUp true with ready := ((Vector.replicate 6 0).set 0 7).set 1 1 |>.set 2 1 }

/-- That module with the launch `la` and images `cs` of it. -/
def up (la : Launch) (cs : List Core) : State := { lm la [] with images := cs, mgmt := upM }

theorem runs_of {s : State} (h : s.mgmt = upM) (e : Bool) : Runs s (hd 9) e := by
  refine ⟨by rw [h]; decide, .inl (by rw [h]; decide), by decide, by decide, by decide, by decide, by decide, by decide,
    by rw [h]; decide⟩

/-- PartitionCommands, LaunchCommands, StateCommands: a command that is executed as it arrives; and one of the few that need no
firmware. -/
theorem witness_runs (la : Launch) (cs : List Core) : Runs (up la cs) (hd 9) false ∧
    Runs { up la cs with mgmt := mgmtUp false } (hd 9) true :=
  ⟨runs_of rfl false, by simp only [Runs]; decide⟩

/-- NumberOrder: an endpoint that is not ready; numbers 1, 2, 65 and 66 ahead, 0 and 2^47 ahead, and number 0; with
firmware and without; every command of which a clause tells, and headers that fail at each field. -/
theorem witness_command_order :
    headerOf (.createPartition (hd 9) 1 0 0 1 1 false) = some (hd 9) ∧ State.reset.mgmt.usable 0 = false ∧
    (mgmtUp false).usable 0 = true ∧ (mgmtUp false).usable 1 = false ∧ (mgmtUp true).usable 1 = true ∧ ((hd 9).csn ≠ 0) ∧
    aheadOf 8 9 = 1 ∧ aheadOf 8 10 = 2 ∧ aheadOf 8 73 = 65 ∧ aheadOf 8 74 = 66 ∧ aheadOf 8 8 = 0 ∧
    aheadOf 8 (8 + 2 ^ 47) = 2 ^ 47 ∧ aheadOf 8 (7 + 2 ^ 47) < 2 ^ 47 ∧ (∀ q ∈ (mgmtUp false).held, q.1 ≠ 10) ∧
    (hd 0).csn = 0 ∧ (hd 0).res0 = 0 ∧ (hd 0).res1 = 0 ∧ (hd 0).res2 = 0 ∧ (∀ r ∈ (mgmtUp true).kept, r.rsn ≠ 5) ∧ (∀ p ∈ opcodes, p.1 ≠ (0x16#16 : BitVec 16).toNat) ∧ (∃ p ∈ opcodes, p.1 = (0x81#16 : BitVec 16).toNat) ∧
    headerOf (.undefinedCommand (hd 9) 0x16 0x20) = some (hd 9) ∧ (3#16 : BitVec 16).toNat ≤ 3 ∧ (2#16 : BitVec 16).toNat ≤ 2 ∧
    ({ hd 9 with res0 := 1 } : Hdr).res0 ≠ 0 ∧ ({ hd 9 with res1 := 1 } : Hdr).res1 ≠ 0 ∧ ({ hd 9 with res2 := 1 } : Hdr).res2 ≠ 0 ∧
    (hd 9 65536).blen.toNat ≤ 65536 ∧ ¬(hd 9 65544).blen.toNat ≤ 65536 ∧ (hd 9 4).blen.toNat % 8 ≠ 0 := by decide

/-- NumberOrder: a header of the length of its body, and one that is not. -/
theorem witness_fits : Fits (.stateReport (hd 9)) (hd 9) ∧ ¬Fits (.stateReport (hd 9 8)) (hd 9 8) ∧
    Fits (.createPartition (hd 9 8) 1 0 0 1 1 false) (hd 9 8) := by
  refine ⟨fun n h => ?_, fun h => absurd (h 0 rfl) (by decide), fun n h => by simp [bodyLength] at h⟩
  simp only [bodyLength, Option.some.injEq] at h
  subst h; decide

/-- PartitionCommands: partition 63 on plot 0 where none is; the partition of the module, its launch ended or not; legal
window words; a group of one member. -/
theorem witness_partition_commands :
    let e : State := { up (aLaunch fixedD) [] with parts := [], launches := [] }
    let q := up { aLaunch fixedD with phase := .completed } []
    Runs e (hd 9) false ∧ (63#8).toNat ≤ 63 ∧ e.part? 63 = none ∧ rectLegal 0 0 1 1 = true ∧
    (∀ q ∈ plotsOf 0 0 1 1, plotReady e.mgmt q = true) ∧ q.part? (1#8).toNat = some aPart ∧
    (∀ y ∈ q.launches, y.id.part = 1 → y.holds = false) ∧ windowWordLegal 0 0 = true ∧ windowWordLegal 2 0 = true ∧
    windowWordLegal 3 0 = true ∧ (16#8).toNat ∈ [1, 2, 4, 8, 16] ∧ (32#8).toNat ∈ [1, 2, 4, 8, 16, 32] := by
  refine ⟨runs_of rfl false, by decide, by decide, by decide, by decide, by decide, by decide,
    by decide, by decide, by decide, by decide, by decide⟩

/-- A container of R322: its header, then a table of sections (kind, flags, function, core, bytes) at 0x40, then their
bytes. -/
def container (nfunc : Nat) (l : List (Nat × Nat × Nat × Nat × List Byte)) : List Byte :=
  let base := 64 + 16 * l.length
  let at_ (i : Nat) : Nat := base + ((l.take i).map fun e => e.2.2.2.2.length).sum
  [0x53, 0x48, 0x46, 0x01] ++ leBytes 2 1 ++ leBytes 2 l.length ++ leBytes 4 0x40 ++ leBytes 4 nfunc ++ List.replicate 48 0 ++
    (l.zipIdx.flatMap fun e => leBytes 2 e.1.1 ++ leBytes 2 e.1.2.1 ++ leBytes 2 e.1.2.2.1 ++ leBytes 2 e.1.2.2.2.1 ++
      leBytes 4 (at_ e.2) ++ leBytes 4 e.1.2.2.2.2.length) ++ l.flatMap fun e => e.2.2.2.2

/-- The stamp section of R323: the hash of this part, translator version 1. -/
def aStamp : Nat × Nat × Nat × Nat × List Byte := (0x30, 0, 0, 0xFFFF, leBytes 8 0x5C1E93A07D24B68F ++ leBytes 4 1)

/-- R322: a section of an unknown kind is skipped when its flags mark it optional and refused when they do not; an image
that does not begin with the magic is refused, and one cut short. R323: another part's stamp needs a level. -/
theorem test_container :
    let h (kind flags : Nat) : List Byte := container 0 [(kind, flags, 0, 0xFFFF, [])]
    containerRefused (h 0x18 1) = false ∧ containerRefused (h 0x18 0) = true ∧ containerRefused (h 0x17 0) = false ∧
    containerRefused ((h 0x17 0).take 79) = true ∧ containerRefused (0 :: h 0x17 0) = true ∧
    sheafRefused { id := 7, funcs := [], bytes := h 0x22 0 } = false ∧
    sheafRefused { id := 7, funcs := [], bytes := h 0x10 0 } = true ∧
    sheafRefused { id := 7, funcs := [], bytes := container 1 [aStamp] } = true := by decide

/-- A sheaf without functions. -/
def aSheaf : Sheaf := { id := 7, funcs := [], bytes := container 0 [aStamp] }

/-- R323: the stamp and the translator's version are read from the bytes. -/
theorem test_stamp : (loadedSheaf aSheaf).stamp = Config.deviceHash ∧ (loadedSheaf aSheaf).translator = 1 := by decide

/-- R320: a relocation's 16 bytes, and one whose reserved byte is not 0. -/
theorem test_relocation : relocOf (leBytes 4 5 ++ [0x01, 0] ++ leBytes 2 0xFFFF ++ leBytes 4 2 ++ leBytes 4 0xFFFFFFFF) =
      some { syl := 5, type := 1, core := none, sym := 2, addend := -1 } ∧
    relocOf (leBytes 4 5 ++ [0x01, 1] ++ leBytes 2 0xFFFF ++ leBytes 4 2 ++ leBytes 4 0) = none := by decide

/-- LaunchCommands: a sheaf that is new and one that is registered; a queued, an ended, a running and a stopped launch of one
core, resumed on the other core of its partition's plot; contexts that have run. -/
theorem witness_launch_commands :
    let q := up { aLaunch fixedD with phase := .queued } []
    let x := up { aLaunch fixedD with phase := .stopped } []
    let r : State := { q with parts := [{ aPart with sheaves := [aSheaf] }] }
    q.part? (1#8).toNat = some aPart ∧ (∀ y ∈ aPart.sheaves, y.id ≠ aSheaf.id) ∧
    sheafUse (aSheaf :: aPart.sheaves) ≤ sheafArea aPart ∧ sheafRefused aSheaf = false ∧
    (∃ y ∈ ({ aPart with sheaves := [aSheaf] } : Partition).sheaves, y.id = 7) ∧
    (∀ y ∈ r.launches, y.id.part = 1 → y.sheaf = 7 → y.holds = false) ∧
    q.launch? ⟨1, 0⟩ = some { aLaunch fixedD with phase := .queued } ∧
    x.launch? ⟨1, 0⟩ = some { aLaunch fixedD with phase := .stopped } ∧ (aLaunch fixedD).fresh = false ∧ rectInside aPart 1 1 3 1 = (true, true) ∧
    (x.taken (hd 9)).onRect { aLaunch fixedD with phase := .stopped, x0 := 3, y0 := 1 } = [] := by
  refine ⟨by decide, by decide, by decide, by decide, ⟨aSheaf, by decide, rfl⟩, by decide, by decide, by decide,
    by decide, by decide, by decide⟩

/-- SheafAreaReadsBack: a partition of the module, and rows that another sheaf has left. -/
theorem witness_sheaf_area :
    let p : Partition := { aPart with area := [(3, [0, 2])] }
    let s : State := { up (aLaunch fixedD) [] with parts := [p] }
    p ∈ s.parts ∧ s.partsApart ∧ s.canonical ∧ p.rowsFor 1025 = [1, 3] ∧ p.areaRow 1 = (1, 0x3DC00000) := by
  refine ⟨by decide, ⟨by decide, by decide, by decide⟩, ⟨by simp [up, lm], by simp [up], by simp [up, lm, State.reset]⟩,
    by decide, by decide⟩

/-- A sheaf of one function of one core: an elastic furrow marked .done that is a fend; its code, descriptor and table entry
stand in the container. -/
def runSheaf : Sheaf :=
  let code : List Nat := (encodeSyllable .fend + 2 ^ 31) :: List.replicate 7 0xFFFFFFFF
  let u : CodeUnit := { sects := [1, 2, 3], common := {}, furrows := [{ num := 0, desc := 0, done := true }] }
  { id := 7, funcs := [{ units := [u] }]
    bytes := container 1 [aStamp, (0x10, 0, 0, 0xFFFF, code.flatMap (leBytes 4)),
      (0x11, 0, 0, 0xFFFF, leBytes 8 0x8000002000000FFF), (0x12, 0, 0, 0xFFFF, leBytes 4 0x80000000)] }

/-- A record that launches it: class 1, partition 1, one core, no group, no gate, no completion counter. -/
def aRecord : List Byte :=
  let at_ (o : Nat) (bs r : List Byte) : List Byte := r.take o ++ bs ++ r.drop (o + bs.length)
  let none2 : List Byte := [0xFF, 0xFF]
  at_ 0 [1, 0, 1, 1] (at_ 0x10 [7] (at_ 0x20 (leBytes 8 Config.deviceHash.toNat) (at_ 0x38 [0xFF] (at_ 0x40 none2
    (at_ 0x50 none2 (at_ 0x60 none2 (at_ 0x70 none2 (at_ 0x80 none2 (List.replicate 256 0)))))))))

/-- The module with that sheaf registered and nothing launched. -/
def toLaunch : State := { up (aLaunch fixedD) [] with launches := [], parts := [{ aPart with sheaves := [loadedSheaf runSheaf] }] }

set_option maxRecDepth 20000 in
/-- LaunchCommands: that sheaf as it is loaded, and a record whose every check passes. -/
theorem witness_launch : sheafRefused runSheaf = false ∧ aRecord.length = 256 ∧ recField aRecord 3 1 = 1 ∧
    recordFault (toLaunch.taken (hd 9 256)) aRecord = none := by
  refine ⟨by decide, by decide, by decide, by decide⟩

/-- LaunchCommands: the command that carries it. -/
theorem witness_launch_runs : Runs toLaunch (hd 9 256) false ∧ (hd 9 256).blen = 256 := by
  simp only [Runs]; decide

/-- StateCommands: a queued launch that has not started, a stopped one with an image and a completed one on its core, legal
watchpoint words, the last bytes of an image, and a report that is kept and one that is not. -/
theorem witness_state_commands :
    let q := up { aLaunch fixedD with phase := .queued, fresh := true } []
    let x := up { aLaunch fixedD with phase := .stopped } [aCore {}]
    let e : State := { up { aLaunch fixedD with phase := .completed } [] with cores := [aCore {}] }
    ((q.launch? ⟨1, 0⟩).map Launch.waits = some true ∧ watchWordOk 0 0x3FFFF0 = true ∧ watchWordOk 1 0xFFFF003F = true) ∧
    x.launch? ⟨1, 0⟩ = some { aLaunch fixedD with phase := .stopped } ∧ (0 : Nat) < 1 * 1 ∧
    (x.taken (hd 9)).contextOf { aLaunch fixedD with phase := .stopped } 0 = some (aCore {}) ∧
    (e.taken (hd 9)).contextOf { aLaunch fixedD with phase := .completed } 0 = some (aCore {}) ∧ 7339968 + 64 ≤ 7340032 ∧
    x.part? (1#8).toNat = some aPart ∧ (∀ r ∈ x.mgmt.kept, r.rsn ≠ 5) ∧ (List.replicate 32 (0 : Byte)).length = 32 ∧
    x.mgmt.usable 2 = true ∧ (mgmtUp false).usable 2 = false ∧
    (([{ rsn := 5, kind := 1 }] : List Report).find? fun r => r.rsn.toNat == (5#48).toNat) = some { rsn := 5, kind := 1 } := by
  refine ⟨by decide, by decide, by decide, by decide, by decide, by decide, by decide, by decide, by decide, ?_⟩
  decide

/-- StateCommands: a watchpoint word of a launch that is accepted next, of its last core. -/
theorem witness_early_watchpoint :
    let s : State := { up (aLaunch fixedD) [] with launches := [] }
    s.launch? ⟨1, 0⟩ = none ∧ s.part? (1#8).toNat = some aPart ∧ (⟨1, 0⟩ : LaunchId).acc = aPart.nextAcc ∧ 511 < 512 ∧
    watchWordOk 1 0x00F0003B = true ∧
    (launchOf { aPart with early := [(1, 0x00F0003B), (8 * 511 + 1, 7)] } 0 (List.replicate 256 0)).wp = [(1, 0x00F0003B)] := by
  decide

/-- StateCommands: an image with a unit that cannot be corrected, and one without; a context with one, and one without. -/
theorem witness_state_lost :
    let row := 30 * 32768 * 1024
    let y : Phys := { flips := [(7, row / 8, 0x0001000000000001)] }
    (y.lost 7 row 64).map (fun e => e.1 / 4) = [(row + 31) / 32] ∧ y.wrongIn 7 (row + 64) 64 = [] ∧
    (flippedC 0 5 3).lostOffsets = [40, 41, 42, 43, 44, 45, 46, 47] ∧ (aCore {}).phys.flips = [] ∧
    (∀ e ∈ (aCore {}).phys.errs.toList, e.inj.getLsbD 8 = false) := by decide

/-- ImageLayout: an entry of the sowing list, and the last scalar, steer and handle register. -/
theorem witness_layout : (0 : Nat) < ([7] : List Word).length ∧ (11#4).toNat < 12 ∧
    ((st fixedD (aCore {})).ctx (aCore {})).landBase = 0x3F0000 := by decide

/-- ImageRecords, TrapRecordBytes: a channel read under way, two entries of the flight record, and the entries behind them; a
record and none. -/
theorem witness_image_records :
    let c : Core := flying (.chrd 0 0 0 0) .chData 6 fun f => { f with bytes := List.replicate 64 1 }
    (c.flights.filter fun f => f.live && !f.cancelled && f.streams.any fun t => t.eff == .chData).map (·.bytes.length) = [64] ∧
    ((c.flightEntries 1000).map fun e => (e.at_, e.engine, e.due)) = [(7998, 10, [some 1000, some 1001])] ∧
    (c.flights.all Flight.live) = true ∧ (trapC 4 1000).trap.map (·.cause) = some 4 ∧ (aCore {}).trap = none := by decide

/-- ImageRecords: beside a suppressed read, an operation with no effect left, a dhget and a dhput whose additions are to come, and
the changes of a vshape, an mpop, an mpat, an mtag, an mzero and an lds; none of a syllable of class S; an mpop that has rows to
read. -/
theorem witness_flight_record :
    let f (u k : Nat) (i : Instr) (g : Flight → Flight) : Flight :=
      g { uid := u, instr := i, issue := 990, seqno := 990 + u, cls := k, bundle := u, pos := 0 }
    let p (k : Nat) (w : Deferred) : Pend := { due := 1003, seqno := 999, cls := k, bundle := 9, pos := 0, what := w }
    let c : Core := { aCore {} with
      flights := [f 1 6 (.chrd 0 0 0 3) fun f => { f with cancelled := true, streams := [{ eff := .chData, first := 1001, n := 1 }] },
        f 2 2 (.vadd 0 1 2 0 none) fun f => { f with streams := [{ eff := .vread, first := 1001, n := 1 }] },
        f 3 6 (.dhget 0 0 0 5) fun f => { f with open_ := true }, f 4 6 (.dhput 0 0 0 5) fun f => { f with open_ := true },
        f 5 2 (.mpop 0 1 none) fun f => { f with rows := 12, streams := [{ eff := .vread, first := 995, n := 12, k := 5 }] }]
      pends := [p 1 (.g 1 5), p 2 (.ctrl 0 5), p 2 (.g 3 5), p 3 (.ctrl 3 5), p 3 (.tags 0 []), p 3 (.accMode true), p 4 (.g 2 5)] }
    (c.flightEntries 1000).map (fun e => (e.engine, e.op, e.bundle, e.due)) =
      [(1, 2, 2, []), (9, entryOp (.dhget 0 0 0 0), 3, [some 1001]), (9, entryOp (.dhput 0 0 0 0), 4, [none]),
        (1, entryOp (.mpop 0 0 none), 5, [some 1005]), (1, entryOp (.vshape 0 0), 9, [some 1003]), (1, entryOp (.mpop 0 0 none), 9, [some 1003]),
        (2, entryOp (.mpat 0), 9, [some 1003]), (2, entryOp (.mtag 0 0), 9, [some 1003]), (2, entryOp (.mzero 0), 9, [some 1003]),
        (4, entryOp (.lds 0 0 0 none), 9, [some 1003])] := by decide

/-- ImageRecords: the rows that a pass has still to read pop scales where its format has them; those of an mgdrn zero where it
clears; those of an mdrn and a store do neither; an lds writes its register 3 cycles after its read. -/
theorem test_effects_of_reads :
    let due (i : Instr) (e : Eff) (t : Word) : List (Option Nat) :=
      ((flying i e 3 fun f => { f with tcfg := t }).flights.map fun f => f.effects 1000).flatten
    due (.mma 0 0 0) .arrRead 0 = [some 1000, some 1001] ∧ due (.mma 0 0 0) .arrRead 3 = [] ∧
    due (.mgdrn 0 0 1 0) .accRead 0 = [some 1000, some 1001] ∧ due (.mgdrn 0 0 0 0) .accRead 0 = [] ∧
    due (.mdrn 0 0 0 0) .accRead 0 = [] ∧ due (.st 0 0 0 0 0) .spRead 0 = [] ∧ due (.lds 1 0 0 none) .spRead 0 = [some 1003] ∧
    tcFormat 0 ≤ 2 ∧ ¬tcFormat 3 ≤ 2 := by decide

/-- An image with a good length and minimum svn, signed in whatever way the fused key takes. -/
def anImage : FirmwareImage := { version := 1, svn := 255, length := 0, pubkey := List.replicate 32 0, sig := [], body := [] }

/-- StateCommands: a header of an image's length. -/
theorem witness_image_fits : Fits (.deliverFirmwareImage (hd 9 256) anImage) (hd 9 256) := by
  intro n h
  simp only [bodyLength, Option.some.injEq] at h
  subst h; decide

/-- StateCommands, ManagementEvents: an image passes exactly where its signature verifies, which Config leaves free. -/
theorem witness_firmware (m : Mgmt) (hm : m.fusedSvn = 0 ∧ m.fusedKey = List.replicate 32 0)
    (hs : Config.sm2Verify anImage.pubkey anImage.sig (Config.sm3 (imageText anImage)) = true) : imageFault m anImage = none := by
  simp [imageFault, firstCode, hm.1, hm.2, anImage] at hs ⊢
  simp [hs]

/-- ManagementEvents: power not yet applied; a function that comes up, and one that fails. -/
theorem witness_management :
    State.reset.mgmt.powered = false ∧ State.reset.mgmt.flash = none ∧ (mgmtUp true).powered = true ∧
    readyAt (mgmtUp true) (readyBit (.port 7)).1 (readyBit (.port 7)).2 = false ∧
    readyAt (mgmtUp true) ((readyBit (.port 7)).1 + 3) (readyBit (.port 7)).2 = false ∧
    mayReady (mgmtUp true) (.port 7) = true := by decide

/-! ## Witnesses: the rules of the whole machine -/

/-- IssueChangesNoRegister, NothingIsRefused: a syllable whose core acts. -/
theorem witness_issue : (Instr.sadd 1 2 3).encodable = true ∧ numbers.actor.isSome = true ∧
    (after numbers (.sadd 1 2 3)).isSome = true := by decide

/-- The module right after reset, with two partitions that touch. -/
def twoParts : State := { State.reset with parts := [aPart, { aPart with number := 2, px := 1 }] }

/-- PartitionCountersNeverDecrease, PartitionsStayApart, MemoriesStayCanonical: a state of two partitions that meets the
invariants and takes a step. -/
theorem witness_invariants : twoParts.partsApart ∧ twoParts.canonical ∧ ∃ t, step twoParts = .next t := by
  exact ⟨⟨by decide, by decide, by decide⟩, ⟨by simp [twoParts, State.reset], by simp [twoParts, State.reset],
    by simp [twoParts, State.reset]⟩, _, rfl⟩

/-! ## Scales that no sqld brings, bytes that a read still holds, drains that must fall short, and the roundings -/

/-- A core with `n` scales queued, in a hold that has raised the imbalance where `b`, of tile configuration 0 of 128 columns. -/
def shortOf (n : Nat) (b : Bool) (c : Core) : Core :=
  { c with q := { sq := List.replicate n 1 }, seq := { c.seq with starved := b }
           regs := { c.regs with tcfg := c.regs.tcfg.set 0 0x7F0000 } }

/-- InterlockedIssue: an mma with one scale too few and with all of them; with one too few and an sqld in flight. -/
theorem witness_starves :
    let t (n : Nat) : Seat := seatI (.mma 0 0 0) (shortOf n false)
    let f : Flight := { uid := 7, instr := .sqld 0 1 none, issue := 1000, seqno := 999, cls := 4, bundle := 0, pos := 0 }
    ((t 3).c.decodesBadly || (t 3).c.seq.frozen) = false ∧ instrsAt (t 3).c.code (t 3).c.seq.pc = [(0, .mma 0 0 0)] ∧
    scalesNeeded (t 3).c (.mma 0 0 0) = 4 ∧ scalesComing 1000 (t 3).c = 0 ∧ scalesPending (t 3).c = 0 ∧
    timingHolds (t 3).x (t 3).c [(0, .mma 0 0 0)] = true ∧ scalesStarve (t 3).x (t 3).c (.mma 0 0 0) = true ∧
    scalesShort (t 4).x (t 4).c (.mma 0 0 0) = false ∧ scalesStarve (t 3).x { (t 3).c with flights := [f] } (.mma 0 0 0) = false ∧
    scalesShort (t 3).x { (t 3).c with flights := [f] } (.mma 0 0 0) = true := by decide

/-- R63, R191: what a step of that core does: it is held and raises the queue imbalance once, or issues. -/
theorem test_starves :
    let ran (n : Nat) (b : Bool) : Option (List Bool × List (List Nat) × Nat) :=
      match step (runningI (.mma 0 0 0) (shortOf n b)) with
      | .next s => s.cores[0]?.map fun (c : Core) =>
          ([c.seq.held, c.seq.starved], c.trap.toList.map fun (t : TrapRec) => [t.cause, t.detail, t.kind, t.engine], c.flights.length)
      | _ => none
    ran 3 false = some ([true, true], [[0x0B, 1, 1, 2]], 0) ∧ ran 3 true = some ([true, true], [], 0) ∧
    ran 4 false = some ([false, false], [], 1) := by decide

/-- R22, R95, R304: a read of eight bytes with a wrong code, past a write of its own bundle and past one of another. -/
theorem test_read_past_own_write :
    let c : Core := { flying (.ld 0 1 2 0 0) .spRead 4 (fun f => { f with len := 8 }) with phys := { flips := [(0, 0, 3)] } }
    let w (c : Core) (seqno : Nat) : Core := c.spWrite 1000 seqno false (List.range 8) (List.replicate 8 5)
    let see (c : Core) : List (List (Nat × Nat × Word)) := c.phys.flips :: c.flights.map (·.codes)
    let ok (c : Core) : List Bool := c.flights.map fun f => (c.readOk ((st fixedD c).ctx c) f 0 (List.range 8)).2
    see (w c 999) = [[], [(0, 0, 3)]] ∧ ok (w c 999) = [false] ∧ see (w c 1000) = [[], []] ∧ ok (w c 1000) = [true] ∧
    see (w (w c 999) 1000) = [[], []] := by decide

/-- R307: an armed injection into array 1 stays in the unit that the row's write encodes once; and a class V operation in flight
keeps the codes that it read beside. -/
theorem test_injection :
    let f (u : Nat) : Flight := { uid := u, instr := .nop, issue := 0, seqno := 0, cls := 2, bundle := 0, pos := 0 }
    let c : Core := { aCore {} with phys := { errs := (({} : Phys).errs).set 1 { (({} : Phys).errs)[1] with inj := 0x105 } } }
    let w (c : Core) : Core := c.putRuns 7 [Run.full .v 0 [1, 2, 3, 4], Run.full .v 4 [5, 6, 7, 8], Run.full .v 8 [5, 6, 7, 8]]
    (w c).phys.flips = [(1, 0, 2)] ∧
    (w { c with flights := [f 7, f 8], phys := { c.phys with flips := [(1, 1, 3)] } }).flights.map (·.codes) =
      [[(1, 0, 0), (1, 1, 3)], []] := by decide

/-- R250: of a fixed furrow of twelve cycles, drains that must wait on a batch and drains that need not. -/
theorem test_drains :
    let word (i : Instr) : BitVec 32 := BitVec.ofNat 32 (encodeSyllable i + 2 ^ 31)
    let j (l : List (Nat × Instr)) : Joined :=
      { code := (List.range 12).map fun k => word (((l.find? fun p => p.1 == k).map (·.2)).getD .nop)
        ftab := [(0, 0)], handles := [], tiles := [], images := [], sow := [], occ := [] }
    let d : FurrowDecl := { num := 0, desc := BitVec.ofNat 64 (2 ^ 63 + 99), done := false }
    let waits (l : List (Nat × Instr)) : Bool := let j := j (l ++ [(11, .fend)])
      drainWaits j (attribution j [d]) [d] d
    let put : Instr := .dhput 0 0 0 0
    waits [(0, put), (1, .bclose), (2, put), (3, .drain 1)] = true ∧ waits [(0, put), (1, .bclose), (2, put), (5, .drain 1)] = false ∧
    waits [(0, put), (1, .bclose), (2, put), (3, .drain 2)] = false ∧ waits [(0, put), (4, .drain 0)] = true ∧
    waits [(0, put), (5, .drain 0)] = false := by decide

/-- FloatRounding, ExtraValueRounding: each format; a configuration with alt4use and one without; a magnitude above 6 and one not. -/
theorem witness_roundings :
    ([0, 1, 9, 10, 11].all fun q => ([(0, 24, -149, 2 ^ 24 - 1, 104), (1, 8, -133, 2 ^ 8 - 1, 120), (9, 4, -9, 7, 6), (10, 3, -16, 7, 13),
      (11, 2, -1, 3, 1)] : List (Nat × Nat × Int × Nat × Int)).any fun p => p.1 == q) = true ∧ 0xFFFF < 2 ^ 16 ∧
    (0 : Word).getLsbD 32 = false ∧ (0x14A000000 : Word).getLsbD 32 = true ∧ (0x14A000000 : Word).toNat / 2 ^ 24 % 2 ^ 8 = 0x4A ∧
    Machine.Num.lt (.fin false 6 0) (Machine.Num.fin true 13 (-1)).abs = true ∧
    Machine.Num.lt (.fin false 6 0) (Machine.Num.fin true 6 0).abs = false ∧ decE4m3 0x4A = .fin false 10 (-1) := by decide

/-- R72, R80: the tables of conversions into e2m1 and of stochastic ones into e4m3. -/
theorem test_rounds_e2m1 :
    let to4 (use : Bool) (s : Bool) (m : Nat) : Nat := dstBits 11 (if use then 0x14A000000 else 0x04A000000) 0 .ne (.fin s m (-10))
    ([4506, 4710, 5120, 5632].map (to4 false false) = [6, 6, 6, 7] ∧ [4506, 4710, 5120, 5632].map (to4 true false) = [6, 8, 8, 7] ∧
      to4 false true 5120 = 0xE ∧ to4 true true 5120 = 0xE) ∧
    [0x3FFF, 0x4000].map (fun w => dstBits 9 0 0 (.sr w) (srcNum 0 0 0x3F8C0000)) = [0x38, 0x39] ∧
    [0, 0xFFFF].map (fun w => dstBits 9 0 0 (.sr w) (srcNum 0 0 0x3F800008)) = [0x38, 0x38] := by decide

/-- R81 to R83: the worked conversions into e4m3 and e5m2, under overflow entries 00 and 10, and 01 and 00. -/
theorem test_rounds_overflow :
    let e4 (r : Rnd) (s : Bool) (m : Nat) : List Nat := [0, 8].map fun ov => dstBits 9 0 ov r (.fin s m 0)
    let e5 (m : Nat) : List Nat := [0x10, 0].map fun ov => dstBits 10 0 ov .ne (.fin false m 0)
    [440, 464, 470].map (e4 .ne false) = [[0x7E, 0x7E], [0x7E, 0x7E], [0x7E, 0x7F]] ∧
    [470, 1000].map (e4 .rz false) = [[0x7E, 0x7E], [0x7E, 0x7F]] ∧ e4 .up true 1000 = [0xFE, 0x7F] ∧
    [60000, 62000].map e5 = [[0x7B, 0x7B], [0x7C, 0x7B]] := by decide

/-- VectorFloatElements: in bf16 an infinity, a number that is not zero, and infinities of both signs; one word twice. -/
theorem witness_infinities : decFloat 1 0x7F80 = .inf (decFloat 1 0x7F80).sign ∧ decFloat 1 0xFF80 = .inf (!(decFloat 1 0x7F80).sign) ∧
    decFloat 1 0x3F80 ≠ .inf (decFloat 1 0x3F80).sign ∧ decFloat 1 0x3F80 ≠ .nan ∧ (decFloat 1 0x3F80).isZero = false ∧
    (decFloat 1 0x8000).isZero = true ∧ decFloat 1 0x8000 ≠ .inf (decFloat 1 0x8000).sign ∧ 0x8000 < 2 ^ (8 * elemSize 1) := by decide

/-- VectorRowValues, VectorRowReductions: the last row of a full shape; formats 8 and 9. -/
theorem witness_last_row : (127 + 1) * (rowF 128 (.vsel 5 1 3 8 none)).cols ≤ 16384 ∧ (8#4).toNat ≤ 8 ∧ 8 < (9#4).toNat ∧
    (rowF 128 (.vcvt 5 1 0 1 9 none)).instr = .vcvt 5 1 0 1 9 none := by decide

end Sys2Proof.Tests
end

section
/-!
Little-endian bytes: a number reads back, and a header and a report hold their fields where R293 and R294 put them.
-/

namespace Sys2Proof.Machine

/-! ## Little-endian bytes (R7) -/

@[simp] theorem leBytes_length (n w : Nat) : (leBytes n w).length = n := by
  induction n generalizing w with
  | zero => rfl
  | succ n ih => simp [leBytes, ih]

theorem leNat_leBytes (n w : Nat) : leNat (leBytes n w) = w % 256 ^ n := by
  induction n generalizing w with
  | zero => simp [leBytes, leNat, Nat.mod_one]
  | succ n ih => rw [leBytes, leNat, ih, Nat.pow_succ', Nat.mod_mul, BitVec.toNat_ofNat]

/-- A field skipped in a row of little-endian fields. -/
theorem drop_leBytes_append {n o : Nat} (h : n ≤ o) (w : Nat) (l : List Byte) :
    (leBytes n w ++ l).drop o = l.drop (o - n) := by
  simp [List.drop_append, h]

/-- A header reads back as it was written (R293). -/
theorem readHeader_headerBytes (o : BitVec 16) (h : Hdr) : readHeader (headerBytes o h) = (o, h) := by
  have back {n : Nat} (x : BitVec n) {m : Nat} (hm : m = 2 ^ n) : BitVec.ofNat n (x.toNat % m) = x := by
    rw [hm, Nat.mod_eq_of_lt x.isLt, BitVec.ofNat_toNat, BitVec.setWidth_eq]
  have last (w : Nat) : (leBytes 8 w).take 8 = leBytes 8 w := List.take_of_length_le (by simp)
  simp [readHeader, headerBytes, recField, drop_leBytes_append, leNat_leBytes, last, back]

theorem Report.bytes_length (r : Report) : r.bytes.length = 32 + r.body.length := by
  simp [Report.bytes]; omega

/-- A report's fields stand at the offsets of R294, and its body behind them. -/
theorem headers_readBack : Claim.HeadersReadBack := by
  have small {n : Nat} (x : BitVec n) {m : Nat} (hm : m = 2 ^ n) : x.toNat % m = x.toNat :=
    Nat.mod_eq_of_lt (hm ▸ x.isLt)
  refine ⟨fun o h => ⟨by simp [headerBytes], readHeader_headerBytes o h⟩, fun r => ⟨r.bytes_length, ?_⟩⟩
  simp [Report.bytes, drop_leBytes_append, leNat_leBytes, small]

end Sys2Proof.Machine
end

section
/-!
Host commands: every command goes the one way of commands, in the order of their numbers, and no body of one touches
the number of the last command executed (R293 to R298).
-/

namespace Sys2Proof.Machine

/-! ## The scheduler -/

/-- The scheduler, and what it considers, replace launches alone. -/
theorem State.consider_eq (p : Partition) (r : State × List Launch) (x : Launch) :
    ∃ ls, (State.consider p r x).1 = { r.1 with launches := ls } := by
  unfold State.consider; dsimp only
  split
  · exact ⟨_, rfl⟩
  · split
    · exact ⟨_, rfl⟩
    · split <;> exact ⟨_, rfl⟩

theorem State.foldl_consider_eq (p : Partition) (q : List Launch) (r : State × List Launch) :
    ∃ ls, (q.foldl (State.consider p) r).1 = { r.1 with launches := ls } := by
  induction q generalizing r with
  | nil => exact ⟨_, rfl⟩
  | cons x q ih =>
    obtain ⟨ls, e⟩ := State.consider_eq p r x
    obtain ⟨ms, f⟩ := ih (State.consider p r x)
    exact ⟨ms, by rw [List.foldl_cons, f, e]⟩

/-- The scheduler changes the launches alone (R252). -/
theorem State.schedule_eq (n : Nat) (s : State) : ∃ ls, s.schedule n = { s with launches := ls } := by
  unfold State.schedule; split
  · exact ⟨_, rfl⟩
  · exact State.foldl_consider_eq _ _ (s, [])

@[simp] theorem State.schedule_mgmt (n : Nat) (s : State) : (s.schedule n).mgmt = s.mgmt := by
  obtain ⟨ls, e⟩ := s.schedule_eq n; rw [e]

/-! ## The management controller -/

@[simp] theorem State.clear_mgmt (la : Launch) (s : State) : (s.clear la).mgmt = s.mgmt := by
  unfold State.clear; exact (State.vacate_mgmt ..).trans (foldl_keeps State.mgmt _ (by simp) _ _)

@[simp] theorem State.restart_mgmt (la : Launch) (s : State) : (s.restart la).mgmt = s.mgmt := by
  unfold State.restart; dsimp only; split <;> simp

@[simp] theorem State.remove_mgmt (l : LaunchId) (s : State) : (s.remove l).mgmt = s.mgmt := by simp [State.remove]

@[simp] theorem State.dropPart_mgmt (p : Partition) (s : State) : (s.dropPart p).mgmt = s.mgmt := by
  unfold State.dropPart; exact foldl_keeps State.mgmt _ (by simp) _ _

@[simp] theorem State.countOrHold_mgmt (s : State) (l : LaunchId) (i : Nat) (n : BitVec 6) (v : Word) :
    (s.countOrHold l i n v).mgmt = s.mgmt := by
  unfold State.countOrHold; split
  · split <;> rfl
  · rfl

@[simp] theorem State.readContext_mgmt (s : State) (la : Launch) (c : Core) (o n : Nat) :
    (s.readContext la c o n).1.mgmt = s.mgmt := by
  unfold State.readContext; dsimp only; split <;> simp

@[simp] theorem State.setContext_mgmt (c : Core) (s : State) : (s.setContext c).mgmt = s.mgmt := rfl

@[simp] theorem State.writeBytes_mgmt (s : State) (la : Launch) (c : Core) (o : Nat) (bs : List Byte) :
    (s.writeBytes la c o bs).mgmt = s.mgmt := by
  unfold State.writeBytes; dsimp only; split <;> simp

/-! ## The last command executed (R296) -/

@[simp] theorem State.report_executed (s : State) (k st : Nat) (t : BitVec 64) (e : Nat) (b : List Byte) :
    (s.report k st t e b).mgmt.x = s.mgmt.x := rfl
@[simp] theorem State.reject_executed (h : Hdr) (st : Nat) (s : State) : (s.reject h st).mgmt.x = s.mgmt.x := rfl
@[simp] theorem State.accept_executed (h : Hdr) (b : List Byte) (s : State) : (s.accept h b).mgmt.x = s.mgmt.x := rfl
@[simp] theorem State.dataReport_executed (h : Hdr) (b : List Byte) (s : State) :
    (s.dataReport h b).mgmt.x = s.mgmt.x := rfl
@[simp] theorem State.runImage_executed (f : FirmwareImage) (s : State) : (s.runImage f).mgmt.x = s.mgmt.x := rfl
@[simp] theorem State.taken_executed (h : Hdr) (s : State) : (s.taken h).mgmt.x = h.csn := rfl

@[simp] theorem State.resend_executed (h : Hdr) (l : List Report) (s : State) (n : Nat) :
    (s.resend h l n).mgmt.x = s.mgmt.x := by
  unfold State.resend; split <;> rfl

@[simp] theorem State.writeEarly_executed (h : Hdr) (l : LaunchId) (core : Nat) (r : BitVec 3) (v : Word) (s : State) :
    (s.writeEarly h l core r v).mgmt.x = s.mgmt.x := by
  unfold State.writeEarly; split
  · split <;> simp
  · rfl

/-- A command on a partition keeps the number, where it does so for the partition it finds. -/
theorem State.withPart_executed {h : Hdr} {n : BitVec 8} {f : Partition → State → State} {s : State}
    (hf : ∀ p, (f p s).mgmt.x = s.mgmt.x) : (s.withPart h n f).mgmt.x = s.mgmt.x := by
  unfold State.withPart; split
  · rfl
  · exact hf _

/-- A command on a launch keeps the number, where it does so for the launch it finds. -/
theorem State.withLaunch_executed {h : Hdr} {l : LaunchId} {f : Launch → State → State} {s : State}
    (hf : ∀ la, (f la s).mgmt.x = s.mgmt.x) : (s.withLaunch h l f).mgmt.x = s.mgmt.x := by
  unfold State.withLaunch; split
  · rfl
  · exact hf _

/-- A choice keeps the number where both sides do. -/
theorem ite_executed {b : Bool} {t u : State} {x : BitVec 48} (ht : t.mgmt.x = x) (hu : u.mgmt.x = x) :
    (if b then t else u).mgmt.x = x := by split <;> assumption

/-! ## Every command goes the one way of commands (R295, R296) -/

/-- Row `i` is the command of header `h`: it goes the one way of commands, with what R295 says of its opcode, and its body
leaves the number of the last command executed. -/
def IsCommand (i : Instr) (h : Hdr) (early zeroOk : Bool) : Prop :=
  ∃ body : State → State, (∀ s, exec i s = command i h early zeroOk body s) ∧ ∀ s, (body s).mgmt.x = s.mgmt.x

theorem stateReport_isCommand (h : Hdr) : IsCommand (.stateReport h) h true true :=
  ⟨_, fun _ => rfl, fun _ => rfl⟩

theorem resendReports_isCommand (h : Hdr) (a b : BitVec 48) : IsCommand (.resendReports h a b) h true true :=
  ⟨_, fun _ => rfl, fun s => foldl_keeps (fun t : State => t.mgmt.x) _ (by simp) _ _⟩

theorem deliverFirmwareImage_isCommand (h : Hdr) (f : FirmwareImage) :
    IsCommand (.deliverFirmwareImage h f) h true false :=
  ⟨_, fun _ => rfl, fun s => by
    dsimp only; split
    · simp
    · exact (State.accept_executed ..).trans (ite_executed rfl rfl)⟩

theorem createPartition_isCommand (h : Hdr) (n a b c d : BitVec 8) (e : Bool) :
    IsCommand (.createPartition h n a b c d e) h false false :=
  ⟨_, fun _ => rfl, fun _ => ite_executed rfl rfl⟩

theorem destroyPartition_isCommand (h : Hdr) (n : BitVec 8) : IsCommand (.destroyPartition h n) h false false :=
  ⟨_, fun _ => rfl, fun _ => State.withPart_executed fun _ => ite_executed rfl (by simp)⟩

theorem writePartitionSeedRegister_isCommand (h : Hdr) (n : BitVec 8) (v : BitVec 64) :
    IsCommand (.writePartitionSeedRegister h n v) h false false :=
  ⟨_, fun _ => rfl, fun _ => State.withPart_executed fun _ => rfl⟩

theorem addToPartitionCounter_isCommand (h : Hdr) (n k : BitVec 8) (v : BitVec 64) :
    IsCommand (.addToPartitionCounter h n k v) h false false :=
  ⟨_, fun _ => rfl, fun _ => State.withPart_executed fun _ => by simp⟩

theorem addToContextCounter_isCommand (h : Hdr) (l : LaunchId) (k : Nat) (n : BitVec 6) (v : BitVec 64) :
    IsCommand (.addToContextCounter h l k n v) h false false :=
  ⟨_, fun _ => rfl, fun _ => State.withLaunch_executed fun _ => ite_executed rfl (by simp)⟩

theorem writePartitionWindowEntry_isCommand (h : Hdr) (n : BitVec 8) (w : BitVec 6) (a b c d : BitVec 64) :
    IsCommand (.writePartitionWindowEntry h n w a b c d) h false false :=
  ⟨_, fun _ => rfl, fun _ => State.withPart_executed fun _ => ite_executed rfl rfl⟩

theorem loadCode_isCommand (h : Hdr) (n : BitVec 8) (f : Sheaf) : IsCommand (.loadCode h n f) h false false :=
  ⟨_, fun _ => rfl, fun _ => State.withPart_executed fun _ => ite_executed rfl (by simp)⟩

theorem unregisterSheaf_isCommand (h : Hdr) (n : BitVec 8) (f : BitVec 64) :
    IsCommand (.unregisterSheaf h n f) h false false :=
  ⟨_, fun _ => rfl, fun _ => State.withPart_executed fun _ => ite_executed rfl rfl⟩

theorem launch_isCommand (h : Hdr) (r : List Byte) : IsCommand (.launch h r) h false false :=
  ⟨_, fun _ => rfl, fun _ => ite_executed rfl (by split <;> simp)⟩

theorem cancelQueuedLaunch_isCommand (h : Hdr) (l : LaunchId) : IsCommand (.cancelQueuedLaunch h l) h false false :=
  ⟨_, fun _ => rfl, fun _ => State.withLaunch_executed fun _ => ite_executed rfl (by simp)⟩

theorem resumeLaunch_isCommand (h : Hdr) (l : LaunchId) (x y : BitVec 8) :
    IsCommand (.resumeLaunch h l x y) h false false :=
  ⟨_, fun _ => rfl, fun _ => State.withLaunch_executed fun _ => State.withPart_executed fun _ =>
    ite_executed rfl (by simp)⟩

theorem releaseContext_isCommand (h : Hdr) (l : LaunchId) : IsCommand (.releaseContext h l) h false false :=
  ⟨_, fun _ => rfl, fun _ => State.withLaunch_executed fun _ => ite_executed rfl (by simp)⟩

theorem stateRead_isCommand (h : Hdr) (l : LaunchId) (e : StateSel) : IsCommand (.stateRead h l e) h false false :=
  ⟨_, fun _ => rfl, fun _ => State.withLaunch_executed fun _ => by
    cases e with
    | watch => exact ite_executed rfl rfl
    | image =>
      dsimp only; split
      · rfl
      · split <;> simp⟩

theorem stateWrite_isCommand (h : Hdr) (l : LaunchId) (e : StateSel) (bs : List Byte) :
    IsCommand (.stateWrite h l e bs) h false false :=
  ⟨_, fun _ => rfl, fun _ => by
    cases e with
    | watch =>
      refine ite_executed rfl ?_
      split
      · simp
      · exact ite_executed rfl rfl
    | image =>
      refine State.withLaunch_executed fun _ => ?_
      split
      · rfl
      · exact ite_executed rfl (by simp)⟩

theorem readSurveyTable_isCommand (h : Hdr) (n : BitVec 8) : IsCommand (.readSurveyTable h n) h false false :=
  ⟨_, fun _ => rfl, fun _ => State.withPart_executed fun _ => rfl⟩

theorem clearSurveyTable_isCommand (h : Hdr) (n : BitVec 8) : IsCommand (.clearSurveyTable h n) h false false :=
  ⟨_, fun _ => rfl, fun _ => State.withPart_executed fun _ => rfl⟩

theorem writeProcessGroupEntry_isCommand (h : Hdr) (n : BitVec 8) (g : BitVec 4) (a b : BitVec 8) (ms : List Member) :
    IsCommand (.writeProcessGroupEntry h n g a b ms) h false false :=
  ⟨_, fun _ => rfl, fun _ => State.withPart_executed fun _ => ite_executed rfl rfl⟩

theorem attest_isCommand (h : Hdr) (bs : List Byte) (n : BitVec 8) : IsCommand (.attest h bs n) h false false :=
  ⟨_, fun _ => rfl, fun _ => ite_executed rfl (ite_executed rfl (State.withPart_executed fun _ => rfl))⟩

theorem readErrorLogs_isCommand (h : Hdr) (x : BitVec 5) (y : BitVec 4) : IsCommand (.readErrorLogs h x y) h false false :=
  ⟨_, fun _ => rfl, fun _ => rfl⟩

theorem clearErrorLogs_isCommand (h : Hdr) (x : BitVec 5) (y : BitVec 4) :
    IsCommand (.clearErrorLogs h x y) h false false :=
  ⟨_, fun _ => rfl, fun _ => by simp⟩

/-! ## The header (R293 to R295) -/

theorem firstCode_nil : firstCode [] = none := rfl

theorem firstCode_cons (b : Bool) (d : Nat) (l : List (Bool × Nat)) :
    firstCode ((b, d) :: l) = if b then some d else firstCode l := by
  cases b <;> simp [firstCode]

/-- An opcode that R295 does not list. -/
def NotListed (i : Instr) : Prop := ∃ g a b, i = .undefinedCommand g a b ∧ ∀ p ∈ opcodes, p.1 ≠ a.toNat

/-- A command that is executed before firmware runs, or that no firmware is needed to reject (R295, R298). -/
def NeedsNoFirmware (i : Instr) : Prop :=
  (∃ g, i = .stateReport g) ∨ (∃ g a b, i = .resendReports g a b) ∨ (∃ g f, i = .deliverFirmwareImage g f) ∨
  NotListed i ∨ ∃ g a b, i = .undefinedCommand g a b ∧ a.toNat ≤ 3

/-- A command that may have the number 0 (R295, R296). -/
def MayBeNumberedZero (i : Instr) : Prop :=
  (∃ g, i = .stateReport g) ∨ (∃ g a b, i = .resendReports g a b) ∨ NotListed i ∨
  ∃ g a b, i = .undefinedCommand g a b ∧ a.toNat ≤ 2

/-- A header's length is legal and its command's own (R293 to R295). -/
def Sized (i : Instr) (h : Hdr) : Prop := h.blen.toNat ≤ 65536 ∧ h.blen.toNat % 8 = 0 ∧ Fits i h

theorem notListed_undefinedCommand (h : Hdr) (o b : BitVec 16) :
    NotListed (.undefinedCommand h o b) ↔ ∀ p ∈ opcodes, p.1 ≠ o.toNat := by
  simp [NotListed]

theorem listed_eq_false_iff (i : Instr) : listed i = false ↔ NotListed i := by
  unfold listed; split
  · rw [notListed_undefinedCommand]; simp
  · next hi => simpa [NotListed] using fun g a b e => absurd e (hi g a b)

theorem unsized_iff (i : Instr) (h : Hdr) :
    (decide (65536 < h.blen.toNat) || h.blen.toNat % 8 != 0 || (bodyLength i).any fun n => h.blen.toNat != n) = true ↔
      ¬Sized i h := by
  cases e : bodyLength i <;> simp [Sized, Fits, e] <;> omega

/-- The first field of a header that fails, in the order of R293. -/
theorem headerFault_eq (i : Instr) (h : Hdr) (zeroOk : Bool) [Decidable (NotListed i)] [Decidable (Sized i h)] :
    headerFault i h zeroOk =
      if NotListed i then some 0 else if h.res0 ≠ 0 then some 2 else if ¬Sized i h then some 4
      else if h.csn = 0 ∧ zeroOk = false then some 8 else if h.res1 ≠ 0 then some 0x0E
      else if h.res2 ≠ 0 then some 0x18 else none := by
  simp only [headerFault, firstCode_cons, firstCode_nil, unsized_iff, Bool.not_eq_true', listed_eq_false_iff,
    Bool.and_eq_true, beq_iff_eq, bne_iff_ne]

/-! ## Executing a command (R295, R298) -/

/-- A command whose header is sound, and that may be executed, performs its body. -/
theorem State.execute_sound {i : Instr} {h : Hdr} {early zeroOk : Bool} {s : State} (body : State → State)
    (ready : s.mgmt.usable 1 = true ∨ early = true) (hl : ¬NotListed i) (h0 : h.res0 = 0) (hs : Sized i h)
    (hz : h.csn ≠ 0 ∨ zeroOk = true) (h1 : h.res1 = 0) (h2 : h.res2 = 0) :
    s.execute i h early zeroOk body = body s := by
  classical
  have e : headerFault i h zeroOk = none := by
    rw [headerFault_eq, if_neg hl, if_neg (not_not.2 h0), if_neg (not_not.2 hs),
      if_neg (by rintro ⟨k0, kz⟩; rcases hz with hz | hz <;> simp_all), if_neg (not_not.2 h1), if_neg (not_not.2 h2)]
  unfold State.execute
  rw [if_neg (by rcases ready with r | r <;> simp [r]), e]

/-- A command is rejected at its opcode where firmware is not ready and it needs it (R298). -/
theorem State.execute_unready {i : Instr} {h : Hdr} {early zeroOk : Bool} {s : State} (body : State → State)
    (hu : s.mgmt.usable 1 = false) (he : early = false) : s.execute i h early zeroOk body = s.reject h 0 := by
  simp [State.execute, hu, he]

/-- A command that may be executed is rejected at the first field of its header that fails. -/
theorem State.execute_fault {i : Instr} {h : Hdr} {early zeroOk : Bool} {s : State} {o : Nat} (body : State → State)
    (ready : s.mgmt.usable 1 = true ∨ early = true) (hf : headerFault i h zeroOk = some o) :
    s.execute i h early zeroOk body = s.reject h o := by
  unfold State.execute
  rw [if_neg (by rcases ready with r | r <;> simp [r]), hf]

/-- In state `s` command `i` of header `h` is rejected at the first field of its header that fails, and the report is
sent from `u` (R293 to R295). -/
def RejectsHeader (i : Instr) (h : Hdr) (s u : State) : Prop :=
  (NotListed i → exec i s = .next (u.reject h 0)) ∧
  (¬NotListed i → h.res0 ≠ 0 → exec i s = .next (u.reject h 2)) ∧
  (¬NotListed i → h.res0 = 0 → ¬Sized i h → exec i s = .next (u.reject h 4)) ∧
  (¬NotListed i → h.res0 = 0 → Sized i h → h.csn = 0 → ¬MayBeNumberedZero i → exec i s = .next (u.reject h 8)) ∧
  (¬NotListed i → h.res0 = 0 → Sized i h → h.csn ≠ 0 ∨ MayBeNumberedZero i → h.res1 ≠ 0 →
    exec i s = .next (u.reject h 0x0E)) ∧
  (¬NotListed i → h.res0 = 0 → Sized i h → h.csn ≠ 0 ∨ MayBeNumberedZero i → h.res1 = 0 → h.res2 ≠ 0 →
    exec i s = .next (u.reject h 0x18))

theorem rejectsHeader_of_execute {i : Instr} {h : Hdr} {early zeroOk : Bool} {body : State → State} {s u : State}
    (run : exec i s = .next (u.execute i h early zeroOk body)) (ready : u.mgmt.usable 1 = true ∨ early = true)
    (hz : zeroOk = true ↔ MayBeNumberedZero i) : RejectsHeader i h s u := by
  classical
  have fault {o : Nat} (e : headerFault i h zeroOk = some o) : exec i s = .next (u.reject h o) := by
    rw [run, State.execute_fault body ready e]
  have numbered (k : h.csn ≠ 0 ∨ MayBeNumberedZero i) : ¬(h.csn = 0 ∧ zeroOk = false) := fun ⟨k0, kz⟩ =>
    k.elim (· k0) fun z => by simp [hz.2 z] at kz
  refine ⟨fun hl => fault ?_, fun hl h0 => fault ?_, fun hl h0 hs => fault ?_, fun hl h0 hs hc hn => fault ?_,
    fun hl h0 hs k h1 => fault ?_, fun hl h0 hs k h1 h2 => fault ?_⟩
  · rw [headerFault_eq, if_pos hl]
  · rw [headerFault_eq, if_neg hl, if_pos h0]
  · rw [headerFault_eq, if_neg hl, if_neg (not_not.2 h0), if_pos hs]
  · rw [headerFault_eq, if_neg hl, if_neg (not_not.2 h0), if_neg (not_not.2 hs),
      if_pos ⟨hc, by rwa [← hz, Bool.not_eq_true] at hn⟩]
  · rw [headerFault_eq, if_neg hl, if_neg (not_not.2 h0), if_neg (not_not.2 hs), if_neg (numbered k), if_pos h1]
  · rw [headerFault_eq, if_neg hl, if_neg (not_not.2 h0), if_neg (not_not.2 hs), if_neg (numbered k),
      if_neg (not_not.2 h1), if_pos h2]

/-! ## The order of commands (R296) -/

section Order

variable {i : Instr} {h : Hdr} {early zeroOk : Bool} {body : State → State} {s : State}

/-- What the arrival of a command does, by how far ahead its number is. -/
theorem command_eq (i : Instr) (h : Hdr) (early zeroOk : Bool) (body : State → State) (s : State) :
    command i h early zeroOk body s =
      let n := aheadOf s.mgmt.x h.csn
      if s.mgmt.usable 0 = false then .next s
      else if h.csn = 0 then .next (s.execute i h early zeroOk body)
      else if n = 1 then .next ((s.taken h).execute i h early zeroOk body)
      else if 2 ≤ n ∧ n ≤ 65 then
        if ∃ q ∈ s.mgmt.held, q.1 = h.csn then .next (s.report 6 0 h.tag 0 [])
        else .next { s with mgmt := { s.mgmt with held := s.mgmt.held ++ [(h.csn, i)] } }
      else if n = 0 ∨ 2 ^ 47 ≤ n then .next (s.report 6 0 h.tag 0 [])
      else .next (s.report 7 0 h.tag 0 []) := by
  simp only [command, Bool.not_eq_true', Bool.and_eq_true, Bool.or_eq_true, decide_eq_true_eq, List.any_eq_true,
    beq_iff_eq, State.taken]

/-- A module without its management endpoint hears no command (R298). -/
theorem command_unheard (hu : s.mgmt.usable 0 = false) : command i h early zeroOk body s = .next s := by
  rw [command_eq]; exact if_pos hu

section Heard

variable (hu : s.mgmt.usable 0 = true)
include hu

/-- Number 0 is executed as it arrives. -/
theorem command_zero (hc : h.csn = 0) :
    command i h early zeroOk body s = .next (s.execute i h early zeroOk body) := by
  rw [command_eq]; dsimp only; rw [if_neg (by simp [hu]), if_pos hc]

/-- A sound command of number 0 that may have it performs its body. -/
theorem command_zero_sound (hc : h.csn = 0) (ready : s.mgmt.usable 1 = true ∨ early = true) (hl : ¬NotListed i)
    (h0 : h.res0 = 0) (hs : Sized i h) (hz : zeroOk = true) (h1 : h.res1 = 0) (h2 : h.res2 = 0) :
    command i h early zeroOk body s = .next (body s) := by
  rw [command_zero hu hc, State.execute_sound body ready hl h0 hs (.inr hz) h1 h2]

variable (hc : h.csn ≠ 0)
include hc

/-- The next command is executed, with its number taken. -/
theorem command_next (hn : aheadOf s.mgmt.x h.csn = 1) :
    command i h early zeroOk body s = .next ((s.taken h).execute i h early zeroOk body) := by
  rw [command_eq]; dsimp only; rw [if_neg (by simp [hu]), if_neg hc, if_pos hn]

/-- A command up to 65 ahead is held, unless one of its number is. -/
theorem command_ahead (h2 : 2 ≤ aheadOf s.mgmt.x h.csn) (h65 : aheadOf s.mgmt.x h.csn ≤ 65) :
    command i h early zeroOk body s =
      if ∃ q ∈ s.mgmt.held, q.1 = h.csn then .next (s.report 6 0 h.tag 0 [])
      else .next { s with mgmt := { s.mgmt with held := s.mgmt.held ++ [(h.csn, i)] } } := by
  rw [command_eq]; dsimp only; rw [if_neg (by simp [hu]), if_neg hc, if_neg (by omega), if_pos ⟨h2, h65⟩]

/-- A command that is not ahead is a duplicate. -/
theorem command_behind (hn : aheadOf s.mgmt.x h.csn = 0 ∨ 2 ^ 47 ≤ aheadOf s.mgmt.x h.csn) :
    command i h early zeroOk body s = .next (s.report 6 0 h.tag 0 []) := by
  rw [command_eq]; dsimp only
  rw [if_neg (by simp [hu]), if_neg hc, if_neg (by omega), if_neg (by omega), if_pos hn]

/-- A command further ahead is out of window. -/
theorem command_beyond (h65 : 65 < aheadOf s.mgmt.x h.csn) (h47 : aheadOf s.mgmt.x h.csn < 2 ^ 47) :
    command i h early zeroOk body s = .next (s.report 7 0 h.tag 0 []) := by
  rw [command_eq]; dsimp only
  rw [if_neg (by simp [hu]), if_neg hc, if_neg (by omega), if_neg (by omega), if_neg (by omega)]

end Heard

end Order

/-- A command executed leaves the number of the last command, where its body does. -/
theorem State.execute_executed {i : Instr} {h : Hdr} {early zeroOk : Bool} {body : State → State} {s : State}
    (hb : (body s).mgmt.x = s.mgmt.x) : (s.execute i h early zeroOk body).mgmt.x = s.mgmt.x := by
  unfold State.execute; split
  · rfl
  · split
    · rfl
    · exact hb

/-! ## Which commands there are (R295) -/

/-- What an opcode's row says: a listed one up to 3 needs no firmware, and up to 2 it may have the number 0; one that is not
listed is rejected whatever it has. -/
theorem opcodeRow_spec (h : Hdr) (o b : BitVec 16) :
    let r := ((opcodes.find? fun p => p.1 == o.toNat).map (·.2)).getD (true, true)
    (r.2 = true ↔ NotListed (.undefinedCommand h o b) ∨ o.toNat ≤ 3) ∧
    (r.1 = true ↔ NotListed (.undefinedCommand h o b) ∨ o.toNat ≤ 2) := by
  have rows : ∀ p ∈ opcodes, (p.2.2 = true ↔ p.1 ≤ 3) ∧ (p.2.1 = true ↔ p.1 ≤ 2) := by decide
  rw [notListed_undefinedCommand]
  cases e : opcodes.find? fun p => p.1 == o.toNat with
  | none => simp only [List.find?_eq_none, beq_iff_eq] at e; exact ⟨iff_of_true rfl (.inl e), iff_of_true rfl (.inl e)⟩
  | some p =>
    have hp := List.mem_of_find?_eq_some e
    have ho : p.1 = o.toNat := by simpa using List.find?_some e
    have listed : ¬∀ p ∈ opcodes, p.1 ≠ o.toNat := fun k => k p hp ho
    rw [or_iff_right listed, or_iff_right listed, ← ho]; exact rows p hp

theorem undefinedCommand_isCommand (h : Hdr) (o b : BitVec 16) :
    ∃ early zeroOk, IsCommand (.undefinedCommand h o b) h early zeroOk ∧
      (early = true ↔ NeedsNoFirmware (.undefinedCommand h o b)) ∧
      (zeroOk = true ↔ MayBeNumberedZero (.undefinedCommand h o b)) := by
  obtain ⟨he, hz⟩ := opcodeRow_spec h o b
  exact ⟨_, _, ⟨_, fun _ => rfl, fun _ => rfl⟩, by rw [he]; simp [NeedsNoFirmware], by rw [hz]; simp [MayBeNumberedZero]⟩

/-- A command of no special standing needs firmware and a number. -/
theorem IsCommand.plain {i : Instr} {h : Hdr} (k : IsCommand i h false false) (he : ¬NeedsNoFirmware i)
    (hz : ¬MayBeNumberedZero i) :
    ∃ early zeroOk, IsCommand i h early zeroOk ∧ (early = true ↔ NeedsNoFirmware i) ∧
      (zeroOk = true ↔ MayBeNumberedZero i) :=
  ⟨false, false, k, by simpa using he, by simpa using hz⟩

/-- Every row with a command's header goes the one way of commands. -/
theorem isCommand_of_header {i : Instr} {h : Hdr} (hh : headerOf i = some h) :
    ∃ early zeroOk, IsCommand i h early zeroOk ∧ (early = true ↔ NeedsNoFirmware i) ∧
      (zeroOk = true ↔ MayBeNumberedZero i) := by
  unfold headerOf at hh
  split at hh <;> cases hh
  · exact ⟨_, _, stateReport_isCommand .., by simp [NeedsNoFirmware], by simp [MayBeNumberedZero]⟩
  · exact ⟨_, _, resendReports_isCommand .., by simp [NeedsNoFirmware], by simp [MayBeNumberedZero]⟩
  · exact ⟨_, _, deliverFirmwareImage_isCommand .., by simp [NeedsNoFirmware], by simp [MayBeNumberedZero, NotListed]⟩
  rotate_right
  · exact undefinedCommand_isCommand ..
  all_goals refine IsCommand.plain ?_ (by simp [NeedsNoFirmware, NotListed]) (by simp [MayBeNumberedZero, NotListed])
  · exact createPartition_isCommand ..
  · exact destroyPartition_isCommand ..
  · exact writePartitionSeedRegister_isCommand ..
  · exact addToPartitionCounter_isCommand ..
  · exact addToContextCounter_isCommand ..
  · exact writePartitionWindowEntry_isCommand ..
  · exact loadCode_isCommand ..
  · exact unregisterSheaf_isCommand ..
  · exact launch_isCommand ..
  · exact cancelQueuedLaunch_isCommand ..
  · exact resumeLaunch_isCommand ..
  · exact releaseContext_isCommand ..
  · exact stateRead_isCommand ..
  · exact stateWrite_isCommand ..
  · exact readSurveyTable_isCommand ..
  · exact clearSurveyTable_isCommand ..
  · exact writeProcessGroupEntry_isCommand ..
  · exact attest_isCommand ..
  · exact readErrorLogs_isCommand ..
  · exact clearErrorLogs_isCommand ..

/-- A resend of one number. -/
theorem resends_one (h : Hdr) (l : List Report) (a : Nat) (s : State) :
    ((List.range (a + 1 - a)).map (· + a)).foldl (State.resend h l) s = s.resend h l a := by
  have e : a + 1 - a = 1 := by omega
  simp [e]

/-- Commands are held, answered and taken by their numbers, and those of number 0 executed as they arrive (R293 to R298). -/
theorem commands_numberOrder : Claim.NumberOrder := by
  intro s i h hh
  obtain ⟨early, zeroOk, ⟨body, run, keeps⟩, he, hz⟩ := isCommand_of_header hh
  have notEarly (k : ¬NeedsNoFirmware i) : early = false := by rwa [← Bool.not_eq_true, he]
  refine ⟨fun hu => ?_, fun hu hc => ⟨fun h2 h65 hq => ?_, fun h2 h65 hq => ?_, fun hn => ?_, fun h65 h47 => ?_,
    fun hn hf k => ?_, fun hn hf => ?_, fun hn => ?_⟩, fun hu hc => ⟨fun hf k => ?_, fun hf => ?_,
    fun h0 hs h1 h2 => ⟨fun g hi => ?_, fun g a hi hk => ?_, fun g a r hi hk => ?_, fun g a b hi ha => ?_⟩⟩⟩
  -- No endpoint; then a number by how far ahead it is: held, held already, behind, out of window, next.
  · rw [run, command_unheard hu]
  · rw [run, command_ahead hu hc h2 h65, if_neg fun ⟨q, hm, e⟩ => hq q hm e]
  · rw [run, command_ahead hu hc h2 h65, if_pos hq]
  · rw [run, command_behind hu hc hn]
  · rw [run, command_beyond hu hc h65 h47]
  · rw [run, command_next hu hc hn]
    exact congrArg _ (State.execute_unready (s := s.taken h) body hf (notEarly k))
  · exact rejectsHeader_of_execute (u := s.taken h) ((run s).trans (command_next hu hc hn)) (hf.imp_right he.2) hz
  · exact ⟨_, (run s).trans (command_next hu hc hn), State.execute_executed (keeps _)⟩
  -- Number 0, and the commands whose answers to it are given.
  · rw [run, command_zero hu hc, State.execute_unready body hf (notEarly k)]
  · exact rejectsHeader_of_execute ((run s).trans (command_zero hu hc)) (hf.imp_right he.2) hz
  · subst hi
    cases hh
    exact command_zero_sound hu hc (.inr rfl) (by simp [NotListed]) h0 hs rfl h1 h2
  · subst hi
    cases hh
    refine (command_zero_sound hu hc (.inr rfl) (by simp [NotListed]) h0 hs rfl h1 h2).trans ?_
    rw [resends_one, State.resend, List.find?_eq_none.2 fun r hr e => hk r hr (BitVec.eq_of_toNat_eq (by simpa using e))]
  · subst hi
    cases hh
    refine (command_zero_sound hu hc (.inr rfl) (by simp [NotListed]) h0 hs rfl h1 h2).trans ?_
    rw [resends_one, State.resend, hk]
  · subst hi
    cases hh
    obtain ⟨early, zero⟩ := opcodeRow_spec h a b
    have low : ¬NotListed (.undefinedCommand h a b) := by
      rw [notListed_undefinedCommand]
      rcases ha with ha | ha <;> simp [opcodes, ha]
    exact command_zero_sound hu hc (.inr (early.2 (.inr (by omega)))) low h0 hs (zero.2 (.inr (by omega))) h1 h2

/-- Settles O50: the header's and the report's bytes read back field by field, and every row with a command's header goes
the one way of commands. -/
theorem commandsComeInOrder : Obligations.CommandsComeInOrder := ⟨headers_readBack, commands_numberOrder⟩

end Sys2Proof.Machine
end

section
/-!
Fences and batches: what vjoin, rfence, bclose and drain do at their issue, and where they fall short (R59, R97, R111, R112,
R151 to R153).
-/

namespace Sys2Proof.Machine

/-! ## Issue, as the statements name it -/

/-- A syllable that goes the one way of issue and meets its conditions makes the acting core what its effect gives. -/
theorem makes_of_clear {s : State} {c : Core} {i : Instr} {eff : Ctx → Core → Core} (k : Clear s c i)
    (he : exec i s = issueSyl i eff s) : Makes s i (eff (s.ctx c) c) :=
  he.trans (issueSyl_clear k _)

/-- A syllable with one timing condition, which holds: its launch waits where it does on such a condition, and else the
syllable traps with the condition's detail (R63, R265). -/
theorem falls_short {s : State} {c : Core} {i : Instr} {eff : Ctx → Core → Core} {d : Nat} {waits : Bool}
    (ha : s.actor = some c) (hm : c.phys.sysMode = false) (he : exec i s = issueSyl i eff s)
    (hi : illegalForm c i = none) (ht : timing (s.ctx c) c i = [(true, d, waits)]) :
    if (s.ctx c).la.interlocked = true ∧ waits = true then timingHolds (s.ctx c) c [(c.seq.pos, i)] = true
    else Traps s c i (c.preciseTrap i 4 d) := by
  split
  · next w => simp [timingHolds_one, ht, w.2]
  · next w =>
    have code : timingCode (s.ctx c) c i = some d := by
      rw [timingCode, ht]; revert w; cases (s.ctx c).la.interlocked <;> cases waits <;> simp
    exact he.trans (issueSyl_timing ha (by simp [illegal, hi]) code (by simp [Core.exempt, hm]) eff)

/-! ## What a fence does -/

/-- A vjoin goes the one way of issue, and clears the view marks (R151). -/
theorem exec_vjoin (s : State) :
    exec .vjoin s = issueSyl .vjoin (fun _ c => { c with sp := { c.sp with wl := [], ws := [] } }) s := rfl

theorem exec_rfence (a b : BitVec 6) (s : State) : exec (.rfence a b) s = issueSyl (.rfence a b) (fun _ c => c) s := rfl

theorem exec_bclose (s : State) : exec .bclose s = issueSyl .bclose (fun _ c => { c with net := c.net.close }) s := rfl

/-- The open batch becomes the newest closed one; an empty one makes none (R111). -/
theorem Traffic.close_eq (t : Traffic) :
    t.close = if t.openBatch = [] then t else { t with openBatch := [], closed := t.closed ++ [t.openBatch] } := by
  simp [Traffic.close]

/-- No batch is open once it has closed. -/
@[simp] theorem Traffic.close_openBatch (t : Traffic) : t.close.openBatch = [] := by
  rw [Traffic.close_eq]; split
  · assumption
  · rfl

/-- A drain's count is not met where more batches are outstanding than it names, the one that it closes included (R111). -/
theorem drainShort_iff (c : Core) (n : BitVec 4) :
    drainShort c n = true ↔ n.toNat < c.net.closed.length + (if c.net.openBatch = [] then 0 else 1) := by
  simp [drainShort, closedAfter, Core.outstanding]

/-- A drain closes the batch, and the core waits where the count is not met (R59, R153). -/
theorem exec_drain (n : BitVec 4) (s : State) :
    exec (.drain n) s = issueSyl (.drain n) (fun _ c => { c with
      net := c.net.close
      seq := if n.toNat < c.net.close.closed.length ∧ c.phys.sysMode = false then { c.seq with waiting := true }
        else c.seq }) s := by
  change execDrain n s = _
  unfold execDrain
  congr 1; funext _ c
  simp only [Bool.and_eq_true, drainShort_iff, Traffic.close_openBatch, if_true, Nat.add_zero, Bool.not_eq_true']
  split <;> rfl

theorem vjoin_clearsMarks : Claim.VjoinClearsMarks := fun s _ ha =>
  makes_of_clear ⟨ha, rfl, .inl rfl⟩ (exec_vjoin s)

theorem fences_and_batches : Claim.FencesAndBatches := by
  intro s c a b n net
  have closes : c.net.close = net := Traffic.close_eq c.net
  rw [← closes]
  exact ⟨fun k => makes_of_clear k (exec_rfence a b s), fun k => makes_of_clear k (exec_bclose s),
    fun k => makes_of_clear k (exec_drain n s)⟩

/-! ## Where a fence falls short -/

/-- The check of an rfence fails on a dhget into its range that is open, or a dhput from it that has still to read (R112). -/
theorem fenceFails_iff (now : Nat) (c : Core) (a n : Nat) : fenceFails now c a n = true ↔ n ≠ 0 ∧ ∃ f ∈ c.flights,
    ((f.addr < a + n ∧ a < f.addr + f.len) ∨ (2 ^ 22 < a + n ∧ f.addr + 2 ^ 22 < a + n)) ∧
      ((∃ d a b n, f.instr = .dhget d a b n) ∧ f.open_ = true ∨
        (∃ d a b n, f.instr = .dhput d a b n) ∧
          ∃ t ∈ f.streams, t.k < t.n ∧ now < t.first + (t.n - 1) * t.mul / t.div) := by
  have wraps (f : Flight) : f.addr < a + n - 4194304 ↔ f.addr + 2 ^ 22 < a + n := by omega
  simp only [fenceFails, Bool.and_eq_true, bne_iff_ne, List.any_eq_true]
  refine and_congr_right fun _ => exists_congr fun f => and_congr_right fun _ => ?_
  split
  · next e => simp [e, wraps, and_comm]
  · next e =>
    have live (t : Stream) : (t.live && decide (now < t.last)) = true ↔
        t.k < t.n ∧ now < t.first + (t.n - 1) * t.mul / t.div := by
      rw [Bool.and_eq_true, decide_eq_true_iff]; simp [Stream.live, Stream.last]
    simp [e, wraps, and_comm, live]
  · next hg hp =>
    refine iff_of_false (by simp) ?_
    rintro ⟨-, ⟨⟨d, a, b, n, e⟩, -⟩ | ⟨⟨d, a, b, n, e⟩, -⟩⟩
    · exact hg d a b n e
    · exact hp d a b n e

/-- The timing condition of a bclose (R111). -/
theorem timing_bclose (x : Ctx) (c : Core) :
    timing x c .bclose = [(!c.net.openBatch.isEmpty && decide (15 ≤ c.outstanding), 0x0A, false)] := rfl

theorem timing_drain (x : Ctx) (c : Core) (n : BitVec 4) :
    timing x c (.drain n) = [((!c.net.openBatch.isEmpty && decide (15 ≤ c.outstanding)) ||
      (!(x.own c).elastic && drainShort c n), 0x0A, !(x.own c).elastic)] := rfl

theorem timing_rfence (x : Ctx) (c : Core) (a b : BitVec 6) : timing x c (.rfence a b) =
    [(fenceFails x.now c (localAddr (c.regs.readG a)) (fenceLen (c.regs.readG b)), 0x0A, true)] := rfl

theorem fences_fallShort : Claim.FencesFallShort := by
  intro s c a b n ha hm x elastic from_ len full short touches open_ fails holds
  have sixteenth (h : full) : (!c.net.openBatch.isEmpty && decide (15 ≤ c.outstanding)) = true := by
    simpa using (show c.net.openBatch ≠ [] ∧ 15 ≤ c.outstanding from h)
  refine ⟨fun h => ?_, fun he h => ?_, fun he h => ?_, fun h => ?_⟩
  · have t : timing x c .bclose = [(true, 0x0A, false)] := by rw [timing_bclose, sixteenth h]
    simpa using falls_short ha hm (exec_bclose s) rfl t
  · have t : timing x c (.drain n) = [(true, 0x0A, false)] := by
      rw [timing_drain, sixteenth h, show (x.own c).elastic = true from he]; rfl
    simpa using falls_short ha hm (exec_drain n s) rfl t
  · have t : timing x c (.drain n) = [(true, 0x0A, true)] := by
      rw [timing_drain, show (x.own c).elastic = false from he]
      rcases h with h | h
      · rw [sixteenth h]; rfl
      · simp [(drainShort_iff c n).2 h]
    simpa using falls_short ha hm (exec_drain n s) rfl t
  · have t : timing x c (.rfence a b) = [(true, 0x0A, true)] := by
      rw [timing_rfence, show fenceFails x.now c (localAddr (c.regs.readG a)) (fenceLen (c.regs.readG b)) = true from
        (fenceFails_iff ..).2 h]
    simpa using falls_short ha hm (exec_rfence a b s) rfl t

/-- Settles O13: each of the four goes the one way of issue, with one timing condition or none. -/
theorem fenceSyllables : Obligations.FenceSyllables := ⟨vjoin_clearsMarks, fences_and_batches, fences_fallShort⟩

end Sys2Proof.Machine
end

section
/-!
A launch's first origin, its completion, the fill of its code, and the system windows (R43, R46, R47, R248, R254, R259, R280).
-/

namespace Sys2Proof.Machine

/-! ## Launches and partitions found by name -/

theorem State.launch?_id {s : State} {l : LaunchId} {la : Launch} (h : s.launch? l = some la) : la.id = l := by
  simpa using List.find?_some h

theorem State.launch?_mem {s : State} {l : LaunchId} {la : Launch} (h : s.launch? l = some la) : la ∈ s.launches :=
  List.mem_of_find?_eq_some h

theorem State.part?_number {s : State} {n : Nat} {p : Partition} (h : s.part? n = some p) : p.number = n := by
  simpa using List.find?_some h

/-- A name looked for in a list in which the elements of that name have been replaced by one of it. -/
theorem find?_replaced {α β : Type} [BEq β] [LawfulBEq β] (name : α → β) {l : List α} {n : β} {x y : α}
    (hy : name y = n) (h : l.find? (fun z => name z == n) = some x) :
    (l.map fun z => if name z == name y then y else z).find? (fun z => name z == n) = some y := by
  subst hy
  induction l with
  | nil => cases h
  | cons z l ih =>
    by_cases hz : (name z == name y) = true
    · simp [hz]
    · simp only [List.find?_cons, hz] at h
      simp [hz, ih h]

/-- A launch replaced is found as it is now. -/
theorem State.launch?_setLaunch {s : State} {l : LaunchId} {la x : Launch} (h : s.launch? l = some x) (hi : la.id = l) :
    (s.setLaunch la).launch? l = some la :=
  find?_replaced Launch.id hi h

/-- A partition replaced is found as it is now. -/
theorem State.part?_setPart {s : State} {n : Nat} {p x : Partition} (h : s.part? n = some x) (hi : p.number = n) :
    (s.setPart p).part? n = some p :=
  find?_replaced Partition.number hi h

/-! ## Entering a furrow -/

theorem Core.entryFault_seq (x : Ctx) (d : Nat) (b : Option Nat) (c : Core) :
    (c.entryFault x d b).seq = { c.seq with stuck := true } :=
  (Core.raise_same ..).seq

/-- Where a core that enters a furrow stands, whether or not a bundle starts there (R46, R128). -/
theorem Core.enterAt_seq (x : Ctx) (pc : Nat) (c : Core) :
    (c.enterAt x pc).seq.pc = pc ∧ (c.enterAt x pc).seq.furrow = c.seq.furrow := by
  unfold Core.enterAt; dsimp only
  split
  · rw [Core.entryFault_seq]; exact ⟨rfl, rfl⟩
  · exact ⟨rfl, rfl⟩

/-- A core enters a furrow at its furrow table's entry, and one that has none valid issues nothing (R46, R51). -/
theorem Core.redirect_seq (x : Ctx) (n : Nat) (c : Core) :
    let w := look 0#32 c.ftab n
    let listed := w.getLsbD 31 = true ∧ (x.la.descOf n).getLsbD 63 = true
    (c.redirect x n).seq.furrow = c.seq.furrow ∧ (listed → (c.redirect x n).seq.pc = w.toNat % 2 ^ 16) ∧
      (¬listed → (c.redirect x n).seq.stuck = true) := by
  intro w listed
  by_cases h : listed
  · have e : c.redirect x n = c.enterAt x (w.toNat % 2 ^ 16) := by
      unfold Core.redirect
      rw [if_pos (by simpa [descValid, listed, w] using h)]; simp [fieldOf, w]
    rw [e]
    exact ⟨(Core.enterAt_seq ..).2, fun _ => (Core.enterAt_seq ..).1, fun k => absurd h k⟩
  · have e : c.redirect x n = c.entryFault x 3 none := by
      unfold Core.redirect
      rw [if_neg (by simpa [descValid, listed, w] using h)]
    rw [e, Core.entryFault_seq]
    exact ⟨rfl, fun k => absurd k h, fun _ => rfl⟩

/-! ## The first origin (R254) -/

/-- What a launch is in a furrow that begins, beside what it fixes of the furrow's end. -/
theorem Launch.turn_eq (now n : Nat) (la : Launch) :
    ∃ next ended, la.turn now n = { la with
      furrow := n, origin := now, next := next, ended := ended, compared := false, turned := some now } := by
  unfold Launch.turn; dsimp only
  split
  · exact ⟨_, _, rfl⟩
  · split <;> exact ⟨_, _, rfl⟩

/-- A launch in furrow 0 from this cycle. -/
def Launch.begun (now : Nat) (la : Launch) : Launch := ({ la with phase := .running } : Launch).turn now 0

/-- A core as its launch begins: its channel model and its sequencer start (R46, R223). -/
def Core.begun (now : Nat) (c : Core) : Core :=
  { c with
    chan := { c.chan with banks := Vector.replicate 30 { last := now } }
    seq := { (Seq.fresh 0 c.seq) with stuck := false } }

@[simp] theorem Launch.begun_id (now : Nat) (la : Launch) : (la.begun now).id = la.id := by
  obtain ⟨_, _, e⟩ := ({ la with phase := .running } : Launch).turn_eq now 0
  rw [Launch.begun, e]

@[simp] theorem Launch.begun_descOf (now n : Nat) (la : Launch) : (la.begun now).descOf n = la.descOf n := by
  obtain ⟨_, _, e⟩ := ({ la with phase := .running } : Launch).turn_eq now 0
  rw [Launch.begun, e]; rfl

theorem Launch.begun_spec (now : Nat) (la : Launch) :
    (la.begun now).phase = .running ∧ (la.begun now).furrow = 0 ∧ (la.begun now).origin = now := by
  obtain ⟨_, _, e⟩ := ({ la with phase := .running } : Launch).turn_eq now 0
  rw [Launch.begun, e]; exact ⟨rfl, rfl, rfl⟩

/-- Furrow 0 begins: the launch, and its cores, which enter the furrow through their furrow tables. -/
theorem State.begin_eq (la : Launch) (s : State) :
    s.begin la = (s.setLaunch (la.begun s.now)).onLaunch la.id fun c =>
      (c.begun s.now).redirect ((s.setLaunch (la.begun s.now)).ctx c) 0 := by
  rw [← Launch.begun_id s.now la]; rfl

/-- What the launch is from its first origin on, and where each of its cores stands (R46, R254). -/
theorem State.begin_spec {s : State} {l : LaunchId} {la : Launch} (h : s.launch? l = some la) :
    (s.begin la).launch? l = some (la.begun s.now) ∧
      ∀ (n : Nat) (c e : Core), s.cores[n]? = some c → (s.begin la).cores[n]? = some e → c.lid = l →
        let w := look 0#32 c.ftab 0
        let listed := w.getLsbD 31 = true ∧ (la.descOf 0).getLsbD 63 = true
        e.seq.furrow = 0 ∧ (listed → e.seq.pc = w.toNat % 2 ^ 16) ∧ (¬listed → e.seq.stuck = true) := by
  have hid := State.launch?_id h
  have found : (s.setLaunch (la.begun s.now)).launch? l = some (la.begun s.now) := State.launch?_setLaunch h (by simp [hid])
  refine ⟨found, fun n c e hc he hl => ?_⟩
  have he : e = (c.begun s.now).redirect ((s.setLaunch (la.begun s.now)).ctx c) 0 := by
    rw [State.begin_eq, State.onLaunch, State.mapCores_cores, List.getElem?_map, State.setLaunch_cores, hc, Option.map_some,
      if_pos (by simp [hl, hid]), Option.some.injEq] at he
    exact he.symm
  have own : ((s.setLaunch (la.begun s.now)).ctx c).la = la.begun s.now := by simp [State.ctx, hl, found]
  have r := Core.redirect_seq ((s.setLaunch (la.begun s.now)).ctx c) 0 (c.begun s.now)
  rw [own, Launch.begun_descOf, ← he] at r
  exact r

/-- The preparation over, a launch begins here where it is alone on its partition's count, and else at the first multiple of
4,096 from here (R47, R254). -/
theorem execFirstOrigin_preparing {s : State} {l : LaunchId} {la : Launch} {p : Partition} {u : Nat}
    (hl : s.launch? l = some la) (hp : s.part? l.part.toNat = some p) (hph : la.phase = .preparing u) (hu : u ≤ s.now) :
    exec (.firstOrigin l) s = .next (
      if s.launches.any fun y => y.id != l && y.id.part == l.part && y.onCount then
        if nextAligned p.base s.now = s.now then s.begin la
        else s.setLaunch { la with phase := .starting (nextAligned p.base s.now) }
      else (s.setPart { p with base := s.now }).begin la) := by
  change execFirstOrigin l s = _
  unfold execFirstOrigin
  rw [hl, hp]; dsimp only
  rw [hph]; dsimp only
  rw [if_neg (Nat.not_lt.2 hu)]
  split <;> rfl

theorem launch_firstOrigin : Claim.FirstOrigin := by
  intro s l la p hl hp shared starts
  have hs : (s.launches.any fun y => y.id != l && y.id.part == l.part && y.onCount) = true ↔ shared := by
    simp [shared, and_assoc]
  have begins (u : State) (hu : u.launch? l = some la) (hnow : u.now = s.now) (hcores : u.cores = s.cores) (q : Partition)
      (hq : u.part? l.part.toNat = some q) (hc : q.counters = p.counters) (run : exec (.firstOrigin l) s = .next (u.begin la)) :
      starts q.base := by
    obtain ⟨found, cores⟩ := State.begin_spec hu
    obtain ⟨hph, hf, ho⟩ := la.begun_spec u.now
    exact ⟨_, _, q, run, found, hph, hf, ho.trans hnow, hq, rfl, hc, by rwa [hcores] at cores⟩
  refine ⟨fun u hph hu hsh => ?_, fun u hph hu hsh hal => ?_, fun u hph hu hsh hal => ?_, fun hph => ?_⟩
  · refine begins (s.setPart { p with base := s.now }) hl rfl rfl { p with base := s.now }
      (State.part?_setPart hp (show p.number = _ from State.part?_number hp)) rfl ?_
    rw [execFirstOrigin_preparing hl hp hph hu, if_neg (by rwa [hs])]
  · refine begins s hl rfl rfl p hp rfl ?_
    rw [execFirstOrigin_preparing hl hp hph hu, if_pos (by rwa [hs]), if_pos hal]
  · rw [execFirstOrigin_preparing hl hp hph hu, if_pos (by rwa [hs]), if_neg hal]
  · refine begins s hl rfl rfl p hp rfl ?_
    change execFirstOrigin l s = _
    unfold execFirstOrigin
    rw [hl, hp]; dsimp only
    rw [hph]; dsimp only
    rw [if_pos rfl]

/-! ## Completion (R259) -/

theorem launch_completion : Claim.Completion := by
  intro s l la p e hl hp hr he hn hq p' t
  change execLaunchCompletion l s = _
  unfold execLaunchCompletion
  rw [hl, hp]; dsimp only
  rw [he]; dsimp only
  rw [if_neg (by simpa [hr, hn] using hq)]

/-! ## A launch that has ended -/

/-- Every launch of a name is terminated, and there is one. -/
def State.HasEnded (l : LaunchId) (s : State) : Prop :=
  (∃ y ∈ s.launches, y.id = l) ∧ ∀ y ∈ s.launches, y.id = l → y.phase = .terminated

theorem State.HasEnded.launch? {s : State} {l : LaunchId} (h : s.HasEnded l) :
    ∃ la, s.launch? l = some la ∧ la.phase = .terminated := by
  obtain ⟨⟨y, hy, hi⟩, ended⟩ := h
  cases e : s.launch? l with
  | none => exact absurd hi (by simpa using List.find?_eq_none.1 e y hy)
  | some la => exact ⟨la, rfl, ended la (State.launch?_mem e) (State.launch?_id e)⟩

/-- A change of launches that keeps every name, and the phase of every launch of this one, keeps its end. -/
theorem State.HasEnded.map {s t : State} {l : LaunchId} (f : Launch → Launch) (ht : t.launches = s.launches.map f)
    (hi : ∀ y, (f y).id = y.id) (hp : ∀ y, y.id = l → (f y).phase = y.phase) (h : s.HasEnded l) : t.HasEnded l := by
  obtain ⟨⟨y, hy, hn⟩, ended⟩ := h
  rw [State.HasEnded, ht]
  refine ⟨⟨f y, List.mem_map_of_mem hy, (hi y).trans hn⟩, fun z hz hz' => ?_⟩
  obtain ⟨x, hx, rfl⟩ := List.mem_map.1 hz
  have hx' : x.id = l := (hi x).symm.trans hz'
  exact (hp x hx').trans (ended x hx hx')

theorem State.hasEnded_setLaunch {s : State} {la : Launch} (h : ∃ y ∈ s.launches, y.id = la.id)
    (hp : la.phase = .terminated) : (s.setLaunch la).HasEnded la.id := by
  obtain ⟨y, hy, hi⟩ := h
  refine ⟨⟨la, List.mem_map.2 ⟨y, hy, by simp [hi]⟩, rfl⟩, fun z hz hz' => ?_⟩
  obtain ⟨x, -, rfl⟩ := List.mem_map.1 hz
  by_cases hx : (x.id == la.id) = true
  · rw [if_pos hx]; exact hp
  · rw [if_neg hx] at hz'; simp [hz'] at hx

theorem State.HasEnded.restoreFootprints {s : State} {l : LaunchId} (h : s.HasEnded l) (k : LaunchId) :
    (s.restoreFootprints k).HasEnded l :=
  h.map _ rfl (fun y => by split <;> rfl) fun y _ => by split <;> rfl

/-- What the scheduler considers is another launch, and the end of this one stands. -/
theorem State.HasEnded.consider {p : Partition} {r : State × List Launch} {x : Launch} {l : LaunchId}
    (h : r.1.HasEnded l) (hx : x.id ≠ l) : (State.consider p r x).1.HasEnded l := by
  unfold State.consider; dsimp only
  split
  · exact h
  split
  · refine h.map (fun y => if y.id == x.id then { x with phase := .called } else y) rfl (fun y => ?_) fun y hy => ?_
    · split
      · next e => exact (beq_iff_eq.1 e).symm
      · rfl
    · rw [if_neg (by simpa [hy] using hx.symm)]
  split
  · exact h.map _ rfl (fun y => by split <;> rfl) fun y _ => by split <;> rfl
  · exact h

theorem mem_insertLaunch {x y : Launch} {l : List Launch} : y ∈ insertLaunch x l ↔ y = x ∨ y ∈ l := by
  induction l with
  | nil => simp [insertLaunch]
  | cons z l ih =>
    unfold insertLaunch; split
    · simp [ih, or_left_comm]
    · simp

/-- The scheduler's queue holds the launches that it was made of. -/
theorem mem_foldl_insertLaunch {y : Launch} (l q : List Launch) :
    y ∈ l.foldl (fun q x => insertLaunch x q) q ↔ y ∈ l ∨ y ∈ q := by
  induction l generalizing q with
  | nil => simp
  | cons x l ih => simp [ih, mem_insertLaunch, or_assoc, or_left_comm]

/-- A launch that has ended is not queued, so no decision of the scheduler starts it (R252, R327). -/
theorem State.HasEnded.schedule {s : State} {l : LaunchId} (h : s.HasEnded l) (n : Nat) : (s.schedule n).HasEnded l := by
  unfold State.schedule; split
  · exact h
  · next p _ =>
    dsimp only
    have others : ∀ x ∈ (s.launches.filter fun x => x.id.part.toNat == n && x.phase == .queued).foldl
        (fun q x => insertLaunch x q) [], x.id ≠ l := by
      intro x hx hl
      simp only [mem_foldl_insertLaunch, List.mem_filter, Bool.and_eq_true, beq_iff_eq, List.not_mem_nil, or_false] at hx
      have := h.2 x hx.1 hl
      rw [hx.2.2] at this; cases this
    generalize (s.launches.filter fun x => x.id.part.toNat == n && x.phase == .queued).foldl
        (fun q x => insertLaunch x q) [] = q at others
    suffices ∀ r : State × List Launch, r.1.HasEnded l → (q.foldl (State.consider p) r).1.HasEnded l from this (s, []) h
    induction q with
    | nil => exact fun r hr => hr
    | cons x q ih =>
      intro r hr
      exact ih (fun y hy => others y (List.mem_cons_of_mem _ hy)) _ (hr.consider (others x List.mem_cons_self))

/-! ## A fill that cannot be -/

@[simp] theorem State.schedule_resident (n : Nat) (s : State) : (s.schedule n).resident = s.resident := by
  obtain ⟨ls, e⟩ := s.schedule_eq n; rw [e]
@[simp] theorem State.schedule_parts (n : Nat) (s : State) : (s.schedule n).parts = s.parts := by
  obtain ⟨ls, e⟩ := s.schedule_eq n; rw [e]
@[simp] theorem State.schedule_now (n : Nat) (s : State) : (s.schedule n).now = s.now := by
  obtain ⟨ls, e⟩ := s.schedule_eq n; rw [e]

/-- What a launch that ends before its first origin leaves of the module's other parts. -/
theorem State.endEarly_frame (la : Launch) (core : Nat) (t : TrapRec) (s : State) :
    (s.endEarly la core t).resident = s.resident ∧ (s.endEarly la core t).parts = s.parts ∧
    (s.endEarly la core t).now = s.now := by
  unfold State.endEarly; dsimp only; split <;> simp

theorem State.endAtRestart_frame (la : Launch) (core a b c : Nat) (s : State) :
    (s.endAtRestart la core a b c).resident = s.resident ∧ (s.endAtRestart la core a b c).parts = s.parts ∧
    (s.endAtRestart la core a b c).now = s.now := by
  unfold State.endAtRestart; dsimp only; split <;> simp

theorem State.fillFault_frame (la : Launch) (core a b c : Nat) (s : State) :
    (s.fillFault la core a b c).resident = s.resident ∧ (s.fillFault la core a b c).parts = s.parts ∧
    (s.fillFault la core a b c).now = s.now := by
  unfold State.fillFault; split
  · simpa using State.endEarly_frame ..
  · simpa using State.endAtRestart_frame ..

theorem State.hasEnded_endEarly {la : Launch} {s : State} (h : ∃ y ∈ s.launches, y.id = la.id) (core : Nat) (t : TrapRec) :
    (s.endEarly la core t).HasEnded la.id := by
  have e : State.HasEnded la.id ((s.drop la.id).setLaunch { la with phase := .terminated, fills := [] }) :=
    State.hasEnded_setLaunch (la := { la with phase := .terminated, fills := [] }) (by simpa using h) rfl
  unfold State.endEarly; dsimp only; split
  · exact State.HasEnded.restoreFootprints e _
  · exact e

theorem State.hasEnded_endAtRestart {la : Launch} {s : State} (h : ∃ y ∈ s.launches, y.id = la.id) (core a b c : Nat) :
    (s.endAtRestart la core a b c).HasEnded la.id := by
  have e (u : State) (hu : u.launches = s.launches) :
      State.HasEnded la.id (u.setLaunch { la with phase := .terminated, fills := [] }) :=
    State.hasEnded_setLaunch (la := { la with phase := .terminated, fills := [] }) (by rwa [hu]) rfl
  unfold State.endAtRestart; dsimp only; split
  · exact State.HasEnded.restoreFootprints (e _ rfl) _
  · exact e _ rfl

/-- A fill that meets what it cannot read ends its launch (R280, R304). -/
theorem State.hasEnded_fillFault {la : Launch} {s : State} (h : ∃ y ∈ s.launches, y.id = la.id) (core a b c : Nat) :
    (s.fillFault la core a b c).HasEnded la.id := by
  unfold State.fillFault; split
  · exact (State.hasEnded_endEarly h ..).schedule _
  · exact (State.hasEnded_endAtRestart h ..).schedule _

/-! ## The words that a fill reads (R7, R280) -/

theorem leNat_lt (bs : List Byte) : leNat bs < 256 ^ bs.length := by
  induction bs with
  | nil => simp [leNat]
  | cons x bs ih => rw [leNat, List.length_cons, Nat.pow_succ]; have := x.isLt; omega

theorem Mem.dense_length (d : Byte) (n a : Nat) (m : Mem) : (Mem.dense d n a m).length = n := by
  induction n generalizing a m with
  | zero => rfl
  | succ n ih =>
    match m with
    | [] => simp [Mem.dense, ih]
    | (k, x) :: m => unfold Mem.dense; split <;> simp [ih]

/-- The bytes of a run are its first one and the run behind it. -/
theorem Mem.bytes_succ (d : Byte) (m : Mem) (a n : Nat) :
    m.bytes d a (n + 1) = m.get d a :: m.bytes d (a + 1) n := by
  simp [Mem.bytes, List.range_succ_eq_map, Nat.add_right_comm, ← Nat.add_assoc]

/-- A cell below the run is not read. -/
theorem Mem.bytes_cons_of_lt (d : Byte) {k a : Nat} (h : k < a) (x : Byte) (m : Mem) (n : Nat) :
    Mem.bytes d ((k, x) :: m) a n = Mem.bytes d m a n := by
  refine List.map_congr_left fun i _ => ?_
  rw [Mem.get, if_pos (by omega)]

/-- A run read in one pass is the bytes of its addresses. -/
theorem Mem.dense_eq_bytes (d : Byte) (n a : Nat) {m : Mem} (h : m.wf d = true) (ha : ∀ e ∈ m, a ≤ e.1) :
    Mem.dense d n a m = m.bytes d a n := by
  induction n generalizing a m with
  | zero => rfl
  | succ n ih =>
    rw [Mem.bytes_succ]
    match m with
    | [] => rw [Mem.dense, ih _ h (by simp)]; rfl
    | (k, x) :: m =>
      obtain ⟨-, hk, hm⟩ := (Mem.wf_cons d k x m).1 h
      have hak : a ≤ k := ha (k, x) List.mem_cons_self
      by_cases e : k = a
      · subst e
        rw [Mem.dense, if_pos rfl, ih _ hm fun e he => hk e he, Mem.bytes_cons_of_lt d (by omega)]
        simp [Mem.get]
      · have below : ∀ e ∈ (k, x) :: m, a + 1 ≤ e.1 := by
          intro e he
          rcases List.mem_cons.1 he with rfl | he
          · simp only; omega
          · have := hk e he; omega
        rw [Mem.dense, if_neg e, ih _ h below, Mem.get, if_neg (by omega), if_neg e]

/-- A range counted from its first byte reads as it stood. -/
theorem Mem.get_part (d : Byte) {lo hi a : Nat} {m : Mem} (h : m.wf d = true) (ha : lo + a < hi) :
    (m.part lo hi).get d a = m.get d (lo + a) := by
  have moved : ∀ l : Mem, (∀ e ∈ l, lo ≤ e.1) →
      Mem.get d (l.map fun e => (e.1 - lo, e.2)) a = Mem.get d l (lo + a) := by
    intro l hl
    induction l with
    | nil => rfl
    | cons e l ih =>
      have he := hl e List.mem_cons_self
      have hlt : e.1 - lo < a ↔ e.1 < lo + a := by omega
      have heq : e.1 - lo = a ↔ e.1 = lo + a := by omega
      simp only [List.map_cons, Mem.get, hlt, heq, ih fun e he => hl e (List.mem_cons_of_mem _ he)]
  rw [Mem.part, moved _ (by simp +contextual), Mem.get_filter d (fun a => decide (lo ≤ a) && decide (a < hi)) h]
  simp [ha]

/-- The words of a fill are as many as the code that it fills has. -/
theorem fillWords_length (p : Phys) (e : Word) (n : Nat) : (fillWords p e n).length = n := by
  simp [fillWords, natsOf, Mem.dense_length]

/-- Word `k` of a fill is what the four bytes of its place in the window hold (R7, R280). -/
theorem fillWords_getElem? {p : Phys} (h : p.hbm.wf 0 = true) {e : Word} {n k : Nat} {w : BitVec 32}
    (hw : (fillWords p e n)[k]? = some w) : w.toNat = leNat (p.hbm.bytes 0 (windowByte p e + 4 * k) 4) := by
  have hk : k < n := by
    have := (List.getElem?_eq_some_iff.1 hw).1
    rwa [fillWords_length] at this
  have bytes : (p.hbm.part (windowByte p e) (windowByte p e + 4 * n)).dense 0 (4 * n) 0 =
      p.hbm.bytes 0 (windowByte p e) (4 * n) := by
    rw [Mem.dense_eq_bytes 0 _ _ (Mem.wf_part 0 _ _ h) (by simp)]
    refine List.map_congr_left fun i hi => ?_
    rw [Nat.zero_add, Mem.get_part 0 h (by have := List.mem_range.1 hi; omega)]
  have field : ((p.hbm.bytes 0 (windowByte p e) (4 * n)).drop (4 * k)).take 4 =
      p.hbm.bytes 0 (windowByte p e + 4 * k) 4 := by
    refine List.ext_getElem (by simp [Mem.bytes]; omega) fun i _ _ => ?_
    simp [Mem.bytes, Nat.add_assoc]
  have low := leNat_lt (p.hbm.bytes 0 (windowByte p e + 4 * k) 4)
  rw [fillWords, bytes] at hw
  have hw : BitVec.ofNat 32 (leNat (p.hbm.bytes 0 (windowByte p e + 4 * k) 4)) = w := by
    rw [List.getElem?_map, natsOf, List.getElem?_map, List.getElem?_range (by simpa [Mem.bytes] using hk), Option.map_some,
      Option.map_some, containerField, field] at hw
    exact Option.some.inj hw
  rw [← hw, BitVec.toNat_ofNat, Nat.mod_eq_of_lt (by simpa [Mem.bytes] using low)]

/-- A read of the home channel gives the first unit of those that cannot be corrected (R304). -/
theorem State.readHbm_lost (s : State) (k a n : Nat) : (s.readHbm k a n).2 = ((s.physOf k).lost 7 a n).head? := by
  unfold State.readHbm Phys.lost; dsimp only
  split
  · next h => rw [List.isEmpty_iff.1 h]; rfl
  · rw [List.head?_map, List.head?_filter]

/-! ## The fill of a core's code (R248, R280) -/

/-- What a fill that is done does: a body that is not resident, in a window with a unit that cannot be corrected, ends the
launch; any other is resident, and the scheduler decides. -/
theorem execCodeFillDone_eq {s : State} {l : LaunchId} {la : Launch} {i : Nat} {e : Fill} (hl : s.launch? l = some la)
    (he : la.fills.find? (fun e => e.core == i && e.place == 0 && e.fill == 0 && decide (e.ready ≤ s.now)) = some e) :
    let b := la.body i
    let n := (s.joinedOf la i).elim 0 fun j => j.code.length
    let r := s.readHbm b.at_ (windowByte (s.physOf b.at_) e.entry) (4 * n)
    let filled : State := ({ r.1 with resident := (b, fillWords (s.physOf b.at_) e.entry n) :: s.resident }).onPhys b.at_
      (Core.writeUnits 5 0 262144)
    let done (u : State) : Host.Outcome State Fault Refusal := .next (State.schedule l.part.toNat
      (u.setLaunch { la with fills := la.fills.filter fun e => e.core != i }))
    (s.codeOf b ≠ none → exec (.codeFillDone l i) s = done s) ∧
    (s.codeOf b = none → ∀ w, r.2 = some w →
      exec (.codeFillDone l i) s = .next (r.1.fillFault la i 0x0D 7 w.2.toNat)) ∧
    (s.codeOf b = none → r.2 = none → exec (.codeFillDone l i) s = done filled) := by
  intro b n r filled done
  have run : exec (.codeFillDone l i) s = match r.2.filter fun _ => (s.codeOf b).isNone with
      | some w => .next (r.1.fillFault la i 0x0D 7 w.2.toNat)
      | none => done (if (s.codeOf b).isSome then s else filled) := by
    change execCodeFillDone l i s = _
    unfold execCodeFillDone
    rw [hl]; dsimp only
    rw [he] <;> rfl
  refine ⟨fun hc => ?_, fun hc w hw => ?_, fun hc hw => ?_⟩
  · obtain ⟨ws, hc⟩ := Option.ne_none_iff_exists'.1 hc
    rw [run, hc]; cases r.2 <;> rfl
  · rw [run, hc, hw]; rfl
  · rw [run, hc, hw]; rfl

/-- A body put into its code store is what the store holds for it. -/
theorem State.codeOf_cons (s : State) (b : Body) (ws : List (BitVec 32)) (l : List (Body × List (BitVec 32)))
    (h : s.resident = (b, ws) :: l) : s.codeOf b = some ws := by
  simp [State.codeOf, h]

/-! ## The system windows (R43, R248) -/

/-- A body copied from the sheaf area, where it is copied, leaves the partitions and the cycle. -/
theorem State.copied_frame (s : State) (b : Body) (p : Option Partition) (k : Nat) (c : Prop) [Decidable c] :
    let t := (if c then p.map fun p => s.areaBody b p else none).elim s fun r =>
      if r.2.2.isNone then r.1.place b k r.2.1 else r.1
    t.parts = s.parts ∧ t.now = s.now := by
  cases p with
  | none => simp
  | some p =>
    by_cases hc : c
    · simp only [hc, if_true, Option.map_some, Option.elim_some]
      split <;> simp
    · simp [hc]

/-- A window's work on one core leaves the partitions and the cycle: the search for a slot, the copy, the begin of a fill and
a fault each do. -/
theorem State.fillStep_frame (r : State × List (Nat × Nat)) (l : LaunchId) (e : Fill) :
    (State.fillStep r l e).1.parts = r.1.parts ∧ (State.fillStep r l e).1.now = r.1.now := by
  unfold State.fillStep; dsimp only
  split
  · exact ⟨rfl, rfl⟩
  next la _ =>
  generalize hf : (if (r.1.slotOf (la.body e.core)).isSome then (r.1, some 0, none)
    else State.findSlot (la.body e.core).at_ r.1) = found
  have sought : found.1.parts = r.1.parts ∧ found.1.now = r.1.now := by rw [← hf]; split <;> simp
  clear hf
  generalize (if (found.1.slotOf (la.body e.core)).isSome then 0 else e.place) = place
  generalize min (16384 - look 0 r.2 (la.body e.core).at_) place = moved
  have copied := State.copied_frame found.1 (la.body e.core) (found.1.part? l.part.toNat) (found.2.1.getD 0)
    ((decide (place - moved = 0) && (found.1.slotOf (la.body e.core)).isNone) = true)
  dsimp only at copied
  generalize (Option.elim (if (decide (place - moved = 0) && (found.1.slotOf (la.body e.core)).isNone) = true then _ else none)
    found.1 _) = t at copied ⊢
  generalize (if (found.1.codeOf (la.body e.core)).isSome then 0 else e.fill) = fill
  generalize hu : (if (decide (fill = 4 * ((r.1.joinedOf la e.core).elim [] fun x => x.code).length) && decide (0 < fill)) = true
    then State.beginFill (la.body e.core).at_ (t.slotOf (la.body e.core)) t else (t, e.entry, none)) = begun
  have begins : begun.1.parts = t.parts ∧ begun.1.now = t.now := by rw [← hu]; split <;> simp
  clear hu
  rw [← sought.1, ← sought.2, ← copied.1, ← copied.2]
  split
  · exact (State.fillFault_frame ..).2
  split
  · exact ⟨rfl, rfl⟩
  split
  · exact ⟨rfl, rfl⟩
  rw [← begins.1, ← begins.2]
  split
  · exact (State.fillFault_frame ..).2
  split
  · exact (State.fillFault_frame ..).2
  · exact ⟨rfl, rfl⟩

theorem State.fillSteps_frame (work : List (LaunchId × Fill)) (r : State × List (Nat × Nat)) :
    (work.foldl (fun r w => State.fillStep r w.1 w.2) r).1.parts = r.1.parts ∧
    (work.foldl (fun r w => State.fillStep r w.1 w.2) r).1.now = r.1.now :=
  ⟨foldl_keeps (fun r : State × List (Nat × Nat) => r.1.parts) _
      (fun r (w : LaunchId × Fill) => (State.fillStep_frame r w.1 w.2).1) _ _,
    foldl_keeps (fun r : State × List (Nat × Nat) => r.1.now) _
      (fun r (w : LaunchId × Fill) => (State.fillStep_frame r w.1 w.2).2) _ _⟩

/-- A system window marks its partition as served in this cycle. -/
theorem launch_systemWindow {s : State} {n : BitVec 8} {p : Partition} (hp : s.part? n.toNat = some p) :
    ∃ t, exec (.systemWindow n) s = .next t ∧ t.part? n.toNat = some { p with window := some s.now } ∧ t.now = s.now := by
  have run : exec (.systemWindow n) s = execSystemWindow n s := rfl
  unfold execSystemWindow at run
  rw [hp] at run
  refine ⟨_, run, ?_, (State.fillSteps_frame ..).2⟩
  rw [State.part?, (State.fillSteps_frame ..).1]
  exact State.part?_setPart hp (show p.number = _ from State.part?_number hp)

theorem launch_fillAndWindow : Claim.FillAndWindow := by
  intro s l la i n p
  refine ⟨fun e hl he => ?_, launch_systemWindow⟩
  intro b y lost
  obtain ⟨resident, fails, fills⟩ := execCodeFillDone_eq hl he
  have hlost : (s.readHbm b.at_ (windowByte y e.entry) (4 * (s.joinedOf la i).elim 0 fun j => j.code.length)).2 = lost.head? :=
    State.readHbm_lost ..
  refine ⟨fun hc hne => ?_, fun h => ?_⟩
  · obtain ⟨w, rest, hw⟩ := List.exists_cons_of_ne_nil hne
    have named : ∃ x ∈ s.launches, x.id = la.id := ⟨la, State.launch?_mem hl, rfl⟩
    have ended := State.hasEnded_fillFault (la := la) (s := (s.readHbm b.at_ (windowByte y e.entry)
      (4 * (s.joinedOf la i).elim 0 fun j => j.code.length)).1) (by simpa using named) i 0x0D 7 w.2.toNat
    rw [State.launch?_id hl] at ended
    obtain ⟨la', found, phase⟩ := ended.launch?
    exact ⟨_, la', fails hc w (by rw [hlost, hw]; rfl), found, phase, by rw [(State.fillFault_frame ..).1]; simp⟩
  · by_cases hc : s.codeOf b = none
    · have hnil : lost = [] := h.resolve_left (not_not.2 hc)
      exact ⟨_, fills hc (by rw [hlost, hnil]; rfl), by simp, by simp, by simp, by simp, by simp, fun k => absurd hc k,
        fun _ => ⟨_, State.codeOf_cons _ _ _ _ (State.onPhys_resident ..), fillWords_length ..,
          fun hwf k w hw => fillWords_getElem? hwf hw⟩⟩
    · exact ⟨s, resident hc, rfl, rfl, rfl, rfl, rfl, fun _ => rfl, fun k => absurd k hc⟩

/-- Settles O46: a launch's first origin, its completion, the fill of its code and the system windows. -/
theorem launchEvents : Obligations.LaunchEvents := ⟨launch_firstOrigin, launch_completion, launch_fillAndWindow⟩

end Sys2Proof.Machine
end

section
/-!
A deferred change performs: what the register it names becomes, and that no other register changes (R11, R26, R36, R39, R52 to
R54, R144, R154, R155, R160, R190, R200, R203, R287).
-/

namespace Sys2Proof.Machine

/-! ## The event -/

/-- Deferred change `p` of the acting core performs; one that writes no system register changes the core alone. -/
theorem scalarResultWrite_at {s : State} {c : Core} {i : Nat} {p : Pend} (ha : s.actor = some c) (hp : c.pends[i]? = some p)
    (hs : ∀ n v, p.what ≠ .sys n v) : exec (.scalarResultWrite i) s =
      .next (s.setActor (({ c with pends := c.pends.eraseIdx i } : Core).perform (s.ctx c) p)) := by
  change execScalarResultWrite i s = _
  unfold execScalarResultWrite
  simp only [ha, hp]

/-- A write of a system register also drops TLB entries, and the context's image keeps the window table (R280, R284). -/
theorem scalarResultWrite_sys {s : State} {c : Core} {i : Nat} {p : Pend} {n : BitVec 16} {v : Word} (ha : s.actor = some c)
    (hp : c.pends[i]? = some p) (hw : p.what = .sys n v) :
    let c' := ({ c with pends := c.pends.eraseIdx i } : Core).writeSys n.toNat v
    exec (.scalarResultWrite i) s =
      .next (({ s.setActor c' with tlb := dropTlb n c' s.tlb } : State).keepWindows c') := by
  change execScalarResultWrite i s = _
  unfold execScalarResultWrite
  simp [ha, hp, hw, Core.perform]

/-! ## Steer registers and counters -/

/-- A steer register's bits 31:2 read zero, whichever it is (R52). -/
theorem Regs.readK_masked (r : Regs) (k : BitVec 4) : r.readK k &&& 0xFFFFFFFF00000003#64 = r.readK k := by
  unfold Regs.readK; split
  · rw [BitVec.and_assoc, BitVec.and_self]
  · rfl

/-- A prep replaces two successors and clears the condition half (R144). -/
theorem setSucc_readK (r : Regs) (k : BitVec 4) (hi : Bool) (a b : BitVec 8) : setSucc (r.readK k) hi a b =
    if hi then (r.readK k &&& 0x0000FFFF00000000#64) ||| (a.setWidth 64 <<< 48) ||| (b.setWidth 64 <<< 56)
    else (r.readK k &&& 0xFFFF000000000000#64) ||| (a.setWidth 64 <<< 32) ||| (b.setWidth 64 <<< 40) := by
  have bytes (n : Nat) : ((b.setWidth 64 <<< 8) ||| a.setWidth 64 : Word) <<< n =
      (a.setWidth 64 <<< n) ||| (b.setWidth 64 <<< (8 + n)) := by
    rw [BitVec.shiftLeft_or_distrib, ← BitVec.shiftLeft_add, BitVec.or_comm]
  have keeps (m n : Word) (h : 0xFFFFFFFF00000003#64 &&& m = 0xFFFFFFFF00000003#64 &&& n) :
      r.readK k &&& m = r.readK k &&& n := by
    rw [← Regs.readK_masked, BitVec.and_assoc, h, ← BitVec.and_assoc]
  cases hi
  · simp only [setSucc, Bool.false_eq_true, if_false, bytes]
    rw [keeps _ 0xFFFF000000000000#64 (by decide), BitVec.or_assoc]
  · simp only [setSucc, if_true, bytes]
    rw [keeps _ 0x0000FFFF00000000#64 (by decide), BitVec.or_assoc]

/-- A saturating sum is the lesser of the sum and the greatest word (R36). -/
theorem satAdd_eq (a b : Word) : satAdd a b = BitVec.ofNat 64 (min (a.toNat + b.toNat) (2 ^ 64 - 1)) := by
  unfold satAdd; split
  · next h => rw [Nat.min_eq_right (by omega)]; rfl
  · next h => rw [Nat.min_eq_left (by omega)]; apply BitVec.eq_of_toNat_eq; simp

/-! ## What the array holds busy (R190, R203) -/

theorem Core.perform_ctrl (x : Ctx) (p : Pend) (c : Core) {n : BitVec 6} {v : Word} (hw : p.what = .ctrl n v) :
    (n.toNat < 0x10 ∨ tileBusy c (n.toNat - 0x10) p.seqno x.now = false →
      c.perform x p = { c with regs := c.regs.writeCtrl n.toNat v }) ∧
    (0x10 ≤ n.toNat → tileBusy c (n.toNat - 0x10) p.seqno x.now = true → c.perform x p = c.raise x p.trap) := by
  simp only [Core.perform, hw]
  refine ⟨fun h => if_neg ?_, fun h b => if_pos (by simp [h, b])⟩
  rcases h with h | h
  · simp; omega
  · simp [h]

theorem Core.perform_accMode (x : Ctx) (p : Pend) (c : Core) {g : Bool} (hw : p.what = .accMode g) :
    c.perform x p = if storeBusy c p.seqno x.now then c.raise x p.trap else { c with arr := { c.arr with grad := g } } := by
  simp only [Core.perform, hw]

theorem Core.perform_tags (x : Ctx) (p : Pend) (c : Core) {t : BitVec 4} {bs : List Byte} (hw : p.what = .tags t bs) :
    c.perform x p = if tileBusy c t.toNat p.seqno x.now then c.raise x p.trap
      else c.putRun c.nextUid (Run.full .tag (t.toNat * 256) bs) := by
  simp only [Core.perform, hw]

/-- The TLB entries that a write of ctxid, iptroot or itlbinv leaves: those of another plot or context id (R280). -/
theorem mem_dropTlb (r : BitVec 16) (c : Core) (t : List (Nat × TlbEntry)) :
    (r.toNat ∉ [0x13, 0x20, 0x22] → dropTlb r c t = t) ∧
    (r.toNat ∈ [0x13, 0x20, 0x22] → ∀ e, e ∈ dropTlb r c t ↔
      e ∈ t ∧ ¬(e.1 = plotOf c.px c.py ∧ e.2.ctx = c.phys.ctxid)) := by
  have names : (r = 0x13#16 || r = 0x20#16 || r = 0x22#16) = true ↔ r.toNat ∈ [0x13, 0x20, 0x22] := by
    simp [← BitVec.toNat_inj, or_assoc]
  refine ⟨fun h => if_neg (names.not.2 h), fun h e => ?_⟩
  rw [dropTlb, if_pos (names.2 h)]
  simp [imp_iff_not_or]

/-- What a write of a system register may change: watchpoints, the window table and what the core holds beside its context. -/
def Core.SameButSystem (c c' : Core) : Prop := c' = { c with wp := c'.wp, windows := c'.windows, phys := c'.phys }

theorem Core.setErr_sameButSystem (a : Nat) (e : ErrLog) (c : Core) : c.SameButSystem (c.setErr a e) := by
  unfold Core.setErr; split <;> rfl

theorem Core.writeSys_sameButSystem (n : Nat) (v : Word) (c : Core) : c.SameButSystem (c.writeSys n v) := by
  have cases_ {q : Prop} [Decidable q] {a b : Core} (ha : c.SameButSystem a) (hb : c.SameButSystem b) :
      c.SameButSystem (if q then a else b) := by split <;> assumption
  unfold Core.writeSys
  iterate 6 refine cases_ rfl ?_
  split
  · rfl
  iterate 4 refine cases_ rfl ?_
  iterate 3 refine cases_ (Core.setErr_sameButSystem ..) ?_
  rfl

/-- Settles O17: each owed change performs on the register it names, whatever else the core holds. -/
theorem scalarResultPerforms : Obligations.ScalarResultPerforms := by
  intro s c i p ha hp c0 r ends
  have at_ {c' : Core} (hs : ∀ n v, p.what ≠ .sys n v) (h : c0.perform (s.ctx c) p = c') : ends c' :=
    h ▸ scalarResultWrite_at ha hp hs
  refine ⟨fun d v e => ?_, ?_⟩
  · exact at_ (by simp [e]) (by simp only [Core.perform, e]; rfl)
  intro steer sum
  refine ⟨fun k m v e => ?_, fun k a b e => ?_, fun k a b e => ?_, fun n v e => ?_, fun h a b e => ?_,
    fun h n f e => ?_, fun n v e => ?_, fun v e => ?_, fun n v e => ?_, fun g e => ?_, fun t bs e => ?_⟩
  · exact at_ (by simp [e]) (by simp only [Core.perform, e]; rfl)
  · exact at_ (by simp [e]) (by simp only [Core.perform, e, setSucc_readK]; rfl)
  · exact at_ (by simp [e]) (by simp only [Core.perform, e, setSucc_readK]; rfl)
  · exact at_ (by simp [e]) (by simp only [Core.perform, e, Regs.addN, satAdd_eq]; rfl)
  · exact at_ (by simp [e]) (by simp only [Core.perform, e]; rfl)
  · exact at_ (by simp [e]) (by simp only [Core.perform, e]; rfl)
  · obtain ⟨writes, faults⟩ := Core.perform_ctrl (s.ctx c) p c0 e
    exact ⟨fun h => at_ (by simp [e]) (writes h), fun h b => at_ (by simp [e]) (faults h b)⟩
  · exact at_ (by simp [e]) (by simp only [Core.perform, e]; rfl)
  · have moves : c0.SameButSystem (c0.writeSys n.toNat v) := c0.writeSys_sameButSystem ..
    have own : (c0.writeSys n.toNat v).px = c.px ∧ (c0.writeSys n.toNat v).py = c.py ∧
        (c0.writeSys n.toNat v).lid = c.lid ∧ (c0.writeSys n.toNat v).index = c.index := by
      rw [moves]; exact ⟨rfl, rfl, rfl, rfl⟩
    obtain ⟨px, py, lid, index⟩ := own
    obtain ⟨keeps, drops⟩ := mem_dropTlb n (c0.writeSys n.toNat v) s.tlb
    refine ⟨_, scalarResultWrite_sys ha hp e, rfl, ?_, keeps, fun h x => ?_⟩
    · refine List.map_congr_left fun d _ => ?_
      simp [c0, lid, index]
    · rw [px, py] at drops; exact drops h x
  · have free := Core.perform_accMode (s.ctx c) p c0 e
    exact ⟨fun h => at_ (by simp [e]) (free.trans (if_neg (Bool.eq_false_iff.1 h))),
      fun h => at_ (by simp [e]) (free.trans (if_pos h))⟩
  · have free := Core.perform_tags (s.ctx c) p c0 e
    exact ⟨fun h => at_ (by simp [e]) (free.trans (if_pos h)),
      fun h => at_ (by simp [e]) (free.trans (if_neg (Bool.eq_false_iff.1 h)))⟩

end Sys2Proof.Machine
end

section
/-!
Where a syllable may not issue, said by lists of conditions (R63, R136, R137, R265), and what the lists give.
-/

namespace Sys2Proof.Machine

/-! ## Conditions and their checks -/

/-- Conditions with their details, and the checks that decide them. -/
def Decides {α : Type} (l : List (Prop × α)) (b : List (Bool × α)) : Prop :=
  List.Forall₂ (fun p q => (p.1 ↔ q.1 = true) ∧ p.2 = q.2) l b

theorem Decides.nil {α : Type} : Decides ([] : List (Prop × α)) [] := List.Forall₂.nil

theorem Decides.cons {α : Type} {p : Prop} {b : Bool} {a : α} {l : List (Prop × α)} {bs : List (Bool × α)}
    (h : p ↔ b = true) (t : Decides l bs) : Decides ((p, a) :: l) ((b, a) :: bs) :=
  List.Forall₂.cons ⟨h, rfl⟩ t

/-- The checks that fail are those of the conditions that hold. -/
theorem Decides.mem_iff {α : Type} {l : List (Prop × α)} {b : List (Bool × α)} (h : Decides l b) (a : α) :
    (true, a) ∈ b ↔ ∃ p, (p, a) ∈ l ∧ p := by
  induction h with
  | nil => simp
  | @cons p q l b e _ ih =>
    obtain ⟨P, x⟩ := p
    obtain ⟨B, y⟩ := q
    obtain ⟨e, rfl⟩ : (P ↔ B = true) ∧ x = y := e
    simp only [List.mem_cons, Prod.mk.injEq, ih]
    constructor
    · rintro (⟨rfl, rfl⟩ | ⟨p, hp, h⟩)
      · exact ⟨P, .inl ⟨rfl, rfl⟩, e.2 rfl⟩
      · exact ⟨p, .inr hp, h⟩
    · rintro ⟨p, ⟨rfl, rfl⟩ | hp, h⟩
      · exact .inl ⟨(e.1 h).symm, rfl⟩
      · exact .inr ⟨p, hp, h⟩

/-- A syllable whose checks decide the conditions of two lists traps as the lists say. -/
theorem trapsWhere {s : State} {c : Core} {i : Instr} {ill : List (Prop × Nat)} {tim : List (Prop × Nat × Bool)}
    {bl : List (Bool × Nat)} {bt : List (Bool × Nat × Bool)} {eff : Ctx → Core → Core} (ha : s.actor = some c)
    (he : exec i s = issueSyl i eff s) (hi : illegalForm c i = firstCode bl) (hb : Decides ill bl)
    (ht : timing (s.ctx c) c i = bt) (hd : Decides tim bt) (hs : tim.Pairwise fun p q => p.2.1 ≤ q.2.1) :
    TrapsWhere s c i ill tim :=
  trapsWhere_of ha he hi hb (fun d h => by rw [ht]; exact hd.mem_iff (d, h)) hs

/-! ## The first condition that holds -/

theorem firstOf_head {p : Prop} {d : Nat} {l : List (Prop × Nat)} (h : p) : FirstOf ((p, d) :: l) (some d) :=
  ⟨[], p, l, rfl, h, by simp⟩

theorem firstOf_cons {p : Prop} {d e : Nat} {l : List (Prop × Nat)} (n : ¬p) (h : FirstOf l (some e)) :
    FirstOf ((p, d) :: l) (some e) := by
  obtain ⟨a, q, b, rfl, hq, ha⟩ := h
  refine ⟨(p, d) :: a, q, b, rfl, hq, fun x hx => ?_⟩
  rcases List.mem_cons.1 hx with rfl | hx
  · exact n
  · exact ha x hx

/-! ## What the lists give -/

/-- A syllable that names nothing of a context is exempt nowhere (R288). -/
theorem Core.exempt_of_names (c : Core) {i : Instr} (h : namesContext i = false) : c.exempt i = false := by
  simp [Core.exempt, h]

/-- In launch code no syllable is exempt. -/
theorem Core.exempt_of_launch {c : Core} (h : c.phys.sysMode = false) (i : Instr) : c.exempt i = false := by
  simp [Core.exempt, h]

/-- The first illegal-syllable cause that holds traps (R136). -/
theorem TrapsWhere.illegal {s : State} {c : Core} {i : Instr} {ill : List (Prop × Nat)} {tim : List (Prop × Nat × Bool)}
    {d : Nat} (h : TrapsWhere s c i ill tim) (k : FirstOf ill (some d)) (e : d ≠ 6 ∨ c.exempt i = false) :
    Traps s c i (c.preciseTrap i 1 d) := h.1 d k e

/-- A syllable for which no condition holds is clear. -/
theorem TrapsWhere.clear {s : State} {c : Core} {i : Instr} {ill : List (Prop × Nat)} {tim : List (Prop × Nat × Bool)}
    (h : TrapsWhere s c i ill tim) (k : ∀ q ∈ ill, ¬q.1) (n : ∀ q ∈ tim, ¬q.1) : Clear s c i := h.2.2 k n

/-- The first timing condition that holds, where a launch may wait on it: the core holds, or the syllable traps (R63, R265). -/
theorem TrapsWhere.falls {s : State} {c : Core} {i : Instr} {ill : List (Prop × Nat)} {a b : List (Prop × Nat × Bool)}
    {p : Prop} {d : Nat} (h : TrapsWhere s c i ill (a ++ (p, d, true) :: b)) (k : ∀ q ∈ ill, ¬q.1)
    (hm : c.phys.sysMode = false) (hp : p) (ha : ∀ r ∈ a, ¬r.1) :
    if (s.ctx c).la.interlocked = true then timingHolds (s.ctx c) c [(c.seq.pos, i)] = true
    else Traps s c i (c.preciseTrap i 4 d) := by
  obtain ⟨holds, traps⟩ := h.2.1 k (Core.exempt_of_launch hm i) a (p, d, true) b rfl hp
  split
  · next w => exact holds ⟨w, rfl⟩
  · next w => exact traps (fun q => w q.1) fun r hr hq => absurd hq (ha r hr)

end Sys2Proof.Machine
end

section
/-!
adv, hset, hget, mtc and mfc: what they owe or give, and where they trap (R32, R35, R39, R40, R63, R154 to R157).
-/

namespace Sys2Proof.Machine

/-! ## The one way of issue -/

theorem exec_adv (h n : BitVec 4) (e : BitVec 1) (s : State) :
    exec (.adv h n e) s = issueSyl (.adv h n e) (fun x c => c.laterS x 1 (.adv h (n.toNat + 1) (e == 1))) s := rfl

theorem exec_hset (q a b : BitVec 6) (s : State) : exec (.hset q a b) s =
    issueSyl (.hset q a b) (fun x c => c.laterS x 1 (.hset (tileNo q) (c.regs.readG a) (c.regs.readG b))) s := rfl

theorem exec_hget (d q : BitVec 6) (w : BitVec 1) (s : State) : exec (.hget d q w) s = issueSyl (.hget d q w)
    (fun x c => c.laterS x 1 (.g d (if w = 0 then c.regs.hw0 (tileNo q) else c.regs.hw1 (tileNo q)))) s := rfl

theorem exec_mtc (n a : BitVec 6) (s : State) :
    exec (.mtc n a) s = issueSyl (.mtc n a) (fun x c => c.laterS x 1 (.ctrl n (c.regs.readG a))) s := rfl

/-- What an mfc reads of array 6: cqstat's head of the count queue, and nothing else (R39, R304). -/
def Core.readsHead (x : Ctx) (d n : BitVec 6) (c : Core) : Core × Bool :=
  if n = 7 && !c.q.cq.isEmpty then
    c.readUnits x { c.preciseTrap (.mfc d n) 0x0D 0 with kind := 1 } 6 (unitsOf (cqCell c.q.cqHead) 2)
  else (c, true)

theorem exec_mfc (d n : BitVec 6) (s : State) : exec (.mfc d n) s = issueSyl (.mfc d n) (fun x c =>
    if (c.readsHead x d n).2 then (c.readsHead x d n).1.laterS x 1 (.g d ((c.readsHead x d n).1.readCtrl x n.toNat))
    else (c.readsHead x d n).1) s := rfl

theorem Core.readsHead_same (x : Ctx) (d n : BitVec 6) (c : Core) : c.SameButErrors (c.readsHead x d n).1 := by
  unfold Core.readsHead; split
  · exact Core.readUnits_same ..
  · exact .refl c

/-- A head that checks, and every other register, is read as it stands. -/
theorem Core.readsHead_clean (x : Ctx) (d : BitVec 6) {n : BitVec 6} {c : Core}
    (h : n ≠ 7 ∨ c.q.cq = [] ∨ c.phys.flips = []) : c.readsHead x d n = (c, true) := by
  unfold Core.readsHead; split
  · next e =>
    simp only [Bool.and_eq_true, decide_eq_true_eq, Bool.not_eq_true', List.isEmpty_eq_false_iff] at e
    rcases h with h | h | h
    · exact absurd e.1 h
    · exact absurd h e.2
    · simp [Core.readUnits, h]
  · rfl

/-! ## Where they trap -/

theorem crnKnown_iff (n : Nat) : n < 0x0A ∨ (0x10 ≤ n ∧ n ≤ 0x25) ↔ crnKnown n = true := by simp [crnKnown]

theorem lt16_iff (q : BitVec 6) : 16 ≤ q.toNat ↔ (!lt16 q) = true := by simp [lt16]

/-- A drain pointer moves over filled slots alone (R154). -/
theorem adv_drain_trapsWhere {s : State} {c : Core} (ha : s.actor = some c) (h n : BitVec 4) :
    TrapsWhere s c (.adv h n 0) [] [((c.regs.handle h).filled < n.toNat + 1, 0x12, true)] :=
  trapsWhere ha (exec_adv ..) rfl .nil rfl (.cons (by simp) .nil) (by simp)

/-- A fill pointer moves over free slots alone, of a handle with no producer in flight (R154). -/
theorem adv_fill_trapsWhere {s : State} {c : Core} (ha : s.actor = some c) (h n : BitVec 4) :
    TrapsWhere s c (.adv h n 1) [] [(c.producers h ≠ [], 0x11, true),
      ((c.regs.handle h).count - (c.regs.handle h).filled < n.toNat + 1, 0x12, true)] :=
  trapsWhere ha (exec_adv ..) rfl .nil rfl (.cons (by simp) (.cons (by simp) .nil)) (by simp)

theorem hset_trapsWhere {s : State} {c : Core} (ha : s.actor = some c) (q a b : BitVec 6) :
    TrapsWhere s c (.hset q a b)
      [(16 ≤ q.toNat, 4), (handleLegal (c.regs.readG a) (c.regs.readG b) = false, 6)]
      [(c.producers (q.setWidth 4) ≠ [], 0x11, true)] :=
  trapsWhere ha (exec_hset ..) rfl (.cons (lt16_iff q) (.cons (by simp) .nil)) rfl
    (.cons (by simp [tileNo]) .nil) (by simp)

theorem hget_trapsWhere {s : State} {c : Core} (ha : s.actor = some c) (d q : BitVec 6) (w : BitVec 1) :
    TrapsWhere s c (.hget d q w) [(16 ≤ q.toNat, 4)] [] :=
  trapsWhere ha (exec_hget ..) rfl (.cons (lt16_iff q) .nil) rfl .nil .nil

/-- An mtc traps on a register that does not exist, is not written, or does not take the value; an interlocked launch waits on
a tile held busy (R40, R157, R190). -/
theorem mtc_trapsWhere {s : State} {c : Core} (ha : s.actor = some c) (n a : BitVec 6) :
    TrapsWhere s c (.mtc n a)
      [(¬(n.toNat < 0x0A ∨ (0x10 ≤ n.toNat ∧ n.toNat ≤ 0x25)), 6),
       (crnWritable n.toNat = false ∨ mtcLegal n.toNat (c.regs.readG a) = false, 0x0B)]
      [((s.ctx c).la.interlocked = true ∧ 0x10 ≤ n.toNat ∧ n.toNat ≤ 0x1F ∧
        tileBusy c (n.toNat - 0x10) s.now (s.now + 1) = true, 2, true)] :=
  trapsWhere ha (exec_mtc ..) rfl (.cons (by simp [crnKnown_iff]) (.cons (by simp) .nil)) rfl
    (.cons (by simp [State.ctx, and_assoc]) .nil) (by simp)

theorem mfc_trapsWhere {s : State} {c : Core} (ha : s.actor = some c) (d n : BitVec 6) :
    TrapsWhere s c (.mfc d n) [(¬(n.toNat < 0x0A ∨ (0x10 ≤ n.toNat ∧ n.toNat ≤ 0x25)), 6)] [] :=
  trapsWhere ha (exec_mfc ..) rfl (.cons (by simp [crnKnown_iff]) .nil) rfl .nil .nil

/-! ## The values that an mtc takes (R32, R40) -/

/-- The bytes of a tile row, as the statements say them (R32). -/
theorem tcRowBytes_eq (v : Word) : tcRowBytes v =
    if fieldOf v.toNat 0 4 = 2 then (fieldOf v.toNat 16 8 + 2) / 2
    else if fieldOf v.toNat 0 4 = 4 then 2 * (fieldOf v.toNat 16 8 + 1) else fieldOf v.toNat 16 8 + 1 := by
  unfold tcRowBytes tcFormat tcCols
  split
  · next h => rw [if_pos h]
  · next h => rw [if_neg (by omega), if_pos h]
  · next h2 h4 => rw [if_neg h2, if_neg h4]

/-- When a tile configuration is illegal, its reserved bits apart (R32). -/
theorem tcLegal_eq_false (v : Word) : tcLegal v = false ↔ 4 < fieldOf v.toNat 0 4 ∨
    32768 < (fieldOf v.toNat 8 8 + 1) * tcRowBytes v ∨ fieldOf v.toNat 24 8 = 0x7F ∨ fieldOf v.toNat 24 8 = 0xFF := by
  have code (k : BitVec 8) : tcAlt4 v = k ↔ fieldOf v.toNat 24 8 = k.toNat := by
    rw [tcAlt4, ← BitVec.toNat_inj, BitVec.toNat_ofNat, Nat.mod_eq_of_lt (show fieldOf v.toNat 24 8 < 2 ^ 8 from
      Nat.mod_lt _ (by decide))]
  rw [← Bool.not_eq_true]
  simp only [tcLegal, Bool.and_eq_true, decide_eq_true_eq, bne_iff_ne, ne_eq, code, BitVec.toNat_ofNat]
  simp only [tcFormat, tcRows]
  omega

theorem crnWritable_iff (n : Nat) : n ∈ [0, 1, 8, 9] ∨ (0x10 ≤ n ∧ n ≤ 0x1F) ↔ crnWritable n = true := by
  simp [crnWritable]; omega

theorem mtcLegal_tile {n : Nat} (h : 0x10 ≤ n) (v : Word) : mtcLegal n v = false ↔
    4 < fieldOf v.toNat 0 4 ∨ (fieldOf v.toNat 4 4 ≠ 0 ∨ fieldOf v.toNat 34 30 ≠ 0) ∨
    32768 < (fieldOf v.toNat 8 8 + 1) * tcRowBytes v ∨ fieldOf v.toNat 24 8 = 0x7F ∨ fieldOf v.toNat 24 8 = 0xFF := by
  rw [mtcLegal, if_neg (by omega), if_neg (by omega), if_neg (by omega), if_neg (by omega)]
  simp only [Bool.and_eq_false_iff, tcLegal_eq_false, beq_eq_false_iff_ne]
  tauto

theorem mtcLegal_shape (v : Word) : mtcLegal 0 v = false ↔ fieldOf v.toNat 14 2 ≠ 0 ∨ fieldOf v.toNat 24 40 ≠ 0 := by
  simp [mtcLegal, imp_iff_not_or]

theorem mtcLegal_round (v : Word) : mtcLegal 1 v = false ↔
    4 < fieldOf v.toNat 0 3 ∨ fieldOf v.toNat 3 13 ≠ 0 ∨ fieldOf v.toNat 32 32 ≠ 0 := by
  simp [mtcLegal, imp_iff_not_or, or_assoc]

theorem mtcLegal_missct (v : Word) : mtcLegal 8 v = false ↔ fieldOf v.toNat 23 9 ≠ 0 ∨ fieldOf v.toNat 48 16 ≠ 0 := by
  simp [mtcLegal, imp_iff_not_or]

theorem mtcLegal_cellpat (v : Word) : mtcLegal 9 v = false ↔ fieldOf v.toNat 32 32 ≠ 0 := by simp [mtcLegal]

/-! ## The statements -/

theorem handle_instructions : Claim.HandleInstructions := by
  intro s c h n e w q a b d v
  refine ⟨fun ha k => ?_, fun ha lt legal free => ?_, fun ha lt => ?_⟩
  · rcases BitVec.eq_zero_or_eq_one e with rfl | rfl
    · have free := (adv_drain_trapsWhere ha h n).clear (List.forall_mem_nil _) (List.forall_mem_singleton.2 (not_lt.2 k))
      exact makes_of_clear free (exec_adv ..)
    · obtain ⟨none_, room⟩ := show c.producers h = [] ∧ n.toNat + 1 ≤ v.count - v.filled from k
      have free := (adv_fill_trapsWhere ha h n).clear (List.forall_mem_nil _)
        (List.forall_mem_cons.2 ⟨not_not.2 none_, List.forall_mem_singleton.2 (not_lt.2 room)⟩)
      exact makes_of_clear free (exec_adv ..)
  · exact makes_of_clear ((hset_trapsWhere ha q a b).clear (by simpa [legal] using lt) (by simpa using free)) (exec_hset ..)
  · exact makes_of_clear ((hget_trapsWhere ha d q w).clear (by simpa using lt) (by simp)) (exec_hget ..)

theorem handles_fallShort : Claim.HandlesFallShort := by
  intro s c h n w q a b d ha hm v legal fails
  have hset := hset_trapsWhere ha q a b
  refine ⟨fun k => ?_, fun k => ?_, fun e k => ?_, fun lt ok k => ?_, fun lt bad => ?_, fun ge => ⟨?_, ?_⟩⟩
  · exact (adv_drain_trapsWhere ha h n).falls (a := []) (by simp) hm k (by simp)
  · exact (adv_fill_trapsWhere ha h n).falls (a := []) (by simp) hm k (by simp)
  · exact (adv_fill_trapsWhere ha h n).falls (a := [_]) (by simp) hm k (by simpa using e)
  · exact hset.falls (a := []) (by simpa [show handleLegal _ _ = true from ok] using lt) hm k (by simp)
  · exact hset.illegal (firstOf_cons (by omega) (firstOf_head bad)) (.inr (Core.exempt_of_launch hm _))
  · exact hset.illegal (firstOf_head ge) (.inl (by decide))
  · exact (hget_trapsWhere ha d q w).illegal (firstOf_head ge) (.inl (by decide))

theorem control_register_moves : Claim.ControlRegisterMoves := by
  intro s c n d a ha known writable
  have mtc := mtc_trapsWhere ha n a
  have mfc := mfc_trapsWhere ha d n
  have known_of (w : writable) : known := by
    rcases w with w | w
    · simp at w; exact .inl (by omega)
    · exact .inr ⟨w.1, by omega⟩
  have clear (k : known) : Clear s c (.mfc d n) := mfc.clear (List.forall_mem_singleton.2 (not_not.2 k)) (List.forall_mem_nil _)
  refine ⟨fun k => makes_of_clear k (exec_mtc ..), fun k => ?_, ?_⟩
  · exact ⟨mtc.illegal (firstOf_head k) (.inr (c.exempt_of_names rfl)),
      mfc.illegal (firstOf_head k) (.inr (c.exempt_of_names rfl))⟩
  intro field reserved tile rowBytes bad
  have takes (w : writable) : mtcLegal n.toNat (c.regs.readG a) = false ↔ bad := by
    have pair (p q : Nat × Nat) : reserved [p, q] ↔ field p.1 p.2 ≠ 0 ∨ field q.1 q.2 ≠ 0 := by
      simp only [reserved, List.exists_mem_cons_iff, List.not_mem_nil, false_and, exists_false, or_false]
    have one (p : Nat × Nat) : reserved [p] ↔ field p.1 p.2 ≠ 0 := by
      simp only [reserved, List.exists_mem_cons_iff, List.not_mem_nil, false_and, exists_false, or_false]
    rcases w with w | ⟨lo, hi⟩
    · simp only [List.mem_cons, List.not_mem_nil, or_false] at w
      rcases w with w | w | w | w
      · obtain rfl : n = 0 := BitVec.eq_of_toNat_eq w
        exact (mtcLegal_shape _).trans (by simp [bad, tile, pair, one, field, fieldOf])
      · obtain rfl : n = 1 := BitVec.eq_of_toNat_eq w
        exact (mtcLegal_round _).trans (by simp [bad, tile, pair, one, field, fieldOf])
      · obtain rfl : n = 8 := BitVec.eq_of_toNat_eq w
        exact (mtcLegal_missct _).trans (by simp [bad, tile, pair, one, field, fieldOf])
      · obtain rfl : n = 9 := BitVec.eq_of_toNat_eq w
        exact (mtcLegal_cellpat _).trans (by simp [bad, tile, pair, one, field, fieldOf])
    · have other (k : BitVec 6) (h : k.toNat < 0x10) : n ≠ k := fun e => by subst e; omega
      have bytes : tcRowBytes (c.regs.readG a) = rowBytes := tcRowBytes_eq _
      have its : tile := ⟨lo, hi⟩
      refine (mtcLegal_tile lo _).trans ?_
      simp [bad, its, other 0#6 (by decide), other 1#6 (by decide), other 8#6 (by decide), other 9#6 (by decide), bytes, pair,
        field, fieldOf]
  refine ⟨fun k f => ?_, fun w ok t => ?_, fun k h => ?_, fun _ k => ?_⟩
  · refine mtc.illegal (firstOf_cons (not_not.2 k) (firstOf_head ?_)) (.inl (by decide))
    rw [← Bool.not_eq_true, ← crnWritable_iff]
    by_cases w : writable
    · exact .inr ((takes w).2 (f.resolve_left (not_not.2 w)))
    · exact .inl w
  · refine makes_of_clear (mtc.clear ?_ ?_) (exec_mtc ..)
    · refine List.forall_mem_cons.2 ⟨not_not.2 (known_of w), List.forall_mem_singleton.2 (not_or.2 ⟨?_, (takes w).not.2 ok⟩)⟩
      rw [(crnWritable_iff _).1 w]; decide
    · refine List.forall_mem_singleton.2 ?_
      rintro ⟨i, lo, hi, -⟩
      rcases t with t | t
      · exact t ⟨lo, hi⟩
      · rw [t] at i; cases i
  · have made := makes_of_clear (clear k) (exec_mfc ..)
    rwa [Core.readsHead_clean _ d h] at made
  · have made := makes_of_clear (clear k) (exec_mfc ..)
    have same := c.readsHead_same (s.ctx c) d n
    split at made
    · exact ⟨_, [_], made, same.regs, same.q, ⟨congrArg _ same.sp, same.vec, same.arr, same.hbm⟩, congrArg (· ++ [_]) same.pends,
        Nat.le_refl 1⟩
    · exact ⟨_, [], made, same.regs, same.q, ⟨congrArg _ same.sp, same.vec, same.arr, same.hbm⟩,
        same.pends.trans (List.append_nil _).symm, Nat.zero_le 1⟩

/-- Settles O14: each goes the one way of issue, under the conditions that its checks decide. -/
theorem handlesAndControlRegisters : Obligations.HandlesAndControlRegisters :=
  ⟨handle_instructions, control_register_moves, handles_fallShort⟩

end Sys2Proof.Machine
end

section
/-!
Loops: what the loop syllables push, where they trap, and the test of the levels at the end of a body (R12, R37, R59, R63,
R123, R147, R148, R265).
-/

namespace Sys2Proof.Machine

/-! ## The one way of issue -/

theorem exec_loop (n : BitVec 9) (o : BitVec 12) (l : Option (BitVec 9)) (s : State) :
    exec (.loop n o l) s = issueSyl (.loop n o l) (fun _ c => c.startLoop (loopCount n l) o) s := rfl

theorem exec_loopReg (g : BitVec 6) (o : BitVec 12) (s : State) :
    exec (.loopReg g o) s = issueSyl (.loopReg g o) (fun _ c => c.startLoop (c.regs.readG g).toNat o) s := rfl

/-- What a loopq does of a queue that holds an entry, which is popped, and read or not (R148, R304). -/
def Core.popLoop (x : Ctx) (o : BitVec 12) (t : BitVec 16) (ts : List (BitVec 16)) (c : Core) : Core :=
  let r := c.readUnits x (c.preciseTrap (.loopq o) 0x0D 0) 6 (unitsOf (cqCell c.q.cqHead) 2)
  let d : Core := { r.1 with q := { r.1.q with cq := ts, cqHead := r.1.q.cqHead + 1 } }
  if r.2 then d.startLoop t.toNat o else d

theorem exec_loopq (o : BitVec 12) (s : State) : exec (.loopq o) s = issueSyl (.loopq o) (fun x c =>
    match c.q.cq with
    | [] => if c.exempt (.loopq o) then c.startLoop 0 o else c.refuse x (.loopq o) 0x0B 3
    | t :: ts => c.popLoop x o t ts) s := rfl

/-- The trip count of an immediate loop is the field, or the lend before it (R123). -/
theorem loopCount_eq (n : BitVec 9) (l : Option (BitVec 9)) :
    loopCount n l = match l with | none => n.toNat | some h => (h ++ n).toNat := by
  cases l with
  | none => simp [loopCount]
  | some h =>
    change h.toNat * 2 ^ 9 + n.toNat = (h ++ n).toNat
    rw [BitVec.toNat_append, ← Nat.shiftLeft_add_eq_or_of_lt n.isLt, Nat.shiftLeft_eq]

/-- A level begins with the bundle after the loop's; of a trip of 0 only the end of the body is kept (R147). -/
theorem Core.startLoop_eq (trip : Nat) (o : BitVec 12) (c : Core) : c.startLoop trip o =
    if trip = 0 then { c with seq := { c.seq with skip := some (c.seq.bundle + o.toNat) } }
    else { c with seq := { c.seq with loops :=
      ⟨nextStart c.code (c.seq.bundle + c.seq.len), c.seq.bundle + o.toNat, trip, 0⟩ :: c.seq.loops } } := rfl

/-- The sequencer alone changes as a loop starts. -/
theorem Core.startLoop_seq (trip : Nat) (o : BitVec 12) (c : Core) : ∃ q, c.startLoop trip o = { c with seq := q } := by
  rw [Core.startLoop_eq]; split <;> exact ⟨_, rfl⟩

/-- The queue's entry is popped, read or not, and no register or memory changes (R37, R148, R304). -/
theorem Core.popLoop_frame (x : Ctx) (o : BitVec 12) (t : BitVec 16) (ts : List (BitVec 16)) (c : Core) :
    (c.popLoop x o t ts).q = { c.q with cq := ts, cqHead := c.q.cqHead + 1 } ∧ (c.popLoop x o t ts).regs = c.regs ∧
    SameMemories c (c.popLoop x o t ts) := by
  have same := Core.readUnits_same x (c.preciseTrap (.loopq o) 0x0D 0) 6 (unitsOf (cqCell c.q.cqHead) 2) c
  unfold Core.popLoop; dsimp only
  split
  · obtain ⟨q, e⟩ := Core.startLoop_seq t.toNat o { (c.readUnits x (c.preciseTrap (.loopq o) 0x0D 0) 6
      (unitsOf (cqCell c.q.cqHead) 2)).1 with q := _ }
    rw [e]
    exact ⟨by dsimp only; rw [same.q], same.regs, congrArg _ same.sp, same.vec, same.arr, same.hbm⟩
  · exact ⟨by dsimp only; rw [same.q], same.regs, congrArg _ same.sp, same.vec, same.arr, same.hbm⟩

/-- With no unit in error an entry that is popped starts its loop. -/
theorem Core.popLoop_clean (x : Ctx) (o : BitVec 12) (t : BitVec 16) (ts : List (BitVec 16)) {c : Core}
    (h : c.phys.flips = []) : c.popLoop x o t ts =
      ({ c with q := { c.q with cq := ts, cqHead := c.q.cqHead + 1 } } : Core).startLoop t.toNat o := by
  simp only [Core.popLoop, Core.readUnits, h, List.isEmpty_nil, if_true]

theorem loops_push : Claim.LoopsPushALevel := by
  intro s c n g o l e pushed
  have starts (trip : Nat) (q : Queues) : ({ c with q := q } : Core).startLoop trip o = pushed { c with q := q } trip :=
    Core.startLoop_eq ..
  refine ⟨fun k => ?_, fun k => ?_, fun k => ⟨fun t ts q f => ?_, fun t ts q => ?_, fun q m => ?_, fun q m => ?_⟩⟩
  · have made := makes_of_clear k (exec_loop n o l s)
    rwa [starts _ c.q, loopCount_eq] at made
  · have made := makes_of_clear k (exec_loopReg g o s)
    rwa [starts _ c.q] at made
  · have made := makes_of_clear k (exec_loopq o s)
    simp only [q] at made
    rwa [Core.popLoop_clean _ o t ts f, starts] at made
  · have made := makes_of_clear k (exec_loopq o s)
    simp only [q] at made
    exact ⟨_, made, c.popLoop_frame ..⟩
  · have made := makes_of_clear k (exec_loopq o s)
    simp only [q, Core.exempt_of_launch m] at made
    exact made
  · have made := makes_of_clear k (exec_loopq o s)
    have names : c.exempt (.loopq o) = true := by rw [Core.exempt, m]; rfl
    simp only [q, names, if_true] at made
    rwa [starts _ c.q] at made

/-! ## Where they trap -/

/-- What makes a loop's end no end of a body (R123, R147). -/
def Core.badEnd (o : BitVec 12) (c : Core) : Prop :=
  let e := c.seq.bundle + o.toNat
  let w := c.code.getD e 0xFFFFFFFF#32
  o.toNat < c.seq.len ∨ 65535 < e ∨ w = 0xFFFFFFFF#32 ∨ w.getLsbD 31 = false ∨
    ∃ v ∈ c.seq.loops, v.stop = c.seq.bundle

/-- A loop syllable's illegal forms (R123, R147): too many levels, or an end or a count that makes no body. -/
theorem decides_loopForm (c : Core) (o : BitVec 12) {big : Bool} {p : Prop} (h : p ↔ big = true) :
    ∃ bl, loopForm c o big = firstCode bl ∧ Decides [(6 ≤ c.seq.loops.length, 7), (c.badEnd o ∨ p, 8)] bl := by
  refine ⟨_, rfl, .cons (by simp) (.cons ?_ .nil)⟩
  simp only [Core.badEnd, h, codeAt, fillWord, startBit, Bool.or_eq_true, decide_eq_true_eq, beq_iff_eq, Bool.not_eq_true',
    List.any_eq_true, or_assoc, or_comm (b := big = true)]

theorem loop_trapsWhere {s : State} {c : Core} (ha : s.actor = some c) (n : BitVec 9) (o : BitVec 12)
    (l : Option (BitVec 9)) :
    TrapsWhere s c (.loop n o l) [(6 ≤ c.seq.loops.length, 7), (c.badEnd o ∨ False, 8)] [] := by
  obtain ⟨bl, e, h⟩ := decides_loopForm c o (big := false) (p := False) (by simp)
  exact trapsWhere ha (exec_loop ..) e h rfl .nil .nil

theorem loopReg_trapsWhere {s : State} {c : Core} (ha : s.actor = some c) (g : BitVec 6) (o : BitVec 12) :
    TrapsWhere s c (.loopReg g o)
      [(6 ≤ c.seq.loops.length, 7), (c.badEnd o ∨ 2 ^ 32 ≤ (c.regs.readG g).toNat, 8)] [] := by
  obtain ⟨bl, e, h⟩ := decides_loopForm c o (big := 0xFFFFFFFF < (c.regs.readG g).toNat)
    (p := 2 ^ 32 ≤ (c.regs.readG g).toNat) (by rw [decide_eq_true_eq]; omega)
  exact trapsWhere ha (exec_loopReg ..) e h rfl .nil .nil

/-- A loopq also traps in a fixed furrow (R59, R148). -/
theorem loopq_trapsWhere {s : State} {c : Core} (ha : s.actor = some c) (o : BitVec 12) :
    TrapsWhere s c (.loopq o) [(6 ≤ c.seq.loops.length, 7), (c.badEnd o ∨ False, 8)]
      [(((s.ctx c).own c).elastic = false, 9, false)] := by
  obtain ⟨bl, e, h⟩ := decides_loopForm c o (big := false) (p := False) (by simp)
  exact trapsWhere ha (exec_loopq ..) e h rfl (.cons (by simp) .nil) (by simp)

theorem loops_trap : Claim.LoopsThatTrap := by
  intro s c n g o l ha e w bad fails
  have loop := loop_trapsWhere ha n o l
  have loopReg := loopReg_trapsWhere ha g o
  have loopq := loopq_trapsWhere ha o
  refine ⟨fun deep i hi => ?_, fun lt h i hi => ?_, fun lt big => ?_, fun lt ok m fixed => ?_⟩
  · simp only [List.mem_cons, List.not_mem_nil, or_false] at hi
    rcases hi with rfl | rfl | rfl
    · exact loop.illegal (firstOf_head deep) (.inl (by decide))
    · exact loopReg.illegal (firstOf_head deep) (.inl (by decide))
    · exact loopq.illegal (firstOf_head deep) (.inl (by decide))
  · simp only [List.mem_cons, List.not_mem_nil, or_false] at hi
    rcases hi with rfl | rfl | rfl
    · exact loop.illegal (firstOf_cons (by omega) (firstOf_head (.inl h))) (.inl (by decide))
    · exact loopReg.illegal (firstOf_cons (by omega) (firstOf_head (.inl h))) (.inl (by decide))
    · exact loopq.illegal (firstOf_cons (by omega) (firstOf_head (.inl h))) (.inl (by decide))
  · exact loopReg.illegal (firstOf_cons (by omega) (firstOf_head (.inr big))) (.inl (by decide))
  · refine (loopq.2.1 ?_ (Core.exempt_of_launch m _) [] _ [] rfl fixed).2 (by simp) (by simp)
    exact List.forall_mem_cons.2 ⟨by omega, List.forall_mem_singleton.2 (not_or.2 ⟨ok, not_false⟩)⟩

/-! ## The end of a body -/

/-- The bundle has issued (R12, R147). -/
theorem Core.retire_eq (c : Core) :
    let e := c.seq.skip.getD c.seq.bundle
    let n := if c.seq.skip = none then c.seq.len else bundleLen c.code e
    c.retire = { c with seq := { c.seq with
      loops := (loopTest e c.seq.loops).1, pc := (loopTest e c.seq.loops).2.getD (nextStart c.code (e + n)), len := 0
      skip := none, suppressed := false } } := by
  unfold Core.retire; dsimp only
  cases c.seq.skip <;> rfl

/-- The test of the innermost level (R147). -/
theorem loopTest_cons (e : Nat) (v : LoopLevel) (vs : List LoopLevel) :
    (v.stop ≠ e → loopTest e (v :: vs) = (v :: vs, none)) ∧
    (v.stop = e → v.index + 1 < v.trip → loopTest e (v :: vs) = ({ v with index := v.index + 1 } :: vs, some v.start)) ∧
    (v.stop = e → v.trip ≤ v.index + 1 → loopTest e (v :: vs) = loopTest e vs) := by
  refine ⟨fun h => ?_, fun h k => ?_, fun h k => ?_⟩
  · simp [loopTest, h]
  · simp [loopTest, h, k]
  · simp [loopTest, h, not_lt.2 k]

theorem retire_tests (c : Core) :
    let e := c.seq.skip.getD c.seq.bundle
    let n := if c.seq.skip = none then c.seq.len else bundleLen c.code e
    let next := nextStart c.code (e + n)
    let ends (l : List LoopLevel) (pc : Nat) : Prop := c.retire = { c with seq := { c.seq with
      loops := l, pc := pc, len := 0, skip := none, suppressed := false } }
    (c.seq.loops = [] → ends [] next) ∧
    ∀ v vs, c.seq.loops = v :: vs →
      (v.stop ≠ e → ends (v :: vs) next) ∧
      (v.stop = e → v.index + 1 < v.trip → ends ({ v with index := v.index + 1 } :: vs) v.start) ∧
      (v.stop = e → v.trip ≤ v.index + 1 → c.retire = ({ c with seq := { c.seq with loops := vs } }).retire) := by
  intro e n next ends
  refine ⟨fun h => c.retire_eq.trans (by rw [h]; rfl), fun v vs h => ?_⟩
  obtain ⟨other, again, last⟩ := loopTest_cons e v vs
  refine ⟨fun k => c.retire_eq.trans ?_, fun k r => c.retire_eq.trans ?_, fun k r => c.retire_eq.trans ?_⟩
  · rw [h, other k]; rfl
  · rw [h, again k r]; rfl
  · rw [h, last k r]; exact (Core.retire_eq { c with seq := { c.seq with loops := vs } }).symm

/-! ## The turn of the sequencer -/

/-- With nothing due before the early syllables of a bundle, what the first core's sequencer does early comes next. -/
theorem State.pick_early {s : State} {t : Seat} {ts : List Seat} {p : Pick} (hs : s.seats = t :: ts) (h : s.clearOfWrites)
    (hp : earlyDue s t = some p) : s.pick = p := by
  obtain ⟨stop, held, input, window, launch, table, start, deadline, merge, arrival, pend, write, transfer⟩ := h
  have early : firstPick (earlyDue s) s.seats = some p := by rw [hs, firstPick, hp]
  simp only [State.pick, turnsOf, firstPick, stop, held, input, window, launch, table, start, deadline, merge, arrival, pend,
    write, transfer, early, Option.getD_some]

/-- With nothing due before the other syllables of a bundle, the first core's sequencer acts next. -/
theorem State.pick_issue {s : State} {t : Seat} {ts : List Seat} {p : Pick} (hs : s.seats = t :: ts) (h : s.clearOfReads)
    (hp : issueDue s t = some p) : s.pick = p := by
  obtain ⟨⟨stop, held, input, window, launch, table, start, deadline, merge, arrival, pend, write, transfer⟩, early, reads,
    appends⟩ := h
  have issue : firstPick (issueDue s) s.seats = some p := by rw [hs, firstPick, hp]
  simp only [State.pick, turnsOf, firstPick, stop, held, input, window, launch, table, start, deadline, merge, arrival, pend,
    write, transfer, early, reads, appends, issue, Option.getD_some]

theorem loop_endTest : Claim.LoopEndTest := by
  refine ⟨retire_tests, fun s t ts hs h q n => ?_⟩
  have due : issueDue s t = some (s.sit t.pos t.c.retire, none) := by simp [issueDue, q, n]
  rw [step, State.pick_issue hs h due]

/-- Settles O12: the loop syllables go the one way of issue, and the level test follows the loop stack. -/
theorem loopsPushAndTestLevels : Obligations.LoopsPushAndTestLevels := ⟨loops_push, loops_trap, loop_endTest⟩

end Sys2Proof.Machine
end

section
/-!
The sequencer's turn: the bundle at the program counter issues, and an interlocked launch's core issues it, is held or is
frozen (R12, R26, R34, R63, R64, R98, R116, R127, R191).
-/

namespace Sys2Proof.Machine

/-! ## A bundle issues -/

/-- A bundle that can be read, decodes and waits for no batch issues: its first syllable acts (R12, R26, R127). -/
theorem issueBundle_of {s : State} {t : Seat} {c : Core} {len p : Nat} {i : Instr} {rest : List (Nat × Instr)}
    (h : ({ t with c := c } : Seat).decodes s len p i rest) :
    issueBundle s t c = (s.sit t.pos (({ t with c := c } : Seat).issuing s len p rest), some i) := by
  obtain ⟨read, waits, order, ts, fetched, legal⟩ := h
  simp only [issueBundle, read, fetched, legal, waits, Core.busy, order]
  rfl

theorem Core.ready_queue {now : Nat} {c : Core} (h : c.ready now = true) : c.seq.queue = [] ∧ c.seq.len = 0 := by
  simp only [Core.ready, Bool.and_eq_true, List.isEmpty_iff, beq_iff_eq] at h
  obtain ⟨⟨⟨⟨⟨q, n⟩, -⟩, -⟩, -⟩, -⟩ := h
  exact ⟨q, n⟩

/-- On the sequencer's turn the first core tries to issue its bundle. -/
theorem pick_onTurn {s : State} {t : Seat} {ts : List Seat} (hs : s.seats = t :: ts) (h : t.onTurn s) :
    s.pick = attempt s t := by
  obtain ⟨ready, -, ⟨late, due⟩ | ⟨early, due⟩⟩ := h
  · obtain ⟨q, n⟩ := Core.ready_queue ready
    exact State.pick_issue hs due (by simp [issueDue, q, n, ready])
  · obtain ⟨q, -⟩ := Core.ready_queue ready
    exact State.pick_early hs due (by simp [earlyDue, q, ready, early])

/-- What a pick with a row runs. -/
theorem step_of_pick {s t : State} {i : Instr} (h : s.pick = (t, some i)) : step s = exec i t := by rw [step, h]

/-- A pick without a row is the end of its step. -/
theorem step_of_pick_none {s t : State} (h : s.pick = (t, none)) : step s = .next t := by rw [step, h]

theorem bundle_runs : Claim.BundleRuns := by
  intro s t ts p i rest hs
  have issues {len : Nat} (k : t.issues s len p i rest) :
      attempt s t = (s.sit t.pos (t.issuing s len p rest), some i) := by
    obtain ⟨-, waits, exact_, decodes⟩ := k
    have free : (!t.x.la.interlocked || t.c.phys.sysMode) = true := by
      rcases exact_ with e | e <;> simp [e]
    simp only [attempt, waits, free, Bool.false_eq_true, if_false, if_true]
    exact issueBundle_of decodes
  refine ⟨fun len h e k => ?_, fun len h e k => ?_, fun h q => ?_, fun h q e => ?_⟩
  · exact step_of_pick ((pick_onTurn hs ⟨k.1, k.2.1, .inl ⟨e, h⟩⟩).trans (issues k))
  · exact step_of_pick ((pick_onTurn hs ⟨k.1, k.2.1, .inr ⟨e, h⟩⟩).trans (issues k))
  · exact step_of_pick (State.pick_issue hs h (by simp only [issueDue, q]))
  · exact step_of_pick (State.pick_early hs h (by simp only [earlyDue, q, e, if_true]))

/-! ## An interlocked core -/

/-- Syllable `i` starves: its scales are short, and no sqld is in flight that could bring them (R34, R63). -/
def Seat.starves (t : Seat) (i : Instr) : Prop :=
  scalesNeeded t.c i ≠ 0 ∧ t.c.q.sq.length + scalesComing t.x.now t.c < scalesNeeded t.c i + scalesPending t.c ∧
    ∀ f ∈ t.c.flights, ∀ a m h, f.instr ≠ .sqld a m h

theorem scalesStarve_iff {t : Seat} (h : t.x.la.interlocked = true) (i : Instr) :
    scalesStarve t.x t.c i = true ↔ t.starves i := by
  have flying : t.c.sqldFlying = false ↔ ∀ f ∈ t.c.flights, ∀ a m h, f.instr ≠ .sqld a m h := by
    simp only [Core.sqldFlying, List.any_eq_false]
    refine forall₂_congr fun f _ => ?_
    split
    · next a m h e => simp [e]
    · next e => simp only [Bool.false_eq_true, not_false_eq_true, true_iff]; exact e
  rw [scalesStarve, scalesShort, h, Bool.true_and, Bool.and_eq_true, decide_eq_true_eq, Bool.not_eq_true', flying, and_assoc,
    Seat.starves]

/-- The first syllable that starves is reported, once in its hold (R63). -/
theorem Core.starve_of {x : Ctx} {c : Core} {a b : List (Nat × Instr)} {p : Nat} {i : Instr}
    (h : scalesStarve x c i = true) (n : ∀ q ∈ a, scalesStarve x c q.2 = false) :
    c.starve x (a ++ (p, i) :: b) = if c.seq.starved then c
      else ({ c with seq := { c.seq with starved := true } } : Core).raise x
        { cause := 0x0B, detail := 1, kind := 1, engine := engineOf i, pos := p, bundle := some c.seq.pc } := by
  have found : (a ++ (p, i) :: b).find? (fun q => scalesStarve x c q.2) = some (p, i) :=
    List.find?_eq_some_iff_append.2 ⟨h, a, b, rfl, fun q hq => by simp [n q hq]⟩
  simp only [Core.starve, found]

theorem Core.starve_none {x : Ctx} {c : Core} {l : List (Nat × Instr)} (n : ∀ q ∈ l, scalesStarve x c q.2 = false) :
    c.starve x l = { c with seq := { c.seq with starved := false } } := by
  have found : l.find? (fun q => scalesStarve x c q.2) = none := List.find?_eq_none.2 fun q hq => by simp [n q hq]
  simp only [Core.starve, found]

/-- The marks that the hardware clears before a read that failed its check, as the statements say them (R98). -/
theorem cleared_eq (s : State) (t : Seat) : t.cleared s = { t with c := { t.c with
    sp := t.c.sp.clear (clearedLines t.c (s.bundleReads t.pos t.c (instrsAt t.c.code t.c.seq.pc))) } } := by
  generalize hr : s.bundleReads t.pos t.c (instrsAt t.c.code t.c.seq.pc) = rs
  have lines (n : Nat) : (clearedLines t.c rs).contains n =
      rs.any fun r => ((if r.1 then t.c.sp.wl else t.c.sp.ws).any fun e => r.2.contains e.1) && r.2.contains n := by
    rw [Bool.eq_iff_iff]
    simp only [clearedLines, List.contains_iff_mem, List.mem_flatMap, List.any_eq_true, Bool.and_eq_true]
    refine exists_congr fun r => and_congr_right fun _ => ?_
    split
    · next h => simp_all
    · next h => simp_all
  have clear (m : Scratch) (ls : List Nat) : m.clear ls =
      { m with wl := m.wl.filter fun e => !ls.contains e.1, ws := m.ws.filter fun e => !ls.contains e.1 } := by
    unfold Scratch.clear; split
    · next h => rw [List.isEmpty_iff.1 h]; simp
    · rfl
  rw [clear]; simp only [lines]
  rw [← hr]; rfl

/-- An attempt to issue on the turn of a core that is neither waiting nor in system code, of an interlocked launch. -/
theorem attempt_interlocked {s : State} {t : Seat} (hw : t.c.seq.waiting = false) (hi : t.x.la.interlocked = true)
    (hm : t.c.phys.sysMode = false) (hb : t.c.decodesBadly = false) :
    let l := instrsAt t.c.code t.c.seq.pc
    (t.c.seq.frozen = true → attempt s t =
      if fieldHold s t then ({ s with cur := t.pos }, some .freezeRelease) else refused s t false true) ∧
    (t.c.seq.frozen = false → ¬t.checksPass s → attempt s t = refused s { t with c := t.c.starve t.x l } true false) ∧
    (t.c.seq.frozen = false → t.checksPass s → attempt s t =
      if t.c.seq.held then ({ s with cur := t.pos }, some .holdRelease)
      else if !fieldHold s t then refused s t false true
      else issueBundle s t (t.cleared s).c) := by
  intro l
  have free : (!t.x.la.interlocked || t.c.phys.sysMode) = false := by rw [hi, hm]; rfl
  refine ⟨fun f => ?_, fun f k => ?_, fun f k => ?_⟩
  · simp only [attempt, hw, free, f, Bool.false_eq_true, if_false, if_true]
  · rw [checksPass_iff, Bool.not_eq_false] at k
    simp only [attempt, hw, free, f, hb, Bool.false_eq_true, if_false, Bool.not_false, Bool.true_and, k, if_true]
    rfl
  · rw [checksPass_iff] at k
    simp only [attempt, hw, free, f, hb, Bool.false_eq_true, if_false, Bool.not_false, Bool.true_and, k, cleared_eq]

/-- A syllable of a bundle without producers waits as it does alone. -/
theorem timingHolds_of_one {x : Ctx} {c : Core} {l : List (Nat × Instr)} (h : ∀ p ∈ l, producerOf p.2 = none)
    {p : Nat × Instr} (hp : p ∈ l) (k : timingHolds x c [p] = true) : timingHolds x c l = true := by
  have alone (i : Instr) : c.afterProducers x l i = c := by
    have none_ : ((l.filter fun p => decide (encodeSyllable p.2 / 268435456 % 8 < encodeSyllable i / 268435456 % 8)).filterMap
        fun p => (producerOf p.2).map fun h => { c.newFlight x p.2 (encodeSyllable p.2 / 268435456 % 8) with
          prod := true, handle := some h.toNat }) = [] := by
      refine List.filterMap_eq_nil_iff.2 fun q hq => ?_
      rw [h q (List.mem_filter.1 hq).1]; rfl
    simp only [Core.afterProducers, none_, List.append_nil]
  rw [timingHolds_one] at k
  exact List.any_eq_true.2 ⟨p, hp, by rw [alone]; exact k⟩

theorem interlocked_issue : Claim.InterlockedIssue := by
  intro s t ts hs turn hi hm hb q l starves with_
  have pick := pick_onTurn hs turn
  obtain ⟨frozen, fails, passes⟩ := attempt_interlocked (s := s) turn.2.1 hi hm hb
  have starving (i : Instr) : scalesStarve t.x t.c i = true ↔ starves i := scalesStarve_iff hi i
  have fed (i : Instr) (h : ¬starves i) : scalesStarve t.x t.c i = false := by rw [← Bool.not_eq_true, starving]; exact h
  refine ⟨fun f k n => ?_, fun f k a p i b e st n => ?_, fun f k h => ?_, fun f k h w => ?_, fun f w => ?_, fun f w => ?_,
    fun len p i rest f h k w d => ?_, fun n p hp k pass => ?_⟩
  · refine step_of_pick_none (pick.trans ((fails f k).trans ?_))
    rw [Core.starve_none fun r hr => fed _ (n r hr)]; rfl
  · refine step_of_pick_none (pick.trans ((fails f k).trans ?_))
    rw [show instrsAt t.c.code t.c.seq.pc = a ++ (p, i) :: b from e,
      Core.starve_of ((starving i).2 st) fun r hr => fed _ (n r hr)]
    rfl
  · refine step_of_pick (pick.trans ((passes f k).trans ?_))
    rw [if_pos h]
  · refine step_of_pick_none (pick.trans ((passes f k).trans ?_))
    rw [if_neg (Bool.eq_false_iff.1 h), if_pos (by rw [← fieldHold_iff] at w; simpa using w)]; rfl
  · refine step_of_pick_none (pick.trans ((frozen f).trans ?_))
    rw [if_neg (by rwa [fieldHold_iff])]; rfl
  · refine step_of_pick (pick.trans ((frozen f).trans ?_))
    rw [if_pos ((fieldHold_iff s t).2 w)]
  · refine step_of_pick (pick.trans ((passes f k).trans ?_))
    rw [if_neg (Bool.eq_false_iff.1 h), if_neg (by rw [(fieldHold_iff s t).2 w]; decide)]
    exact issueBundle_of d
  · rw [checksPass_iff, timingHolds_of_one n hp k] at pass
    cases pass

/-- Settles O4: what the sequencer's turn makes of the bundle at the program counter, by the branches of an attempt to issue. -/
theorem stepRunsTheBundle : Obligations.StepRunsTheBundle := ⟨bundle_runs, interlocked_issue⟩

end Sys2Proof.Machine
end

section
/-!
Loads and stores at their issue: where they trap, and what they put in flight (R14, R29, R32, R63, R99, R136, R137, R190,
R207 to R214, R265).
-/

namespace Sys2Proof.Machine

/-! ## Operations in flight (R209) -/

/-- An operation of classes L, W and D that occupies the flight record. -/
def Flight.Occupies (now : Nat) (f : Flight) : Prop := (f.cls = 4 ∨ f.cls = 5 ∨ f.cls = 6) ∧ f.cancelled = false ∧
  (f.open_ = true ∨ (∃ t ∈ f.streams, t.k < t.n ∧ now < t.first + (t.n - 1) * t.mul / t.div) ∨
    (∃ d a m l, f.instr = .lds d a m l) ∨ ∃ a m l, f.instr = .sqld a m l)

theorem Flight.flies_iff (now : Nat) (f : Flight) : f.flies now = true ↔
    f.open_ = true ∨ (∃ t ∈ f.streams, t.k < t.n ∧ now < t.first + (t.n - 1) * t.mul / t.div) ∨
      (∃ d a m l, f.instr = .lds d a m l) ∨ ∃ a m l, f.instr = .sqld a m l := by
  have live (t : Stream) : (t.live && decide (now < t.last)) = true ↔
      t.k < t.n ∧ now < t.first + (t.n - 1) * t.mul / t.div := by
    rw [Bool.and_eq_true, decide_eq_true_eq, Stream.live, decide_eq_true_eq]; rfl
  simp only [Flight.flies, Bool.or_eq_true, List.any_eq_true, live, or_assoc]
  refine or_congr_right (or_congr_right ?_)
  split
  · next d a m l e => simp [e]
  · next a m l e => simp [e]
  · next h k =>
    refine iff_of_false (by simp) ?_
    rintro (⟨d, a, m, l, e⟩ | ⟨a, m, l, e⟩)
    · exact h d a m l e
    · exact k a m l e

/-- At least `k` operations are in flight exactly where so many are found, beside the scalar loads that have read. -/
theorem Core.le_inFlight (now : Nat) (c : Core) (k : Nat) : k ≤ c.inFlight now ↔
    ∃ fs : List Flight, fs.Sublist c.flights ∧ (∀ f ∈ fs, f.Occupies now) ∧ k ≤ fs.length + c.pends.countP fun p => p.cls == 4 := by
  have counts (f : Flight) : (decide (4 ≤ f.cls) && decide (f.cls ≤ 6) && !f.cancelled && f.flies now) = true ↔ f.Occupies now := by
    simp only [Bool.and_eq_true, decide_eq_true_eq, Bool.not_eq_true', Flight.flies_iff, Flight.Occupies, and_assoc]
    rw [← and_assoc]
    exact and_congr_left fun _ => by omega
  rw [Core.inFlight, ← List.countP_eq_length_filter (l := c.pends)]
  constructor
  · exact fun h => ⟨_, List.filter_sublist, fun f hf => (counts f).1 (List.mem_filter.1 hf).2, h⟩
  · rintro ⟨fs, sub, all, h⟩
    have le := (sub.filter fun f => decide (4 ≤ f.cls) && decide (f.cls ≤ 6) && !f.cancelled && f.flies now).length_le
    rw [List.filter_eq_self.2 fun f hf => (counts f).2 (all f hf)] at le
    omega

/-! ## Codes, shapes and addresses -/

theorem shapeRows_eq (w : Word) : shapeRows w = w.toNat % 2 ^ 14 + 1 := by simp [shapeRows, fieldOf]

theorem shapeCols_pos (w : Word) : 0 < shapeCols w := by unfold shapeCols; split <;> omega

theorem badDst_iff (d : BitVec 6) : 40 ≤ d.toNat ↔ badDst d = true := by simp [badDst, vdst]

theorem badSrc_iff (d : BitVec 6) : 49 ≤ d.toNat ↔ badSrc false d = true := by simp [badSrc, vsrc]; omega

/-- An element's size divides every local address's range. -/
theorem localAddr_mod (A : Word) (w : BitVec 2) : localAddr A % 2 ^ w.toNat = A.toNat % 2 ^ w.toNat := by
  have dvd : 2 ^ w.toNat ∣ 4194304 := Nat.pow_dvd_pow 2 (by omega : w.toNat ≤ 22)
  exact Nat.mod_mod_of_dvd _ dvd

/-- Rows of a shape that pass 16 KiB (R29). -/
theorem rowsOver_iff (shape : Word) (n : Nat) :
    16384 < (shape.toNat % 2 ^ 14 + 1) * (shapeCols shape * n) ↔ shapeOver shape (2 * n) = true := by
  have e : shapeRows shape * shapeCols shape * (2 * n) = 2 * (shapeRows shape * (shapeCols shape * n)) := by ring
  rw [shapeOver, decide_eq_true_eq, e, shapeRows_eq]; omega

/-- The elements of a shape pass 16 KiB. -/
theorem elemsOver_iff (shape : Word) (n : Nat) :
    16384 < (shape.toNat % 2 ^ 14 + 1) * shapeCols shape * n ↔ shapeOver shape (2 * n) = true := by
  rw [Nat.mul_assoc]; exact rowsOver_iff shape n

/-- A handle's slot is smaller than the rows of a shape (R208). -/
theorem slotShort_iff (slot : Nat) (shape : Word) (n : Nat) : slot < (shape.toNat % 2 ^ 14 + 1) * n ↔
    decide (slot < shapeRows shape * n) = true := by rw [decide_eq_true_eq, shapeRows_eq]

theorem slotShort_iff_elems (slot : Nat) (shape : Word) (n : Nat) :
    slot < (shape.toNat % 2 ^ 14 + 1) * shapeCols shape * n ↔
      decide (slot < shapeRows shape * (shapeCols shape * n)) = true := by rw [Nat.mul_assoc]; exact slotShort_iff ..

/-- A mask of more than 16,384 bits (R29). -/
theorem maskOver_iff (shape : Word) : 16384 < (shape.toNat % 2 ^ 14 + 1) * shapeCols shape ↔
    decide (16384 < shapeRows shape * shapeCols shape) = true := by rw [decide_eq_true_eq, shapeRows_eq]

/-- A tile that no transfer takes: of an illegal configuration, or larger than its slot (R32, R208). -/
theorem tileBad_iff (cfg : Word) (slot : Nat) : tcLegal cfg = false ∨ slot < tcRows cfg * tcRowBytes cfg ↔
    (!tcLegal cfg || (some slot).elim false fun n => decide (n < (tileRows cfg).1 * (tileRows cfg).2)) = true := by
  rw [Bool.or_eq_true, Bool.not_eq_true', Option.elim_some, decide_eq_true_eq]; rfl

theorem tileIllegal_iff (cfg : Word) : tcLegal cfg = false ↔
    (!tcLegal cfg || (none : Option Nat).elim false fun n => decide (n < (tileRows cfg).1 * (tileRows cfg).2)) = true := by
  simp

/-- The address of a scalar transfer is no multiple of 8 (R212). -/
theorem ldsAddr_iff (c : Core) (a : BitVec 6) (m : BitVec 10) (l : Option (BitVec 9)) :
    (c.regs.readG a + imm19 m l).toNat % 8 ≠ 0 ↔ (ldsAddr c a m l % 8 != 0) = true := by
  rw [bne_iff_ne]; exact (localAddr_mod (c.regs.readG a + imm19 m l) 3#2 ▸ Iff.rfl)

/-- An sqld of no or of too many bytes, or past the end of scratchpad (R214). -/
theorem sqldBad_iff (imm : Word) (A : Nat) : imm.toInt < 1 ∨ 1024 < imm.toInt ∨ 2 ^ 22 < A + imm.toNat ↔
    (decide (imm.toInt < 1) || decide (1024 < imm.toInt) || decide (4194304 < A + imm.toInt.toNat)) = true := by
  simp only [Bool.or_eq_true, decide_eq_true_eq, or_assoc]
  by_cases h : imm.toInt < 1
  · simp [h]
  · have e : imm.toInt.toNat = imm.toNat := by
      have := imm.isLt
      rw [BitVec.toInt_eq_toNat_cond] at h ⊢
      split at h <;> omega
    rw [e]; exact Iff.rfl

/-! ## The conditions of both classes -/

/-- The flight record is full (R209). -/
theorem full_iff (s : State) (c : Core) :
    768 ≤ c.inFlight s.now ↔ decide (768 ≤ c.inFlight (s.ctx c).now) = true := by
  rw [decide_eq_true_eq]; rfl

theorem filled_iff (c : Core) (h n : BitVec 4) : (c.regs.handle h).filled < n.toNat ↔ needDrain c h n = true := by
  simp [needDrain]

theorem free_iff (c : Core) (h n : BitVec 4) :
    n ≠ 0 ∧ (c.regs.handle h).count - (c.regs.handle h).filled < n.toNat + (c.producers h).length ↔ needFill c h n = true := by
  simp [needFill]

/-- A row of a tile load that issues now would meet a busy tile (R190, R211). -/
theorem loadHitsBusy_iff (s : State) (c : Core) (d : BitVec 6) : ((s.ctx c).la.interlocked = true ∧
      ∃ j, j < tcRows (c.regs.tcfgOf (d.setWidth 4)) ∧ tileBusy c d.toNat s.now (s.now + 5 + j) = true) ↔
    ((s.ctx c).la.interlocked && loadHitsBusy (s.ctx c) c d) = true := by
  simp [loadHitsBusy, State.ctx, tileNo]

/-- Rows of an address form that begin at no multiple of the element's size (R207). -/
theorem rowsMisaligned_iff (c : Core) (a b : BitVec 6) (w : BitVec 2) :
    let rows := c.regs.shape.toNat % 2 ^ 14 + 1
    let B := (c.regs.readG b).toNat % 2 ^ 22
    let row := shapeCols c.regs.shape * 2 ^ w.toNat
    (c.regs.readG a).toNat % 2 ^ 22 % 2 ^ w.toNat ≠ 0 ∨ (1 < rows ∧ (if B = 0 then row else B) % 2 ^ w.toNat ≠ 0) ↔
      rowsMisaligned (localAddr (c.regs.readG a)) (pitchOf (c.regs.readG b) row) (shapeRows c.regs.shape) (2 ^ w.toNat) = true := by
  simp only [shapeRows_eq]
  simp only [rowsMisaligned, Bool.or_eq_true, Bool.and_eq_true, bne_iff_ne, decide_eq_true_eq]
  rfl

/-- The row size divides by the element's, so that a pitch of 0, which means it, is never odd (R207). -/
theorem pitchOf_mod (B : Word) (w : BitVec 2) (cols : Nat) :
    pitchOf B (cols * 2 ^ w.toNat) % 2 ^ w.toNat = B.toNat % 2 ^ 22 % 2 ^ w.toNat := by
  unfold pitchOf; split
  · next h => rw [show B.toNat % 2 ^ 22 = 0 from h]; simp
  · rfl

/-- The same of a store, whose pitch counts where the shape has more rows than one. -/
theorem rowsMisaligned_iff_tall (c : Core) (a b : BitVec 6) (w : BitVec 2) :
    let cols := shapeCols c.regs.shape
    (c.regs.readG a).toNat % 2 ^ w.toNat ≠ 0 ∨ ((c.regs.shape.toNat % 2 ^ 14 + 1) * cols ≠ cols ∧
      (c.regs.readG b).toNat % 2 ^ 22 % 2 ^ w.toNat ≠ 0) ↔
      rowsMisaligned (localAddr (c.regs.readG a)) (pitchOf (c.regs.readG b) (cols * 2 ^ w.toNat)) (shapeRows c.regs.shape)
        (2 ^ w.toNat) = true := by
  intro cols
  have tall : (c.regs.shape.toNat % 2 ^ 14 + 1) * cols ≠ cols ↔ 1 < shapeRows c.regs.shape := by
    have pos : 0 < cols := shapeCols_pos _
    rw [shapeRows_eq, ne_eq, Nat.mul_eq_right (by omega)]; omega
  simp only [rowsMisaligned, Bool.or_eq_true, Bool.and_eq_true, bne_iff_ne, decide_eq_true_eq, tall, localAddr_mod, pitchOf_mod]

theorem loads_trap : Claim.LoadsTrap := by
  intro s c d a b x w h n m l ha A B v rows row cfg imm flies full busy filled source wide odd
  refine ⟨Core.le_inFlight s.now c, ?_, ?_, ?_, ?_, ?_, ?_, ?_⟩
  · exact trapsWhere ha (rfl : execLd d a b x w s = _) rfl (.cons (badDst_iff d)
      (.cons (rowsMisaligned_iff ..) (.cons (rowsOver_iff ..) .nil))) rfl
      (.cons (full_iff s c) .nil) (by simp)
  · exact trapsWhere ha (rfl : execLdh d h n w s = _) rfl (.cons (badDst_iff d)
      (.cons (slotShort_iff ..) (.cons (rowsOver_iff ..) .nil))) rfl
      (.cons (filled_iff c h n) (.cons (full_iff s c) .nil)) (by simp [filled, full])
  · exact trapsWhere ha (rfl : execLdt d a b x s = _) rfl (.cons (lt16_iff d) (.cons (tileIllegal_iff _) .nil)) rfl
      (.cons (loadHitsBusy_iff s c d) (.cons (full_iff s c) .nil)) (by simp [busy, full])
  · exact trapsWhere ha (rfl : execLdth d h n s = _) rfl (.cons (lt16_iff d) (.cons (tileBad_iff ..) .nil)) rfl
      (.cons (filled_iff c h n) (.cons (loadHitsBusy_iff s c d) (.cons (full_iff s c) .nil))) (by simp [filled, busy, full])
  · exact trapsWhere ha (rfl : execLdm d a x s = _) rfl (.cons (lt16_iff d) (.cons (maskOver_iff _) .nil)) rfl
      (.cons (full_iff s c) .nil) (by simp)
  · exact trapsWhere ha (rfl : execLds d a m l s = _) rfl (.cons (ldsAddr_iff ..) .nil) rfl (.cons (full_iff s c) .nil) (by simp)
  · exact trapsWhere ha (rfl : execSqld a m l s = _) rfl (.cons (sqldBad_iff ..) .nil) rfl (.cons (full_iff s c) .nil) (by simp)

theorem stores_trap : Claim.StoresTrap := by
  intro s c d a b x w h n m l ha v elems size cfg pitch tall odd full free code wide
  refine ⟨?_, ?_, ?_, ?_, ?_, ?_⟩
  · exact trapsWhere ha (rfl : execSt d a b x w s = _) rfl (.cons (badSrc_iff d)
      (.cons (rowsMisaligned_iff_tall ..) (.cons (elemsOver_iff ..) .nil))) rfl
      (.cons (full_iff s c) .nil) (by simp)
  · exact trapsWhere ha (rfl : execSth d h n w s = _) rfl (.cons (badSrc_iff d)
      (.cons (slotShort_iff_elems ..) (.cons (elemsOver_iff ..) .nil))) rfl
      (.cons (free_iff c h n) (.cons (full_iff s c) .nil)) (by simp [free, full])
  · exact trapsWhere ha (rfl : execStt d a b x s = _) rfl (.cons (lt16_iff d) (.cons (tileIllegal_iff _) .nil)) rfl
      (.cons (full_iff s c) .nil) (by simp)
  · exact trapsWhere ha (rfl : execStth d h n s = _) rfl (.cons (lt16_iff d) (.cons (tileBad_iff ..) .nil)) rfl
      (.cons (free_iff c h n) (.cons (full_iff s c) .nil)) (by simp [free, full])
  · exact trapsWhere ha (rfl : execStm d a x s = _) rfl (.cons (lt16_iff d) (.cons (maskOver_iff _) .nil)) rfl
      (.cons (full_iff s c) .nil) (by simp)
  · exact trapsWhere ha (rfl : execSts d a m l s = _) rfl (.cons (ldsAddr_iff ..) .nil) rfl (.cons (full_iff s c) .nil) (by simp)

/-! ## Going in flight (R99, R208 to R210) -/

/-- What an operation has of the syllable that issues it. -/
def Flight.IssuedBy (f : Flight) (s : State) (c : Core) (i : Instr) : Prop :=
  f.instr = i ∧ f.issue = s.now ∧ f.seqno = s.now ∧ f.bundle = c.seq.bundle ∧ f.pos = c.seq.pos

/-- A clear syllable that puts an operation in flight. -/
theorem flies_of {s : State} {c : Core} {i : Instr} {g : Ctx → Core → Flight} {P : Flight → Prop} (k : Clear s c i)
    (he : exec i s = issueSyl i (fun x c => c.fly (g x c)) s) (hi : (g (s.ctx c) c).IssuedBy s c i)
    (hP : P { g (s.ctx c) c with uid := c.nextUid }) : Flies s c i (fun _ => c) P := by
  obtain ⟨instr, issue, seqno, bundle, pos⟩ := hi
  exact ⟨{ g (s.ctx c) c with uid := c.nextUid }, rfl, instr, issue, seqno, bundle, pos, hP, he.trans (issueSyl_clear k _)⟩

/-- A clear transfer of class L or W. -/
theorem transfers_of {s : State} {c : Core} {i : Instr} {write : Bool} {g : Ctx → Core → Flight} {P : Flight → Prop}
    (k : Clear s c i) (he : exec i s = issueSyl i (fun x c => c.transfer x write (g x c)) s)
    (hi : (g (s.ctx c) c).IssuedBy s c i) (hP : P { g (s.ctx c) c with uid := c.nextUid }) : Transfers s c i write P := by
  obtain ⟨instr, issue, seqno, bundle, pos⟩ := hi
  have same := Core.watch_same (s.ctx c) write .core (g (s.ctx c) c).allAddrs (fun _ => c.preciseTrap i 0x10 0) c
  refine ⟨{ g (s.ctx c) c with uid := c.nextUid }, rfl, instr, issue, seqno, bundle, pos, hP,
    (he.trans (issueSyl_clear k _)).trans ?_⟩
  have uid : ∀ w : Core, c.SameButErrors w → w.fly (g (s.ctx c) c) =
      { w with flights := c.flights ++ [{ g (s.ctx c) c with uid := c.nextUid }], nextUid := c.nextUid + 1 } := by
    intro w h; rw [h]; rfl
  rw [Core.transfer, instr, uid _ same]; rfl

/-- The view bit as the model tests it and as the statements say it. -/
theorem viewBit_eq (x : BitVec 1) : ((x == 1) = true) = (x = 1) := by simp

/-- A vector load of the swizzled view writes one cycle later (R210). -/
theorem loadStreams_swz (y : Ctx) (x : BitVec 1) (rows : Nat) :
    loadStreams y rows (if (x == 1) = true then 6 else 5) = loadStreams y rows (if x = 1 then 6 else 5) := by
  simp only [beq_iff_eq]

theorem loads_fly : Claim.LoadsFly := by
  intro s c d a b x w h n m l
  simp only [← shapeRows_eq]
  refine ⟨fun k => ?_, fun k => ?_, fun k => ?_, fun k => ?_, fun k => ?_, fun k => ?_, fun k => ?_⟩
  · exact transfers_of k (rfl : execLd d a b x w s = _) ⟨rfl, rfl, rfl, rfl, rfl⟩
      ⟨⟨rfl, rfl, rfl, rfl, rfl, rfl⟩, viewBit_eq x, loadStreams_swz ..⟩
  · exact transfers_of k (rfl : execLdh d h n w s = _) ⟨rfl, rfl, rfl, rfl, rfl⟩ ⟨⟨rfl, rfl, rfl, rfl, rfl, rfl⟩, rfl, rfl⟩
  · exact transfers_of k (rfl : execLdt d a b x s = _) ⟨rfl, rfl, rfl, rfl, rfl⟩
      ⟨⟨rfl, rfl, rfl, rfl, rfl, rfl⟩, viewBit_eq x, rfl⟩
  · exact transfers_of k (rfl : execLdth d h n s = _) ⟨rfl, rfl, rfl, rfl, rfl⟩ ⟨⟨rfl, rfl, rfl, rfl, rfl, rfl⟩, rfl, rfl⟩
  · exact transfers_of k (rfl : execLdm d a x s = _) ⟨rfl, rfl, rfl, rfl, rfl⟩
      ⟨rfl, rfl, rfl, viewBit_eq x, rfl⟩
  · exact transfers_of k (rfl : execLds d a m l s = _) ⟨rfl, rfl, rfl, rfl, rfl⟩ ⟨rfl, rfl, rfl, rfl⟩
  · exact flies_of k (rfl : execSqld a m l s = _) ⟨rfl, rfl, rfl, rfl, rfl⟩ ⟨rfl, rfl, rfl⟩

theorem stores_fly : Claim.StoresFly := by
  intro s c d a b x w h n m l
  simp only [← shapeRows_eq]
  refine ⟨fun k => ?_, fun k => ?_, fun k => ?_, fun k => ?_, fun k => ?_, fun k => ?_⟩
  · exact transfers_of k (rfl : execSt d a b x w s = _) ⟨rfl, rfl, rfl, rfl, rfl⟩
      ⟨⟨rfl, rfl, rfl, rfl, rfl, rfl, rfl⟩, viewBit_eq x⟩
  · exact transfers_of k (rfl : execSth d h n w s = _) ⟨rfl, rfl, rfl, rfl, rfl⟩
      ⟨⟨rfl, rfl, rfl, rfl, rfl, rfl, rfl⟩, rfl, rfl⟩
  · exact transfers_of k (rfl : execStt d a b x s = _) ⟨rfl, rfl, rfl, rfl, rfl⟩
      ⟨⟨rfl, rfl, rfl, rfl, rfl, rfl, rfl⟩, viewBit_eq x⟩
  · exact transfers_of k (rfl : execStth d h n s = _) ⟨rfl, rfl, rfl, rfl, rfl⟩
      ⟨⟨rfl, rfl, rfl, rfl, rfl, rfl, rfl⟩, rfl, rfl⟩
  · exact transfers_of k (rfl : execStm d a x s = _) ⟨rfl, rfl, rfl, rfl, rfl⟩
      ⟨rfl, rfl, rfl, viewBit_eq x, rfl⟩
  · exact transfers_of k (rfl : execSts d a m l s = _) ⟨rfl, rfl, rfl, rfl, rfl⟩ ⟨rfl, rfl, rfl, rfl, rfl⟩

/-- Settles O29: each load's checks are the conditions the statement lists, and its effect puts one transfer in flight. -/
theorem loadsIssue : Obligations.LoadsIssue := ⟨loads_trap, loads_fly⟩

/-- Settles O30: each store's checks are the conditions the statement lists, and its effect puts one transfer in flight. -/
theorem storesIssue : Obligations.StoresIssue := ⟨stores_trap, stores_fly⟩

end Sys2Proof.Machine
end

section
/-!
Copies, sends and atomics at their issue: where they, the column commands and dcan trap, and what they put in flight (R14, R22,
R63, R99 to R102, R136, R137, R208, R209, R215, R216, R218, R219, R222, R228).
-/

namespace Sys2Proof.Machine

/-! ## Conditions and checks -/

/-- A handle of the swizzled view, or with slots below 1,024 bytes (R228). -/
theorem columnHandle_iff (v : HandleView) : v.swz = true ∨ v.slot < 1024 ↔ (v.swz || decide (v.slot < 1024)) = true := by
  rw [Bool.or_eq_true, decide_eq_true_eq]

/-- A reduce-send that no form allows (R216). -/
theorem badReduce_iff (p n e a : Nat) : p = 3 ∨ 65536 < n ∨ n % e ≠ 0 ∨ a % e ≠ 0 ↔
    (p == 3 || decide (65536 < n) || n % e != 0 || a % e != 0) = true := by
  simp only [Bool.or_eq_true, beq_iff_eq, decide_eq_true_eq, bne_iff_ne, or_assoc]

/-- A gather that no form allows (R218). -/
theorem badGather_iff (m n d b a : Nat) : 4 < m ∨ 1024 < n ∨ d % 64 ≠ 0 ∨ b % 64 ≠ 0 ∨ a % 2 ≠ 0 ↔
    (decide (4 < m) || decide (1024 < n) || d % 64 != 0 || b % 64 != 0 || a % 2 != 0) = true := by
  simp only [Bool.or_eq_true, decide_eq_true_eq, bne_iff_ne, or_assoc]

/-- A copy needs a free slot where it fills its handle, and a filled one where it drains it (R208, R215). -/
theorem copyNeed_decides (s : State) (c : Core) (r : BitVec 6) (h n : BitVec 4) (e : BitVec 1) :
    let v := c.regs.handle h
    Decides [if e = 0 then (n ≠ 0 ∧ v.count - v.filled < n.toNat + (c.producers h).length, 1, true)
      else (v.filled < n.toNat, 1, true),
      (768 ≤ c.inFlight s.now, 0x0F, false)] (timing (s.ctx c) c (.dcp r h n e)) := by
  intro v
  show Decides _ [(if e = 0 then needFill c h n else needDrain c h n, 1, true), _]
  split
  · exact .cons (free_iff c h n) (.cons (full_iff s c) .nil)
  · exact .cons (filled_iff c h n) (.cons (full_iff s c) .nil)

theorem engine_syllables_trap : Claim.EngineSyllablesTrap := by
  intro s c r d a b k h n m t e p q l ha G local_ v full filled free word elem
  refine ⟨?_, ?_, ?_, ?_, ?_, ?_, ?_, ?_, ?_, ?_, ?_⟩
  · exact trapsWhere ha (rfl : execDcp r h n e s = _) rfl (.cons Iff.rfl .nil) rfl (copyNeed_decides s c r h n e)
      (by split <;> simp [free, filled, full])
  · exact trapsWhere ha (rfl : sendOp (.dput d a b) d a b s = _) rfl (.cons (by rw [decide_eq_true_eq]) .nil) rfl
      (.cons (full_iff s c) .nil) (by simp)
  · exact trapsWhere ha (rfl : sendOp (.dred d a b p q l) d a b s = _) rfl (.cons (badReduce_iff ..) .nil) rfl
      (.cons (full_iff s c) .nil) (by simp)
  · exact trapsWhere ha (rfl : execDgln d a b m s = _) rfl (.cons (badGather_iff ..) .nil) rfl (.cons (full_iff s c) .nil) (by simp)
  · exact trapsWhere ha (rfl : atomicOp (.amo d a p q) d a q none s = _) rfl (.cons bne_iff_ne.symm .nil) rfl
      (.cons (full_iff s c) .nil) (by simp)
  · exact trapsWhere ha (rfl : atomicOp (.amor d a b p q) d a q (some b) s = _) rfl
      (.cons (or_congr bne_iff_ne.symm bne_iff_ne.symm |>.trans (Bool.or_eq_true ..).symm.to_iff) .nil) rfl
      (.cons (full_iff s c) .nil) (by simp)
  · exact trapsWhere ha (rfl : execDcan t s = _) rfl (.cons beq_iff_eq.symm .nil) rfl .nil .nil
  · exact trapsWhere ha (rfl : execChrd k n a t s = _) rfl (.cons bne_iff_ne.symm .nil) rfl (.cons (full_iff s c) .nil) (by simp)
  · exact trapsWhere ha (rfl : execChwr k n a s = _) rfl .nil rfl (.cons (full_iff s c) .nil) (by simp)
  · exact trapsWhere ha (rfl : execChrdHandle k m h n t s = _) rfl (.cons (columnHandle_iff v) .nil) rfl
      (.cons (free_iff c h n) (.cons (full_iff s c) .nil)) (by simp [free, full])
  · exact trapsWhere ha (rfl : execChwrHandle k m h n s = _) rfl (.cons (columnHandle_iff v) .nil) rfl
      (.cons (filled_iff c h n) (.cons (full_iff s c) .nil)) (by simp [filled, full])

/-! ## Going in flight -/

/-- A clear syllable makes of the core what its effect computes to. -/
theorem makes_of {s : State} {c c' : Core} {i : Instr} {eff : Ctx → Core → Core} (k : Clear s c i)
    (he : exec i s = issueSyl i eff s) (e : eff (s.ctx c) c = c') : Makes s i c' :=
  e ▸ makes_of_clear k he

/-- A clear syllable whose effect puts an operation in flight beside what it changes of the core. -/
theorem flies_from {s : State} {c base : Core} {i : Instr} {f : Flight} {eff : Ctx → Core → Core} {P : Flight → Prop}
    (k : Clear s c i) (he : exec i s = issueSyl i eff s) (e : eff (s.ctx c) c = base.fly f)
    (hf : base.flights = c.flights) (hu : base.nextUid = c.nextUid) (hi : f.IssuedBy s c i)
    (hP : P { f with uid := c.nextUid }) : Flies s c i (fun _ => base) P := by
  obtain ⟨instr, issue, seqno, bundle, pos⟩ := hi
  exact ⟨{ f with uid := c.nextUid }, rfl, instr, issue, seqno, bundle, pos, hP,
    makes_of k he (e.trans (by rw [Core.fly, hf, hu]))⟩

theorem copies_issue : Claim.CopiesIssue := by
  intro s c r d a b h n m e v g A list size
  have drains (h1 : e = 1) : ¬e = 0 := by subst h1; decide
  refine ⟨fun k => ?_, fun k h0 => ?_, fun k h0 => ?_⟩
  · exact flies_of k (rfl : execDcp r h n e s = _) ⟨rfl, rfl, rfl, rfl, rfl⟩
      ⟨rfl, by simp, rfl, fun h0 => ⟨if_pos h0, if_pos h0⟩, fun h1 => ⟨if_neg (drains h1), if_neg (drains h1)⟩, rfl⟩
  · exact makes_of k (rfl : execDgln d a b m s = _) (if_pos h0)
  · exact flies_from k (rfl : execDgln d a b m s = _) (if_neg h0) rfl rfl ⟨rfl, rfl, rfl, rfl, rfl⟩
      ⟨rfl, rfl, rfl, rfl, rfl⟩

/-- A destination range that passes the end of scratchpad or overlaps the landing area (R100). -/
theorem Ctx.overlaps_iff (x : Ctx) (a n : Nat) :
    x.overlaps a n = true ↔ n ≠ 0 ∧ (4194304 < a + n ∨ 4194304 - x.la.landing * 65536 < a + n) := by
  simp only [Ctx.overlaps, Bool.and_eq_true, bne_iff_ne, Bool.or_eq_true, decide_eq_true_eq]; rfl

theorem sends_issue : Claim.SendsIssue := by
  intro s c d a b p q l x D dest n limit bad noted e
  have passes (a n : Nat) : bad a n ↔ x.overlaps a n = true := (Ctx.overlaps_iff x a n).symm
  have sends : ∀ i ∈ [Instr.dput d a b, .dred d a b p q l], exec i s = sendOp i d a b s :=
    List.forall_mem_cons (p := fun i => exec i s = sendOp i d a b s) |>.2 ⟨rfl, List.forall_mem_singleton.2 rfl⟩
  have mo : exec (.amo d a p q) s = atomicOp (.amo d a p q) d a q none s := rfl
  have mor : exec (.amor d a b p q) s = atomicOp (.amor d a b p q) d a q (some b) s := rfl
  refine ⟨fun i hi k => ⟨fun h => ?_, fun h0 => ?_, fun h0 h => ?_⟩, fun k h => ?_, ?_, fun k h hb => ?_, fun k h hb => ?_⟩
  · exact makes_of k (sends i hi) (if_pos ((passes _ _).1 h))
  · exact makes_of k (sends i hi) ((if_neg fun h => ((passes _ _).2 h).1 h0).trans (if_pos h0))
  · exact flies_from k (sends i hi) ((if_neg fun o => h ((passes _ _).2 o)).trans (if_neg h0)) rfl rfl
      ⟨rfl, rfl, rfl, rfl, rfl⟩ ⟨rfl, rfl, rfl, rfl, rfl⟩
  · exact flies_from k mo ((if_neg fun o => h ((passes _ _).2 o)).trans (if_neg (by simp))) rfl rfl
      ⟨rfl, rfl, rfl, rfl, rfl⟩ ⟨rfl, rfl, rfl, rfl, rfl⟩
  · refine List.forall_mem_cons.2 ⟨fun k h => ?_, List.forall_mem_singleton.2 fun k h => ?_⟩
    · exact makes_of k mo (if_pos ((passes _ _).1 h))
    · exact makes_of k mor (if_pos ((passes _ _).1 h))
  · exact makes_of k mor ((if_neg fun o => h ((passes _ _).2 o)).trans (if_pos ((passes _ _).1 hb)))
  · exact flies_from k mor ((if_neg fun o => h ((passes _ _).2 o)).trans (if_neg fun o => hb ((passes _ _).2 o))) rfl rfl
      ⟨rfl, rfl, rfl, rfl, rfl⟩ ⟨rfl, rfl, rfl, rfl, rfl, rfl⟩

/-- Settles O35: each syllable's checks are the conditions the statement lists, and its effect is one operation in flight, a
landing-overflow fault, or nothing. -/
theorem copiesAndSendsIssue : Obligations.CopiesAndSendsIssue := ⟨engine_syllables_trap, copies_issue, sends_issue⟩

end Sys2Proof.Machine
end

section
/-!
What an event of an operation in flight leaves (R13, R96, R97): the operation that moves on, the frames of reads and of writes of
scratchpad, the bytes a write puts, and the end of a producer (R99).
-/

namespace Sys2Proof.Machine

/-! ## The operation that moves on -/

/-- What keeps an operation among those in flight. -/
def Flight.stays (f : Flight) : Bool := f.live || lingers f.instr

theorem Core.flight?_uid {c : Core} {u : Nat} {f : Flight} (h : c.flight? u = some f) : f.uid = u := by
  simpa using List.find?_some h

/-- An operation replaced twice is replaced by the last, where both stay in flight or neither does. -/
theorem Core.setFlight_setFlight {f g : Flight} (hu : g.uid = f.uid) (hs : g.stays = f.stays) (c : Core) :
    (c.setFlight g).setFlight f = c.setFlight f := by
  have key (l : List Flight) : (((l.map fun h => if h.uid == g.uid then g else h).filter Flight.stays).map
      fun h => if h.uid == f.uid then f else h).filter Flight.stays =
      (l.map fun h => if h.uid == f.uid then f else h).filter Flight.stays := by
    induction l with
    | nil => rfl
    | cons h l ih =>
      rw [List.map_cons, List.map_cons, List.filter_cons, List.filter_cons, ← ih]
      by_cases e : h.uid = f.uid
      · simp only [hu, e, beq_self_eq_true, if_true, hs]
        split
        · next k => simp [hu, k]
        · rfl
      · simp only [hu, beq_iff_eq, e, if_false]
        split
        · next k => simp [e, k]
        · rfl
  have e := congrArg (fun fs => ({ c with flights := fs } : Core)) (key c.flights)
  exact e

/-- The operation as it was last set, where it stays in flight. -/
theorem Core.flight?_setFlight {c : Core} {u : Nat} {f g : Flight} (h : c.flight? u = some g) (hu : f.uid = u)
    (hs : f.stays = true) : (c.setFlight f).flight? u = some f := by
  have hg := Core.flight?_uid h
  unfold Core.flight? at h
  have key (l : List Flight) (h : l.find? (fun f => f.uid == u) = some g) :
      ((l.map fun h => if h.uid == f.uid then f else h).filter Flight.stays).find? (fun f => f.uid == u) = some f := by
    induction l with
    | nil => cases h
    | cons y l ih =>
      rw [List.map_cons, List.filter_cons]
      by_cases e : y.uid = u
      · simp [e, hu, hs]
      · rw [List.find?_cons_of_neg (by simpa using e)] at h
        simp only [hu, beq_iff_eq, e, if_false]
        simp only [hu, beq_iff_eq] at ih
        split
        · rw [List.find?_cons_of_neg (by simpa using e)]; exact ih h
        · exact ih h
  exact key c.flights h

section
variable {s : State} {c : Core} {u j k : Nat} {f : Flight}

theorem EventAt.uid (h : EventAt s c u j f k) : f.uid = u := Core.flight?_uid h.2.1

/-- The operation as an event sets it: its progress stands, and what it holds may differ. -/
def Flight.Holds (f : Flight) (j : Nat) (g : Flight) : Prop :=
  g.uid = f.uid ∧ g.instr = f.instr ∧ g.streams = (f.next j).streams ∧ g.open_ = f.open_

theorem Flight.Holds.stays {g : Flight} (h : f.Holds j g) : (f.next j).stays = g.stays := by
  obtain ⟨-, hi, hl, ho⟩ := h
  rw [Flight.stays, Flight.stays, Flight.live, Flight.live, hl, ho, hi]; rfl

theorem Core.moved_setFlight {g : Flight} (h : f.Holds j g) (c : Core) : (c.moved f j).setFlight g = c.setFlight g :=
  Core.setFlight_setFlight (f := g) (g := f.next j) h.1.symm h.stays c

/-- The operation as an event sets it, in the core as the event finds it. -/
theorem EventAt.flight?_set (h : EventAt s c u j f k) {g : Flight} (hg : f.Holds j g) (hs : g.stays = true) :
    ((c.moved f j).setFlight g).flight? u = some g := by
  rw [Core.moved_setFlight hg]
  exact Core.flight?_setFlight h.2.1 (hg.1.trans h.uid) hs
end

/-- A live operation stays in flight. -/
theorem Flight.stays_of_live {f : Flight} (h : f.live = true) : f.stays = true := by simp [Flight.stays, h]

/-! ## The frame of a read -/

/-- Nothing differs but the operations in flight, the busy units, and what error detection changes. -/
def Core.SameButFlights (c c' : Core) : Prop :=
  ({ c with flights := c'.flights, seq := { c.seq with busy := c'.seq.busy } } : Core).SameButErrors c'

theorem Core.SameButErrors.butFlights {c c' : Core} (h : c.SameButErrors c') : c.SameButFlights c' := by
  rw [Core.SameButFlights, h.flights, h.seq]; exact h

theorem Core.SameButFlights.refl (c : Core) : c.SameButFlights c := Core.SameButErrors.refl c

theorem Core.SameButFlights.trans {a b c : Core} (h : a.SameButFlights b) (k : b.SameButFlights c) : a.SameButFlights c := by
  rw [Core.SameButFlights, Core.SameButErrors] at *; rw [k, h]

theorem Core.setFlight_same (f : Flight) (c : Core) : c.SameButFlights (c.setFlight f) := rfl

theorem Core.moved_same (f : Flight) (j : Nat) (c : Core) : c.SameButFlights (c.moved f j) := rfl

theorem Core.busy_same (u : Nat) (c : Core) : c.SameButFlights (c.busy u) := rfl

theorem Core.SameButFlights.memories {c c' : Core} (h : c.SameButFlights c') : SameMemories c c' := by
  rw [Core.SameButFlights, Core.SameButErrors] at h; rw [h]; exact ⟨rfl, rfl, rfl, rfl⟩

theorem Core.SameButFlights.registers {c c' : Core} (h : c.SameButFlights c') : SameRegisters c c' := by
  rw [Core.SameButFlights, Core.SameButErrors] at h; rw [h]; exact ⟨rfl, rfl, rfl, rfl, rfl, rfl, rfl, rfl⟩

theorem Core.SameButFlights.pends {c c' : Core} (h : c.SameButFlights c') : c'.pends = c.pends := by
  rw [Core.SameButFlights, Core.SameButErrors] at h; rw [h]

theorem Core.SameButFlights.sp {c c' : Core} (h : c.SameButFlights c') : c'.sp = c.sp := by
  rw [Core.SameButFlights, Core.SameButErrors] at h; rw [h]

theorem Core.SameButFlights.index {c c' : Core} (h : c.SameButFlights c') : c'.index = c.index := by
  rw [Core.SameButFlights, Core.SameButErrors] at h; rw [h]

theorem Core.SameButFlights.net {c c' : Core} (h : c.SameButFlights c') : c'.net = c.net := by
  rw [Core.SameButFlights, Core.SameButErrors] at h; rw [h]

theorem Core.seenBy_readUnits_same (f : Flight) (x : Ctx) (t : TrapRec) (a : Nat) (us : List Nat) (c : Core) :
    c.SameButErrors (c.seenBy f fun c => c.readUnits x t a us).1 :=
  (Core.seenBy_same (fun d => Core.readUnits_same x t a us d) f c).1

/-- The checks of a scratchpad read change what error detection changes (R97, R100, R257, R304). -/
theorem Core.readOk_same (x : Ctx) (f : Flight) (j : Nat) (as : List Nat) (c : Core) :
    c.SameButErrors (c.readOk x f j as).1 := by
  unfold Core.readOk
  dsimp only
  generalize (!x.la.interlocked && c.sp.hazard f.swz as) = hz
  have first : c.SameButErrors (if hz = true then c.raise x (f.trap 4 3 (as.headD 0) j 0) else c) := by
    split
    · exact Core.raise_same ..
    · exact .refl c
  split
  · exact first.trans (Core.raise_same ..)
  · cases hz with
    | true => exact first
    | false => exact Core.seenBy_readUnits_same ..

theorem Core.watchEng_same (x : Ctx) (f : Flight) (w : Bool) (o : Nat) (as : List Nat) (c : Core) :
    c.SameButErrors (c.watchEng x f w o as) := Core.watch_same ..

theorem Core.mayWrite_same (x : Ctx) (t : TrapRec) (as : List Nat) (c : Core) : c.SameButErrors (c.mayWrite x t as).1 := by
  unfold Core.mayWrite
  split
  · exact Core.raise_same ..
  · exact .refl c

theorem Core.mayWrite_not {s : State} {c : Core} {as : List Nat} (h : ¬Writes s c as) (t : TrapRec) (d : Core) :
    (d.mayWrite (s.ctx c) t as).2 = false := by
  unfold Core.mayWrite
  split
  · rfl
  · next e => exact absurd (Ctx.badAddr_none.1 e) h

/-! ## The frame of a write of scratchpad -/

/-- Nothing differs but scratchpad, the registers, the operations in flight, the busy units, and what error detection changes. -/
def Core.SameButScratch (c c' : Core) : Prop :=
  ({ c with sp := c'.sp, regs := c'.regs } : Core).SameButFlights c'

theorem Core.SameButFlights.butScratch {c c' : Core} (h : c.SameButFlights c') : c.SameButScratch c' := by
  have r := h.registers.1
  rw [Core.SameButScratch, h.sp, r]; exact h

theorem Core.SameButScratch.trans {a b c : Core} (h : a.SameButScratch b) (k : b.SameButScratch c) : a.SameButScratch c := by
  rw [Core.SameButScratch, Core.SameButFlights, Core.SameButErrors] at *; rw [k, h]

theorem Core.SameButScratch.besides {c c' : Core} (h : c.SameButScratch c') : SameBesides c c' := by
  rw [Core.SameButScratch, Core.SameButFlights, Core.SameButErrors] at h; rw [h]
  exact ⟨rfl, rfl, rfl, rfl, rfl, rfl, rfl, rfl, rfl, rfl⟩

theorem Core.SameButScratch.sysMode {c c' : Core} (h : c.SameButScratch c') : c'.phys.sysMode = c.phys.sysMode := by
  rw [Core.SameButScratch, Core.SameButFlights, Core.SameButErrors] at h; rw [h]

/-! ## The bytes of a write -/

/-- A byte at none of the addresses keeps its value. -/
theorem Mem.get_puts_of_not_mem (l : List (Nat × Byte)) {m : Mem} (h : m.wf 0 = true) {a : Nat} (ha : ∀ p ∈ l, p.1 ≠ a) :
    Mem.get 0 (l.foldl (fun m p => m.put 0 p.1 p.2) m) a = m.get 0 a := by
  induction l generalizing m with
  | nil => rfl
  | cons p l ih =>
    obtain ⟨hp, hl⟩ := List.forall_mem_cons.1 ha
    rw [List.foldl_cons, ih (Mem.wf_put 0 _ _ h) hl, Mem.get_put 0 _ _ h, if_neg (Ne.symm hp)]

/-- Each byte of a write to addresses of which no two are one reads back. -/
theorem Mem.get_puts_of_mem (l : List (Nat × Byte)) {m : Mem} (h : m.wf 0 = true) (hn : (l.map (·.1)).Nodup) {p : Nat × Byte}
    (hp : p ∈ l) : Mem.get 0 (l.foldl (fun m p => m.put 0 p.1 p.2) m) p.1 = p.2 := by
  induction l generalizing m with
  | nil => cases hp
  | cons q l ih =>
    obtain ⟨hq, hn⟩ := List.nodup_cons.1 hn
    rw [List.foldl_cons]
    rcases List.mem_cons.1 hp with rfl | hp
    · rw [Mem.get_puts_of_not_mem l (Mem.wf_put 0 _ _ h)
      fun r hr e => hq (List.mem_map.2 ⟨r, hr, e⟩), Mem.get_put 0 _ _ h,
        if_pos rfl]
    · exact ih (Mem.wf_put 0 _ _ h) hn hp

theorem map_fst_zip_sublist {α β : Type} : ∀ (as : List α) (bs : List β), ((as.zip bs).map (·.1)).Sublist as
  | [], _ => by simp
  | _ :: _, [] => by simp
  | a :: as, _ :: bs => (map_fst_zip_sublist as bs).cons_cons a

/-- What tells an operation from the others as a producer (R99). -/
def Flight.rank (f : Flight) : Bool × Option Nat × Nat × Nat := (f.prod, f.handle, f.seqno, f.cls)

theorem shadowed_rank (q a : Nat) (v : Byte) (fs : List Flight) : (shadowed q a v fs).map Flight.rank = fs.map Flight.rank := by
  rw [shadowed, List.map_map]
  refine List.map_congr_left fun f _ => ?_
  simp only [Function.comp_apply]
  repeat' split
  all_goals rfl

theorem keepCodes_rank (own : Flight → Bool) (a : Nat) (us : List Nat) (l : List (Nat × Nat × Word)) (fs : List Flight) :
    (keepCodes own a us l fs).map Flight.rank = fs.map Flight.rank := by
  rw [keepCodes, List.map_map]
  refine List.map_congr_left fun f _ => ?_
  simp only [Function.comp_apply]
  split <;> rfl

/-- What operations in flight have of a function depends on the replaced one's value alone. -/
theorem Core.setFlight_map {α : Type} (r : Flight → α) {f g : Flight} (hu : g.uid = f.uid) (hs : g.stays = f.stays)
    (hr : r g = r f) (c : Core) : (c.setFlight g).flights.map r = (c.setFlight f).flights.map r := by
  have key (l : List Flight) :
      ((l.map fun h => if h.uid == g.uid then g else h).filter Flight.stays).map r =
      ((l.map fun h => if h.uid == f.uid then f else h).filter Flight.stays).map r := by
    induction l with
    | nil => rfl
    | cons h l ih =>
      simp only [List.map_cons, List.filter_cons, hu] at ih ⊢
      split
      · rw [hs]
        split
        · rw [List.map_cons, List.map_cons, ih, hr]
        · exact ih
      · split
        · rw [List.map_cons, List.map_cons, ih]
        · exact ih
  exact key c.flights

theorem Core.moved_setFlight_map {α : Type} (r : Flight → α) {f g : Flight} {j : Nat} (hg : f.Holds j g)
    (hr : r g = r (f.next j)) (c : Core) : ((c.moved f j).setFlight g).flights.map r = (c.moved f j).flights.map r := by
  rw [Core.moved_setFlight hg]
  exact Core.setFlight_map r (f := f.next j) hg.1 hg.stays.symm hr c

/-- A write of units keeps the trap record (R307). -/
theorem Core.writeSpan_trap (a lo hi : Nat) (c : Core) : (c.writeSpan a lo hi).trap = c.trap := by
  unfold Core.writeSpan
  dsimp only
  split
  · rfl
  · rw [Core.setErr_trap]

theorem Core.writeCells_trap (a : Nat) (as : List Nat) (c : Core) : (c.writeCells a as).trap = c.trap := by
  unfold Core.writeCells
  split
  · rfl
  · exact foldl_keeps Core.trap _ (fun _ _ => Core.writeSpan_trap ..) _ _

/-- A write of cells that some operations do not see: the operations keep their ranks, and the trap record stands. -/
theorem Core.writeCellsPast_spec (own : Flight → Bool) (a : Nat) (as : List Nat) (c : Core) :
    c.SameButFlights (c.writeCellsPast own a as) ∧
    (c.writeCellsPast own a as).flights.map Flight.rank = c.flights.map Flight.rank ∧
    (c.writeCellsPast own a as).trap = c.trap := by
  unfold Core.writeCellsPast
  split
  · exact ⟨.refl c, rfl, rfl⟩
  · have same := Core.writeCells_same a as
      { c with flights := keepCodes own a (as.map (· / 8)).dedup c.phys.flips c.flights }
    exact ⟨Core.SameButFlights.trans (b := { c with flights := _ }) rfl same.butFlights,
      by rw [same.flights, keepCodes_rank], Core.writeCells_trap ..⟩

/-- A write of scratchpad puts its bytes one after the other; beside them it changes the marks, what the operations keep, and
error codes. -/
theorem Core.spWrite_spec (now q : Nat) (z : Bool) (as : List Nat) (bs : List Byte) (c : Core) :
    let c' := c.spWrite now q z as bs
    c'.sp.mem = (as.zip bs).foldl (fun m p => m.put 0 p.1 p.2) c.sp.mem ∧ c'.regs = c.regs ∧ c.SameButScratch c' ∧
    c'.flights.map Flight.rank = c.flights.map Flight.rank ∧ c'.trap = c.trap := by
  have puts : ∀ (l : List (Nat × Byte)) (c : Core), ∃ fs, fs.map Flight.rank = c.flights.map Flight.rank ∧
      l.foldl (fun c p => c.spPut q p.1 p.2) c =
        { c with flights := fs, sp := { c.sp with mem := l.foldl (fun m p => m.put 0 p.1 p.2) c.sp.mem } } := by
    intro l; induction l with
    | nil => exact fun c => ⟨c.flights, rfl, rfl⟩
    | cons p l ih =>
      intro c
      obtain ⟨fs, hr, e⟩ := ih (c.spPut q p.1 p.2)
      exact ⟨fs, hr.trans (shadowed_rank ..), by rw [List.foldl_cons, e]; rfl⟩
  obtain ⟨fs, hr, e⟩ := puts (as.zip bs) c
  obtain ⟨same, ranks, trap⟩ := Core.writeCellsPast_spec (fun f => f.cls == 4 && f.seqno == q) 0 as
    { c with flights := fs, sp := { c.sp with mem := (as.zip bs).foldl (fun m p => m.put 0 p.1 p.2) c.sp.mem } }
  have mark (l : List Nat) (m : Scratch) : (m.mark now z l).mem = m.mem := by unfold Scratch.mark; split <;> rfl
  have regs := same.registers.1
  have sp := same.sp
  simp only [Core.spWrite, e]
  exact ⟨(mark ..).trans (congrArg Scratch.mem sp), regs,
    (Core.SameButScratch.trans (b := { c with flights := fs, sp := _ }) rfl same.butScratch).trans rfl, ranks.trans hr, trap⟩

/-! ## The end of a producer (R99) -/

/-- A fault of launch code that the core records: no earlier record stands, or one of the same cycle and of a higher cause
(R265, R266). -/
theorem Core.raise_recorded {x : Ctx} {t : TrapRec} {c : Core} (hm : c.phys.sysMode = false) (hr : x.la.phase = .running)
    (ht : ∀ o, c.trap = some o → o.raised = x.now ∧ t.cause < o.cause) :
    ∃ r, (c.raise x t).trap = some r ∧ r.cause = t.cause ∧ r.detail = t.detail ∧ r.kind = t.kind ∧ r.bundle = t.bundle := by
  cases h : c.trap with
  | none => exact ⟨c.fillTrap x t, by simp [Core.raise, hm, hr, h], rfl, rfl, rfl, rfl⟩
  | some o =>
    obtain ⟨now, lower⟩ := ht o h
    exact ⟨{ c.fillTrap x t with more := true }, by simp [Core.raise, hm, hr, h, now, trapBefore, lower], rfl, rfl, rfl, rfl⟩

/-- What a watchpoint match leaves of the trap record, where none stood: none, or a match's of this cycle (R286). -/
def Core.MatchOnly (x : Ctx) (c : Core) : Prop := ∀ o, c.trap = some o → o.raised = x.now ∧ o.cause = 0x10

theorem Core.raise_matchOnly {x : Ctx} {t : TrapRec} {c : Core} (h : c.MatchOnly x) (ht : t.cause = 0x10) :
    (c.raise x t).MatchOnly x := by
  unfold Core.raise
  split
  · split <;> exact h
  · split
    · exact h
    · split
      · intro o e; cases e; exact ⟨rfl, ht⟩
      · next o ho =>
        split
        · intro r e; cases e; exact ⟨rfl, ht⟩
        · intro r e; cases e; exact h o ho

theorem Core.raiseWatch_matchOnly {x : Ctx} {w m : Nat} {t : TrapRec} {c : Core} (h : c.MatchOnly x) :
    (c.raiseWatch x w m t).MatchOnly x := by
  unfold Core.raiseWatch
  split
  · next o ho =>
    split
    · split
      · intro r e; cases e; exact h o ho
      · split
        · intro r e; cases e; exact ⟨rfl, rfl⟩
        · intro r e; cases e; exact h o ho
    · exact Core.raise_matchOnly h rfl
  · exact Core.raise_matchOnly h rfl

theorem Core.watch_matchOnly {x : Ctx} {w : Bool} {src : Source} {as : List Nat} {t : Nat → TrapRec} {c : Core}
    (h : c.MatchOnly x) : (c.watch x w src as t).MatchOnly x := by
  unfold Core.watch
  split
  · exact h
  · refine List.foldlRecOn (motive := fun c : Core => c.MatchOnly x) _ _ h fun c hc i _ => ?_
    dsimp only
    split
    · exact hc
    · exact Core.raiseWatch_matchOnly hc

/-- A producer's completion moves its handle or raises a fault; scratchpad stands (R99). -/
theorem Core.complete_same (x : Ctx) (f : Flight) (k : Nat) (c : Core) :
    c.SameButScratch (c.complete x f k) ∧ (c.complete x f k).sp = c.sp := by
  have refl : c.SameButScratch c ∧ c.sp = c.sp := ⟨(Core.SameButFlights.refl c).butScratch, rfl⟩
  have fault (t : TrapRec) : c.SameButScratch (c.raise x t) ∧ (c.raise x t).sp = c.sp :=
    ⟨(Core.raise_same x t c).butFlights.butScratch, (Core.raise_same x t c).sp⟩
  unfold Core.complete
  split
  · exact refl
  · dsimp only
    split
    · exact refl
    · split
      · exact fault _
      · split
        · exact fault _
        · exact ⟨rfl, rfl⟩

section
variable {s : State} {c d c' : Core} {j : Nat} {f : Flight}

/-- The producers that a write's core finds are those that the event finds. -/
theorem exists_earlier_iff (hr : d.flights.map Flight.rank = (c.moved f j).flights.map Flight.rank) (h : BitVec 4) :
    (∃ g ∈ d.producers h, g.seqno < f.seqno ∨ (g.seqno = f.seqno ∧ g.cls < f.cls)) ↔
    ∃ g ∈ (c.moved f j).flights, g.prod = true ∧ g.handle = some h.toNat ∧
      (g.seqno < f.seqno ∨ (g.seqno = f.seqno ∧ g.cls < f.cls)) := by
  have byRank (l : List Flight) (P : Bool × Option Nat × Nat × Nat → Prop) :
      (∃ g ∈ l, P g.rank) ↔ ∃ r ∈ l.map Flight.rank, P r := by simp
  have e := (byRank d.flights fun r => r.1 = true ∧ r.2.1 = some h.toNat ∧
      (r.2.2.1 < f.seqno ∨ (r.2.2.1 = f.seqno ∧ r.2.2.2 < f.cls))).trans
    (hr ▸ (byRank (c.moved f j).flights _).symm)
  refine Iff.trans ?_ e
  simp only [Core.producers, List.mem_filter, Bool.and_eq_true, beq_iff_eq, Flight.rank, and_assoc]

/-- An event that is no last write and keeps the registers. -/
theorem completes_of_not {done : Prop} (hn : ¬done) (h : c'.regs = c.regs) : Completes s c f j done c' :=
  ⟨fun _ => h, fun p => absurd p.2.2 hn, fun p => absurd p.2.2 hn, fun p => absurd p.2.2 hn⟩

/-- An event that ends in a producer's completion where its last write is `done`, and keeps the registers where it is not. -/
theorem completes_of {done : Prop} {k : Nat} (hregs : d.regs = c.regs)
    (hr : d.flights.map Flight.rank = (c.moved f j).flights.map Flight.rank) (hm : d.phys.sysMode = c.phys.sysMode)
    (ht : c.trap = none → d.MatchOnly (s.ctx c)) (hdone : done → c' = d.complete (s.ctx c) (f.next j) k)
    (hnot : ¬done → c'.regs = c.regs) : Completes s c f j done c' := by
  unfold Completes
  intro h v produces earlier faults
  have idle (n : f.prod = false ∨ f.handle = none) : d.complete (s.ctx c) (f.next j) k = d := by
    unfold Core.complete
    rcases n with n | n
    · have n : (f.next j).prod = false := n
      split
      · rfl
      · simp [n]
    · have n : (f.next j).handle = none := n
      rw [n]
  have fault (t : TrapRec) (detail : Nat) (e : c' = d.raise (s.ctx c) t) (hc : t.cause = 4) (hd : t.detail = detail)
      (hk : t.kind = 1) (hb : t.bundle = some f.bundle) : faults detail := by
    refine ⟨by rw [e, (Core.raise_same ..).regs, hregs], fun hn hs hp => ?_⟩
    obtain ⟨r, hr, a1, a2, a3, a4⟩ := Core.raise_recorded (t := t) (hm.trans hs) hp
      fun o ho => ⟨(ht hn o ho).1, by rw [(ht hn o ho).2, hc]; decide⟩
    exact ⟨r, by rw [e, hr], a1.trans hc, a2.trans hd, a3.trans hk, a4.trans hb⟩
  have ends (p : produces) : let full := v.count ≤ v.filled
      (earlier ∧ faults 0x10) ∨ (¬earlier ∧ full ∧ faults 0x13) ∨ (¬earlier ∧ ¬full ∧ c'.regs = c.regs.advFill h 1) := by
    obtain ⟨hp, hh, hd⟩ := p
    obtain ⟨n, hn⟩ := Option.ne_none_iff_exists'.1 hh
    have hv : h = BitVec.ofNat 4 n := by simp only [h, hn, Option.getD_some]
    have e := exists_earlier_iff hr h
    have hfull : (d.regs.handle (BitVec.ofNat 4 n)).count ≤ (d.regs.handle (BitVec.ofNat 4 n)).filled ↔ v.count ≤ v.filled := by
      rw [hregs, ← hv]
    rcases Core.complete_cases (s.ctx c) (f.next j) k n d hp hn with ⟨a, q⟩ | ⟨a, b, q⟩ | ⟨a, b, q⟩
    · exact .inl ⟨e.1 (hv ▸ a), fault _ _ ((hdone hd).trans q) rfl rfl rfl rfl⟩
    · exact .inr (.inl ⟨fun y => a (hv ▸ e.2 y), hfull.1 b, fault _ _ ((hdone hd).trans q) rfl rfl rfl rfl⟩)
    · exact .inr (.inr ⟨fun y => a (hv ▸ e.2 y), fun y => b (hfull.2 y), by rw [hdone hd, q, hregs, hv]⟩)
  refine ⟨fun n => ?_, fun p y => ?_, fun p n y => ?_, fun p n y => ?_⟩
  · by_cases hd : done
    · have none : f.prod = false ∨ f.handle = none :=
        (Bool.eq_false_or_eq_true f.prod).symm.imp_right fun hp => by_contra fun hh => n ⟨hp, hh, hd⟩
      rw [hdone hd, idle none, hregs]
    · exact hnot hd
  · rcases ends p with ⟨_, q⟩ | ⟨a, _⟩ | ⟨a, _⟩
    · exact q
    · exact absurd y a
    · exact absurd y a
  · rcases ends p with ⟨a, _⟩ | ⟨_, _, q⟩ | ⟨_, a, _⟩
    · exact absurd a n
    · exact q
    · exact absurd y a
  · rcases ends p with ⟨a, _⟩ | ⟨_, a, _⟩ | ⟨_, _, q⟩
    · exact absurd a n
    · exact absurd y (Nat.not_lt.2 a)
    · exact q
end

end Sys2Proof.Machine
end

section
/-!
The rows of stores (R14, R99, R208, R210, R213): their bytes, what they leave, and the slot that the last one completes.
-/

namespace Sys2Proof.Machine

/-- The core of a store's row write, the row taken out of what the operation holds. -/
def Core.rowTaken (f : Flight) (j : Nat) (c : Core) : Core :=
  (c.setFlight { f with data := f.data.filter fun p => p.1 != j }).busy 4

/-- The bytes that a run puts at the addresses `as`: each under the bits that it covers (R213). -/
def Run.over (r : Run) (as : List Nat) (m : Mem) : List Byte :=
  (as.zip r.bytes).map fun p => (m.get 0 p.1 &&& ~~~p.2.1) ||| (p.2.2 &&& p.2.1)

section
variable {x : Ctx} {f : Flight} {j : Nat} {c : Core}

theorem Core.rowWrite_unread (h : f.rowData j = []) : c.rowWrite x f j = c.rowTaken f j := by
  rw [Core.rowWrite, h]; rfl

theorem Core.rowWrite_kept {r : Run} {rs : List Run} (h : f.rowData j = r :: rs)
    (hw : ((c.rowTaken f j).writeOk x f j (f.rowAddrs j)).2 = false) :
    c.rowWrite x f j = ((c.rowTaken f j).writeOk x f j (f.rowAddrs j)).1 := by
  rw [Core.rowTaken] at *
  simp only [Core.rowWrite, h, hw]; rfl

theorem Core.rowWrite_written {r : Run} {rs : List Run} (h : f.rowData j = r :: rs)
    (hw : (c.rowTaken f j).writeOk x f j (f.rowAddrs j) = (c.rowTaken f j, true)) :
    let d := (c.rowTaken f j).spWrite x.now f.seqno f.swz (f.rowAddrs j) (r.over (f.rowAddrs j) (c.rowTaken f j).sp.mem)
    c.rowWrite x f j = if j + 1 = f.rows then d.complete x f j else d := by
  rw [Core.rowTaken] at *
  simp only [Core.rowWrite, h, hw, Bool.not_true, Bool.false_eq_true, if_false, beq_iff_eq]; rfl
end

/-- What a row's write to scratchpad puts there. -/
theorem Run.over_spec {r : Run} {as : List Nat} {m : Mem} {m' : Mem} (wf : m.wf 0 = true)
    (h : m' = (as.zip (r.over as m)).foldl (fun m p => m.put 0 p.1 p.2) m) :
    (∀ a, a ∉ as → m'.get 0 a = m.get 0 a) ∧
    (as.Nodup → ∀ (i a : Nat) (b v : Byte), as[i]? = some a → r.bytes[i]? = some (b, v) →
      m'.get 0 a = (m.get 0 a &&& ~~~b) ||| (v &&& b)) := by
  subst h
  refine ⟨fun a ha => Mem.get_puts_of_not_mem _ wf fun p hp e => ha (e ▸ (List.of_mem_zip hp).1), fun hn i a b v ha hv => ?_⟩
  have at_ : (as.zip (r.over as m))[i]? = some (a, (m.get 0 a &&& ~~~b) ||| (v &&& b)) := by
    simp [Run.over, List.getElem?_zip_eq_some, ha, hv]
  exact Mem.get_puts_of_mem _ wf (hn.sublist (map_fst_zip_sublist ..)) (List.mem_of_getElem? at_)

theorem Core.rowTaken_same (f : Flight) (j k : Nat) (c : Core) : c.SameButFlights ((c.moved f j).rowTaken (f.next j) k) := rfl

theorem Core.rowTaken_rank (f : Flight) (j k : Nat) (c : Core) :
    ((c.moved f j).rowTaken (f.next j) k).flights.map Flight.rank = (c.moved f j).flights.map Flight.rank :=
  Core.moved_setFlight_map Flight.rank (f := f) (j := j) (g := { f.next j with data := (f.next j).data.filter fun p => p.1 != k })
    ⟨rfl, rfl, rfl, rfl⟩ rfl c

/-- Settles O32: the row is taken out of the operation; then nothing is written, or its bytes are put and the last row completes
its slot. -/
theorem storeRowWriteFrame : Obligations.StoreRowWriteFrame := by
  intro s c u j k f h wf
  let c1 := (c.moved f j).rowTaken (f.next j) k
  refine ⟨_, coreEvent_at h _, ?_⟩
  generalize hc : (c.moved f j).rowWrite (s.ctx c) (f.next j) k = c'
  have same1 : c.SameButFlights c1 := Core.rowTaken_same ..
  have rank1 : c1.flights.map Flight.rank = (c.moved f j).flights.map Flight.rank := Core.rowTaken_rank ..
  by_cases hw : f.rowData k ≠ [] ∧ Writes s c (f.rowAddrs k)
  · obtain ⟨hr, hw⟩ := hw
    obtain ⟨r, rs, hr⟩ := List.exists_cons_of_ne_nil hr
    have e := Core.rowWrite_written (x := s.ctx c) (c := c.moved f j) (f := f.next j) hr (Core.mayWrite_of hw _ _)
    obtain ⟨mem, regs, same, rank, trap⟩ := Core.spWrite_spec s.now f.seqno f.swz (f.rowAddrs k) (r.over (f.rowAddrs k) c.sp.mem) c1
    obtain ⟨others, puts⟩ := Run.over_spec wf.1 mem
    let d := c1.spWrite s.now f.seqno f.swz (f.rowAddrs k) (r.over (f.rowAddrs k) c.sp.mem)
    have e : c' = if k + 1 = f.rows then d.complete (s.ctx c) (f.next j) k else d := hc.symm.trans e
    have ends : d.SameButScratch c' ∧ c'.sp = d.sp := by
      rw [e]
      split
      · exact Core.complete_same ..
      · exact ⟨(Core.SameButFlights.refl d).butScratch, rfl⟩
    have mem : c'.sp.mem = d.sp.mem := congrArg Scratch.mem ends.2
    refine ⟨fun a ha => by rw [mem, others a ha], fun r' rs' hr' _ hn i a m v ha hv => ?_, fun n => absurd n ?_,
      ((same1.butScratch.trans same).trans ends.1).besides,
      completes_of (d := d) regs (rank.trans rank1) ?_ (fun hn o ho => ?_) (fun hd => e.trans (if_pos hd.1)) fun hd => ?_⟩
    · obtain ⟨rfl, rfl⟩ := List.cons.inj (hr.symm.trans hr')
      rw [mem, puts hn i a m v ha hv]
    · rw [hr]; simp only [reduceCtorEq, false_or, not_not]; exact hw
    · exact (same1.butScratch.trans same).sysMode
    · cases (trap.trans hn).symm.trans ho
    · rw [e, if_neg fun y => hd ⟨y, by rw [hr]; simp, hw⟩]; exact regs
  · have kept : c1.SameButErrors c' := by
      cases hr : f.rowData k with
      | nil => rw [← hc, Core.rowWrite_unread (f := f.next j) hr]; exact .refl c1
      | cons r rs =>
        have no : ¬Writes s c (f.rowAddrs k) := fun y => hw ⟨by rw [hr]; simp, y⟩
        rw [← hc, Core.rowWrite_kept (f := f.next j) hr (Core.mayWrite_not no _ _)]
        exact Core.mayWrite_same ..
    have same := same1.trans kept.butFlights
    exact ⟨fun a _ => by rw [same.sp], fun r rs hr y => absurd ⟨by rw [hr]; simp, y⟩ hw, fun _ => same.sp, same.butScratch.besides,
      completes_of_not (fun y => hw y.2) same.registers.1⟩

end Sys2Proof.Machine
end

section
/-!
The events of loads and of a store's reads (R13, R26, R95, R96, R126, R190, R210 to R214).
-/

namespace Sys2Proof.Machine

/-! ## Reads of arrays and of scratchpad -/

/-- A read of units of several arrays changes what error detection changes (R304). -/
theorem Core.readArrays_same (x : Ctx) (t : TrapRec) (l : List (Nat × List Nat)) (c : Core) :
    c.SameButErrors (c.readArrays x t l).1 := by
  suffices ∀ (l : List (Nat × List Nat)) (b : Bool) (c : Core), c.SameButErrors
      (l.foldl (fun r p => let q := r.1.readUnits x t p.1 p.2; (q.1, q.2 && r.2)) (c, b)).1 from this l true c
  intro l; induction l with
  | nil => exact fun _ c => .refl c
  | cons p l ih => exact fun b c => (Core.readUnits_same x t p.1 p.2 c).trans (ih _ _)

/-- Where no unit is wrong, every array can be read. -/
theorem Core.readArrays_clean (x : Ctx) (t : TrapRec) (l : List (Nat × List Nat)) {c : Core} (h : c.phys.flips = []) :
    c.readArrays x t l = (c, true) := by
  rw [Core.readArrays]
  induction l with
  | nil => rfl
  | cons p l ih => rw [List.foldl_cons]; simpa [Core.readUnits, h] using ih

/-- A byte of scratchpad as an operation reads it: the old one where its own bundle has written (R26, R95). -/
theorem Core.spByte_eq (c : Core) (f : Flight) (a : Nat) :
    c.spByte f a = ((f.shadow.find? fun e => e.1 == a).map (·.2)).getD (c.sp.mem.get 0 a) := by
  unfold Core.spByte; split <;> simp [*]

/-! ## The bits that a row of a mask covers (R213) -/

/-- A number made of the powers of two that a predicate keeps has the bits that it keeps. -/
theorem sum_two_pow_bits (p : Nat → Bool) (n : Nat) :
    let x := ((List.range n).filter p).foldl (fun m i => m + 2 ^ i) 0
    x < 2 ^ n ∧ ∀ i, i < n → x.testBit i = p i := by
  induction n with
  | zero => simp
  | succ n ih =>
    obtain ⟨lt, bits⟩ := ih
    rw [List.range_succ, List.filter_append, List.foldl_append]
    generalize ((List.range n).filter p).foldl (fun m i => m + 2 ^ i) 0 = x at lt bits
    have top : x.testBit n = false := Nat.testBit_lt_two_pow lt
    have low (i : Nat) (h : i < n + 1) : i = n ∨ i < n := by omega
    cases hp : p n
    · refine ⟨by simp [hp]; omega, fun i hi => ?_⟩
      rcases low i hi with rfl | hi
      · simp [hp, top]
      · simp [hp, bits i hi]
    · refine ⟨by simp [hp]; omega, fun i hi => ?_⟩
      simp only [List.filter_cons, hp, if_true, List.filter_nil, List.foldl_cons, List.foldl_nil]
      rw [Nat.add_comm]
      rcases low i hi with rfl | hi
      · rw [Nat.testBit_two_pow_add_eq, top, hp]; rfl
      · rw [Nat.testBit_two_pow_add_gt hi, bits i hi]

theorem coverMask_bit (cols j k : Nat) {i : Nat} (h : i < 8) :
    (coverMask cols j k).getLsbD i = true ↔ j * cols ≤ 8 * k + i ∧ 8 * k + i < j * cols + cols := by
  obtain ⟨-, bits⟩ := sum_two_pow_bits (fun i => j * cols ≤ 8 * k + i && 8 * k + i < (j + 1) * cols) 8
  rw [coverMask, BitVec.getLsbD_ofNat, bits i h]
  simp [h, Nat.succ_mul]

/-- The masks of the bytes of mask that row `j` covers, `n` of them. -/
def rowMasks (cols j n : Nat) : List Byte := (List.range n).map fun q => coverMask cols j (j * cols / 8 + q)

theorem rowMasks_covers (cols j n : Nat) : ∀ q m, (rowMasks cols j n)[q]? = some m → ∀ i, i < 8 →
    (m.getLsbD i = true ↔ j * cols ≤ 8 * (j * cols / 8 + q) + i ∧ 8 * (j * cols / 8 + q) + i < j * cols + cols) := by
  intro q m h i hi
  rw [rowMasks, List.getElem?_map, Option.map_eq_some_iff] at h
  obtain ⟨p, hp, rfl⟩ := h
  obtain ⟨_, rfl⟩ := List.getElem?_eq_some_iff.1 hp
  rw [List.getElem_range]
  exact coverMask_bit cols j _ hi

/-! ## What a row's read makes of the core -/

section
variable {x : Ctx} {f : Flight} {j : Nat} {c : Core}

/-- A row's read changes the operations in flight, the pending changes, and what error detection changes. -/
theorem Core.rowRead_same (x : Ctx) (f : Flight) (j : Nat) (c : Core) : ∃ d ps, c.SameButFlights d ∧
    c.rowRead x f j = { d with pends := c.pends ++ ps } ∧
    ∀ p ∈ ps, ∃ d a m l v, f.instr = .lds d a m l ∧ p.due = f.issue + 4 ∧ p.what = .g d v := by
  have plain {d : Core} (h : c.SameButFlights d) : ∃ d' ps, c.SameButFlights d' ∧ d = { d' with pends := c.pends ++ ps } ∧
      ∀ p ∈ ps, ∃ d a m l v, f.instr = .lds d a m l ∧ p.due = f.issue + 4 ∧ p.what = .g d v :=
    ⟨d, [], h, by rw [List.append_nil, ← h.pends], by simp⟩
  unfold Core.rowRead
  split
  · have same := (Core.busy_same 4 c).trans (Core.readArrays_same x (f.trap 0 0 0 j 0) (storeUnits f j) (c.busy 4)).butFlights
    dsimp only
    split
    · exact plain (same.trans (Core.setFlight_same ..))
    · exact plain same
  · have same := (Core.busy_same 3 c).trans (Core.readOk_same x f j (f.rowAddrs j) (c.busy 3)).butFlights
    dsimp only
    split
    · exact plain same
    · split
      · next d a m l e => 
        exact ⟨_, _, same, by rw [same.pends], List.forall_mem_singleton.2 ⟨d, a, m, l, _, e, rfl, rfl⟩⟩
      · exact plain ((same.trans (Core.setFlight_same ..)).trans (Core.watchEng_same ..).butFlights)
      · exact plain (same.trans (Core.setFlight_same ..))

/-- The bytes of scratchpad that a load's row reads. -/
def Core.rowBytes (f : Flight) (j : Nat) (c : Core) : List Byte := (f.rowAddrs j).map fun a => c.spByte f a

section
variable (hc : f.cls ≠ 5) (hr : (c.busy 3).readOk x f j (f.rowAddrs j) = (c.busy 3, true))
include hc hr

theorem Core.rowRead_lds {d a : BitVec 6} {m : BitVec 10} {l : Option (BitVec 9)} (hi : f.instr = .lds d a m l) :
    c.rowRead x f j = { c.busy 3 with pends := c.pends ++
      [⟨f.issue + 4, f.seqno, 4, f.bundle, f.pos, .g d (BitVec.ofNat 64 (leNat (c.rowBytes f j)))⟩] } := by
  simp only [Core.rowRead, if_neg hc, hr, hi]; rfl

theorem Core.rowRead_sqld {a : BitVec 6} {m : BitVec 10} {l : Option (BitVec 9)} (hi : f.instr = .sqld a m l) :
    c.rowRead x f j = ((c.busy 3).setFlight { f with bytes := c.rowBytes f j }).watchEng x f false 0 (f.rowAddrs j) := by
  simp only [Core.rowRead, if_neg hc, hr, hi]; rfl

theorem Core.rowRead_row (hl : ∀ d a m l, f.instr ≠ .lds d a m l)
        (hs : ∀ a m l, f.instr ≠ .sqld a m l) :
    c.rowRead x f j = (c.busy 3).setFlight { f with data := f.data ++ [(j, [loadRun f j (c.rowBytes f j)])] } := by
  simp only [Core.rowRead, if_neg hc, hr]
  rfl
end

/-- A store's row holds its source, where no unit is wrong. -/
theorem Core.rowRead_store (hc : f.cls = 5) (h : c.phys.flips = []) : c.rowRead x f j =
    (c.busy 4).setFlight { f with data := f.data ++ [(j, [{ space := .v, addr := 0, bytes := c.storeSource f j }])] } := by
  simp only [Core.rowRead, if_pos hc, Core.readArrays_clean x (f.trap 0 0 0 j 0) (storeUnits f j) (c := c.busy 4) h]; rfl

end

/-! ## What a row holds -/

/-- A row of mask bytes as the run that writes it (R213). -/
theorem loadRun_mask {f : Flight} {d a : BitVec 6} {v : BitVec 1} (hi : f.instr = .ldm d a v) (j : Nat) (bs : List Byte) :
    loadRun f j bs = { space := .m, addr := f.d * 2048 + j * f.cols / 8, bytes := (rowMasks f.cols j bs.length).zip bs } := by
  simp only [loadRun, hi]
  exact congrArg (Run.mk .m _) (List.ext_getElem (by simp [rowMasks]) fun i _ _ => by simp [rowMasks])

theorem Core.storeSource_mask {f : Flight} {d a : BitVec 6} {v : BitVec 1} (hi : f.instr = .stm d a v) (j : Nat) (c : Core) :
    let n := (j * f.cols + f.cols - 1) / 8 - j * f.cols / 8 + 1
    c.storeSource f j = (rowMasks f.cols j n).zip ((List.range n).map fun q =>
      if f.d = 0 then 0xFF else c.vec.m.get 0 (f.d * 2048 + (j * f.cols / 8 + q))) := by
  simp only [Core.storeSource, hi, rowMasks, List.zip_map', VecFile.maskByte]

/-- A byte of a vector or bypass register, as an operation that keeps no old byte reads it (R28, R126). -/
theorem Core.vbyte_eq {f : Flight} (h : f.shadow = []) (r i : Nat) (c : Core) : c.vbyte f r i =
    if r < 40 then c.vec.v.get 0 (r * 16384 + i) else if r < 48 then c.vec.b.get 0 ((r - 40) * 16384 + i) else 0 := by
  unfold Core.vbyte
  rw [h]
  by_cases h40 : r < 40
  · simp [h40, show r < 48 by omega]
  · simp [h40]

theorem Core.storeSource_vector {f : Flight} (hi : (∃ d a b x w, f.instr = .st d a b x w) ∨ ∃ d h n w, f.instr = .sth d h n w)
    (hs : f.shadow = []) (j : Nat) (c : Core) : c.storeSource f j = ((List.range f.len).map fun i =>
      if f.d < 40 then c.vec.v.get 0 (f.d * 16384 + (j * f.len + i))
      else if f.d < 48 then c.vec.b.get 0 ((f.d - 40) * 16384 + (j * f.len + i)) else 0).map fun b => (0xFF#8, b) := by
  have e : c.storeSource f j = (List.range f.len).map fun i => (0xFF#8, c.vbyte f f.d (j * f.len + i)) := by
    rcases hi with ⟨d, a, b, x, w, hi⟩ | ⟨d, h, n, w, hi⟩ <;> simp only [Core.storeSource, hi]
  rw [e, List.map_map]
  exact List.map_congr_left fun i _ => congrArg (Prod.mk 0xFF#8) (Core.vbyte_eq hs ..)

theorem Core.storeSource_tile {f : Flight} (hi : (∃ d a b x, f.instr = .stt d a b x) ∨ ∃ d h n, f.instr = .stth d h n) (j : Nat)
    (c : Core) : c.storeSource f j = (c.vec.tile.bytes 0 (f.d * 32768 + j * f.len) f.len).map fun b => (0xFF#8, b) := by
  rw [Mem.bytes, List.map_map]
  rcases hi with ⟨d, a, b, x, hi⟩ | ⟨d, h, n, hi⟩ <;> simp only [Core.storeSource, hi] <;> rfl

theorem scratchpad_row_read : Claim.ScratchpadRowRead := by
  intro s c u j k f h
  obtain ⟨d, ps, same, e, hps⟩ := Core.rowRead_same (s.ctx c) (f.next j) k (c.moved f j)
  have same := (Core.moved_same f j c).trans same
  refine ⟨_, coreEvent_at h _, ?_, ?_, fun p hp => ?_, ?_⟩
  · rw [e]; exact same.memories
  · rw [e]; exact same.registers
  · rw [e] at hp
    rcases List.mem_append.1 hp with hp | hp
    · exact .inl hp
    · exact .inr (hps p hp)
  clear e same
  intro as bs bit covers holds
  have set {g : Flight} (b : Nat) (hg : f.Holds j g) (hs : g.stays = true) :
      (((c.moved f j).busy b).setFlight g).flight? u = some g := h.flight?_set hg hs
  refine ⟨fun hc hr => ?_, fun hc clean _ shadow live => ?_⟩
  · have hr : ((c.moved f j).busy 3).readOk (s.ctx c) (f.next j) k ((f.next j).rowAddrs k) = ((c.moved f j).busy 3, true) :=
      Core.readOk_of (f := f.next j) hr k rfl rfl
    have bytes : (c.moved f j).rowBytes (f.next j) k = bs := List.map_congr_left fun a _ => Core.spByte_eq (c.moved f j) f a
    have row (live : (f.next j).live = true) {r : Run} (hl : ∀ d a m l, f.instr ≠ .lds d a m l)
        (hs : ∀ a m l, f.instr ≠ .sqld a m l)
        (e : loadRun (f.next j) k bs = r) :
        ((c.moved f j).rowRead (s.ctx c) (f.next j) k).flight? u = some { f.next j with data := f.data ++ [(k, [r])] } := by
      rw [Core.rowRead_row (f := f.next j) hc hr hl hs, bytes, e]
      exact set 3 ⟨rfl, rfl, rfl, rfl⟩ (Flight.stays_of_live live)
    refine ⟨fun d a m l hi => ?_, fun a m l hi => ?_, fun live => ⟨fun hi => ?_, fun hi => ?_, fun d a v hi => ?_⟩⟩
    · rw [Core.rowRead_lds (f := f.next j) hc hr hi, bytes]; rfl
    · rw [Core.rowRead_sqld (f := f.next j) hc hr hi, bytes, Core.flight?, (Core.watchEng_same ..).flights]
      exact set 3 ⟨rfl, rfl, rfl, rfl⟩ (by simp [Flight.stays, lingers, Flight.next, hi])
    · rcases hi with ⟨d, a, b, x, w, hi⟩ | ⟨d, a, b, w, hi⟩
      · exact row live (by simp [hi]) (by simp [hi]) (by simp only [loadRun, Flight.next, hi])
      · exact row live (by simp [hi]) (by simp [hi]) (by simp only [loadRun, Flight.next, hi])
    · rcases hi with ⟨d, a, b, x, hi⟩ | ⟨d, a, b, hi⟩
      · exact row live (by simp [hi]) (by simp [hi]) (by simp only [loadRun, Flight.next, hi])
      · exact row live (by simp [hi]) (by simp [hi]) (by simp only [loadRun, Flight.next, hi])
    · exact ⟨rowMasks f.cols k bs.length, by simp [rowMasks], rowMasks_covers f.cols k _,
        row live (by simp [hi]) (by simp [hi]) (loadRun_mask (f := f.next j) hi k bs)⟩
  · have row {bytes : List (Byte × Byte)} (e : (c.moved f j).storeSource (f.next j) k = bytes) :
        ((c.moved f j).rowRead (s.ctx c) (f.next j) k).flight? u =
          some { f.next j with data := f.data ++ [(k, [{ space := .v, addr := 0, bytes := bytes }])] } := by
      rw [Core.rowRead_store (c := c.moved f j) (f := f.next j) hc clean, e]
      exact set 4 ⟨rfl, rfl, rfl, rfl⟩ (Flight.stays_of_live live)
    refine ⟨fun hi => ?_, fun hi => ?_, fun d a v hi => ?_⟩
    · exact row (Core.storeSource_vector (f := f.next j) hi shadow k (c.moved f j))
    · exact row (Core.storeSource_tile (f := f.next j) hi k (c.moved f j))
    · exact ⟨rowMasks f.cols k ((bit + f.cols - 1) / 8 - bit / 8 + 1), rowMasks_covers f.cols k _, by simp [rowMasks],
        row (by rw [rowMasks, List.length_map, List.length_range]; exact Core.storeSource_mask (f := f.next j) hi k (c.moved f j))⟩

/-! ## What runs write -/

/-- Bits put at other places leave a byte as it is. -/
theorem Mem.get_putsBits_of_ne (l : List ((Byte × Byte) × Nat)) {lo a : Nat} (ha : ∀ p ∈ l, lo + p.2 ≠ a) {m : Mem}
    (h : m.wf 0 = true) : Mem.get 0 (l.foldl (fun m p => m.putBits 0 (lo + p.2) p.1.1 p.1.2) m) a = m.get 0 a := by
  induction l generalizing m with
  | nil => rfl
  | cons p l ih =>
    obtain ⟨hp, hl⟩ := List.forall_mem_cons.1 ha
    rw [List.foldl_cons, ih hl (Mem.wf_putBits 0 _ _ _ h), Mem.get_putBits 0 _ _ _ h, if_neg (Ne.symm hp)]

/-- A run leaves every byte that it does not cover. -/
theorem VecFile.putRun_byte_of_not_covered {v : VecFile} (wf : v.canonical) {r : Run} {p : Space} {a : Nat}
    (h : ¬(r.space = p ∧ r.addr ≤ a ∧ a < r.addr + r.bytes.length)) : (v.putRun r).byte p a = v.byte p a := by
  unfold VecFile.putRun
  split
  · rfl
  · rw [VecFile.byte, VecFile.mem_setMem]
    split
    · next e =>
      subst e
      refine Mem.get_putsBits_of_ne _ (fun q hq e => h ⟨rfl, ?_⟩) (VecFile.mem_canonical wf _)
      have := (List.mem_zipIdx hq).2.1
      omega
    · rfl

/-- Runs leave every byte that none of them covers. -/
theorem VecFile.putRuns_byte_of_not_covered {rs : List Run} {p : Space} {a : Nat} (h : ¬Covered rs p a) {v : VecFile}
    (wf : v.canonical) : (rs.foldl (fun v r => v.putRun r) v).byte p a = v.byte p a := by
  induction rs generalizing v with
  | nil => rfl
  | cons r rs ih =>
    rw [List.foldl_cons, ih (fun ⟨q, hq, k⟩ => h ⟨q, List.mem_cons_of_mem _ hq, k⟩) (VecFile.putRun_canonical wf r)]
    exact VecFile.putRun_byte_of_not_covered wf fun k => h ⟨r, List.mem_cons_self, k⟩

/-- What the writes of runs leave: the registers, queues and every other memory. -/
theorem Core.putRuns_registers (u : Nat) (rs : List Run) (c : Core) :
    SameRegisters c (c.putRuns u rs) ∧ (c.putRuns u rs).vec = rs.foldl (fun v r => v.putRun r) c.vec := by
  obtain ⟨fs, same⟩ := Core.putRuns_same u rs c
  exact ⟨same.butFlights.registers, same.vec⟩

/-! ## The rows of loads -/

/-- The tile that a load's row reaches is busy (R190): the tile's own operations tell. -/
theorem tileDest_busy_iff (i : Instr) (t : Nat → Bool) : (tileDest i).elim false t = true ↔
    ∃ d : BitVec 6, ((∃ a b x, i = .ldt d a b x) ∨ ∃ h n, i = .ldth d h n) ∧ t d.toNat = true := by
  unfold tileDest
  split
  · simp
  · simp
  · next h k =>
    refine iff_of_false (by simp) ?_
    rintro ⟨d, ⟨a, b, x, e⟩ | ⟨n, m, e⟩, -⟩
    · exact h d a b x e
    · exact k d n m e

/-- An operation in flight that holds tile `t` against a write at `n` of the bundle issued at `q` (R190). -/
def Flight.holdsTile (t q n : Nat) (f : Flight) : Bool :=
  f.seqno ≤ q && match f.instr with
  | .mma .. | .mmaz .. => f.a == t && f.issue ≤ n && n ≤ f.issue + 2 + f.span - 1
  | .mmag .. => (f.a == t || f.b == t) && f.issue ≤ n && n ≤ f.issue + 2 + f.span - 1
  | .wld .. => f.a == t && f.issue ≤ n && n ≤ f.issue + 129
  | _ => false

theorem tileBusy_eq (c : Core) (t q n : Nat) : tileBusy c t q n = (c.flights.map (Flight.holdsTile t q n)).any id := by
  rw [List.any_map]; rfl

/-- What an operation holds tells nothing of the tiles that are busy. -/
theorem tileBusy_setData (f : Flight) (j : Nat) (ds : List (Nat × List Run)) (c : Core) (t q n : Nat) :
    tileBusy ((c.moved f j).setFlight { f.next j with data := ds }) t q n = tileBusy (c.moved f j) t q n := by
  rw [tileBusy_eq, tileBusy_eq, Core.moved_setFlight_map _ (f := f) (j := j) (g := { f.next j with data := ds })
    ⟨rfl, rfl, rfl, rfl⟩ rfl]

theorem register_row_write : Claim.RegisterRowWrite := by
  intro s c u j k f h wf busy
  refine ⟨_, coreEvent_at h _, ?_⟩
  let c1 := ((c.moved f j).setFlight { f.next j with data := f.data.filter fun p => p.1 != k }).busy 3
  have busy_iff : ((tileDest f.instr).elim false fun t => tileBusy c1 t f.seqno s.now) = true ↔ busy := by
    refine (tileDest_busy_iff f.instr _).trans ?_
    simp only [busy, ← tileBusy_setData f j (f.data.filter fun p => p.1 != k)]
    rfl
  have same1 : c.SameButFlights c1 := rfl
  generalize hc : (c.moved f j).regWrite (s.ctx c) (f.next j) k = c'
  by_cases hb : busy
  · have e : c' = c1.raise (s.ctx c) ((f.next j).trap 4 2 0 k 0) := hc.symm.trans (if_pos (busy_iff.2 hb))
    have same := same1.trans (e ▸ (Core.raise_same ..).butFlights)
    obtain ⟨-, vec, arr, hbm⟩ := same.memories
    refine ⟨fun p a _ => by rw [vec], fun n => absurd hb n, same.sp, arr, hbm, same.registers, fun _ => ⟨vec, fun hm hp hn => ?_⟩⟩
    obtain ⟨r, hr, cause, detail, -, -⟩ := Core.raise_recorded (c := c1) (x := s.ctx c) (t := (f.next j).trap 4 2 0 k 0) hm hp
      fun o ho => by cases (show c.trap = some o from ho).symm.trans hn
    exact ⟨r, by rw [e, hr], cause, detail⟩
  · have e : c' = c1.putRuns f.uid (f.rowData k) := hc.symm.trans (if_neg fun y => hb (busy_iff.1 y))
    obtain ⟨regs, vec⟩ := Core.putRuns_registers f.uid (f.rowData k) c1
    obtain ⟨-, sp, arr, -, -, -, hbm⟩ := Core.putRuns_regs f.uid (f.rowData k) c1
    rw [← e] at regs vec sp arr hbm
    exact ⟨fun p a n => by rw [vec]; exact VecFile.putRuns_byte_of_not_covered n wf.2.1, fun _ => vec, sp, arr, hbm, regs,
      fun y => absurd y hb⟩

/-- Settles O31: a row's read by the kind of operation that reads, and a register row's write by whether its tile is busy. -/
theorem loadEvents : Obligations.LoadEvents := ⟨scratchpad_row_read, register_row_write⟩

end Sys2Proof.Machine
end

section
/-!
The engines' events (R14, R96, R99 to R102, R108, R109, R208, R215, R216, R218, R219, R222, R228): reads, records put on the
mesh, and writes.
-/

namespace Sys2Proof.Machine

/-! ## Addresses -/

/-- The addresses of `n` bytes from `a`, as the engines take them (R92, R207). -/
def engineSpan (a n : Nat) : List Nat := (List.range n).map fun i => (a + i) % 4194304

theorem addrsOf_linear (a n : Nat) : addrsOf false a n = engineSpan a n :=
  List.map_congr_left fun i _ => Nat.mod_mod (a + i) 4194304

/-- The bytes at some of those addresses, read as the statements read them. -/
theorem engineSpan_bytes (m : Mem) (a n : Nat) :
    (engineSpan a n).map (fun b => m.get 0 (b % 4194304)) = (engineSpan a n).map fun b => m.get 0 b := by
  simp only [engineSpan, List.map_map, Function.comp_def, Nat.mod_mod]

/-- Two bytes of a list of indices. -/
theorem engineSpan_pair (a : Nat) {n k : Nat} (h : k + 2 ≤ n) :
    ((engineSpan a n).drop k).take 2 = [(a + k) % 4194304, (a + k + 1) % 4194304] := by
  refine List.ext_getElem (by simp [engineSpan]; omega) fun i hi _ => ?_
  have hi : i < 2 := by simp at hi; omega
  match i with
  | 0 => simp [engineSpan]
  | 1 => simp [engineSpan, Nat.add_assoc]

/-- No two of 64 bytes stand at one address. -/
theorem engineSpan_nodup (a : Nat) : (engineSpan a 64).Nodup := by
  refine List.Nodup.map_on (fun i hi k hk e => ?_) List.nodup_range
  rw [List.mem_range] at hi hk
  omega

/-! ## An engine's read -/

/-- The core once an engine has read bytes of scratchpad, and whether it may pass them on. -/
def Core.engRead (x : Ctx) (f : Flight) (j o : Nat) (as : List Nat) (c : Core) : Core × Bool :=
  let r := (c.busy 5).readOk x f j as
  (if r.2 then r.1.watchEng x f false o as else r.1, r.2)

section
variable {x : Ctx} {f : Flight} {j : Nat} {c : Core}

theorem Core.engRead_same (x : Ctx) (f : Flight) (j o : Nat) (as : List Nat) (c : Core) :
    c.SameButFlights (c.engRead x f j o as).1 ∧ (c.engRead x f j o as).1.flights = c.flights := by
  have same := Core.readOk_same x f j as (c.busy 5)
  have all : (c.busy 5).SameButErrors (c.engRead x f j o as).1 := by
    unfold Core.engRead
    dsimp only
    split
    · exact same.trans (Core.watchEng_same ..)
    · exact same
  exact ⟨(Core.busy_same 5 c).trans all.butFlights, all.flights⟩

/-- The index list's read: the indices that the operation keeps, where the list may be read (R218). -/
theorem Core.listRead_cases (x : Ctx) (f : Flight) (c : Core) :
    let as := engineSpan (f.x.toNat % 4194304) (2 * f.rows)
    let r := c.engRead x f 0 0 as
    let index (i : Nat) : Nat := leNat (((as.drop (2 * i)).take 2).map fun a => r.1.sp.mem.get 0 a)
    c.listRead x f = if r.2 then r.1.setFlight { f with counts := (List.range f.rows).map index } else r.1 := rfl

theorem Core.listRead_same (x : Ctx) (f : Flight) (c : Core) : c.SameButFlights (c.listRead x f) := by
  have same := (Core.engRead_same x f 0 0 (engineSpan (f.x.toNat % 4194304) (2 * f.rows)) c).1
  rw [Core.listRead_cases]
  split
  · exact same.trans (Core.setFlight_same ..)
  · exact same

theorem Core.listRead_ok (hr : (c.engRead x f 0 0 (engineSpan (f.x.toNat % 4194304) (2 * f.rows))).2 = true) :
    let byte (i : Nat) : Byte := c.sp.mem.get 0 ((f.x.toNat % 4194304 + i) % 4194304)
    c.listRead x f = (c.engRead x f 0 0 (engineSpan (f.x.toNat % 4194304) (2 * f.rows))).1.setFlight { f with
      counts := (List.range f.rows).map fun i => (byte (2 * i)).toNat + 256 * (byte (2 * i + 1)).toNat } := by
  intro byte
  rw [Core.listRead_cases, if_pos hr]
  refine congrArg (fun l => Core.setFlight { f with counts := l } _) (List.map_congr_left fun i hi => ?_)
  have := List.mem_range.1 hi
  rw [engineSpan_pair _ (by omega), (Core.engRead_same ..).1.sp]
  simp [leNat, byte, Nat.add_assoc]

/-- A source block's read: its bytes are held for the write, where they may be read (R215, R218). -/
theorem Core.blkRead_cases (x : Ctx) (f : Flight) (j : Nat) (c : Core) :
    let as := blockSource f j
    let r := c.engRead x f j (64 * j) as
    c.blkRead x f j = if r.2 && as != [] then
      r.1.setFlight { f with data := f.data ++ [(j, heldRun (as.map fun a => r.1.sp.mem.get 0 a))] } else r.1 := rfl

theorem Core.blkRead_same (x : Ctx) (f : Flight) (j : Nat) (c : Core) : c.SameButFlights (c.blkRead x f j) := by
  have same := (Core.engRead_same x f j (64 * j) (blockSource f j) c).1
  rw [Core.blkRead_cases]
  split
  · exact same.trans (Core.setFlight_same ..)
  · exact same

theorem Core.blkRead_ok {as : List Nat} (ha : blockSource f j = as) (hn : as ≠ [])
    (hr : (c.engRead x f j (64 * j) as).2 = true) : c.blkRead x f j = (c.engRead x f j (64 * j) as).1.setFlight { f with
      data := f.data ++ [(j, [Run.full .v 0 (as.map fun a => c.sp.mem.get 0 a)])] } := by
  subst ha
  rw [Core.blkRead_cases, if_pos (by simp [hr, hn]), (Core.engRead_same ..).1.sp]; rfl

/-- A send that takes its data from registers puts its record on the mesh. -/
theorem Core.sendRead_register (hr : isRegisterSend f.instr = true) (x : Ctx) (j : Nat) (last : Bool) (c : Core) :
    c.sendRead x f j last = c.emit x (recKind f) f (leBytes f.len f.x.toNat) := by
  rw [Core.sendRead, if_pos hr]

/-- A send's operation with the bytes of block `j` gathered. -/
def Flight.gathered (f : Flight) (j : Nat) (m : Mem) : Flight :=
  { f with bytes := f.bytes ++ (engineSpan (f.a + 64 * j) (min 64 (f.len - 64 * j))).map fun a => m.get 0 a }

/-- A send's block goes to what the operation has gathered; `last` completes the record (R216). -/
theorem Core.sendRead_cases (hr : isRegisterSend f.instr = false) (x : Ctx) (j : Nat) (last : Bool) (c : Core) :
    let r := c.engRead x f j (64 * j) (engineSpan (f.a + 64 * j) (min 64 (f.len - 64 * j)))
    let g := f.gathered j r.1.sp.mem
    c.sendRead x f j last = if !r.2 then r.1 else match f.instr with
      | .dhput .. => r.1.setFlight g
      | _ => if last && g.bytes.length == f.len then (r.1.setFlight g).emit x (recKind f) g g.bytes else r.1.setFlight g := by
  simp only [Core.sendRead, hr]
  rfl

/-- A send that may read its block: the operation holds it, and the last block completes the record. -/
theorem Core.sendRead_ok (hr : isRegisterSend f.instr = false) (hi : ∀ d a b n, f.instr ≠ .dhput d a b n) (last : Bool)
    (ok : (c.engRead x f j (64 * j) (engineSpan (f.a + 64 * j) (min 64 (f.len - 64 * j)))).2 = true) :
    let g := f.gathered j c.sp.mem
    let d := (c.engRead x f j (64 * j) (engineSpan (f.a + 64 * j) (min 64 (f.len - 64 * j)))).1.setFlight g
    c.sendRead x f j last = if last && g.bytes.length == f.len then d.emit x (recKind f) g g.bytes else d := by
  rw [Core.sendRead_cases hr, ok, (Core.engRead_same ..).1.sp, if_neg (by simp)]
  split
  · next e => exact absurd e (hi _ _ _ _)
  · rfl

theorem Core.sendRead_host {d a b : BitVec 6} {n : BitVec 4} (hi : f.instr = .dhput d a b n) (last : Bool)
    (ok : (c.engRead x f j (64 * j) (engineSpan (f.a + 64 * j) (min 64 (f.len - 64 * j)))).2 = true) :
    c.sendRead x f j last =
      (c.engRead x f j (64 * j) (engineSpan (f.a + 64 * j) (min 64 (f.len - 64 * j)))).1.setFlight (f.gathered j c.sp.mem) := by
  rw [Core.sendRead_cases (by simp only [hi, isRegisterSend]), ok, (Core.engRead_same ..).1.sp]
  simp only [hi]
  rfl

/-- What an engine's read leaves (R96). -/
def EngineSame (c c' : Core) : Prop := SameMemories c c' ∧ c'.regs = c.regs ∧ c'.q = c.q ∧ c'.chan = c.chan

theorem Core.SameButFlights.engine {c c' : Core} (h : c.SameButFlights c') : EngineSame c c' := by
  obtain ⟨regs, q, chan, -⟩ := h.registers
  exact ⟨h.memories, regs, q, chan⟩

/-- A record put on the mesh is all that changes of the traffic, and it arrives 1 to 72 cycles later (R102). -/
theorem Core.emit_spec (x : Ctx) (kind : RecKind) (f : Flight) (bs : List Byte) (c : Core) :
    (∃ t, x.now < t ∧ t ≤ x.now + 72 ∧ (c.emit x kind f bs).net =
      { c.net with out := c.net.out ++ [⟨kind, c.index, f.uid, f.d, f.addr, bs, t, false, []⟩] }) ∧
    (c.emit x kind f bs).flights = c.flights ∧ EngineSame c (c.emit x kind f bs) := by
  refine ⟨⟨_, ?_, ?_, rfl⟩, rfl, ⟨rfl, rfl, rfl, rfl⟩, rfl, rfl, rfl⟩
  · unfold Ctx.travel; omega
  · unfold Ctx.travel; split <;> omega

theorem EngineSame.trans {a b c : Core} (h : EngineSame a b) (k : EngineSame b c) : EngineSame a c := by
  obtain ⟨⟨sp, vec, arr, hbm⟩, regs, q, chan⟩ := h
  obtain ⟨⟨sp', vec', arr', hbm'⟩, regs', q', chan'⟩ := k
  exact ⟨⟨sp'.trans sp, vec'.trans vec, arr'.trans arr, hbm'.trans hbm⟩, regs'.trans regs, q'.trans q, chan'.trans chan⟩

theorem Core.sendRead_same (x : Ctx) (f : Flight) (j : Nat) (last : Bool) (c : Core) : EngineSame c (c.sendRead x f j last) := by
  cases hr : isRegisterSend f.instr with
  | true => rw [Core.sendRead_register hr]; exact (Core.emit_spec ..).2.2
  | false =>
    have same := (Core.engRead_same x f j (64 * j) (engineSpan (f.a + 64 * j) (min 64 (f.len - 64 * j))) c).1
    have set (g : Flight) := (same.trans (Core.setFlight_same g _)).engine
    rw [Core.sendRead_cases hr]
    split
    · exact same.engine
    · split
      · exact set _
      · split
        · exact (set _).trans (Core.emit_spec ..).2.2
        · exact set _

section
variable {s : State} {c d : Core} {u j k : Nat} {f g : Flight}

theorem Core.engRead_ok {as : List Nat} (h : Reads s c f as) (k o : Nat) (hf : d.phys.flips = c.phys.flips) (hs : d.sp = c.sp) :
    (d.engRead (s.ctx c) f k o as).2 = true :=
  congrArg Prod.snd (Core.readOk_of (d := d.busy 5) h k hf hs)

/-- What an event sets of its operation, after checks that leave the operations in flight as they are. -/
theorem EventAt.flight?_setOf (h : EventAt s c u j f k) (hd : d.flights = (c.moved f j).flights) (hg : f.Holds j g)
    (hs : g.stays = true) : (d.setFlight g).flight? u = some g := by
  have e := h.flight?_set hg hs
  rw [Core.flight?, Core.setFlight] at *
  rw [hd]; exact e

/-- Event `m` is the last of its stream. -/
theorem Flight.next_last_iff (f : Flight) (j m : Nat) :
    ((f.next j).streams[j]?).elim false (fun t => t.n == m) = true ↔ ∃ t, f.streams[j]? = some t ∧ t.n = m := by
  rw [Flight.next, List.getElem?_mapIdx]
  cases f.streams[j]? <;> simp
end

end

/-- What an event of an operation makes of the core. -/
theorem makes_event {s : State} {c : Core} {u j k : Nat} {f : Flight} {i : Instr} {g : Ctx → Flight → Nat → Core → Core}
    (h : EventAt s c u j f k) (he : exec i s = coreEvent u j g s) : Makes s i (g (s.ctx c) (f.next j) k (c.moved f j)) :=
  he.trans (coreEvent_at h g)

theorem engine_reads : Claim.EngineReads := by
  intro s c u j k f h span byte same block
  refine ⟨⟨_, makes_event h (rfl : execGleanerListRead u j s = _), ?_⟩,
    ⟨_, makes_event h (rfl : execDrillBlockRead u j s = _), ?_⟩, _, makes_event h (rfl : execSendBlockRead u j s = _), ?_⟩
  · refine ⟨((Core.moved_same f j c).trans (Core.listRead_same ..)).engine, ?_⟩
    intro A hr live
    have ok := Core.engRead_ok (f := f.next j) (d := c.moved f j) hr 0 0 rfl rfl
    have e := Core.listRead_ok (f := f.next j) (c := c.moved f j) ok
    dsimp only
    rw [e]
    exact h.flight?_setOf (Core.engRead_same ..).2 ⟨rfl, rfl, rfl, rfl⟩ (Flight.stays_of_live live)
  · refine ⟨((Core.moved_same f j c).trans (Core.blkRead_same ..)).engine, ?_⟩
    intro holds
    have held {a n : Nat} (ha : blockSource (f.next j) k = engineSpan a n) : holds (span a n) := by
      intro hn hr live
      have ok := Core.engRead_ok (f := f.next j) (d := c.moved f j) hr k (64 * k) rfl rfl
      have e := Core.blkRead_ok (f := f.next j) (c := c.moved f j) ha hn ok
      dsimp only
      rw [e, show (span a n).map byte = _ from engineSpan_bytes ..]
      exact h.flight?_setOf (Core.engRead_same ..).2 ⟨rfl, rfl, rfl, rfl⟩ (Flight.stays_of_live live)
    refine ⟨fun r h n e hi => held ?_, fun d a b m e hi he => held ?_⟩
    · simp only [blockSource, Flight.next, hi]; rfl
    · simp only [blockSource, Flight.next, hi, block] at he ⊢
      rw [he]; rfl
  · refine ⟨(Core.moved_same f j c).engine.trans (Core.sendRead_same ..), ?_⟩
    intro goes operand
    have register {kind : RecKind} (hr : isRegisterSend f.instr = true) (hk : recKind f = kind) : goes kind operand := by
      obtain ⟨⟨t, later, soon, net⟩, -⟩ := Core.emit_spec (s.ctx c) kind (f.next j) operand (c.moved f j)
      refine ⟨t, later, soon, ?_⟩
      dsimp only
      rw [Core.sendRead_register (f := f.next j) hr, ← h.uid]
      exact hk ▸ net
    refine ⟨fun d a p m hi => register ?_ ?_, fun d a b p m hi => register ?_ ?_, fun n a b hi => register ?_ ?_, ?_⟩
    iterate 3
      · simp only [hi, isRegisterSend]
      · simp only [hi, recKind]
    intro as bs last sends
    let g : Flight := { f.next j with bytes := bs }
    let d : Core := ((c.moved f j).engRead (s.ctx c) (f.next j) k (64 * k) as).1.setFlight g
    have gathered : (f.next j).gathered k (c.moved f j).sp.mem = g :=
      congrArg (fun l => ({ f.next j with bytes := f.bytes ++ l } : Flight)) (engineSpan_bytes ..).symm
    have set (live : (f.next j).live = true) : d.flight? u = some g :=
      h.flight?_setOf (Core.engRead_same ..).2 ⟨rfl, rfl, rfl, rfl⟩ (Flight.stays_of_live live)
    have same : c.SameButFlights d := ((Core.moved_same f j c).trans (Core.engRead_same ..).1).trans (Core.setFlight_same ..)
    have ok (hr : Reads s c f as) := Core.engRead_ok (f := f.next j) (d := c.moved f j) hr k (64 * k) rfl rfl
    have ends : (((f.next j).streams[j]?).elim false (fun t => t.n == k + 1) && bs.length == f.len) = true ↔ last := by
      rw [Bool.and_eq_true, Flight.next_last_iff, beq_iff_eq]
      exact ⟨fun ⟨⟨t, ht, hn⟩, hl⟩ => ⟨t, ht, hn, hl⟩, fun ⟨t, ht, hn, hl⟩ => ⟨⟨t, ht, hn⟩, hl⟩⟩
    have gathers {kind : RecKind} (hr : isRegisterSend f.instr = false) (hi : ∀ d a b n, f.instr ≠ .dhput d a b n)
        (hk : recKind f = kind) : sends kind := by
      intro hread
      have e := Core.sendRead_ok (f := f.next j) (c := c.moved f j) (x := s.ctx c) hr hi
        (((f.next j).streams[j]?).elim false fun t => t.n == k + 1) (ok hread)
      rw [gathered, show recKind (f.next j) = kind from hk] at e
      by_cases hl : last
      · have e := e.trans (if_pos (ends.2 hl))
        dsimp only
        rw [e]
        obtain ⟨⟨t, later, soon, net⟩, flights, -⟩ := Core.emit_spec (s.ctx c) kind g bs d
        refine ⟨fun live => ?_, fun _ => ⟨t, later, soon, ?_⟩, fun n => absurd hl n⟩
        · exact (congrArg (List.find? _) flights).trans (set live)
        · rw [same.net, same.index, show g.uid = u from h.uid] at net
          exact (congrArg Core.net e).trans net
      · have e := e.trans (if_neg fun y => hl (ends.1 y))
        dsimp only
        rw [e]
        exact ⟨set, fun y => absurd y hl, fun _ => same.net⟩
    refine ⟨fun d a b hi => gathers ?_ ?_ ?_, fun d a b p m l hi => gathers ?_ ?_ ?_, fun d a b n hi hr live => ?_⟩
    iterate 2
      · simp only [hi, isRegisterSend]
      · simp [hi]
      · simp only [hi, recKind]
    have e := Core.sendRead_host (f := f.next j) (c := c.moved f j) (x := s.ctx c) hi
      (((f.next j).streams[j]?).elim false fun t => t.n == k + 1) (ok hr)
    rw [gathered] at e
    dsimp only
    rw [e]
    exact ⟨same.net, set live⟩

/-! ## An engine's write -/

/-- The core once an engine has written bytes to scratchpad. -/
def Core.engWrite (x : Ctx) (f : Flight) (o : Nat) (as : List Nat) (bs : List Byte) (c : Core) : Core :=
  (c.spWrite x.now f.seqno false as bs).watchEng x f true o as

/-- An engine's write puts its bytes; where no record stood, the record after it is a watchpoint match's (R286). -/
theorem Core.engWrite_spec (x : Ctx) (f : Flight) (o : Nat) (as : List Nat) (bs : List Byte) (c : Core) :
    let c' := c.engWrite x f o as bs
    c'.sp.mem = (as.zip bs).foldl (fun m p => m.put 0 p.1 p.2) c.sp.mem ∧ c'.regs = c.regs ∧ c.SameButScratch c' ∧
    c'.flights.map Flight.rank = c.flights.map Flight.rank ∧ (c.trap = none → c'.MatchOnly x) := by
  have spec := Core.spWrite_spec x.now f.seqno false as bs c
  unfold Core.engWrite
  generalize c.spWrite x.now f.seqno false as bs = d at spec
  obtain ⟨mem, regs, same, rank, trap⟩ := spec
  have watched := Core.watchEng_same x f true o as d
  have matched (hn : c.trap = none) : (d.watchEng x f true o as).MatchOnly x :=
    Core.watch_matchOnly fun o ho => by cases (trap.trans hn).symm.trans ho
  generalize d.watchEng x f true o as = w at watched matched
  exact ⟨(congrArg Scratch.mem watched.sp).trans mem, watched.regs.trans regs, same.trans watched.butFlights.butScratch,
    (congrArg _ watched.flights).trans rank, matched⟩

/-- What an engine's write of `bs` from `a` leaves of scratchpad (R100, R215). -/
def TakesBytes (s : State) (c c' : Core) (a : Nat) (bs : List Byte) : Prop :=
  (∀ b, b ∉ engineSpan a 64 → c'.sp.mem.get 0 b = c.sp.mem.get 0 b) ∧
  (bs = [] ∨ ¬Writes s c (engineSpan a 64) → c'.sp = c.sp) ∧
  (Writes s c (engineSpan a 64) → ∀ i b, i < 64 → bs[i]? = some b → c'.sp.mem.get 0 ((a + i) % 4194304) = b)

section
variable {s : State} {c c1 c' : Core} {j k o a : Nat} {f : Flight} {bs : List Byte} {last : Prop}

/-- A write that does not happen. -/
theorem engine_writes_nothing (same1 : c.SameButFlights c1) (hn : ¬(bs ≠ [] ∧ Writes s c (engineSpan a 64)))
    (e : c1.SameButErrors c') : TakesBytes s c c' a bs ∧ SameBesides c c' ∧
      Completes s c f j (last ∧ bs ≠ [] ∧ Writes s c (engineSpan a 64)) c' := by
  have same := same1.trans e.butFlights
  refine ⟨⟨fun b _ => by rw [same.sp], fun _ => same.sp, fun hw i b _ hb => ?_⟩, same.butScratch.besides,
    completes_of_not (fun y => hn y.2) same.registers.1⟩
  exact absurd ⟨fun e => by simp [e] at hb, hw⟩ hn

/-- A write that happens, and where it is the operation's `last` completes the slot of a producer. -/
theorem engine_writes_bytes [Decidable last] (wf : c.canonical) (same1 : c.SameButFlights c1)
    (rank1 : c1.flights.map Flight.rank = (c.moved f j).flights.map Flight.rank) (trap1 : c1.trap = c.trap)
    (hb : bs ≠ []) (hw : Writes s c (engineSpan a 64))
    (e : c' = let d := c1.engWrite (s.ctx c) (f.next j) o (engineSpan a 64) bs
      if last then d.complete (s.ctx c) (f.next j) k else d) :
    TakesBytes s c c' a bs ∧ SameBesides c c' ∧ Completes s c f j (last ∧ bs ≠ [] ∧ Writes s c (engineSpan a 64)) c' := by
  obtain ⟨mem, regs, same, rank, trap⟩ := Core.engWrite_spec (s.ctx c) (f.next j) o (engineSpan a 64) bs c1
  dsimp only at e
  generalize c1.engWrite (s.ctx c) (f.next j) o (engineSpan a 64) bs = d at e mem regs same rank trap
  have ends : d.SameButScratch c' ∧ c'.sp = d.sp := by
    rw [e]
    split
    · exact Core.complete_same ..
    · exact ⟨(Core.SameButFlights.refl d).butScratch, rfl⟩
  have mem := (congrArg Scratch.mem ends.2).trans mem
  rw [same1.sp] at mem
  have all := same1.butScratch.trans same
  refine ⟨⟨fun b n => ?_, fun n => absurd n ?_, fun _ i b hi hb => ?_⟩, (all.trans ends.1).besides,
    completes_of (d := d) (k := k) (regs.trans same1.registers.1) (rank.trans rank1) all.sysMode (fun hn => trap (trap1.trans hn))
      (fun hd => e.trans (if_pos hd.1)) fun hd => ?_⟩
  · rw [mem]; exact Mem.get_puts_of_not_mem _ wf.1 fun p hp q => n (q ▸ (List.of_mem_zip hp).1)
  · rintro (y | y)
    · exact hb y
    · exact y hw
  · have at_ : ((engineSpan a 64).zip bs)[i]? = some ((a + i) % 4194304, b) := by
      simp [engineSpan, List.getElem?_zip_eq_some, hi, hb]
    rw [mem]
    exact Mem.get_puts_of_mem _ wf.1 ((engineSpan_nodup a).sublist (map_fst_zip_sublist ..)) (List.mem_of_getElem? at_)
  · rw [e, if_neg fun y => hd ⟨y, hb, hw⟩]; exact regs.trans same1.registers.1
end

/-! ## Blocks, channel data and channel sources written -/

/-- The core of a block's write, the block taken out of what the operation holds. -/
def Core.blockTaken (f : Flight) (j : Nat) (c : Core) : Core :=
  (c.setFlight { f with data := f.data.filter fun p => p.1 != j }).busy 5

theorem Core.blkWrite_cases (x : Ctx) (f : Flight) (j : Nat) (last : Bool) (c : Core) :
    let c1 := c.blockTaken f j
    let as := engineSpan (f.addr + 64 * j) 64
    let w := c1.writeOk x f j as
    let d := w.1.engWrite x f (64 * j) as (f.heldBytes j)
    c.blkWrite x f j last =
      if f.heldBytes j == [] || !w.2 then w.1 else if last then d.complete x f j else d := rfl

section
variable {x : Ctx} {f : Flight} {j : Nat} {c : Core}

theorem Core.blkWrite_kept (last : Bool)
    (h : f.heldBytes j = [] ∨ ((c.blockTaken f j).writeOk x f j (engineSpan (f.addr + 64 * j) 64)).2 = false) :
    c.blkWrite x f j last = ((c.blockTaken f j).writeOk x f j (engineSpan (f.addr + 64 * j) 64)).1 := by
  rw [Core.blkWrite_cases, if_pos (by rcases h with h | h <;> simp [h])]

theorem Core.blkWrite_written (last : Bool) (hb : f.heldBytes j ≠ [])
    (hw : (c.blockTaken f j).writeOk x f j (engineSpan (f.addr + 64 * j) 64) = (c.blockTaken f j, true)) :
    c.blkWrite x f j last =
      let d := (c.blockTaken f j).engWrite x f (64 * j) (engineSpan (f.addr + 64 * j) 64) (f.heldBytes j)
      if last = true then d.complete x f j else d := by
  rw [Core.blkWrite_cases, if_neg (by simp [hb, hw]), hw]
end

section
variable {x : Ctx} {f : Flight} {c : Core}

theorem Core.chData_suppressed (h : f.cancelled = true ∨ f.bytes = []) : c.chData x f = c := by
  rw [Core.chData, if_pos (by rcases h with h | h <;> simp [h])]

theorem Core.chData_kept (hs : ¬(f.cancelled = true ∨ f.bytes = []))
    (hw : (c.writeOk x f 0 (engineSpan f.addr 64)).2 = false) : c.chData x f = (c.writeOk x f 0 (engineSpan f.addr 64)).1 := by
  rw [Core.chData, if_neg (by simpa using hs), addrsOf_linear]
  exact if_pos (by simp [hw])

theorem Core.chData_written (hs : ¬(f.cancelled = true ∨ f.bytes = []))
    (hw : c.writeOk x f 0 (engineSpan f.addr 64) = (c, true)) :
    c.chData x f = (c.engWrite x f 0 (engineSpan f.addr 64) f.bytes).complete x f 0 := by
  rw [Core.chData, if_neg (by simpa using hs), addrsOf_linear, hw]; rfl
end

/-- A block's write, of which each part stands by whether it happens. -/
theorem block_write {s : State} {c : Core} {j k : Nat} {f : Flight} (wf : c.canonical) :
    let c' := (c.moved f j).blkWrite (s.ctx c) (f.next j) k (((f.next j).streams[j]?).elim false fun t => t.n == k + 1)
    let a := f.addr + 64 * k
    TakesBytes s c c' a (f.heldBytes k) ∧ SameBesides c c' ∧ Completes s c f j
      ((∃ t, f.streams[j]? = some t ∧ t.n = k + 1) ∧ f.heldBytes k ≠ [] ∧ Writes s c (engineSpan a 64)) c' := by
  intro c' a
  let c1 := (c.moved f j).blockTaken (f.next j) k
  have same1 : c.SameButFlights c1 := rfl
  have rank1 : c1.flights.map Flight.rank = (c.moved f j).flights.map Flight.rank :=
    Core.moved_setFlight_map Flight.rank (f := f) (j := j) (g := { f.next j with data := (f.next j).data.filter fun p => p.1 != k })
      ⟨rfl, rfl, rfl, rfl⟩ rfl c
  rw [← propext (Flight.next_last_iff f j (k + 1))]
  by_cases hw : f.heldBytes k ≠ [] ∧ Writes s c (engineSpan a 64)
  · exact engine_writes_bytes (k := k) wf same1 rank1 rfl hw.1 hw.2
      (Core.blkWrite_written (f := f.next j) (c := c.moved f j) _ hw.1 (Core.mayWrite_of hw.2 _ _))
  · refine engine_writes_nothing same1 hw ?_
    have kept : f.heldBytes k = [] ∨ ¬Writes s c (engineSpan a 64) :=
      or_iff_not_imp_left.2 fun y z => hw ⟨y, z⟩
    have e := Core.blkWrite_kept (x := s.ctx c) (f := f.next j) (c := c.moved f j)
      (((f.next j).streams[j]?).elim false fun t => t.n == k + 1) (kept.imp_right fun y => Core.mayWrite_not y _ _)
    exact (congrArg c1.SameButErrors e).mpr (Core.mayWrite_same ..)

/-- A chrd's data, written where it was not suppressed (R109, R222, R228). -/
theorem channel_data {s : State} {c : Core} {j : Nat} {f : Flight} (wf : c.canonical) :
    let c' := (c.moved f j).chData (s.ctx c) (f.next j)
    let bs := if f.cancelled then [] else f.bytes
    TakesBytes s c c' f.addr bs ∧ SameBesides c c' ∧ Completes s c f j (bs ≠ [] ∧ Writes s c (engineSpan f.addr 64)) c' := by
  intro c' bs
  have same1 : c.SameButFlights (c.moved f j) := rfl
  rw [← true_and (bs ≠ [] ∧ Writes s c (engineSpan f.addr 64))]
  by_cases hs : f.cancelled = true ∨ f.bytes = []
  · have none : bs = [] := by rcases hs with hs | hs <;> simp [bs, hs]
    refine engine_writes_nothing same1 (fun y => y.1 none) ?_
    exact (congrArg (c.moved f j).SameButErrors (Core.chData_suppressed (f := f.next j) hs)).mpr (.refl _)
  · have all : bs = f.bytes := if_neg fun y => hs (.inl y)
    rw [all]
    have some : f.bytes ≠ [] := fun y => hs (.inr y)
    by_cases hw : Writes s c (engineSpan f.addr 64)
    · exact engine_writes_bytes (k := 0) wf same1 rfl rfl some hw
        (Core.chData_written (f := f.next j) hs (Core.mayWrite_of hw _ _))
    · refine engine_writes_nothing same1 (fun y => hw y.2) ?_
      have e := Core.chData_kept (x := s.ctx c) (f := f.next j) (c := c.moved f j) hs (Core.mayWrite_not hw _ _)
      exact (congrArg (c.moved f j).SameButErrors e).mpr (Core.mayWrite_same ..)

/-- The channel takes the 64 bytes of a chwr's source for the operation's column (R108). -/
def Core.columnTaken (f : Flight) (c : Core) : Core :=
  let bs := (engineSpan f.addr 64).map fun a => c.sp.mem.get 0 a
  ({ c with phys := { c.phys with hbm := Mem.putAll 0 c.phys.hbm f.base bs } }).writeUnits 7 f.base 64

theorem Core.chSource_cases (x : Ctx) (f : Flight) (c : Core) :
    let r := c.readOk x f 0 (engineSpan f.addr 64)
    c.chSource x f = if !r.2 then r.1 else (r.1.watchEng x f false 0 (engineSpan f.addr 64)).columnTaken f := by
  rw [Core.chSource, addrsOf_linear]; rfl

theorem Core.columnTaken_spec (f : Flight) {c : Core} (wf : c.phys.hbm.wf 0 = true) :
    let c' := c.columnTaken f
    (∀ a, a < f.base ∨ f.base + 64 ≤ a → c'.phys.hbm.get 0 a = c.phys.hbm.get 0 a) ∧
    (∀ i, i < 64 → c'.phys.hbm.get 0 (f.base + i) = c.sp.mem.get 0 ((f.addr + i) % 4194304)) ∧
    c'.sp = c.sp ∧ c'.vec = c.vec ∧ c'.arr = c.arr ∧ c'.regs = c.regs := by
  have same := Core.writeUnits_same 7 f.base 64 { c with phys := { c.phys with
    hbm := Mem.putAll 0 c.phys.hbm f.base ((engineSpan f.addr 64).map fun a => c.sp.mem.get 0 a) } }
  refine ⟨fun a ha => ?_, fun i hi => ?_, same.sp, same.vec, same.arr, same.regs⟩
  · rw [Core.columnTaken, same.hbm, Mem.get_putAll 0 _ _ _ wf]
    split
    · rw [List.getElem?_eq_none (by simp [engineSpan]; omega)]; rfl
    · rfl
  · rw [Core.columnTaken, same.hbm, Mem.get_putAll 0 _ _ _ wf, if_pos (by omega)]
    simp [engineSpan, hi]

/-- A chwr's source read, which gives its column 64 bytes (R108, R228). -/
theorem channel_source {s : State} {c : Core} {j : Nat} {f : Flight} (wf : c.phys.hbm.wf 0 = true) :
    let c' := (c.moved f j).chSource (s.ctx c) (f.next j)
    (∀ a, a < f.base ∨ f.base + 64 ≤ a → c'.phys.hbm.get 0 a = c.phys.hbm.get 0 a) ∧
    (Reads s c f (engineSpan f.addr 64) → ∀ i, i < 64 →
      c'.phys.hbm.get 0 (f.base + i) = c.sp.mem.get 0 ((f.addr + i) % 4194304)) ∧
    c'.sp = c.sp ∧ c'.vec = c.vec ∧ c'.arr = c.arr ∧ c'.regs = c.regs := by
  intro c'
  have e : c' = _ := Core.chSource_cases ..
  have same1 := (Core.moved_same f j c).trans
    (Core.readOk_same (s.ctx c) (f.next j) 0 (engineSpan f.addr 64) (c.moved f j)).butFlights
  cases hr : ((c.moved f j).readOk (s.ctx c) (f.next j) 0 (engineSpan f.addr 64)).2 with
  | false =>
    have e := e.trans (if_pos (by rw [Bool.not_eq_true']; exact hr))
    rw [e]
    obtain ⟨-, vec, arr, hbm⟩ := same1.memories
    refine ⟨fun a _ => congrArg (Mem.get 0 · a) hbm, fun y => ?_, same1.sp, vec, arr, same1.registers.1⟩
    exact absurd (congrArg Prod.snd (Core.readOk_of (f := f.next j) (d := c.moved f j) y 0 rfl rfl))
      (by rw [hr]; exact Bool.false_ne_true)
  | true =>
    have e := e.trans (if_neg (by rw [Bool.not_eq_true']; exact fun y => by cases hr.symm.trans y))
    have same := same1.trans (Core.watchEng_same (s.ctx c) (f.next j) false 0 (engineSpan f.addr 64) _).butFlights
    obtain ⟨-, vec, arr, hbm⟩ := same.memories
    obtain ⟨others, puts, sp', vec', arr', regs'⟩ :=
      Core.columnTaken_spec (f.next j) (c := Core.watchEng (s.ctx c) (f.next j) false 0
      (engineSpan f.addr 64) ((c.moved f j).readOk (s.ctx c) (f.next j) 0 (engineSpan f.addr 64)).1) (hbm ▸ wf)
    rw [e]
    exact ⟨fun a ha => (others a ha).trans (congrArg (Mem.get 0 · a) hbm), fun _ i hi => (puts i hi).trans (by rw [same.sp]; rfl),
      sp'.trans same.sp, vec'.trans vec, arr'.trans arr, regs'.trans same.registers.1⟩

theorem engine_writes : Claim.EngineWrites := by
  intro s c u j k f h wf span takes held column
  refine ⟨⟨_, makes_event h (rfl : execDrillBlockWrite u j s = _), ?_⟩,
    ⟨_, makes_event h (rfl : execChannelReadData u j s = _), ?_⟩, _, makes_event h (rfl : execChannelWriteSourceRead u j s = _), ?_⟩
  · exact block_write wf
  · exact channel_data wf
  · exact channel_source wf.2.2.2

/-- Settles O40: the engines' reads hold or send what they may read, and their writes put what they hold, or happen not at all. -/
theorem engineEventsFrame : Obligations.EngineEventsFrame := ⟨engine_reads, engine_writes⟩

end Sys2Proof.Machine
end

section
/-!
A vector row's read and its write (R13, R28, R120, R161 to R163, R166, R181 to R183, R186).
-/

namespace Sys2Proof.Machine

/-! ## Sources and masks -/

/-- A mask bit as the statements read it: m0 is all ones (R28). -/
theorem VecFile.maskBit_eq_bit (v : VecFile) (n q : Nat) : v.maskBit n q = v.bit n q := by
  have ones : (0xFF#8).getLsbD (q % 8) = true := by
    have : ∀ i, i < 8 → (0xFF#8).getLsbD i = true := by decide
    exact this _ (Nat.mod_lt _ (by decide))
  unfold VecFile.maskBit VecFile.maskByte VecFile.bit
  by_cases h : n = 0
  · simp [h, ones]
  · rw [if_neg h, show (n == 0) = false by simpa using h]; rfl

theorem leNat_zeros (l : List Nat) : leNat (l.map fun _ => (0 : Byte)) = 0 := by
  induction l with
  | nil => rfl
  | cons a l ih => rw [List.map_cons, leNat, ih]; rfl

theorem vector_sources : Claim.VectorSources := by
  intro c f r e p hs
  have bytes : (List.range e).map (fun k => c.vbyte f r (p * e + k)) = (List.range e).map fun k =>
      if r < 40 then c.vec.v.get 0 (r * 16384 + (p * e + k))
      else if r < 48 then c.vec.b.get 0 ((r - 40) * 16384 + (p * e + k)) else 0 :=
    List.map_congr_left fun k _ => Core.vbyte_eq hs ..
  unfold Core.vpacked
  rw [bytes]
  by_cases h40 : r < 40
  · simp only [h40, if_true, if_neg (show r ≠ 49 by omega), VecFile.packed, Nat.add_assoc]; rfl
  · by_cases h48 : r < 48
    · simp only [h40, h48, if_true, if_false, if_neg (show r ≠ 49 by omega), VecFile.packed, Nat.add_assoc]; rfl
    · simp only [h40, h48, if_false, leNat_zeros]

/-! ## A row's write -/

/-- A row's write puts the runs `rs`, and leaves the registers, the queues and every other memory (R162). -/
theorem Core.vwrite_spec {f : Flight} {j k : Nat} {c : Core} {rs : List Run} (wf : c.vec.canonical)
    (h : ∀ c : Core, c.vwrite (f.next j) k =
      ((c.setFlight { f.next j with data := f.data.filter fun p => p.1 != k }).putRuns f.uid rs).busy 1) :
    let c' := (c.moved f j).vwrite (f.next j) k
    c'.vec = rs.foldl (fun v r => v.putRun r) c.vec ∧ (∀ p a, ¬Covered rs p a → c'.vec.byte p a = c.vec.byte p a) ∧
    c'.sp = c.sp ∧ c'.arr = c.arr ∧ c'.phys.hbm = c.phys.hbm ∧ SameRegisters c c' := by
  let c1 := (c.moved f j).setFlight { f.next j with data := f.data.filter fun p => p.1 != k }
  obtain ⟨regs, vec⟩ := Core.putRuns_registers f.uid rs c1
  obtain ⟨-, sp, arr, -, -, -, hbm⟩ := Core.putRuns_regs f.uid rs c1
  have vec : (c1.putRuns f.uid rs).vec = rs.foldl (fun v r => v.putRun r) c.vec := vec
  rw [h]
  exact ⟨vec, fun p a n => (congrArg (VecFile.byte p a) vec).trans (VecFile.putRuns_byte_of_not_covered n wf), sp, arr, hbm, regs⟩

theorem vector_row_write : Claim.VectorRowWriteFrame := by
  intro s c u j k f h wf hi
  refine ⟨_, makes_event h (rfl : execVectorRowWrite u j s = _), Core.vwrite_spec wf.2.1 fun c => ?_⟩
  unfold Core.vwrite
  split
  · next d a m l e => exact absurd e (hi d a m l)
  · rfl

theorem transpose_write : Claim.TransposeWrite := by
  intro s c u j k f h wf hi
  obtain ⟨d, a, m, l, hi⟩ := hi
  refine ⟨_, makes_event h (rfl : execVectorRowWrite u j s = _), Core.vwrite_spec wf.2.1 fun c => ?_⟩
  simp only [Core.vwrite, Flight.next, hi]

/-! ## A row's read -/

/-- A row's read changes no memory and no register (R161). -/
theorem Core.vread_same (x : Ctx) (f : Flight) (j : Nat) (c : Core) :
    SameMemories c (c.vread x f j) ∧ SameRegisters c (c.vread x f j) := by
  have plain {d : Core} (h : c.SameButFlights d) : SameMemories c d ∧ SameRegisters c d := ⟨h.memories, h.registers⟩
  have checked := (Core.seenBy_same (fun d => Core.readArrays_same x (f.trap 0 0 0 j 0) (vunits f j) d) f (c.busy 1)).1
  have same := (Core.busy_same 1 c).trans checked.butFlights
  unfold Core.vread
  dsimp only
  split
  · exact plain same
  · split
    · split
      · exact ⟨same.memories, same.registers⟩
      · exact plain (same.trans (Core.setFlight_same ..))
    all_goals exact plain (same.trans (Core.setFlight_same ..))

/-- The operation as vhist counts row `j`: with the first row its counts begin at 0 (R181). -/
def Flight.countsFrom (f : Flight) (b : BitVec 6) (j : Nat) : Flight :=
  { f with counts := if j = 0 then List.replicate (b.toNat + 1) 0 else f.counts }

section
variable {x : Ctx} {f : Flight} {j : Nat} {c : Core}

/-- Where no unit is wrong, a row's sources can be read. -/
theorem Core.vread_checks (hf : c.phys.flips = []) (hc : f.codes = []) :
    ((c.busy 1).seenBy f fun c => c.readArrays x (f.trap 0 0 0 j 0) (vunits f j)) = (c.busy 1, true) := by
  have clean := Core.readArrays_clean x (f.trap 0 0 0 j 0) (vunits f j) (c := c.busy 1) hf
  rw [Core.seenBy_clean hc (by rw [clean]), clean]

variable (hf : c.phys.flips = []) (hc : f.codes = [])
include hf hc

theorem Core.vread_mpop {d a : BitVec 6} {l : Option (BitVec 9)} (hi : f.instr = .mpop d a l) :
    let n := f.len + ((List.range f.cols).filter fun i => c.vec.maskBit f.a (j * f.cols + i)).length
    c.vread x f j = if j + 1 = f.rows then { c.busy 1 with pends := c.pends ++
      [⟨f.issue + f.rows + 3, f.seqno, 2, f.bundle, f.pos, .g d (BitVec.ofNat 64 n)⟩] }
      else (c.busy 1).setFlight { f with len := n } := by
  simp only [Core.vread, Core.vread_checks hf hc, hi]; rfl

theorem Core.vread_vhist {b a : BitVec 6} {m : BitVec 4} {l : Option (BitVec 9)} (hi : f.instr = .vhist b a m l) :
    c.vread x f j = (c.busy 1).setFlight
      { f.countsFrom b j with counts := c.histRow (f.countsFrom b j) m.toNat (lendMask l) j } := by
  obtain ⟨⟩ := f
  subst hi
  simp only [Core.vread, Core.vread_checks hf hc, Flight.countsFrom, Bool.not_true, Bool.false_eq_true, if_false]
  by_cases hj : j = 0
  · simp only [if_pos hj]; rfl
  · simp only [if_neg hj]; rfl

theorem Core.vread_vrenorm {d a : BitVec 6} {m : BitVec 4} {l : Option (BitVec 9)} (hi : f.instr = .vrenorm d a m l) :
    let row := c.rowOf f m.toNat (lendMask l) j
    let bad := row.any Option.isSome && degenerate m.toNat (rowSum m.toNat f.ovtab row)
    c.vread x f j = (c.busy 1).setFlight
      { f with data := f.data ++ [(j, (c.busy 1).vrow x f j)], degen := f.degen + (if bad then 1 else 0) } := by
  simp only [Core.vread, Core.vread_checks hf hc, hi]; rfl

theorem Core.vread_row (hm : ∀ d a l, f.instr ≠ .mpop d a l) (hh : ∀ b a m l, f.instr ≠ .vhist b a m l)
    (hr : ∀ d a m l, f.instr ≠ .vrenorm d a m l) :
    c.vread x f j = (c.busy 1).setFlight { f with data := f.data ++ [(j, (c.busy 1).vrow x f j)] } := by
  simp only [Core.vread, Core.vread_checks hf hc]; rfl
end

/-- The operation that an event has set is among those in flight. -/
theorem Core.mem_flights_of_flight? {c : Core} {u : Nat} {g : Flight} (h : c.flight? u = some g) : g ∈ c.flights ∧ g.uid = u :=
  ⟨List.mem_of_find?_eq_some h, Core.flight?_uid h⟩

/-- The row that vrenorm sums, as the statements say it (R182). -/
theorem Core.rowOf_eq (c : Core) (f : Flight) (m : Nat) (l : Option (BitVec 9)) (k : Nat) :
    c.rowOf f m (lendMask l) k = (List.range f.cols).map fun i =>
      if c.vec.bit ((l.getD 0).toNat / 64) (k * f.cols + i)
        then some (c.vpacked f f.a (elemSize m) (k * f.cols + i)) else none := by
  simp only [Core.rowOf, Core.sel, VecFile.maskBit_eq_bit]; rfl

theorem degenerate_iff (m : BitVec 4) (s : Nat) : degenerate m.toNat s = true ↔
    s / (if m = 0 then 2 ^ 23 else 2 ^ 7) % 2 ^ 8 = 0 ∨ s / (if m = 0 then 2 ^ 23 else 2 ^ 7) % 2 ^ 8 = 255 := by
  have zero : m.toNat = 0 ↔ m = 0 := by rw [← BitVec.toNat_inj]; rfl
  simp only [degenerate, zero, Bool.or_eq_true, beq_iff_eq]
  split <;> rfl

/-- A row counts as degenerate (R182). -/
theorem degenerateRow_iff (n : Nat) (on : Nat → Bool) (v : Nat → Nat) (m : BitVec 4) (s : Nat) :
    (((List.range n).map fun i => if on i then some (v i) else none).any Option.isSome && degenerate m.toNat s) = true ↔
    (∃ i, i < n ∧ on i = true) ∧ (s / (if m = 0 then 2 ^ 23 else 2 ^ 7) % 2 ^ 8 = 0 ∨
      s / (if m = 0 then 2 ^ 23 else 2 ^ 7) % 2 ^ 8 = 255) := by
  rw [Bool.and_eq_true, degenerate_iff]
  refine and_congr_left fun _ => ?_
  simp only [List.any_map, List.any_eq_true, List.mem_range, Function.comp_apply]
  refine exists_congr fun i => and_congr_right fun _ => ?_
  cases on i <;> simp

theorem Core.histRow_spec (c : Core) (f : Flight) (m : Nat) (l : Option (BitVec 9)) (k : Nat) :
    (c.histRow f m (lendMask l) k).length = f.counts.length ∧ ∀ p n, f.counts[p]? = some n →
      (c.histRow f m (lendMask l) k)[p]? = some (n + (List.range f.cols).countP fun i =>
        c.vec.bit ((l.getD 0).toNat / 64) (k * f.cols + i) && c.vpacked f f.a (elemSize m) (k * f.cols + i) == p) := by
  refine ⟨by simp [Core.histRow], fun p n h => ?_⟩
  simp only [Core.histRow, List.getElem?_map, List.getElem?_zipIdx, h, Option.map_some, Nat.zero_add,
    ← List.countP_eq_length_filter, Core.sel, VecFile.maskBit_eq_bit]
  rfl

theorem vector_row_read : Claim.VectorRowRead := by
  intro s c u j k f h
  obtain ⟨memories, registers⟩ := Core.vread_same (s.ctx c) (f.next j) k (c.moved f j)
  have stays {g : Flight} (hg : f.Holds j g) (hl : g.live = true) := Core.mem_flights_of_flight?
    (h.flight?_setOf (d := (c.moved f j).busy 1) rfl hg (Flight.stays_of_live hl))
  refine ⟨_, makes_event h (rfl : execVectorRowRead u j s = _), memories, registers, ?_, ?_, ?_, ?_⟩
  · intro hm hh hf hc live
    by_cases hr : ∀ d a m l, f.instr ≠ .vrenorm d a m l
    · have e := Core.vread_row (x := s.ctx c) (f := f.next j) (c := c.moved f j) (j := k) hf hc hm hh hr
      dsimp only
      rw [e]
      obtain ⟨mem, uid⟩ := stays (g := { f.next j with
        data := f.data ++ [(k, ((c.moved f j).busy 1).vrow (s.ctx c) (f.next j) k)] }) ⟨rfl, rfl, rfl, rfl⟩ live
      exact ⟨_, mem, uid, rfl, fun d a m l hi => absurd hi (hr d a m l)⟩
    · push Not at hr
      obtain ⟨d, a, m, l, hi⟩ := hr
      have e := Core.vread_vrenorm (x := s.ctx c) (f := f.next j) (c := c.moved f j) (j := k) hf hc hi
      dsimp only at e ⊢
      rw [e]
      obtain ⟨mem, uid⟩ := stays (g := { f.next j with
        data := f.data ++ [(k, ((c.moved f j).busy 1).vrow (s.ctx c) (f.next j) k)]
        degen := _ }) ⟨rfl, rfl, rfl, rfl⟩ live
      refine ⟨_, mem, uid, rfl, fun d' a' m' l' hi' => ?_⟩
      obtain ⟨-, -, rfl, rfl⟩ := Instr.vrenorm.inj (hi.symm.trans hi')
      refine congrArg (f.degen + ·) (if_congr ?_ rfl rfl)
      rw [Core.rowOf_eq]
      exact degenerateRow_iff ..
  · intro b a m l hi hf hc live
    have e := Core.vread_vhist (x := s.ctx c) (f := f.next j) (c := c.moved f j) (j := k) hf hc hi
    dsimp only
    rw [e]
    obtain ⟨mem, uid⟩ := stays (g := { (f.next j).countsFrom b k with
      counts := (c.moved f j).histRow ((f.next j).countsFrom b k) m.toNat (lendMask l) k }) ⟨rfl, rfl, rfl, rfl⟩ live
    exact ⟨_, mem, uid, Core.histRow_spec (c.moved f j) ((f.next j).countsFrom b k) m.toNat l k⟩
  · intro d a l hi hf hc n
    have e := Core.vread_mpop (x := s.ctx c) (f := f.next j) (c := c.moved f j) (j := k) hf hc hi
    have hn : (f.next j).len + ((List.range (f.next j).cols).filter fun i =>
        (c.moved f j).vec.maskBit (f.next j).a (k * (f.next j).cols + i)).length = n := by
      rw [← List.countP_eq_length_filter]
      simp only [VecFile.maskBit_eq_bit]; rfl
    rw [hn] at e
    refine ⟨fun hk live => ?_, fun hk => ?_⟩
    · have e := e.trans (if_neg hk)
      rw [e]
      obtain ⟨mem, uid⟩ := stays (g := { f.next j with len := n }) ⟨rfl, rfl, rfl, rfl⟩ live
      exact ⟨_, mem, uid, rfl⟩
    · have e := e.trans (if_pos hk)
      rw [e]
      exact ⟨_, rfl, rfl, rfl⟩
  · intro d a m l hi
    simp only [Core.vrow, hi, vfields, bypassOf]

/-- Settles O22: a row's read by the kind of instruction that reads, a row's write as a write of the runs held for it, and the
sources as the vector and bypass registers hold them. -/
theorem vectorRowEvents : Obligations.VectorRowEvents := ⟨vector_row_read, vector_row_write, transpose_write, vector_sources⟩

end Sys2Proof.Machine
end

section
namespace Sys2Proof.Machine

/-! # A syllable's issue (O55) -/

/-- What no syllable changes at its issue: registers, memories, watchpoints and windows. -/
def Core.kept (c : Core) :=
  (c.regs, c.sp.mem, c.vec, c.arr.acc, c.arr.grad, c.phys.hbm, c.wp, c.windows)

/-- What a syllable's issue does to its core at cycle `now`: it keeps the core's registers and memories, and owes changes that are
due later (R11, R138). -/
def Core.OnlyOwes (now : Nat) (c c' : Core) : Prop :=
  c'.kept = c.kept ∧ ∃ l, c'.pends = c.pends ++ l ∧ ∀ p ∈ l, now < p.due

namespace Core.OnlyOwes

/-- A change of what is neither kept nor owed. -/
theorem of_kept {t : Nat} {c c' : Core} (h : c'.kept = c.kept) (hp : c'.pends = c.pends) : c.OnlyOwes t c' :=
  ⟨h, [], by rw [hp, List.append_nil], fun _ hm => absurd hm List.not_mem_nil⟩

theorem refl (t : Nat) (c : Core) : c.OnlyOwes t c := of_kept rfl rfl

theorem trans {t : Nat} {a b c : Core} (h : a.OnlyOwes t b) (k : b.OnlyOwes t c) : a.OnlyOwes t c := by
  obtain ⟨hk, l, hl, hd⟩ := h
  obtain ⟨kk, m, km, kd⟩ := k
  exact ⟨kk.trans hk, l ++ m, by rw [km, hl, List.append_assoc], List.forall_mem_append.mpr ⟨hd, kd⟩⟩

theorem errors {t : Nat} {c c' : Core} (h : c.SameButErrors c') : c.OnlyOwes t c' := by
  refine of_kept ?_ h.butFlights.pends
  rw [Core.SameButErrors] at h
  rw [h]; rfl

theorem fly (t : Nat) (f : Flight) (c : Core) : c.OnlyOwes t (c.fly f) := of_kept rfl rfl

/-- A change that is owed for a later cycle. -/
theorem later (x : Ctx) (cls pos : Nat) {n : Nat} (w : Deferred) (c : Core) (hn : 0 < n) :
    c.OnlyOwes x.now (c.later x cls pos n w) :=
  ⟨rfl, [_], rfl, fun p hp => by rw [List.mem_singleton.mp hp]; exact Nat.lt_add_of_pos_right hn⟩

theorem raise (t : Nat) (x : Ctx) (r : TrapRec) (c : Core) : c.OnlyOwes t (c.raise x r) := errors (Core.raise_same ..)

theorem readUnits (t : Nat) (x : Ctx) (r : TrapRec) (a : Nat) (us : List Nat) (c : Core) :
    c.OnlyOwes t (c.readUnits x r a us).1 := errors (Core.readUnits_same ..)

theorem transfer (t : Nat) (x : Ctx) (w : Bool) (f : Flight) (c : Core) : c.OnlyOwes t (c.transfer x w f) :=
  (errors (Core.watch_same ..)).trans (fly ..)

theorem repeats (t : Nat) (f : Flight) (str : Nat → List Stream) (w n i : Nat) (c : Core) :
    c.OnlyOwes t (c.repeats f str w n i) := by
  induction n generalizing i c with
  | zero => exact refl t c
  | succ n ih => exact (fly t _ c).trans (ih _ _)

theorem startLoop (t trip : Nat) (o : BitVec 12) (c : Core) : c.OnlyOwes t (c.startLoop trip o) := by
  unfold Core.startLoop
  dsimp only
  split <;> exact of_kept rfl rfl

theorem channel (t : Nat) (x : Ctx) (i : Instr) (k : ChCmd) (b row : Nat) (u : Bool) {eff : Core → Core}
    (h : ∀ c : Core, c.OnlyOwes t (eff c)) (c : Core) : c.OnlyOwes t (c.channel x i k b row u eff) := by
  unfold Core.channel
  split
  · exact raise ..
  · split
    · exact raise ..
    · exact ((of_kept rfl rfl : c.OnlyOwes t { c with chan := c.chan.apply k b x.now row }).trans (h _)).trans (of_kept rfl rfl)

theorem readColumn (t : Nat) (x : Ctx) (i : Instr) (b col addr tag : Nat) (h : Option Nat) (prod : Bool) (c : Core) :
    c.OnlyOwes t (c.readColumn x i b col addr tag h prod) := by
  unfold Core.readColumn
  dsimp only
  split
  · exact (readUnits ..).trans (fly ..)
  · exact (readUnits ..).trans (of_kept rfl rfl)

theorem writeColumn (t : Nat) (x : Ctx) (i : Instr) (b col addr : Nat) (c : Core) :
    c.OnlyOwes t (c.writeColumn x i b col addr) := fly ..

end Core.OnlyOwes

/-! ## A weight load's descriptors -/

theorem ArrayState.setDesc_acc (b s : Nat) (d : BitVec 32) (a : ArrayState) :
    (a.setDesc b s d).acc = a.acc ∧ (a.setDesc b s d).grad = a.grad := by
  unfold ArrayState.setDesc
  split <;> exact ⟨rfl, rfl⟩

/-- A weight load's issue changes descriptors, weights and scales, not the accumulator store. -/
theorem ArrayState.beginLoad_acc (e s fmt alt4 b : Nat) (a : ArrayState) :
    (a.beginLoad e s fmt alt4 b).acc = a.acc ∧ (a.beginLoad e s fmt alt4 b).grad = a.grad := by
  have set (b s : Nat) (d e : BitVec 32) (b' s' : Nat) : ((a.setDesc b s d).setDesc b' s' e).acc = a.acc ∧
      ((a.setDesc b s d).setDesc b' s' e).grad = a.grad :=
    ⟨(setDesc_acc ..).1.trans (setDesc_acc ..).1, (setDesc_acc ..).2.trans (setDesc_acc ..).2⟩
  unfold ArrayState.beginLoad
  dsimp only
  split
  · exact set ..
  · split
    · exact set ..
    · exact setDesc_acc ..

theorem ArrayState.beginLoads_acc (e s fmt alt4 : Nat) (bs : List Nat) (a : ArrayState) :
    (bs.foldl (fun a b => a.beginLoad e s fmt alt4 b) a).acc = a.acc ∧
      (bs.foldl (fun a b => a.beginLoad e s fmt alt4 b) a).grad = a.grad := by
  induction bs generalizing a with
  | nil => exact ⟨rfl, rfl⟩
  | cons b bs ih =>
    have one := beginLoad_acc e s fmt alt4 b a
    exact ⟨(ih _).1.trans one.1, (ih _).2.trans one.2⟩

theorem Core.loadBegun_same (s fmt : Nat) (bs : List Nat) (a : ArrayState) (c : Core) :
    c.SameButErrors (c.loadBegun s fmt bs a) := by
  refine .fold (fun c b => ?_) c
  have desc := Core.writeUnits_same 4 (descCell b s) 4 c
  dsimp only
  split
  · exact desc.trans ((Core.writeUnits_same ..).trans (Core.writeUnits_same ..))
  · exact desc

theorem Core.OnlyOwes.array {t : Nat} {c : Core} {a : ArrayState} (h : a.acc = c.arr.acc ∧ a.grad = c.arr.grad) :
    c.OnlyOwes t { c with arr := a } := by
  refine .of_kept ?_ rfl
  simp only [Core.kept, h.1, h.2]

/-! ## Every syllable -/

/-- A syllable's issue, where it answers a next state, changes its core alone, and of it only what is owed and in flight. -/
def OnlyOwes (s : State) (o : Host.Outcome State Fault Refusal) : Prop :=
  ∀ c t, s.actor = some c → o = .next t → ∃ c', t = s.setActor c' ∧ c.OnlyOwes s.now c'

/-- A syllable that is refused keeps all, so it is enough to look at its effect. -/
theorem onlyOwes_issueSyl {i : Instr} {eff : Ctx → Core → Core} {s : State}
    (h : ∀ (x : Ctx) (c : Core), c.OnlyOwes x.now (eff x c)) : OnlyOwes s (issueSyl i eff s) := by
  intro c t ha ht
  rcases issueSyl_cases i eff s with ⟨hn, -⟩ | ⟨d, hd, ⟨-, e⟩ | ⟨k, n, e⟩⟩
  · rw [ha] at hn; cases hn
  · obtain rfl := Option.some.inj (ha.symm.trans hd)
    exact ⟨_, Host.Outcome.next.inj (ht.symm.trans e), h (s.ctx c) c⟩
  · obtain rfl := Option.some.inj (ha.symm.trans hd)
    exact ⟨_, Host.Outcome.next.inj (ht.symm.trans e), .raise ..⟩

section
variable {s : State} {i : Instr}

theorem onlyOwes_scalarOp {n : Nat} {d : BitVec 6} {v : Regs → Word} (hn : 0 < n) : OnlyOwes s (scalarOp i n d v s) :=
  onlyOwes_issueSyl fun _ _ => .later _ _ _ _ _ hn

theorem onlyOwes_laterS {w : Ctx → Core → Deferred} : OnlyOwes s (issueSyl i (fun x c => c.laterS x 1 (w x c)) s) :=
  onlyOwes_issueSyl fun _ _ => .later _ _ _ _ _ Nat.one_pos

theorem onlyOwes_mtsOp {a : BitVec 6} {r : BitVec 16} : OnlyOwes s (mtsOp i a r s) := onlyOwes_laterS

theorem onlyOwes_later {cls : Nat} {w : Ctx → Core → Deferred} :
    OnlyOwes s (issueSyl i (fun x c => c.later x cls c.seq.pos 1 (w x c)) s) :=
  onlyOwes_issueSyl fun _ _ => .later _ _ _ _ _ Nat.one_pos

theorem onlyOwes_fly {f : Ctx → Core → Flight} : OnlyOwes s (issueSyl i (fun x c => c.fly (f x c)) s) :=
  onlyOwes_issueSyl fun _ _ => .fly ..

theorem onlyOwes_transfer {w : Bool} {f : Ctx → Core → Flight} :
    OnlyOwes s (issueSyl i (fun x c => c.transfer x w (f x c)) s) :=
  onlyOwes_issueSyl fun _ _ => .transfer ..

theorem onlyOwes_vrowOp {k : Nat} {d a b : BitVec 6} {l : Option (BitVec 9)} : OnlyOwes s (vrowOp i k d a b l s) :=
  onlyOwes_issueSyl fun _ _ => .repeats ..

theorem onlyOwes_vlateOp {e : Eff} {k : Nat} {d a : BitVec 6} {l : Option (BitVec 9)} : OnlyOwes s (vlateOp i e k d a l s) :=
  onlyOwes_issueSyl fun _ _ => .repeats ..

theorem onlyOwes_vmaskOp {d a b : BitVec 6} {l : Option (BitVec 9)} : OnlyOwes s (vmaskOp i d a b l s) :=
  onlyOwes_issueSyl fun _ _ => .repeats ..

theorem onlyOwes_vbaseOp {k : Nat} {d b : BitVec 6} {l : Option (BitVec 9)} : OnlyOwes s (vbaseOp i k d b l s) :=
  onlyOwes_issueSyl fun _ _ => .repeats ..

theorem onlyOwes_same {eff : Ctx → Core → Core} (hk : ∀ x c, (eff x c).kept = c.kept)
    (hp : ∀ x c, (eff x c).pends = c.pends) :
    OnlyOwes s (issueSyl i eff s) :=
  onlyOwes_issueSyl fun x c => .of_kept (hk x c) (hp x c)

theorem onlyOwes_sendOp {d a b : BitVec 6} : OnlyOwes s (sendOp i d a b s) := by
  refine onlyOwes_issueSyl fun x c => ?_
  dsimp only
  split
  · exact .raise ..
  · split
    · exact .refl ..
    · exact .of_kept rfl rfl

theorem onlyOwes_atomicOp {d a : BitVec 6} {f : BitVec 2} {r : Option (BitVec 6)} : OnlyOwes s (atomicOp i d a f r s) := by
  refine onlyOwes_issueSyl fun x c => ?_
  dsimp only
  split
  · exact .raise ..
  · split
    · exact .raise ..
    · exact .of_kept rfl rfl

theorem onlyOwes_prepOp {k : BitVec 4} {hi : Bool} {a b : BitVec 8} : OnlyOwes s (prepOp i k hi a b s) :=
  onlyOwes_issueSyl fun x _ => (Core.OnlyOwes.of_kept rfl rfl).trans (.later x 1 _ _ _ Nat.one_pos)

theorem onlyOwes_loopq {o : BitVec 12} : OnlyOwes s (execLoopq o s) := by
  refine onlyOwes_issueSyl fun x c => ?_
  split
  · split
    · exact .startLoop ..
    · exact .raise ..
  · next v vs _ =>
    have popped (d : Core) : d.OnlyOwes x.now { d with q := { d.q with cq := vs, cqHead := d.q.cqHead + 1 } } := .of_kept rfl rfl
    have read := (Core.OnlyOwes.readUnits x.now x (c.preciseTrap (.loopq o) 0x0D 0) 6 (unitsOf (cqCell c.q.cqHead) 2) c).trans
      (popped _)
    dsimp only
    split
    · exact read.trans (.startLoop ..)
    · exact read

theorem onlyOwes_wnext {k : BitVec 4} {c : BitVec 1} {d : BitVec 6} : OnlyOwes s (execWnext k c d s) := by
  refine onlyOwes_issueSyl fun x co => ?_
  have owe (w v : Deferred) (e : Core) : e.OnlyOwes x.now ((e.laterS x 1 w).laterS x 1 v) :=
    (Core.OnlyOwes.later _ _ _ _ _ Nat.one_pos).trans (.later _ _ _ _ _ Nat.one_pos)
  split
  · have stepped (e : Core) : e.OnlyOwes x.now { e with q := { e.q with cursor := e.q.cursor + 1 } } := .of_kept rfl rfl
    have read := (Core.OnlyOwes.readUnits x.now x
      (co.preciseTrap (.wnext k c d) 0x0D 0) 6 (unitsOf (sowCell co.q.cursor) 8) co).trans
      (stepped _)
    dsimp only
    split
    · exact read.trans (owe ..)
    · exact read
  · exact owe ..

theorem onlyOwes_drain {n : BitVec 4} : OnlyOwes s (execDrain n s) := by
  refine onlyOwes_issueSyl fun _ _ => ?_
  dsimp only
  split <;> exact .of_kept rfl rfl

theorem onlyOwes_mfc {d n : BitVec 6} : OnlyOwes s (execMfc d n s) := by
  change OnlyOwes s (exec (.mfc d n) s)
  rw [exec_mfc]
  refine onlyOwes_issueSyl fun x c => ?_
  have read := Core.OnlyOwes.errors (t := x.now) (Core.readsHead_same x d n c)
  split
  · exact read.trans (.later _ _ _ _ _ Nat.one_pos)
  · exact read

theorem onlyOwes_wld {t : BitVec 4} {k : BitVec 2} {b e : BitVec 8} : OnlyOwes s (execWld t k b e s) := by
  refine onlyOwes_issueSyl fun x c => ?_
  have read := Core.OnlyOwes.errors (t := x.now) (Core.readUnits_same x { c.preciseTrap (.wld t k b e) 0x0D 0 with kind := 1 } 4
    ((banksOf b).flatMap fun b => [k.toNat].map fun s => descCell b s / 8) c)
  dsimp only
  split
  · exact read
  · exact ((read.trans (.array (ArrayState.beginLoads_acc ..))).trans (.errors (Core.loadBegun_same ..))).trans (.fly ..)

theorem onlyOwes_mtag {t a : BitVec 6} : OnlyOwes s (execMtag t a s) := by
  refine onlyOwes_issueSyl fun x c => ?_
  have read := Core.OnlyOwes.errors (t := x.now) (Core.readArrays_same x { c.preciseTrap (.mtag t a) 0x0D 0 with kind := 1 }
    (regUnits a.toNat 0 256) c)
  dsimp only
  split
  · exact read
  · exact read.trans (.later _ _ _ _ _ Nat.one_pos)

theorem onlyOwes_mmiss {d : BitVec 6} : OnlyOwes s (execMmiss d s) := by
  refine onlyOwes_issueSyl fun x c => ?_
  have emptied (e : Core) : e.OnlyOwes x.now { e with q := { e.q with miss := [] } } := .of_kept rfl rfl
  have read := (Core.OnlyOwes.readUnits x.now x { c.preciseTrap (.mmiss d) 0x0D 0 with kind := 1 } 6
    ((List.range c.q.miss.length).map fun k => missCell k / 8) c).trans (emptied _)
  dsimp only
  split
  · exact read.trans (.fly ..)
  · exact read

theorem onlyOwes_dgln {d a b : BitVec 6} {m : BitVec 4} : OnlyOwes s (execDgln d a b m s) := by
  refine onlyOwes_issueSyl fun x c => ?_
  dsimp only
  split
  · exact .refl ..
  · exact .fly ..

theorem onlyOwes_dhget {d a b : BitVec 6} {n : BitVec 4} : OnlyOwes s (execDhget d a b n s) := by
  refine onlyOwes_issueSyl fun x c => ?_
  dsimp only
  split
  · exact .raise ..
  · split
    · exact .raise ..
    · exact .fly ..

theorem onlyOwes_dhput {d a b : BitVec 6} {n : BitVec 4} : OnlyOwes s (execDhput d a b n s) := by
  refine onlyOwes_issueSyl fun x c => ?_
  dsimp only
  split
  · exact .raise ..
  · split
    · exact .raise ..
    · exact .of_kept rfl rfl
end

/-! ## The dispatch -/

/-- Every syllable but eret, whose last return also moves its launch on. -/
theorem onlyOwes_exec (s : State) {i : Instr} (hi : i.encodable = true) (he : i ≠ .eret) : OnlyOwes s (exec i s) := by
  unfold exec
  cases i
  case sadd | ssub | sand | sor | sxor | sshl | sshr | ssra | smul | smulh | sdiv | srem | smin | smax | sclz | spop | saddi | sandi
    | sori | sxori | sshli | sshri | ssrai | smuli | sli | slhi | sadr | ssel | sext | cread =>
    exact onlyOwes_scalarOp (Nat.succ_pos _)
  case scmp | scmpi | kset | ksetReg | cadd | ctest | ctestReg | adv | hset | hget | mtc | ovld => exact onlyOwes_laterS
  case mts | itlbinv | iptroot | ctxid | windowTable | errstat | einj => exact onlyOwes_mtsOp
  case vshape | mpat | mzero => exact onlyOwes_later
  case prep | prepHi => exact onlyOwes_prepOp
  case loop | loopReg => exact onlyOwes_issueSyl fun _ _ => .startLoop ..
  case trap => exact onlyOwes_issueSyl fun _ _ => .raise ..
  case mfs => exact onlyOwes_issueSyl fun _ _ => (Core.OnlyOwes.of_kept rfl rfl).trans (.later _ _ _ _ _ Nat.one_pos)
  case loopq => exact onlyOwes_loopq
  case wnext => exact onlyOwes_wnext
  case drain => exact onlyOwes_drain
  case mfc => exact onlyOwes_mfc
  case head | fend | rfence | vjoin | bclose | caddR | dcan | nop | hpf | hintSpace | undefinedOpcode =>
    exact onlyOwes_same (fun _ _ => rfl) fun _ _ => rfl
  case vadd | vsub | vmul | vfma | vmin | vmax | vabs | vneg | vand | vor | vxor | vshl | vshr | vsra | vsel | vexp | vlog
    | vrcp | vrsqrt | vtanh | vthr | vbcast | vperm => exact onlyOwes_vrowOp
  case vsumr | vmaxr | vrenorm | vtrn => exact onlyOwes_vlateOp
  case viota | vrand => exact onlyOwes_vbaseOp
  case mand | mor | mnot => exact onlyOwes_vmaskOp
  case vcmp | vcas | vcvt | vwid | vhist | mpop => exact onlyOwes_issueSyl fun _ _ => .repeats ..
  case wld => exact onlyOwes_wld
  case wset | wclr | mma | mmaz | mmag | mdrn | mgdrn | sqld | dcp => exact onlyOwes_fly
  case mtag => exact onlyOwes_mtag
  case mmiss => exact onlyOwes_mmiss
  case ld | ldh | ldt | ldth | lds | ldm | st | sth | stt | stth | sts | stm => exact onlyOwes_transfer
  case dput | dred => exact onlyOwes_sendOp
  case amo | amor => exact onlyOwes_atomicOp
  case dgln => exact onlyOwes_dgln
  case dhget => exact onlyOwes_dhget
  case dhput => exact onlyOwes_dhput
  case chact | chactReg | chpre | chpra | chref | chrefb => exact onlyOwes_issueSyl fun _ _ => .channel _ _ _ _ _ _ _ (.refl _) _
  case chrd | chrdHandle => exact onlyOwes_issueSyl fun _ _ => .channel _ _ _ _ _ _ _ (fun _ => .readColumn ..) _
  case chwr | chwrHandle => exact onlyOwes_issueSyl fun _ _ => .channel _ _ _ _ _ _ _ (fun _ => .writeColumn ..) _
  case eret => exact absurd rfl he
  all_goals cases hi

theorem State.returned_same (l : LaunchId) (s : State) : (s.returned l).cores = s.cores ∧ (s.returned l).images = s.images ∧
    (s.returned l).parts = s.parts ∧ (s.returned l).mgmt = s.mgmt ∧ (s.returned l).now = s.now := by
  unfold State.returned
  split
  · exact ⟨rfl, rfl, rfl, rfl, rfl⟩
  · dsimp only
    split <;> exact ⟨rfl, rfl, rfl, rfl, rfl⟩

/-- The effect of an eret on its core (R159, R276). -/
def Core.leaves (x : Ctx) (c : Core) : Core :=
  { c with
    phys := { c.phys with sysMode := false }, seq := { c.seq with stuck := true }
    backAt := x.now + ceilDiv (maskBytes x.la.landing c.phys.savemask) 64 }

theorem onlyOwes_eret {s t : State} {c : Core} (ha : s.actor = some c) (h : exec .eret s = .next t) :
    ∃ c', c.OnlyOwes s.now c' ∧ (t = s.setActor c' ∨ ∃ l, t = (s.setActor c').returned l) := by
  have issue : OnlyOwes s (issueSyl .eret Core.leaves s) := onlyOwes_same (fun _ _ => rfl) fun _ _ => rfl
  change (match issueSyl .eret Core.leaves s with
    | .next s' => _
    | o => o) = _ at h
  cases e : issueSyl .eret Core.leaves s with
  | next u =>
    obtain ⟨c', rfl, owes⟩ := issue c u ha e
    rw [e] at h
    simp only [ha] at h
    cases Host.Outcome.next.inj h
    refine ⟨c', owes, ?_⟩
    split
    · exact .inr ⟨_, rfl⟩
    · exact .inl rfl
  | fault f => rw [e] at h; cases h
  | refused r => rw [e] at h; cases h

theorem onlyOwes_syllable {s t : State} {c : Core} {i : Instr} (hi : i.encodable = true) (ha : s.actor = some c)
    (h : exec i s = .next t) : ∃ c', c.OnlyOwes s.now c' ∧ (t = s.setActor c' ∨ ∃ l, t = (s.setActor c').returned l) := by
  by_cases he : i = .eret
  · subst he
    exact onlyOwes_eret ha h
  · obtain ⟨c', e, owes⟩ := onlyOwes_exec s hi he c t ha h
    exact ⟨c', owes, .inl e⟩

/-- Settles O55: a syllable is refused, which keeps all, or takes its effect, which owes changes and puts operations in flight. -/
theorem issueChangesNoRegister : Obligations.IssueChangesNoRegister := by
  intro s t c i hi ha h
  obtain ⟨c', ⟨kept, owed⟩, e⟩ := onlyOwes_syllable hi ha h
  have same : t.cores = (s.setActor c').cores ∧ t.images = (s.setActor c').images ∧ t.parts = s.parts ∧ t.mgmt = s.mgmt ∧
      t.now = s.now := by
    rcases e with rfl | ⟨l, rfl⟩
    · simp
    · simpa using State.returned_same l (s.setActor c')
  obtain ⟨cores, images, parts, mgmt, now⟩ := same
  simp only [Core.kept, Prod.mk.injEq] at kept
  obtain ⟨regs, mem, vec, acc, grad, hbm, wp, windows⟩ := kept
  exact ⟨c', cores, images, parts, mgmt, now, regs, mem, vec, acc, grad, hbm, wp, windows, owed⟩

end Sys2Proof.Machine
end
